-- ==== Sys2Proof/Word.lean ====
section
/-! DEFINITION. The words of the VK4: 64-bit machine words, bytes, binary32 patterns and the wide
containers the spec names (256-bit command words, 128-byte shape records, 512-byte slots, 8 KiB
vector registers). -/

namespace Sys2Proof

/-- An x register, a 64-bit location, a patch word (R5). -/
abbrev Word := BitVec 64
/-- One byte of memory (R5). -/
abbrev Byte := BitVec 8
/-- A binary32 pattern or an instruction word (R29, R51). -/
abbrev Word32 := BitVec 32
/-- A tile command word, 256 bits (R59). -/
abbrev CmdBits := BitVec 256
/-- A shape record as `hld` loads it, 128 bytes (R213, R227). -/
abbrev Record := BitVec 1024
/-- The data bytes of a data-queue slot, 512 bytes (R148). -/
abbrev Row := BitVec 4096
/-- A vector register, 8,192 bytes (R258). -/
abbrev VReg := BitVec 65536
/-- A predicate register, 8,192 bits (R258). -/
abbrev PReg := BitVec 8192
/-- The name of an x or f register. -/
abbrev Reg := BitVec 5

end Sys2Proof
end

