-- ==== Sys2Proof/Syntax.lean ====
section
/-! DEFINITION. The syntax of the VK4: one constructor of `Instr` for each row of the table of
operations and events. Hart instructions carry their register fields and immediates, tile commands
carry the 256-bit command word cut at its header fields (`Cmd`), host requests carry the request
words (`Request`), and the steps of engines, links and the management processor carry what they
act on, with what reaches the device from outside as data. -/

namespace Sys2Proof

/-! ## Operands of the standard subset (R50) -/

inductive BranchOp | beq | bne | blt | bge | bltu | bgeu
deriving DecidableEq, Repr

inductive LoadOp | lb | lh | lw | ld | lbu | lhu | lwu | flw
deriving DecidableEq, Repr

inductive StoreOp | sb | sh | sw | sd | fsw
deriving DecidableEq, Repr

inductive ImmOp | addi | slti | sltiu | xori | ori | andi
deriving DecidableEq, Repr

inductive ShiftOp | sll | srl | sra
deriving DecidableEq, Repr

inductive AluOp
  | add | sub | sll | slt | sltu | xor | srl | sra | or | and
  | mul | mulh | mulhsu | mulhu | div | divu | rem | remu
deriving DecidableEq, Repr

inductive AluWOp | addw | subw | sllw | srlw | sraw | mulw | divw | divuw | remw | remuw
deriving DecidableEq, Repr

inductive FmaOp | fmadd | fmsub | fnmsub | fnmadd
deriving DecidableEq, Repr

inductive FArithOp | fadd | fsub | fmul | fdiv
deriving DecidableEq, Repr

inductive FSgnOp | fsgnj | fsgnjn | fsgnjx
deriving DecidableEq, Repr

inductive FCmpOp | feq | flt | fle
deriving DecidableEq, Repr

/-- The integer formats of the conversions: w, wu, l, lu. -/
inductive FInt | w | wu | l | lu
deriving DecidableEq, Repr

inductive CsrKind | rw | rs | rc
deriving DecidableEq, Repr

/-- A Zicsr instruction: `src` is the register rs1, or the zero-extended immediate when `imm`. -/
structure CsrOp where
  kind : CsrKind
  imm : Bool
  rd : Reg
  src : BitVec 5
  csr : BitVec 12
deriving DecidableEq, Repr

/-- The RV64IMF and Zicsr instructions that have no row of their own in the table (R50). A rounding
mode field is kept as encoded (R395). -/
inductive Base
  | lui (rd : Reg) (imm : BitVec 20)
  | auipc (rd : Reg) (imm : BitVec 20)
  | jal (rd : Reg) (off : BitVec 20)
  | jalr (rd rs1 : Reg) (imm : BitVec 12)
  | branch (op : BranchOp) (rs1 rs2 : Reg) (off : BitVec 12)
  | opImm (op : ImmOp) (rd rs1 : Reg) (imm : BitVec 12)
  | shiftImm (op : ShiftOp) (rd rs1 : Reg) (sh : BitVec 6)
  | addiw (rd rs1 : Reg) (imm : BitVec 12)
  | shiftImmW (op : ShiftOp) (rd rs1 : Reg) (sh : BitVec 5)
  | alu (op : AluOp) (rd rs1 rs2 : Reg)
  | aluW (op : AluWOp) (rd rs1 rs2 : Reg)
  | fma (op : FmaOp) (rd rs1 rs2 rs3 : Reg) (rm : BitVec 3)
  | farith (op : FArithOp) (rd rs1 rs2 : Reg) (rm : BitVec 3)
  | fsqrt (rd rs1 : Reg) (rm : BitVec 3)
  | fsgn (op : FSgnOp) (rd rs1 rs2 : Reg)
  | fminmax (max : Bool) (rd rs1 rs2 : Reg)
  | fcmp (op : FCmpOp) (rd rs1 rs2 : Reg)
  | fcvtToInt (it : FInt) (rd rs1 : Reg) (rm : BitVec 3)
  | fcvtFromInt (it : FInt) (rd rs1 : Reg) (rm : BitVec 3)
  | fmvXW (rd rs1 : Reg)
  | fmvWX (rd rs1 : Reg)
  | fclass (rd rs1 : Reg)
  | csrRead (c : CsrOp)
  | ecall
  | mret
deriving DecidableEq, Repr

/-! ## Tile commands (R59) -/

/-- A tile command word less its OP field, which the constructor stands for (R59). -/
structure Cmd where
  a : Bool
  u : Bool
  t : Bool
  sub : BitVec 8
  fmt : BitVec 4
  md : BitVec 4
  hmask : BitVec 16
  cmask : BitVec 16
  opnd : BitVec 128
  patch : Word
deriving DecidableEq, Repr

/-! ## Host requests (R377) -/

/-- A 64-byte request less its op field. -/
structure Request where
  ctx : BitVec 8
  rsv : BitVec 16
  tag : BitVec 32
  args : BitVec 448
deriving DecidableEq, Repr

/-! ## What engines, links and the outside world bring -/

/-- The kinds of link object (R350). -/
inductive LinkKind | mesh | stem | elevator | chiplet | jecen
deriving DecidableEq, Repr, Inhabited

structure Link where
  kind : LinkKind
  idx : Nat
deriving DecidableEq, Repr, Inhabited

/-- A flit on a link, by a number of its own (R350, log entry 61). -/
structure Flit where
  link : Link
  number : Nat
deriving DecidableEq, Repr

/-- How one remote element of a copy ended (R324). -/
inductive RemoteOutcome | delivered | lost | refused | torn
deriving DecidableEq, Repr

/-- The reply to the remote element at stream position `elem` of a gather or scatter: the tile and the queue number of the
copy (R314). -/
structure RemoteReply where
  tile : Nat
  seq : Nat
  elem : Nat
  outcome : RemoteOutcome
  data : Word
deriving DecidableEq, Repr

/-- Where an acknowledgement goes: a chip by its serial and, on that chip, the context, the context tile
and the queue sequence number of the message command. -/
structure MsgRef where
  serial : Word
  ctx : Nat
  ctile : Nat
  seq : Nat
deriving DecidableEq, Repr

/-- A message as it reaches a receive engine (R365, R369); `cut` holds the bytes that had arrived
when a link failed under it (R375). -/
structure Message where
  ctx : Nat
  domain : BitVec 16
  src : BitVec 16
  chan : BitVec 4
  cls : Nat
  tag : BitVec 32
  payload : List Byte
  cut : Option Nat
  sender : MsgRef
deriving DecidableEq, Repr

/-- A remote arrival at a barrier of this chip, and the class it travels in (R207, R357). -/
structure RemoteSignal where
  ctx : Nat
  va : Word
  cls : Nat
  sender : MsgRef
deriving DecidableEq, Repr

/-- The writes of a remote `tx.put` reaching this chip (R365), with its class; `cut` holds the bytes that had arrived when
a link failed under it (R375). With `copy` it is an element of a remote scatter of another chip's copy engine (R314; log entry 50). -/
structure RemotePut where
  ctx : Nat
  va : Word
  payload : List Byte
  word : Word
  cls : Nat
  cut : Option Nat
  sender : MsgRef
  copy : Bool := false
deriving DecidableEq, Repr

/-- The read of a remote `tx.get` reaching this chip, with its class (R365, R357). With `copy` it is an element of a remote gather of
another chip's copy engine (R314; log entry 50). -/
structure RemoteGet where
  ctx : Nat
  va : Word
  len : Nat
  cls : Nat
  sender : MsgRef
  copy : Bool := false
deriving DecidableEq, Repr

/-- Reply bytes of a `tx.get` of this chip, from byte `off` of its box; `status` other than 0 ends the
command with that outcome (R366, R375). -/
structure GetReply where
  ctx : Nat
  ctile : Nat
  seq : Nat
  off : Nat
  bytes : List Byte
  last : Bool
  status : BitVec 8
deriving DecidableEq, Repr

/-- A target's acknowledgement of a message command of this chip (R365, R366). -/
structure MsgAck where
  ctx : Nat
  ctile : Nat
  seq : Nat
  bytes : BitVec 32
  status : BitVec 8
deriving DecidableEq, Repr

/-- What an on-chip packet carries, as far as its loss is concerned (R355). -/
inductive PacketKind | read | write | other
deriving DecidableEq, Repr

/-- A packet at a node (R353): `source` keeps it while it is protected, `reply` says that it answers an access of its destination,
`cls` and `chan` are its class and channel, `ctx` is charged when it is lost. -/
structure Packet where
  node : Nat
  dest : Nat
  hops : Nat
  protect : Bool
  kind : PacketKind
  reply : Bool := false
  source : Nat
  seq : Nat
  cls : Nat
  chan : Nat
  ctx : Nat
deriving DecidableEq, Repr

/-- The windows of the host port (R376). -/
inductive Bar | bar0 | bar2 | bar4
deriving DecidableEq, Repr

/-- A host access through a window (R376): a write carries its bytes, a read its length. -/
structure BarAccess where
  bar : Bar
  off : Nat
  len : Nat
  data : Option (List Byte)
deriving DecidableEq, Repr

/-- What the flash reports at the end of programming a slot (R345): the erase unit, whether a source line was
uncorrectable, whether the stack met a power fault, and whether verify passed. -/
structure InstallEnd where
  unit : Nat
  poisoned : Bool
  powerFault : Bool
  verified : Bool
deriving DecidableEq, Repr

/-- The header of a signed record (R385). -/
structure RecordHeader where
  magic : Nat
  id : Nat
  version : Nat
  length : Nat
  binding : Nat
deriving DecidableEq, Repr, Inhabited

/-- An image slot of the configuration store as the ROM reads it (R385): the firmware image, the version that it gives itself, the key
that comes with it and the signature over its digest. -/
structure ImageSlot where
  image : List Byte
  version : BitVec 32
  key : List Byte
  signature : List Byte
deriving DecidableEq, Repr

/-- What boot finds (R352, R353, R384, R385): the image slots in order, the parts fitted, the ranges of tier H that the host grants, the
Jecen ports with optics, the peers behind ports, the chips that paths of Jecen links reach with the ports that lead toward them, how the
trainings of a link ended (lanes trained, 0 for a failure; a link not named passes with every lane at once), the LPDDR channels and flash
stacks that trained, and the stored records whose bytes fail their check. -/
structure BootFindings where
  slots : List ImageSlot
  serial : Word
  fittedD : Nat
  fittedF : Nat
  expanders : List Nat
  grantH : List (Nat × Nat)
  optics : List Nat
  peers : List (Nat × Word)
  chips : List (Word × List Nat)
  training : List (Link × List Nat)
  channels : List Nat
  flashStacks : List Nat
  badRecords : List Nat
deriving DecidableEq, Repr

/-! ## The steps -/

/-- One constructor for each row of the table. -/
inductive Instr
  /-- Writes imm20 × 2^12 into an f register, with no rounding and no flags. (R57) -/
  | fimmS (rd : Reg) (imm : BitVec 20)
  /-- Loads the binary32 literal word that follows the instruction word into an f register and continues at pc + 8; the pair is one 64-bit
  instruction. (R58) -/
  | flitS (rd : Reg) (lit : Word32)
  /-- Loads entry k of the context's constant bank into an f register, with no rounding. (R209) -/
  | fconstS (rd : Reg) (k : BitVec 8)
  /-- Sets coordinate register cN to X[xs1] plus the sign-extended immediate. (R212) -/
  | cset (c : BitVec 4) (rs1 : Reg) (imm : BitVec 12)
  /-- Loads a 128-byte shape record into handle register hN using sixteen plain loads. (R213) -/
  | hld (h : BitVec 4) (rs1 : Reg) (imm : BitVec 12)
  /-- Reads a command template, optionally patches it, checks its header, captures c and h registers and appends it to a command queue,
  returning the timeline target. (R65) -/
  | qput (rd : Reg) (q : BitVec 2) (rs1 rs2 : Reg)
  /-- Writes an atomic snapshot of a command queue's status word to xd. (R152) -/
  | qstatQ (rd : Reg) (q : BitVec 2)
  /-- Writes an atomic snapshot of a data queue's status word to xd. (R152) -/
  | qstatDq (rd : Reg) (q : BitVec 3)
  /-- Stalls until every command that the hart pushed into the queue has completed or been retired, then acquires their writes. (R154) -/
  | qsync (q : BitVec 2)
  /-- Tagged load served when the word is full; the bit is left full and the load acts as an acquire. (R217) -/
  | ldf (rd rs1 : Reg) (imm : BitVec 12)
  /-- Tagged load served when the word is full; it sets the word empty and acts as an acquire. (R217) -/
  | ldt (rd rs1 : Reg) (imm : BitVec 12)
  /-- Tagged store that always writes the word and sets it full, as a release. (R217) -/
  | stf (rs1 rs2 : Reg) (imm : BitVec 12)
  /-- Tagged store served when the word is empty; it writes the word and sets it full, as a release. (R217) -/
  | ste (rs1 rs2 : Reg) (imm : BitVec 12)
  /-- After an arrival or a write, the home serves the oldest held tagged request whose condition holds, repeating until none holds. (R218) -/
  | taggedRequestServed (word : Nat)
  /-- Unordered 64-bit load that bypasses the range table and the remote-read cache. (R241) -/
  | ldU (rd rs1 : Reg) (imm : BitVec 12)
  /-- Unordered 64-bit store that bypasses the range table and the remote-read cache. (R241) -/
  | sdU (rs1 rs2 : Reg) (imm : BitVec 12)
  /-- Memory-port atomic add at the home; returns the old value. (R221) -/
  | maAdd (rd rs1 rs2 : Reg)
  /-- Memory-port atomic signed minimum at the home. (R221) -/
  | maMin (rd rs1 rs2 : Reg)
  /-- Memory-port atomic signed maximum at the home. (R221) -/
  | maMax (rd rs1 rs2 : Reg)
  /-- Memory-port atomic AND at the home. (R221) -/
  | maAnd (rd rs1 rs2 : Reg)
  /-- Memory-port atomic OR at the home. (R221) -/
  | maOr (rd rs1 rs2 : Reg)
  /-- Memory-port atomic XOR at the home. (R221) -/
  | maXor (rd rs1 rs2 : Reg)
  /-- Memory-port atomic swap at the home. (R221) -/
  | maSwap (rd rs1 rs2 : Reg)
  /-- Memory-port atomic compare-and-swap, using the value that xd held at issue as the comparand. (R221) -/
  | maCas (rd rs1 rs2 : Reg)
  /-- Memory-port atomic increment that wraps the word to 0 once it reaches the bound. (R221) -/
  | maIncw (rd rs1 rs2 : Reg)
  /-- Memory-port atomic fp32 add, rounded at each application. (R221) -/
  | maFaddS (rd rs1 rs2 : Reg)
  /-- Memory-port atomic fp32 maximum of magnitudes, with the sign cleared. (R221) -/
  | maFmaxabsS (rd rs1 rs2 : Reg)
  /-- Memory-port atomic add that is applied only if the exact sum stays within the bound; xd[63] reports failure. (R222) -/
  | maAddb (rd rs1 rs2 rs3 : Reg)
  /-- Releases over all memory and adds n units to token counter tkN, clamping at 2^32 − 1. (R215) -/
  | tkGive (t : BitVec 4) (rs1 : Reg)
  /-- Joins the counter's waiters in arrival order, and consumes n units once it is the oldest waiter and enough units are present. (R215) -/
  | tkTake (t : BitVec 4) (rs1 : Reg)
  /-- Stalls until timeline X reaches n, then acquires operations 1 to n; a wait beyond the hart's own target traps. (R114) -/
  | tlWait (x : BitVec 3) (rs1 : Reg)
  /-- Writes a timeline counter's present value to xd, without waiting or acquiring. (R115) -/
  | tlRead (rd : Reg) (x : BitVec 3)
  /-- Scope fence: waits for earlier loads and writes (and, for a fabric scope, acknowledgements), then discards the remote-read cache. (R110) -/
  | fenceG (n : BitVec 5)
  /-- Arms wake slot k on a tier S word and waits until the watch is registered at the word's home. (R202) -/
  | warm (k : BitVec 2) (rs1 : Reg)
  /-- Stalls until a wake slot fires, then returns the mask of fired slots and disarms all four slots. (R203) -/
  | wsleep (rd : Reg)
  /-- Releases, then atomically counts an arrival at the barrier's home, advancing the phase when the count reaches parties; returns the
  phase token. (R199) -/
  | barrArrive (rd rs1 : Reg)
  /-- Waits until the barrier's phase differs from the token, then acquires and returns the difference. (R200) -/
  | barrWait (rd rs1 rs2 : Reg)
  /-- Releases, then appends n items to a stage queue, waiting for room. (R173) -/
  | spawn (rd rs1 rs2 : Reg)
  /-- Asks the stage for a chunk of input items; returns a chunk, reassigned, end or none now. (R170) -/
  | stgTake (rd : Reg)
  /-- Retires an outstanding chunk; its ring slots are freed once the loads and commands that read them complete. (R172) -/
  | stgDone (rs1 : Reg)
  /-- Once both harts have stopped, the tile is released and rebound at once by the first applicable rule. (R177) -/
  | kexitRelease (tile : Nat)
  /-- Reads one fp32 element of accumulator aN, trapping with code 27 while an owning anvil command is pending. (R223) -/
  | accrd (rd : Reg) (a : BitVec 1) (rs1 : Reg)
  /-- Waits for the most recent vany or vall that names vtN, then reads the vote register. (R224) -/
  | vread (rd : Reg) (vt : BitVec 2)
  /-- Cancels the q1 copy named by its tlc number, waits for acknowledgement, and returns the chunk count and a status. (R325) -/
  | cpcancel (rd rs1 : Reg)
  /-- Counts the posted receives or parked messages that match a probe record, and writes the oldest match's result into the record. (R374) -/
  | rxProbe (rd rs1 : Reg)
  /-- An RV64IMF instruction with standard effect, or an illegal-instruction trap for an absent extension. (R50) -/
  | baseInstruction (b : Base)
  /-- Plain hart load; it waits on conflicting range-table entries and may hit the remote-read cache. (R93) -/
  | plainLoad (op : LoadOp) (rd rs1 : Reg) (imm : BitVec 12)
  /-- Plain hart store; it waits on conflicting range-table entries, discards the written cache line and proceeds to the home. (R93) -/
  | plainStore (op : StoreOp) (rs1 rs2 : Reg) (imm : BitVec 12)
  /-- A CSR instruction that writes a register with no row of its own, with RW, W1C, W1S and WO fields handled as given and illegal
  accesses trapping. (R403) -/
  | csrWrite (c : CsrOp)
  /-- A write of v to rndtile reseeds both of the tile's generators with Seed(v, 0, id), ordered against pushes. (R40) -/
  | rndtileWrite (c : CsrOp)
  /-- Control command that completes when started. (R151) -/
  | cnop (c : Cmd)
  /-- Waits for every earlier command of its stream to complete, then advances its timeline once. (R151) -/
  | cbump (c : Cmd)
  /-- Waits for every earlier command of its stream, then writes PATCH to a word and sets it full, as a release. (R151) -/
  | cmark (c : Cmd)
  /-- Feeder reads nslot rows through a handle into data-queue slots. (R234) -/
  | fdRow (c : Cmd)
  /-- fd.row with SUB 1 delivers the logical coordinates of the stored positions of a compressed level handle. (R231) -/
  | fdRowCrd (c : Cmd)
  /-- Feeder reads rows selected by an index handle into slots. (R234) -/
  | fdGather (c : Cmd)
  /-- Feeder reads one row once and writes it into every reserved slot. (R234) -/
  | fdBcast (c : Cmd)
  /-- fd.bcast with SUB 1 reads one element per slot and writes it count times. (R234) -/
  | fdBcastSplat (c : Cmd)
  /-- Fills nslot slots with zero data and reads no memory. (R234) -/
  | fdSkip (c : Cmd)
  /-- Pops slots and writes their elements, and block scales where they apply, through a handle. (R236) -/
  | fdStore (c : Cmd)
  /-- Sort engine reads code row-blocks and writes stable sorted-code records with codebook and scale. (R249) -/
  | srtCodes (c : Cmd)
  /-- Zeroes the buckets of the named lanes and clears their used bits. (R252) -/
  | bkClear (c : Cmd)
  /-- Adds each int8 activation into its code's bucket exactly, per lane, after checking records, slots and scales. (R253) -/
  | bkSum (c : Cmd)
  /-- Multiplies each lane's buckets by their codewords, sums the products in two chains and writes fp32 outputs to a register or a slot. (R254) -/
  | bkFin (c : Cmd)
  /-- Ends any lease the tile holds, sets LL, and requests a lease of n commands, completing at the grant. (R293) -/
  | anLease (c : Cmd)
  /-- Loads weight columns, their block sizes and their scales into the shadow plane and sets its tag to 0. (R298) -/
  | anLdw (c : Cmd)
  /-- Exchanges the active and shadow planes and tags the new active plane. (R299) -/
  | anSwap (c : Cmd)
  /-- Streams activation rows from slots past the active plane into the accumulator chains. (R300) -/
  | anMul (c : Cmd)
  /-- As an.mul, with activation rows read through a handle at indexed rows. (R301) -/
  | anGmul (c : Cmd)
  /-- Closes the even and odd chains of the named accumulator rows into a0. (R302) -/
  | anClose (c : Cmd)
  /-- Writes accumulator rows out as fp32, bf16 or scaled m8 to a register or to slots. (R303) -/
  | anDrain (c : Cmd)
  /-- Ends the tile's lease once its started leasing commands are done. (R293) -/
  | anFree (c : Cmd)
  /-- Makes every element of the named rows of a0 and a1 empty. (R302) -/
  | anZero (c : Cmd)
  /-- When the lease is free, the anvil grants it to the next requesting tile in cyclic cluster order. (R292) -/
  | leaseGrant (cluster : Nat)
  /-- The lease ends when its idle time expires. (R292) -/
  | leaseIdleExpiry (cluster : Nat)
  /-- Copies a box of elements from source handle to destination handle in walk order. (R313) -/
  | cpNd (c : Cmd)
  /-- Copies with one source coordinate replaced by an index, optionally from a remote chip. (R314) -/
  | cpGather (c : Cmd)
  /-- Copies with one destination coordinate replaced by an index, optionally to a remote chip. (R314) -/
  | cpScatter (c : Cmd)
  /-- Decodes compressed blocks from a source stream into the destination, checking CRC, lengths and the watchdog. (R322) -/
  | cpDec (c : Cmd)
  /-- Applies a reduction to each destination element as a memory-port atomic. (R315) -/
  | cpRed (c : Cmd)
  /-- Writes a fill pattern to every unclipped destination element. (R316) -/
  | cpFill (c : Cmd)
  /-- Reads a walk to bring tier F lines into the staging cache, and discards the data. (R316) -/
  | cpPref (c : Cmd)
  /-- A remote element of a gather or scatter travels as one Jecen request and is applied at the target, or fails. (R314) -/
  | copyRemoteElement (reply : RemoteReply)
  /-- A command completes: its range entry retires, tokens are given, and the timeline advances if T = 1. (R113) -/
  | commandComplete (tile : Nat) (q : BitVec 2) (seq : Nat)
  /-- Elementwise integer add, wrapping or saturating. (R266) -/
  | vadd (c : Cmd)
  /-- Elementwise integer subtract. (R266) -/
  | vsub (c : Cmd)
  /-- Elementwise integer multiply, narrowed. (R266) -/
  | vmul (c : Cmd)
  /-- Elementwise high half of the integer product. (R266) -/
  | vmulh (c : Cmd)
  /-- Elementwise integer minimum. (R266) -/
  | vmin (c : Cmd)
  /-- Elementwise integer maximum. (R266) -/
  | vmax (c : Cmd)
  /-- Elementwise integer absolute value. (R266) -/
  | vabs (c : Cmd)
  /-- Elementwise integer negation. (R266) -/
  | vneg (c : Cmd)
  /-- Elementwise bitwise AND. (R266) -/
  | vand (c : Cmd)
  /-- Elementwise bitwise OR. (R266) -/
  | vor (c : Cmd)
  /-- Elementwise bitwise XOR. (R266) -/
  | vxor (c : Cmd)
  /-- Elementwise bitwise NOT. (R266) -/
  | vnot (c : Cmd)
  /-- Elementwise a AND NOT b. (R266) -/
  | vandn (c : Cmd)
  /-- Elementwise logical shift left. (R267) -/
  | vsll (c : Cmd)
  /-- Elementwise logical shift right. (R267) -/
  | vsrl (c : Cmd)
  /-- Elementwise arithmetic shift right. (R267) -/
  | vsra (c : Cmd)
  /-- Elementwise funnel shift of a two-word run. (R267) -/
  | vfsh (c : Cmd)
  /-- Extracts a bit field, optionally sign-extended. (R268) -/
  | vbfx (c : Cmd)
  /-- Inserts a bit field into vd. (R268) -/
  | vbfi (c : Cmd)
  /-- Elementwise population count. (R268) -/
  | vpopc (c : Cmd)
  /-- Elementwise count of leading zeros. (R268) -/
  | vclz (c : Cmd)
  /-- Writes a predicate of element equality. (R269) -/
  | vcmpEq (c : Cmd)
  /-- Writes a predicate of inequality. (R269) -/
  | vcmpNe (c : Cmd)
  /-- Writes a predicate of less-than. (R269) -/
  | vcmpLt (c : Cmd)
  /-- Writes a predicate of less-or-equal. (R269) -/
  | vcmpLe (c : Cmd)
  /-- Writes a predicate of greater-than. (R269) -/
  | vcmpGt (c : Cmd)
  /-- Writes a predicate of greater-or-equal. (R269) -/
  | vcmpGe (c : Cmd)
  /-- Predicate AND. (R270) -/
  | vpand (c : Cmd)
  /-- Predicate OR. (R270) -/
  | vpor (c : Cmd)
  /-- Predicate XOR. (R270) -/
  | vpxor (c : Cmd)
  /-- Predicate NOT. (R270) -/
  | vpnot (c : Cmd)
  /-- Sets the predicate bits of the range to aux[0]. (R270) -/
  | vpset (c : Cmd)
  /-- Selects elements from a or b by a selector predicate. (R271) -/
  | vsel (c : Cmd)
  /-- Floating-point add, rounded once. (R272) -/
  | vfadd (c : Cmd)
  /-- Floating-point subtract. (R272) -/
  | vfsub (c : Cmd)
  /-- Floating-point multiply. (R272) -/
  | vfmul (c : Cmd)
  /-- Fused multiply-add with one rounding. (R272) -/
  | vfma (c : Cmd)
  /-- Fused multiply-subtract with one rounding. (R272) -/
  | vfms (c : Cmd)
  /-- Floating-point minimum. (R272) -/
  | vfmin (c : Cmd)
  /-- Floating-point maximum. (R272) -/
  | vfmax (c : Cmd)
  /-- Clears the sign bit. (R272) -/
  | vfabs (c : Cmd)
  /-- Inverts the sign bit. (R272) -/
  | vfneg (c : Cmd)
  /-- Quantises fp32 to m8 with block scales, optionally derived, drawing for stochastic underflow. (R273) -/
  | vqm8 (c : Cmd)
  /-- Quantises fp32 to int8 with block scales. (R273) -/
  | vqi8 (c : Cmd)
  /-- Dequantises m8 to fp32 with block scales. (R273) -/
  | vdqm8 (c : Cmd)
  /-- Dequantises int8 to fp32 with block scales. (R273) -/
  | vdqi8 (c : Cmd)
  /-- Converts between element formats. (R273) -/
  | vcvt (c : Cmd)
  /-- Sums the active elements into one result. (R276) -/
  | vredsum (c : Cmd)
  /-- Largest active element. (R276) -/
  | vredmax (c : Cmd)
  /-- Smallest active element. (R276) -/
  | vredmin (c : Cmd)
  /-- Largest active magnitude. (R276) -/
  | vredmaxabs (c : Cmd)
  /-- Dot product of active elements, written to one element. (R277) -/
  | vdot (c : Cmd)
  /-- Permutes elements by an index register. (R278) -/
  | vperm (c : Cmd)
  /-- Rotates elements within the range. (R278) -/
  | vrot (c : Cmd)
  /-- Broadcasts one element or a scalar. (R278) -/
  | vsplat (c : Cmd)
  /-- Feeder loads vl elements through a handle into data-queue slots. (R279) -/
  | vld (c : Cmd)
  /-- Feeder gathers indexed elements into data-queue slots. (R280) -/
  | vgather (c : Cmd)
  /-- Stores active elements through a handle. (R281) -/
  | vst (c : Cmd)
  /-- Scatters active elements with plain writes. (R282) -/
  | vscatter (c : Cmd)
  /-- Scatter with an atomic integer add. (R282) -/
  | vscatterAdd (c : Cmd)
  /-- Scatter with an atomic signed minimum. (R282) -/
  | vscatterMin (c : Cmd)
  /-- Scatter with an atomic signed maximum. (R282) -/
  | vscatterMax (c : Cmd)
  /-- Scatter with an atomic fp32 add. (R282) -/
  | vscatterFadd (c : Cmd)
  /-- Scatter with an atomic fp32 maximum of magnitudes. (R282) -/
  | vscatterFmaxabs (c : Cmd)
  /-- vmov mode 0: register-to-register move. (R283) -/
  | vmovReg (c : Cmd)
  /-- vmov mode 1: claims slots and moves their data, and optionally their scales, into registers. (R283) -/
  | vmovFromDq (c : Cmd)
  /-- vmov mode 2: packs register elements into reserved slots. (R283) -/
  | vmovToDq (c : Cmd)
  /-- Writes the immediate PATCH pattern to each active element. (R283) -/
  | vmovi (c : Cmd)
  /-- Writes to each active element the count of set predicate bits before it. (R284) -/
  | viota (c : Cmd)
  /-- Writes a vote that any active predicate bit is set. (R285) -/
  | vany (c : Cmd)
  /-- Writes a vote that every active predicate bit is set. (R285) -/
  | vall (c : Cmd)
  /-- Sends a tensor payload as a tagged message to a domain member. (R365) -/
  | txSend (c : Cmd)
  /-- Writes a payload into the target context's memory, optionally filling a completion word there. (R365) -/
  | txPut (c : Cmd)
  /-- tx.put with SUB 1: a remote arrival at a barrier on the target chip. (R365) -/
  | txPutArrive (c : Cmd)
  /-- Reads bytes from the target context and lands them in a local box. (R365) -/
  | txGet (c : Cmd)
  /-- Posts a receive; it lands the oldest matching parked message at once, or is appended to the posted list. (R369) -/
  | rxPost (c : Cmd)
  /-- Withdraws the oldest posted receive with the given word, completing it with status 3. (R371) -/
  | rxCancel (c : Cmd)
  /-- A message reaching the receive engine is landed into the oldest matching posted receive, parked, or dropped with status 1. (R369) -/
  | messageArrival (m : Message)
  /-- After the payload is written, the receive's completion words are filled and tlr advances. (R370) -/
  | landingComplete (ctx : Nat)
  /-- A remote arrival performs the barrier home step on the target chip, and its outcome is acknowledged to the sender. (R207) -/
  | remoteArrival (a : RemoteSignal)
  /-- On the target, a put's writes are performed, then its completion word is filled. (R365) -/
  | remotePutWrite (p : RemotePut)
  /-- On the target, a get's bytes are read and sent back as replies. (R365) -/
  | remoteGetRead (g : RemoteGet)
  /-- Reply bytes of a tx.get land in the local box; after the last, the completion word is filled. (R365) -/
  | getReply (r : GetReply)
  /-- A target acknowledgement arrives; the status word and msgstat record the outcome. (R365) -/
  | messageAck (a : MsgAck)
  /-- A packet reaching a node is routed by that node's table, and is dropped past 64 hops. (R353) -/
  | packetArrival (p : Packet)
  /-- After a loss, a source resends its unacknowledged protected packets over the new route. (R355) -/
  | protectedResend (source : Nat)
  /-- A flit with a bad CRC is replayed; eight failed replays in a row fail the link. (R350) -/
  | flitCrcFail (flit : Flit)
  /-- Loss of one Jecen lane makes the port degraded, and loss of both makes it failed. (R352) -/
  | jecenLaneLost (port : Nat)
  /-- Link training passes (up, or degraded with one Jecen lane) or fails; a third failure makes the link failed. (R352) -/
  | trainingComplete (link : Link) (lanes : Nat)
  /-- A draining link with no committed packets, avoided by every table, becomes retired. (R352) -/
  | linkDrainComplete (link : Link)
  /-- A link that still holds packets 12,500 clk after draining began becomes failed. (R354) -/
  | linkDrainTimeout (link : Link)
  /-- The management processor updates one node's route table to avoid failed or retiring links. (R353) -/
  | routeTableUpdate (node dest : Nat) (via : List Link)
  /-- The scrubber reads a row, correcting it or zeroing an uncorrectable line. (R89) -/
  | patrolScrub (tile layer row : Nat)
  /-- The rebuild writes a retired bank's row symbols into the spare, at least one row per 64 clk. (R91) -/
  | rebuildStep (bank : Nat)
  /-- The spare replaces the retired bank, and the layer leaves the erased state. (R91) -/
  | rebuildComplete (bank : Nat)
  /-- A tile whose harts and commands have been idle for the gate time is gated. (R204) -/
  | tileGate (tile : Nat)
  /-- A waking write, binding, pre-emption or host request ungates the tile, and the harts resume. (R204) -/
  | tileUngate (tile : Nat)
  /-- At each epoch end, the scheduler gives unbound tiles to stages and marks donor tiles for recipients. (R178) -/
  | stageSchedulerEpoch (ctx : Nat)
  /-- A declared kernel starts loading once no earlier kernel of the context remains unretired. (R168) -/
  | kernelLoad (ctx : Nat)
  /-- Loading ends: the kernel runs with the initial binding, or is refused with reason 9 or 11. (R168) -/
  | kernelLoadComplete (ctx : Nat)
  /-- Once every stage has ended and every hart has exited and every command completed, the kernel retires. (R167) -/
  | kernelRetire (ctx : Nat)
  /-- Pre-emption starts when a soft request's grace time expires without a yield. (R134) -/
  | softPreemptGraceExpiry (ctx : Nat)
  /-- When every tile has finished saving, the context enters swapped-out and its clusters are freed. (R135) -/
  | saveComplete (ctx : Nat)
  /-- A host write of rqtail submits the ring's requests up to the new tail. (R377) -/
  | rqtailDoorbell (ring : Nat) (tail : Nat)
  /-- A host read or write through BAR 2 or BAR 4 reaches device physical space. (R376) -/
  | hostBarAccess (a : BarAccess)
  /-- Allocates the lowest free context id in the assembling state, with the default record. (R379) -/
  | create (r : Request)
  /-- Stores a context record, validating its fields. (R380) -/
  | writeRecord (r : Request)
  /-- Assigns clusters and makes the context resident, or refuses the commit. (R122) -/
  | commit (r : Request)
  /-- Validates a launch record and declares the kernel, or refuses it with a reason. (R165) -/
  | launch (r : Request)
  /-- Sets YR on every hart and starts the grace time. (R134) -/
  | preemptSoft (r : Request)
  /-- Starts pre-emption at once, superseding a soft request. (R134) -/
  | preemptHard (r : Request)
  /-- Moves a swapped-out context's shadow storage to its save area. (R137) -/
  | saveOut (r : Request)
  /-- Restores a swapped-out context onto free clusters and resumes it. (R137) -/
  | restore (r : Request)
  /-- Stops the context's work, withdraws its receives and releases its resources, superseding a pre-emption. (R139) -/
  | teardown (r : Request)
  /-- When no operation of a torn-down context remains in flight, its id returns to free. (R139) -/
  | releaseComplete (ctx : Nat)
  /-- Raises a context fault with reason 5 and the given code. (R132) -/
  | declareFault (r : Request)
  /-- Invalidates a translation, acknowledged after the chunks that hold it retire. (R98) -/
  | invalidate (r : Request)
  /-- Host request to move a page to a new frame, tier or chip. (R336) -/
  | movePage (r : Request)
  /-- At each 2^20 clk epoch, the barrow promotes, exchanges and demotes pages by their access counts. (R340) -/
  | barrowEpoch (ctx : Nat)
  /-- A move whose pins do not clear within mvwait is abandoned with status busy, and tlm advances with an error. (R335) -/
  | movePinWaitTimeout (ctx : Nat)
  /-- Once pins reach zero, the page enters moving, new writes stall and the contents are copied. (R337) -/
  | moveStart (ctx : Nat)
  /-- After the copy, the entry is written, the old translation is invalidated, stalled writes are released and tlm advances. (R339) -/
  | moveCommit (ctx : Nat)
  /-- The install engine takes the mailbox as an ldt would and starts the descriptor's install, or completes it with a code. (R343) -/
  | installTakeMailbox (ctx : Nat)
  /-- Programming ends: the target commits or keeps its old contents, the completion word is filled and tli advances. (R345) -/
  | installComplete (ctx : Nat) (r : InstallEnd)
  /-- Registers a fabric domain's member list and binds the matching fabric scope entries. (R382) -/
  | registerDomain (r : Request)
  /-- Withdraws a fabric domain and unbinds its scope entries. (R189) -/
  | withdrawDomain (r : Request)
  /-- Closes an open source queue, or every queue of the kernel for a drain. (R167) -/
  | closeQueue (r : Request)
  /-- Copies the selected state (fault record, mailbox, counters, logs, links or inventory) into a host buffer. (R381) -/
  | hostRead (r : Request)
  /-- Enables a link, which then enters training. (R352) -/
  | linkEnable (r : Request)
  /-- Starts retirement of a link, which enters draining. (R354) -/
  | linkRetire (r : Request)
  /-- Retrains a failed Jecen port, at most three times in 2^32 clk. (R352) -/
  | linkRetrain (r : Request)
  /-- Sets the active or capped power state and its cap. (R389) -/
  | power (r : Request)
  /-- Writes an attestation report signed with the identity key. (R387) -/
  | attest (r : Request)
  /-- Stores a signed configuration record after checking its signature and version. (R385) -/
  | installRecord (r : Request)
  /-- Submits an install descriptor directly, completing when the install completes. (R379) -/
  | installWeights (r : Request)
  /-- At power-on, the ROM verifies the firmware, checks the records, trains links, builds the inventory and sets devready. (R385) -/
  | boot (b : BootFindings)
  /-- An expander leaving the port makes its range unfitted and is logged. (R384) -/
  | cxlExpanderRemoval (base : Nat)
  /-- A fetched word that is an unassigned custom-opcode pattern, has a register index out of range or a nonzero must-be-zero field, runs
  on a disallowed hart, or is not a 32-bit encoding traps as an illegal instruction. (R54) -/
  | illegalInstruction (w : Word32)
  /-- A host write to a BAR 0 device register (rqbase, rqsize, cqbase or cqvec of a ring, or apbase) stores the value, or is ignored when
  it targets rqbase, rqsize or cqbase while rqhead differs from rqtail. (R377) -/
  | deviceRegisterWrite (offset : Nat) (v : Word)
  /-- Retraining of a degraded Jecen port restores both lanes, and the port returns from degraded to up at full rate. (R352) -/
  | jecenLaneRestored (port : Nat)
  /-- A stalled qsync resumes once its queue's outstanding commands have completed, and performs its acquire. (R154) -/
  | qsyncReturn
  /-- A waiting take is served when it is the oldest waiter and the count suffices; it consumes the units and acquires their supplies. (R215) -/
  | tkTakeServed
  /-- A stalled tl.wait returns once its timeline reaches n, acquiring the operations and discarding cache lines as required. (R114) -/
  | tlWaitReturn
  /-- A sleeping wsleep resumes when one of its slots fires. (R203) -/
  | wsleepWake
  /-- A stalled barr.wait re-reads the phase after a write to the barrier word, and returns once the phase has changed. (R200) -/
  | barrWaitWake
  /-- A waiting spawn places all of its items in the ring or the overflow once room appears. (R174) -/
  | spawnPlaced
  /-- A stalled take is served a chunk when it is first in waiting order, or ends on a mark or a drain. (R170) -/
  | stgTakeServed
  /-- Waits for the hart's commands and writes, retires the tile's chunks and releases the anvil lease, then stops the hart. (R176) -/
  | kexit
  /-- Returns from a trap handler to ctxepc and clears ctxstat.H. (R131) -/
  | tret
  /-- A no-op while YR is 0; while YR is 1 it retires and starts pre-emption. (R134) -/
  | ctxYield
  /-- A stalled vread returns once its producing vote command completes or is retired. (R224) -/
  | vreadReturn
  /-- fence and fence.tso execute as no-ops. (R103) -/
  | fence
  /-- Orders the hart's fetches after the most recent load of instruction memory. (R17) -/
  | fenceI
  /-- Illegal instruction in user mode; a no-op in machine mode. (R52) -/
  | wfi
  /-- Traps with code 3. (R130) -/
  | ebreak
  /-- Service 0 returns the management-processor firmware version in x10. (R133) -/
  | ecallFirmwareVersion
  /-- Service 1 posts x10 to the context's host mailbox, returning 1 if the mailbox is full. (R133) -/
  | ecallPostToHost
  /-- Service 2 raises a context fault with reason 3 and the given code. (R133) -/
  | ecallAbort
  /-- Any other service number returns all ones in x10 and has no other effect. (R133) -/
  | ecallUnknown
  /-- Recovery with act = 0: waits for started commands, retires faulted commands with error, poisons reserved slots and clears the fault
  record. (R159) -/
  | qrecSkip
  /-- Recovery with act = 1: as skip, and also discards and retires unstarted entries and, for q0, empties unclaimed data-queue slots. (R159) -/
  | qrecFlush
  /-- A pending command-fault trap is taken at an instruction boundary, or at a waiting instruction, while H = 0 and CE = 1. (R129) -/
  | commandFaultTrap
  /-- A qput stalled on a full queue or a full range table completes once a slot or an entry frees. (R146) -/
  | qputResume
  /-- The slicer takes the next q0 command and hands it to the address stream or the compute stream by its A bit. (R226) -/
  | slicerTake
  /-- Before each chunk, cp.dec with RG = 1 waits for and takes one unit of tkr. (R323) -/
  | ringUnitTake
  /-- A block's cycle count reaching cyc ends the copy with a length violation, fault 0x12. (R322) -/
  | decoderWatchdog
  /-- Once every write of a chunk is performed, its chunk bit is set and any per-chunk token is given. (R317) -/
  | copyChunkComplete
  /-- At pre-emption a copy completes its current chunk, then suspends with its progress recorded. (R135) -/
  | copySuspend
  /-- Device reset zeroes and empties tier S, sets links down and resets counters. (R84) -/
  | deviceReset
  /-- Loss of power interrupts installs, which are logged with code 4 at the next boot. (R346) -/
  | powerLoss
  /-- PCIe power management enters D3hot, refused with status 2 unless every context is swapped out. (R389) -/
  | d3hotTransition
deriving DecidableEq, Repr

end Sys2Proof
end

