-- ==== Sys2Proof/Config.lean ====
section
/-! DEFINITION. What is fixed for the device: its sizes (R12 to R24, R78, R142), the defaults of the
signed records (R386), and the free values: constants without a body that stand for what the manual
leaves open. Nothing can evaluate a free value, so what is proved holds for each of its values. -/

namespace Sys2Proof.Config

/-! ## Sizes and places -/

/-- Tiles of the device (R13). -/
def nTiles : Nat := 512
/-- Clusters of the device (R14). -/
def nClusters : Nat := 128
/-- Contexts that can be registered (R121). -/
def nContexts : Nat := 64
/-- Bytes of instruction memory (R16, R51). -/
def imemBytes : Nat := 0x40000
/-- Bytes of one tile's slice (R12). -/
def sliceBytes : Nat := 0x2000000
/-- Physical range of tier S (R78). -/
def tierSEnd : Nat := 0x400000000
def tierDBase : Nat := 0x10000000000
def tierDEnd : Nat := 0x20000000000
def tierFBase : Nat := 0x40000000000
def tierFEnd : Nat := 0x80000000000
def tierPBase : Nat := 0x1000000000000
def tierPEnd : Nat := 0x10000000000000
def tierHBase : Nat := 0x20000000000000
def tierHEnd : Nat := 0x40000000000000
/-- Capacities of q0, q1 and q2 (R142). -/
def queueCap (q : Nat) : Nat := if q = 0 then 64 else if q = 1 then 32 else 16
/-- Entries of the range table (R92). -/
def rangeEntries : Nat := 64
/-- Sets of the remote-read cache and ways of a set: 4,096 lines (R82). -/
def cacheSets : Nat := 256
def cacheWays : Nat := 16
/-- Sets and ways of a tile's shared translation cache: 1,024 entries (R97). -/
def tlbSets : Nat := 128
def tlbWays : Nat := 8
/-- Entries of a hart's own translation cache (R97). -/
def hartTlb : Nat := 16

/-- The first edge chiplet among the nodes: mesh routers are numbered by their tiles, below it (R353; log entry 8). -/
def chipletBase : Nat := 512
/-- The node at which the chip holds its Jecen route table (R353; log entry 8). -/
def chipNode : Nat := 516
/-- Nodes that hold a route table: the mesh routers, the edge chiplets and the chip (R353; log entry 8). -/
def nNodes : Nat := 517
/-- The first elevator router among the destinations (log entry 8). -/
def elevatorBase : Nat := 517
/-- The first other chip among the destinations (log entry 8). -/
def chipBase : Nat := 645
/-- The destination that stands for the control die of a router's own tile (R353; log entry 8). -/
def controlDie : Nat := 1023
/-- Destinations of the tables: the nodes, the elevator routers and peer chips (R353; log entry 8). -/
def nDests : Nat := 1024

/-! ## Defaults of the signed records (R386) -/

def stagingDefault : Nat := 0x2000000000
def graceDefault : Nat := 1250000
def gateDefault : Nat := 12500
def leaseIdleDefault : Nat := 4096
def promoteDefault : Nat := 4096
def demoteDefault : Nat := 64
def perEpochDefault : Nat := 64
def mvwaitDefault : Nat := 125000

/-! ## Free values -/

/-- A value the manual calls unpredictable or does not state (R3), one for each number drawn from
`State.fresh` (log entry 2). -/
opaque freeWord : Nat → Word
/-- A word of a save area as a save-out leaves it, whose layout R137 does not give: the draw and the word's place in the area (log
entry 73). -/
opaque saveWord : Nat → Nat → Word
/-- A word of instruction memory past the loaded text (R168), by tile and word index (log entry 3). -/
opaque imemFree : Nat → Nat → Word32
/-- The set of the remote-read cache that a line falls in, taken modulo the 256 sets (R82 leaves it open; log entry 4). -/
opaque cacheSet : Nat → Nat
/-- The set of a tile's shared translation cache that a page falls in, taken modulo its 128 sets (R97 leaves it open; log
entry 4). -/
opaque tlbSet : Nat → Nat
/-- The set of the staging cache that a line falls in, taken modulo its sets (R342 leaves it open; log entry 4). -/
opaque stageSet : Nat → Nat
/-- Which of the links that join a node its boot-time table names toward a destination (R353 leaves it open; log entry 5). -/
opaque defaultRoute : Nat → Nat → Nat
/-- Which of the ports that the Jecen table names for a chip a source tile and channel use (R353 leaves it open; log entry 5). -/
opaque portSpread : Nat → Nat → Nat
/-- Which of the two entries an engine uses for a chunk while a cached translation and the table differ: tile, queue, command,
chunk, page (R98; log entry 15). -/
opaque chunkChoice : Nat → Nat → Nat → Nat → Nat → Bool
/-- What a machine-mode identity CSR reads (mvendorid, marchid, mimpid), by its number (R50; log entry 93). -/
opaque machineId : Nat → Word
/-- The vendor key (R385; log entry 6). -/
opaque vendorKey : List Byte
/-- The seed of the device's ML-DSA-87 identity key pair, created at manufacture (R387; log entry 6). -/
opaque deviceSeed : BitVec 256
/-- What the signer draws for its n-th signature, which FIPS 204 leaves to it (R387; log entry 6). -/
opaque signerDraw : Nat → BitVec 256
/-- The vendor certificate returned with each report (R387; log entry 6). -/
opaque certificate : List Byte
/-- The device-binding digest of this device (R385; log entry 6). -/
opaque deviceDigest : Nat
/-- The stepping as a report holds it (R387; log entry 6). -/
opaque stepping : BitVec 32
/-- The bytes of the inventory, whose layout R384 does not give: serial, fitted ranges (tier, first byte, length), LPDDR channels
and flash stacks that trained, the size of the staging cache, and each Jecen port with optics, with the serial of the peer that it trained
with where it did (log entry 90). -/
opaque inventory : Word → List (Nat × Nat × Nat) → List Nat → List Nat → Nat → List (Nat × Option Word) → List Byte
/-- What a BAR 0 register whose place or layout R376 does not give reads: its offset and the n-th read (log entry 90). -/
opaque registerValue : Nat → Nat → Word
/-- The fields of the 64-byte header of a signed record, whose layout R385 does not give (log entry 6). -/
opaque headerOf : BitVec 512 → RecordHeader
/-- Value k of the payload of a record, whose layout R386 does not give: record id, payload, k (log entry 6). -/
opaque payloadValue : Nat → List Byte → Nat → Nat
/-- Bytes of an ML-DSA-87 signature (log entry 6). -/
def signatureBytes : Nat := 4627

end Sys2Proof.Config
end

