-- ==== Sys2Proof/Decode.lean ====
section
/-! DEFINITION. Decoding and encoding: the 32-bit hart instructions (R50 to R58), the 256-bit tile
command words with their header check (R59 to R66), and the 512-bit host requests (R377, R379). A
hart word that is no instruction decodes to `illegalInstruction` with the word. -/

namespace Sys2Proof

/-! ## Bit fields -/

/-- `n` bits of a word from bit `lo` up, as a bit vector. -/
def bits {m : Nat} (w : BitVec m) (lo n : Nat) : BitVec n := w.extractLsb' lo n

/-- `n` bits of a word from bit `lo` up, as a number (R8). -/
def field {m : Nat} (w : BitVec m) (lo n : Nat) : Nat := (w.toNat >>> lo) % 2 ^ n

/-! ## The standard subset (R50 to R52) -/

def branchOf (f3 : Nat) : Option BranchOp :=
  match f3 with
  | 0 => some .beq | 1 => some .bne | 4 => some .blt | 5 => some .bge | 6 => some .bltu | 7 => some .bgeu
  | _ => none

def loadOf (f3 : Nat) : Option LoadOp :=
  match f3 with
  | 0 => some .lb | 1 => some .lh | 2 => some .lw | 3 => some .ld | 4 => some .lbu | 5 => some .lhu
  | 6 => some .lwu | _ => none

def storeOf (f3 : Nat) : Option StoreOp :=
  match f3 with
  | 0 => some .sb | 1 => some .sh | 2 => some .sw | 3 => some .sd | _ => none

/-- The register-immediate forms of opcode 0x13. -/
def opImmOf (w : Word32) : Option Base :=
  let rd := bits w 7 5; let rs1 := bits w 15 5; let imm := bits w 20 12
  match field w 12 3 with
  | 0 => some (.opImm .addi rd rs1 imm)
  | 2 => some (.opImm .slti rd rs1 imm)
  | 3 => some (.opImm .sltiu rd rs1 imm)
  | 4 => some (.opImm .xori rd rs1 imm)
  | 6 => some (.opImm .ori rd rs1 imm)
  | 7 => some (.opImm .andi rd rs1 imm)
  | 1 => if field w 26 6 = 0 then some (.shiftImm .sll rd rs1 (bits w 20 6)) else none
  | 5 => if field w 26 6 = 0 then some (.shiftImm .srl rd rs1 (bits w 20 6))
         else if field w 26 6 = 16 then some (.shiftImm .sra rd rs1 (bits w 20 6)) else none
  | _ => none

/-- The register-immediate forms of opcode 0x1B. -/
def opImmWOf (w : Word32) : Option Base :=
  let rd := bits w 7 5; let rs1 := bits w 15 5
  match field w 12 3, field w 25 7 with
  | 0, _ => some (.addiw rd rs1 (bits w 20 12))
  | 1, 0 => some (.shiftImmW .sll rd rs1 (bits w 20 5))
  | 5, 0 => some (.shiftImmW .srl rd rs1 (bits w 20 5))
  | 5, 32 => some (.shiftImmW .sra rd rs1 (bits w 20 5))
  | _, _ => none

/-- funct7 and funct3 of the register-register forms of opcode 0x33. -/
def aluOf (f7 f3 : Nat) : Option AluOp :=
  match f7, f3 with
  | 0, 0 => some .add | 0, 1 => some .sll | 0, 2 => some .slt | 0, 3 => some .sltu
  | 0, 4 => some .xor | 0, 5 => some .srl | 0, 6 => some .or | 0, 7 => some .and
  | 32, 0 => some .sub | 32, 5 => some .sra
  | 1, 0 => some .mul | 1, 1 => some .mulh | 1, 2 => some .mulhsu | 1, 3 => some .mulhu
  | 1, 4 => some .div | 1, 5 => some .divu | 1, 6 => some .rem | 1, 7 => some .remu
  | _, _ => none

/-- funct7 and funct3 of the register-register forms of opcode 0x3B. -/
def aluWOf (f7 f3 : Nat) : Option AluWOp :=
  match f7, f3 with
  | 0, 0 => some .addw | 0, 1 => some .sllw | 0, 5 => some .srlw
  | 32, 0 => some .subw | 32, 5 => some .sraw
  | 1, 0 => some .mulw | 1, 4 => some .divw | 1, 5 => some .divuw | 1, 6 => some .remw | 1, 7 => some .remuw
  | _, _ => none

def fintOf (rs2 : Nat) : Option FInt :=
  match rs2 with
  | 0 => some .w | 1 => some .wu | 2 => some .l | 3 => some .lu | _ => none

/-- Whether a static rounding-mode field is one the F extension assigns (5 and 6 are reserved). -/
def rmOk (rm : BitVec 3) : Bool := rm ≠ 5 && rm ≠ 6

def fmaOf (opcode : Nat) : FmaOp :=
  if opcode = 0x43 then .fmadd else if opcode = 0x47 then .fmsub else if opcode = 0x4B then .fnmsub
  else .fnmadd

/-- The single-precision operations of opcode 0x53. -/
def fpOf (w : Word32) : Option Base :=
  let rd := bits w 7 5; let rs1 := bits w 15 5; let rs2 := bits w 20 5
  let rm := bits w 12 3; let f3 := field w 12 3; let n2 := field w 20 5
  match field w 25 7 with
  | 0x00 => if rmOk rm then some (.farith .fadd rd rs1 rs2 rm) else none
  | 0x04 => if rmOk rm then some (.farith .fsub rd rs1 rs2 rm) else none
  | 0x08 => if rmOk rm then some (.farith .fmul rd rs1 rs2 rm) else none
  | 0x0C => if rmOk rm then some (.farith .fdiv rd rs1 rs2 rm) else none
  | 0x2C => if rmOk rm && n2 = 0 then some (.fsqrt rd rs1 rm) else none
  | 0x10 => match f3 with
            | 0 => some (.fsgn .fsgnj rd rs1 rs2) | 1 => some (.fsgn .fsgnjn rd rs1 rs2)
            | 2 => some (.fsgn .fsgnjx rd rs1 rs2) | _ => none
  | 0x14 => match f3 with
            | 0 => some (.fminmax false rd rs1 rs2) | 1 => some (.fminmax true rd rs1 rs2) | _ => none
  | 0x50 => match f3 with
            | 0 => some (.fcmp .fle rd rs1 rs2) | 1 => some (.fcmp .flt rd rs1 rs2)
            | 2 => some (.fcmp .feq rd rs1 rs2) | _ => none
  | 0x60 => if rmOk rm then (fintOf n2).map (fun it => .fcvtToInt it rd rs1 rm) else none
  | 0x68 => if rmOk rm then (fintOf n2).map (fun it => .fcvtFromInt it rd rs1 rm) else none
  | 0x70 => match n2, f3 with
            | 0, 0 => some (.fmvXW rd rs1) | 0, 1 => some (.fclass rd rs1) | _, _ => none
  | 0x78 => match n2, f3 with
            | 0, 0 => some (.fmvWX rd rs1) | _, _ => none
  | _ => none

/-- Whether a Zicsr instruction writes its register: `csrrw` and `csrrwi` always, the others unless their
operand is x0 or a zero immediate (R403). -/
def CsrOp.writes (c : CsrOp) : Bool := c.kind = .rw || c.src ≠ 0

/-- The Zicsr instruction of a word by its funct3. -/
def csrOf (w : Word32) : Option CsrOp :=
  let mk (k : CsrKind) (i : Bool) : Option CsrOp :=
    some { kind := k, imm := i, rd := bits w 7 5, src := bits w 15 5, csr := bits w 20 12 }
  match field w 12 3 with
  | 1 => mk .rw false | 2 => mk .rs false | 3 => mk .rc false
  | 5 => mk .rw true | 6 => mk .rs true | 7 => mk .rc true
  | _ => none

/-- The instruction of opcode 0x73. -/
def systemOf (w : Word32) : Option Instr :=
  if field w 12 3 = 0 then
    if w = 0x00000073#32 then some (.baseInstruction .ecall)
    else if w = 0x30200073#32 then some (.baseInstruction .mret)
    else if w = 0x00100073#32 then some .ebreak
    else if w = 0x10500073#32 then some .wfi
    else none
  else
    (csrOf w).map (fun c =>
      if c.writes then (if c.csr = 0x8C0#12 then .rndtileWrite c else .csrWrite c)
      else .baseInstruction (.csrRead c))

/-- The store immediate, in two fields of the word. -/
def immS (w : Word32) : BitVec 12 := bits w 25 7 ++ bits w 7 5
/-- The branch offset divided by 2. -/
def immB (w : Word32) : BitVec 12 := bits w 31 1 ++ bits w 7 1 ++ bits w 25 6 ++ bits w 8 4
/-- The `jal` offset divided by 2. -/
def immJ (w : Word32) : BitVec 20 := bits w 31 1 ++ bits w 12 8 ++ bits w 20 1 ++ bits w 21 10

/-! ## The custom opcodes (R53 to R58) -/

/-- Custom-0 (R55). -/
def custom0 (w : Word32) : Option Instr :=
  let rd := bits w 7 5; let rs1 := bits w 15 5; let rs2 := bits w 20 5
  let f7 := field w 25 7; let n2 := field w 20 5; let n1 := field w 15 5; let nd := field w 7 5
  match field w 12 3 with
  | 0 => if f7 ≤ 2 then some (.qput rd (bits w 25 2) rs1 rs2) else none
  | 1 => if nd < 16 then some (.cset (bits w 7 4) rs1 (bits w 20 12)) else none
  | 2 => if nd < 16 then some (.hld (bits w 7 4) rs1 (bits w 20 12)) else none
  | 3 => if n1 = 0 && n2 = 0 then
           if f7 ≤ 2 then some (.qstatQ rd (bits w 25 2))
           else if 8 ≤ f7 && f7 < 16 then some (.qstatDq rd (bits w 25 3)) else none
         else none
  | 4 => if f7 ≤ 2 && n1 = 0 && n2 = 0 && nd = 0 then some (.qsync (bits w 25 2)) else none
  | _ => none

/-- Custom-1 (R55). -/
def custom1 (w : Word32) : Option Instr :=
  let rd := bits w 7 5; let rs1 := bits w 15 5; let rs2 := bits w 20 5; let imm := bits w 20 12
  match field w 12 3 with
  | 0 => some (.ldf rd rs1 imm)
  | 1 => some (.ldt rd rs1 imm)
  | 2 => some (.stf rs1 rs2 (immS w))
  | 3 => some (.ste rs1 rs2 (immS w))
  | 4 => some (.ldU rd rs1 imm)
  | 5 => some (.sdU rs1 rs2 (immS w))
  | 6 => match field w 25 7 with
         | 0x00 => some (.maAdd rd rs1 rs2) | 0x01 => some (.maMin rd rs1 rs2)
         | 0x02 => some (.maMax rd rs1 rs2) | 0x03 => some (.maAnd rd rs1 rs2)
         | 0x04 => some (.maOr rd rs1 rs2) | 0x05 => some (.maXor rd rs1 rs2)
         | 0x06 => some (.maSwap rd rs1 rs2) | 0x07 => some (.maCas rd rs1 rs2)
         | 0x08 => some (.maIncw rd rs1 rs2) | 0x10 => some (.maFaddS rd rs1 rs2)
         | 0x11 => some (.maFmaxabsS rd rs1 rs2) | _ => none
  | _ => if field w 25 2 = 0 then some (.maAddb rd rs1 rs2 (bits w 27 5)) else none

/-- Custom-3 (R56); `lit` is the word after this one. -/
def custom3 (w lit : Word32) : Option Instr :=
  let rd := bits w 7 5; let rs1 := bits w 15 5; let rs2 := bits w 20 5
  let f7 := field w 25 7; let n2 := field w 20 5; let n1 := field w 15 5; let nd := field w 7 5
  match field w 12 3, f7 with
  | 0, _ => if n1 = 0 && field w 28 4 = 0 then some (.fconstS rd (bits w 20 8)) else none
  | 1, _ => if n1 = 0 && field w 20 12 = 0 then some (.flitS rd lit) else none
  | 2, 0 => if nd < 16 && n2 = 0 then some (.tkGive (bits w 7 4) rs1) else none
  | 2, 1 => if nd < 16 && n2 = 0 then some (.tkTake (bits w 7 4) rs1) else none
  | 2, 2 => if nd = 0 && n2 < 7 then some (.tlWait (bits w 20 3) rs1) else none
  | 2, 3 => if n1 = 0 && n2 < 7 then some (.tlRead rd (bits w 20 3)) else none
  | 3, 0 => if nd = 0 && n1 = 0 then some (.fenceG rs2) else none
  | 3, 1 => if nd < 4 && n2 = 0 then some (.warm (bits w 7 2) rs1) else none
  | 3, 2 => if n1 = 0 && n2 = 0 then some (.wsleep rd) else none
  | 4, 0 => if n2 = 0 then some (.barrArrive rd rs1) else none
  | 4, 1 => some (.barrWait rd rs1 rs2)
  | 5, 0 => some (.spawn rd rs1 rs2)
  | 5, 1 => if n1 = 0 && n2 = 0 then some (.stgTake rd) else none
  | 5, 2 => if nd = 0 && n2 = 0 then some (.stgDone rs1) else none
  | 5, 3 => if nd = 0 && n1 = 0 && n2 = 0 then some .kexit else none
  | 5, 4 => if nd = 0 && n1 = 0 && n2 = 0 then some .tret else none
  | 5, 5 => if nd = 0 && n1 = 0 && n2 = 0 then some .ctxYield else none
  | 6, 0 => if n2 < 2 then some (.accrd rd (bits w 20 1) rs1) else none
  | 6, 1 => if n2 < 4 && n1 = 0 then some (.vread rd (bits w 20 2)) else none
  | 6, 2 => if n2 = 0 then some (.cpcancel rd rs1) else none
  | 6, 3 => if n2 = 0 then some (.rxProbe rd rs1) else none
  | _, _ => none

/-- The instruction of a hart word by its major opcode, if it is one. -/
def decodeWord (w lit : Word32) : Option Instr :=
  let rd := bits w 7 5; let rs1 := bits w 15 5; let rs2 := bits w 20 5; let imm := bits w 20 12
  let f3 := field w 12 3; let rm := bits w 12 3
  match field w 0 7 with
  | 0x03 => (loadOf f3).map (fun o => .plainLoad o rd rs1 imm)
  | 0x07 => if f3 = 2 then some (.plainLoad .flw rd rs1 imm) else none
  | 0x0B => custom0 w
  | 0x0F => if f3 = 0 then some .fence else if f3 = 1 then some .fenceI else none
  | 0x13 => (opImmOf w).map .baseInstruction
  | 0x17 => some (.baseInstruction (.auipc rd (bits w 12 20)))
  | 0x1B => (opImmWOf w).map .baseInstruction
  | 0x23 => (storeOf f3).map (fun o => .plainStore o rs1 rs2 (immS w))
  | 0x27 => if f3 = 2 then some (.plainStore .fsw rs1 rs2 (immS w)) else none
  | 0x2B => custom1 w
  | 0x33 => (aluOf (field w 25 7) f3).map (fun o => .baseInstruction (.alu o rd rs1 rs2))
  | 0x37 => some (.baseInstruction (.lui rd (bits w 12 20)))
  | 0x3B => (aluWOf (field w 25 7) f3).map (fun o => .baseInstruction (.aluW o rd rs1 rs2))
  | 0x43 | 0x47 | 0x4B | 0x4F =>
      if rmOk rm && field w 25 2 = 0 then
        some (.baseInstruction (.fma (fmaOf (field w 0 7)) rd rs1 rs2 (bits w 27 5) rm)) else none
  | 0x53 => (fpOf w).map .baseInstruction
  | 0x5B => some (.fimmS rd (bits w 12 20))
  | 0x63 => (branchOf f3).map (fun o => .baseInstruction (.branch o rs1 rs2 (immB w)))
  | 0x67 => if f3 = 0 then some (.baseInstruction (.jalr rd rs1 imm)) else none
  | 0x6F => some (.baseInstruction (.jal rd (immJ w)))
  | 0x73 => systemOf w
  | 0x7B => custom3 w lit
  | _ => none

/-- Decodes a hart word; `lit` is the word after it, which only `flit.s` reads (R54, R58). -/
def decodeHart (w lit : Word32) : Instr := (decodeWord w lit).getD (.illegalInstruction w)

/-! ## Tile command words (R59 to R66) -/

/-- A row of the command maps: operation, variant, the A bit it asks for, accepted formats (empty: takes
none) and the MOD[7:4] bits it defines (R62, R63, R64, R66, R261, R310). -/
structure CommandRow where
  op : Nat
  sub : Nat
  a : Option Bool
  fmts : List Nat
  mods : Nat
deriving DecidableEq, Repr

/-- Control, feeder, sort and bucket rows (R62, R63). -/
def commandRowsA : List CommandRow :=
  [⟨0x00, 0, none, [], 0⟩,
   ⟨0x01, 0, none, [], 0⟩,
   ⟨0x02, 0, none, [], 0⟩,
   ⟨0x20, 0, some true, [0, 1, 2, 3, 4, 5, 6, 7, 8, 9, 10], 0⟩,
   ⟨0x20, 1, some true, [0, 1, 2, 3, 4, 5, 6, 7, 8, 9, 10], 0⟩,
   ⟨0x21, 0, some true, [0, 1, 2, 3, 4, 5, 6, 7, 8, 9, 10], 0⟩,
   ⟨0x22, 0, some true, [0, 1, 2, 3, 4, 5, 6, 7, 8, 9, 10], 0⟩,
   ⟨0x22, 1, some true, [0, 1, 2, 3, 4, 5, 6, 7, 8, 9, 10], 0⟩,
   ⟨0x23, 0, some true, [0, 1, 2, 3, 4, 5, 6, 7, 8, 9, 10], 0⟩,
   ⟨0x24, 0, some true, [0, 1, 2, 3, 4, 5, 6, 7, 8, 9, 10], 0⟩,
   ⟨0x40, 0, some false, [5, 6, 7], 0⟩,
   ⟨0x48, 0, some false, [], 0⟩,
   ⟨0x49, 0, some false, [0], 0⟩,
   ⟨0x49, 1, some false, [0], 0⟩,
   ⟨0x49, 2, some false, [0], 0⟩,
   ⟨0x49, 3, some false, [0], 0⟩,
   ⟨0x4A, 0, some false, [8], 1⟩,
   ⟨0x4A, 1, some false, [8], 1⟩,
   ⟨0x4A, 2, some false, [8], 1⟩,
   ⟨0x4A, 3, some false, [8], 1⟩]

/-- Vector rows (R62, R63). -/
def commandRowsB : List CommandRow :=
  [⟨0x60, 0, some false, [0, 1, 2, 3, 4], 3⟩,
   ⟨0x60, 1, some false, [0, 1, 2, 3, 4], 3⟩,
   ⟨0x60, 2, some false, [0, 1, 2, 3, 4], 3⟩,
   ⟨0x60, 3, some false, [0, 1, 2, 3, 4], 2⟩,
   ⟨0x60, 4, some false, [0, 1, 2, 3, 4], 2⟩,
   ⟨0x60, 5, some false, [0, 1, 2, 3, 4], 2⟩,
   ⟨0x60, 6, some false, [0, 1, 2, 3, 4], 1⟩,
   ⟨0x60, 7, some false, [0, 1, 2, 3, 4], 1⟩,
   ⟨0x61, 0, some false, [0, 1, 2, 3, 4], 2⟩,
   ⟨0x61, 1, some false, [0, 1, 2, 3, 4], 2⟩,
   ⟨0x61, 2, some false, [0, 1, 2, 3, 4], 2⟩,
   ⟨0x61, 3, some false, [0, 1, 2, 3, 4], 0⟩,
   ⟨0x61, 4, some false, [0, 1, 2, 3, 4], 2⟩,
   ⟨0x62, 0, some false, [0, 1, 2, 3, 4], 2⟩,
   ⟨0x62, 1, some false, [0, 1, 2, 3, 4], 2⟩,
   ⟨0x62, 2, some false, [0, 1, 2, 3, 4], 2⟩,
   ⟨0x62, 3, some false, [0, 1, 2, 3, 4], 2⟩,
   ⟨0x63, 0, some false, [0, 1, 2, 3, 4], 3⟩,
   ⟨0x63, 1, some false, [0, 1, 2, 3, 4], 2⟩,
   ⟨0x63, 2, some false, [0, 1, 2, 3, 4], 0⟩,
   ⟨0x63, 3, some false, [0, 1, 2, 3, 4], 0⟩,
   ⟨0x64, 0, some false, [0, 1, 2, 3, 4, 8, 9, 10], 2⟩,
   ⟨0x64, 1, some false, [0, 1, 2, 3, 4, 8, 9, 10], 2⟩,
   ⟨0x64, 2, some false, [0, 1, 2, 3, 4, 8, 9, 10], 2⟩,
   ⟨0x64, 3, some false, [0, 1, 2, 3, 4, 8, 9, 10], 2⟩,
   ⟨0x64, 4, some false, [0, 1, 2, 3, 4, 8, 9, 10], 2⟩,
   ⟨0x64, 5, some false, [0, 1, 2, 3, 4, 8, 9, 10], 2⟩,
   ⟨0x65, 0, some false, [], 0⟩,
   ⟨0x65, 1, some false, [], 0⟩,
   ⟨0x65, 2, some false, [], 0⟩,
   ⟨0x65, 3, some false, [], 0⟩,
   ⟨0x65, 4, some false, [], 0⟩,
   ⟨0x66, 0, some false, [0, 1, 2, 3, 4, 8, 9, 10, 11], 2⟩,
   ⟨0x67, 0, some false, [8, 9], 2⟩,
   ⟨0x67, 1, some false, [8, 9], 2⟩,
   ⟨0x67, 2, some false, [8, 9], 2⟩,
   ⟨0x67, 3, some false, [8, 9], 2⟩,
   ⟨0x67, 4, some false, [8, 9], 2⟩,
   ⟨0x67, 5, some false, [8, 9], 2⟩,
   ⟨0x67, 6, some false, [8, 9], 2⟩,
   ⟨0x67, 7, some false, [8, 9], 0⟩,
   ⟨0x67, 8, some false, [8, 9], 0⟩]

/-- Vector rows (R62, R63). -/
def commandRowsC : List CommandRow :=
  [⟨0x68, 0, some false, [10], 1⟩,
   ⟨0x68, 1, some false, [0], 5⟩,
   ⟨0x68, 2, some false, [8], 0⟩,
   ⟨0x68, 3, some false, [8], 0⟩,
   ⟨0x68, 4, some false, [0, 1, 2, 3, 4, 8, 9, 10], 4⟩,
   ⟨0x69, 0, some false, [0, 1, 2, 3, 4, 8, 9, 10], 0⟩,
   ⟨0x69, 1, some false, [0, 1, 2, 3, 4, 8, 9, 10], 0⟩,
   ⟨0x69, 2, some false, [0, 1, 2, 3, 4, 8, 9, 10], 0⟩,
   ⟨0x69, 3, some false, [0, 1, 2, 3, 4, 8, 9, 10], 0⟩,
   ⟨0x6A, 0, some false, [0, 1, 8, 9, 10], 0⟩,
   ⟨0x6B, 0, some false, [0, 1, 2, 3, 4, 8, 9, 10, 11], 0⟩,
   ⟨0x6B, 1, some false, [0, 1, 2, 3, 4, 8, 9, 10, 11], 0⟩,
   ⟨0x6B, 2, some false, [0, 1, 2, 3, 4, 8, 9, 10, 11], 2⟩,
   ⟨0x6C, 0, some true, [0, 1, 2, 3, 4, 8, 9, 10], 0⟩,
   ⟨0x6D, 0, some false, [0, 1, 2, 3, 4, 8, 9, 10], 0⟩,
   ⟨0x6E, 0, some true, [0, 1, 2, 3, 4, 8, 9, 10], 0⟩,
   ⟨0x6F, 0, some false, [0, 1, 2, 3, 4, 8, 9, 10], 0⟩,
   ⟨0x6F, 1, some false, [3, 4], 0⟩,
   ⟨0x6F, 2, some false, [3, 4], 0⟩,
   ⟨0x6F, 3, some false, [3, 4], 0⟩,
   ⟨0x6F, 4, some false, [8], 0⟩,
   ⟨0x6F, 5, some false, [8], 0⟩,
   ⟨0x70, 0, some false, [0, 1, 2, 3, 4], 0⟩,
   ⟨0x71, 0, some false, [], 0⟩,
   ⟨0x71, 1, some false, [], 0⟩,
   ⟨0x72, 0, some false, [0, 1, 2, 3, 4, 8, 9, 10, 11], 0⟩,
   ⟨0x72, 1, some false, [0, 1, 2, 3, 4, 8, 9, 10, 11], 0⟩]

/-- Anvil, copy and message rows (R62, R63). -/
def commandRowsD : List CommandRow :=
  [⟨0x80, 0, some false, [], 0⟩,
   ⟨0x81, 0, some false, [9, 10], 0⟩,
   ⟨0x82, 0, some false, [], 0⟩,
   ⟨0x83, 0, some false, [9, 10], 0⟩,
   ⟨0x84, 0, some false, [9, 10], 0⟩,
   ⟨0x85, 0, some false, [], 0⟩,
   ⟨0x86, 0, some false, [8, 9, 10], 3⟩,
   ⟨0x86, 1, some false, [8, 9, 10], 3⟩,
   ⟨0x87, 0, some false, [], 0⟩,
   ⟨0x88, 0, some false, [], 0⟩,
   ⟨0xA0, 0, some false, [0, 1, 2, 3, 4, 8, 9, 10, 11], 1⟩,
   ⟨0xA1, 0, some false, [0, 1, 2, 3, 4, 8, 9, 10, 11], 1⟩,
   ⟨0xA1, 1, some false, [0, 1, 2, 3, 4, 8, 9, 10, 11], 1⟩,
   ⟨0xA2, 0, some false, [0, 1, 2, 3, 4, 8, 9, 10, 11], 1⟩,
   ⟨0xA2, 1, some false, [0, 1, 2, 3, 4, 8, 9, 10, 11], 1⟩,
   ⟨0xA3, 0, some false, [0, 1, 2, 3, 4, 8, 9, 10, 11], 3⟩,
   ⟨0xA4, 0, some false, [3, 4], 1⟩,
   ⟨0xA4, 1, some false, [3, 4], 1⟩,
   ⟨0xA4, 2, some false, [3, 4], 1⟩,
   ⟨0xA4, 3, some false, [8], 1⟩,
   ⟨0xA4, 4, some false, [8], 1⟩,
   ⟨0xA4, 5, some false, [3, 4], 1⟩,
   ⟨0xA4, 6, some false, [3, 4], 1⟩,
   ⟨0xA4, 7, some false, [3, 4], 1⟩,
   ⟨0xA5, 0, some false, [0, 1, 2, 3, 4, 8, 9, 10, 11], 1⟩,
   ⟨0xA6, 0, some false, [0, 1, 2, 3, 4, 8, 9, 10, 11], 0⟩,
   ⟨0xC0, 0, some false, [0, 1, 2, 3, 4, 8, 9, 10, 11], 0⟩,
   ⟨0xC1, 0, some false, [0, 1, 2, 3, 4, 8, 9, 10, 11], 0⟩,
   ⟨0xC1, 1, some false, [], 0⟩,
   ⟨0xC2, 0, some false, [0, 1, 2, 3, 4, 8, 9, 10, 11], 0⟩,
   ⟨0xC8, 0, some false, [0, 1, 2, 3, 4, 8, 9, 10, 11], 0⟩,
   ⟨0xC9, 0, some false, [], 0⟩]

/-- The command maps. -/
def commandRows : List CommandRow := commandRowsA ++ commandRowsB ++ commandRowsC ++ commandRowsD

/-- Whether an operation is assigned (R62, R63). -/
def opAssigned (op : Nat) : Bool := commandRows.any (fun r => r.op = op)

/-- The row of an operation and variant, if the variant is assigned. -/
def rowOf (op sub : Nat) : Option CommandRow := commandRows.find? (fun r => r.op = op && r.sub = sub)

/-- The MOD[7:4] bits a row defines with a format: `an.drain` derives a scale only for m8 and `vcvt` wraps only
to an integer format (R261, R295). -/
def modsWith (r : CommandRow) (fmt : Nat) : Nat :=
  if r.op = 0x86 && fmt ≠ 10 then 1 else if r.op = 0x68 && r.sub = 4 && fmt > 4 then 0 else r.mods

/-- Whether the MOD field suits a row (R66 reason 8). -/
def modOk (r : CommandRow) (fmt md : Nat) : Bool :=
  (if r.fmts.isEmpty then fmt = 0 else r.fmts.contains fmt) && md &&& modsWith r fmt = md

/-- Whether a class is accepted in a queue (R61, R62). -/
def classIn (op q : Nat) : Bool :=
  match op / 32, q with
  | 0, 2 => op ≠ 1
  | 0, _ => true
  | 1, 0 | 2, 0 | 3, 0 | 4, 0 => true
  | 5, 1 => true
  | 6, 2 => true
  | _, _ => false

/-- The checks of `HeaderCheck` that do not name the queue (R66 reasons 6 to 9). -/
def formReason (h : Word32) : Nat :=
  let op := field h 0 8; let sub := field h 16 8
  if !(commandRows.any (fun r => r.op = op && (r.a = none || r.a = some (h.getLsbD 8)))) then 6
  else match rowOf op sub with
    | none => 7
    | some r =>
      if !(modOk r (field h 24 4) (field h 28 4)) then 8
      else if op / 32 = 6 && h.getLsbD 10 then 9
      else 0

/-- The first three reasons of `HeaderCheck` (R66). -/
def shapeReason (h : Word32) : Nat :=
  let op := field h 0 8
  if op / 32 = 7 then 1
  else if !(opAssigned op) then 2
  else if field h 11 5 ≠ 0 || (op / 32 ≠ 3 && field h 20 4 ≠ 0) then 3
  else 0

/-- `HeaderCheck` for a push into queue `q` by the main or the movement hart (R66). -/
def headerCheck (h : Word32) (q : Nat) (move : Bool) : Nat :=
  let op := field h 0 8
  if shapeReason h ≠ 0 then shapeReason h
  else if (q = 0 && move) || (q ≠ 0 && !move) then 4
  else if !(classIn op q) then 5
  else formReason h

/-- Cuts a command word at its header fields. -/
def cmdOfBits (w : CmdBits) : Cmd where
  a := w.getLsbD 8
  u := w.getLsbD 9
  t := w.getLsbD 10
  sub := bits w 16 8
  fmt := bits w 24 4
  md := bits w 28 4
  hmask := bits w 32 16
  cmask := bits w 48 16
  opnd := bits w 64 128
  patch := bits w 192 64

/-- Joins a command and its OP into the command word. -/
def bitsOfCmd (op : BitVec 8) (c : Cmd) : CmdBits :=
  c.patch ++ c.opnd ++ c.cmask ++ c.hmask ++ c.md ++ c.fmt ++ c.sub ++ (0#5) ++
    BitVec.ofBool c.t ++ BitVec.ofBool c.u ++ BitVec.ofBool c.a ++ op

/-- The constructor of an operation and variant. `vmov` is told apart by the mode in its aux field (R283). -/
def commandInstr (op sub : Nat) (c : Cmd) : Option Instr :=
  match op, sub with
  | 0x00, 0 => some (.cnop c)
  | 0x01, 0 => some (.cbump c)
  | 0x02, 0 => some (.cmark c)
  | 0x20, 0 => some (.fdRow c)
  | 0x20, 1 => some (.fdRowCrd c)
  | 0x21, 0 => some (.fdGather c)
  | 0x22, 0 => some (.fdBcast c)
  | 0x22, 1 => some (.fdBcastSplat c)
  | 0x23, 0 => some (.fdSkip c)
  | 0x24, 0 => some (.fdStore c)
  | 0x40, 0 => some (.srtCodes c)
  | 0x48, 0 => some (.bkClear c)
  | 0x49, _ => some (.bkSum c)
  | 0x4A, _ => some (.bkFin c)
  | 0x80, 0 => some (.anLease c)
  | 0x81, 0 => some (.anLdw c)
  | 0x82, 0 => some (.anSwap c)
  | 0x83, 0 => some (.anMul c)
  | 0x84, 0 => some (.anGmul c)
  | 0x85, 0 => some (.anClose c)
  | 0x86, _ => some (.anDrain c)
  | 0x87, 0 => some (.anFree c)
  | 0x88, 0 => some (.anZero c)
  | 0xA0, 0 => some (.cpNd c)
  | 0xA1, _ => some (.cpGather c)
  | 0xA2, _ => some (.cpScatter c)
  | 0xA3, 0 => some (.cpDec c)
  | 0xA4, _ => some (.cpRed c)
  | 0xA5, 0 => some (.cpFill c)
  | 0xA6, 0 => some (.cpPref c)
  | 0xC0, 0 => some (.txSend c)
  | 0xC1, 0 => some (.txPut c)
  | 0xC1, 1 => some (.txPutArrive c)
  | 0xC2, 0 => some (.txGet c)
  | 0xC8, 0 => some (.rxPost c)
  | 0xC9, 0 => some (.rxCancel c)
  | 0x60, 0 => some (.vadd c)
  | 0x60, 1 => some (.vsub c)
  | 0x60, 2 => some (.vmul c)
  | 0x60, 3 => some (.vmulh c)
  | 0x60, 4 => some (.vmin c)
  | 0x60, 5 => some (.vmax c)
  | 0x60, 6 => some (.vabs c)
  | 0x60, 7 => some (.vneg c)
  | 0x61, 0 => some (.vand c)
  | 0x61, 1 => some (.vor c)
  | 0x61, 2 => some (.vxor c)
  | 0x61, 3 => some (.vnot c)
  | 0x61, 4 => some (.vandn c)
  | 0x62, 0 => some (.vsll c)
  | 0x62, 1 => some (.vsrl c)
  | 0x62, 2 => some (.vsra c)
  | 0x62, 3 => some (.vfsh c)
  | 0x63, 0 => some (.vbfx c)
  | 0x63, 1 => some (.vbfi c)
  | 0x63, 2 => some (.vpopc c)
  | 0x63, 3 => some (.vclz c)
  | 0x64, 0 => some (.vcmpEq c)
  | 0x64, 1 => some (.vcmpNe c)
  | 0x64, 2 => some (.vcmpLt c)
  | 0x64, 3 => some (.vcmpLe c)
  | 0x64, 4 => some (.vcmpGt c)
  | 0x64, 5 => some (.vcmpGe c)
  | 0x65, 0 => some (.vpand c)
  | 0x65, 1 => some (.vpor c)
  | 0x65, 2 => some (.vpxor c)
  | 0x65, 3 => some (.vpnot c)
  | 0x65, 4 => some (.vpset c)
  | 0x66, 0 => some (.vsel c)
  | 0x67, 0 => some (.vfadd c)
  | 0x67, 1 => some (.vfsub c)
  | 0x67, 2 => some (.vfmul c)
  | 0x67, 3 => some (.vfma c)
  | 0x67, 4 => some (.vfms c)
  | 0x67, 5 => some (.vfmin c)
  | 0x67, 6 => some (.vfmax c)
  | 0x67, 7 => some (.vfabs c)
  | 0x67, 8 => some (.vfneg c)
  | 0x68, 0 => some (.vqm8 c)
  | 0x68, 1 => some (.vqi8 c)
  | 0x68, 2 => some (.vdqm8 c)
  | 0x68, 3 => some (.vdqi8 c)
  | 0x68, 4 => some (.vcvt c)
  | 0x69, 0 => some (.vredsum c)
  | 0x69, 1 => some (.vredmax c)
  | 0x69, 2 => some (.vredmin c)
  | 0x69, 3 => some (.vredmaxabs c)
  | 0x6A, 0 => some (.vdot c)
  | 0x6B, 0 => some (.vperm c)
  | 0x6B, 1 => some (.vrot c)
  | 0x6B, 2 => some (.vsplat c)
  | 0x6C, 0 => some (.vld c)
  | 0x6D, 0 => some (.vst c)
  | 0x6E, 0 => some (.vgather c)
  | 0x6F, 0 => some (.vscatter c)
  | 0x6F, 1 => some (.vscatterAdd c)
  | 0x6F, 2 => some (.vscatterMin c)
  | 0x6F, 3 => some (.vscatterMax c)
  | 0x6F, 4 => some (.vscatterFadd c)
  | 0x6F, 5 => some (.vscatterFmaxabs c)
  | 0x70, 0 => some (.viota c)
  | 0x71, 0 => some (.vany c)
  | 0x71, 1 => some (.vall c)
  | 0x72, 0 => match field c.opnd 80 2 with
    | 1 => some (.vmovFromDq c)
    | 2 => some (.vmovToDq c)
    | _ => some (.vmovReg c)
  | 0x72, 1 => some (.vmovi c)
  | _, _ => none

/-- Decodes a tile command word: what `HeaderCheck` accepts for some queue (R66). -/
def decodeCommand (w : CmdBits) : Option Instr :=
  let h : Word32 := bits w 0 32
  if shapeReason h ≠ 0 || formReason h ≠ 0 then none
  else commandInstr (field h 0 8) (field h 16 8) (cmdOfBits w)

/-- The OP and the command of a tile-command constructor. -/
def commandOf (i : Instr) : Option (BitVec 8 × Cmd) :=
  match i with
  | .cnop c => some (0x00#8, c)
  | .cbump c => some (0x01#8, c)
  | .cmark c => some (0x02#8, c)
  | .fdRow c => some (0x20#8, c)
  | .fdRowCrd c => some (0x20#8, c)
  | .fdGather c => some (0x21#8, c)
  | .fdBcast c => some (0x22#8, c)
  | .fdBcastSplat c => some (0x22#8, c)
  | .fdSkip c => some (0x23#8, c)
  | .fdStore c => some (0x24#8, c)
  | .srtCodes c => some (0x40#8, c)
  | .bkClear c => some (0x48#8, c)
  | .bkSum c => some (0x49#8, c)
  | .bkFin c => some (0x4A#8, c)
  | .anLease c => some (0x80#8, c)
  | .anLdw c => some (0x81#8, c)
  | .anSwap c => some (0x82#8, c)
  | .anMul c => some (0x83#8, c)
  | .anGmul c => some (0x84#8, c)
  | .anClose c => some (0x85#8, c)
  | .anDrain c => some (0x86#8, c)
  | .anFree c => some (0x87#8, c)
  | .anZero c => some (0x88#8, c)
  | .cpNd c => some (0xA0#8, c)
  | .cpGather c => some (0xA1#8, c)
  | .cpScatter c => some (0xA2#8, c)
  | .cpDec c => some (0xA3#8, c)
  | .cpRed c => some (0xA4#8, c)
  | .cpFill c => some (0xA5#8, c)
  | .cpPref c => some (0xA6#8, c)
  | .txSend c => some (0xC0#8, c)
  | .txPut c => some (0xC1#8, c)
  | .txPutArrive c => some (0xC1#8, c)
  | .txGet c => some (0xC2#8, c)
  | .rxPost c => some (0xC8#8, c)
  | .rxCancel c => some (0xC9#8, c)
  | .vadd c => some (0x60#8, c)
  | .vsub c => some (0x60#8, c)
  | .vmul c => some (0x60#8, c)
  | .vmulh c => some (0x60#8, c)
  | .vmin c => some (0x60#8, c)
  | .vmax c => some (0x60#8, c)
  | .vabs c => some (0x60#8, c)
  | .vneg c => some (0x60#8, c)
  | .vand c => some (0x61#8, c)
  | .vor c => some (0x61#8, c)
  | .vxor c => some (0x61#8, c)
  | .vnot c => some (0x61#8, c)
  | .vandn c => some (0x61#8, c)
  | .vsll c => some (0x62#8, c)
  | .vsrl c => some (0x62#8, c)
  | .vsra c => some (0x62#8, c)
  | .vfsh c => some (0x62#8, c)
  | .vbfx c => some (0x63#8, c)
  | .vbfi c => some (0x63#8, c)
  | .vpopc c => some (0x63#8, c)
  | .vclz c => some (0x63#8, c)
  | .vcmpEq c => some (0x64#8, c)
  | .vcmpNe c => some (0x64#8, c)
  | .vcmpLt c => some (0x64#8, c)
  | .vcmpLe c => some (0x64#8, c)
  | .vcmpGt c => some (0x64#8, c)
  | .vcmpGe c => some (0x64#8, c)
  | .vpand c => some (0x65#8, c)
  | .vpor c => some (0x65#8, c)
  | .vpxor c => some (0x65#8, c)
  | .vpnot c => some (0x65#8, c)
  | .vpset c => some (0x65#8, c)
  | .vsel c => some (0x66#8, c)
  | .vfadd c => some (0x67#8, c)
  | .vfsub c => some (0x67#8, c)
  | .vfmul c => some (0x67#8, c)
  | .vfma c => some (0x67#8, c)
  | .vfms c => some (0x67#8, c)
  | .vfmin c => some (0x67#8, c)
  | .vfmax c => some (0x67#8, c)
  | .vfabs c => some (0x67#8, c)
  | .vfneg c => some (0x67#8, c)
  | .vqm8 c => some (0x68#8, c)
  | .vqi8 c => some (0x68#8, c)
  | .vdqm8 c => some (0x68#8, c)
  | .vdqi8 c => some (0x68#8, c)
  | .vcvt c => some (0x68#8, c)
  | .vredsum c => some (0x69#8, c)
  | .vredmax c => some (0x69#8, c)
  | .vredmin c => some (0x69#8, c)
  | .vredmaxabs c => some (0x69#8, c)
  | .vdot c => some (0x6A#8, c)
  | .vperm c => some (0x6B#8, c)
  | .vrot c => some (0x6B#8, c)
  | .vsplat c => some (0x6B#8, c)
  | .vld c => some (0x6C#8, c)
  | .vst c => some (0x6D#8, c)
  | .vgather c => some (0x6E#8, c)
  | .vscatter c => some (0x6F#8, c)
  | .vscatterAdd c => some (0x6F#8, c)
  | .vscatterMin c => some (0x6F#8, c)
  | .vscatterMax c => some (0x6F#8, c)
  | .vscatterFadd c => some (0x6F#8, c)
  | .vscatterFmaxabs c => some (0x6F#8, c)
  | .viota c => some (0x70#8, c)
  | .vany c => some (0x71#8, c)
  | .vall c => some (0x71#8, c)
  | .vmovReg c => some (0x72#8, c)
  | .vmovFromDq c => some (0x72#8, c)
  | .vmovToDq c => some (0x72#8, c)
  | .vmovi c => some (0x72#8, c)
  | _ => none

/-! ## Host requests (R377, R379) -/

/-- Argument word n (1 to 7) of a request. -/
def Request.word (r : Request) (n : Nat) : Word := bits r.args (64 * (n - 1)) 64

/-- Cuts a 64-byte request. -/
def requestOfBits (w : BitVec 512) : Request where
  ctx := bits w 8 8
  rsv := bits w 16 16
  tag := bits w 32 32
  args := bits w 64 448

/-- Joins a request and its op field. -/
def bitsOfRequest (op : BitVec 8) (r : Request) : BitVec 512 := r.args ++ r.tag ++ r.rsv ++ r.ctx ++ op

/-- Decodes a host request by its op; pre-empt and link control by their word 1 and word 2. -/
def decodeRequest (w : BitVec 512) : Option Instr :=
  let r := requestOfBits w
  match field w 0 8 with
  | 0x01 => some (.create r)
  | 0x02 => some (.writeRecord r)
  | 0x03 => some (.commit r)
  | 0x04 => some (.launch r)
  | 0x06 => some (.saveOut r)
  | 0x07 => some (.restore r)
  | 0x08 => some (.teardown r)
  | 0x09 => some (.declareFault r)
  | 0x0A => some (.invalidate r)
  | 0x0B => some (.movePage r)
  | 0x0C => some (.registerDomain r)
  | 0x0D => some (.withdrawDomain r)
  | 0x0E => some (.closeQueue r)
  | 0x0F => some (.hostRead r)
  | 0x11 => some (.power r)
  | 0x12 => some (.attest r)
  | 0x13 => some (.installRecord r)
  | 0x14 => some (.installWeights r)
  | 0x05 => if r.word 1 = 0 then some (.preemptSoft r) else if r.word 1 = 1 then some (.preemptHard r) else none
  | 0x10 => if r.word 2 = 0 then some (.linkEnable r) else if r.word 2 = 1 then some (.linkRetire r)
            else if r.word 2 = 2 then some (.linkRetrain r) else none
  | _ => none

/-- The op and the request of a host-request constructor. -/
def requestOf (i : Instr) : Option (BitVec 8 × Request) :=
  match i with
  | .create r => some (0x01#8, r)
  | .writeRecord r => some (0x02#8, r)
  | .commit r => some (0x03#8, r)
  | .launch r => some (0x04#8, r)
  | .saveOut r => some (0x06#8, r)
  | .restore r => some (0x07#8, r)
  | .teardown r => some (0x08#8, r)
  | .declareFault r => some (0x09#8, r)
  | .invalidate r => some (0x0A#8, r)
  | .movePage r => some (0x0B#8, r)
  | .registerDomain r => some (0x0C#8, r)
  | .withdrawDomain r => some (0x0D#8, r)
  | .closeQueue r => some (0x0E#8, r)
  | .hostRead r => some (0x0F#8, r)
  | .power r => some (0x11#8, r)
  | .attest r => some (0x12#8, r)
  | .installRecord r => some (0x13#8, r)
  | .installWeights r => some (0x14#8, r)
  | .preemptSoft r => some (0x05#8, r)
  | .preemptHard r => some (0x05#8, r)
  | .linkEnable r => some (0x10#8, r)
  | .linkRetire r => some (0x10#8, r)
  | .linkRetrain r => some (0x10#8, r)
  | _ => none

/-! ## Encoding -/

/-- R layout. -/
def encR (f7 : BitVec 7) (rs2 rs1 : Reg) (f3 : BitVec 3) (rd : Reg) (opc : BitVec 7) : Word32 :=
  f7 ++ rs2 ++ rs1 ++ f3 ++ rd ++ opc
/-- I layout. -/
def encI (imm : BitVec 12) (rs1 : Reg) (f3 : BitVec 3) (rd : Reg) (opc : BitVec 7) : Word32 :=
  imm ++ rs1 ++ f3 ++ rd ++ opc
/-- S layout. -/
def encS (imm : BitVec 12) (rs2 rs1 : Reg) (f3 : BitVec 3) (opc : BitVec 7) : Word32 :=
  bits imm 5 7 ++ rs2 ++ rs1 ++ f3 ++ bits imm 0 5 ++ opc
/-- U layout. -/
def encU (imm : BitVec 20) (rd : Reg) (opc : BitVec 7) : Word32 := imm ++ rd ++ opc
/-- RS3 layout. -/
def encRS3 (rs3 : Reg) (f2 : BitVec 2) (rs2 rs1 : Reg) (f3 : BitVec 3) (rd : Reg) (opc : BitVec 7) : Word32 :=
  rs3 ++ f2 ++ rs2 ++ rs1 ++ f3 ++ rd ++ opc

def encBranch : BranchOp → BitVec 3
  | .beq => 0 | .bne => 1 | .blt => 4 | .bge => 5 | .bltu => 6 | .bgeu => 7

def encImmOp : ImmOp → BitVec 3
  | .addi => 0 | .slti => 2 | .sltiu => 3 | .xori => 4 | .ori => 6 | .andi => 7

/-- funct3 and the funct7 that marks an arithmetic shift. -/
def encShift : ShiftOp → BitVec 3 × BitVec 7
  | .sll => (1, 0) | .srl => (5, 0) | .sra => (5, 32)

/-- funct7 and funct3. -/
def encAlu : AluOp → BitVec 7 × BitVec 3
  | .add => (0, 0) | .sub => (32, 0) | .sll => (0, 1) | .slt => (0, 2) | .sltu => (0, 3) | .xor => (0, 4)
  | .srl => (0, 5) | .sra => (32, 5) | .or => (0, 6) | .and => (0, 7) | .mul => (1, 0) | .mulh => (1, 1)
  | .mulhsu => (1, 2) | .mulhu => (1, 3) | .div => (1, 4) | .divu => (1, 5) | .rem => (1, 6) | .remu => (1, 7)

/-- funct7 and funct3. -/
def encAluW : AluWOp → BitVec 7 × BitVec 3
  | .addw => (0, 0) | .subw => (32, 0) | .sllw => (0, 1) | .srlw => (0, 5) | .sraw => (32, 5)
  | .mulw => (1, 0) | .divw => (1, 4) | .divuw => (1, 5) | .remw => (1, 6) | .remuw => (1, 7)

def encFma : FmaOp → BitVec 7
  | .fmadd => 0x43 | .fmsub => 0x47 | .fnmsub => 0x4B | .fnmadd => 0x4F

def encFArith : FArithOp → BitVec 7
  | .fadd => 0x00 | .fsub => 0x04 | .fmul => 0x08 | .fdiv => 0x0C

def encFSgn : FSgnOp → BitVec 3
  | .fsgnj => 0 | .fsgnjn => 1 | .fsgnjx => 2

def encFCmp : FCmpOp → BitVec 3
  | .fle => 0 | .flt => 1 | .feq => 2

def encFInt : FInt → Reg
  | .w => 0 | .wu => 1 | .l => 2 | .lu => 3

def encCsr (c : CsrOp) : Word32 :=
  encI c.csr c.src
    (match c.kind, c.imm with
     | .rw, false => 1 | .rs, false => 2 | .rc, false => 3 | .rw, true => 5 | .rs, true => 6 | .rc, true => 7)
    c.rd 0x73

def encLoad (op : LoadOp) : BitVec 3 × BitVec 7 :=
  match op with
  | .lb => (0, 0x03) | .lh => (1, 0x03) | .lw => (2, 0x03) | .ld => (3, 0x03)
  | .lbu => (4, 0x03) | .lhu => (5, 0x03) | .lwu => (6, 0x03) | .flw => (2, 0x07)

def encStore (op : StoreOp) : BitVec 3 × BitVec 7 :=
  match op with
  | .sb => (0, 0x23) | .sh => (1, 0x23) | .sw => (2, 0x23) | .sd => (3, 0x23) | .fsw => (2, 0x27)

/-- The word of a standard-subset instruction. -/
def encodeBase : Base → Word32
  | .lui rd imm => encU imm rd 0x37
  | .auipc rd imm => encU imm rd 0x17
  | .jal rd off => bits off 19 1 ++ bits off 0 10 ++ bits off 10 1 ++ bits off 11 8 ++ rd ++ (0x6F#7)
  | .jalr rd rs1 imm => encI imm rs1 0 rd 0x67
  | .branch op rs1 rs2 off =>
      bits off 11 1 ++ bits off 4 6 ++ rs2 ++ rs1 ++ encBranch op ++ bits off 0 4 ++ bits off 10 1 ++ (0x63#7)
  | .opImm op rd rs1 imm => encI imm rs1 (encImmOp op) rd 0x13
  | .shiftImm op rd rs1 sh => bits (encShift op).2 1 6 ++ sh ++ rs1 ++ (encShift op).1 ++ rd ++ (0x13#7)
  | .addiw rd rs1 imm => encI imm rs1 0 rd 0x1B
  | .shiftImmW op rd rs1 sh => encR (encShift op).2 sh rs1 (encShift op).1 rd 0x1B
  | .alu op rd rs1 rs2 => encR (encAlu op).1 rs2 rs1 (encAlu op).2 rd 0x33
  | .aluW op rd rs1 rs2 => encR (encAluW op).1 rs2 rs1 (encAluW op).2 rd 0x3B
  | .fma op rd rs1 rs2 rs3 rm => encRS3 rs3 0 rs2 rs1 rm rd (encFma op)
  | .farith op rd rs1 rs2 rm => encR (encFArith op) rs2 rs1 rm rd 0x53
  | .fsqrt rd rs1 rm => encR 0x2C 0 rs1 rm rd 0x53
  | .fsgn op rd rs1 rs2 => encR 0x10 rs2 rs1 (encFSgn op) rd 0x53
  | .fminmax m rd rs1 rs2 => encR 0x14 rs2 rs1 (if m then 1 else 0) rd 0x53
  | .fcmp op rd rs1 rs2 => encR 0x50 rs2 rs1 (encFCmp op) rd 0x53
  | .fcvtToInt it rd rs1 rm => encR 0x60 (encFInt it) rs1 rm rd 0x53
  | .fcvtFromInt it rd rs1 rm => encR 0x68 (encFInt it) rs1 rm rd 0x53
  | .fmvXW rd rs1 => encR 0x70 0 rs1 0 rd 0x53
  | .fmvWX rd rs1 => encR 0x78 0 rs1 0 rd 0x53
  | .fclass rd rs1 => encR 0x70 0 rs1 1 rd 0x53
  | .csrRead c => encCsr c
  | .ecall => 0x00000073
  | .mret => 0x30200073

/-- The word of a memory-port atomic (R55). -/
def encMa (f7 : BitVec 7) (rd rs1 rs2 : Reg) : Word32 := encR f7 rs2 rs1 6 rd 0x2B

/-- The first word of a hart instruction; none for a step with no hart encoding. -/
def encodeHart : Instr → Option Word32
  | .fimmS rd imm => some (encU imm rd 0x5B)
  | .flitS rd _ => some (encI 0 0 1 rd 0x7B)
  | .fconstS rd k => some (encI (0#4 ++ k) 0 0 rd 0x7B)
  | .cset c rs1 imm => some (encI imm rs1 1 (0#1 ++ c) 0x0B)
  | .hld h rs1 imm => some (encI imm rs1 2 (0#1 ++ h) 0x0B)
  | .qput rd q rs1 rs2 => some (encR (0#5 ++ q) rs2 rs1 0 rd 0x0B)
  | .qstatQ rd q => some (encR (0#5 ++ q) 0 0 3 rd 0x0B)
  | .qstatDq rd q => some (encR (1#4 ++ q) 0 0 3 rd 0x0B)
  | .qsync q => some (encR (0#5 ++ q) 0 0 4 0 0x0B)
  | .ldf rd rs1 imm => some (encI imm rs1 0 rd 0x2B)
  | .ldt rd rs1 imm => some (encI imm rs1 1 rd 0x2B)
  | .stf rs1 rs2 imm => some (encS imm rs2 rs1 2 0x2B)
  | .ste rs1 rs2 imm => some (encS imm rs2 rs1 3 0x2B)
  | .ldU rd rs1 imm => some (encI imm rs1 4 rd 0x2B)
  | .sdU rs1 rs2 imm => some (encS imm rs2 rs1 5 0x2B)
  | .maAdd rd rs1 rs2 => some (encMa 0x00 rd rs1 rs2)
  | .maMin rd rs1 rs2 => some (encMa 0x01 rd rs1 rs2)
  | .maMax rd rs1 rs2 => some (encMa 0x02 rd rs1 rs2)
  | .maAnd rd rs1 rs2 => some (encMa 0x03 rd rs1 rs2)
  | .maOr rd rs1 rs2 => some (encMa 0x04 rd rs1 rs2)
  | .maXor rd rs1 rs2 => some (encMa 0x05 rd rs1 rs2)
  | .maSwap rd rs1 rs2 => some (encMa 0x06 rd rs1 rs2)
  | .maCas rd rs1 rs2 => some (encMa 0x07 rd rs1 rs2)
  | .maIncw rd rs1 rs2 => some (encMa 0x08 rd rs1 rs2)
  | .maFaddS rd rs1 rs2 => some (encMa 0x10 rd rs1 rs2)
  | .maFmaxabsS rd rs1 rs2 => some (encMa 0x11 rd rs1 rs2)
  | .maAddb rd rs1 rs2 rs3 => some (encRS3 rs3 0 rs2 rs1 7 rd 0x2B)
  | .tkGive t rs1 => some (encR 0 0 rs1 2 (0#1 ++ t) 0x7B)
  | .tkTake t rs1 => some (encR 1 0 rs1 2 (0#1 ++ t) 0x7B)
  | .tlWait x rs1 => some (encR 2 (0#2 ++ x) rs1 2 0 0x7B)
  | .tlRead rd x => some (encR 3 (0#2 ++ x) 0 2 rd 0x7B)
  | .fenceG n => some (encR 0 n 0 3 0 0x7B)
  | .warm k rs1 => some (encR 1 0 rs1 3 (0#3 ++ k) 0x7B)
  | .wsleep rd => some (encR 2 0 0 3 rd 0x7B)
  | .barrArrive rd rs1 => some (encR 0 0 rs1 4 rd 0x7B)
  | .barrWait rd rs1 rs2 => some (encR 1 rs2 rs1 4 rd 0x7B)
  | .spawn rd rs1 rs2 => some (encR 0 rs2 rs1 5 rd 0x7B)
  | .stgTake rd => some (encR 1 0 0 5 rd 0x7B)
  | .stgDone rs1 => some (encR 2 0 rs1 5 0 0x7B)
  | .kexit => some (encR 3 0 0 5 0 0x7B)
  | .tret => some (encR 4 0 0 5 0 0x7B)
  | .ctxYield => some (encR 5 0 0 5 0 0x7B)
  | .accrd rd a rs1 => some (encR 0 (0#4 ++ a) rs1 6 rd 0x7B)
  | .vread rd vt => some (encR 1 (0#3 ++ vt) 0 6 rd 0x7B)
  | .cpcancel rd rs1 => some (encR 2 0 rs1 6 rd 0x7B)
  | .rxProbe rd rs1 => some (encR 3 0 rs1 6 rd 0x7B)
  | .baseInstruction b => some (encodeBase b)
  | .plainLoad op rd rs1 imm => some (encI imm rs1 (encLoad op).1 rd (encLoad op).2)
  | .plainStore op rs1 rs2 imm => some (encS imm rs2 rs1 (encStore op).1 (encStore op).2)
  | .fence => some 0x0FF0000F
  | .fenceI => some 0x0000100F
  | .wfi => some 0x10500073
  | .ebreak => some 0x00100073
  | .csrWrite c => some (encCsr c)
  | .rndtileWrite c => some (encCsr c)
  | .illegalInstruction w => some w
  | _ => none

/-- The words of an instruction as a number of bits and their value, the first word lowest; none for the steps
of the table that no word stands for. -/
def encode (i : Instr) : Option (Nat × Nat) :=
  match commandOf i with
  | some (op, c) => some (256, (bitsOfCmd op c).toNat)
  | none =>
    match requestOf i with
    | some (op, r) => some (512, (bitsOfRequest op r).toNat)
    | none =>
      match i with
      | .flitS rd lit => some (64, (lit ++ encI 0 0 1 rd 0x7B : BitVec 64).toNat)
      | _ => (encodeHart i).map (fun w => (32, w.toNat))

/-- Decodes words given as a number: 512 bits a host request, 256 bits a tile command, otherwise a hart
instruction whose literal word, if it has one, is bits 63 to 32. A hart word that is no instruction gives
`illegalInstruction`. -/
def decodeTableWord (nbits w : Nat) : Option Instr :=
  if nbits = 512 then decodeRequest (BitVec.ofNat 512 w)
  else if nbits = 256 then decodeCommand (BitVec.ofNat 256 w)
  else some (decodeHart (BitVec.ofNat 32 w) (BitVec.ofNat 32 (w / 2 ^ 32)))

end Sys2Proof
end

