-- ==== Sys2Proof/Machine/State.lean ====
section
/-! DEFINITION. The state of one VK4 device as plain data, and the state after device reset. Maps are
lists of (key, value) pairs, keys strictly rising, holding no entry equal to the map's default, so
that equal contents are equal data. -/

namespace Sys2Proof.Machine

open Sys2Proof

/-- A map as data: (key, value), keys strictly rising. Maps of bytes, words, bits and counts list no entry equal
to their default; maps of records list every record written. -/
abbrev SMap (α : Type) := List (Nat × α)

/-! ## Agents and moves (R18 to R20, R99) -/

/-- Who takes a step. A tile is named by its physical number. -/
inductive Agent
  | main (tile : Nat)
  | move (tile : Nat)
  | slicer (tile : Nat)
  | addr (tile : Nat)
  | compute (tile : Nat)
  | copy (tile : Nat)
  | msg (tile : Nat)
  | ring (n : Nat)
deriving DecidableEq, Repr

/-- What happens next. The agenda of the state lists moves, oldest first: it stands for the
interleaving the manual leaves open (R20, R21), for outside events and for the passing of time. -/
inductive Move
  /-- An agent goes on: it fetches its own next instruction, command or request. -/
  | run (a : Agent)
  /-- A step of the table that an engine, a link, the management processor or the host takes. -/
  | event (i : Instr)
  /-- Time passes by n clk (R11). -/
  | tick (n : Nat)
  /-- Cells of one symbol of a line change (R88): line, symbol 0-17, the bits that flip. -/
  | upset (line : Nat) (sym : Nat) (bits : BitVec 33)
  /-- The saved tile states of a context take an uncorrectable error (R132, reason 4). -/
  | lostSave (ctx : Nat)
  /-- Both copies of the commit record of a context's moving pages take an uncorrectable error (R333). -/
  | lostCommit (ctx : Nat)
  /-- An engine starts its next command without finishing it (R20, R226). -/
  | start (a : Agent)
  /-- An engine finishes a command that it has started, by its number (R20, R226). -/
  | finish (a : Agent) (seq : Nat)
  /-- A hart whose next instruction is a `qput`, an `hld` or a `spawn` reads word n of its record (R68, R213); the compute stream writes
  word n of the records of a sort (R255). -/
  | part (a : Agent) (n : Nat)
  /-- A command that an engine has started reads the word that holds an address before its other accesses: its number, the address (R100). -/
  | readWord (a : Agent) (seq va : Nat)
  /-- A command that an engine has started writes the word that holds an address before its other writes: its number, the address (R100). -/
  | writeWord (a : Agent) (seq va : Nat)
  /-- The receive engine lands one more word of the n-th landing of a context, which then is the first to complete (R100, R369, R370). -/
  | landWord (ctx n : Nat)
  /-- The word that holds an address is written of a put on its way, before its other writes (R100). -/
  | putWord (p : RemotePut) (va : Nat)
  /-- The word that holds an address is read for a remote get on its way, before its other reads (R100). -/
  | getWord (g : RemoteGet) (va : Nat)
  /-- The word that holds an address is written of a reply on its way, before its other writes (R100). -/
  | replyWord (g : GetReply) (va : Nat)
  /-- The management processor acts on a link of its own accord (R352): 0 enables it, 1 retires it, 2 retrains it. -/
  | manage (l : Link) (act : Nat)
  /-- The n-th thing handed to the fabric and not forgotten since has passed its first Jecen link (R375). -/
  | passed (n : Nat)
  /-- The host enables or disables MSI-X vector 63 (R390). -/
  | enableErrors (on : Bool)
deriving DecidableEq, Repr

/-! ## Why a run can stop -/

/-- Faults of the model. -/
inductive Fault
  /-- Raised by `step` where an engine's queue holds a command word that names no command. No push leaves one there (R65, R66), and a
  restore takes none from an overwritten save area (R137; log entries 73 and 92), so no run from reset raises it. Safe. -/
  | badQueueEntry
deriving DecidableEq, Repr

/-- Refusals of the model. -/
inductive Refusal
  /-- Raised by an arm of `exec` for a row that has no meaning yet. Safe. -/
  | notModelled (mnemonic : String)
deriving DecidableEq, Repr

/-! ## Harts -/

/-- A wake slot (R202). -/
inductive WakeSlot
  | disarmed
  | armed (pa : Nat)
  | fired
deriving DecidableEq, Repr

/-- What a hart that has not finished its instruction waits for. The first group are the waiting
instructions of R120; `qrec`, `moving`, `fence` and `cancel` are stalls that are none (R158, R338,
R110, R325). A `range` wait names the entries it waits on, each by its queue and number: those that were present
at its issue, of the access to `va` (R93). -/
inductive Wait
  /-- A conflicting range-table entry: the instruction executes again (R93). -/
  | range (va : Word) (on : List (Nat × Nat))
  | tl (x : BitVec 3) (n : Word)
  | tk (t : BitVec 4) (n : Nat)
  | tagged (pa : Nat)
  | barr (pa : Nat) (va : Word) (token : BitVec 24) (rd : Reg)
  | wsleep (rd : Reg)
  | qsync (q : BitVec 2)
  | vread (rd : Reg) (vt : BitVec 2)
  | stgTake (rd : Reg)
  | spawn (rd : Reg) (q n : Nat) (items : List Word)
  | qput (rd : Reg) (q : BitVec 2) (w : CmdBits)
  | kexit
  | qrec (q : BitVec 2) (flush : Bool)
  | moving
  | fence
  | cancel
deriving DecidableEq, Repr

/-- Whether a hart runs. -/
inductive RunState
  | stopped
  | running
  | waiting (w : Wait)
deriving DecidableEq, Repr

/-- One hart: x, f, pc, coordinates, handles and its user CSRs (R17, R42, R52, R140, R191, R211,
R402). `ctxstat` holds YR, CP, CE and H at their places (R141). `machine` is the privilege mode: every hart
of a context runs in user mode, and no step of the table enters machine mode (R52, R128); `mcsr` holds the machine-mode
CSRs by number (R50, log entry 93). `tmpl` holds the words that a `qput`, `hld` or `spawn` not finished has read, by their place in its
record (R68, R213). -/
structure Hart where
  run : RunState := .stopped
  machine : Bool := false
  pc : Word := 0
  x : SMap Word := []
  f : SMap Word32 := []
  fflags : BitVec 5 := 0
  frm : BitVec 3 := 0
  c : SMap Word := []
  h : SMap Record := []
  ctxvec : Word := 0
  ctxepc : Word := 0
  ctxcause : Word := 0
  ctxval : Word := 0
  ctxscr : Word := 0
  ctxstat : Word := 0
  grpsel : Word := 0
  cycle : Word := 0
  instret : Word := 0
  slots : SMap WakeSlot := []
  mcsr : SMap Word := []
  tmpl : SMap Word := []
deriving DecidableEq, Repr

/-! ## Command queues and data queues -/

/-- Where an entry of a command queue stands: pushed, taken by the slicer into its stream, started
with its effect in progress or made, or ended in a command fault. -/
inductive EntryState
  | queued
  | taken
  | running
  | done
  | faulted
deriving DecidableEq, Repr

/-- The decoder state a `cp.dec` records with its progress (R322, R328); `old` holds the destination bytes of the block it is in
as they were before it, by their place in the block. -/
structure DecState where
  src : Nat := 0
  blk : Nat := 0
  inBlock : Bool := false
  startOut : Nat := 0
  out : Nat := 0
  n : Nat := 0
  bit : Nat := 0
  crc : BitVec 32 := 0
  header : BitVec 128 := 0
  table : BitVec 1024 := 0
  unit : Bool := false
  cycles : Nat := 0
  old : SMap Nat := []
deriving DecidableEq, Repr

/-- The progress of a copy (R135, R317, R324). `next` is the chunk it works on, `written` whether that chunk's writes are performed, `wait`
the remote elements still out, `got` the values of those that have come back, `cancelled` whether it issues no more, `xlat` the
translations that its chunk holds, by 16 KiB page (R98, R334), `seen` the words that its chunk, or a command of another kind, has read in
steps of their own and `puts` those that it has written so, by address / 8 (R100); the `puts` of a `tx.get` are the box bytes at which the
pieces of its replies start that have landed in such steps. A `srt.codes` keeps in `next` its row-block and in `got`
the words of that record that are not written yet, by address (R249). -/
structure Progress where
  started : Bool := false
  next : Nat := 0
  written : Bool := false
  failed : Bool := false
  wait : List Nat := []
  got : SMap Word := []
  bits : Nat := 0
  miss : Nat := 0
  lost : Bool := false
  refused : Bool := false
  torn : Bool := false
  suspended : Bool := false
  cancelled : Bool := false
  xlat : SMap Word := []
  seen : SMap Word := []
  puts : List Nat := []
  dec : DecState := {}
deriving DecidableEq, Repr

/-- An entry of a command queue: the word, the registers captured at its push, the value `qput`
returned, its timeline number if it advances its timeline, and how far it is (R145). `why` is the reason for which the last
attempt to start it was held, by which an attempt tells its reason (R152). -/
structure Entry where
  seq : Nat
  w : CmdBits
  c : SMap Word := []
  h : SMap Record := []
  ret : Word := 0
  num : Option Nat := none
  st : EntryState := .queued
  why : BitVec 3 := 0
  prog : Progress := {}
deriving DecidableEq, Repr

/-- The fault record of a command queue (R157); `clk` and `seq` are the clk of the fault and the faulting entry, by which faults
of one clk are told apart. -/
structure FaultRecord where
  addr : Word := 0
  tlv : Word := 0
  hdr : Word32 := 0
  detail : BitVec 8 := 0
  code : BitVec 8 := 0
  m : Bool := false
  s : Bool := false
  clk : Nat := 0
  seq : Nat := 0
deriving DecidableEq, Repr

/-- A command queue (R142 to R146): `done` counts commands completed or retired since commit. -/
structure CmdQueue where
  entries : List Entry := []
  pushed : Nat := 0
  done : Nat := 0
  faulted : Bool := false
  drained : Bool := false
  record : FaultRecord := {}
deriving DecidableEq, Repr

inductive SlotState
  | reserved
  | full
  | claimed
deriving DecidableEq, Repr

/-- A slot of a data queue that is not empty (R148, R150): `owner` is the sequence number of the q0
command that reserved or claimed it. -/
structure Slot where
  st : SlotState
  owner : Nat
  data : Row := 0
  side : Word := 0
deriving DecidableEq, Repr

/-- A data queue: its slots that are not empty, oldest first, the slots made full since commit, and
where the ring stands (R148, R152). -/
structure DataQueue where
  slots : List Slot := []
  fills : Nat := 0
deriving DecidableEq, Repr

/-- A range-table entry (R92, R238): the entry of queue `q` with number `seq`, runs of tier S lines, each from its first to its last line,
and the frames outside tier S to which pages that it covers have moved, which it goes on pinning (R334; log entry 126). -/
structure RangeEntry where
  q : Nat
  seq : Nat
  rd : List (Nat × Nat) := []
  wr : List (Nat × Nat) := []
  frames : List (Nat × Nat) := []
deriving DecidableEq, Repr

/-! ## Tokens, lanes, accumulators -/

/-- Who supplied units of a token counter (R109, R214). -/
inductive Giver
  | hart (move : Bool)
  | command (q : Nat) (seq : Nat)
deriving DecidableEq, Repr

/-- Who waits on a token counter (R215, R323). -/
inductive TokenWaiter
  | hart (move : Bool) (n : Nat)
  | copy
deriving DecidableEq, Repr

/-- A token counter: count, supply record and waiters, each oldest first (R214, R215). -/
structure Token where
  count : Nat := 0
  supply : List (Giver × Nat) := []
  waiters : List TokenWaiter := []
deriving DecidableEq, Repr

/-- A bucket lane (R250). -/
structure Lane where
  row : Row := 0
  bucket : SMap (BitVec 48) := []
  used : Bool := false
  ea : BitVec 8 := 0
deriving DecidableEq, Repr

/-- A `tx.send` or `tx.put` whose target has not answered yet (R365, R367): its OP and its local status
word, 0 for none. -/
structure Unacked where
  seq : Nat
  op : BitVec 8
  word : Nat
deriving DecidableEq, Repr

/-- A weight plane (R289): columns of 512 bytes, their block sizes and scales (column × 16 + block). -/
structure Plane where
  bf16 : Bool := false
  w : SMap Row := []
  b : SMap Nat := []
  scale : SMap Byte := []
  tag : Nat := 0
deriving DecidableEq, Repr

/-- The state of a tile that belongs to the context on it, and that a save moves to shadow storage (R136). `reseed1` and `reseed2` hold the
reseeds of a generator that commands pushed before them have not passed yet: how many q0 pushes came before, and the value (R40);
`controls` holds the tlc numbers that are no copy's and `chunks` the chunk bits set by the copies that have left q1, by their tlc number
(R325). `quarter` is, in a saved state, the tile's quarter of the active and the shadow plane (R136, R289). -/
structure TileCtx where
  main : Hart := {}
  move : Hart := {}
  q0 : CmdQueue := {}
  q1 : CmdQueue := {}
  q2 : CmdQueue := {}
  dq : SMap DataQueue := []
  ranges : List RangeEntry := []
  tokens : SMap Token := []
  tlc : Nat := 0
  tlf : Nat := 0
  tlk : Nat := 0
  tla : Nat := 0
  targetC : Nat := 0
  targetF : Nat := 0
  targetK : Nat := 0
  targetA : Nat := 0
  tlerr : BitVec 7 := 0
  tkov : BitVec 16 := 0
  bkovf : BitVec 32 := 0
  cpstat : Word := 0
  msgstat : Word := 0
  gen1 : Word := 0
  gen2 : Word := 0
  reseed1 : List (Nat × Word) := []
  reseed2 : List (Nat × Word) := []
  lanes : SMap Lane := []
  v : SMap VReg := []
  p : SMap PReg := []
  vt : SMap Word := []
  a0 : SMap Word32 := []
  a1 : SMap Word32 := []
  ll : Nat := 0
  unacked : List Unacked := []
  controls : List Nat := []
  chunks : SMap Nat := []
  quarter : Plane × Plane := ({}, {})
deriving DecidableEq, Repr

/-! ## Tiles -/

/-- A line of the remote-read cache: physical line number and its 64 bytes (R82, R83). -/
structure CacheLine where
  line : Nat
  data : BitVec 512
deriving DecidableEq, Repr

/-- A saved tile state in shadow storage, with its context and context tile number (R136, R137). -/
structure Shadow where
  ctx : Nat
  ctile : Nat
  saved : TileCtx
deriving DecidableEq, Repr

/-- An entry of a translation cache: the page's first 16 KiB number and its leaf entry (R97). -/
structure TlbEntry where
  base : Nat
  entry : Word
deriving DecidableEq, Repr

/-- A physical tile: instruction memory, its caches (R82, R97), shadow storage, who holds it and the state of the
context on it. The remote-read cache and the translation caches, each hart's and the shared one, are kept most
recently used first. `lostReads` and `lostWrites` count the unprotected packets of its next accesses that the fabric has
dropped (R355). -/
structure Tile where
  owner : Option (Nat × Nat) := none
  imem : SMap Word32 := []
  textLen : Nat := 0
  tlbMain : List TlbEntry := []
  tlbMove : List TlbEntry := []
  tlb : List TlbEntry := []
  cache : List CacheLine := []
  lostReads : Nat := 0
  lostWrites : Nat := 0
  shadow : Option Shadow := none
  gated : Bool := false
  ctx : TileCtx := {}
deriving DecidableEq, Repr

/-- An anvil: planes, the lease holder's cluster position, its remaining count, the last holder, the
requests not granted yet, and when the lease was last granted or used (R289, R291, R292). -/
structure Anvil where
  active : Plane := {}
  shadow : Plane := {}
  holder : Option Nat := none
  count : Nat := 0
  last : Nat := 3
  requests : List (Nat × Nat) := []
  since : Nat := 0
deriving DecidableEq, Repr

/-! ## Contexts -/

/-- The states of a context (R126). -/
inductive CtxState
  | free
  | assembling
  | resident
  | running
  | preempting
  | swappedOut
  | faulted
  | tornDown
deriving DecidableEq, Repr

/-- The context record (R380). -/
structure CtxRecord where
  ptroot : Nat := 0
  rndseed : Word := 0
  save : Nat := 0
  uq : Nat := 0
  cls : BitVec 2 := 3
  uqlog : Nat := 0
  uqn : Nat := 0
  wfmbox : Nat := 0
  mvwait : Nat := 125000
  wfbudget : Nat := 0
  spool : Nat := 0
  dpool : Nat := 0
  lowater : Nat := 0
deriving DecidableEq, Repr

/-- A registered fabric domain: its number and its members' serials and contexts, in order (R382). -/
structure Domain where
  id : BitVec 16
  members : List (Word × Nat)
deriving DecidableEq, Repr

/-- A stage of a kernel (R163). -/
structure Stage where
  main : Nat
  move : Nat
  tmin : Nat
  tmax : Nat
  inq : Nat
  outs : List Nat
  factor : Nat
  minchunk : Nat
  ended : Bool := false
deriving DecidableEq, Repr

/-- A chunk taken from a stage queue: the tile, the ring slots it holds (first slot, count), whether it
has been retired, and the commands that must complete before its slots are freed (R170, R172). -/
structure Chunk where
  ctile : Nat
  first : Nat
  count : Nat
  va : Nat
  retired : Bool := false
  readers : List (Nat × Nat) := []
deriving DecidableEq, Repr

/-- A stage queue (R164, R168, R174): `ring` and `spill` hold the sequence numbers of the items waiting in
the ring and in the overflow region, oldest first; `head` is the ring slot of the first; `chunks`
the chunks whose slots are not free yet, in take order; `waiters` the tiles waiting in takes. -/
structure StageQueue where
  base : Nat
  depth : Nat
  item : Nat
  rsv : Nat
  hi : Nat
  lo : Nat
  ovf : Nat
  ovfn : Nat
  isOpen : Bool
  init : Nat
  head : Nat := 0
  ovfHead : Nat := 0
  ring : List Nat := []
  spill : List Nat := []
  chunks : List Chunk := []
  waiters : List Nat := []
  drained : Bool := false
deriving DecidableEq, Repr

/-- How a tile is bound to a stage (R169, R176 to R178): `born` is the epoch of the binding. -/
structure Binding where
  stage : Nat
  born : Nat
  mark : Option Nat := none
  mainStopped : Bool := false
  moveStopped : Bool := false
deriving DecidableEq, Repr

/-- The states of a kernel (R166, R167). -/
inductive KernelState
  | declared
  | loaded
  | running
  | draining
  | retired
  | refused
  | faulted
deriving DecidableEq, Repr

/-- A kernel: what its launch record gives (`header`, `decl` and `block` as it was read, R387), its queues and bindings, its epochs (how
many have ended, when the present one began), and its counters (R161, R168, R178, R182). -/
structure Kernel where
  st : KernelState
  record : Nat
  text : Nat
  textLen : Nat
  tables : Nat
  ep : Nat
  arg : Word
  stages : List Stage
  queues : List StageQueue
  groups : SMap (BitVec 512) := []
  scopes : SMap Word := []
  binds : SMap (BitVec 256) := []
  consts : SMap Word32 := []
  header : BitVec 512 := 0
  decl : List (BitVec 256) := []
  block : List Nat := []
  bound : SMap Binding := []
  epoch : Nat := 0
  since : Nat := 0
  nextSeq : Nat := 0
  stray : Nat := 0
  dropped : Nat := 0
  marks : Nat := 0
  taken : Nat := 0
  reason : Nat := 0
deriving DecidableEq, Repr

/-- A posted receive (R368): the handle and the coordinates are those captured at its push. -/
structure Posted where
  domain : BitVec 16
  src : BitVec 16
  smask : BitVec 16
  tag : BitVec 32
  tmask : BitVec 32
  word : Nat
  handle : Record
  coords : List Int
deriving DecidableEq, Repr

/-- A landing whose completion words are not filled yet (R370): the receive, the message, the bytes landed, and
whether its writes have ended, with a fault or without; `parked` names the entry of the unexpected queue that it
holds. -/
structure Landing where
  p : Posted
  m : Message
  n : Nat := 0
  ended : Bool := false
  fault : Bool := false
  parked : Option Nat := none
deriving DecidableEq, Repr

/-- A move of pages (R336, R337): pages are (virtual address, size code, new frame or none for another
chip, new tier); `started` once the pin wait has passed, and from then `old` holds for each page the places of its entry
and its value (R331); `dest` is the chip and context of a move off the chip, `barrow` says that the barrow made the move. -/
structure PageMove where
  pages : List (Nat × Nat × Option Nat × Nat)
  started : Bool := false
  old : List (List Nat × Word) := []
  barrow : Bool := false
  since : Nat := 0
  dest : Option (Word × Nat) := none
  request : Option (Nat × BitVec 32) := none
deriving DecidableEq, Repr

/-- An accepted install (R343, R345): `frames` are the places of the source's 2 MiB in order, by first byte and length, none once a
page of it has left the chip; `image` holds the source's listed bytes, by offset, at its acceptance. With a `code` it is one
that was not accepted and only waits for the page of its completion word to stop moving (R338). `stamp` orders the accepted installs of
the chip. -/
structure Install where
  src : Nat
  dst : Nat
  done : Nat
  frames : List (Nat × Nat)
  dstPa : Nat
  image : SMap Byte := []
  request : Option (Nat × BitVec 32) := none
  code : Option Nat := none
  stamp : Nat := 0
deriving DecidableEq, Repr

/-- An entry of the install log (R383). -/
structure InstallLog where
  num : Nat
  pe : Nat
  code : Nat
  dst : Nat
  src : Nat
deriving DecidableEq, Repr

/-- A context (R121 to R127) with everything it owns on the chip: its record (in effect, and one written
that waits for a launch), clusters, tables, mailbox, kernels, chip-level timelines and counters, receive lists,
moves and installs, and the requests that complete when it changes state; `coming` are the clusters that a restore in progress takes
(R122, R137). `hard` says that a hard pre-emption is
among the requests, `width` how many clusters it was committed with, `barrowAt` the last epoch the barrow
has acted on, `text` and `textLen` the instruction memory of its tiles while they are saved, `saveDraws` the draw by which each context
tile that has been saved out fills its part of the save area (R137). `counters` are those of the last
kernel retired (R182), `reports` the reasons reported for kernels refused while they loaded (R167), `parked` the messages
of the unexpected queue with the entries they hold, `uqUsed` how many of its entries have been used and `uqFreed` those
freed since, oldest first (R368), `lostReads` and `lostWrites` the unprotected packets of the accesses made for the context by the receive engine
and by installs that the fabric has dropped (R355). -/
structure Context where
  st : CtxState := .free
  cfg : CtxRecord := {}
  written : Option CtxRecord := none
  clusters : List Nat := []
  seeded : Bool := false
  groups : SMap (BitVec 512) := []
  scopes : SMap Word := []
  binds : SMap (BitVec 256) := []
  consts : SMap Word32 := []
  domains : List Domain := []
  faultRecord : BitVec 256 := 0
  hasFault : Bool := false
  mailbox : List Word := []
  waiting : List Kernel := []
  kernel : Option Kernel := none
  counters : List Nat := [0, 0, 0, 0]
  reports : List Nat := []
  launchDigest : BitVec 512 := 0
  tlr : Nat := 0
  tli : Nat := 0
  tlm : Nat := 0
  clip : Nat := 0
  ecc : Nat := 0
  lost : Nat := 0
  lostReads : Nat := 0
  lostWrites : Nat := 0
  posted : List Posted := []
  parked : List (Nat × Message) := []
  uqUsed : Nat := 0
  uqFreed : List Nat := []
  landings : List Landing := []
  drops : Nat := 0
  moves : List PageMove := []
  abandoned : Nat := 0
  hot : SMap Nat := []
  tagged : SMap Bool := []
  installs : List Install := []
  installLog : List InstallLog := []
  lostInstalls : Nat := 0
  graceFrom : Option Nat := none
  yieldRequests : List (Nat × BitVec 32) := []
  tearRequests : List (Nat × BitVec 32) := []
  restoring : Option (Nat × BitVec 32) := none
  coming : List Nat := []
  hard : Bool := false
  width : Nat := 0
  barrowAt : Nat := 0
  kernelRuns : Bool := false
  saveArea : SMap TileCtx := []
  saveDraws : SMap Nat := []
  savedAnvils : List Anvil := []
  saveLost : Bool := false
  text : SMap Word32 := []
  textLen : Nat := 0
deriving DecidableEq, Repr

/-! ## Held requests and watches at the homes -/

/-- The forms of a tagged request (R217). -/
inductive TaggedKind
  | ldf
  | ldt
  | stf
  | ste
deriving DecidableEq, Repr

/-- A tagged request held at its home (R218): the word's physical address, the hart, the register a load
form writes or the value a store form writes. -/
structure Held where
  pa : Nat
  tile : Nat
  move : Bool
  kind : TaggedKind
  rd : Reg := 0
  value : Word := 0
  va : Word := 0
deriving DecidableEq, Repr

/-- A registered watch of a word (R202). -/
structure Watch where
  pa : Nat
  tile : Nat
  move : Bool
  slot : Nat
deriving DecidableEq, Repr

/-! ## Banks, links, packets -/

/-- A bank's record (R88 to R91): corrected and uncorrectable counts, the times of its last corrected
events (newest first, at most 17), whether it is retired (erased), and the row its rebuild has
reached, if one runs. -/
structure Bank where
  corrected : Nat := 0
  uncorrectable : Nat := 0
  times : List Nat := []
  erased : Bool := false
  rebuild : Option Nat := none
deriving DecidableEq, Repr

/-- The states of a link (R351), in the order of R383. -/
inductive LinkState
  | down
  | training
  | up
  | degraded
  | draining
  | retired
  | failed
deriving DecidableEq, Repr

/-- A link (R350, R383): its state, counts, failures in training in a row, the times of its retrains,
the CRC failures in a row of each flit being replayed, the times of its last replays (newest first), when its draining began,
the lanes of a Jecen port and the packets committed to it. -/
structure LinkRec where
  st : LinkState := .down
  replays : Nat := 0
  dropped : Nat := 0
  trainFails : Nat := 0
  retrains : List Nat := []
  flitFails : SMap Nat := []
  replayTimes : List Nat := []
  drainFrom : Nat := 0
  lanes : Nat := 2
  inside : List Packet := []
deriving DecidableEq, Repr

/-- What the chip hands to the fabric (R365), for the destination's serial and context. -/
inductive Sent
  | send (serial : Word) (m : Message)
  | put (serial : Word) (p : RemotePut)
  | arrive (serial : Word) (a : RemoteSignal)
  | get (serial : Word) (g : RemoteGet)
  | reply (dst : MsgRef) (bytes : List Byte) (status : BitVec 8)
  | ack (dst : MsgRef) (bytes : BitVec 32) (status : BitVec 8)
  | page (serial : Word) (ctx : Nat) (va size : Nat) (cells : SMap Byte)
  | element (serial : Word) (ctx : Nat) (write : Bool) (va : Word) (size elem : Nat) (data : Word) (tile seq : Nat)
deriving DecidableEq, Repr

/-- What the chip has handed to the fabric: the Jecen port it goes out by (none where no route leads to its chip), its
class (R357), its source tile and channel, and whether it has passed that port's link (R375). -/
structure Departure where
  port : Option Nat
  cls : Nat
  tile : Nat := 0
  chan : Nat := 0
  passed : Bool := false
  what : Sent
deriving DecidableEq, Repr

/-! ## The host port and the management processor -/

/-- A request ring (R377): `busy` while a request of it has started and not completed, `cqIndex` the
completions written. -/
structure Ring where
  rqbase : Word := 0
  rqsize : Word := 0
  rqtail : Word := 0
  rqhead : Word := 0
  cqbase : Word := 0
  cqvec : Word := 0
  busy : Bool := false
  cqIndex : Nat := 0
deriving DecidableEq, Repr

/-- The events of the device error log (R388, R390); an install that a loss of power cut off carries its completion code, 4 (R346). The
spec numbers no event; a corrected one is counted and not logged (log entry 142). -/
inductive LogCode
  | uncorrectable
  | bankRetired
  | bankErased
  | layerLost
  | linkFailed
  | install (code : Nat)
  | recordIgnored
  | expanderLost
  | unmapped
  | signalDropped
  | faultDropped
  | packetDropped
  | linkDropped
  | installLost
deriving DecidableEq, Repr

/-- An entry of the device error log (R390): `ctx` is none where no context is concerned. `place` is the physical address or the link
number; of an event with neither it is what the event names, else 0 (DESIGN CHOICE, log entry 142). -/
structure LogEntry where
  clk : Nat
  code : LogCode
  ctx : Option Nat
  place : Nat
deriving DecidableEq, Repr

/-- A configuration record in the store (R385): its version, its payload, the digest of header and payload and the signature
over it. -/
structure Stored where
  version : Nat
  payload : List Byte
  digest : BitVec 512
  signature : List Byte := []
deriving DecidableEq, Repr

/-- The power states (R389); `recovery` is a device whose boot failed (R385). -/
inductive PowerState
  | recovery
  | active
  | capped
  | idle
  | d3hot
deriving DecidableEq, Repr

/-- The settings of the signed records in effect since the last boot (R386). -/
structure Settings where
  staging : Nat := 0x2000000000
  grace : Nat := 1250000
  gate : Nat := 12500
  leaseIdle : Nat := 4096
  promote : Nat := 4096
  demote : Nat := 64
  perEpoch : Nat := 64
  powerCap : Nat := 2750
  operatorKey : List Byte := []
deriving DecidableEq, Repr

/-- The part fitted and its counters (R1, R384, R390). `image` is the SHA3-512 digest of the running firmware image (R385, R387).
`expanders` are ranges of tier P, `grantH` those of tier H that the host grants (R78), `channels` and `flashStacks` the LPDDR channels and
flash stacks that trained, `optics` the Jecen ports with optics fitted and `peers` the serials of the chips behind those that trained
(R384), `chips` the Jecen route table: the chips found and the ports that lead toward each (R353), `staged` the sets of
the staging cache, each most recently used first (R342), `openUnits` the open erase unit of each flash stack and `usedSlots` the slots
programmed in a unit since its erase (R345, R346), `turn` the ring last served (R378), `pmStatus` the status of the last transition that
power management asked for (R389), `errorsOn` whether the host has enabled MSI-X vector 63 (R390), `barrow` an epoch of the barrow and the
promotions made in it on the chip (R340), `barData` what the last host read through a BAR gave, `interrupted` the installs (context,
physical target) that a loss of power cut off and the next boot logs (R346). -/
structure Device where
  ready : Bool := false
  module : Bool := true
  serial : Word := 0
  firmware : BitVec 32 := 0x10000
  image : BitVec 512 := 0
  fittedD : Nat := 0x10000000000
  fittedF : Nat := 0x40000000000
  expanders : List (Nat × Nat) := []
  grantH : List (Nat × Nat) := [(0x20000000000000, 0x40000000000000)]
  channels : List Nat := []
  flashStacks : List Nat := []
  peers : List (Nat × Word) := []
  optics : List Nat := []
  chips : List (Word × List Nat) := []
  settings : Settings := {}
  store : SMap Stored := []
  power : PowerState := .active
  cap : Nat := 2750
  apbase : Word := 0
  unmapped : Nat := 0
  droppedSignals : Nat := 0
  faultsDropped : Nat := 0
  packetsDropped : Nat := 0
  lostInstalls : Nat := 0
  retiredBanks : Nat := 0
  logOverflows : Nat := 0
  log : List LogEntry := []
  msix : List Nat := []
  pe : SMap Nat := []
  wornUnits : SMap Bool := []
  regionUnit : SMap Nat := []
  openUnits : SMap Nat := []
  usedSlots : SMap Nat := []
  staged : SMap (List Nat) := []
  turn : Nat := 15
  pmStatus : Nat := 0
  errorsOn : Bool := false
  barrow : Nat × Nat := (0, 0)
  barData : List Byte := []
  interrupted : List (Nat × Nat) := []
deriving DecidableEq, Repr

/-! ## The state -/

/-- The command of its stream that an engine works on where it is not the head: its number, whether it is only to start, and the word
(address / 8) that the step alone writes, if it does no more (R100). -/
structure Pick where
  seq : Nat
  only : Bool := false
  word : Option Nat := none
deriving DecidableEq, Repr

/-- The device. `cur` is the agent whose step is taken, `agenda` what happens next, `pick` the command of its stream
that an engine works on where it is not the head, and `fresh` counts
the free values drawn; these four are the model's own. Memory is one physical space of bytes (R78);
an unlisted byte reads as zero (R84 for tier S, log entry 7 for the others). `full` lists the words
of tier S (address / 8) whose full/empty bit is full (R84). `flips` holds, for line × 18 + symbol, how
the cells of a symbol differ from what the symbol code wrote (R87, R88). `elevators` lists the elevator routers that tables name
in place of the tile's own (R353, R354), `delivered` the packets that have reached their destinations (R355), `stalled` those that a
node holds while its table names a link that is draining (R351),
`heldPuts` the puts that wait for a page to stop moving, in push order (R367), `putWords` the words that puts on their way have written in
steps of their own, by address / 8, and `getWords` those that remote gets on their way have read so (R100). -/
structure State where
  cur : Agent
  agenda : List Move
  pick : Option Pick
  fresh : Nat
  clk : Nat
  mem : List Host.Cell
  full : SMap Bool
  flips : SMap (BitVec 33)
  banks : SMap Bank
  spares : SMap Nat
  held : List Held
  watches : List Watch
  tiles : SMap Tile
  anvils : SMap Anvil
  ctxs : SMap Context
  links : SMap LinkRec
  routes : SMap Link
  elevators : SMap Nat
  kept : SMap (List Packet)
  resend : List (Nat × Nat)
  delivered : SMap (List Packet)
  stalled : List Packet
  sent : List Departure
  heldPuts : List RemotePut
  putWords : List (RemotePut × Nat)
  getWords : List (RemoteGet × Nat × Word)
  rings : SMap Ring
  dev : Device
deriving DecidableEq, Repr

/-- The device after device reset: tier S zero and empty, every link down, every counter zero, no context,
no ring enabled, `devready` clear (R84, R121, R351, R377, R385). -/
def State.reset : State where
  cur := .ring 0
  agenda := []
  pick := none
  fresh := 0
  clk := 0
  mem := []
  full := []
  flips := []
  banks := []
  spares := []
  held := []
  watches := []
  tiles := []
  anvils := []
  ctxs := []
  links := []
  routes := []
  elevators := []
  kept := []
  resend := []
  delivered := []
  stalled := []
  sent := []
  heldPuts := []
  putWords := []
  getWords := []
  rings := []
  dev := {}

end Sys2Proof.Machine
end

