-- ==== Sys2Proof/Machine/Numbers.lean ====
section
/-! DEFINITION. Number formats and exact arithmetic (R26 to R48): decoding a pattern to an exact value,
exact operations on values, and the named conversions that round once. Patterns are natural numbers
below 2^width. -/

namespace Sys2Proof.Machine

/-! ## Formats (R26) -/

/-- Element size in bytes; a code format is read in whole 64-bit words. -/
def elemSize (fmt : Nat) : Nat :=
  match fmt with
  | 0 | 1 | 10 | 11 => 1
  | 2 | 9 => 2
  | 3 | 8 => 4
  | _ => 8

def isCode (fmt : Nat) : Bool := fmt = 5 || fmt = 6 || fmt = 7
/-- Bits of a weight code. -/
def codeBits (fmt : Nat) : Nat := fmt - 4
/-- Codes in a 64-bit word (R28). -/
def codesPerWord (fmt : Nat) : Nat := if fmt = 5 then 64 else if fmt = 6 then 32 else 21
def isInt (fmt : Nat) : Bool := fmt ≤ 4

/-- Two's-complement value of an n-bit pattern. -/
def signedVal (n x : Nat) : Int := if x % 2 ^ n < 2 ^ (n - 1) then (x % 2 ^ n : Nat) else (x % 2 ^ n : Nat) - (2 ^ n : Int)

/-- Wrap(x, n): x modulo 2^n (R27). -/
def wrap (x : Int) (n : Nat) : Nat := (x % (2 ^ n : Int)).toNat
/-- Sat(x, n) as an n-bit pattern (R27). -/
def sat (x : Int) (n : Nat) : Nat :=
  wrap (max (-(2 ^ (n - 1) : Int)) (min x (2 ^ (n - 1) - 1))) n
/-- SatU(x, n) (R27). -/
def satU (x : Int) (n : Nat) : Nat := (max 0 (min x (2 ^ n - 1))).toNat

/-- The exact integer an integer pattern stands for: uint8 unsigned, the others signed. -/
def intVal (fmt x : Nat) : Int := if fmt = 1 then (x % 256 : Nat) else signedVal (8 * elemSize fmt) x

/-- Narrows an exact integer to an integer format, saturating or wrapping (R266). -/
def narrow (fmt : Nat) (s : Bool) (x : Int) : Nat :=
  if s then (if fmt = 1 then satU x 8 else sat x (8 * elemSize fmt)) else wrap x (8 * elemSize fmt)

/-! ## Exact values -/

/-- An exact value: a NaN, an infinity, or ±m × 2^e with a signed zero. -/
inductive Fl
  | nan
  | inf (neg : Bool)
  | fin (neg : Bool) (m : Nat) (e : Int)
deriving DecidableEq, Repr

/-- Whether the value is zero. -/
def Fl.isZero : Fl → Bool
  | .fin _ 0 _ => true
  | _ => false

/-- Multiplies by 2^k, exactly. -/
def Fl.scale (x : Fl) (k : Int) : Fl :=
  match x with
  | .fin s m e => .fin s m (e + k)
  | x => x

/-- The magnitude. -/
def Fl.abs : Fl → Fl
  | .nan => .nan
  | .inf _ => .inf false
  | .fin _ m e => .fin false m e

/-- The negation. -/
def Fl.neg : Fl → Fl
  | .nan => .nan
  | .inf s => .inf !s
  | .fin s m e => .fin (!s) m e

/-- An integer as an exact value. -/
def Fl.ofInt (i : Int) : Fl := .fin (i < 0) i.natAbs 0

/-- The signed numerator of a finite value over 2^e0, for e0 at or below its exponent. -/
def scaledInt (neg : Bool) (m : Nat) (e e0 : Int) : Int :=
  let k : Int := (m * 2 ^ (e - e0).toNat : Nat)
  if neg then -k else k

/-- Exact sum (R29): +inf + −inf is NaN; an exact zero of unlike signs is +0, or −0 when `down`. -/
def Fl.add (down : Bool) (x y : Fl) : Fl :=
  match x, y with
  | .nan, _ => .nan
  | _, .nan => .nan
  | .inf a, .inf b => if a = b then .inf a else .nan
  | .inf a, _ => .inf a
  | _, .inf b => .inf b
  | .fin a m e, .fin b n f =>
    let g := min e f
    let z := scaledInt a m e g + scaledInt b n f g
    if z = 0 then .fin (if a = b && m = 0 && n = 0 then a else down) 0 0
    else .fin (z < 0) z.natAbs g

/-- Exact product: 0 × infinity is NaN. -/
def Fl.mul (x y : Fl) : Fl :=
  match x, y with
  | .nan, _ => .nan
  | _, .nan => .nan
  | .inf a, .inf b => .inf (a != b)
  | .inf a, .fin b n _ => if n = 0 then .nan else .inf (a != b)
  | .fin a m _, .inf b => if m = 0 then .nan else .inf (a != b)
  | .fin a m e, .fin b n f => .fin (a != b) (m * n) (e + f)

/-- Order of two values that are no NaNs: −1, 0 or 1; zeros are equal. -/
def Fl.cmp (x y : Fl) : Int :=
  match x, y with
  | .inf a, .inf b => if a = b then 0 else if a then -1 else 1
  | .inf a, _ => if a then -1 else 1
  | _, .inf b => if b then 1 else -1
  | .fin a m e, .fin b n f =>
    let g := min e f
    let z := scaledInt a m e g - scaledInt b n f g
    if z < 0 then -1 else if z = 0 then 0 else 1
  | _, _ => 0

/-- Whether the sign bit of a value is set. -/
def Fl.isNeg : Fl → Bool
  | .nan => false
  | .inf s => s
  | .fin s _ _ => s

/-- The smaller value with −0 below +0; NaN if either is NaN (R272). -/
def Fl.min2 (x y : Fl) : Fl :=
  match x, y with
  | .nan, _ => .nan
  | _, .nan => .nan
  | x, y => if x.cmp y < 0 then x else if x.cmp y = 0 then (if x.isNeg then x else y) else y

/-- The larger value with −0 below +0; NaN if either is NaN (R272). -/
def Fl.max2 (x y : Fl) : Fl :=
  match x, y with
  | .nan, _ => .nan
  | _, .nan => .nan
  | x, y => if x.cmp y > 0 then x else if x.cmp y = 0 then (if x.isNeg then y else x) else y

/-! ## Rounding -/

/-- Rounding modes of the F extension; engines use `rne` alone (R29). -/
inductive RMode | rne | rtz | rdn | rup | rmm
deriving DecidableEq, Repr

/-- Divides by 2^k and rounds the quotient. -/
def shiftRound (rm : RMode) (neg : Bool) (m k : Nat) : Nat :=
  let q := m / 2 ^ k; let r := m % 2 ^ k
  let up : Bool := match rm with
    | .rne => 2 * r > 2 ^ k || (2 * r = 2 ^ k && r ≠ 0 && q % 2 = 1)
    | .rtz => false
    | .rdn => neg && r ≠ 0
    | .rup => !neg && r ≠ 0
    | .rmm => r ≠ 0 && 2 * r ≥ 2 ^ k
  if up then q + 1 else q

/-- Bits of a magnitude: the least n with m < 2^n. -/
def bitLen (m : Nat) : Nat := if m = 0 then 0 else Nat.log2 m + 1

/-- Rounds m × 2^e to p bits with the least quantum 2^qmin; answers the quotient and its quantum. -/
def roundMag (rm : RMode) (neg : Bool) (p : Nat) (qmin : Int) (m : Nat) (e : Int) : Nat × Int :=
  let q := max ((bitLen m : Int) + e - p) qmin
  if e ≥ q then (m * 2 ^ (e - q).toNat, q) else (shiftRound rm neg m (q - e).toNat, q)

/-- The magnitude pattern of a rounded value with p significant bits and least quantum 2^qmin, not yet
limited to the format's range. -/
def magBits (p : Nat) (qmin : Int) (mq : Nat × Int) : Nat :=
  if mq.1 = 0 then 0 else (mq.2 - qmin).toNat * 2 ^ (p - 1) + mq.1

/-- RoundF32 (R36): nearest binary32 pattern, ties to even. -/
def roundF32 (x : Fl) : Nat :=
  match x with
  | .nan => 0x7FC00000
  | .inf s => (if s then 0xFF800000 else 0x7F800000)
  | .fin s m e =>
    let b := magBits 24 (-149) (roundMag .rne s 24 (-149) m e)
    (if s then 0x80000000 else 0) + min b 0x7F800000

/-- RoundBf16 (R30). -/
def roundBf16 (x : Fl) : Nat :=
  match x with
  | .nan => 0x7FC0
  | .inf s => (if s then 0xFF80 else 0x7F80)
  | .fin s m e =>
    let b := magBits 8 (-133) (roundMag .rne s 8 (-133) m e)
    (if s then 0x8000 else 0) + min b 0x7F80

/-- The value of a binary32 pattern. -/
def ofF32 (w : Nat) : Fl :=
  let s : Bool := w / 0x80000000 % 2 = 1
  let ex := w / 0x800000 % 256
  let f := w % 0x800000
  if ex = 255 then (if f = 0 then .inf s else .nan)
  else if ex = 0 then .fin s f (-149)
  else .fin s (f + 0x800000) ((ex : Int) - 150)

/-- The value of a bf16 pattern (R30). -/
def ofBf16 (w : Nat) : Fl := ofF32 (w % 65536 * 65536)

/-- The length of the run of bits equal to `b` from bit `n − 1` of `t` down. -/
def runLen (t : Nat) (b : Bool) : Nat → Nat
  | 0 => 0
  | n + 1 => if t.testBit n = b then runLen t b n + 1 else 0

/-- The magnitude of m8 body t (1 to 127) times 2^12 (R31). -/
def m8Mag (t : Nat) : Nat :=
  let k := runLen t (t.testBit 6) 7
  let q : Int := if t.testBit 6 then (k : Int) - 1 else -(k : Int)
  let rest := 7 - k - 1
  let e : Nat := if rest = 0 then 0 else (t / 2 ^ (rest - 1)) % 2
  let w := rest - 1
  let f := t % 2 ^ w
  (2 ^ w + f) * 2 ^ (2 * q + e + 12).toNat / 2 ^ w

/-- The value of an m8 code (R31, R32). -/
def ofM8 (c : Nat) : Fl :=
  let t := c % 128; let s : Bool := c / 128 % 2 = 1
  if t = 0 then (if s then .nan else .fin false 0 0) else .fin s (m8Mag t) (-12)

/-! ## The stochastic underflow generator (R38 to R40) -/

/-- One draw: the next state and the 24-bit value (R39). -/
def draw (g : Word) : Word × Nat :=
  let a := g ^^^ (g <<< 13)
  let b := a ^^^ (a >>> 7)
  let c := b ^^^ (b <<< 17)
  (c, ((c >>> 40) ^^^ (c &&& 0xFFFFFF)).toNat)

/-- Seed (R40). -/
def seed (v : Word) (t id : Nat) : Word :=
  let s := v ^^^ (BitVec.ofNat 64 t <<< 16) ^^^ (BitVec.ofNat 64 id <<< 56)
  if s = 0 then 1 else s

/-- Compares m × 2^e with n: whether it is below, equal or above (−1, 0, 1). -/
def cmpPow (m : Nat) (e : Int) (n : Nat) : Int :=
  let l := m * 2 ^ e.toNat; let r := n * 2 ^ (-e).toNat
  if l < r then -1 else if l = r then 0 else 1

/-- The largest m8 body from t down whose magnitude times 2^12 is at most m × 2^e. -/
def m8Floor (m : Nat) (e : Int) : Nat → Nat
  | 0 => 0
  | t + 1 => if cmpPow m e (m8Mag (t + 1)) ≥ 0 then t + 1 else m8Floor m e t

/-- ToM8 (R37): the code and the generator after it. -/
def toM8 (x : Fl) (g : Word) : Nat × Word :=
  match x with
  | .nan => (0x80, g)
  | .inf s => ((if s then 0x80 else 0) + 0x7F, g)
  | .fin s m e =>
    let sg := if s then 0x80 else 0
    if m = 0 then (0, g)
    else if cmpPow m e 4096 ≥ 0 then (sg + 0x7F, g)
    else if cmpPow m (e + 12) 1 < 0 then
      let (g', u) := draw g
      if cmpPow m (e + 36) u > 0 then (sg + 1, g') else (0, g')
    else
      let lo := m8Floor m (e + 12) 0x7F
      if cmpPow m (e + 12) (m8Mag lo) = 0 then (sg + lo, g)
      else
        let c := cmpPow m (e + 13) (m8Mag lo + m8Mag (lo + 1))
        let t := if c < 0 then lo else if c > 0 then lo + 1 else if lo % 2 = 0 then lo else lo + 1
        (sg + t, g)

/-- The nearest integer of a finite value in a rounding mode. -/
def roundInt (rm : RMode) (s : Bool) (m : Nat) (e : Int) : Int :=
  let k : Nat := if e ≥ 0 then m * 2 ^ e.toNat else shiftRound rm s m (-e).toNat
  if s then -(k : Int) else k

/-- ToInt to an integer format, wrapping or saturating (R36). -/
def toInt (x : Fl) (fmt : Nat) (wrapping : Bool) : Nat :=
  let n := 8 * elemSize fmt
  match x with
  | .nan => 0
  | .inf s => if wrapping then 0 else if fmt = 1 then (if s then 0 else 255)
              else if s then 2 ^ (n - 1) else 2 ^ (n - 1) - 1
  | .fin s m e => narrow fmt (!wrapping) (roundInt .rne s m e)

/-- The value of an element pattern in an integer or real format. -/
def ofElem (fmt x : Nat) : Fl :=
  match fmt with
  | 8 => ofF32 x
  | 9 => ofBf16 x
  | 10 => ofM8 x
  | _ => Fl.ofInt (intVal fmt x)

/-- Rounds a value into fp32 or bf16 (R272). -/
def roundReal (fmt : Nat) (x : Fl) : Nat := if fmt = 9 then roundBf16 x else roundF32 x

/-- The canonical NaN of a real format (R29 to R31). -/
def canonNan (fmt : Nat) : Nat := if fmt = 9 then 0x7FC0 else if fmt = 10 then 0x80 else 0x7FC00000

/-! ## Products and sums (R43 to R46) -/

/-- Product (R43); a scale exponent of none is the NaN scale. An exact zero product has the exclusive or of the signs, -0 of factors of
unlike sign, which R43 does not say (DESIGN CHOICE, log entry 111). -/
def product (a b : Fl) (k : Option Int) : Nat :=
  match k with
  | none => 0x7FC00000
  | some k => roundF32 ((a.mul b).scale k)

/-- The exponent an e8 scale stands for (R33). -/
def scaleExp (e : Nat) : Option Int := if e = 255 then none else some ((e : Int) - 127)

/-- The sum of two scale exponents. -/
def scaleSum (a b : Option Int) : Option Int :=
  match a, b with
  | some a, some b => some (a + b)
  | _, _ => none

/-- Adds a term to a chain (R45); none is the empty chain. -/
def chainAdd (ch : Option Nat) (p : Nat) : Option Nat :=
  match ch with
  | none => some p
  | some v => some (roundF32 ((ofF32 v).add false (ofF32 p)))

/-- Close (R45). -/
def closeChains (even odd : Option Nat) : Nat :=
  match even, odd with
  | none, none => 0
  | some a, none => a
  | none, some b => b
  | some a, some b => roundF32 ((ofF32 a).add false (ofF32 b))

/-- Sums numbered terms in two chains by the parity of their numbers and closes them (R45). -/
def chainSum (terms : List (Nat × Nat)) : Nat :=
  let p := terms.foldl (fun (acc : Option Nat × Option Nat) t =>
    if t.1 % 2 = 0 then (chainAdd acc.1 t.2, acc.2) else (acc.1, chainAdd acc.2 t.2)) (none, none)
  closeChains p.1 p.2

/-- The larger of two magnitudes with the sign clear; the canonical NaN if either is NaN (R221). -/
def fmaxabs (a b : Nat) : Nat := roundF32 ((ofF32 a).abs.max2 (ofF32 b).abs)

/-- Floor(Log2(m × 2^e)) of a finite value that is not zero (R274). -/
def floorLog2 (m : Nat) (e : Int) : Int := (Nat.log2 m : Int) + e

/-- The block scale derived from the largest magnitude of a block and a target (R274, R303). -/
def deriveScale (mx : Fl) (t : Nat) : Nat :=
  match mx with
  | .fin _ 0 _ => 127
  | .fin _ m e => (max 0 (min 254 (127 + floorLog2 m e - t))).toNat
  | .inf _ => 254
  | .nan => 127

/-! ## The F extension on the harts (R29, R50) -/

/-- Exception flags: NV 16, DZ 8, OF 4, UF 2, NX 1. -/
abbrev FFlags := Nat

/-- Whether a pattern is a signalling NaN. -/
def isSNaN (w : Nat) : Bool := w / 0x800000 % 256 = 255 && w % 0x800000 ≠ 0 && w / 0x400000 % 2 = 0

/-- Rounds an exact value to binary32 with the flags of IEEE 754, tininess after rounding. -/
def roundF (rm : RMode) (x : Fl) : Nat × FFlags :=
  match x with
  | .nan => (0x7FC00000, 0)
  | .inf s => ((if s then 0xFF800000 else 0x7F800000), 0)
  | .fin s m e =>
    let sg := if s then 0x80000000 else 0
    let r := roundMag rm s 24 (-149) m e
    let b := magBits 24 (-149) r
    let exact : Bool := cmpPow m (e - r.2) r.1 = 0
    if b ≥ 0x7F800000 then
      let big : Bool := match rm with
        | .rne | .rmm => true | .rtz => false | .rdn => s | .rup => !s
      (sg + (if big then 0x7F800000 else 0x7F7FFFFF), 5)
    else
      let u := roundMag rm s 24 (min ((bitLen m : Int) + e - 24) (-149)) m e
      let tiny : Bool := m ≠ 0 && cmpPow u.1 (u.2 + 126) 1 < 0
      (sg + b, (if exact then 0 else 1) + (if !exact && tiny then 2 else 0))

/-- NV when a signalling NaN is among the operands. -/
def nvOf (l : List Nat) : FFlags := if l.any isSNaN then 16 else 0

/-- fadd.s and fsub.s (the sum of a and ±b). -/
def fAdd (rm : RMode) (sub : Bool) (a b : Nat) : Nat × FFlags :=
  let x := ofF32 a; let y := if sub then (ofF32 b).neg else ofF32 b
  let z := x.add (rm = .rdn) y
  let nv := if z = .nan && x ≠ .nan && y ≠ .nan then 16 else nvOf [a, b]
  let r := roundF rm z
  (r.1, r.2 ||| nv)

/-- fmul.s. -/
def fMul (rm : RMode) (a b : Nat) : Nat × FFlags :=
  let x := ofF32 a; let y := ofF32 b
  let z := x.mul y
  let nv := if z = .nan && x ≠ .nan && y ≠ .nan then 16 else nvOf [a, b]
  let r := roundF rm z
  (r.1, r.2 ||| nv)

/-- The fused multiply-adds: ±(a × b) ± c, one rounding. -/
def fFma (rm : RMode) (negP negC : Bool) (a b c : Nat) : Nat × FFlags :=
  let x := ofF32 a; let y := ofF32 b; let w := ofF32 c
  let p := if negP then (x.mul y).neg else x.mul y
  let w' := if negC then w.neg else w
  let z := p.add (rm = .rdn) w'
  let invP : Bool := p = .nan && x ≠ .nan && y ≠ .nan
  let invS : Bool := z = .nan && p ≠ .nan && w ≠ .nan
  let nv := if invP || invS then 16 else nvOf [a, b, c]
  let r := roundF rm z
  (r.1, r.2 ||| nv)

/-- fdiv.s: the quotient to 64 bits past the divisor with a sticky bit, then one rounding. -/
def fDiv (rm : RMode) (a b : Nat) : Nat × FFlags :=
  let x := ofF32 a; let y := ofF32 b
  match x, y with
  | .nan, _ => (0x7FC00000, nvOf [a, b])
  | _, .nan => (0x7FC00000, nvOf [a, b])
  | .inf _, .inf _ => (0x7FC00000, 16)
  | .inf s, .fin t _ _ => roundF rm (.inf (s != t))
  | .fin s _ _, .inf t => roundF rm (.fin (s != t) 0 0)
  | .fin s m e, .fin t n f =>
    if n = 0 then (if m = 0 then (0x7FC00000, 16) else ((roundF rm (.inf (s != t))).1, 8))
    else
      let q := m * 2 ^ 64 / n; let r := m * 2 ^ 64 % n
      roundF rm (.fin (s != t) (2 * q + (if r = 0 then 0 else 1)) (e - f - 65))

/-- The integer square root by bits, from the highest down. -/
def isqrtBits (n : Nat) : Nat → Nat → Nat
  | 0, r => r
  | k + 1, r => if (r + 2 ^ k) * (r + 2 ^ k) ≤ n then isqrtBits n k (r + 2 ^ k) else isqrtBits n k r

/-- fsqrt.s. -/
def fSqrt (rm : RMode) (a : Nat) : Nat × FFlags :=
  match ofF32 a with
  | .nan => (0x7FC00000, nvOf [a])
  | .inf s => if s then (0x7FC00000, 16) else (0x7F800000, 0)
  | .fin s m e =>
    if m = 0 then (a, 0)
    else if s then (0x7FC00000, 16)
    else
      let m' := if e % 2 = 0 then m else 2 * m
      let e' := if e % 2 = 0 then e else e - 1
      let n := m' * 2 ^ 64
      let r := isqrtBits n 48 0
      roundF rm (.fin false (2 * r + (if r * r = n then 0 else 1)) (e' / 2 - 33))

/-- fmin.s and fmax.s: a NaN operand gives the other, two NaNs the canonical NaN. -/
def fMinMax (mx : Bool) (a b : Nat) : Nat × FFlags :=
  let x := ofF32 a; let y := ofF32 b
  let nv := nvOf [a, b]
  if x = .nan && y = .nan then (0x7FC00000, nv)
  else if x = .nan then (b, nv)
  else if y = .nan then (a, nv)
  else
    let z := if mx then x.max2 y else x.min2 y
    ((if z = x then a else b), nv)

/-- feq.s, flt.s and fle.s: flt and fle signal on any NaN, feq on a signalling one. -/
def fCmp (op : FCmpOp) (a b : Nat) : Nat × FFlags :=
  let x := ofF32 a; let y := ofF32 b
  if x = .nan || y = .nan then
    (0, match op with | .feq => nvOf [a, b] | _ => 16)
  else
    let c := x.cmp y
    ((match op with
      | .feq => if c = 0 then 1 else 0
      | .flt => if c < 0 then 1 else 0
      | .fle => if c ≤ 0 then 1 else 0), 0)

/-- fclass.s. -/
def fClass (a : Nat) : Nat :=
  let s : Bool := a / 0x80000000 % 2 = 1
  match ofF32 a with
  | .nan => if isSNaN a then 2 ^ 8 else 2 ^ 9
  | .inf _ => if s then 2 ^ 0 else 2 ^ 7
  | .fin _ m _ =>
    if m = 0 then (if s then 2 ^ 3 else 2 ^ 4)
    else if m < 0x800000 then (if s then 2 ^ 2 else 2 ^ 5)
    else (if s then 2 ^ 1 else 2 ^ 6)

/-- Least and greatest value of an integer format of the conversions. -/
def fintRange : FInt → Int × Int
  | .w => (-(2 ^ 31), 2 ^ 31 - 1)
  | .wu => (0, 2 ^ 32 - 1)
  | .l => (-(2 ^ 63), 2 ^ 63 - 1)
  | .lu => (0, 2 ^ 64 - 1)

/-- fcvt to an integer, as the 64-bit register value (a 32-bit result is sign-extended). -/
def fToInt (rm : RMode) (it : FInt) (a : Nat) : Word × FFlags :=
  let (lo, hi) := fintRange it
  let reg (v : Int) : Word := match it with
    | .w | .wu => (BitVec.ofInt 32 v).signExtend 64
    | _ => BitVec.ofInt 64 v
  match ofF32 a with
  | .nan => (reg hi, 16)
  | .inf s => (reg (if s then lo else hi), 16)
  | .fin s m e =>
    let v := roundInt rm s m e
    if v < lo then (reg lo, 16)
    else if v > hi then (reg hi, 16)
    else (reg v, if cmpPow m e v.natAbs = 0 then 0 else 1)

/-- fcvt from an integer register. -/
def fOfInt (rm : RMode) (it : FInt) (x : Word) : Nat × FFlags :=
  let v : Int := match it with
    | .w => signedVal 32 x.toNat
    | .wu => (x.toNat % 2 ^ 32 : Nat)
    | .l => x.toInt
    | .lu => (x.toNat : Nat)
  roundF rm (.fin (v < 0) v.natAbs 0)

/-- fsgnj.s, fsgnjn.s and fsgnjx.s. -/
def fSgn (op : FSgnOp) (a b : Nat) : Nat :=
  let sa := a / 0x80000000 % 2; let sb := b / 0x80000000 % 2
  let s := match op with
    | .fsgnj => sb | .fsgnjn => 1 - sb | .fsgnjx => (sa + sb) % 2
  s * 0x80000000 + a % 0x80000000

/-- The rounding mode of a static or dynamic field; none where it names no mode (R50). -/
def rmodeOf (rm frm : BitVec 3) : Option RMode :=
  match (if rm = 7 then frm else rm).toNat with
  | 0 => some .rne | 1 => some .rtz | 2 => some .rdn | 3 => some .rup | 4 => some .rmm
  | _ => none

end Sys2Proof.Machine
end

