-- ==== Sys2Proof/Machine/Flags.lean ====
section
/-! DEFINITION. Flag and status bits: the hart's fflags and frm (R29, R50), the trap status bits of
`ctxstat` (R141), the timeline error bits (R116), the token overflow bits (R216) and the bucket overflow
bits (R251). -/

namespace Sys2Proof.Machine

/-- Accrues exception flags. -/
def Hart.accrue (h : Hart) (f : FFlags) : Hart := { h with fflags := h.fflags ||| BitVec.ofNat 5 f }

/-- Bit H of `ctxstat`: in a handler. -/
def Hart.inHandler (h : Hart) : Bool := h.ctxstat.getLsbD 4
/-- Bit CE of `ctxstat`: command-fault traps enabled. -/
def Hart.faultsEnabled (h : Hart) : Bool := h.ctxstat.getLsbD 5
/-- Bit CP of `ctxstat`: a command-fault trap is pending. -/
def Hart.faultPending (h : Hart) : Bool := h.ctxstat.getLsbD 6
/-- Bit YR of `ctxstat`: soft pre-emption requested. -/
def Hart.yieldRequested (h : Hart) : Bool := h.ctxstat.getLsbD 7
/-- Bit E of `ctxvec`: traps enter the handler. -/
def Hart.trapsEnabled (h : Hart) : Bool := h.ctxvec.getLsbD 0

/-- Sets or clears one bit of a word. -/
def putBit {n : Nat} (w : BitVec n) (i : Nat) (b : Bool) : BitVec n :=
  if b then w ||| (BitVec.ofNat n (2 ^ i)) else w &&& ~~~(BitVec.ofNat n (2 ^ i))

def Hart.setH (h : Hart) (b : Bool) : Hart := { h with ctxstat := putBit h.ctxstat 4 b }
def Hart.setCP (h : Hart) (b : Bool) : Hart := { h with ctxstat := putBit h.ctxstat 6 b }
def Hart.setYR (h : Hart) (b : Bool) : Hart := { h with ctxstat := putBit h.ctxstat 7 b }

/-- A command-fault trap that can be taken now (R129). -/
def Hart.trapReady (h : Hart) : Bool := h.faultPending && h.faultsEnabled && !h.inHandler

/-- Sets the error bit of a timeline (R116). -/
def TileCtx.setTlerr (c : TileCtx) (x : Nat) : TileCtx := { c with tlerr := putBit c.tlerr x true }

/-- Sets the clamp bit of a token counter (R216). -/
def TileCtx.setTkov (c : TileCtx) (t : Nat) : TileCtx := { c with tkov := putBit c.tkov t true }

/-- Sets the wrap bit of a lane (R251). -/
def TileCtx.setBkovf (c : TileCtx) (l : Nat) : TileCtx := { c with bkovf := putBit c.bkovf l true }

/-- Adds to a count that stops at 2^n − 1. -/
def satAdd (n a b : Nat) : Nat := min (a + b) (2 ^ n - 1)

/-- A write of v to a W1C field by a CSR instruction (R403): csrrw and csrrs clear the bits of v, csrrc none. -/
def w1c {n : Nat} (k : CsrKind) (old v : BitVec n) : BitVec n :=
  match k with
  | .rw | .rs => old &&& ~~~v
  | .rc => old

/-- The value that a CSR instruction gives an RW field. -/
def csrNew (k : CsrKind) (old v : Word) : Word :=
  match k with
  | .rw => v
  | .rs => old ||| v
  | .rc => old &&& ~~~v

end Sys2Proof.Machine
end

