-- ==== Sys2Proof/Machine/Access.lean ====
section
/-! DEFINITION. Reading and writing the parts of the state: tiles, harts and their registers, contexts,
queues. -/

namespace Sys2Proof.Machine

/-- A hart: the tile and which of its two harts (R17). -/
structure HartId where
  tile : Nat
  move : Bool
deriving DecidableEq, Repr

/-- The tile of an agent. -/
def Agent.tile : Agent → Nat
  | .main t | .move t | .slicer t | .addr t | .compute t | .copy t | .msg t => t
  | .ring _ => 0

/-- The hart that an agent is, or the hart that pushes to the agent's queue (R18). -/
def Agent.hart : Agent → HartId
  | .move t | .copy t | .msg t => ⟨t, true⟩
  | a => ⟨a.tile, false⟩

/-- The hart that takes the step. -/
def State.me (s : State) : HartId := s.cur.hart

/-! ## Tiles -/

def State.tile (s : State) (t : Nat) : Tile := SMap.get {} s.tiles t
def State.setTile (s : State) (t : Nat) (x : Tile) : State := { s with tiles := SMap.put s.tiles t x }
/-- The context's state on a tile. -/
def State.tc (s : State) (t : Nat) : TileCtx := (s.tile t).ctx
def State.setTc (s : State) (t : Nat) (x : TileCtx) : State := s.setTile t { s.tile t with ctx := x }
def State.modTc (s : State) (t : Nat) (f : TileCtx → TileCtx) : State := s.setTc t (f (s.tc t))

/-- The context that holds a tile. -/
def State.ctxOf (s : State) (t : Nat) : Nat := ((s.tile t).owner.getD (0, 0)).1
/-- The context tile number of a tile (R123). -/
def State.ctileOf (s : State) (t : Nat) : Nat := ((s.tile t).owner.getD (0, 0)).2

/-- The cluster of a tile (R14): bed, row[3:1], col[2:1]. -/
def clusterOf (t : Nat) : Nat := t / 128 * 32 + t / 16 % 8 * 4 + t / 2 % 4
/-- The position of a tile in its cluster (R123). -/
def positionOf (t : Nat) : Nat := t / 8 % 2 * 2 + t % 2
/-- The tile at a position of a cluster. -/
def tileAt (k pos : Nat) : Nat := k / 32 * 128 + (k / 4 % 8 * 2 + pos / 2) * 8 + k % 4 * 2 + pos % 2

/-! ## Harts and their registers -/

def TileCtx.hart (c : TileCtx) (mv : Bool) : Hart := if mv then c.move else c.main
def TileCtx.setHart (c : TileCtx) (mv : Bool) (h : Hart) : TileCtx :=
  if mv then { c with move := h } else { c with main := h }
def State.hart (s : State) (h : HartId) : Hart := (s.tc h.tile).hart h.move
def State.setHart (s : State) (h : HartId) (x : Hart) : State := s.modTc h.tile (fun c => c.setHart h.move x)
def State.modHart (s : State) (h : HartId) (f : Hart → Hart) : State := s.setHart h (f (s.hart h))

/-- X[r]; x0 reads zero. -/
def Hart.readX (h : Hart) (r : Reg) : Word := if r = 0 then 0 else SMap.get 0 h.x r.toNat
/-- Writes X[r]; a write of x0 is discarded (R54). -/
def Hart.writeX (h : Hart) (r : Reg) (v : Word) : Hart :=
  if r = 0 then h else { h with x := SMap.set 0 h.x r.toNat v }
/-- F[r], binary32 (R52). -/
def Hart.readF (h : Hart) (r : Reg) : Word32 := SMap.get 0 h.f r.toNat
def Hart.writeF (h : Hart) (r : Reg) (v : Word32) : Hart := { h with f := SMap.set 0 h.f r.toNat v }

def State.readX (s : State) (h : HartId) (r : Reg) : Word := (s.hart h).readX r
def State.writeX (s : State) (h : HartId) (r : Reg) (v : Word) : State := s.modHart h (fun x => x.writeX r v)

/-- An instruction retires: the next pc, and one more in `instret` (R402). -/
def State.retire (s : State) (h : HartId) (pc : Word) : State :=
  s.modHart h (fun x => { x with pc := pc, instret := x.instret + 1, run := .running, tmpl := [] })

/-! ## Contexts -/

def State.ctx (s : State) (c : Nat) : Context := SMap.get {} s.ctxs c
def State.setCtx (s : State) (c : Nat) (x : Context) : State := { s with ctxs := SMap.put s.ctxs c x }
def State.modCtx (s : State) (c : Nat) (f : Context → Context) : State := s.setCtx c (f (s.ctx c))

/-- The tiles of a context in context tile order (R123). -/
def Context.tiles (x : Context) : List Nat :=
  x.clusters.flatMap (fun k => [tileAt k 0, tileAt k 1, tileAt k 2, tileAt k 3])
def State.tilesOf (s : State) (c : Nat) : List Nat := (s.ctx c).tiles

/-- Changes the kernel that is loaded, if there is one. -/
def Context.modKernel (x : Context) (f : Kernel → Kernel) : Context := { x with kernel := x.kernel.map f }

/-! ## Queues of a tile -/

def TileCtx.queue (c : TileCtx) (q : Nat) : CmdQueue := if q = 0 then c.q0 else if q = 1 then c.q1 else c.q2
def TileCtx.setQueue (c : TileCtx) (q : Nat) (x : CmdQueue) : TileCtx :=
  if q = 0 then { c with q0 := x } else if q = 1 then { c with q1 := x } else { c with q2 := x }
def TileCtx.modQueue (c : TileCtx) (q : Nat) (f : CmdQueue → CmdQueue) : TileCtx := c.setQueue q (f (c.queue q))
def State.queue (s : State) (t q : Nat) : CmdQueue := (s.tc t).queue q

/-- The entry with a sequence number. -/
def CmdQueue.find (q : CmdQueue) (seq : Nat) : Option Entry := q.entries.find? (fun e => e.seq = seq)
/-- Changes the entry with a sequence number. -/
def CmdQueue.mod (q : CmdQueue) (seq : Nat) (f : Entry → Entry) : CmdQueue :=
  { q with entries := q.entries.map (fun e => if e.seq = seq then f e else e) }
def State.modEntry (s : State) (t q seq : Nat) (f : Entry → Entry) : State :=
  s.modTc t (fun c => c.modQueue q (fun x => x.mod seq f))

/-- Entries that hold a slot of the queue: those the engines have not started (R146). -/
def Entry.waiting (e : Entry) : Bool := e.st = .queued || e.st = .taken

def TileCtx.dqueue (c : TileCtx) (n : Nat) : DataQueue := SMap.get {} c.dq n
def TileCtx.setDq (c : TileCtx) (n : Nat) (x : DataQueue) : TileCtx := { c with dq := SMap.put c.dq n x }

def TileCtx.token (c : TileCtx) (n : Nat) : Token := SMap.get {} c.tokens n
def TileCtx.setToken (c : TileCtx) (n : Nat) (x : Token) : TileCtx := { c with tokens := SMap.put c.tokens n x }

/-! ## Timelines of a tile (R113): 0 tlc, 1 tlf, 2 tlk, 3 tla -/

def TileCtx.timeline (c : TileCtx) (x : Nat) : Nat :=
  if x = 0 then c.tlc else if x = 1 then c.tlf else if x = 2 then c.tlk else c.tla
def TileCtx.setTimeline (c : TileCtx) (x v : Nat) : TileCtx :=
  if x = 0 then { c with tlc := v } else if x = 1 then { c with tlf := v }
  else if x = 2 then { c with tlk := v } else { c with tla := v }
def TileCtx.target (c : TileCtx) (x : Nat) : Nat :=
  if x = 0 then c.targetC else if x = 1 then c.targetF else if x = 2 then c.targetK else c.targetA
def TileCtx.setTarget (c : TileCtx) (x v : Nat) : TileCtx :=
  if x = 0 then { c with targetC := v } else if x = 1 then { c with targetF := v }
  else if x = 2 then { c with targetK := v } else { c with targetA := v }

/-- Timeline X as `tl.read` and `tl.wait` see it: 0 to 3 the tile's, 4 tlr, 5 tli, 6 tlm (R53, R113). -/
def State.timeline (s : State) (t x : Nat) : Nat :=
  if x < 4 then (s.tc t).timeline x
  else
    let c := s.ctx (s.ctxOf t)
    if x = 4 then c.tlr else if x = 5 then c.tli else c.tlm

/-! ## Links, banks, rings, anvils -/

/-- The link number of a link object (R383). -/
def linkNumber (l : Link) : Nat :=
  (match l.kind with | .mesh => 0 | .stem => 1 | .elevator => 2 | .chiplet => 3 | .jecen => 4) * 4096 + l.idx
def State.link (s : State) (l : Link) : LinkRec := SMap.get {} s.links (linkNumber l)
def State.setLink (s : State) (l : Link) (x : LinkRec) : State := { s with links := SMap.put s.links (linkNumber l) x }
def State.modLink (s : State) (l : Link) (f : LinkRec → LinkRec) : State := s.setLink l (f (s.link l))

def State.bank (s : State) (b : Nat) : Bank := SMap.get {} s.banks b
def State.setBank (s : State) (b : Nat) (x : Bank) : State := { s with banks := SMap.put s.banks b x }

def State.ring (s : State) (n : Nat) : Ring := SMap.get {} s.rings n
def State.setRing (s : State) (n : Nat) (x : Ring) : State := { s with rings := SMap.put s.rings n x }

def State.anvil (s : State) (k : Nat) : Anvil := SMap.get {} s.anvils k
def State.setAnvil (s : State) (k : Nat) (x : Anvil) : State := { s with anvils := SMap.put s.anvils k x }
def State.modAnvil (s : State) (k : Nat) (f : Anvil → Anvil) : State := s.setAnvil k (f (s.anvil k))

def State.modDev (s : State) (f : Device → Device) : State := { s with dev := f s.dev }

/-- Adds an event to the device error log: 4,096 entries, the oldest overwritten; it raises MSI-X vector 63 where the host has
enabled that (R390). -/
def State.logEvent (s : State) (code : LogCode) (ctx : Option Nat) (place : Nat) : State :=
  s.modDev (fun d =>
    let l := d.log ++ [{ clk := s.clk, code := code, ctx := ctx, place := place }]
    { d with
      log := if l.length > 4096 then l.tail else l
      logOverflows := if l.length > 4096 then satAdd 64 d.logOverflows 1 else d.logOverflows
      msix := if !d.errorsOn || d.msix.contains 63 then d.msix else d.msix ++ [63] })

/-- Draws a free value (R3; log entry 2). -/
def State.free (s : State) : Word × State := (Config.freeWord s.fresh, { s with fresh := s.fresh + 1 })

/-! ## What the chip hands to the fabric (R353, R357, R375) -/

/-- A step to be taken again later: an access that stalls at a page that is moving (R338), an answer on this chip. -/
def State.later (s : State) (i : Instr) : State := { s with agenda := s.agenda ++ [.event i] }

/-- The Jecen port by which the traffic of a source tile and channel leaves for a chip (R353); none where no path reaches it. -/
def State.portTo (s : State) (serial : Word) (tile chan : Nat) : Option Nat :=
  match s.dev.chips.find? (fun p => p.1 = serial) with
  | some p => p.2[Config.portSpread tile chan % p.2.length]?
  | none => none

/-- What the loss of a thing handed to the fabric brings about at this chip: outcome 3, or a lost element; nothing for an answer
to another chip and for a page (R324, R375). -/
def Sent.lost (x : Sent) : Option Instr :=
  let ack (r : MsgRef) : Instr := .messageAck ⟨r.ctx, r.ctile, r.seq, 0, 3⟩
  match x with
  | .send _ m => some (ack m.sender)
  | .put _ p => some (ack p.sender)
  | .arrive _ a => some (ack a.sender)
  | .get _ g => some (.getReply ⟨g.sender.ctx, g.sender.ctile, g.sender.seq, 0, [], true, 3⟩)
  | .element _ _ _ _ _ elem _ tile seq => some (.copyRemoteElement ⟨tile, seq, elem, .lost, 0⟩)
  | .reply _ _ _ | .ack _ _ _ | .page _ _ _ _ _ => none

/-- What waits for a route where there is none: an acknowledgement, which is protected in every class, and a page (R355). -/
def Sent.waits : Sent → Bool
  | .ack _ _ _ | .page _ _ _ _ _ => true
  | _ => false

/-- A thing handed to the fabric is lost, and the sender on this chip learns it (R375). -/
def State.loseSent (s : State) (what : Sent) : State :=
  match what.lost with
  | some i => s.later i
  | none => s

/-- The device counts a packet that a node drops, and logs it with the node (R353, R355, R388). -/
def State.countDropped (s : State) (node : Nat) : State :=
  (s.modDev (fun d => { d with packetsDropped := satAdd 64 d.packetsDropped 1 })).logEvent .packetDropped none node

/-- Hands a thing to the fabric by the port that the Jecen table gives. What no route takes is lost, an unprotected one counted, or waits
for one; a port that drains carries only what is committed to it already, so what comes later waits until the table names another (R351,
R353, R355, R375; log entry 62). -/
def State.depart (s : State) (serial : Word) (cls tile chan : Nat) (what : Sent) : State :=
  let hand (port : Option Nat) : State :=
    { s with sent := s.sent ++ [{ port := port, cls := cls, tile := tile, chan := chan, what := what }] }
  match s.portTo serial tile chan with
  | some q => hand (if (s.link ⟨.jecen, q⟩).st = .draining then none else some q)
  | none => if what.waits then hand none else (if cls = 0 then s else s.countDropped tile).loseSent what

/-- What is answered is in the fabric no longer. -/
def State.answered (s : State) (p : Sent → Bool) : State := { s with sent := s.sent.filter (fun d => !p d.what) }

end Sys2Proof.Machine
end

