-- ==== Sys2Proof/Machine/Memory.lean ====
section
/-! DEFINITION. Memory: the physical space and its tiers (R78, R79), the symbol code of tier S (R87 to
R91), full/empty bits (R84, R85), what a write does at its home (watches, held tagged requests, lost
install requests), the remote-read cache (R82, R83), the page walk (R329 to R331) and the accesses built
on them. -/

namespace Sys2Proof.Machine

/-! ## Bytes -/

/-- What a byte that nothing is listed for reads as (R84 for tier S; log entry 7 for the others). -/
def unlisted : Byte := 0

/-- The canonical form of memory: addresses strictly rising, no listed byte equal to an unlisted one. -/
def Memory.wf (m : List Host.Cell) : Bool := SMap.wf unlisted m

/-- The byte at a physical address. -/
def State.byte (s : State) (pa : Nat) : Byte := SMap.get unlisted s.mem pa
def State.setByte (s : State) (pa : Nat) (v : Byte) : State := { s with mem := SMap.set unlisted s.mem pa v }

/-- n bytes from an address, least significant first (R5). -/
def State.rawRead (s : State) (pa : Nat) : Nat → Nat
  | 0 => 0
  | n + 1 => (s.byte pa).toNat + 256 * State.rawRead s (pa + 1) n

/-- Writes the low n bytes of a value from an address, least significant first (R5). -/
def State.rawWrite (s : State) (pa : Nat) : Nat → Nat → State
  | 0, _ => s
  | n + 1, v => State.rawWrite (s.setByte pa (BitVec.ofNat 8 v)) (pa + 1) n (v / 256)

/-- The full/empty bit of the word at a physical address of tier S (R84). -/
def State.isFull (s : State) (pa : Nat) : Bool := SMap.get false s.full (pa / 8)
def State.setFull (s : State) (pa : Nat) (b : Bool) : State := { s with full := SMap.set false s.full (pa / 8) b }

/-! ## Tiers (R78) -/

/-- The tier code of a physical address: 0 S, 1 D, 2 F, 3 P, 4 H. -/
def tierOf (pa : Nat) : Option Nat :=
  if pa < Config.tierSEnd then some 0
  else if Config.tierDBase ≤ pa && pa < Config.tierDEnd then some 1
  else if Config.tierFBase ≤ pa && pa < Config.tierFEnd then some 2
  else if Config.tierPBase ≤ pa && pa < Config.tierPEnd then some 3
  else if Config.tierHBase ≤ pa && pa < Config.tierHEnd then some 4
  else none

/-- The physical range of a tier code. -/
def tierRange (tier : Nat) : Nat × Nat :=
  match tier with
  | 0 => (0, Config.tierSEnd)
  | 1 => (Config.tierDBase, Config.tierDEnd)
  | 2 => (Config.tierFBase, Config.tierFEnd)
  | 3 => (Config.tierPBase, Config.tierPEnd)
  | _ => (Config.tierHBase, Config.tierHEnd)

/-- Whether an address is fitted (R78, R79, R384). Which ranges of tier H the host grants is what boot finds; before a boot all of
tier H is granted (DESIGN CHOICE, log entry 94). -/
def State.fitted (s : State) (pa : Nat) : Bool :=
  match tierOf pa with
  | some 0 => true
  | some 1 => pa < Config.tierDBase + s.dev.fittedD
  | some 2 => pa < Config.tierFBase + s.dev.fittedF
  | some 3 => s.dev.expanders.any (fun e => e.1 ≤ pa && pa < e.1 + e.2)
  | some _ => s.dev.grantH.any (fun e => e.1 ≤ pa && pa < e.1 + e.2)
  | none => false

/-- The size that the flash staging cache takes (R342). -/
def State.stagingSize (s : State) : Nat :=
  if s.dev.fittedD < 2 * s.dev.settings.staging then s.dev.fittedD / 2 / 0x200000 * 0x200000
  else s.dev.settings.staging

/-- Whether a frame of tier D reaches into the staging region, the top of the fitted range (R342). -/
def State.inStaging (s : State) (base len : Nat) : Bool :=
  let top := Config.tierDBase + s.dev.fittedD
  top - s.stagingSize < base + len && base < top

/-- The home tile of a tier S address (R80). -/
def homeTile (pa : Nat) : Nat := pa / 0x2000000

/-- An access that reaches nothing fitted is counted and logged (R79, R388). -/
def State.countUnmapped (s : State) (c : Option Nat) (pa : Nat) : State :=
  (s.modDev (fun d => { d with unmapped := satAdd 64 d.unmapped 1 })).logEvent .unmapped c pa

/-! ## The symbol code (R87 to R91) -/

/-- Multiplies by α in GF(2^11) with x^11 + x^2 + 1 (R87). -/
def gfStep (x : Nat) : Nat := if x < 1024 then 2 * x else (2 * x - 2048) ^^^ 5

/-- Multiplies by α^j. -/
def gfShift (x : Nat) : Nat → Nat
  | 0 => x
  | j + 1 => gfStep (gfShift x j)

/-- Sub-symbol i of a symbol. -/
def subSymbol (f i : Nat) : Nat := f / 2 ^ (11 * i) % 2048

/-- The syndromes of codeword i of a line, from how its 18 symbols differ from a codeword (R88). -/
def syndromes (fl : List Nat) (i : Nat) : Nat × Nat :=
  (fl.zip (List.range 18)).foldl
    (fun acc p => (acc.1 ^^^ subSymbol p.1 i, acc.2 ^^^ gfShift (subSymbol p.1 i) p.2)) (0, 0)

inductive CodewordClass
  | clean
  | names (bank : Nat)
  | bad
deriving DecidableEq, Repr

/-- The class of a codeword by its syndromes (R88). -/
def classify (syn : Nat × Nat) : CodewordClass :=
  if syn.1 = 0 && syn.2 = 0 then .clean
  else if syn.1 = 0 || syn.2 = 0 then .bad
  else match (List.range 18).find? (fun j => gfShift syn.1 j = syn.2) with
    | some j => .names j
    | none => .bad

/-- Corrects symbol j by S0 of each codeword. -/
def correctSymbol (fl : List Nat) (j : Nat) : List Nat :=
  let fix := (syndromes fl 0).1 + (syndromes fl 1).1 * 2 ^ 11 + (syndromes fl 2).1 * 2 ^ 22
  setNth fl j (nth 0 fl j ^^^ fix)

/-- What a read makes of a line: nothing if uncorrectable, else how its symbols then differ from what was
written, and the bank corrected (R88). `erased` lists the banks decoded as erased. -/
def readOutcome (fl : List Nat) (erased : List Nat) : Option (List Nat × Option Nat) :=
  match erased with
  | [] =>
    let cs := [classify (syndromes fl 0), classify (syndromes fl 1), classify (syndromes fl 2)]
    let named := cs.filterMap (fun c => match c with | .names j => some j | _ => none)
    if cs.contains .bad then none
    else match named with
      | [] => some (fl, none)
      | j :: r => if r.all (fun k => k = j) then some (correctSymbol fl j, some j) else none
  | [e] =>
    if (List.range 3).all (fun i => gfShift (syndromes fl i).1 e = (syndromes fl i).2) then
      some (correctSymbol fl e, none) else none
  | _ => none

/-- The number of bank j of the layer that holds a line (R383). -/
def bankNumber (line j : Nat) : Nat := (line / 0x80000 * 4 + line / 8 % 4) * 18 + j

/-- How the 18 symbols of a line differ from what was written. -/
def State.lineFlips (s : State) (line : Nat) : List Nat :=
  (List.range 18).map (fun j => (SMap.get 0 s.flips (line * 18 + j)).toNat)

/-- The banks that a line decodes as erased: a rebuild has not reached its row (R91). -/
def State.erasedBanks (s : State) (line : Nat) : List Nat :=
  (List.range 18).filter (fun j =>
    let b := s.bank (bankNumber line j)
    b.erased && (match b.rebuild with | none => true | some r => decide (r ≤ line / 32 % 16384)))

/-- Forgets the flips of a line: it is held as written. -/
def State.clearFlips (s : State) (line : Nat) : State :=
  { s with flips := s.flips.filter (fun p => p.1 / 18 ≠ line) }

/-- Folds the remaining difference of a line's data symbols into its bytes and full/empty bits. -/
def State.foldFlips (s : State) (line : Nat) (fl : List Nat) : State :=
  (List.range 16).foldl (fun (s : State) j =>
    let f := nth 0 fl j
    if f = 0 then s
    else
      let pa := line * 64 + 4 * j
      let s := s.rawWrite pa 4 (s.rawRead pa 4 ^^^ (f % 2 ^ 32))
      if j % 2 = 0 && f / 2 ^ 32 % 2 = 1 then s.setFull pa (!s.isFull pa) else s) s

/-- A bank is retired: erased at once, and rebuilt into a spare of its footprint and layer if one is left
(R90, R91). Its events log the number of the bank or of the layer (DESIGN CHOICE, log entry 142). -/
def State.retireBank (s : State) (b : Nat) : State :=
  let lay := b / 18
  let spare := clusterOf (lay / 4) * 4 + lay % 4
  let others := (List.range 18).any (fun j => (s.bank (lay * 18 + j)).erased && lay * 18 + j ≠ b)
  let s := s.modDev (fun d => { d with retiredBanks := satAdd 64 d.retiredBanks 1 })
  let s := s.logEvent .bankRetired none b
  let s := if others then s.logEvent .layerLost none lay else s
  if SMap.get 0 s.spares spare < 2 then
    { s.setBank b { s.bank b with erased := true, rebuild := some 0 } with
      spares := SMap.set 0 s.spares spare (SMap.get 0 s.spares spare + 1) }
  else (s.setBank b { s.bank b with erased := true, rebuild := none }).logEvent .bankErased none b

/-- One corrected event on a bank; the seventeenth within 1.25 × 10^9 clk retires it (R90). -/
def State.countCorrected (s : State) (b : Nat) : State :=
  let k := s.bank b
  let times := (s.clk :: k.times).take 17
  let s := s.setBank b { k with corrected := satAdd 32 k.corrected 1, times := times }
  if times.length = 17 && s.clk - nth 0 times 16 ≤ 1250000000 && !k.erased then s.retireBank b else s

/-! ## Watches (R202) and power gating (R204) -/

/-- A write that wakes a hart of a tile ungates the tile. -/
def State.ungate (s : State) (t : Nat) : State :=
  if (s.tile t).gated then s.setTile t { s.tile t with gated := false } else s

/-- Whether a hart is stalled on a word. -/
def Hart.waitsAt (x : Hart) (pa : Nat) : Bool :=
  match x.run with
  | .waiting (.barr a _ _ _) | .waiting (.tagged a) => a / 8 = pa / 8
  | _ => false

/-- A write to a word on which a hart of a gated tile is stalled ungates the tile (R204). -/
def State.ungateAt (s : State) (pa : Nat) : State :=
  { s with tiles := s.tiles.map (fun p =>
      if p.2.gated && (p.2.ctx.main.waitsAt pa || p.2.ctx.move.waitsAt pa) then (p.1, { p.2 with gated := false }) else p) }

/-- A write performed at a word fires the slots that watch it (R202). -/
def State.fireWatches (s : State) (pa : Nat) : State :=
  let s := s.ungateAt pa
  let hit := s.watches.filter (fun w => w.pa / 8 = pa / 8)
  let s := { s with watches := s.watches.filter (fun w => w.pa / 8 ≠ pa / 8) }
  hit.foldl (fun (s : State) w =>
    (s.modHart ⟨w.tile, w.move⟩ (fun h => { h with slots := SMap.set .disarmed h.slots w.slot .fired })).ungate w.tile) s

/-! ## The page walk (R329 to R331) -/

/-- A translation: the physical address, the frame's base and log2 size, the tier, W and C. -/
structure Leaf where
  pa : Nat
  base : Nat
  size : Nat
  tier : Nat
  writable : Bool
  compressed : Bool
  entryPa : Nat
  entry : Word
deriving DecidableEq, Repr

/-- log2 of the page size of a size code (R330). -/
def pageBits (code : Nat) : Nat := if code = 0 then 14 else if code = 1 then 21 else if code = 2 then 25 else 29

/-- The size codes a level may hold (R329). -/
def sizeAllowed (level code : Nat) : Bool :=
  match level with
  | 1 => code = 3
  | 2 => code = 1 || code = 2
  | 3 => code = 0
  | _ => false

/-- Whether a valid entry is malformed (R330). -/
def State.malformedEntry (s : State) (level : Nat) (e : Word) : Bool :=
  let tier := field e 59 3; let size := field e 57 2; let frame := field e 14 40 * 2 ^ 14
  let leaf := e.getLsbD 62; let len := if leaf then 2 ^ pageBits size else 1024
  let r := tierRange tier
  field e 0 13 ≠ 0 || tier ≥ 5 || frame % len ≠ 0 || frame < r.1 || r.2 < frame + len ||
    (!leaf && (size ≠ 0 || e.getLsbD 56 || e.getLsbD 55 || e.getLsbD 54 || e.getLsbD 13 || tier ≥ 2)) ||
    (leaf && !(sizeAllowed level size)) ||
    (leaf && tier = 2 && (size = 0 || e.getLsbD 56)) ||
    (leaf && e.getLsbD 55 && (tier = 0 || tier = 2)) ||
    (tier = 1 && s.inStaging frame len)

/-- What a valid leaf entry says of an address: kind 2, kind 5 (retired), or a translation (R348). -/
def leafOf (va entryPa : Nat) (e : Word) : Except Nat Leaf :=
  let n := pageBits (field e 57 2); let frame := field e 14 40 * 2 ^ 14
  if e.getLsbD 13 then .error 5
  else .ok { pa := frame + va % 2 ^ n, base := frame, size := n, tier := field e 59 3,
             writable := e.getLsbD 56, compressed := e.getLsbD 55, entryPa := entryPa, entry := e }

/-- The index of an address at a level (R329). -/
def levelIndex (level va : Nat) : Nat :=
  match level with
  | 0 => va / 2 ^ 40 % 4096
  | 1 => va / 2 ^ 29 % 2048
  | 2 => va / 2 ^ 21 % 256
  | _ => va / 2 ^ 14 % 128

/-- The value that a read of a line's bytes gives: zero where the line is uncorrectable (R88, R89). -/
def State.peek (s : State) (pa n : Nat) : Nat :=
  match tierOf pa with
  | some 0 =>
    let line := pa / 64
    let fl := s.lineFlips line
    if fl.all (· = 0) && (s.erasedBanks line).length ≤ 1 then s.rawRead pa n
    else match readOutcome fl (s.erasedBanks line) with
      | none => 0
      | some (fl', _) => ((s.clearFlips line).foldFlips line fl').rawRead pa n
  | some _ => if s.fitted pa && (s.lineFlips (pa / 64)).all (· = 0) then s.rawRead pa n else 0
  | none => 0

/-- Entries of a table at a level, and the bytes that one covers (R329). -/
def tableEntries (level : Nat) : Nat :=
  match level with
  | 0 => 4096
  | 1 => 2048
  | 2 => 256
  | _ => 128
def entrySpan (level : Nat) : Nat :=
  match level with
  | 0 => 2 ^ 40
  | 1 => 2 ^ 29
  | 2 => 2 ^ 21
  | _ => 2 ^ 14

/-- The leaf entries under a table: virtual address, place of the entry, entry. -/
def State.leavesFrom (s : State) : Nat → Nat → Nat → Nat → List (Nat × Nat × Word)
  | 0, _, _, _ => []
  | n + 1, level, table, va =>
    (List.range (tableEntries level)).flatMap (fun i =>
      let e := BitVec.ofNat 64 (s.peek (table + 8 * i) 8)
      let a := va + i * entrySpan level
      if !(e.getLsbD 63) || s.malformedEntry level e then []
      else if e.getLsbD 62 then [(a, table + 8 * i, e)]
      else State.leavesFrom s n (level + 1) (field e 14 40 * 2 ^ 14) a)

/-- The leaf entries of a context. -/
def State.leaves (s : State) (c : Nat) : List (Nat × Nat × Word) := s.leavesFrom 4 0 (s.ctx c).cfg.ptroot 0

/-- The frame of a leaf entry: first byte and length. -/
def frameOf (e : Word) : Nat × Nat := (field e 14 40 * 2 ^ 14, 2 ^ pageBits (field e 57 2))

/-- The context that owns a line (R89): the lowest that maps it, none where no context does (log entry 95). -/
def State.ownerOf (s : State) (line : Nat) : Option Nat :=
  (List.find? (fun (p : Nat × Context) => p.2.st ≠ .free && (s.leaves p.1).any (fun (e : Nat × Nat × Word) =>
    let f := frameOf e.2.2
    f.1 ≤ line * 64 && line * 64 < f.1 + f.2)) s.ctxs).map (·.1)

/-- Walks from a table; `n` levels are left. Answers the page-fault kind or the translation (R331, R348). A pointer at level 3, below which
there is no table, is in none of the malformed cases of R330: it gives kind 2 (DESIGN CHOICE, log entry 133). -/
def State.walkFrom (s : State) (va : Nat) : Nat → Nat → Nat → Except Nat Leaf
  | 0, _, _ => .error 2
  | n + 1, level, table =>
    let epa := table + 8 * levelIndex level va
    let e := BitVec.ofNat 64 (s.peek epa 8)
    if !(e.getLsbD 63) then .error 1
    else if s.malformedEntry level e then .error 2
    else if e.getLsbD 62 then leafOf va epa e
    else State.walkFrom s va n (level + 1) (field e 14 40 * 2 ^ 14)

/-- The walk of a context's page table. -/
def State.walk (s : State) (c va : Nat) : Except Nat Leaf := s.walkFrom va 4 0 (s.ctx c).cfg.ptroot

/-- The leaf entry under which an address lies, whether or not its page can be reached; `n` levels are left. -/
def State.leafEntryFrom (s : State) (va : Nat) : Nat → Nat → Nat → Option Word
  | 0, _, _ => none
  | n + 1, level, table =>
    let e := BitVec.ofNat 64 (s.peek (table + 8 * levelIndex level va) 8)
    if !(e.getLsbD 63) || s.malformedEntry level e then none
    else if e.getLsbD 62 then some e
    else State.leafEntryFrom s va n (level + 1) (field e 14 40 * 2 ^ 14)

/-- The tier of the page that holds an address, compressed and retired pages too. -/
def State.tierAt (s : State) (c va : Nat) : Option Nat :=
  (s.leafEntryFrom va 4 0 (s.ctx c).cfg.ptroot).map (fun e => field e 59 3)

/-- Runs of 64-byte physical lines, first and last, that n bytes from a virtual address translate to, page
by page; a page that does not translate contributes nothing (R238). -/
def State.physRuns (s : State) (c : Nat) : Nat → Nat → Nat → List (Nat × Nat)
  | 0, _, _ => []
  | k + 1, va, n =>
    if n = 0 then []
    else
      let m := min n (16384 - va % 16384)
      let rest := State.physRuns s c k (va + m) (n - m)
      match s.walk c va with
      | .ok l => (l.pa / 64, (l.pa + m - 1) / 64) :: rest
      | .error _ => rest

/-- The runs of a virtual span. -/
def State.spanRuns (s : State) (c va n : Nat) : List (Nat × Nat) := s.physRuns c (n / 16384 + 2) va n

/-! ## The remote-read cache (R82, R83) -/

/-- Discards the cached lines that a test picks. -/
def State.discard (s : State) (t : Nat) (p : Nat → Bool) : State :=
  s.setTile t { s.tile t with cache := (s.tile t).cache.filter (fun l => !p l.line) }

def State.discardAll (s : State) (t : Nat) : State := s.setTile t { s.tile t with cache := [] }

/-- Places an item first in a set-associative cache, most recently used first: where its set holds as many others as there are ways,
the least recently used of them leaves. A cache that holds fewer items than a set has ways has room in every set. -/
def placeFirst {α : Type} (ways : Nat) (set key : α → Nat) (cache : List α) (x : α) : List α :=
  let old := cache.filter (fun y => key y ≠ key x)
  x :: (if old.length < ways then old
        else
          let same := old.filter (fun y => set y = set x)
          if same.length < ways then old
          else match same.getLast? with
            | some v => old.filter (fun y => key y ≠ key v)
            | none => old)

/-- Places a line in the remote-read cache: 16 ways, the least recently used line of its set replaced (R82). -/
def cacheInsert (cache : List CacheLine) (l : CacheLine) : List CacheLine :=
  placeFirst Config.cacheWays (fun x => Config.cacheSet x.line % Config.cacheSets) (·.line) cache l

/-- An acquire of a latch discards the lines of every region bound to it (R83, R107). -/
def State.acquireLatch (s : State) (t : Nat) (va : Word) : State :=
  let c := s.ctxOf t
  let runs := (s.ctx c).binds.flatMap (fun p =>
    if p.2.getLsbD 63 && field p.2 128 52 = va.toNat then
      s.spanRuns c (field p.2 0 52) (field p.2 64 52 - field p.2 0 52) else [])
  s.discard t (fun l => runs.any (fun r => decide (r.1 ≤ l ∧ l ≤ r.2)))

/-! ## Held tagged requests (R218) -/

/-- Whether the condition of a held request holds. -/
def State.heldReady (s : State) (r : Held) : Bool :=
  match r.kind with
  | .ldf | .ldt => s.isFull r.pa
  | .stf => true
  | .ste => !s.isFull r.pa

/-- Contexts whose install mailbox is the word at a physical address, resident in tier S (R343). -/
def State.mailboxOwners (s : State) (pa : Nat) : List Nat :=
  (s.ctxs.filter (fun p => p.2.cfg.wfmbox ≠ 0 &&
    (match s.walk p.1 p.2.cfg.wfmbox with
     | .ok l => l.tier = 0 && l.pa / 8 = pa / 8
     | .error _ => false))).map (·.1)

/-- A write to a full mailbox counts one lost install request in the context's log and the device, and is logged (R343,
R388, R390). -/
def State.countLostInstall (s : State) (pa : Nat) : State :=
  if s.isFull pa then
    (s.mailboxOwners pa).foldl (fun (s : State) c =>
      ((s.modCtx c (fun x => { x with lostInstalls := satAdd 64 x.lostInstalls 1 })).modDev
        (fun d => { d with lostInstalls := satAdd 64 d.lostInstalls 1 })).logEvent .installLost (some c) pa) s
  else s

/-- Removes a request that has been served or withdrawn. -/
def State.unhold (s : State) (t : Nat) (mv : Bool) : State :=
  { s with held := s.held.filter (fun r => !(r.tile = t && r.move = mv)) }

/-- Serves a held request: its action at the home (R217), then its instruction retires; a load form writes xd and
acquires the word, a store form discards the tile's cached line (R83). Emptying a word fires no watch: it writes the word's
full/empty bit and not its value (DESIGN CHOICE, log entry 96). -/
def State.serve (s : State) (r : Held) : State :=
  let h : HartId := ⟨r.tile, r.move⟩
  let s := (s.unhold r.tile r.move).ungate r.tile
  match r.kind with
  | .ldf =>
    let v := BitVec.ofNat 64 (s.rawRead r.pa 8)
    ((s.writeX h r.rd v).retire h ((s.hart h).pc + 4)).acquireLatch r.tile r.va
  | .ldt =>
    let v := BitVec.ofNat 64 (s.rawRead r.pa 8)
    (((s.setFull r.pa false).writeX h r.rd v).retire h ((s.hart h).pc + 4)).acquireLatch r.tile r.va
  | .stf | .ste =>
    (((((s.countLostInstall r.pa).rawWrite r.pa 8 r.value.toNat).setFull r.pa true).fireWatches r.pa).discard r.tile
      (fun x => x = r.pa / 64)).retire h ((s.hart h).pc + 4)

/-- Serves the oldest held request of a word whose condition holds, until none holds (R218); at most `n`. -/
def State.scan (s : State) (pa : Nat) : Nat → State
  | 0 => s
  | n + 1 =>
    match s.held.find? (fun r => r.pa / 8 = pa / 8 && s.heldReady r) with
    | some r => State.scan (s.serve r) pa n
    | none => s

/-- After an arrival or a write the home of a word serves what it can. -/
def State.homeScan (s : State) (pa : Nat) : State := s.scan pa s.held.length

/-! ## Lines as they are read and written -/

/-- An uncorrectable line: zero in all bytes, all full/empty bits full, counted for the context and the bank,
logged; the write-back wakes what watches or waits (R89). An access by no context counts for the context that owns the
line. -/
def State.loseLine (s : State) (who : Option Nat) (line b : Nat) : State :=
  let c := who.orElse (fun _ => s.ownerOf line)
  let s := (List.range 8).foldl (fun (s : State) i =>
    (s.rawWrite (line * 64 + 8 * i) 8 0).setFull (line * 64 + 8 * i) true) (s.clearFlips line)
  let s := match c with
    | some c => s.modCtx c (fun x => { x with ecc := satAdd 64 x.ecc 1 })
    | none => s
  let s := s.setBank b { s.bank b with uncorrectable := satAdd 32 (s.bank b).uncorrectable 1 }
  let s := s.logEvent .uncorrectable c (line * 64)
  (List.range 8).foldl (fun (s : State) i =>
    (s.fireWatches (line * 64 + 8 * i)).homeScan (line * 64 + 8 * i)) s

/-- An uncorrectable line outside tier S (R331, R337, R345): zero in all bytes, counted for the context and logged.
The manual gives these tiers no symbol code: any flip there is uncorrectable. -/
def State.loseFarLine (s : State) (who : Option Nat) (line : Nat) : State :=
  let c := who.orElse (fun _ => s.ownerOf line)
  let s := (List.range 8).foldl (fun (s : State) i => s.rawWrite (line * 64 + 8 * i) 8 0) (s.clearFlips line)
  let s := match c with
    | some c => s.modCtx c (fun x => { x with ecc := satAdd 64 x.ecc 1 })
    | none => s
  s.logEvent .uncorrectable c (line * 64)

/-- What the symbol code does at a read of a line, or before a write merges into it (R87 to R89). -/
def State.touch (s : State) (c : Option Nat) (line : Nat) : State :=
  let fl := s.lineFlips line
  let er := s.erasedBanks line
  if tierOf (line * 64) ≠ some 0 then (if fl.all (· = 0) then s else s.loseFarLine c line)
  else if fl.all (· = 0) && er.length ≤ 1 then s
  else match readOutcome fl er with
    | none =>
      let j := ((List.range 18).find? (fun j => nth 0 fl j ≠ 0 || er.contains j)).getD 0
      s.loseLine c line (bankNumber line j)
    | some (fl', named) =>
      let s := (s.clearFlips line).foldFlips line fl'
      match named with
      | some j => s.countCorrected (bankNumber line j)
      | none => s

/-- A write of n bytes (within one 64-bit word) at its home. `mark` is what the write does to the word's
full/empty bit: nothing, full or empty (R85). An unfitted or tier F address drops it and counts (R79,
R376). -/
def State.homeWrite (s : State) (c : Option Nat) (pa n v : Nat) (mark : Option Bool) : State :=
  match tierOf pa with
  | some 0 =>
    let s := (s.touch c (pa / 64)).countLostInstall pa
    let s := s.rawWrite pa n v
    let s := match mark with
      | some b => s.setFull pa b
      | none => s
    (s.fireWatches pa).homeScan pa
  | some 2 => s.countUnmapped c pa
  | _ => if s.fitted pa then (s.touch c (pa / 64)).rawWrite pa n v else s.countUnmapped c pa

/-- Ways of a set of the staging cache (R342). -/
def stageWays : Nat := 16

/-- A read of tier F brings its 16 KiB granule into its set of the staging cache, in place of the least recently used one
of a full set (R342). -/
def State.stage (s : State) (pa : Nat) : State :=
  let sets := s.stagingSize / (16384 * stageWays)
  if sets = 0 then s
  else s.modDev (fun d =>
    let g := pa / 16384; let k := Config.stageSet g % sets
    { d with staged := SMap.put d.staged k ((g :: (SMap.get [] d.staged k).filter (· ≠ g)).take stageWays) })

/-- A read of n bytes at its home (R79, R89, R342). -/
def State.homeRead (s : State) (c : Option Nat) (pa n : Nat) : State × Nat :=
  match tierOf pa with
  | some 0 => let s := s.touch c (pa / 64); (s, s.rawRead pa n)
  | some 2 =>
    if s.fitted pa && s.dev.fittedD ≠ 0 then (s.stage pa, s.rawRead pa n) else (s.countUnmapped c pa, 0)
  | _ => if s.fitted pa then (let s := s.touch c (pa / 64); (s, s.rawRead pa n)) else (s.countUnmapped c pa, 0)

/-- Counts an access for the barrow (R340): by page frame. -/
def State.countAccess (s : State) (c : Nat) (l : Leaf) : State :=
  s.modCtx c (fun x => { x with hot := SMap.set 0 x.hot (l.base / 16384) (SMap.get 0 x.hot (l.base / 16384) + 1) })

/-- Whether an access by a tile leaves the tile: it travels as packets unless its home is the tile's own slice (R80, R355). -/
def leavesTile (t : Nat) (l : Leaf) : Bool := !(l.tier = 0 && homeTile l.pa = t)

/-- An unprotected access by a tile whose packet the fabric drops (R355): what is left once the drop notice has reached the
tile, counted in `ctxlost`; none where no packet of the tile's is to be lost, nor in class 0, where every packet is protected. -/
def State.takeLoss (s : State) (t c : Nat) (write : Bool) (l : Leaf) : Option State :=
  let x := s.tile t
  if leavesTile t l && (s.ctx c).cfg.cls ≠ 0 && (if write then x.lostWrites else x.lostReads) ≠ 0 then
    some ((s.setTile t (if write then { x with lostWrites := x.lostWrites - 1 } else { x with lostReads := x.lostReads - 1 })).modCtx c
      (fun k => { k with lost := satAdd 64 k.lost 1 }))
  else none

/-- A read by tile t through the remote-read cache (R82): lines of other slices and of tiers D, P and H. A read whose packet is
dropped gives zeros (R355). The tile discards no line on its own, as R83 allows at any time (DESIGN CHOICE, log entry 97). -/
def State.cachedRead (s : State) (t c : Nat) (l : Leaf) (n : Nat) : State × Nat :=
  let count (s : State) : State := s.countAccess c l
  if !leavesTile t l then (count s).homeRead (some c) l.pa n
  else if l.tier = 2 then
    match s.takeLoss t c false l with
    | some s => (s, 0)
    | none => s.homeRead (some c) l.pa n
  else
    let line := l.pa / 64; let off := l.pa % 64
    match (s.tile t).cache.find? (fun x => x.line = line) with
    | some x =>
      (s.setTile t { s.tile t with cache := cacheInsert (s.tile t).cache x }, x.data.toNat / 2 ^ (8 * off) % 2 ^ (8 * n))
    | none =>
      match s.takeLoss t c false l with
      | some s => (s, 0)
      | none =>
        let (s, v) := (count s).homeRead (some c) (line * 64) 64
        (s.setTile t { s.tile t with cache := cacheInsert (s.tile t).cache ⟨line, BitVec.ofNat 512 v⟩ },
          v / 2 ^ (8 * off) % 2 ^ (8 * n))

/-- A read at the home that bypasses the cache. The barrow counts it where the page is in tier S (R340). -/
def State.directRead (s : State) (c : Nat) (l : Leaf) (n : Nat) : State × Nat :=
  (if l.tier = 0 then s.countAccess c l else s).homeRead (some c) l.pa n

/-- An unprotected access for a context by the receive engine or an install whose packet the fabric drops (R355; log entry 91): what is
left, counted in `ctxlost`; none where no packet is to be lost, nor in class 0. -/
def State.engineLoss (s : State) (c : Nat) (write : Bool) : Option State :=
  let x := s.ctx c
  if x.cfg.cls = 0 || (if write then x.lostWrites else x.lostReads) = 0 then none
  else
    some (s.modCtx c (fun k =>
      let k := if write then { k with lostWrites := k.lostWrites - 1 } else { k with lostReads := k.lostReads - 1 }
      { k with lost := satAdd 64 k.lost 1 }))

/-- A plain write for a context by the receive engine, lost where its packet is dropped. -/
def State.engineWrite (s : State) (c pa n v : Nat) : State :=
  match s.engineLoss c true with
  | some s => s
  | none => s.homeWrite (some c) pa n v none

/-- A read by tile t that bypasses the cache, by `ld.u` or by an engine; it gives zeros where its packet is dropped (R355). The
barrow counts those of the copy engine in tier D too (R340). -/
def State.bypassRead (s : State) (t c : Nat) (l : Leaf) (n : Nat) (copy : Bool) : State × Nat :=
  match s.takeLoss t c false l with
  | some s => (s, 0)
  | none => (if copy && l.tier = 1 then s.countAccess c l else s).directRead c l n

/-- A write by a hart or engine of tile t: performed at the home, the tile's own cached line discarded (R83). -/
def State.tileWrite (s : State) (t c : Nat) (l : Leaf) (n v : Nat) (mark : Option Bool) : State :=
  (s.homeWrite (some c) l.pa n v mark).discard t (fun x => x = l.pa / 64)

/-- A plain write by tile t: as any write of the tile, and lost where its packet is dropped (R355). -/
def State.plainWrite (s : State) (t c : Nat) (l : Leaf) (n v : Nat) : State :=
  match s.takeLoss t c true l with
  | some s => s.discard t (fun x => x = l.pa / 64)
  | none => s.tileWrite t c l n v none

/-! ## Translation by a tile (R97, R98) -/

/-- The page number under which a translation is cached. -/
def pageOf (va : Nat) : Nat := va / 16384

/-- Who asks a tile for a translation: a hart, or a command of an engine at a chunk. -/
inductive TlbUser
  | hart (move : Bool)
  | engine (q seq chunk : Nat)
deriving DecidableEq, Repr

/-- log2 of the part of a page that one entry translates: each 2 MiB part of a 32 MiB page has its own (R329). -/
def entryBits (size : Nat) : Nat := if size = 25 then 21 else size

/-- Whether a cached translation covers an address. -/
def TlbEntry.covers (e : TlbEntry) (va : Nat) : Bool :=
  e.base ≤ pageOf va && pageOf va < e.base + 2 ^ (entryBits (pageBits (field e.entry 57 2)) - 14)

/-- Places a translation first in a cache of some size. -/
def tlbFront (n : Nat) (l : List TlbEntry) (e : TlbEntry) : List TlbEntry := (e :: l.filter (fun x => x.base ≠ e.base)).take n

/-- A tile caches a translation: in the hart's own cache, and in its set of the shared one (R97). -/
def Tile.keepEntry (x : Tile) (who : TlbUser) (e : TlbEntry) : Tile :=
  let x := { x with tlb := placeFirst Config.tlbWays (fun y => Config.tlbSet y.base % Config.tlbSets) (·.base) x.tlb e }
  match who with
  | .hart false => { x with tlbMain := tlbFront Config.hartTlb x.tlbMain e }
  | .hart true => { x with tlbMove := tlbFront Config.hartTlb x.tlbMove e }
  | .engine _ _ _ => x

/-- The translation of an address that a tile has cached for a hart or an engine. -/
def Tile.cachedEntry (x : Tile) (who : TlbUser) (va : Nat) : Option TlbEntry :=
  let own := match who with
    | .hart false => x.tlbMain
    | .hart true => x.tlbMove
    | .engine _ _ _ => []
  (own ++ x.tlb).find? (fun e => e.covers va)

/-- A tile discards the cached translations that a test picks. -/
def Tile.dropEntries (x : Tile) (p : TlbEntry → Bool) : Tile :=
  { x with tlbMain := x.tlbMain.filter (fun e => !p e), tlbMove := x.tlbMove.filter (fun e => !p e),
           tlb := x.tlb.filter (fun e => !p e) }

/-- Reads the lines of a walk's entries as the walker does, so that an uncorrectable one is counted (R89), and one that is not
fitted too (R79). -/
def State.touchWalk (s : State) (c va : Nat) : Nat → Nat → Nat → State
  | 0, _, _ => s
  | n + 1, level, table =>
    let epa := table + 8 * levelIndex level va
    let s := if s.fitted epa then s.touch (some c) (epa / 64) else s.countUnmapped (some c) epa
    let e := BitVec.ofNat 64 (s.peek epa 8)
    if e.getLsbD 63 && !(e.getLsbD 62) && !(s.malformedEntry level e) then
      State.touchWalk s c va n (level + 1) (field e 14 40 * 2 ^ 14)
    else s

/-- The device's own walk of a context's table reads entries as any walk does (R79, R88, R89, R331). -/
def State.deviceWalk (s : State) (c va : Nat) : State := s.touchWalk c va 4 0 (s.ctx c).cfg.ptroot

/-- The walks that translate n bytes from a virtual address, page by page; `k` bounds their number (R79, R88, R89). -/
def State.walkSpan (s : State) (c : Nat) : Nat → Nat → Nat → State
  | 0, _, _ => s
  | k + 1, va, n =>
    if n = 0 then s
    else
      let size := match s.walk c va with
        | .ok l => 2 ^ l.size
        | .error _ => 16384
      let m := min n (size - va % size)
      State.walkSpan (s.deviceWalk c va) c k (va + m) (n - m)

/-- Reads the lines of a range as the copy of a move does, for its source and, as every write does, for its destination (R87, R337). -/
def State.touchRange (s : State) (c pa n : Nat) : State :=
  if s.flips.isEmpty && s.banks.isEmpty then s
  else (List.range (n / 64)).foldl (fun (s : State) i => s.touch (some c) (pa / 64 + i)) s

/-- Reads a table and those under it as the device does where it needs every leaf: lines are corrected, counted or lost, and a table
that is not fitted is counted (R79, R88, R89). -/
def State.readTablesFrom (c : Nat) : Nat → Nat → Nat → State → State
  | 0, _, _, s => s
  | n + 1, level, table, s =>
    if !s.fitted table then s.countUnmapped (some c) table
    else (List.range (tableEntries level)).foldl (fun (s : State) i =>
      let e := BitVec.ofNat 64 (s.peek (table + 8 * i) 8)
      if !(e.getLsbD 63) || e.getLsbD 62 || s.malformedEntry level e then s
      else State.readTablesFrom c n (level + 1) (field e 14 40 * 2 ^ 14) s) (s.touchRange c table (8 * tableEntries level))

/-- Reads the page table of a context. -/
def State.readTables (s : State) (c : Nat) : State := State.readTablesFrom c 4 0 (s.ctx c).cfg.ptroot s

/-- The walker's translation for a tile, which it caches (R97, R331). -/
def State.walkFor (s : State) (t : Nat) (who : TlbUser) (c va : Nat) : State × Except Nat Leaf :=
  let s := s.deviceWalk c va
  let r := s.walk c va
  match r with
  | .ok l => (s.setTile t ((s.tile t).keepEntry who ⟨pageOf (va / 2 ^ entryBits l.size * 2 ^ entryBits l.size), l.entry⟩), r)
  | .error _ => (s, r)

/-- Whether an access uses the entry that its tile has cached where the table holds another: a free value decides, one for each
access of a hart, one for each chunk of a command (R98, R331). -/
def State.usesOld (s : State) (t : Nat) (who : TlbUser) (va : Nat) : Bool × State :=
  match who with
  | .hart _ => let (w, s) := s.free; (w.getLsbD 0, s)
  | .engine q seq chunk => (Config.chunkChoice t q seq chunk (pageOf va), s)

/-- A translation for tile t. While the tile still caches another entry of the page than the table now holds,
an access uses either (R331). -/
def State.translate (s : State) (t : Nat) (who : TlbUser) (c : Nat) (va : Nat) : State × Except Nat Leaf :=
  match (s.tile t).cachedEntry who va with
  | none => s.walkFor t who c va
  | some e =>
    let now := s.walk c va
    let cached := leafOf va (match now with | .ok l => l.entryPa | .error _ => 0) e.entry
    let same : Bool := match now with | .ok a => decide (a.entry = e.entry) | .error _ => false
    if same then (s.setTile t ((s.tile t).keepEntry who e), now)
    else
      let (old, s) := s.usesOld t who va
      if old then (s, cached) else s.walkFor t who c va

end Sys2Proof.Machine
end

