-- ==== Sys2Proof/Machine/Shapes.lean ====
section
/-! DEFINITION. Shapes and addresses as plain arithmetic: fields of a command word, shape records (R227,
R228), coordinates, and the addresses of dense elements (R229 to R232). -/

namespace Sys2Proof.Machine

/-! ## Fields of a command word -/

/-- A field of OPND, by its place in the command word (bit 64 is the first). -/
def opf (c : Cmd) (lo n : Nat) : Nat := field c.opnd (lo - 64) n

/-- The element format of a command, MOD[3:0]. -/
def cmdFormat (c : Cmd) : Nat := c.fmt.toNat

/-- PATCH as a signed offset. -/
def cmdOffset (c : Cmd) : Int := c.patch.toInt

/-! ## Captured registers and coordinates -/

/-- A captured handle (R145). -/
def Entry.handle (e : Entry) (i : Nat) : Record := SMap.get 0 e.h i

/-- A captured coordinate, signed (R229). -/
def Entry.coord (e : Entry) (i : Nat) : Int := (SMap.get 0 e.c i).toInt

/-- The twelve coordinates of a list of n named registers; the others are 0. -/
def coordsOf (e : Entry) (c : Cmd) (lo n : Nat) : List Int :=
  (List.range 12).map (fun d => if d < n then e.coord (opf c (lo + 4 * d) 4) else 0)

/-- Adds to one coordinate. -/
def addAt (x : List Int) (d : Nat) (k : Int) : List Int := setNth x d (nth 0 x d + k)

/-! ## Shape records (R227) -/

/-- Word k of a record. -/
def recWord (r : Record) (k : Nat) : Nat := field r (64 * k) 64

structure Dim where
  extent : Nat
  circ : Bool
  stride : Int
deriving DecidableEq, Repr

/-- Dimension d of a record. -/
def dimOf (r : Record) (d : Nat) : Dim :=
  { extent := field r (64 * (4 + d)) 28, circ := r.getLsbD (64 * (4 + d) + 28),
    stride := signedVal 35 (field r (64 * (4 + d) + 29) 35) }

/-- A shape record by its fields. -/
structure Shape where
  rank : Nat
  fmt : Nat
  type : Nat
  base : Nat
  lvl : Nat
  perm : Nat
  block : Nat
  scale : Nat
  fill : Nat
  pos : Nat
  crd : Nat
  dims : List Dim
deriving DecidableEq, Repr

/-- The block size of a bsz code (R227). -/
def blockSize (n : Nat) : Nat := if n = 0 then 0 else 16 * 2 ^ n

/-- Reads the fields of a record (R227). -/
def shapeOf (r : Record) : Shape :=
  let rank := field r 60 4
  { rank := rank, fmt := field r 56 4, type := field r 52 4, base := field r 0 52,
    lvl := field r (64 + 58) 4, perm := field r (64 + 55) 3, block := blockSize (field r (64 + 52) 3),
    scale := field r 64 52, fill := recWord r 2, pos := field r 192 52, crd := field r 960 52,
    dims := (List.range rank).map (dimOf r) }

/-- Bytes of an element as a command moves it: a whole 64-bit word for the code formats (R233). -/
def slotElem (fmt : Nat) : Nat := if isCode fmt then 8 else elemSize fmt

/-- Bits of the fill pattern that a format uses (R227). -/
def fillBits (fmt : Nat) : Nat := if isCode fmt then codeBits fmt else 8 * elemSize fmt

/-- Whether word k of a dense or level record fails a check of R228. -/
def badWord (r : Record) (k : Nat) : Bool :=
  let h := shapeOf r
  let level : Bool := h.type = 1 || h.type = 2
  let blocked : Bool := field r (64 + 52) 3 ≠ 0
  let d0 := (dimOf r 0).stride
  if k = 0 then
    h.type > 3 || h.fmt > 10 || h.rank = 0 || h.rank > (if level then 11 else 12) ||
      h.base % (slotElem h.fmt) ≠ 0
  else if k = 1 then
    field r (64 + 62) 2 ≠ 0 || h.perm > 3 || field r (64 + 52) 3 > 5 || (!blocked && h.scale ≠ 0) ||
      (if level then h.rank ≤ h.lvl else h.lvl ≠ 0) || (blocked && h.fmt ≠ 0 && h.fmt ≠ 10)
  else if k = 2 then h.fill / 2 ^ fillBits h.fmt ≠ 0
  else if k = 3 then (if level then field r (192 + 52) 12 ≠ 0 else recWord r 3 ≠ 0)
  else if level && k = 15 then field r (960 + 52) 12 ≠ 0
  else if k - 4 < h.rank then
    (dimOf r (k - 4)).extent = 0 || (k = 4 && (blocked || isCode h.fmt) && d0 ≠ 1)
  else recWord r k ≠ 0

/-- Whether word k of a sorted-code record fails a check of R228 or R242. -/
def badSortedWord (r : Record) (k : Nat) : Bool :=
  let rank := field r 60 4; let fmt := field r 56 4; let kk := field r 64 10; let b := field r (64 + 16) 2
  if k = 0 then (fmt ≠ 9 && fmt ≠ 10) || rank = 0 || rank > 7 || field r 0 52 % 64 ≠ 0
  else if k = 1 then b = 0 || kk = 0 || kk > 512 || field r (64 + 18) 46 ≠ 0 || field r (64 + 10) 6 ≠ 0
  else if k = 2 || k = 3 then recWord r k ≠ 0
  else if k - 4 < rank then (dimOf r (k - 4)).extent = 0
  else recWord r k ≠ 0

/-- The lowest word of a record that fails its checks (R228, R242, R248). -/
def malformedWord (r : Record) : Option Nat :=
  (List.range 16).find? (fun k => if field r 52 4 = 3 then badSortedWord r k else badWord r k)

/-! ## Element addresses (R229 to R232) -/

/-- The coordinates brought inside the extents; none where one clips (R229). -/
def clipCoords : List Dim → List Int → Option (List Nat)
  | [], _ => some []
  | d :: ds, xs =>
    let x := xs.headD 0
    let y : Option Nat := if 0 ≤ x && x < d.extent then some x.toNat
      else if d.circ then some (x % (d.extent : Int)).toNat else none
    match y, clipCoords ds xs.tail with
    | some v, some r => some (v :: r)
    | _, _ => none

/-- The sum of coordinates times strides. -/
def dotStride : List Dim → List Nat → Int
  | d :: ds, x :: xs => (x : Int) * d.stride + dotStride ds xs
  | _, _ => 0

/-- The mixed-radix number of coordinates under their extents (R231, R232). -/
def segmentOf : List Dim → List Nat → Nat
  | d :: ds, x :: xs => x + d.extent * segmentOf ds xs
  | _, _ => 0

/-- The permutation of bits [13:3] of an address (R230). -/
def permBits (mode lo : Nat) : Nat :=
  let a := if mode % 2 = 1 then lo ^^^ (lo / 2 ^ 11 % 8 * 2 ^ 3) else lo
  if mode / 2 % 2 = 1 then a ^^^ (lo / 2 ^ 11 % 4 * 2 ^ 9) else a

/-- Perm (R230). -/
def permAddr (mode : Nat) (a : Int) : Int :=
  let lo := (a % 16384).toNat
  a - lo + permBits mode lo

/-- A place an element was formed at: its address and, for a code, its position in the word. -/
structure Place where
  a : Int
  j : Nat
deriving DecidableEq, Repr

/-- The address of a dense place before the permutation (R229). -/
def densePlace (h : Shape) (off : Int) (x0 : Nat) : Place :=
  if isCode h.fmt then
    let n := codesPerWord h.fmt
    { a := h.base + 8 * ((x0 / n : Nat) + off), j := x0 % n }
  else { a := h.base + ((x0 : Int) * (nth ⟨0, false, 0⟩ h.dims 0).stride + off) * elemSize h.fmt, j := 0 }

/-- The block of the element at a place (R232). -/
def scaleAddr (h : Shape) (xs : List Nat) : Nat :=
  let nb := ((nth ⟨0, false, 0⟩ h.dims 0).extent + h.block - 1) / h.block
  h.scale + nth 0 xs 0 / h.block + nb * segmentOf (h.dims.drop 1) (xs.drop 1)

/-- The place of an element of a dense handle; none where it clips (R229). -/
def denseElem (h : Shape) (x : List Int) : Option Place :=
  (clipCoords h.dims x).map (fun xs =>
    let p := densePlace h (dotStride (h.dims.drop 1) (xs.drop 1)) (nth 0 xs 0)
    { p with a := permAddr h.perm p.a })

/-! ## Boxes (R313) -/

/-- The coordinates of element n of a box walked with dimension 0 fastest. -/
def boxCoords : List Nat → Nat → List Int
  | [], _ => []
  | e :: es, n => ((n % e : Nat) : Int) :: boxCoords es (n / e)

/-- Adds coordinates. -/
def addCoords (x y : List Int) : List Int := (List.range x.length).map (fun d => nth 0 x d + nth 0 y d)

/-- The extents of a handle, and the elements of its box. -/
def Shape.extents (h : Shape) : List Nat := h.dims.map (·.extent)
def Shape.count (h : Shape) : Nat := h.extents.foldl (· * ·) 1

end Sys2Proof.Machine
end

