-- ==== Sys2Proof/Machine/Ops.lean ====
section
/-! DEFINITION. The operations that the meanings share: how a hart instruction or a command is run, traps,
context faults and their return (R128 to R132), the ends of leases, commands and waits, tokens and
timelines, command faults (R155 to R157), the range table (R92, R93), data-queue demands (R148), memory
accesses of harts and engines with their faults, and completions to the host (R377). -/

namespace Sys2Proof.Machine

/-- Why a body stops before its end. -/
inductive Exc
  /-- A precise trap (R130): code, detail and trap value. -/
  | trap (code detail : Nat) (val : Word)
  /-- The hart waits; the instruction executes again later. -/
  | wait (w : Wait)
  /-- A command fault (R156): code, detail and address. -/
  | fault (code detail : Nat) (addr : Nat)
  /-- The command stays at the head of its stream, held for the reason of R152. -/
  | hold (why : Nat)
  /-- The command has started, and the step was to do no more, or has written the one word that it was to write (R100, R226). -/
  | begun
deriving DecidableEq, Repr

/-- A computation over the state that can stop. -/
abbrev M := EStateM Exc State

/-- Applies a change of state. -/
def upd (f : State → State) : M Unit := modify f

/-- Stops unless the condition holds. -/
def need (b : Bool) (e : Exc) : M Unit := if b then pure () else throw e

/-- The illegal-instruction trap of an instruction whose word is fetched at the pc (R54, R130). -/
def State.fetchWord (s : State) (h : HartId) : Word32 :=
  let t := s.tile h.tile
  let i := ((s.hart h).pc.toNat % Config.imemBytes) / 4
  if i < t.textLen / 4 then SMap.get 0 t.imem i else Config.imemFree h.tile i

def illegal (h : HartId) : M Unit := do
  let s ← get
  throw (.trap 2 0 ((s.fetchWord h).setWidth 64))

/-! ## Completions to the host (R377, R378) -/

/-- Writes a byte string at a physical address as an agent outside the tiles: homes merge it word by word. -/
def State.writeBytes (s : State) (c : Option Nat) (pa : Nat) : List Byte → State
  | [] => s
  | b :: r => State.writeBytes (s.homeWrite c pa 1 b.toNat none) c (pa + 1) r

/-- The physical address of a host address (tier H). -/
def hostPa (a : Nat) : Nat := Config.tierHBase + a % (Config.tierHEnd - Config.tierHBase)

/-- Raises an MSI-X vector. -/
def State.raiseMsix (s : State) (v : Nat) : State :=
  s.modDev (fun d => { d with msix := if d.msix.contains v then d.msix else d.msix ++ [v] })

/-- A completion word 0 (R377). -/
def completionWord (op status phase : Nat) (tag : BitVec 32) : Nat :=
  op % 256 + status % 256 * 2 ^ 8 + phase * 2 ^ 16 + tag.toNat * 2 ^ 32

/-- Completes a request of ring n: the 16-byte entry, the phase, the vector; the ring may start its next
request (R377, R378). -/
def State.complete (s : State) (n op : Nat) (tag : BitVec 32) (status : Nat) (result : Word) : State :=
  let r := s.ring n
  let size := max r.rqsize.toNat 1
  let pa := hostPa (r.cqbase.toNat + 16 * (r.cqIndex % size))
  let phase := 1 - r.cqIndex / size % 2
  let s := s.rawWrite pa 8 (completionWord op status phase tag)
  let s := s.rawWrite (pa + 8) 8 result.toNat
  (s.setRing n { r with busy := false, cqIndex := r.cqIndex + 1 }).raiseMsix (r.cqvec.toNat % 64)

/-- Completes each of a list of requests. -/
def State.completeAll (s : State) (op : Nat) (l : List (Nat × BitVec 32)) (status : Nat) : State :=
  l.foldl (fun (s : State) p => s.complete p.1 op p.2 status 0) s

/-! ## Timelines (R113) -/

/-- The engine context of a command word in a queue: 0 tlc, 1 tlf, 2 tlk, 3 tla; none in q2 (R61). -/
def engineOf (w : CmdBits) (q : Nat) : Option Nat :=
  if q = 1 then some 0
  else if q = 2 then none
  else if field w 5 3 = 4 then some 3
  else if w.getLsbD 8 then some 1
  else some 2

/-- A timeline after an entry has left its queue: below the least number still out, or at the target (R113). -/
def TileCtx.refresh (c : TileCtx) (q x : Nat) : TileCtx :=
  let out := (c.queue q).entries.filterMap (fun e => if engineOf e.w q = some x then e.num else none)
  match out with
  | [] => c.setTimeline x (c.target x)
  | n :: r => c.setTimeline x (r.foldl min n - 1)

/-- The range-table entry of a command retires (R92). -/
def TileCtx.dropRange (c : TileCtx) (q seq : Nat) : TileCtx :=
  { c with ranges := c.ranges.filter (fun r => !(r.q = q && r.seq = seq)) }

/-- A command leaves its queue, completed or retired by recovery: it counts in `done`, its range entry
retires, its timeline advances as far as it can, and with an error its timeline's bit is set (R113, R116,
R153, R159). -/
def TileCtx.retireEntry (c : TileCtx) (q : Nat) (e : Entry) (err : Bool) : TileCtx :=
  let qu := c.queue q
  let c := (c.setQueue q { qu with entries := qu.entries.filter (fun x => x.seq ≠ e.seq), done := qu.done + 1 }).dropRange q e.seq
  let c := match e.num with
    | some n => if q = 1 then { c with chunks := SMap.set 0 c.chunks n e.prog.bits } else c
    | none => c
  match engineOf e.w q with
  | none => c
  | some x =>
    let c := c.refresh q x
    if err && e.num.isSome then c.setTlerr x else c

/-- Changes the state of every context tile of a context that is saved in shadow storage or the save area (R136). -/
def State.modSavedAll (s : State) (c : Nat) (f : TileCtx → TileCtx) : State :=
  State.modCtx
    { s with tiles := s.tiles.map (fun p =>
        match p.2.shadow with
        | some sh => if sh.ctx = c then (p.1, { p.2 with shadow := some { sh with saved := f sh.saved } }) else p
        | none => p) }
    c (fun x => { x with saveArea := x.saveArea.map (fun p => (p.1, f p.2)) })

/-- Sets a bit of `tlerr` on every tile of a context, on its tile or saved (R116, R135). -/
def State.setTlerrAll (s : State) (c x : Nat) : State :=
  ((s.tilesOf c).foldl (fun (s : State) t => s.modTc t (fun k => k.setTlerr x)) s).modSavedAll c (fun k => k.setTlerr x)

/-! ## Tokens (R214, R215) -/

/-- Adds units to a counter, clamped at 2^32 − 1 (R215). -/
def TileCtx.give (c : TileCtx) (n k : Nat) (g : Giver) : TileCtx :=
  let t := c.token n
  let added := min k (2 ^ 32 - 1 - t.count)
  let c := c.setToken n { t with count := t.count + added
                                 supply := if added = 0 then t.supply else t.supply ++ [(g, added)] }
  if t.count + k > 2 ^ 32 - 1 then c.setTkov n else c

/-- Drops the k oldest units of a supply record. -/
def dropSupply : List (Giver × Nat) → Nat → List (Giver × Nat)
  | [], _ => []
  | (g, n) :: r, k => if n ≤ k then dropSupply r (k - n) else (g, n - k) :: r

/-- A waiter leaves a counter's order. -/
def TileCtx.leaveToken (c : TileCtx) (n : Nat) (p : TokenWaiter → Bool) : TileCtx :=
  let t := c.token n
  if t.waiters.any p then c.setToken n { t with waiters := t.waiters.filter (fun w => !p w) } else c

/-- Takes k units if the waiter is the oldest and they are present (R215). -/
def TileCtx.take (c : TileCtx) (n k : Nat) (w : TokenWaiter) : Option TileCtx :=
  let t := c.token n
  if t.waiters.head? = some w && k ≤ t.count then
    some (c.setToken n { count := t.count - k, supply := dropSupply t.supply k, waiters := t.waiters.tail })
  else none

/-! ## Anvil leases (R291, R292) -/

/-- The lease of a tile ends (R292). -/
def State.endLease (s : State) (t : Nat) : State :=
  let a := s.anvil (clusterOf t)
  if a.holder = some (positionOf t) then
    s.setAnvil (clusterOf t) { a with holder := none, count := 0, last := positionOf t }
  else s

/-- A tile asks for a lease of n commands; a request that waits already is kept. -/
def State.requestLease (s : State) (t n : Nat) : State :=
  let a := s.anvil (clusterOf t)
  if a.requests.any (fun r => r.1 = positionOf t) then s
  else s.setAnvil (clusterOf t) { a with requests := a.requests ++ [(positionOf t, n)] }

/-- A tile's lease request is dropped. -/
def State.dropLeaseRequest (s : State) (t : Nat) : State :=
  let a := s.anvil (clusterOf t)
  if a.requests.any (fun r => r.1 = positionOf t) then
    s.setAnvil (clusterOf t) { a with requests := a.requests.filter (fun r => r.1 ≠ positionOf t) }
  else s

/-- Whether a command word is one of the leasing commands (R291). -/
def leasing (w : CmdBits) : Bool := 0x81 ≤ field w 0 8 && field w 0 8 ≤ 0x84

/-- Whether a leasing command of a tile has started and not completed. -/
def State.leaseBusy (s : State) (t : Nat) : Bool :=
  (s.queue t 0).entries.any (fun e => leasing e.w && (e.st = .running || e.st = .done))

/-- A leasing command of a tile has ended: the idle time starts, and the lease ends where its count is used up and
no started leasing command is left (R292). -/
def State.leaseUsed (s : State) (t : Nat) : State :=
  let a := s.anvil (clusterOf t)
  if a.holder = some (positionOf t) then
    let s := s.setAnvil (clusterOf t) { a with since := s.clk }
    if a.count = 0 && !s.leaseBusy t then s.endLease t else s
  else s

/-! ## Ends of waits -/

/-- A hart waits. -/
def State.setWait (s : State) (h : HartId) (w : Wait) : State := s.modHart h (fun x => { x with run := .waiting w })

/-- A waiting instruction is abandoned with no effect (R120, R219): its held request is withdrawn, its place in
a counter's or a stage queue's waiting order is given up. -/
def State.abandon (s : State) (h : HartId) : State :=
  let s := s.unhold h.tile h.move
  match (s.hart h).run with
  | .waiting (.tk n _) =>
    s.modTc h.tile (fun c => c.leaveToken n.toNat (fun w => match w with | .hart m _ => m = h.move | .copy => false))
  | .waiting (.stgTake _) =>
    s.modCtx (s.ctxOf h.tile) (fun c => c.modKernel (fun k =>
      { k with queues := k.queues.map (fun q => { q with waiters := q.waiters.filter (· ≠ s.ctileOf h.tile) }) }))
  | _ => s

/-! ## Copies that end early (R317, R318, R325) -/

/-- Records the status of a copy that completed with one (R318), and bit 0 of `tlerr` (R317). -/
def TileCtx.setCopyStatus (c : TileCtx) (e : Entry) (status miss : Nat) : TileCtx :=
  { c with cpstat := BitVec.ofNat 64 (status * 2 ^ 60 + min miss (2 ^ 28 - 1) * 2 ^ 32 + (e.num.getD 0) % 2 ^ 32) }.setTlerr 0

/-- The elements that a copy which ends here has not delivered: those that failed, those out or not written of the chunk it works on,
and those of the chunks it has not worked on (R318). -/
def Entry.undelivered (e : Entry) : Nat :=
  let box := shapeOf (e.handle (if field e.w 0 8 = 0xA6 then field e.w 64 4 else field e.w 160 4))
  let per := 512 / elemSize (field e.w 24 4)
  let p := e.prog
  let under : Bool := p.written || p.cancelled || !p.wait.isEmpty || !p.got.isEmpty
  p.miss + p.wait.length + p.got.length + (box.count - (p.next + (if under then 1 else 0)) * per)

/-- Whether an entry is a copy that has started. -/
def Entry.copying (e : Entry) : Bool := field e.w 5 3 = 5 && e.st = .running

/-- A cancelled copy retires with status 2 and the elements it has not delivered: no completion action beyond the chunks it
completed (R318, R325). One that had started leaves any counter's waiting order; the engine has started one at most. -/
def TileCtx.cancelCopy (c : TileCtx) (e : Entry) : TileCtx :=
  let c := if e.copying then (List.range 16).foldl (fun (c : TileCtx) n => c.leaveToken n (fun w => decide (w = TokenWaiter.copy))) c else c
  (c.retireEntry 1 e true).setCopyStatus e 2 e.undelivered

/-- The index that selects coordinate `idim` of element n of a gather or scatter, as memory holds it. -/
def State.copyIndex (s : State) (t : Nat) (e : Entry) (k : Int) : Int :=
  let hx := shapeOf (e.handle (field e.w 164 4))
  let v := match denseElem hx [k] with
    | none => hx.fill
    | some p => match s.walk (s.ctxOf t) p.a.toNat with
      | .ok l => s.peek l.pa (elemSize hx.fmt)
      | .error _ => 0
  signedVal (8 * elemSize hx.fmt) v

/-- The address of destination element n of a copy, at its chip; none where it clips or does not exist. -/
def State.copyTarget (s : State) (t : Nat) (e : Entry) (n : Nat) : Option Nat :=
  let c := cmdOfBits e.w
  let op := field e.w 0 8
  let h := shapeOf (e.handle (opf c 160 4))
  let j := boxCoords h.extents n
  let z := addCoords (coordsOf e c 132 (opf c 128 3)) j
  let idim := opf c 108 4
  let z := if op = 0xA2 then setNth z idim (s.copyIndex t e (nth 0 j idim)) else z
  if op = 0xA6 then none else (denseElem h z).map (fun p => p.a.toNat)

/-- Whether a copy scatters to another member of its domain (R314). -/
def Entry.remoteScatter (e : Entry) : Bool := field e.w 0 8 = 0xA2 && e.w.getLsbD 16

/-- The address of destination element n of a copy in its own context; none for a remote destination. -/
def State.copyDest (s : State) (t : Nat) (e : Entry) (n : Nat) : Option Nat :=
  if e.remoteScatter then none else s.copyTarget t e n

/-- Whether a scope entry is bound: declared, and for fabric reach its domain registered (R189). -/
def Context.scopeBound (x : Context) (n : Nat) : Bool :=
  let e := SMap.get 0 x.scopes n
  e.getLsbD 63 && (!e.getLsbD 8 || x.domains.any (fun d => d.id = bits e 16 16))

/-- The primary domain of a context: that of its lowest-numbered bound scope entry with fabric reach (R360). -/
def Context.primaryDomain (x : Context) : Option Domain :=
  match (List.range 32).find? (fun n => x.scopeBound n && (SMap.get 0 x.scopes n).getLsbD 8) with
  | none => none
  | some n => x.domains.find? (fun d => d.id = bits (SMap.get 0 x.scopes n) 16 16)

/-- The member at an endpoint of a context's primary domain: its serial and context (R360). -/
def State.memberAt (s : State) (c ep : Nat) : Option (Word × Nat) := (s.ctx c).primaryDomain.bind (fun d => d.members[ep / 512]?)

/-- A member's context, where the member is on this chip. -/
def State.hereOf (s : State) (m : Option (Word × Nat)) : Option Nat := m.bind (fun p => if p.1 = s.dev.serial then some p.2 else none)

/-- The context on this chip in which the destination of a copy lies; none where it is on another chip (R314). -/
def State.copyContext (s : State) (t : Nat) (e : Entry) : Option Nat :=
  if e.remoteScatter then s.hereOf (s.memberAt (s.ctxOf t) (field e.w 112 16)) else some (s.ctxOf t)

/-- Makes the destination of a copy from element `lo` on unpredictable, where it is on this chip and can be written: free values (R319,
R325). -/
def State.scrambleCopy (s : State) (t : Nat) (e : Entry) (lo : Nat) : State :=
  let h := shapeOf (e.handle (field e.w 160 4))
  match s.copyContext t e with
  | none => s
  | some c =>
    (List.range (h.count - lo)).foldl (fun (s : State) i =>
      match s.copyTarget t e (lo + i) with
      | none => s
      | some a =>
        match s.walk c a with
        | .error _ => s
        | .ok l =>
          if !l.writable || l.tier = 2 then s
          else
            let (w, s) := s.free
            s.tileWrite t c l (elemSize h.fmt) w.toNat none) s

/-- The first element whose chunk has no bit set: a copy that ends early leaves it and all after it unpredictable. -/
def Entry.firstOpen (e : Entry) : Nat :=
  if field e.w 192 52 = 0 || field e.w 0 8 = 0xA5 then 0
  else e.prog.next * (512 / elemSize (field e.w 24 4))

/-! ## Faults of a context (R132, R138) -/

/-- Whether a cancel of a copy waits for writes it has issued: elements of a remote scatter are out (R325). -/
def Entry.writesOut (e : Entry) : Bool := field e.w 0 8 = 0xA2 && !e.prog.wait.isEmpty

/-- Stops a queue (R138): commands that have started stay and run to completion, copies that have not made their whole effect are
cancelled, once the writes they have issued have ended, commands not started are discarded; a faulted command stays for
inspection. -/
def TileCtx.stopQueue (c : TileCtx) (q : Nat) : TileCtx :=
  (c.queue q).entries.foldl (fun (c : TileCtx) e =>
    match e.st with
    | .faulted | .done => c
    | .running =>
      if !e.copying then c
      else if e.writesOut then
        c.modQueue q (fun x => x.mod e.seq (fun y => { y with prog := { y.prog with cancelled := true } }))
      else c.cancelCopy e
    | _ => (c.modQueue q (fun x => { x with entries := x.entries.filter (fun y => y.seq ≠ e.seq) })).dropRange q e.seq) c

/-- Whether a stall is of an instruction that has begun and is no waiting instruction: it goes on to its end while its context
stops (R120, R135, R158). -/
def Wait.begun (w : Wait) : Bool :=
  match w with
  | .qrec _ _ | .moving | .fence | .cancel => true
  | _ => false

/-- Stops a hart: at once, but where its instruction has begun; a template read in part is forgotten (R135, R138). -/
def Hart.stop (x : Hart) : Hart :=
  match x.run with
  | .waiting w => if w.begun then x else { x with run := .stopped, tmpl := [] }
  | _ => { x with run := .stopped, tmpl := [] }

/-- The lease of a tile ends once its started leasing commands have completed (R292). -/
def State.stopLease (s : State) (t : Nat) : State :=
  let a := s.anvil (clusterOf t)
  if s.leaseBusy t && a.holder = some (positionOf t) then s.setAnvil (clusterOf t) { a with count := 0 } else s.endLease t

/-- Stops the work of one tile (R138). -/
def State.stopTile (s : State) (t : Nat) : State :=
  let s := (s.abandon ⟨t, false⟩).abandon ⟨t, true⟩
  let s := ((s.queue t 1).entries.filter (fun e => e.copying && !e.writesOut)).foldl
    (fun (s : State) e => s.scrambleCopy t e e.firstOpen) s
  let s := s.modTc t (fun c =>
    let c := ((c.stopQueue 0).stopQueue 1).stopQueue 2
    { c with main := c.main.stop, move := c.move.stop })
  (s.stopLease t).dropLeaseRequest t

/-- Stops the work of a context: a kernel that runs or drains becomes faulted, one that is only loaded stays so (R138, R167). -/
def State.stopWork (s : State) (c : Nat) : State :=
  let s := (s.tilesOf c).foldl (fun (s : State) t => s.stopTile t) s
  s.modCtx c (fun x => x.modKernel (fun k => if k.st = .running || k.st = .draining then { k with st := .faulted } else k))

/-- The context's fault record (R132). -/
def faultRecordOf (val cause : Word) (pc : Word) (reason : Nat) (move : Bool) (ctile : Nat) : BitVec 256 :=
  val ++ cause ++ BitVec.ofNat 64 (pc.toNat % 2 ^ 18) ++
    BitVec.ofNat 64 (reason * 2 ^ 16 + (if move then 512 else 0) + ctile % 512)

/-- A context fault (R132): the first stops a running or pre-empting context and is recorded, a later one is
counted and logged (R388). Pre-emption requests in progress end with status 2 (log entry 17). -/
def State.contextFault (s : State) (c : Nat) (record : BitVec 256) : State :=
  let x := s.ctx c
  if (x.st = .running || x.st = .preempting) && !x.hasFault then
    let s := s.stopWork c
    let s := s.modCtx c (fun x => { x with st := .faulted, hasFault := true, faultRecord := record,
                                           yieldRequests := [], graceFrom := none })
    s.completeAll 0x05 x.yieldRequests 2
  else (s.modDev (fun d => { d with faultsDropped := satAdd 64 d.faultsDropped 1 })).logEvent .faultDropped (some c) 0

/-! ## Taking a trap and returning from it (R129, R131) -/

/-- ctxcause (R141). -/
def causeWord (async : Bool) (code detail ctile : Nat) : Word :=
  BitVec.ofNat 64 ((if async then 2 ^ 63 else 0) + detail % 256 * 2 ^ 48 + ctile % 512 * 2 ^ 32 + code)

/-- The bits of a pc that the trap CSRs hold. -/
def pcMask : Word := 0x3FFFC

/-- The machine-mode CSRs that do not start at zero: mstatus has FS dirty, and mcounteren shows user mode the three counters (log entry 93). -/
def machineInitial (csr : Nat) : Word := if csr = 0x300 then 0x6000 else if csr = 0x306 then 7 else 0

/-- A machine-mode CSR of a hart, and a hart with one changed. -/
def Hart.mreg (x : Hart) (csr : Nat) : Word := SMap.get (machineInitial csr) x.mcsr csr
def Hart.setMreg (x : Hart) (csr : Nat) (v : Word) : Hart := { x with mcsr := SMap.set (machineInitial csr) x.mcsr csr v }

/-- A trap that a hart takes in machine mode, by the privileged specification that R50 names (PRESUMED, log entry 93): mepc,
mcause and mtval are written, MIE moves to MPIE, MPP says machine mode, and the pc is that of mtvec, four bytes on for each cause where
mtvec is vectored and the trap asynchronous. -/
def Hart.machineTrap (x : Hart) (async : Bool) (code : Nat) (val : Word) : Hart :=
  let st := x.mreg 0x300
  let st := putBit (putBit (putBit (putBit st 7 (st.getLsbD 3)) 3 false) 11 true) 12 true
  let cause := BitVec.ofNat 64 ((if async then 2 ^ 63 else 0) + code)
  let base := x.mreg 0x305 &&& ~~~3
  { (((x.setMreg 0x341 x.pc).setMreg 0x342 cause).setMreg 0x343 val).setMreg 0x300 st with
    pc := if async && (x.mreg 0x305).getLsbD 0 then base + BitVec.ofNat 64 (4 * code) else base, run := .running, tmpl := [] }

/-- A hart takes a trap (R129): while its handler cannot run it, the context faults with reason 2 (H = 1) or 1
(E = 0); else the pc, the cause and the value are saved, H is set and the handler starts. In machine mode the trap is taken
there (R50, log entry 93). -/
def State.takeTrap (s : State) (h : HartId) (async : Bool) (code detail : Nat) (val : Word) : State :=
  let x := s.hart h
  let cause := causeWord async code detail (s.ctileOf h.tile)
  if x.machine then s.setHart h (x.machineTrap async code val)
  else if x.inHandler || !x.trapsEnabled then
    s.contextFault (s.ctxOf h.tile)
      (faultRecordOf val cause x.pc (if x.inHandler then 2 else 1) h.move (s.ctileOf h.tile))
  else
    s.setHart h ({ x with ctxepc := x.pc &&& pcMask, ctxcause := cause, ctxval := val,
                          pc := x.ctxvec &&& pcMask, run := .running, tmpl := [] }.setH true)

/-- A hart returns from its handler (R131): the pc it saved, H cleared. -/
def State.returnFromTrap (s : State) (h : HartId) : State :=
  s.modHart h (fun x => { x with pc := x.ctxepc &&& pcMask, instret := x.instret + 1, run := .running }.setH false)

/-! ## Running a hart instruction -/

/-- What the error log has gained between two states (R390). -/
def State.newEvents (s s' : State) : List LogEntry :=
  let n := (s'.dev.log.length + s'.dev.logOverflows) - (s.dev.log.length + s.dev.logOverflows)
  s'.dev.log.drop (s'.dev.log.length - n)

/-- The lines that have been lost between two states (R89). -/
def State.lostLines (s s' : State) : List Nat :=
  ((s.newEvents s').filter (fun e => e.code = .uncorrectable)).map (fun e => e.place / 64)

/-- Keeps a state but for the free values drawn since, the reads that found nothing fitted, and the lines that the symbol code corrected
or lost at reads (R79, R87 to R89): a line that a held operation read is repaired all the same. -/
def State.keepFresh (s s' : State) (c : Option Nat) : State :=
  let flipped := (s.flips.map (fun p => p.1 / 18)).filter (fun l => s.lineFlips l ≠ s'.lineFlips l)
  let s0 : State := { s with fresh := s'.fresh, dev := { s.dev with unmapped := s'.dev.unmapped } }
  let s1 := ((s.newEvents s').filter (fun e => e.code = .unmapped)).foldl (fun (u : State) e => u.logEvent e.code e.ctx e.place) s0
  (flipped ++ s.lostLines s').eraseDups.foldl (fun s l => s.touch c l) s1

/-- Runs the body of an instruction that leaves the hart as it is to stand: it has its effect, or traps or waits with no effect but
what its reads did to lines, counters and caches (R79, R87 to R89, R93, R128, R129). No body changes anything else before it
traps or waits. -/
def hartEnd (h : HartId) (body : M Unit) (s : State) : Host.Outcome State Fault Refusal :=
  match body s with
  | .ok _ s' => .next s'
  | .error (.trap code detail val) s' => .next (s'.takeTrap h false code detail val)
  | .error (.wait w) s' => .next (s'.setWait h w)
  | .error (.fault _ _ _) _ => .next s
  | .error (.hold _) _ => .next s
  | .error .begun _ => .next s

/-- Runs the body of an instruction that retires at the pc it answers. -/
def hartJump (h : HartId) (body : M Word) (s : State) : Host.Outcome State Fault Refusal :=
  hartEnd h (do let pc ← body; upd (fun s' => s'.retire h pc)) s

/-- Runs the body of an instruction that goes on at pc + 4. -/
def hartStep (h : HartId) (body : M Unit) (s : State) : Host.Outcome State Fault Refusal :=
  hartEnd h (do body; upd (fun s' => s'.retire h ((s.hart h).pc + 4))) s

/-! ## The range table (R92, R93) -/

/-- Whether two lists of line runs share a line. -/
def runsMeet (a b : List (Nat × Nat)) : Bool := a.any (fun x => b.any (fun y => x.1 ≤ y.2 && y.1 ≤ x.2))

/-- Whether two entries conflict (R93). -/
def RangeEntry.conflicts (a b : RangeEntry) : Bool :=
  runsMeet a.wr b.wr || runsMeet a.wr b.rd || runsMeet a.rd b.wr

/-- The entries that conflict with a hart access to a physical line, by queue and number (R93). -/
def TileCtx.lineHolders (c : TileCtx) (line : Nat) (write : Bool) : List (Nat × Nat) :=
  (c.ranges.filter (fun r => runsMeet r.wr [(line, line)] || (write && runsMeet r.rd [(line, line)]))).map (fun r => (r.q, r.seq))

/-- Whether a hart access to a physical line conflicts with an entry (R93). -/
def TileCtx.lineHeld (c : TileCtx) (line : Nat) (write : Bool) : Bool := !(c.lineHolders line write).isEmpty

/-- Whether a command's entry waits for an entry allocated before it (R93). -/
def TileCtx.rangeHeld (c : TileCtx) (q seq : Nat) : Bool :=
  match c.ranges.find? (fun r => r.q = q && r.seq = seq) with
  | none => false
  | some r => (c.ranges.takeWhile (fun x => !(x.q = q && x.seq = seq))).any (fun x => x.conflicts r)

/-- The entries that an access of a hart waits on, of those that conflict: all where it is issued now; where the
instruction waits already, those present at the issue of the access that waits, and none for the accesses before it, nor for one
that has passed the table and waits for something else (R93). -/
def Hart.heldBy (x : Hart) (va : Word) (l : List (Nat × Nat)) : List (Nat × Nat) :=
  match x.run with
  | .waiting (.range a on) => if va = a then l.filter on.contains else if va < a then [] else l
  | .waiting .moving | .waiting (.barr _ _ _ _) => []
  | _ => l

/-- A hart access of tier S waits for the conflicting entries that were present at its issue (R93). -/
def rangeWait (h : HartId) (va : Word) (l : Leaf) (write : Bool) : M Unit := do
  let s ← get
  let on := if l.tier = 0 then (s.hart h).heldBy va ((s.tc h.tile).lineHolders (l.pa / 64) write) else []
  need on.isEmpty (.wait (.range va on))

/-! ## Addresses of harts (R77, R130, R348) -/

/-- Whether a page of the context that holds an address has passed its pin wait and is moving (R338). -/
def Context.moving (x : Context) (va : Nat) : Bool :=
  x.moves.any (fun m => m.started && m.pages.any (fun p => p.1 ≤ va && va < p.1 + 2 ^ pageBits p.2.1))

/-- Translates an address of a hart: alignment, high bits, the walk, and a compressed page, in that order (R77,
R130, R341, R348). -/
def hartLeaf (h : HartId) (store : Bool) (size : Nat) (va : Word) : M Leaf := do
  let d := if store then 2 else 0
  need (va.toNat % size = 0) (.trap (4 + d) 0 va)
  need (va.toNat < 2 ^ 52) (.trap (5 + d) 0 va)
  let s ← get
  let (s', r) := s.translate h.tile (.hart h.move) (s.ctxOf h.tile) va.toNat
  set s'
  match r with
  | .error k => throw (.trap (13 + d) k va)
  | .ok l =>
    need (!l.compressed) (.trap (13 + d) 4 va)
    pure l

/-- A write by a hart waits while its page is moving (R338). -/
def movingWait (h : HartId) (va : Word) : M Unit := do
  let s ← get
  need (!(s.ctx (s.ctxOf h.tile)).moving va.toNat) (.wait .moving)

/-- An access that the range table orders waits for it first; a write then waits while its page is moving (R93, R338). -/
def accessWait (h : HartId) (va : Word) (l : Leaf) (write : Bool) : M Unit := do
  rangeWait h va l write
  if write then movingWait h va

/-- The address of a plain load or `ld.u`. -/
def loadLeaf (h : HartId) (size : Nat) (va : Word) : M Leaf := hartLeaf h false size va

/-- The address of a plain store or `sd.u`: tier F and a page with W = 0 give kind 3 (R348). -/
def storeLeaf (h : HartId) (size : Nat) (va : Word) : M Leaf := do
  let l ← hartLeaf h true size va
  need (l.writable && l.tier ≠ 2) (.trap 15 3 va)
  pure l

/-- The address of a tagged or barrier operation: tier S alone; a form that writes needs W = 1 and reports by its
load or store codes (R84, R217, R348). A wrong tier is reported before W = 0: the spec orders the two for tier F alone (DESIGN CHOICE, log
entry 20). -/
def taggedLeaf (h : HartId) (store writes : Bool) (va : Word) : M Leaf := do
  let l ← hartLeaf h store 8 va
  need (l.tier = 0) (.trap (if store then 7 else 5) 0 va)
  need (!writes || l.writable) (.trap (if store then 15 else 13) 3 va)
  pure l

/-- The address of a memory-port atomic: tier S or D (R220), a wrong tier reported before W = 0 (DESIGN CHOICE, log entry 20). -/
def atomicLeaf (h : HartId) (size : Nat) (va : Word) : M Leaf := do
  let l ← hartLeaf h true size va
  need (l.tier = 0 || l.tier = 1) (.trap 7 0 va)
  need l.writable (.trap 15 3 va)
  pure l

/-- A plain load of `size` bytes (R82, R93). -/
def plainRead (h : HartId) (size : Nat) (va : Word) : M Nat := do
  let l ← loadLeaf h size va
  rangeWait h va l false
  modifyGet (fun s => let r := s.cachedRead h.tile (s.ctxOf h.tile) l size; (r.2, r.1))

/-- Word i of the record that an instruction reads with plain loads: what the hart has read of it before, else a plain load now, which
the hart keeps until the instruction ends (R68, R213). -/
def recordWord (h : HartId) (va : Word) (i : Nat) : M Nat := do
  let s ← get
  match SMap.find? (s.hart h).tmpl i with
  | some w => pure w.toNat
  | none => do
    let v ← plainRead h 8 (va + BitVec.ofNat 64 (8 * i))
    upd (fun s => s.modHart h (fun x => { x with tmpl := SMap.put x.tmpl i (BitVec.ofNat 64 v) }))
    pure v

/-- The n words of a record, each by a plain load of its own (R68, R213). -/
def plainWords (h : HartId) (va : Word) (n : Nat) : M (List Nat) := (List.range n).mapM (recordWord h va)

/-- Joins 64-bit words, the first lowest. -/
def joinWords : List Nat → Nat
  | [] => 0
  | w :: r => w % 2 ^ 64 + 2 ^ 64 * joinWords r

/-- Notes that a tagged operation, a barrier instruction or a completion that sets a tag has acted on the page of a
leaf, which the barrow then leaves in tier S (R86). -/
def State.markTagged (s : State) (c : Nat) (l : Leaf) : State :=
  s.modCtx c (fun x => { x with tagged := SMap.set false x.tagged (l.base / 16384) true })

/-! ## Atomics at a home (R117) -/

/-- Reads, modifies and writes n bytes at their home as one step; answers the old value. The tile's cached line is
discarded and the full/empty bit is left. -/
def State.atomic (s : State) (t c : Nat) (l : Leaf) (n : Nat) (f : Nat → Nat) : State × Nat :=
  let r := s.directRead c l n
  (r.1.tileWrite t c l n (f r.2) none, r.2)

/-! ## Running a command -/

/-- What a command body works on: the tile, the queue and the entry, whether the command is only to start, and the one word (address / 8)
that it reads or writes, where the step does no more (R100). -/
structure Run where
  t : Nat
  q : Nat
  e : Entry
  only : Bool := false
  word : Option Nat := none
deriving DecidableEq, Repr

/-- The units that execute commands one at a time, four at once for the feeders (R226; log entry 12). -/
inductive ExecUnit
  | control
  | feeder
  | sort
  | bucket
  | vector
  | anvil
  | copy
  | message
deriving DecidableEq, Repr

/-- The unit of a command word (R61). -/
def unitOf (w : CmdBits) : ExecUnit :=
  match field w 5 3 with
  | 0 => .control
  | 1 => .feeder
  | 2 => if field w 0 8 = 0x40 then .sort else .bucket
  | 3 => if w.getLsbD 8 then .feeder else .vector
  | 4 => .anvil
  | 5 => .copy
  | _ => .message

/-- The queue of a command: by its class, and for the control class by the agent that acts (R61, R151). -/
def queueOf (op : Nat) (cur : Agent) : Nat :=
  match op / 32 with
  | 5 => 1
  | 6 => 2
  | 0 => match cur with
    | .copy _ => 1
    | .msg _ => 2
    | _ => 0
  | _ => 0

/-- Whether an entry is in the stream of q0 with an A bit, or in its queue for the others (R19). -/
def inStream (q : Nat) (a : Bool) (e : Entry) : Bool := q ≠ 0 || e.w.getLsbD 8 = a

/-- The entry whose turn it is in a stream: in q0 the first that is taken or in progress, in q1 and q2 the first
that has not faulted, unless it is done and about to complete. A faulted queue starts no further entry
(R155). -/
def CmdQueue.head (x : CmdQueue) (q : Nat) (a : Bool) : Option Entry :=
  let e := if q = 0 then x.entries.find? (fun e => inStream q a e && (e.st = .taken || e.st = .running))
           else x.entries.find? (fun e => e.st ≠ .faulted)
  match e with
  | none => none
  | some e => if e.st = .done || (x.faulted && e.st ≠ .running) then none else some e

/-- The vector registers that the fields of a compute-stream command name (R254, R259, R260, R286, R294). A register field that an
operation leaves zero counts as v0 (log entry 12). -/
def namedV (w : CmdBits) : List Nat :=
  let op := field w 0 8
  let at7 (l : List Nat) : List Nat := l.map (fun i => field w i 7)
  if op = 0x4A then (if w.getLsbD 16 then [] else at7 [128])
  else if op = 0x84 then at7 [168]
  else if op = 0x86 then (if w.getLsbD 16 then [] else at7 [160, 168])
  else if unitOf w ≠ .vector then []
  else if op = 0x6D || op = 0x6F then at7 [108, 128]
  else at7 [104, 112, 120, 128]

/-- Whether the unit of a command is busy with an earlier one, or the command names a vector register that one which has
started names too (R226, R255, R286; log entry 12). -/
def CmdQueue.unitBusy (x : CmdQueue) (e : Entry) : Bool :=
  let u := unitOf e.w
  let before := x.entries.filter (fun y => y.seq ≠ e.seq && (y.st = .done || y.st = .running))
  let n := (before.filter (fun y => unitOf y.w = u)).length
  (if u = .control then false else if u = .feeder then decide (4 ≤ n) else decide (1 ≤ n)) ||
    before.any (fun y => (namedV y.w).any (namedV e.w).contains)

/-- The entry that an engine works on: the head of its stream, or the command it has picked: one that it has started, or,
where the queue has not faulted, the next to start (R19, R20, R155). -/
def CmdQueue.working (x : CmdQueue) (q : Nat) (a : Bool) (pick : Option Pick) : Option Entry :=
  match pick with
  | none => x.head q a
  | some p =>
    if p.only then
      if x.faulted then none
      else if q = 0 then x.entries.find? (fun e => inStream q a e && e.st = .taken)
      else (x.head q a).filter (·.waiting)
    else x.entries.find? (fun e => inStream q a e && e.seq = p.seq && e.st = .running)

/-- The run of a command constructor: the entry that its stream works on, on the tile of the agent that acts, where it holds
that command. -/
def State.runOf (s : State) (op : Nat) (c : Cmd) : Option Run :=
  let t := s.cur.tile
  let q := queueOf op s.cur
  match (s.queue t q).working q c.a s.pick with
  | none => none
  | some e =>
    if e.w = bitsOfCmd (BitVec.ofNat 8 op) c then
      some ⟨t, q, e, (s.pick.map (·.only)).getD false, s.pick.bind (·.word)⟩
    else none

/-- The index of a header's stream bit in the fault record: 1 for the address stream (R157). -/
def addressStream (q : Nat) (w : CmdBits) : Bool := q = 0 && w.getLsbD 8

/-- Slots that a command claimed become empty (R148). -/
def TileCtx.releaseSlots (c : TileCtx) (seq : Nat) : TileCtx :=
  { c with dq := c.dq.map (fun p =>
      (p.1, { p.2 with slots := p.2.slots.filter (fun x => !(x.st = .claimed && x.owner = seq)) })) }

/-- A command ends in a command fault (R155, R157): the first fault of the queue is recorded, the queue is
faulted and CP is set; a later one sets M, and takes the record where it falls in the same clk and its command was pushed
earlier. Its range entry retires, and the slots that it claimed become empty; q0 alone holds any (R148). -/
def TileCtx.recordFault (c : TileCtx) (q : Nat) (e : Entry) (code detail addr clk : Nat) : TileCtx :=
  let c := (c.modQueue q (fun x => x.mod e.seq (fun y => { y with st := .faulted }))).dropRange q e.seq
  let c := if q = 0 then c.releaseSlots e.seq else c
  let x := c.queue q
  let record : FaultRecord :=
    { addr := BitVec.ofNat 64 addr, tlv := e.ret, hdr := bits e.w 0 32, detail := BitVec.ofNat 8 detail,
      code := BitVec.ofNat 8 code, m := x.faulted, s := addressStream q e.w, clk := clk, seq := e.seq }
  if x.faulted then
    c.setQueue q { x with record := if x.record.clk = clk && e.seq < x.record.seq then record else { x.record with m := true } }
  else
    let c := c.setQueue q { x with faulted := true, record := record }
    let mv : Bool := q ≠ 0
    c.setHart mv ((c.hart mv).setCP true)

/-- Whether an engine works on an entry: in a running context; while the context stops, on a command that has started, and on
those of q2 that a `fence.g` which has begun waits for (R135, R138; log entry 98). -/
def State.engineWorks (s : State) (t q : Nat) (e : Entry) : Bool :=
  match (s.ctx (s.ctxOf t)).st with
  | .running => true
  | .preempting => e.st = .running || (q = 2 && (s.hart ⟨t, true⟩).run = .waiting .fence)
  | .faulted | .tornDown => e.st = .running
  | _ => false

/-- Whether an entry is a leasing command that has not started and whose tile holds no lease with a count (R291). -/
def State.lacksLease (s : State) (t : Nat) (e : Entry) : Bool :=
  let a := s.anvil (clusterOf t)
  leasing e.w && e.st ≠ .running && !(a.holder = some (positionOf t) && a.count ≠ 0)

/-- The hold of a command by a write to a page that is moving: its reason reads 0, and its chunk gives up the translations of the pages
that are moving, for the commit waits for those that hold them (R98, R338, R339; log entry 124). -/
def movingHold : Nat := 8

/-- A chunk gives up some of the translations that it holds, by 16 KiB page. -/
def Entry.dropXlat (e : Entry) (p : Nat → Bool) : Entry :=
  { e with prog := { e.prog with xlat := e.prog.xlat.filter (fun x => !p x.1) } }

/-- A command is held for a reason; one that waits for a lease asks for it (R152, R291). -/
def State.holdCommand (s : State) (r : Run) (why : Nat) : State :=
  let s := s.modEntry r.t r.q r.e.seq (fun e =>
    let e := { e with why := BitVec.ofNat 3 why }
    if why = movingHold then e.dropXlat (fun k => (s.ctx (s.ctxOf r.t)).moving (k * 16384)) else e)
  if why = 3 then s.requestLease r.t (max 1 (s.tc r.t).ll) else s

/-- A step that writes one word of a command leaves what it has done where its body says that the word is written, else nothing but
what its reads did to lines (R100). -/
def runWord (body : Run → M Bool) (r : Run) (s : State) : State :=
  match body r s with
  | .error .begun s' => s'
  | .ok _ s' => s.keepFresh s' (some (s.ctxOf r.t))
  | .error _ s' => s.keepFresh s' (some (s.ctxOf r.t))

/-- Runs a command body at the head of its stream: the body answers whether the command has made its whole
effect. A body that is held leaves everything but the reason (and a lease request, R291). -/
def runCommand (op : Nat) (c : Cmd) (body : Run → M Bool) (s : State) : Host.Outcome State Fault Refusal :=
  let r? := s.runOf op c
  let s := { s with pick := none }
  match r? with
  | none => .next s
  | some r =>
    if !s.engineWorks r.t r.q r.e then .next s
    else if r.word.isSome then .next (runWord body r s)
    else if (s.queue r.t r.q).unitBusy r.e then .next (s.holdCommand r (if s.lacksLease r.t r.e then 3 else 4))
    else
      match body r s with
      | .ok fin s' =>
        .next (s'.modEntry r.t r.q r.e.seq (fun e => { e with st := if fin then .done else .running, why := 0 }))
      | .error (.fault code detail addr) s' =>
        let s' := s'.modTc r.t (fun c => c.recordFault r.q r.e code detail addr s'.clk)
        .next (if leasing r.e.w then s'.leaseUsed r.t else s')
      | .error (.hold why) s' =>
        .next ((s.keepFresh s' (some (s.ctxOf r.t))).holdCommand r why)
      | .error .begun s' => .next (s'.modEntry r.t r.q r.e.seq (fun e => { e with st := .running, why := 0 }))
      | .error (.trap _ _ _) _ => .next s
      | .error (.wait _) _ => .next s

/-! ## Data-queue demands (R148) -/

/-- Slots that the next pop would take: the oldest that are not claimed. -/
def DataQueue.next (x : DataQueue) (n : Nat) : List Slot := (x.slots.filter (fun y => y.st ≠ .claimed)).take n

/-- Claims the n oldest slots that are not claimed. -/
def claimSlots (owner : Nat) : List Slot → Nat → List Slot
  | [], _ => []
  | x :: r, 0 => x :: r
  | x :: r, n + 1 =>
    if x.st = .claimed then x :: claimSlots owner r (n + 1)
    else { x with st := .claimed, owner := owner } :: claimSlots owner r n

/-- The checks of a command's demands: demands over 16 slots, or a fill and a pop of one queue, fault with code 0x08 before
anything is reserved. -/
def demandChecks (fill : Option (Nat × Nat)) (pops : List (Nat × Nat)) : M Unit := do
  match fill with
  | some (d, n) =>
    need (n ≤ 16) (.fault 0x08 d 0)
    need (!(pops.any (fun p => p.1 = d && p.2 ≠ 0 && n ≠ 0))) (.fault 0x08 d 0)
  | none => pure ()
  match pops.find? (fun p => p.2 > 16) with
  | some p => throw (.fault 0x08 p.1 0)
  | none => pure ()

/-- A command that passes its demand checks is held by a range conflict and by slots that are not there; then its slots are
reserved and claimed (R93, R148). -/
def takeSlots (r : Run) (fill : Option (Nat × Nat)) (pops : List (Nat × Nat)) : M Unit := do
  let s ← get
  let c := s.tc r.t
  need (!(c.rangeHeld r.q r.e.seq)) (.hold 2)
  match fill with
  | some (d, n) => need (n + (c.dqueue d).slots.length ≤ 16) (.hold 1)
  | none => pure ()
  need (pops.all (fun p =>
    let l := (c.dqueue p.1).next p.2
    l.length = p.2 && l.all (fun x => x.st = .full))) (.hold 1)
  match fill with
  | some (d, n) =>
    upd (fun s => s.modTc r.t (fun c =>
      c.setDq d { c.dqueue d with slots := (c.dqueue d).slots ++ List.replicate n ⟨.reserved, r.e.seq, 0, 0⟩ }))
  | none => pure ()
  pops.forM (fun p => upd (fun s => s.modTc r.t (fun c =>
    c.setDq p.1 { c.dqueue p.1 with slots := claimSlots r.e.seq (c.dqueue p.1).slots p.2 })))

/-- Starts a command, unless it has been started before; a step that only starts it ends here (R93, R148, R226). -/
def begin (r : Run) (fill : Option (Nat × Nat)) (pops : List (Nat × Nat)) : M Unit := do
  if r.e.st = .running then pure ()
  else do
    demandChecks fill pops
    takeSlots r fill pops
    need (!r.only) .begun

/-- The slots that the command has claimed, in ring order. -/
def claimed (r : Run) (d : Nat) : M (List Slot) := do
  let s ← get
  pure (((s.tc r.t).dqueue d).slots.filter (fun x => x.st = .claimed && x.owner = r.e.seq))

/-- Checks of claimed slots, slot by slot: poison (0x0A), then the format where the operation fixes one (0x09)
(R150, R236). Where one slot fails the one check and a later slot the other, the first slot's code is recorded, in an anvil
command (log entry 45) and in `vmov` (DESIGN CHOICE, log entry 143). -/
def checkSlots (d : Nat) (fmt : Option Nat) : List Slot → M Unit
  | [] => pure ()
  | x :: l => do
    need (!x.side.getLsbD 28) (.fault 0x0A d 0)
    need (fmt = none || fmt = some (field x.side 8 4)) (.fault 0x09 d 0)
    checkSlots d fmt l

/-- Writes the first reserved slot of a command in a data queue and makes it full (R148). -/
def fillFirst (owner : Nat) (data : Row) (side : Word) : List Slot → List Slot
  | [] => []
  | x :: r =>
    if x.st = .reserved && x.owner = owner then { x with st := .full, data := data, side := side } :: r
    else x :: fillFirst owner data side r

/-- Fills the next reserved slot of the command (R148, R150). -/
def fillSlot (r : Run) (d : Nat) (data : Row) (side : Word) : M Unit :=
  upd (fun s => s.modTc r.t (fun c =>
    let x := c.dqueue d
    c.setDq d { slots := fillFirst r.e.seq data side x.slots, fills := x.fills + 1 }))

/-- The command's claimed slots become empty (R148). -/
def releaseClaims (r : Run) : M Unit := upd (fun s => s.modTc r.t (fun c => c.releaseSlots r.e.seq))

/-- The side word of a slot (R150). -/
def sideWord (tag : Nat) (clip last : Bool) (len fmt scale : Nat) : Word :=
  BitVec.ofNat 64 (tag % 2 ^ 32 * 2 ^ 32 + (if clip then 2 ^ 27 else 0) + (if last then 2 ^ 26 else 0) +
    len % 1024 * 2 ^ 16 + fmt % 16 * 2 ^ 8 + scale % 256)

/-! ## Memory as engines reach it (R77, R156, R348) -/

/-- Whether the chunks of a command take several steps, so that its entry holds the translations of the chunk that is under way:
copies and `srt.codes` (R98). -/
def Entry.holdsChunk (e : Entry) : Bool := field e.w 5 3 = 5 || field e.w 0 8 = 0x40

/-- The translation of an address for a command: the one that its chunk holds, else one made now, which the chunk then holds where its
accesses take several steps (R98). -/
def engineTranslate (r : Run) (va : Nat) : M (Except Nat Leaf) := do
  let s ← get
  match ((s.queue r.t r.q).find r.e.seq).bind (fun e => SMap.find? e.prog.xlat (pageOf va)) with
  | some e => pure (leafOf va 0 e)
  | none =>
    let (s', res) := s.translate r.t (.engine r.q r.e.seq r.e.prog.next) (s.ctxOf r.t) va
    set s'
    match res with
    | .ok l =>
      if r.e.holdsChunk || r.word.isSome then
        upd (fun s => s.modEntry r.t r.q r.e.seq (fun e => { e with prog := { e.prog with xlat := SMap.put e.prog.xlat (pageOf va) l.entry } }))
      pure (.ok l)
    | .error k => pure (.error k)

/-- Translates an address of a command: 0x05 for high bits, 0x06 with the kind of a page fault, a compressed page
for all but the copy engine, 0x07 for a write to a tier that `tierOk` refuses, then kind 3 (R156, R236, R348; log
entry 20). A write to a page that is moving holds the command (R338). -/
def engineLeafIn (tierOk : Nat → Bool) (r : Run) (write copy : Bool) (va : Nat) : M Leaf := do
  need (va < 2 ^ 52) (.fault 0x05 0 va)
  match ← engineTranslate r va with
  | .error k => throw (.fault 0x06 k va)
  | .ok l =>
    need (copy || !l.compressed) (.fault 0x06 4 va)
    need (!write || tierOk l.tier) (.fault 0x07 0 va)
    need (!write || l.writable) (.fault 0x06 3 va)
    let s ← get
    need (!write || !(s.ctx (s.ctxOf r.t)).moving va) (.hold movingHold)
    pure l

/-- Writes go to any tier but F. -/
def engineLeaf (r : Run) (write copy : Bool) (va : Nat) : M Leaf := engineLeafIn (fun t => t ≠ 2) r write copy va

/-- Bytes of a word: n from its byte `off` on. -/
def wordPart (w : Word) (off n : Nat) : Nat := w.toNat / 2 ^ (8 * off) % 2 ^ (8 * n)

/-- A read of n bytes that a command makes by `get`: of a word that it has read in a step of its own it takes what it read then. A step that
handles one word reads it whole, and the entry keeps it (R100). -/
def wordGet (r : Run) (get : Nat → Nat → M Nat) (va n : Nat) : M Nat :=
  if 8 < va % 8 + n then get va n
  else match SMap.find? r.e.prog.seen (va / 8), r.word with
    | some w, _ => pure (wordPart w (va % 8) n)
    | none, none => get va n
    | none, some _ => do
      let w := BitVec.ofNat 64 (← get (va / 8 * 8) 8)
      upd (fun s => s.modEntry r.t r.q r.e.seq (fun e => { e with prog := { e.prog with seen := SMap.put e.prog.seen (va / 8) w } }))
      pure (wordPart w (va % 8) n)

/-- A read through the remote-read cache. One that crosses its line gives what its first byte's place
holds from there on: R228 lets a level handle's pos and crd be misaligned, and R231 does not say what its reads give then (DESIGN
CHOICE, log entry 122). -/
def cachedLoad (r : Run) (va n : Nat) : M Nat := do
  let l ← engineLeaf r false false va
  modifyGet (fun s => let x := s.cachedRead r.t (s.ctxOf r.t) l n; (x.2, x.1))

/-- A read of feeders and vector loads, through the remote-read cache (R82). -/
def cachedGet (r : Run) : Nat → Nat → M Nat := wordGet r (cachedLoad r)

/-- A read that bypasses the cache. -/
def directLoad (r : Run) (copy : Bool) (va n : Nat) : M Nat := do
  let l ← engineLeaf r false copy va
  modifyGet (fun s => let x := s.bypassRead r.t (s.ctxOf r.t) l n copy; (x.2, x.1))

/-- A read of a command that bypasses the cache. -/
def directGet (r : Run) (copy : Bool) : Nat → Nat → M Nat := wordGet r (directLoad r copy)

/-- Whether a step of a command performs the write at an address: not where the command has written its word before, and only to the word
that the step handles, where it handles one (R100). -/
def Run.writes (r : Run) (va : Nat) : Bool := !r.e.prog.puts.contains (va / 8) && r.word.all (· = va / 8)

/-- A write of n bytes inside one 64-bit word; full/empty bits are left (R85). -/
def enginePut (r : Run) (copy : Bool) (va n v : Nat) : M Unit := do
  if r.writes va then
    let l ← engineLeaf r true copy va
    upd (fun s => s.plainWrite r.t (s.ctxOf r.t) l n v)

/-- The writes of a command are made: a step that writes one word notes it and ends here (R100). -/
def endWord (r : Run) : M Unit := do
  match r.word with
  | none => pure ()
  | some w =>
    upd (fun s => s.modEntry r.t r.q r.e.seq (fun e => { e with prog := { e.prog with puts := w :: e.prog.puts } }))
    throw .begun

/-- A destination of a store: its address, size and value. -/
structure Put where
  va : Nat
  n : Nat
  v : Nat
deriving DecidableEq, Repr

/-- Makes the writes of a destination free values, where they can be made (R156). -/
def State.scramble (s : State) (r : Run) (copy : Bool) (l : List Put) : State :=
  l.foldl (fun (s : State) p =>
    match (engineLeaf r true copy p.va) s with
    | .ok leaf s' => let (w, s') := s'.free; s'.tileWrite r.t (s'.ctxOf r.t) leaf p.n w.toNat none
    | .error _ _ => s) s

/-- Performs the writes of a command in order. Where one faults, the destination is unpredictable: every write of
it that can be made is a free value (R156). -/
def putAll (r : Run) (copy : Bool) (l : List Put) : M Unit := fun s =>
  match (l.forM (fun p => enginePut r copy p.va p.n p.v)) s with
  | .ok u s' => .ok u s'
  | .error (.fault code detail addr) s' => .error (.fault code detail addr) (s'.scramble r copy l)
  | .error e s' => .error e s'

/-- A completion word or latch of a command: an aligned word of tier S, else 0x07; it is written and set full, as a
release (R85, R106, R156). -/
def fillWord (r : Run) (va : Nat) (v : Nat) : M Unit := do
  need (va < 2 ^ 52) (.fault 0x05 0 va)
  need (va % 8 = 0) (.fault 0x07 0 va)
  let l ← engineLeafIn (fun t => t = 0) r true false va
  upd (fun s => (s.tileWrite r.t (s.ctxOf r.t) l 8 v (some true)).markTagged (s.ctxOf r.t) l)

/-! ## Completing a command (R113) -/

/-- Whether a chunk's slots can be freed: retired, and no command that reads them is left (R172). -/
def TileCtx.readersLeft (c : TileCtx) (l : List (Nat × Nat)) : Bool :=
  l.any (fun p => (c.queue p.1).entries.any (fun e => e.seq = p.2))

end Sys2Proof.Machine
end

