-- ==== Sys2Proof/Machine/Operands.lean ====
section
/-! DEFINITION. The operand forms of commands: fields of the command word, reserved and capture checks (R156),
shape records (R227, R228), element addresses (R229 to R232), sorted-code records (R242), coordinates, and the
spans that a range-table entry is made of (R238). -/

namespace Sys2Proof.Machine

/-! ## Checks of operand fields (R156) -/

/-- The lowest nonzero bit of a list of reserved fields (place, length) of the command word. -/
def reservedBit (c : Cmd) (l : List (Nat × Nat)) : Option Nat :=
  let w : BitVec 192 := c.patch ++ c.opnd
  (l.flatMap (fun p => (List.range p.2).map (fun i => p.1 - 64 + i))).find? (fun i => w.getLsbD i)

/-- Reserved operand bits are zero, else 0x01 with the lowest nonzero one (R156); fields are listed rising. -/
def checkReserved (c : Cmd) (l : List (Nat × Nat)) : M Unit :=
  match reservedBit c l with
  | none => pure ()
  | some i => throw (.fault 0x01 i 0)

/-- A register that an operand field names. -/
inductive Named
  | c (i : Nat)
  | h (i : Nat)
deriving DecidableEq, Repr

/-- Whether the register of a field was captured. -/
def Named.ok (x : Named) (c : Cmd) : Bool :=
  match x with
  | .c i => c.cmask.getLsbD i
  | .h i => c.hmask.getLsbD i

/-- The named registers were captured, else 0x02 for the field that lies lowest (R156); fields are listed rising. -/
def checkCapture (c : Cmd) (l : List Named) : M Unit :=
  match l.find? (fun x => !x.ok c) with
  | none => pure ()
  | some (.c i) => throw (.fault 0x02 i 0)
  | some (.h i) => throw (.fault 0x02 (16 + i) 0)

/-- The c registers that a coordinate list names: `n` fields of four bits from `lo` up. -/
def coordNames (c : Cmd) (lo n : Nat) : List Named := (List.range n).map (fun d => .c (opf c (lo + 4 * d) 4))

/-- The unnamed fields of a coordinate list are zero: reserved (R233). -/
def coordRest (lo n : Nat) : Nat × Nat := (lo + 4 * n, 28 - 4 * n)

/-- A handle is well formed, else 0x13 with the handle and the lowest failing word (R228). -/
def checkShape (e : Entry) (i : Nat) : M Unit :=
  match malformedWord (e.handle i) with
  | none => pure ()
  | some k => throw (.fault 0x13 (16 * i + k) 0)

/-! ## Element addresses through readers (R229 to R232) -/

/-- How a command reads bytes: faulting and cached, or as a push looks at them. -/
abbrev Reader := Nat → Nat → M Nat

/-- Set bits of one word below a bit. -/
def popBelow (w : Nat) : Nat → Nat
  | 0 => 0
  | n + 1 => popBelow w n + (if w.testBit n then 1 else 0)

/-- PopCountBelow over the words of a bitmap segment (R231). -/
def popWords (rd : Reader) (b : Nat) (x : Nat) : Nat → M Nat
  | 0 => pure 0
  | n + 1 => do
    let rest ← popWords rd b x n
    let w ← rd (b + 8 * n) 8
    pure (rest + popBelow w (min 64 (x - 64 * n)))

/-- The stored position of coordinates of a level handle; none where it clips (R231). A bitmap handle goes by its bitmap alone, as the
pseudocode of R231 does: p1 is not tested there (DESIGN CHOICE, log entry 99). -/
def levelPos (rd : Reader) (h : Shape) (xs : List Nat) : M (Option Nat) := do
  let s := segmentOf (h.dims.drop (h.lvl + 1)) (xs.drop (h.lvl + 1))
  let p0 ← rd (h.pos + 4 * s) 4
  let p1 ← rd (h.pos + 4 * s + 4) 4
  let x := nth 0 xs h.lvl
  if h.type = 1 then pure (if p0 + x < p1 then some (p0 + x) else none)
  else
    let nw := (((nth ⟨0, false, 0⟩ h.dims h.lvl).extent) + 63) / 64
    let b := h.crd + 8 * (s * nw)
    let w ← rd (b + 8 * (x / 64)) 8
    if !(w.testBit (x % 64)) then pure none
    else
      let n ← popWords rd b x (x / 64 + 1)
      pure (some (p0 + n))

/-- ElemAddr (R229, R231): none where the element clips. -/
def elemPlace (rd : Reader) (h : Shape) (x : List Int) : M (Option Place) := do
  match clipCoords h.dims x with
  | none => pure none
  | some xs =>
    if h.type = 0 then pure (denseElem h x)
    else
      match ← levelPos rd h xs with
      | none => pure none
      | some p =>
        let pl := if h.lvl = 0 then densePlace h 0 p
          else densePlace h (dotStride ((h.dims.drop 1).take (h.lvl - 1)) ((xs.drop 1).take (h.lvl - 1)) +
            (p : Int) * (nth ⟨0, false, 0⟩ h.dims h.lvl).stride) (nth 0 xs 0)
        pure (some { pl with a := permAddr h.perm pl.a })

/-- CrdOf (R231, R234): the place of the logical coordinate of a stored position. -/
def crdPlace (rd : Reader) (h : Shape) (x : List Int) : M (Option Place) := do
  match clipCoords h.dims x with
  | none => pure none
  | some xs =>
    match ← levelPos rd h xs with
    | none => pure none
    | some p => pure (some { a := h.crd + 4 * p, j := 0 })

/-- An address that a command forms lies below 2^52, else 0x05 (R77, R229). -/
def formed (a : Int) : M Nat :=
  if 0 ≤ a && a < 2 ^ 52 then pure a.toNat else throw (.fault 0x05 0 (a % 2 ^ 64).toNat)

/-- ElemAddr with its fault. -/
def elemAddr (rd : Reader) (h : Shape) (x : List Int) : M (Option (Nat × Nat)) := do
  match ← elemPlace rd h x with
  | none => pure none
  | some p => do let a ← formed p.a; pure (some (a, p.j))

/-- An element of a handle as a command reads it: its pattern, and whether it was a fill value (R229, R234). For a
code format it is the code, not its word. -/
def readElem (rd : Reader) (h : Shape) (x : List Int) : M (Nat × Bool) := do
  match ← elemAddr rd h x with
  | none => pure (h.fill, true)
  | some (a, j) =>
    if isCode h.fmt then do
      let w ← rd a 8
      pure (w / 2 ^ (j * codeBits h.fmt) % 2 ^ codeBits h.fmt, false)
    else do
      let v ← rd a (elemSize h.fmt)
      pure (v, false)

/-- The fill code in each of a word's code positions (R234). -/
def fillWordOf (fmt fill : Nat) : Nat :=
  (List.range (codesPerWord fmt)).foldl (fun acc i => acc + fill % 2 ^ codeBits fmt * 2 ^ (i * codeBits fmt)) 0

/-- Adds to `ctxclip` (R237). -/
def State.countClip (s : State) (c n : Nat) : State := s.modCtx c (fun x => { x with clip := satAdd 64 x.clip n })

/-- Elements of a command that clip are counted; a step that handles one word leaves that to the step that ends the command. -/
def countClip (r : Run) (n : Nat) : M Unit := upd (fun s => if n = 0 || r.word.isSome then s else s.countClip (s.ctxOf r.t) n)

/-! ## Writing elements -/

/-- Packs elements of n bytes, the first lowest. -/
def packElems (n : Nat) : List Nat → Nat
  | [] => 0
  | v :: r => v % 2 ^ (8 * n) + 2 ^ (8 * n) * packElems n r

/-- What a write of a code word keeps: the codes up to the row's end, with unused bits zero (R28, R236). -/
def maskCodeWord (h : Shape) (x : List Int) (w : Nat) : Nat :=
  let n := codesPerWord h.fmt
  let valid := match clipCoords h.dims x with
    | some (x0 :: _) => min n ((nth ⟨0, false, 0⟩ h.dims 0).extent - x0 / n * n)
    | _ => n
  w % 2 ^ (valid * codeBits h.fmt)

/-- The write of an element (a whole word for a code format); none where it clips (R229, R236). -/
def elemPut (rd : Reader) (h : Shape) (x : List Int) (v : Nat) : M (List Put) := do
  match ← elemAddr rd h x with
  | none => pure []
  | some (a, _) =>
    pure [{ va := a, n := slotElem h.fmt, v := if isCode h.fmt then maskCodeWord h x v else v % 2 ^ (8 * elemSize h.fmt) }]

/-- The writes that can be formed. -/
def formable : List (M (List Put)) → State → List Put
  | [], _ => []
  | item :: rest, s =>
    match item s with
    | .ok l _ => l ++ formable rest s
    | .error _ _ => formable rest s

/-- Forms the writes of a command and performs them by `put`, item by item. Where forming or performing one faults, the
destination is unpredictable (R156). -/
def performAll (put : Put → M Unit) (r : Run) (copy : Bool) : List (M (List Put)) → List Put → M Unit
  | [], _ => pure ()
  | item :: rest, acc => fun s =>
    match item s with
    | .ok l s' =>
      match (l.forM put) s' with
      | .ok _ s'' => performAll put r copy rest (acc ++ l) s''
      | .error (.fault code detail addr) s'' =>
        .error (.fault code detail addr) (s''.scramble r copy (acc ++ l ++ formable rest s''))
      | .error e s'' => .error e s''
    | .error (.fault code detail addr) s' => .error (.fault code detail addr) (s'.scramble r copy (acc ++ formable rest s))
    | .error e s' => .error e s'

/-- Plain writes, item by item. -/
def storeAll (r : Run) (copy : Bool) : List (M (List Put)) → List Put → M Unit :=
  performAll (fun p => enginePut r copy p.va p.n p.v) r copy

/-- Runs a part of a command that writes a destination: where it faults, the destination is unpredictable (R156). -/
def guardPuts (r : Run) (copy : Bool) (l : List Put) (body : M Unit) : M Unit := fun s =>
  match body s with
  | .error (.fault code detail addr) s' => .error (.fault code detail addr) (s'.scramble r copy l)
  | x => x

/-! ## Vector registers as data (R258) -/

/-- Element i of n bits. -/
def elemAt {w : Nat} (v : BitVec w) (n i : Nat) : Nat := v.toNat / 2 ^ (n * i) % 2 ^ n

/-- Replaces element i of n bits. -/
def setElem {w : Nat} (v : BitVec w) (n i x : Nat) : BitVec w :=
  BitVec.ofNat w (v.toNat - elemAt v n i * 2 ^ (n * i) + x % 2 ^ n * 2 ^ (n * i))

def TileCtx.vreg (c : TileCtx) (i : Nat) : VReg := SMap.get 0 c.v i
def TileCtx.setV (c : TileCtx) (i : Nat) (v : VReg) : TileCtx := { c with v := SMap.set 0 c.v i v }
def TileCtx.preg (c : TileCtx) (i : Nat) : PReg := SMap.get 0 c.p i
def TileCtx.setP (c : TileCtx) (i : Nat) (v : PReg) : TileCtx := { c with p := SMap.set 0 c.p i v }

/-! ## Spans (R238) -/

/-- A virtual span, first and last byte. -/
abbrev Span := Nat × Nat

/-- Reads as a push looks at memory: with no fault and no effect. -/
def peekGet (c : Nat) : Reader := fun va n => fun s =>
  .ok (match s.walk c va with | .ok l => s.peek l.pa n | .error _ => 0) s

/-- Reads as the translation of a push's spans reads memory: at the homes, with what the reads do to lines and counts (R79, R88, R89,
R238). -/
def spanGet (c : Nat) : Reader := fun va n => fun s =>
  let s := s.deviceWalk c va
  match s.walk c va with
  | .ok l => let x := s.directRead c l n; .ok x.2 x.1
  | .error _ => .ok 0 s

/-- Joins a span with bytes. -/
def Span.join (x : Option Span) (a n : Nat) : Option Span :=
  match x with
  | none => some (a, a + n - 1)
  | some (f, l) => some (min f a, max l (a + n - 1))

/-- Widens a span to whole 16 KiB blocks under a bank permutation (R238). -/
def widen (perm : Nat) (x : Span) : Span := if perm = 0 then x else (x.1 / 16384 * 16384, x.2 / 16384 * 16384 + 16383)

/-- The span of the unclipped elements at the coordinates of a walk (R238). Which elements of a level handle are selected goes by
its position and bitmap memory as it stands at the push (DESIGN CHOICE, log entry 101). -/
def elemsSpan (rd : Reader) (h : Shape) (walk : List (List Int)) : M (List Span) := do
  let x ← walk.foldlM (fun (acc : Option Span) x => do
    match ← elemPlace rd h x with
    | none => pure acc
    | some p => if 0 ≤ p.a && p.a < 2 ^ 52 then pure (Span.join acc p.a.toNat (slotElem h.fmt)) else pure acc) none
  pure (match x with | none => [] | some p => [widen h.perm p])

/-- The least and the greatest offset that coordinates inside the extents reach. -/
def strideRange : List Dim → Int × Int
  | [] => (0, 0)
  | d :: ds =>
    let r := strideRange ds
    let k := ((d.extent : Int) - 1) * d.stride
    (r.1 + min 0 k, r.2 + max 0 k)

/-- Clamps a formed address into the virtual space. -/
def clampAddr (a : Int) : Nat := (max 0 (min a (2 ^ 52 - 1))).toNat

/-- The span of the places of some elements. -/
def placesSpan (h : Shape) (l : List Place) : List Span :=
  match l.map (fun p => clampAddr p.a) with
  | [] => []
  | a :: r => [widen h.perm (r.foldl min a, clampAddr ((r.foldl max a + slotElem h.fmt - 1 : Nat) : Int))]

/-- The span of every element of a dense handle within its extents (R238). -/
def denseSpan (h : Shape) : List Span :=
  let r := strideRange (h.dims.drop 1)
  let last := (nth ⟨1, false, 0⟩ h.dims 0).extent - 1
  placesSpan h [densePlace h r.1 0, densePlace h r.2 0, densePlace h r.1 last, densePlace h r.2 last]

/-- Segments of a level handle: the product of the extents above its level (R231). -/
def Shape.segments (h : Shape) : Nat := (h.dims.drop (h.lvl + 1)).foldl (fun n d => n * d.extent) 1

/-- The stored positions of a level handle: the least, and one past the greatest, over all its segments; none where it
stores nothing. -/
def positionRange (rd : Reader) (h : Shape) : Nat → M (Option (Nat × Nat))
  | 0 => pure none
  | n + 1 => do
    let rest ← positionRange rd h n
    let p0 ← rd (h.pos + 4 * n) 4
    let p1 ← rd (h.pos + 4 * n + 4) 4
    let e := (nth ⟨0, false, 0⟩ h.dims h.lvl).extent
    let p1 ← if h.type = 1 then pure (min p1 (p0 + e))
      else do
        let nw := (e + 63) / 64
        let k ← popWords rd (h.crd + 8 * (n * nw)) e nw
        pure (p0 + k)
    pure (if p1 ≤ p0 then rest
      else match rest with
        | none => some (p0, p1)
        | some (a, b) => some (min a p0, max b p1))

/-- The span of every element of a handle within its extents (R238): for a level handle, of every stored position, with the
position and bitmap words of every segment. -/
def tensorSpan (rd : Reader) (h : Shape) : M (List Span) := do
  if h.type = 0 || h.type = 3 then pure (denseSpan h)
  else
    let n := h.segments
    let nw := ((nth ⟨0, false, 0⟩ h.dims h.lvl).extent + 63) / 64
    let words : List Span := [(h.pos, h.pos + 4 * n + 3)] ++ (if h.type = 2 then [(h.crd, h.crd + 8 * (n * nw) - 1)] else [])
    match ← positionRange rd h n with
    | none => pure words
    | some (a, b) =>
      if h.lvl = 0 then pure (placesSpan h [densePlace h 0 a, densePlace h 0 (b - 1)] ++ words)
      else
        let k := (nth ⟨0, false, 0⟩ h.dims h.lvl).stride
        let r := strideRange ((h.dims.drop 1).take (h.lvl - 1))
        let lo := r.1 + min ((a : Int) * k) (((b - 1 : Nat) : Int) * k)
        let hi := r.2 + max ((a : Int) * k) (((b - 1 : Nat) : Int) * k)
        let last := (nth ⟨1, false, 0⟩ h.dims 0).extent - 1
        pure (placesSpan h [densePlace h lo 0, densePlace h hi 0, densePlace h lo last, densePlace h hi last] ++ words)

/-- The position, coordinate and bitmap words that a walk over a level handle may read (R238). -/
def levelSpans (h : Shape) (walk : List (List Int)) : List Span :=
  if h.type = 0 || h.type = 3 then []
  else
    let segs := walk.filterMap (fun x => (clipCoords h.dims x).map (fun xs =>
      segmentOf (h.dims.drop (h.lvl + 1)) (xs.drop (h.lvl + 1))))
    match segs with
    | [] => []
    | s :: r =>
      let lo := r.foldl min s; let hi := r.foldl max s
      let nw := (((nth ⟨0, false, 0⟩ h.dims h.lvl).extent) + 63) / 64
      [(h.pos + 4 * lo, h.pos + 4 * hi + 7)] ++
        (if h.type = 2 then [(h.crd + 8 * (lo * nw), h.crd + 8 * ((hi + 1) * nw) - 1)] else [])

/-- The coordinate words of the stored positions that a walk selects (R231, R238). -/
def crdSpan (rd : Reader) (h : Shape) (walk : List (List Int)) : M (List Span) := do
  let x ← walk.foldlM (fun (acc : Option Span) x => do
    match ← crdPlace rd h x with
    | none => pure acc
    | some p => pure (Span.join acc p.a.toNat 4)) none
  pure (match x with | none => [] | some p => [p])

/-- Joins neighbouring runs that touch. -/
def joinRuns (x : Nat × Nat) : List (Nat × Nat) → List (Nat × Nat)
  | [] => [x]
  | y :: r => if y.1 ≤ x.2 + 1 then joinRuns (x.1, max x.2 y.2) r else x :: joinRuns y r

/-- Joins runs of lines that touch, in rising order. -/
def mergeRuns (l : List (Nat × Nat)) : List (Nat × Nat) :=
  match sortBy (fun (a b : Nat × Nat) => a.1 < b.1) l with
  | [] => []
  | x :: r => joinRuns x r

/-- The whole of tier S, in lines. -/
def allLines : List (Nat × Nat) := [(0, Config.tierSEnd / 64 - 1)]

/-- Runs of lines as an entry holds them: four at most, else the whole of tier S (R238). -/
def boundRuns (l : List (Nat × Nat)) : List (Nat × Nat) := if (mergeRuns l).length > 4 then allLines else mergeRuns l

/-- The runs of tier S lines of some virtual spans; more than four are recorded as the whole of tier S (R238). -/
def State.runsOf (s : State) (c : Nat) (l : List Span) : List (Nat × Nat) :=
  if l.contains (0, 2 ^ 52 - 1) then allLines
  else
    let runs := l.flatMap (fun x =>
      let a := x.1 / 64 * 64
      (s.spanRuns c a (x.2 / 64 * 64 + 64 - a)).filter (fun r => r.1 < Config.tierSEnd / 64))
    boundRuns runs

/-- What a command's entry is made of: its read and write spans, or nothing where they cannot be formed. -/
structure Spans where
  rd : List Span
  wr : List Span
deriving DecidableEq, Repr

/-- A walk of one dimension: n coordinates from x along d. -/
def walkAlong (x : List Int) (d n : Nat) (step : Nat) : List (List Int) :=
  (List.range n).map (fun j => addAt x d ((j * step : Nat) : Int))

end Sys2Proof.Machine
end

