-- ==== Sys2Proof/Machine/Feeder.lean ====
section
/-! DEFINITION. The address stream (R226, R233 to R238): the slicer and the feeder commands. -/

namespace Sys2Proof.Machine

/-- The slicer hands the next command of q0 to its stream (R226); a faulted queue's entries stay (R155). -/
def execSlicerTake (s : State) : Host.Outcome State Fault Refusal :=
  let t := s.cur.tile
  let x := s.queue t 0
  if x.faulted || (s.ctx (s.ctxOf t)).st ≠ .running then .next s
  else match x.entries.find? (fun e => e.st = .queued) with
    | none => .next s
    | some e => .next (s.modEntry t 0 e.seq (fun y => { y with st := .taken }))

/-! ## Operands (R233) -/

/-- Which feeder command: values, coordinates, gather, broadcast, splat, skip, store. -/
inductive FeederKind
  | row
  | crd
  | gather
  | bcast
  | splat
  | skip
  | store
deriving DecidableEq, Repr

def fdH (c : Cmd) : Nat := opf c 64 4
def fdNcoord (c : Cmd) : Nat := opf c 68 3
def fdDq (c : Cmd) : Nat := opf c 104 3
def fdNslot (c : Cmd) : Nat := opf c 108 5
def fdWalk (c : Cmd) : Nat := opf c 116 4
def fdRow (c : Cmd) : Nat := opf c 120 4
def fdHx (c : Cmd) : Nat := opf c 124 4
def fdCount (c : Cmd) : Nat := opf c 128 10
def fdTag (c : Cmd) : Nat := opf c 160 32

/-- Reserved fields, rising (R233). -/
def fdReserved (k : FeederKind) (c : Cmd) : List (Nat × Nat) :=
  match k with
  | .skip => [(64, 40), (107, 1), (113, 25), (138, 22)]
  | .gather => [(71, 1), coordRest 72 (fdNcoord c), (100, 4), (107, 1), (113, 3), (138, 22)]
  | .store => [(71, 1), coordRest 72 (fdNcoord c), (100, 4), (107, 1), (113, 3), (124, 4), (138, 54)]
  | _ => [(71, 1), coordRest 72 (fdNcoord c), (100, 4), (107, 1), (113, 3), (124, 4), (138, 22)]

/-- The coordinates of slot k's first element; for `fd.gather` with index i in place of the row (R234). -/
def slotCoords (r : Run) (c : Cmd) (k : Nat) : List Int :=
  addAt (coordsOf r.e c 72 (fdNcoord c)) (fdRow c) (cmdOffset c + k)

/-- The coordinates of element j of a slot: the words of a code format walk dimension 0 by whole words, coordinates by one (R234). -/
def slotElemCoords (k : FeederKind) (h : Shape) (walk : Nat) (x : List Int) (j : Nat) : List Int :=
  addAt x walk (if k ≠ .crd && isCode h.fmt && walk = 0 then ((j * codesPerWord h.fmt : Nat) : Int) else j)

/-- The coordinates of the elements of a slot. -/
def slotWalk (k : FeederKind) (h : Shape) (walk count : Nat) (x : List Int) : List (List Int) :=
  (List.range count).map (slotElemCoords k h walk x)

/-- Whether the unclipped elements of a slot lie in one block (R235). -/
def oneBlock (h : Shape) (l : List (List Int)) : Bool :=
  let bs := l.filterMap (fun x => (clipCoords h.dims x).map (fun xs => nth 0 xs 0 / h.block))
  bs.all (fun b => b = bs.headD 0)

/-- Whether limit 6 holds: a blocked handle whose slots keep to one block each (R233, R235). For a gather dimension 0
alone is checked, which the index does not change. -/
def blocksOk (k : FeederKind) (r : Run) (c : Cmd) (h : Shape) : Bool :=
  h.block = 0 || (fdWalk c = 0 &&
    (if k = .gather then
      let d0 : Shape := { h with dims := h.dims.take 1 }
      oneBlock d0 (slotWalk k h 0 (fdCount c) (coordsOf r.e c 72 (fdNcoord c)))
    else if k = .splat then true
    else (List.range (if k = .bcast then 1 else fdNslot c)).all (fun i => oneBlock h (slotWalk k h 0 (fdCount c) (slotCoords r c i)))))

/-- Limits (R233): the lowest failing field number. -/
def fdLimit (k : FeederKind) (r : Run) (c : Cmd) (h : Shape) : Option Nat :=
  if fdCount c = 0 || fdCount c > 512 / slotElem (cmdFormat c) then some 1
  else if fdNslot c = 0 || fdNslot c > 16 then some 2
  else if fdNcoord c > h.rank then some 3
  else if fdWalk c ≥ h.rank || (k = .splat && fdWalk c ≠ 0) then some 4
  else if fdRow c ≥ h.rank || fdRow c = fdWalk c then some 5
  else if !blocksOk k r c h then some 6
  else none

/-- The checks of a feeder command that names a handle, in the order of R233. Of the two handles of `fd.gather` that fail one check,
the detail names h (DESIGN CHOICE, log entry 100). -/
def fdChecks (k : FeederKind) (r : Run) (c : Cmd) : M Shape := do
  checkReserved c (fdReserved k c)
  checkCapture c ([.h (fdH c)] ++ coordNames c 72 (fdNcoord c) ++ (if k = .gather then [.h (fdHx c)] else []))
  checkShape r.e (fdH c)
  if k = .gather then checkShape r.e (fdHx c)
  let h := shapeOf (r.e.handle (fdH c))
  need (h.type ≠ 3 && !(k = .crd && h.type ≠ 1)) (.fault 0x03 (fdH c) 0)
  if k = .gather then
    let x := shapeOf (r.e.handle (fdHx c))
    need (x.type = 0 && x.rank = 1 && (x.fmt = 3 || x.fmt = 4)) (.fault 0x03 (fdHx c) 0)
  need (if k = .crd then cmdFormat c = 3 else h.fmt = cmdFormat c) (.fault 0x14 (fdH c) 0)
  match fdLimit k r c h with
  | some n => throw (.fault 0x04 n 0)
  | none => pure h

/-! ## Filling slots (R234, R235) -/

/-- An element as a slot receives it: a code format gives the whole word (R234). A clipped coordinate of `fd.row` with SUB 1 gives the
low 32 bits of the handle's fill (DESIGN CHOICE, log entry 102). -/
def slotElement (rd : Reader) (k : FeederKind) (h : Shape) (x : List Int) : M (Nat × Bool) := do
  if k = .crd then
    match ← crdPlace rd h x with
    | none => pure (h.fill, true)
    | some p => do let a ← formed p.a; let v ← rd a 4; pure (v, false)
  else if isCode h.fmt then
    match ← elemAddr rd h x with
    | none => pure (fillWordOf h.fmt h.fill, true)
    | some (a, _) => do let v ← rd a 8; pure (v, false)
  else readElem rd h x

/-- The scale byte of a slot: that of its first unclipped element in a blocked handle, else 127 (R235); `clipped` says
which of its elements clipped. -/
def slotScale (rd : Reader) (h : Shape) (l : List (List Int)) (clipped : List Bool) : M Nat :=
  if h.block = 0 then pure 127
  else match (l.zip clipped).findSome? (fun p => if p.2 then none else clipCoords h.dims p.1) with
    | none => pure 127
    | some xs => rd (scaleAddr h xs) 1

/-- What a slot receives: its data, whether an element clipped, and its scale (FillSlot, R234). -/
def slotContents (r : Run) (k : FeederKind) (c : Cmd) (h : Shape) (x : List Int) : M (Row × Bool × Nat) := do
  let rd : Reader := cachedGet r
  let n := slotElem (cmdFormat c)
  let l := if k = .splat then [x] else slotWalk k h (fdWalk c) (fdCount c) x
  let es ← l.mapM (slotElement rd k h)
  let es' := if k = .splat then List.replicate (fdCount c) (es.headD (0, false)) else es
  let sc ← slotScale rd h l (es.map (·.2))
  pure (BitVec.ofNat 4096 (packElems n (es'.map (·.1))), es'.any (·.2), sc)

/-- The side word of slot k (R235). -/
def fdSide (c : Cmd) (k : Nat) (clip : Bool) (scale : Nat) : Word :=
  sideWord (fdTag c) clip (k + 1 = fdNslot c) (fdCount c * slotElem (cmdFormat c)) (cmdFormat c) scale

/-- Fills slot k from its coordinates. -/
def fillFrom (r : Run) (kind : FeederKind) (c : Cmd) (h : Shape) (k : Nat) (x : List Int) : M Unit := do
  let (data, clip, sc) ← slotContents r kind c h x
  fillSlot r (fdDq c) data (fdSide c k clip sc)

/-- The body of `fd.row`, its coordinates variant and the splat. -/
def rowBody (kind : FeederKind) (c : Cmd) (r : Run) : M Bool := do
  let h ← fdChecks kind r c
  begin r (some (fdDq c, fdNslot c)) []
  (List.range (fdNslot c)).forM (fun k => fillFrom r kind c h k (slotCoords r c k))
  pure true

/-- The index of a gather at a position: a clipped position gives the index handle's fill (R234). -/
def indexAt (rd : Reader) (x : Shape) (pos : Int) : M Int := do
  let (v, _) ← readElem rd x [pos]
  pure (signedVal (8 * elemSize x.fmt) v)

/-- `fd.gather` (R234): PATCH, the first index position, is signed, which R233 says of the other feeders alone (DESIGN CHOICE, log
entry 128). -/
def gatherBody (c : Cmd) (r : Run) : M Bool := do
  let h ← fdChecks .gather r c
  begin r (some (fdDq c, fdNslot c)) []
  let hx := shapeOf (r.e.handle (fdHx c))
  (List.range (fdNslot c)).forM (fun k => do
    let i ← indexAt (cachedGet r) hx (cmdOffset c + k)
    fillFrom r .gather c h k (setNth (coordsOf r.e c 72 (fdNcoord c)) (fdRow c) i))
  pure true

def bcastBody (c : Cmd) (r : Run) : M Bool := do
  let h ← fdChecks .bcast r c
  begin r (some (fdDq c, fdNslot c)) []
  let (data, clip, sc) ← slotContents r .bcast c h (slotCoords r c 0)
  (List.range (fdNslot c)).forM (fun k => fillSlot r (fdDq c) data (fdSide c k clip sc))
  pure true

/-- `fd.skip`: no handle is named; data all zero, len 0 (R234, R235). -/
def skipBody (c : Cmd) (r : Run) : M Bool := do
  checkReserved c (fdReserved .skip c)
  need (fdNslot c ≠ 0 && fdNslot c ≤ 16) (.fault 0x04 2 0)
  begin r (some (fdDq c, fdNslot c)) []
  (List.range (fdNslot c)).forM (fun k =>
    fillSlot r (fdDq c) 0 (sideWord (fdTag c) false (k + 1 = fdNslot c) 0 (cmdFormat c) 127))
  pure true

/-! ## Storing slots (R236) -/

/-- Element j of a slot's data. -/
def rowElem (d : Row) (n j : Nat) : Nat := d.toNat / 2 ^ (8 * n * j) % 2 ^ (8 * n)

/-- Elements that a store takes from a slot. -/
def storeCount (c : Cmd) (sl : Slot) : Nat := min (fdCount c) (field sl.side 16 10 / slotElem (cmdFormat c))

/-- The writes of slot k: its elements, then its block's scale, where it has a first element and that is not clipped (R236; a slot of no
element has none, log entry 114). -/
def slotPuts (r : Run) (c : Cmd) (h : Shape) (k : Nat) (sl : Slot) : List (M (List Put)) :=
  let x := slotCoords r c k
  let n := storeCount c sl
  let rd : Reader := cachedGet r
  let elems := (List.range n).map (fun j => do
    let p ← elemPut rd h (slotElemCoords .store h (fdWalk c) x j) (rowElem sl.data (slotElem h.fmt) j)
    if p.isEmpty then countClip r 1
    pure p)
  let scale : M (List Put) := do
    match clipCoords h.dims x with
    | none => pure []
    | some xs =>
      match ← elemPlace rd h x with
      | none => pure []
      | some _ => pure [{ va := scaleAddr h xs, n := 1, v := field sl.side 0 8 }]
  if n ≠ 0 && h.block ≠ 0 && nth 0 x 0 % (h.block : Int) = 0 then elems ++ [scale] else elems

def storeBody (c : Cmd) (r : Run) : M Bool := do
  let h ← fdChecks .store r c
  begin r none [(fdDq c, fdNslot c)]
  let l ← claimed r (fdDq c)
  checkSlots (fdDq c) (some (cmdFormat c)) l
  storeAll r false ((l.zip (List.range l.length)).flatMap (fun p => slotPuts r c h p.2 p.1)) []
  endWord r
  releaseClaims r
  pure true

/-! ## Spans (R238) -/

/-- The coordinates that a feeder command walks. -/
def fdWalkAll (kind : FeederKind) (r : Run) (c : Cmd) (h : Shape) : List (List Int) :=
  let slots := if kind = .bcast then [slotCoords r c 0] else (List.range (fdNslot c)).map (slotCoords r c)
  if kind = .splat then slots else slots.flatMap (slotWalk kind h (fdWalk c) (fdCount c))

/-- The scale bytes that a store may write: one span from the lowest to the highest (R238 does not say; DESIGN CHOICE, log entry 123). -/
def fdScaleSpan (r : Run) (c : Cmd) (h : Shape) : List Span :=
  if h.block = 0 then []
  else
    let l := (List.range (fdNslot c)).filterMap (fun k =>
      match clipCoords h.dims (slotCoords r c k) with
      | some xs => if nth 0 (slotCoords r c k) 0 % (h.block : Int) = 0 then some (scaleAddr h xs) else none
      | none => none)
    match l with
    | [] => []
    | a :: t => [(t.foldl min a, t.foldl max a)]

/-- The spans of a feeder command at its push (R238). -/
def fdSpans (kind : FeederKind) (r : Run) (rd : Reader) (c : Cmd) : M Spans := do
  let h ← fdChecks kind r c
  let walk := fdWalkAll kind r c h
  match kind with
  | .skip => pure ⟨[], []⟩
  | .gather =>
    let hx := shapeOf (r.e.handle (fdHx c))
    let ix ← elemsSpan rd hx ((List.range (fdNslot c)).map (fun (k : Nat) => [cmdOffset c + k]))
    let w ← tensorSpan rd h
    pure ⟨w ++ ix, []⟩
  | .crd =>
    let w ← elemsSpan rd h walk
    let cr ← crdSpan rd h walk
    pure ⟨w ++ cr ++ levelSpans h walk, []⟩
  | .store =>
    let w ← elemsSpan rd h walk
    pure ⟨levelSpans h walk, w ++ fdScaleSpan r c h⟩
  | _ =>
    let w ← elemsSpan rd h walk
    pure ⟨w ++ levelSpans h walk, []⟩

/-! ## The commands -/

def execFdRow (c : Cmd) (s : State) : Host.Outcome State Fault Refusal := runCommand 0x20 c (rowBody .row c) s
def execFdRowCrd (c : Cmd) (s : State) : Host.Outcome State Fault Refusal := runCommand 0x20 c (rowBody .crd c) s
def execFdGather (c : Cmd) (s : State) : Host.Outcome State Fault Refusal := runCommand 0x21 c (gatherBody c) s
def execFdBcast (c : Cmd) (s : State) : Host.Outcome State Fault Refusal := runCommand 0x22 c (bcastBody c) s
def execFdBcastSplat (c : Cmd) (s : State) : Host.Outcome State Fault Refusal := runCommand 0x22 c (rowBody .splat c) s
def execFdSkip (c : Cmd) (s : State) : Host.Outcome State Fault Refusal := runCommand 0x23 c (skipBody c) s
def execFdStore (c : Cmd) (s : State) : Host.Outcome State Fault Refusal := runCommand 0x24 c (storeBody c) s

end Sys2Proof.Machine
end

