-- ==== Sys2Proof/Machine/Vector.lean ====
section
/-! DEFINITION. The vector engine (R258 to R287): register-form and memory-form commands. -/

namespace Sys2Proof.Machine

/-! ## Fields of the register form (R259) and of the memory form (R260) -/

def vVl (c : Cmd) : Nat := opf c 178 14
def vE0 (c : Cmd) : Nat := opf c 162 13
def vAux (c : Cmd) : Nat := opf c 144 16
def vZm (c : Cmd) : Bool := opf c 143 1 = 1
def vPn (c : Cmd) : Bool := opf c 142 1 = 1
def vPe (c : Cmd) : Bool := opf c 141 1 = 1
def vPg (c : Cmd) : Nat := opf c 136 4
def vVs3 (c : Cmd) : Nat := opf c 128 7
def vVs2 (c : Cmd) : Nat := opf c 120 7
def vVs1 (c : Cmd) : Nat := opf c 112 7
def vVd (c : Cmd) : Nat := opf c 104 7
/-- MOD[4]: S, SX or AS; MOD[5]: X; MOD[6]: W (R261). -/
def vS (c : Cmd) : Bool := c.md.getLsbD 0
def vX (c : Cmd) : Bool := c.md.getLsbD 1
def vW (c : Cmd) : Bool := c.md.getLsbD 2
/-- Bits of an element of the command's format. -/
def vBits (c : Cmd) : Nat := 8 * elemSize (cmdFormat c)

/-! ## Checks when taken (R264) -/

/-- How the predicate fields apply: governing; a reduction, whose write is not governed; the selector of `vsel`;
not accepted at all. -/
inductive Governs
  | all
  | noZero
  | selector
  | none
deriving DecidableEq, Repr

/-- What a register-form operation uses: its register fields, its predicate fields, the largest element size s
(R265), the fields that name predicates or a vote with their greatest numbers, and whether aux is in range. -/
structure VForm where
  d : Bool := true
  s1 : Bool := true
  s2 : Bool := true
  s3 : Bool := false
  gov : Governs := .all
  size : Nat
  named : List (Nat × Nat) := []
  auxOk : Bool

/-- Reserved bits and unused fields of the register form, rising. -/
def vReserved (f : VForm) : List (Nat × Nat) :=
  let free (b : Bool) (p : Nat × Nat) : List (Nat × Nat) := if b then [] else [p]
  [(64, 40)] ++ free f.d (104, 7) ++ [(111, 1)] ++ free f.s1 (112, 7) ++ [(119, 1)] ++ free f.s2 (120, 7) ++
    [(127, 1)] ++ free f.s3 (128, 7) ++ [(135, 1)] ++ free (f.gov ≠ .none) (136, 4) ++ [(140, 1)] ++
    free (f.gov = .all || f.gov = .noZero) (141, 1) ++ free (f.gov ≠ .none) (142, 1) ++
    free (f.gov = .all) (143, 1) ++ [(160, 2), (175, 3)]

/-- Limit 1: the range of elements (R264). -/
def vRangeBad (size : Nat) (c : Cmd) : Bool := vVl c = 0 || vE0 c + vVl c > 8192 / size

/-- The checks of a register-form command. -/
def vChecks (f : VForm) (c : Cmd) : M Unit := do
  checkReserved c (vReserved f)
  need (!vRangeBad f.size c) (.fault 0x04 1 0)
  need (f.named.all (fun p => p.1 ≤ p.2)) (.fault 0x04 2 0)
  need f.auxOk (.fault 0x04 3 0)

/-- A register-form command: its checks, then its effect on the registers. -/
def vBody (f : VForm) (c : Cmd) (g : TileCtx → TileCtx) (r : Run) : M Bool := do
  vChecks f c
  begin r none []
  upd (fun s => s.modTc r.t g)
  pure true

/-! ## Common execution (R265) -/

/-- Whether element i is active. -/
def TileCtx.active (k : TileCtx) (c : Cmd) (i : Nat) : Bool := !vPe c || ((k.preg (vPg c)).getLsbD i != vPn c)

/-- The elements of the range, rising. -/
def vRange (c : Cmd) : List Nat := (List.range (vVl c)).map (vE0 c + ·)

/-- The active elements, rising. -/
def TileCtx.actives (k : TileCtx) (c : Cmd) : List Nat := (vRange c).filter (k.active c)

/-- Replaces the elements of the range: n bits each, from sources read before any write. -/
def fillRange {w : Nat} (v : BitVec w) (n : Nat) (act : Nat → Bool) (zm : Bool) (op : Nat → Nat) : List Nat → BitVec w
  | [] => v
  | i :: l =>
    fillRange (if act i then setElem v n i (op i) else if zm then setElem v n i 0 else v) n act zm op l

/-- Writes the destination register of an operation of n-bit elements. -/
def TileCtx.putV (k : TileCtx) (c : Cmd) (n : Nat) (op : Nat → Nat) : TileCtx :=
  k.setV (vVd c) (fillRange (k.vreg (vVd c)) n (k.active c) (vZm c) op (vRange c))

/-- Writes the destination predicate of an operation. -/
def TileCtx.putP (k : TileCtx) (c : Cmd) (act : Nat → Bool) (op : Nat → Bool) : TileCtx :=
  k.setP (vVd c) (fillRange (k.preg (vVd c)) 1 act (vZm c) (fun i => if op i then 1 else 0) (vRange c))

/-- Sources as patterns of the command's format: vs1, vs2 or the scalar, vs3. -/
def srcA (k : TileCtx) (c : Cmd) (i : Nat) : Nat := elemAt (k.vreg (vVs1 c)) (vBits c) i
def scalarOf (c : Cmd) : Nat := c.patch.toNat % 2 ^ vBits c
def srcB (k : TileCtx) (c : Cmd) (i : Nat) : Nat :=
  if vX c then scalarOf c else elemAt (k.vreg (vVs2 c)) (vBits c) i
def srcC (k : TileCtx) (c : Cmd) (i : Nat) : Nat := elemAt (k.vreg (vVs3 c)) (vBits c) i

/-- The form of a binary operation of the command's format. -/
def binForm (c : Cmd) : VForm := { s2 := !vX c, size := elemSize (cmdFormat c), auxOk := vAux c = 0 }
/-- The form of a unary operation. -/
def unForm (c : Cmd) : VForm := { s2 := false, size := elemSize (cmdFormat c), auxOk := vAux c = 0 }

/-- The run of a binary operation on patterns. -/
def vBinary (op : Nat) (c : Cmd) (f : Nat → Nat → Nat) (s : State) : Host.Outcome State Fault Refusal :=
  runCommand op c (vBody (binForm c) c (fun k => k.putV c (vBits c) (fun i => f (srcA k c i) (srcB k c i)))) s
/-- The run of a unary operation. -/
def vUnary (op : Nat) (c : Cmd) (f : Nat → Nat) (s : State) : Host.Outcome State Fault Refusal :=
  runCommand op c (vBody (unForm c) c (fun k => k.putV c (vBits c) (fun i => f (srcA k c i)))) s

/-! ## Integer and logic operations (R266) -/

/-- An integer operation on exact values, narrowed by S. -/
def vInt (op : Nat) (c : Cmd) (f : Int → Int → Int) (s : State) : Host.Outcome State Fault Refusal :=
  vBinary op c (fun a b => narrow (cmdFormat c) (vS c) (f (intVal (cmdFormat c) a) (intVal (cmdFormat c) b))) s

def execVadd (c : Cmd) (s : State) : Host.Outcome State Fault Refusal := vInt 0x60 c (fun a b => a + b) s
def execVsub (c : Cmd) (s : State) : Host.Outcome State Fault Refusal := vInt 0x60 c (fun a b => a - b) s
def execVmul (c : Cmd) (s : State) : Host.Outcome State Fault Refusal := vInt 0x60 c (fun a b => a * b) s
/-- The high half, rounded down. -/
def execVmulh (c : Cmd) (s : State) : Host.Outcome State Fault Refusal :=
  vBinary 0x60 c (fun a b => wrap (intVal (cmdFormat c) a * intVal (cmdFormat c) b / (2 ^ vBits c : Int)) (vBits c)) s
def execVmin (c : Cmd) (s : State) : Host.Outcome State Fault Refusal :=
  vBinary 0x60 c (fun a b => if intVal (cmdFormat c) a ≤ intVal (cmdFormat c) b then a else b) s
def execVmax (c : Cmd) (s : State) : Host.Outcome State Fault Refusal :=
  vBinary 0x60 c (fun a b => if intVal (cmdFormat c) a ≥ intVal (cmdFormat c) b then a else b) s
/-- Magnitude; uint8 is unchanged, which its values give by themselves. -/
def execVabs (c : Cmd) (s : State) : Host.Outcome State Fault Refusal :=
  vUnary 0x60 c (fun a => narrow (cmdFormat c) (vS c) (intVal (cmdFormat c) a).natAbs) s
def execVneg (c : Cmd) (s : State) : Host.Outcome State Fault Refusal :=
  vUnary 0x60 c (fun a => narrow (cmdFormat c) (vS c) (-(intVal (cmdFormat c) a))) s

def execVand (c : Cmd) (s : State) : Host.Outcome State Fault Refusal := vBinary 0x61 c (fun a b => a &&& b) s
def execVor (c : Cmd) (s : State) : Host.Outcome State Fault Refusal := vBinary 0x61 c (fun a b => a ||| b) s
def execVxor (c : Cmd) (s : State) : Host.Outcome State Fault Refusal := vBinary 0x61 c (fun a b => a ^^^ b) s
def execVnot (c : Cmd) (s : State) : Host.Outcome State Fault Refusal :=
  vUnary 0x61 c (fun a => 2 ^ vBits c - 1 - a) s
def execVandn (c : Cmd) (s : State) : Host.Outcome State Fault Refusal :=
  vBinary 0x61 c (fun a b => a &&& (2 ^ vBits c - 1 - b)) s

/-! ## Shifts (R267) and bit fields (R268) -/

def execVsll (c : Cmd) (s : State) : Host.Outcome State Fault Refusal :=
  vBinary 0x62 c (fun a n => if n ≥ vBits c then 0 else a * 2 ^ n % 2 ^ vBits c) s
def execVsrl (c : Cmd) (s : State) : Host.Outcome State Fault Refusal :=
  vBinary 0x62 c (fun a n => if n ≥ vBits c then 0 else a / 2 ^ n) s
def execVsra (c : Cmd) (s : State) : Host.Outcome State Fault Refusal :=
  vBinary 0x62 c (fun a n => wrap (signedVal (vBits c) a / (2 ^ min n (vBits c) : Int)) (vBits c)) s

/-- A window of the double word a:b; the scalar replaces the amount. -/
def execVfsh (c : Cmd) (s : State) : Host.Outcome State Fault Refusal :=
  let w := vBits c
  runCommand 0x62 c (vBody { binForm c with s2 := true, s3 := !vX c } c (fun k => k.putV c w (fun i =>
    let m := (if vX c then scalarOf c else srcC k c i) % (2 * w)
    (srcA k c i * 2 ^ w + elemAt (k.vreg (vVs2 c)) w i) / 2 ^ m % 2 ^ w))) s

/-- The width field of the bit-field operations: 1 to w, the bits above it zero. -/
def fieldForm (c : Cmd) : VForm := { binForm c with auxOk := 1 ≤ vAux c && vAux c ≤ vBits c }

def execVbfx (c : Cmd) (s : State) : Host.Outcome State Fault Refusal :=
  let w := vBits c; let f := vAux c
  runCommand 0x63 c (vBody (fieldForm c) c (fun k => k.putV c w (fun i =>
    let n := srcB k c i
    let u := if n ≥ w then 0 else srcA k c i / 2 ^ n % 2 ^ f
    if vS c then wrap (signedVal f u) w else u))) s
def execVbfi (c : Cmd) (s : State) : Host.Outcome State Fault Refusal :=
  let w := vBits c
  runCommand 0x63 c (vBody (fieldForm c) c (fun k => k.putV c w (fun i =>
    let n := srcB k c i; let d := elemAt (k.vreg (vVd c)) w i
    if n ≥ w then d
    else
      let hi := min (n + vAux c) w
      d % 2 ^ n + srcA k c i % 2 ^ (hi - n) * 2 ^ n + d / 2 ^ hi * 2 ^ hi))) s
def execVpopc (c : Cmd) (s : State) : Host.Outcome State Fault Refusal := vUnary 0x63 c (fun a => popBelow a (vBits c)) s
def execVclz (c : Cmd) (s : State) : Host.Outcome State Fault Refusal := vUnary 0x63 c (fun a => vBits c - bitLen a) s

/-! ## Comparisons, predicates and selection (R269 to R271) -/

/-- Order of two elements by value; none where one is a NaN (R269). -/
def elemCmp (fmt a b : Nat) : Option Int :=
  if isInt fmt then some (if intVal fmt a < intVal fmt b then -1 else if intVal fmt a = intVal fmt b then 0 else 1)
  else
    let x := ofElem fmt a; let y := ofElem fmt b
    if x = .nan || y = .nan then none else some (x.cmp y)

/-- A comparison; the answer for a NaN operand is `un`. -/
def vCompare (c : Cmd) (un : Bool) (p : Int → Bool) (s : State) : Host.Outcome State Fault Refusal :=
  runCommand 0x64 c (vBody { binForm c with named := [(vVd c, 15)] } c (fun k =>
    k.putP c (k.active c) (fun i =>
      match elemCmp (cmdFormat c) (srcA k c i) (srcB k c i) with
      | none => un
      | some o => p o))) s

def execVcmpEq (c : Cmd) (s : State) : Host.Outcome State Fault Refusal := vCompare c false (fun o => o = 0) s
def execVcmpNe (c : Cmd) (s : State) : Host.Outcome State Fault Refusal := vCompare c true (fun o => o ≠ 0) s
def execVcmpLt (c : Cmd) (s : State) : Host.Outcome State Fault Refusal := vCompare c false (fun o => o < 0) s
def execVcmpLe (c : Cmd) (s : State) : Host.Outcome State Fault Refusal := vCompare c false (fun o => o ≤ 0) s
def execVcmpGt (c : Cmd) (s : State) : Host.Outcome State Fault Refusal := vCompare c false (fun o => o > 0) s
def execVcmpGe (c : Cmd) (s : State) : Host.Outcome State Fault Refusal := vCompare c false (fun o => o ≥ 0) s

/-- An operation on predicates; n of vs1 and vs2 are used. -/
def vPred (c : Cmd) (n : Nat) (auxOk : Bool) (f : Bool → Bool → Bool) (s : State) : Host.Outcome State Fault Refusal :=
  runCommand 0x65 c (vBody
    { s1 := 1 ≤ n, s2 := 2 ≤ n, gov := .none, size := 1, auxOk := auxOk,
      named := [(vVd c, 15), (vVs1 c, 15), (vVs2 c, 15)] } c (fun k =>
      k.putP c (fun _ => true) (fun i => f ((k.preg (vVs1 c)).getLsbD i) ((k.preg (vVs2 c)).getLsbD i)))) s

def execVpand (c : Cmd) (s : State) : Host.Outcome State Fault Refusal := vPred c 2 (vAux c = 0) (fun a b => a && b) s
def execVpor (c : Cmd) (s : State) : Host.Outcome State Fault Refusal := vPred c 2 (vAux c = 0) (fun a b => a || b) s
def execVpxor (c : Cmd) (s : State) : Host.Outcome State Fault Refusal := vPred c 2 (vAux c = 0) (fun a b => a != b) s
def execVpnot (c : Cmd) (s : State) : Host.Outcome State Fault Refusal := vPred c 1 (vAux c = 0) (fun a _ => !a) s
def execVpset (c : Cmd) (s : State) : Host.Outcome State Fault Refusal := vPred c 0 (vAux c ≤ 1) (fun _ _ => vAux c = 1) s

def execVsel (c : Cmd) (s : State) : Host.Outcome State Fault Refusal :=
  runCommand 0x66 c (vBody { binForm c with gov := .selector } c (fun k => k.putV c (vBits c) (fun i =>
    if (k.preg (vPg c)).getLsbD i != vPn c then srcA k c i else srcB k c i))) s

/-! ## Floating-point arithmetic (R272) -/

/-- A binary operation on exact values, rounded once. -/
def vFloat (c : Cmd) (f : Fl → Fl → Fl) (s : State) : Host.Outcome State Fault Refusal :=
  vBinary 0x67 c (fun a b => roundReal (cmdFormat c) (f (ofElem (cmdFormat c) a) (ofElem (cmdFormat c) b))) s

def execVfadd (c : Cmd) (s : State) : Host.Outcome State Fault Refusal := vFloat c (Fl.add false) s
def execVfsub (c : Cmd) (s : State) : Host.Outcome State Fault Refusal := vFloat c (fun a b => a.add false b.neg) s
def execVfmul (c : Cmd) (s : State) : Host.Outcome State Fault Refusal := vFloat c Fl.mul s

/-- a × b ± c, rounded once; the scalar replaces b. -/
def vFused (c : Cmd) (minus : Bool) (s : State) : Host.Outcome State Fault Refusal :=
  let v := ofElem (cmdFormat c)
  runCommand 0x67 c (vBody { binForm c with s3 := true } c (fun k => k.putV c (vBits c) (fun i =>
    let z := v (srcC k c i)
    roundReal (cmdFormat c) (((v (srcA k c i)).mul (v (srcB k c i))).add false (if minus then z.neg else z))))) s

def execVfma (c : Cmd) (s : State) : Host.Outcome State Fault Refusal := vFused c false s
def execVfms (c : Cmd) (s : State) : Host.Outcome State Fault Refusal := vFused c true s
def execVfmin (c : Cmd) (s : State) : Host.Outcome State Fault Refusal := vFloat c Fl.min2 s
def execVfmax (c : Cmd) (s : State) : Host.Outcome State Fault Refusal := vFloat c Fl.max2 s
/-- The sign operations change the sign bit only. -/
def execVfabs (c : Cmd) (s : State) : Host.Outcome State Fault Refusal :=
  vUnary 0x67 c (fun a => a % 2 ^ (vBits c - 1)) s
def execVfneg (c : Cmd) (s : State) : Host.Outcome State Fault Refusal :=
  vUnary 0x67 c (fun a => a ^^^ 2 ^ (vBits c - 1)) s

/-! ## Conversion and quantisation (R273 to R275) -/

/-- The reseeds of a generator that a command with a sequence number draws after (R40, R41). -/
def passReseeds (g : Word) (seq : Nat) : List (Nat × Word) → Word × List (Nat × Word)
  | [] => (g, [])
  | (m, v) :: l => if m ≤ seq then passReseeds v seq l else (g, (m, v) :: l)

/-- The vector generator as a command finds it. -/
def TileCtx.seeded1 (k : TileCtx) (seq : Nat) : TileCtx :=
  let p := passReseeds k.gen1 seq k.reseed1
  { k with gen1 := p.1, reseed1 := p.2 }

/-- Writes elements that may draw, in ascending order (R41). -/
def drawRange (v : VReg) (n : Nat) (act : Nat → Bool) (zm : Bool) (op : Nat → Word → Nat × Word) (g : Word) :
    List Nat → VReg × Word
  | [] => (v, g)
  | i :: l =>
    if act i then
      let x := op i g
      drawRange (setElem v n i x.1) n act zm op x.2 l
    else drawRange (if zm then setElem v n i 0 else v) n act zm op g l

/-- Writes the destination of an operation that draws. -/
def TileCtx.putDrawn (k : TileCtx) (c : Cmd) (seq n : Nat) (op : Nat → Word → Nat × Word) : TileCtx :=
  let k := k.seeded1 seq
  let r := drawRange (k.vreg (vVd c)) n (k.active c) (vZm c) op k.gen1 (vRange c)
  { k.setV (vVd c) r.1 with gen1 := r.2 }

def qBsz (c : Cmd) : Nat := opf c 144 3
def qTarget (c : Cmd) : Nat := opf c 152 4
/-- The scale of element i in the scale register; 127 without blocks. -/
def qScale (k : TileCtx) (c : Cmd) (i : Nat) : Nat :=
  if qBsz c = 0 then 127 else elemAt (k.vreg (vVs2 c)) 8 (i / blockSize (qBsz c))

/-- The form of the quantising operations with the greatest target. -/
def quantForm (c : Cmd) (tmax : Nat) (derive : Bool) : VForm :=
  { s2 := qBsz c ≠ 0, size := 4,
    auxOk := qBsz c ≤ 5 && opf c 147 5 = 0 && qTarget c ≤ tmax && opf c 156 4 = 0 && !(derive && qBsz c = 0) }

/-- The largest magnitude of the active elements of a block, NaN excluded. -/
def blockMax (k : TileCtx) (c : Cmd) (j : Nat) : Fl :=
  (k.actives c).foldl (fun (m : Fl) i =>
    let x := ofF32 (elemAt (k.vreg (vVs1 c)) 32 i)
    if i / blockSize (qBsz c) = j && x ≠ .nan then m.max2 x.abs else m) (.fin false 0 0)

/-- Derives and writes the scales of the blocks that the range meets (R274). -/
def TileCtx.deriveScales (k : TileCtx) (c : Cmd) : TileCtx :=
  if !vS c then k
  else
    let b := blockSize (qBsz c)
    let js := ((vRange c).map (· / b)).eraseDups
    k.setV (vVs2 c) (js.foldl (fun (v : VReg) j => setElem v 8 j (deriveScale (blockMax k c j) (qTarget c)))
      (k.vreg (vVs2 c)))

/-- The checks and the run of `vqm8` and `vqi8`: AS refuses vd = vs2 with field 4. `g` gets the tile as the command
found it, whose vs1 it converts (R265), and the tile with the scales derived. -/
def vQuant (c : Cmd) (tmax : Nat) (g : Nat → TileCtx → TileCtx → TileCtx) (s : State) : Host.Outcome State Fault Refusal :=
  runCommand 0x68 c (fun r => do
    vChecks (quantForm c tmax (vS c)) c
    need (!(vS c && vVd c = vVs2 c)) (.fault 0x04 4 0)
    begin r none []
    upd (fun s => s.modTc r.t (fun k => g r.e.seq k (k.deriveScales c)))
    pure true) s

/-- a × 2^(127 − e) of fp32 element i of vs1 in `src`, with the scales of `k`; none for a scale of 255. -/
def scaledBy (src k : TileCtx) (c : Cmd) (i : Nat) : Option Fl :=
  let e := qScale k c i
  if e = 255 then none else some ((ofF32 (elemAt (src.vreg (vVs1 c)) 32 i)).scale (127 - (e : Int)))

def execVqm8 (c : Cmd) (s : State) : Host.Outcome State Fault Refusal :=
  vQuant c 11 (fun seq src k => k.putDrawn c seq 8 (fun i g =>
    match scaledBy src k c i with
    | none => (0x80, g)
    | some x => toM8 x g)) s
def execVqi8 (c : Cmd) (s : State) : Host.Outcome State Fault Refusal :=
  vQuant c 6 (fun _ src k => k.putV c 8 (fun i =>
    match scaledBy src k c i with
    | none => 0
    | some x => toInt x 0 (vW c))) s

/-- Dequantising: the product with one and the scale. -/
def vDequant (c : Cmd) (fmt : Nat) (s : State) : Host.Outcome State Fault Refusal :=
  runCommand 0x68 c (vBody (quantForm c 0 false) c (fun k => k.putV c 32 (fun i =>
    product (ofElem fmt (elemAt (k.vreg (vVs1 c)) 8 i)) (.fin false 1 0) (scaleExp (qScale k c i))))) s

def execVdqm8 (c : Cmd) (s : State) : Host.Outcome State Fault Refusal := vDequant c 10 s
def execVdqi8 (c : Cmd) (s : State) : Host.Outcome State Fault Refusal := vDequant c 0 s

/-- One conversion of `vcvt`: the destination pattern and the generator. -/
def convertElem (sf df : Nat) (wrapping : Bool) (a : Nat) (g : Word) : Nat × Word :=
  if sf = df then (a, g)
  else if df = 10 then toM8 (ofElem sf a) g
  else if df = 8 || df = 9 then (roundReal df (ofElem sf a), g)
  else if isInt sf then (narrow df (!wrapping) (intVal sf a), g)
  else (toInt (ofElem sf a) df wrapping, g)

/-- A source format outside the list counts as one byte in the size limit (R273 does not say; DESIGN CHOICE, log entry 119). -/
def execVcvt (c : Cmd) (s : State) : Host.Outcome State Fault Refusal :=
  let sf := vAux c
  let ok := [0, 1, 2, 3, 4, 8, 9, 10].contains sf
  runCommand 0x68 c (fun r => do
    vBody { unForm c with size := max (elemSize (cmdFormat c)) (if ok then elemSize sf else 1), auxOk := ok } c (fun k =>
      k.putDrawn c r.e.seq (vBits c) (fun i g =>
        convertElem sf (cmdFormat c) (vW c) (elemAt (k.vreg (vVs1 c)) (8 * elemSize sf) i) g)) r) s

/-! ## Reductions and dot products (R276, R277) -/

/-- The order of patterns: −0 below +0. -/
def orderKey (fmt a : Nat) : Int :=
  if isInt fmt then intVal fmt a
  else
    let n := 8 * elemSize fmt
    let m := a % 2 ^ (n - 1)
    if a / 2 ^ (n - 1) % 2 = 1 then -(m : Int) - 1 else m

/-- The magnitude with the sign clear, as a pattern. -/
def magnitude (fmt a : Nat) : Nat :=
  if isInt fmt then (intVal fmt a).natAbs else a % 2 ^ (8 * elemSize fmt - 1)

def leastOf (fmt : Nat) : Nat :=
  match fmt with
  | 8 => 0xFF800000 | 9 => 0xFF80 | 10 => 0xFF | 1 => 0
  | f => 2 ^ (8 * elemSize f - 1)
def greatestOf (fmt : Nat) : Nat :=
  match fmt with
  | 8 => 0x7F800000 | 9 => 0x7F80 | 10 => 0x7F | 1 => 255
  | f => 2 ^ (8 * elemSize f - 1) - 1

/-- A list's best element by a comparison, or the value for no element; a NaN gives the canonical NaN. -/
def bestOf (fmt none : Nat) (better : Nat → Nat → Bool) (l : List Nat) : Nat :=
  if !isInt fmt && l.any (fun a => ofElem fmt a = .nan) then canonNan fmt
  else match l with
    | [] => none
    | x :: r => r.foldl (fun m a => if better a m then a else m) x

/-- An fp32 term of an element: exact, fp32 elements as they are (R45, R276). -/
def termOf (fmt a : Nat) : Nat := if fmt = 8 then a else roundF32 (ofElem fmt a)

/-- The form of a reduction with its result format. All 16 bits of aux count against the limit, bits 15 to 13 among them (R276 does not
say; DESIGN CHOICE, log entry 120). -/
def redForm (c : Cmd) (two : Bool) (res : Nat) : VForm :=
  { s2 := two, gov := .noZero, size := max (elemSize (cmdFormat c)) (elemSize res),
    auxOk := vAux c < 8192 / elemSize res }

/-- A reduction: its result format and its value over the active elements. -/
def vReduce (op : Nat) (c : Cmd) (two : Bool) (res : Nat) (f : TileCtx → List Nat → Nat) (s : State) :
    Host.Outcome State Fault Refusal :=
  runCommand op c (vBody (redForm c two res) c (fun k =>
    k.setV (vVd c) (setElem (k.vreg (vVd c)) (8 * elemSize res) (opf c 144 13) (f k (k.actives c))))) s

/-- int64 for the integer formats, fp32 for the real ones. -/
def sumFormat (c : Cmd) : Nat := if isInt (cmdFormat c) then 4 else 8

def execVredsum (c : Cmd) (s : State) : Host.Outcome State Fault Refusal :=
  vReduce 0x69 c false (sumFormat c) (fun k l =>
    if isInt (cmdFormat c) then wrap ((l.map (fun i => intVal (cmdFormat c) (srcA k c i))).sum) 64
    else chainSum (l.map (fun i => (i - vE0 c, termOf (cmdFormat c) (srcA k c i))))) s
def execVredmax (c : Cmd) (s : State) : Host.Outcome State Fault Refusal :=
  vReduce 0x69 c false (cmdFormat c) (fun k l => bestOf (cmdFormat c) (leastOf (cmdFormat c))
    (fun a m => orderKey (cmdFormat c) a > orderKey (cmdFormat c) m) (l.map (srcA k c))) s
def execVredmin (c : Cmd) (s : State) : Host.Outcome State Fault Refusal :=
  vReduce 0x69 c false (cmdFormat c) (fun k l => bestOf (cmdFormat c) (greatestOf (cmdFormat c))
    (fun a m => orderKey (cmdFormat c) a < orderKey (cmdFormat c) m) (l.map (srcA k c))) s
def execVredmaxabs (c : Cmd) (s : State) : Host.Outcome State Fault Refusal :=
  vReduce 0x69 c false (cmdFormat c) (fun k l =>
    let xs := l.map (srcA k c)
    if !isInt (cmdFormat c) && xs.any (fun a => ofElem (cmdFormat c) a = .nan) then canonNan (cmdFormat c)
    else (xs.map (magnitude (cmdFormat c))).foldl max 0) s

def execVdot (c : Cmd) (s : State) : Host.Outcome State Fault Refusal :=
  let v := ofElem (cmdFormat c)
  let b (k : TileCtx) (i : Nat) : Nat := elemAt (k.vreg (vVs2 c)) (vBits c) i
  vReduce 0x6A c true (sumFormat c) (fun k l =>
    if isInt (cmdFormat c) then
      wrap ((l.map (fun i => intVal (cmdFormat c) (srcA k c i) * intVal (cmdFormat c) (b k i))).sum) 64
    else chainSum (l.map (fun i => (i - vE0 c, product (v (srcA k c i)) (v (b k i)) (some 0))))) s

/-! ## Permutation (R278) -/

def execVperm (c : Cmd) (s : State) : Host.Outcome State Fault Refusal :=
  runCommand 0x6B c (vBody { binForm c with s2 := true, size := max 2 (elemSize (cmdFormat c)) } c (fun k =>
    k.putV c (vBits c) (fun i =>
      let j := elemAt (k.vreg (vVs2 c)) 16 i
      if j ≥ 8192 / elemSize (cmdFormat c) then 0 else srcA k c j))) s
def execVrot (c : Cmd) (s : State) : Host.Outcome State Fault Refusal :=
  runCommand 0x6B c (vBody (unForm c) c (fun k =>
    k.putV c (vBits c) (fun i => srcA k c (vE0 c + (i - vE0 c + c.patch.toNat) % vVl c)))) s
/-- Broadcast; with the scalar, vs1 and aux are unused. An aux that is nonzero then, and one without the scalar that names no element of a
register, fault with code 0x04, field 3: the spec names neither case (R276, R278; DESIGN CHOICE, log entry 120). -/
def execVsplat (c : Cmd) (s : State) : Host.Outcome State Fault Refusal :=
  runCommand 0x6B c (vBody
    { unForm c with s1 := !vX c, auxOk := if vX c then vAux c = 0 else vAux c < 8192 / elemSize (cmdFormat c) } c
    (fun k => k.putV c (vBits c) (fun _ => if vX c then scalarOf c else srcA k c (vAux c)))) s

/-! ## Loads (R279, R280) -/

def vDq (c : Cmd) : Nat := opf c 104 3
def vWalk (c : Cmd) : Nat := opf c 116 4
def vH (c : Cmd) : Nat := opf c 64 4
def vNcoord (c : Cmd) : Nat := opf c 68 3
def vHx (c : Cmd) : Nat := opf c 124 4
/-- Elements of a slot, and the slots of a command. -/
def vPer (c : Cmd) : Nat := 512 / elemSize (cmdFormat c)
def vSlots (c : Cmd) : Nat := (vVl c * elemSize (cmdFormat c) + 511) / 512

/-- The memory forms. -/
inductive VMem
  | ld
  | gather
  | st
  | scatter
deriving DecidableEq, Repr

/-- Reserved fields of the memory forms, rising (R260). -/
def vmReserved (m : VMem) (c : Cmd) : List (Nat × Nat) :=
  [(71, 1), coordRest 72 (vNcoord c)] ++
    match m with
    | .ld => [(100, 4), (107, 9), (120, 58)]
    | .gather => [(100, 4), (107, 9), (120, 4), (128, 50)]
    | .st => [(100, 8), (115, 1), (120, 16), (140, 1), (143, 19), (175, 3)]
    | .scatter => [(100, 8), (115, 1), (120, 8), (135, 1), (140, 1), (143, 19), (175, 3)]

/-- The coordinates of element j of `vld` and `vst`. -/
def vCoords (r : Run) (c : Cmd) (j : Nat) : List Int :=
  addAt (coordsOf r.e c 72 (vNcoord c)) (vWalk c) (cmdOffset c + j)

/-- The elements of slot k. -/
def vSlotElems (c : Cmd) (k : Nat) : List Nat := (List.range (min (vPer c) (vVl c - k * vPer c))).map (k * vPer c + ·)

/-- Whether a slot's unclipped elements lie in one block: by the extents alone, also for a level handle (R264 does not say; DESIGN CHOICE,
log entry 118). -/
def vOneBlock (h : Shape) (l : List (List Int)) : Bool :=
  let bs := l.filterMap (fun x => (clipCoords h.dims x).map (scaleAddr h))
  bs.all (fun b => b = bs.headD 0)

/-- Limits of the memory forms: the lowest failing field number (R264). -/
def vmLimit (m : VMem) (r : Run) (c : Cmd) (h : Shape) : Option Nat :=
  let size := if m = .scatter then max 4 (elemSize (cmdFormat c)) else elemSize (cmdFormat c)
  if vRangeBad size c then some 1
  else if vWalk c ≥ h.rank || vNcoord c > h.rank then some 5
  else if h.block ≠ 0 && (m = .gather ||
      (m = .ld && !(List.range (vSlots c)).all (fun k => vOneBlock h ((vSlotElems c k).map (vCoords r c))))) then some 6
  else none

/-- The checks of a memory-form command. Where both handles of a gather fail one check, h is named (DESIGN CHOICE, log entry 100). -/
def vmChecks (m : VMem) (r : Run) (c : Cmd) : M Shape := do
  checkReserved c (vmReserved m c)
  checkCapture c ([.h (vH c)] ++ coordNames c 72 (vNcoord c) ++ (if m = .gather then [.h (vHx c)] else []))
  checkShape r.e (vH c)
  if m = .gather then checkShape r.e (vHx c)
  let h := shapeOf (r.e.handle (vH c))
  need (h.type ≠ 3) (.fault 0x03 (vH c) 0)
  if m = .gather then
    let x := shapeOf (r.e.handle (vHx c))
    need (x.type = 0 && x.rank = 1 && (x.fmt = 3 || x.fmt = 4)) (.fault 0x03 (vHx c) 0)
  need (h.fmt = cmdFormat c) (.fault 0x14 (vH c) 0)
  match vmLimit m r c h with
  | some n => throw (.fault 0x04 n 0)
  | none => pure h

/-- The side word of slot k of a load or of `vmov` to a data queue. -/
def vSide (c : Cmd) (k tag : Nat) (clip : Bool) (scale : Nat) : Word :=
  sideWord tag clip (k + 1 = vSlots c) ((vSlotElems c k).length * elemSize (cmdFormat c)) (cmdFormat c) scale

/-- Fills slot k with the elements at their coordinates. -/
def vFillSlot (r : Run) (c : Cmd) (h : Shape) (k : Nat) (l : List (List Int)) : M Unit := do
  let es ← l.mapM (readElem (cachedGet r) h)
  let sc ← slotScale (cachedGet r) h l (es.map (·.2))
  fillSlot r (vDq c) (BitVec.ofNat 4096 (packElems (elemSize (cmdFormat c)) (es.map (·.1))))
    (vSide c k 0 (es.any (·.2)) sc)

def execVld (c : Cmd) (s : State) : Host.Outcome State Fault Refusal :=
  runCommand 0x6C c (fun r => do
    let h ← vmChecks .ld r c
    begin r (some (vDq c, vSlots c)) []
    (List.range (vSlots c)).forM (fun k => vFillSlot r c h k ((vSlotElems c k).map (vCoords r c)))
    pure true) s

/-- The coordinates of element j of `vgather`: its index is read as it is needed. PATCH, the first index position, is signed, as it is in
the other forms; the spec does not say so here, and it shows where hx is circular (R280; DESIGN CHOICE, log entry 128). -/
def gatherCoords (r : Run) (rd : Reader) (c : Cmd) (j : Nat) : M (List Int) := do
  let i ← indexAt rd (shapeOf (r.e.handle (vHx c))) (cmdOffset c + j)
  pure (setNth (coordsOf r.e c 72 (vNcoord c)) (vWalk c) i)

def execVgather (c : Cmd) (s : State) : Host.Outcome State Fault Refusal :=
  runCommand 0x6E c (fun r => do
    let h ← vmChecks .gather r c
    begin r (some (vDq c, vSlots c)) []
    (List.range (vSlots c)).forM (fun k => do
      let l ← (vSlotElems c k).mapM (gatherCoords r (cachedGet r) c)
      vFillSlot r c h k l)
    pure true) s

/-! ## Stores and scatters (R281, R282) -/

def vmVs1 (c : Cmd) : Nat := opf c 108 7

/-- The write of an element; one that clips is dropped and counted (R237). -/
def vPut (r : Run) (h : Shape) (x : List Int) (v : Nat) : M (List Put) := do
  let p ← elemPut (cachedGet r) h x v
  if p.isEmpty then countClip r 1
  pure p

def execVst (c : Cmd) (s : State) : Host.Outcome State Fault Refusal :=
  runCommand 0x6D c (fun r => do
    let h ← vmChecks .st r c
    begin r none []
    let s ← get
    let k := s.tc r.t
    storeAll r false ((k.actives c).map (fun i =>
      vPut r h (vCoords r c (i - vE0 c)) (elemAt (k.vreg (vmVs1 c)) (vBits c) i))) []
    endWord r
    pure true) s

/-- The coordinates of element i of a scatter. -/
def scatterCoords (r : Run) (c : Cmd) (k : TileCtx) (i : Nat) : List Int :=
  addAt (coordsOf r.e c 72 (vNcoord c)) (vWalk c) (signedVal 32 (elemAt (k.vreg (vVs3 c)) 32 i) + cmdOffset c)

/-- One atomic of a scatter or a reduction: tier S or D, else 0x07. -/
def atomicPut (r : Run) (copy : Bool) (f : Nat → Nat → Nat) (p : Put) : M Unit := do
  if r.writes p.va then
    let l ← engineLeafIn (fun t => t = 0 || t = 1) r true copy p.va
    upd (fun s => (s.atomic r.t (s.ctxOf r.t) l p.n (fun old => f old p.v)).1)

/-- Atomics, item by item (R281, R282, R315). -/
def atomicAll (r : Run) (copy : Bool) (f : Nat → Nat → Nat) : List (M (List Put)) → List Put → M Unit :=
  performAll (atomicPut r copy f) r copy

/-- A scatter: `none` for plain writes, else what the home does with the old value and the element. -/
def vScatter (c : Cmd) (f : Option (Nat → Nat → Nat)) (s : State) : Host.Outcome State Fault Refusal :=
  runCommand 0x6F c (fun r => do
    let h ← vmChecks .scatter r c
    begin r none []
    let s ← get
    let k := s.tc r.t
    let items := (k.actives c).map (fun i =>
      vPut r h (scatterCoords r c k i) (elemAt (k.vreg (vmVs1 c)) (vBits c) i))
    match f with
    | none => storeAll r false items []
    | some f => atomicAll r false f items []
    endWord r
    pure true) s

def execVscatter (c : Cmd) (s : State) : Host.Outcome State Fault Refusal := vScatter c none s
def execVscatterAdd (c : Cmd) (s : State) : Host.Outcome State Fault Refusal :=
  vScatter c (some (fun old a => (old + a) % 2 ^ vBits c)) s
def execVscatterMin (c : Cmd) (s : State) : Host.Outcome State Fault Refusal :=
  vScatter c (some (fun old a => if intVal (cmdFormat c) a < intVal (cmdFormat c) old then a else old)) s
def execVscatterMax (c : Cmd) (s : State) : Host.Outcome State Fault Refusal :=
  vScatter c (some (fun old a => if intVal (cmdFormat c) a > intVal (cmdFormat c) old then a else old)) s
def execVscatterFadd (c : Cmd) (s : State) : Host.Outcome State Fault Refusal :=
  vScatter c (some (fun old a => roundF32 ((ofF32 old).add false (ofF32 a)))) s
def execVscatterFmaxabs (c : Cmd) (s : State) : Host.Outcome State Fault Refusal := vScatter c (some fmaxabs) s

/-! ## Moves (R283) -/

def movMode (c : Cmd) : Nat := opf c 144 2
def movSc (c : Cmd) : Bool := opf c 146 1 = 1
def movDq (c : Cmd) : Nat := opf c 148 3
def movScale (c : Cmd) : Nat := c.patch.toNat % 8192

/-- The aux field of `vmov`, with the scale index. -/
def movAuxOk (c : Cmd) : Bool :=
  movMode c ≠ 3 && opf c 147 1 = 0 && opf c 151 9 = 0 && !(movMode c = 0 && (movSc c || movDq c ≠ 0)) &&
    !(movSc c && movScale c + vSlots c > 8192)

/-- Mode 0; mode 3 runs here and is refused by its aux field. Which of its fields count as unused before that the spec does not say: those
of mode 0 (DESIGN CHOICE, log entry 137). -/
def execVmovReg (c : Cmd) (s : State) : Host.Outcome State Fault Refusal :=
  runCommand 0x72 c (vBody { unForm c with auxOk := movAuxOk c } c (fun k => k.putV c (vBits c) (srcA k c))) s

/-- The data of slots as a list of elements: bytes past a slot's length are zero. -/
def slotsElems (c : Cmd) (l : List Slot) : List Nat :=
  let n := 8 * elemSize (cmdFormat c)
  (l.flatMap (fun sl =>
    let d := sl.data.toNat % 2 ^ (8 * field sl.side 16 10)
    (List.range (vPer c)).map (fun j => d / 2 ^ (n * j) % 2 ^ n))).take (vVl c)

/-- Writes consecutive elements. -/
def putElems (v : VReg) (n e0 : Nat) : List Nat → VReg
  | [] => v
  | x :: l => putElems (setElem v n e0 x) n (e0 + 1) l

/-- The elements are written first, the scale bytes over them: it shows where vd is vs2 (R283 does not say; DESIGN CHOICE, log entry 121). -/
def execVmovFromDq (c : Cmd) (s : State) : Host.Outcome State Fault Refusal :=
  runCommand 0x72 c (fun r => do
    vChecks { unForm c with s1 := false, s2 := movSc c, gov := .none, auxOk := movAuxOk c } c
    begin r none [(movDq c, vSlots c)]
    let l ← claimed r (movDq c)
    checkSlots (movDq c) (some (cmdFormat c)) l
    upd (fun s => s.modTc r.t (fun k =>
      let k := k.setV (vVd c) (putElems (k.vreg (vVd c)) (vBits c) (vE0 c) (slotsElems c l))
      if movSc c then
        k.setV (vVs2 c) (putElems (k.vreg (vVs2 c)) 8 (movScale c) (l.map (fun x => field x.side 0 8)))
      else k))
    releaseClaims r
    pure true) s

def execVmovToDq (c : Cmd) (s : State) : Host.Outcome State Fault Refusal :=
  runCommand 0x72 c (fun r => do
    vChecks { unForm c with d := false, s2 := movSc c, gov := .none, auxOk := movAuxOk c } c
    begin r (some (movDq c, vSlots c)) []
    let s ← get
    let k := s.tc r.t
    (List.range (vSlots c)).forM (fun j =>
      fillSlot r (movDq c)
        (BitVec.ofNat 4096 (packElems (elemSize (cmdFormat c)) ((vSlotElems c j).map (fun i => srcA k c (vE0 c + i)))))
        (vSide c j (c.patch.toNat / 2 ^ 32) false (if movSc c then elemAt (k.vreg (vVs2 c)) 8 (movScale c + j) else 127)))
    pure true) s

def execVmovi (c : Cmd) (s : State) : Host.Outcome State Fault Refusal :=
  runCommand 0x72 c (vBody { unForm c with s1 := false } c (fun k => k.putV c (vBits c) (fun _ => scalarOf c))) s

/-! ## Iota and votes (R284, R285) -/

/-- Set bits of a predicate over some elements. -/
def countSet (p : PReg) (l : List Nat) : Nat := (l.filter (fun i => p.getLsbD i)).length

def execViota (c : Cmd) (s : State) : Host.Outcome State Fault Refusal :=
  runCommand 0x70 c (vBody { unForm c with named := [(vVs1 c, 15)] } c (fun k =>
    k.putV c (vBits c) (fun i => countSet (k.preg (vVs1 c)) ((vRange c).filter (· < i))))) s

/-- Writes a vote: `res` from the count of set bits and of active elements. -/
def vVote (c : Cmd) (res : Nat → Nat → Bool) (s : State) : Host.Outcome State Fault Refusal :=
  runCommand 0x71 c (vBody
    { s2 := false, size := 1, auxOk := vAux c = 0, named := [(vVd c, 3), (vVs1 c, 15)] } c (fun k =>
      let l := k.actives c
      let n := countSet (k.preg (vVs1 c)) l
      { k with vt := SMap.set 0 k.vt (vVd c) (BitVec.ofNat 64 (n * 2 ^ 16 + if res n l.length then 1 else 0)) })) s

def execVany (c : Cmd) (s : State) : Host.Outcome State Fault Refusal := vVote c (fun n _ => n > 0) s
def execVall (c : Cmd) (s : State) : Host.Outcome State Fault Refusal := vVote c (fun n m => n = m) s

/-! ## Spans (R287) -/

def vSpans (m : VMem) (r : Run) (rd : Reader) (c : Cmd) : M Spans := do
  let h ← vmChecks m r c
  let walk := (List.range (vVl c)).map (vCoords r c)
  match m with
  | .ld =>
    let w ← elemsSpan rd h walk
    pure ⟨w ++ levelSpans h walk, []⟩
  | .gather =>
    let hx := shapeOf (r.e.handle (vHx c))
    let ix ← elemsSpan rd hx ((List.range (vVl c)).map (fun (j : Nat) => [cmdOffset c + j]))
    let w ← tensorSpan rd h
    pure ⟨w ++ ix, []⟩
  | .st =>
    let w ← elemsSpan rd h walk
    pure ⟨levelSpans h walk, w⟩
  | .scatter =>
    let w ← tensorSpan rd h
    pure ⟨[], w⟩

end Sys2Proof.Machine
end

