-- ==== Sys2Proof/Machine/Anvil.lean ====
section
/-! DEFINITION. The anvil (R289 to R307): leases, planes, products and drains. -/

namespace Sys2Proof.Machine

/-! ## Fields (R294) -/

def anH (c : Cmd) : Nat := opf c 64 4
def anNcoord (c : Cmd) : Nat := opf c 68 3
def anDim (c : Cmd) : Nat := opf c 100 4
def anDq (c : Cmd) : Nat := opf c 104 3
def anM0 (c : Cmd) : Nat := opf c 108 6
def anCnt (c : Cmd) : Nat := opf c 115 7
def anN0 (c : Cmd) : Nat := opf c 122 6
def anE (c : Cmd) : Nat := opf c 128 8
def anT (c : Cmd) : Nat := opf c 136 4
def anE0 (c : Cmd) : Nat := opf c 144 13
def anVd (c : Cmd) : Nat := opf c 160 7
def anVs (c : Cmd) : Nat := opf c 168 7
def anWtag (c : Cmd) : Nat := opf c 176 16
/-- `an.drain`: D, C and AS (R295). -/
def anD (c : Cmd) : Bool := c.sub.getLsbD 0
def anC (c : Cmd) : Bool := c.md.getLsbD 0
def anAs (c : Cmd) : Bool := c.md.getLsbD 1
/-- Elements of a column or a row (R24, R289). -/
def anKp (c : Cmd) : Nat := 512 / elemSize (cmdFormat c)

/-- The fields that an anvil command uses. -/
structure AnForm where
  h : Bool := false
  dim : Bool := false
  dq : Bool := false
  m0 : Bool := false
  cnt : Bool := true
  n0 : Bool := false
  e : Bool := false
  t : Bool := false
  e0 : Bool := false
  vd : Bool := false
  vs : Bool := false
  wtag : Bool := false

def ldwForm : AnForm := { h := true, dim := true, n0 := true }
def swapForm : AnForm := { cnt := false, wtag := true }
def mulForm : AnForm := { dq := true, m0 := true, wtag := true }
def gmulForm : AnForm := { h := true, dim := true, m0 := true, e0 := true, vs := true, wtag := true }
def rowsForm : AnForm := { m0 := true }
def drainForm (c : Cmd) : AnForm :=
  let m8 : Bool := cmdFormat c = 10
  { dq := anD c, m0 := true, e := m8 && !anAs c, t := anAs c, e0 := !anD c, vd := !anD c, vs := !anD c && m8 }

/-! ## Checks when taken (R297) -/

/-- Reserved and unused fields, rising. -/
def anReserved (f : AnForm) (c : Cmd) : List (Nat × Nat) :=
  let free (b : Bool) (p : Nat × Nat) : List (Nat × Nat) := if b then [] else [p]
  (if f.h then [(71, 1), coordRest 72 (anNcoord c)] else [(64, 36)]) ++ free f.dim (100, 4) ++ free f.dq (104, 3) ++
    [(107, 1)] ++ free f.m0 (108, 6) ++ [(114, 1)] ++ free f.cnt (115, 7) ++ free f.n0 (122, 6) ++ free f.e (128, 8) ++
    free f.t (136, 4) ++ [(140, 4)] ++ free f.e0 (144, 13) ++ [(157, 3)] ++ free f.vd (160, 7) ++ [(167, 1)] ++
    free f.vs (168, 7) ++ [(175, 1)] ++ free f.wtag (176, 16)

/-- Limits: the lowest failing field number (R297). -/
def anLimit (f : AnForm) (r : Run) (c : Cmd) : Option Nat :=
  let h := shapeOf (r.e.handle (anH c))
  if f.cnt && (anCnt c = 0 || anCnt c > 64) then some 1
  else if (f.m0 && anM0 c + anCnt c > 64) || (f.n0 && anN0 c + anCnt c > 64) then some 2
  else if f.wtag && anWtag c = 0 then some 3
  else if f.h && (anDim c = 0 || anDim c ≥ h.rank || anNcoord c > h.rank) then some 4
  else if f.e0 && f.vd && anE0 c + 64 * anCnt c > 8192 / elemSize (cmdFormat c) then some 5
  else if f.e0 && !f.vd && anE0 c + anCnt c > 2048 then some 5
  else if f.n0 && h.block ≠ 0 && nth 0 (coordsOf r.e c 72 (anNcoord c)) 0 % (h.block : Int) ≠ 0 then some 6
  else if f.t && anT c > 11 then some 7
  else none

/-- The checks of an anvil command when it is taken. -/
def anChecks (f : AnForm) (r : Run) (c : Cmd) : M Unit := do
  checkReserved c (anReserved f c)
  if f.h then
    checkCapture c ([.h (anH c)] ++ coordNames c 72 (anNcoord c))
    checkShape r.e (anH c)
    let h := shapeOf (r.e.handle (anH c))
    need (h.type = 0) (.fault 0x03 (anH c) 0)
    need (h.fmt = cmdFormat c) (.fault 0x14 (anH c) 0)
  match anLimit f r c with
  | some n => throw (.fault 0x04 n 0)
  | none => pure ()

/-- Starts a leasing command, unless it has been started before: its demands are checked as it is taken (R297), then its tile
holds the lease with a count above 0, which the start lowers (R291). -/
def anStart (r : Run) (pops : List (Nat × Nat)) : M Unit := do
  if r.e.st = .running then pure ()
  else do
    demandChecks none pops
    let s ← get
    let a := s.anvil (clusterOf r.t)
    need (a.holder = some (positionOf r.t) && a.count ≠ 0) (.hold 3)
    takeSlots r none pops
    upd (fun s => s.modAnvil (clusterOf r.t) (fun a => { a with count := a.count - 1 }))
    need (!r.only) .begun

/-! ## Leases (R292, R293) -/

/-- `an.lease`: gives up the lease, sets LL, requests, and is in progress until the grant; its start is its whole work. -/
def execAnLease (c : Cmd) (s : State) : Host.Outcome State Fault Refusal :=
  runCommand 0x80 c (fun r => do
    need (r.e.st ≠ .running) (.hold 3)
    anChecks {} r c
    upd (fun s =>
      let s := (s.endLease r.t).modTc r.t (fun k => { k with ll := anCnt c })
      (s.dropLeaseRequest r.t).requestLease r.t (anCnt c))
    pure false) s

def execAnFree (c : Cmd) (s : State) : Host.Outcome State Fault Refusal :=
  runCommand 0x87 c (fun r => do
    anChecks { cnt := false } r c
    begin r none []
    upd (fun s => s.endLease r.t)
    pure true) s

/-- The request that is granted next: cyclic order from the position after the last holder (R292). -/
def nextLease (a : Anvil) : Option (Nat × Nat) :=
  [a.last + 1, a.last + 2, a.last + 3, a.last + 4].findSome? (fun p => a.requests.find? (fun r => r.1 = p % 4))

/-- Whether the lease of a cluster can be granted: it is free, or pre-emption has ended it (R292, R307). Where a started `an.lease` of
another tile waits at a pre-emption it is granted the lease over the first holder, whose remaining count is lost, and its tile is the
holder that is recorded: the spec does not say which (DESIGN CHOICE, log entry 130). -/
def State.leaseFree (s : State) (k : Nat) : Bool :=
  match (s.anvil k).holder with
  | none => true
  | some p =>
    let t := tileAt k p
    (s.ctx (s.ctxOf t)).st = .preempting && !s.leaseBusy t

/-- The anvil grants a free lease; an `an.lease` of the tile that is in progress completes its effect. -/
def execLeaseGrant (k : Nat) (s : State) : Host.Outcome State Fault Refusal :=
  let a := s.anvil k
  let a := { a with last := a.holder.getD a.last }
  match nextLease a with
  | none => .next s
  | some (p, n) =>
    if !s.leaseFree k then .next s
    else
      let s := s.setAnvil k { a with holder := some p, count := n, since := s.clk,
                                     requests := a.requests.filter (fun r => r.1 ≠ p) }
      .next (s.modTc (tileAt k p) (fun c => c.modQueue 0 (fun q =>
        { q with entries := q.entries.map (fun e =>
            if field e.w 0 8 = 0x80 && e.st = .running then { e with st := .done, why := 0 } else e) })))

/-- Whether a leasing command of a tile runs or heads its compute stream, the next there to start: its lease is not idle (R292). -/
def State.leaseActive (s : State) (t : Nat) : Bool :=
  let headed := (s.queue t 0).entries.find? (fun e => inStream 0 false e && e.st = .taken)
  s.leaseBusy t || (headed.map (fun e => leasing e.w)).getD false

/-- The idle time of a lease expires: no leasing command of the holder runs or heads its compute stream (R292). The lease of a
context that is pre-empted ends with its last started command and is recorded then (R307). -/
def execLeaseIdleExpiry (k : Nat) (s : State) : Host.Outcome State Fault Refusal :=
  let a := s.anvil k
  match a.holder with
  | none => .next s
  | some p =>
    let t := tileAt k p
    if !s.leaseActive t && (s.ctx (s.ctxOf t)).st ≠ .preempting && a.since + s.dev.settings.leaseIdle ≤ s.clk then
      .next (s.endLease t) else .next s

/-! ## Planes (R289, R298, R299) -/

def Plane.col (p : Plane) (n : Nat) : Row := SMap.get 0 p.w n
def Plane.blockOf (p : Plane) (n : Nat) : Nat := SMap.get 512 p.b n
def Plane.scaleOf (p : Plane) (n j : Nat) : Nat := (SMap.get 127 p.scale (n * 16 + j)).toNat

/-- Writes a column: its bytes, block size and scales. -/
def Plane.setCol (p : Plane) (n : Nat) (w : Row) (b : Nat) (scales : List Nat) : Plane :=
  { p with w := SMap.set 0 p.w n w, b := SMap.set 512 p.b n b,
           scale := (scales.zip (List.range scales.length)).foldl
             (fun (m : SMap Byte) x => SMap.set 127 m (n * 16 + x.2) (BitVec.ofNat 8 x.1)) p.scale }

/-- The coordinates of weight k of column offset j. -/
def ldwCoords (r : Run) (c : Cmd) (k j : Nat) : List Int :=
  addAt (addAt (coordsOf r.e c 72 (anNcoord c)) 0 k) (anDim c) j

/-- The block size of a loaded column. -/
def ldwBlock (c : Cmd) (h : Shape) : Nat := if h.block ≠ 0 then h.block else anKp c

/-- The scale of the block of an element of a blocked handle; 127 where it clips or is unblocked. -/
def elemScale (rd : Reader) (h : Shape) (x : List Int) : M Nat := do
  match ← elemAddr rd h x, clipCoords h.dims x with
  | some _, some xs => if h.block = 0 then pure 127 else rd (scaleAddr h xs) 1
  | _, _ => pure 127

/-- Reads column offset j. -/
def ldwColumn (r : Run) (c : Cmd) (h : Shape) (j : Nat) : M (Row × List Nat) := do
  let rd : Reader := cachedGet r
  let ws ← (List.range (anKp c)).mapM (fun k => do let (v, _) ← readElem rd h (ldwCoords r c k j); pure v)
  let b := ldwBlock c h
  let sc ← (List.range (anKp c / b)).mapM (fun i =>
    if h.block = 0 then pure 127 else elemScale rd h (ldwCoords r c (i * b) j))
  pure (BitVec.ofNat 4096 (packElems (elemSize (cmdFormat c)) ws), sc)

/-- Free bits of a row. -/
def freeRow : Nat → State → Nat × State
  | 0, s => (0, s)
  | n + 1, s =>
    let (w, s) := s.free
    let (x, s) := freeRow n s
    (w.toNat + 2 ^ 64 * x, s)

/-- The named columns become unpredictable after a fault: free weights and scales, and one of the block sizes of R289
(R298). -/
def State.scrambleColumns (s : State) (k : Nat) (c : Cmd) : State :=
  (List.range (anCnt c)).foldl (fun (s : State) j =>
    let (w, s) := freeRow 64 s
    let (sc, s) := freeRow 2 s
    let (x, s) := s.free
    let b := 32 * 2 ^ (x.toNat % 5)
    let scales := (List.range 16).map (fun i => sc / 256 ^ i % 256)
    s.modAnvil k (fun a => { a with shadow := a.shadow.setCol (anN0 c + j) (BitVec.ofNat 4096 w) b scales })) s

def execAnLdw (c : Cmd) (s : State) : Host.Outcome State Fault Refusal :=
  runCommand 0x81 c (fun r => do
    anChecks ldwForm r c
    anStart r []
    let h := shapeOf (r.e.handle (anH c))
    let k := clusterOf r.t
    upd (fun s => s.modAnvil k (fun a => { a with shadow := { a.shadow with tag := 0, bf16 := decide (cmdFormat c = 9) } }))
    let load : M Unit := (List.range (anCnt c)).forM (fun j => do
      let (w, sc) ← ldwColumn r c h j
      upd (fun s => s.modAnvil k (fun a => { a with shadow := a.shadow.setCol (anN0 c + j) w (ldwBlock c h) sc })))
    fun s =>
      match load s with
      | .ok _ s' => .ok true s'
      | .error (.fault code detail addr) s' =>
        .error (.fault code detail addr) (s'.scrambleColumns k c)
      | .error e s' => .error e s') s

def execAnSwap (c : Cmd) (s : State) : Host.Outcome State Fault Refusal :=
  runCommand 0x82 c (fun r => do
    anChecks swapForm r c
    anStart r []
    upd (fun s => s.modAnvil (clusterOf r.t) (fun a =>
      { a with active := { a.shadow with tag := anWtag c }, shadow := a.active }))
    pure true) s

/-! ## Accumulators and products (R290, R300, R301) -/

/-- The element number of row m, column n. -/
def accIndex (m n : Nat) : Nat := m * 64 + n

/-- The chains of an element: none where empty. -/
def TileCtx.chainOf (k : TileCtx) (odd : Bool) (m n : Nat) : Option Nat :=
  (SMap.find? (if odd then k.a1 else k.a0) (accIndex m n)).map (·.toNat)

/-- Sets or empties an element of an accumulator tile. -/
def setChain (a : SMap Word32) (m n : Nat) (v : Option Nat) : SMap Word32 :=
  match v with
  | none => SMap.del a (accIndex m n)
  | some v => SMap.put a (accIndex m n) (BitVec.ofNat 32 v)

/-- An activation: its value and its scale; none where it is masked. -/
abbrev Act := Option (Fl × Nat)

/-- The value of element k of a column. -/
def Plane.weight (p : Plane) (n k : Nat) : Fl :=
  if p.bf16 then ofBf16 (elemAt (p.col n) 16 k) else ofM8 (elemAt (p.col n) 8 k)

/-- Adds the products of a row of activations with one column to the chains of an element. -/
def addProducts (p : Plane) (n : Nat) (row : List Act) (even odd : Option Nat) : Option Nat × Option Nat :=
  (row.zip (List.range row.length)).foldl (fun (acc : Option Nat × Option Nat) x =>
    match x.1 with
    | none => acc
    | some (a, ea) =>
      let v := product a (p.weight n x.2) (scaleSum (scaleExp ea) (scaleExp (p.scaleOf n (x.2 / p.blockOf n))))
      if x.2 % 2 = 0 then (chainAdd acc.1 v, acc.2) else (acc.1, chainAdd acc.2 v)) (even, odd)

/-- Adds a row into accumulator row m. -/
def TileCtx.addRow (k : TileCtx) (p : Plane) (m : Nat) (row : List Act) : TileCtx :=
  (List.range 64).foldl (fun (k : TileCtx) n =>
    let r := addProducts p n row (k.chainOf false m n) (k.chainOf true m n)
    { k with a0 := setChain k.a0 m n r.1, a1 := setChain k.a1 m n r.2 }) k

/-- Adds rows into accumulator rows from m0. -/
def addRows (r : Run) (c : Cmd) (rows : List (List Act)) : M Unit :=
  upd (fun s =>
    let p := (s.anvil (clusterOf r.t)).active
    s.modTc r.t (fun k => (rows.zip (List.range rows.length)).foldl
      (fun (k : TileCtx) x => k.addRow p (anM0 c + x.2) x.1) k))

/-- The start checks on the active plane: tag 0x10, format 0x17 (R300). -/
def planeChecks (r : Run) (c : Cmd) : M Unit := do
  let s ← get
  let p := (s.anvil (clusterOf r.t)).active
  need (p.tag = anWtag c) (.fault 0x10 0 0)
  need (p.bf16 = (cmdFormat c = 9 : Bool)) (.fault 0x17 0 0)

/-- The activations of a slot: those past its length are masked. -/
def slotActs (c : Cmd) (sl : Slot) : List Act :=
  let sz := elemSize (cmdFormat c)
  (List.range (anKp c)).map (fun k =>
    if k * sz ≥ field sl.side 16 10 then none
    else some (ofElem (cmdFormat c) (elemAt sl.data (8 * sz) k), field sl.side 0 8))

def execAnMul (c : Cmd) (s : State) : Host.Outcome State Fault Refusal :=
  runCommand 0x83 c (fun r => do
    anChecks mulForm r c
    anStart r [(anDq c, anCnt c)]
    let l ← claimed r (anDq c)
    checkSlots (anDq c) (some (cmdFormat c)) l
    planeChecks r c
    addRows r c (l.map (slotActs c))
    releaseClaims r
    pure true) s

/-- The coordinates of position k of the row at index j. -/
def gmulCoords (r : Run) (c : Cmd) (j : Int) (k : Nat) : List Int :=
  let x := coordsOf r.e c 72 (anNcoord c)
  setNth (addAt x (anDim c) j) 0 (nth 0 x 0 + k)

/-- Reads an activation through a handle; one that clips is masked. -/
def readAct (rd : Reader) (h : Shape) (x : List Int) : M Act := do
  match ← elemAddr rd h x with
  | none => pure none
  | some (a, _) =>
    let v ← rd a (elemSize h.fmt)
    let e ← elemScale rd h x
    pure (some (ofElem h.fmt v, e))

def execAnGmul (c : Cmd) (s : State) : Host.Outcome State Fault Refusal :=
  runCommand 0x84 c (fun r => do
    anChecks gmulForm r c
    anStart r []
    planeChecks r c
    let h := shapeOf (r.e.handle (anH c))
    let s ← get
    let vs := (s.tc r.t).vreg (anVs c)
    let rows ← (List.range (anCnt c)).mapM (fun i =>
      let j := signedVal 32 (elemAt vs 32 (anE0 c + i))
      (List.range (anKp c)).mapM (fun k => readAct (cachedGet r) h (gmulCoords r c j k)))
    addRows r c rows
    pure true) s

/-! ## Closing and draining (R302, R303) -/

/-- The rows that a command names. -/
def anRows (c : Cmd) : List Nat := (List.range (anCnt c)).map (anM0 c + ·)

/-- Empties rows. -/
def TileCtx.zeroRows (k : TileCtx) (c : Cmd) : TileCtx :=
  let keep (a : SMap Word32) : SMap Word32 := a.filter (fun p => !(anM0 c ≤ p.1 / 64 && p.1 / 64 < anM0 c + anCnt c))
  { k with a0 := keep k.a0, a1 := keep k.a1 }

def execAnZero (c : Cmd) (s : State) : Host.Outcome State Fault Refusal :=
  runCommand 0x88 c (fun r => do
    anChecks rowsForm r c
    begin r none []
    upd (fun s => s.modTc r.t (fun k => k.zeroRows c))
    pure true) s

def execAnClose (c : Cmd) (s : State) : Host.Outcome State Fault Refusal :=
  runCommand 0x85 c (fun r => do
    anChecks rowsForm r c
    begin r none []
    upd (fun s => s.modTc r.t (fun k =>
      (anRows c).foldl (fun (k : TileCtx) m => (List.range 64).foldl (fun (k : TileCtx) n =>
        let v := closeChains (k.chainOf false m n) (k.chainOf true m n)
        { k with a0 := setChain k.a0 m n (some v), a1 := setChain k.a1 m n none }) k) k))
    pure true) s

/-- The tile's drain generator as a command finds it (R40, R41). -/
def TileCtx.seeded2 (k : TileCtx) (seq : Nat) : TileCtx :=
  let p := passReseeds k.gen2 seq k.reseed2
  { k with gen2 := p.1, reseed2 := p.2 }

/-- Converts values to m8 with a scale, drawing in order. -/
def drainM8 (e : Nat) : List Nat → Word → List Nat × Word
  | [], g => ([], g)
  | v :: l, g =>
    let x := if e = 255 then (0x80, g) else toM8 ((ofF32 v).scale (127 - (e : Int))) g
    let r := drainM8 e l x.2
    (x.1 :: r.1, r.2)

/-- The values of a row of a0, empty elements as +0. -/
def TileCtx.rowValues (k : TileCtx) (m : Nat) : List Nat := (List.range 64).map (fun n => (k.chainOf false m n).getD 0)

/-- The scale of a drained row. -/
def drainScale (c : Cmd) (l : List Nat) : Nat :=
  if anAs c then
    deriveScale (l.foldl (fun (m : Fl) v => if ofF32 v = .nan then m else m.max2 (ofF32 v).abs) (.fin false 0 0)) (anT c)
  else anE c

/-- Drains row offset i: its elements, its scale and the generator after it. -/
def TileCtx.drainRow (k : TileCtx) (c : Cmd) (i : Nat) : List Nat × Nat × Word :=
  let v := k.rowValues (anM0 c + i)
  if cmdFormat c = 10 then
    let e := drainScale c v
    let r := drainM8 e v k.gen2
    (r.1, e, r.2)
  else if cmdFormat c = 9 then (v.map (fun x => roundBf16 (ofF32 x)), 127, k.gen2)
  else (v, 127, k.gen2)

/-- Writes a drained row out. -/
def drainOut (r : Run) (c : Cmd) (i : Nat) : M Unit := do
  let s ← get
  let (o, e, g) := (s.tc r.t).drainRow c i
  let sz := elemSize (cmdFormat c)
  upd (fun s => s.modTc r.t (fun k => { k with gen2 := g }))
  if anD c then
    fillSlot r (anDq c) (BitVec.ofNat 4096 (packElems sz o))
      (sideWord (c.patch.toNat % 2 ^ 32) false (i + 1 = anCnt c) (64 * sz) (cmdFormat c) e)
  else
    upd (fun s => s.modTc r.t (fun k =>
      let k := k.setV (anVd c) (putElems (k.vreg (anVd c)) (8 * sz) (anE0 c + 64 * i) o)
      if cmdFormat c = 10 then k.setV (anVs c) (setElem (k.vreg (anVs c)) 8 (anM0 c + i) e) else k))

def execAnDrain (c : Cmd) (s : State) : Host.Outcome State Fault Refusal :=
  runCommand 0x86 c (fun r => do
    anChecks (drainForm c) r c
    begin r (if anD c then some (anDq c, anCnt c) else none) []
    let s ← get
    let k := s.tc r.t
    (List.range (anCnt c)).forM (fun i =>
      need ((List.range 64).all (fun n => k.chainOf true (anM0 c + i) n = none)) (.fault 0x18 i 0))
    if cmdFormat c = 10 then upd (fun s => s.modTc r.t (fun k => k.seeded2 r.e.seq))
    (List.range (anCnt c)).forM (drainOut r c)
    if anC c then upd (fun s => s.modTc r.t (fun k => k.zeroRows c))
    pure true) s

/-! ## Spans (R305) -/

/-- The scale bytes of a whole tensor. -/
def scaleSpan (h : Shape) : List Span :=
  if h.block = 0 then []
  else
    let nb := ((nth ⟨0, false, 0⟩ h.dims 0).extent + h.block - 1) / h.block
    [(h.scale, h.scale + nb * (h.dims.drop 1).foldl (fun n d => n * d.extent) 1 - 1)]

def ldwSpans (r : Run) (rd : Reader) (c : Cmd) : M Spans := do
  anChecks ldwForm r c
  let h := shapeOf (r.e.handle (anH c))
  let w ← elemsSpan rd h ((List.range (anCnt c)).flatMap (fun j => (List.range (anKp c)).map (fun k => ldwCoords r c k j)))
  let b := ldwBlock c h
  let sc := if h.block = 0 then [] else
    (List.range (anCnt c)).flatMap (fun j => (List.range (anKp c / b)).filterMap (fun i =>
      (clipCoords h.dims (ldwCoords r c (i * b) j)).map (scaleAddr h)))
  pure ⟨w ++ (match sc with | [] => [] | a :: t => [(t.foldl min a, t.foldl max a)]), []⟩

def gmulSpans (r : Run) (rd : Reader) (c : Cmd) : M Spans := do
  anChecks gmulForm r c
  let h := shapeOf (r.e.handle (anH c))
  let w ← tensorSpan rd h
  pure ⟨w ++ scaleSpan h, []⟩

end Sys2Proof.Machine
end

