-- ==== Sys2Proof/Machine/Csr.lean ====
section
/-! DEFINITION. The control and status registers of the harts (R17, R42, R50, R52, R116, R140, R141, R157, R158,
R181, R191 to R193, R216, R251, R318, R349, R356, R366, R373, R402, R403): the value each reads and what a write
does. An access that a register's table does not allow answers none: an illegal instruction. -/

namespace Sys2Proof.Machine

/-! ## Groups and scopes (R183 to R193) -/

/-- Members of a map. -/
def popCount (w : BitVec 512) : Nat := (List.range 512).foldl (fun n i => if w.getLsbD i then n + 1 else n) 0

/-- `grpmine` (R192). -/
def Context.groupsOf (x : Context) (ctile : Nat) : Word :=
  let mine := (x.groups.filter (fun p => p.2.getLsbD ctile)).take 4
  BitVec.ofNat 64 ((mine.zip (List.range 4)).foldl (fun acc p => acc + (2 ^ 15 + p.1.1 % 256) * 2 ^ (16 * p.2)) 0)

/-- The group that `grpsel` selects. -/
def selectedGroup (x : Context) (sel : Word) : BitVec 512 := SMap.get 0 x.groups (field sel 8 8)

/-- `grpword`, `grpinfo` and `scpinfo` (R193). -/
def grpword (x : Context) (sel : Word) : Word := bits (selectedGroup x sel) (64 * field sel 0 3) 64
def grpinfo (x : Context) (sel : Word) : Word :=
  let g := selectedGroup x sel
  BitVec.ofNat 64 (popCount g + if g = 0 then 0 else 2 ^ 16)
def scpinfo (x : Context) (sel : Word) : Word :=
  let n := field sel 16 5
  putBit (SMap.get 0 x.scopes n) 63 (x.scopeBound n)

/-! ## Status words -/

/-- `kstage` (R181). -/
def Context.kstage (x : Context) (ctile : Nat) : Word :=
  match x.kernel with
  | none => 0
  | some k =>
    match SMap.find? k.bound ctile with
    | none => 0
    | some b =>
      BitVec.ofNat 64 ((k.bound.filter (fun p => p.2.stage = b.stage)).length % 1024 * 2 ^ 32 +
        (if b.mark.isSome then 2 ^ 16 else 0) + 16 + b.stage % 16)

/-- `rxstat` (R373). -/
def Context.rxstat (x : Context) : Word :=
  BitVec.ofNat 64 (x.drops * 2 ^ 32 + x.parked.length % 65536 * 2 ^ 16 + x.posted.length % 2048)

/-- `tkval` (R216). -/
def Token.value (t : Token) : Word := BitVec.ofNat 64 (t.waiters.length * 2 ^ 32 + t.count)

/-- Word k of a fault record (R157). -/
def FaultRecord.word (r : FaultRecord) (k : Nat) : Word :=
  match k with
  | 0 => BitVec.ofNat 64 (r.detail.toNat * 2 ^ 40 + r.code.toNat * 2 ^ 24 +
      (if r.m then 2 ^ 16 else 0) + (if r.s then 1 else 0))
  | 1 => r.hdr.setWidth 64
  | 2 => r.tlv
  | _ => r.addr

/-! ## Machine-mode registers (R50; PRESUMED, log entry 93) -/

/-- The machine-mode CSRs that hold what is written, each with the bits it holds: mstatus (MIE, MPIE, MPP, FS, MPRV, TW), mie, mtvec,
mcounteren, menvcfg (FIOM), mscratch, mepc, mcause and mtval. -/
def machineMask (csr : Nat) : Option Word :=
  match csr with
  | 0x300 => some 0x227888
  | 0x304 => some 0x888
  | 0x305 => some (~~~2)
  | 0x306 => some 7
  | 0x30A => some 1
  | 0x340 | 0x342 | 0x343 => some (BitVec.allOnes 64)
  | 0x341 => some (~~~3)
  | _ => none

/-- mhpmcounter3 to 31 and mhpmevent3 to 31, which read zero and ignore writes. -/
def hardwiredCounter (csr : Nat) : Bool := (0xB03 ≤ csr && csr ≤ 0xB1F) || (0x323 ≤ csr && csr ≤ 0x33F)

/-- mstatus as it reads: UXL says 64 bits, and SD sums up FS. -/
def Hart.mstatus (x : Hart) : Word :=
  let st := x.mreg 0x300
  putBit (putBit st 33 true) 63 (field st 13 2 = 3)

/-- What mstatus holds of a value: MPP one that names a mode, machine or else user, and FS off or dirty. -/
def mstatusOf (v : Word) : Word :=
  let v := if field v 11 2 = 3 then v else putBit (putBit v 11 false) 12 false
  if field v 13 2 = 0 then v else putBit (putBit v 13 true) 14 true

/-- The value of a machine-mode CSR; none where the number names none. -/
def Hart.readMachine (x : Hart) (csr : Nat) : Option Word :=
  match machineMask csr with
  | some _ => some (if csr = 0x300 then x.mstatus else x.mreg csr)
  | none =>
    if hardwiredCounter csr then some 0
    else match csr with
    | 0x344 => some 0
    | 0xB00 => some x.cycle
    | 0xB02 => some x.instret
    | 0xF11 | 0xF12 | 0xF13 | 0xF15 => some (Config.machineId csr)
    | _ => none

/-- A write to a machine-mode CSR; none where it is illegal. -/
def Hart.writeMachine (x : Hart) (k : CsrKind) (csr : Nat) (v : Word) : Option Hart :=
  match machineMask csr with
  | some m =>
    let n := csrNew k (x.mreg csr) v &&& m
    some (x.setMreg csr (if csr = 0x300 then mstatusOf n else n))
  | none =>
    if hardwiredCounter csr then some x
    else match csr with
    | 0x344 => some x
    | 0xB00 => some { x with cycle := csrNew k x.cycle v }
    | 0xB02 => some { x with instret := csrNew k x.instret v }
    | _ => none

/-- `mret`: the pc is that of mepc, the mode that of MPP, MPIE goes to MIE and is set, MPP names user mode, and a return to user mode
clears MPRV. -/
def Hart.machineReturn (x : Hart) : Hart :=
  let st := x.mreg 0x300
  let machine : Bool := field st 11 2 = 3
  let back := putBit (putBit (putBit (putBit st 3 (st.getLsbD 7)) 7 true) 11 false) 12 false
  let back := if machine then back else putBit back 17 false
  { x.setMreg 0x300 back with pc := x.mreg 0x341, machine := machine, instret := x.instret + 1, run := .running }

/-- Whether FS is off, so that no instruction reaches the floating-point state. -/
def Hart.floatOff (x : Hart) : Bool := field (x.mreg 0x300) 13 2 = 0

/-- Whether mcounteren keeps a counter from user mode. -/
def Hart.counterOff (x : Hart) (csr : Nat) : Bool :=
  !x.machine && 0xC00 ≤ csr && csr ≤ 0xC02 && !(x.mreg 0x306).getLsbD (csr - 0xC00)

/-- Whether a CSR is part of the floating-point state. -/
def floatCsr (csr : Nat) : Bool := 1 ≤ csr && csr ≤ 3

/-- Whether an instruction reaches the floating-point state: those of the F extension, and the constants. -/
def usesFloat (i : Instr) : Bool :=
  match i with
  | .baseInstruction (.fma _ _ _ _ _ _) | .baseInstruction (.farith _ _ _ _ _) | .baseInstruction (.fsqrt _ _ _)
  | .baseInstruction (.fsgn _ _ _ _) | .baseInstruction (.fminmax _ _ _ _) | .baseInstruction (.fcmp _ _ _ _)
  | .baseInstruction (.fcvtToInt _ _ _ _) | .baseInstruction (.fcvtFromInt _ _ _ _) | .baseInstruction (.fmvXW _ _)
  | .baseInstruction (.fmvWX _ _) | .baseInstruction (.fclass _ _) => true
  | .plainLoad .flw _ _ _ | .plainStore .fsw _ _ _ => true
  | .fimmS _ _ | .flitS _ _ | .fconstS _ _ => true
  | _ => false

/-- The CSR that an instruction names. -/
def csrOf (i : Instr) : Option Nat :=
  match i with
  | .baseInstruction (.csrRead c) | .csrWrite c => some c.csr.toNat
  | _ => none

/-- Whether the machine-mode registers make an instruction illegal: FS off for the floating-point state, mcounteren for a counter that user
mode reads (R50, log entry 93). -/
def Hart.bars (x : Hart) (i : Instr) : Bool :=
  (x.floatOff && (usesFloat i || (csrOf i).any floatCsr)) || (csrOf i).any x.counterOff

/-! ## Reading -/

/-- The value that a hart reads from a CSR; none where the access is illegal. Machine-mode CSRs read in machine mode
alone (R17, R52). -/
def readCsr (s : State) (h : HartId) (csr : Nat) : Option Word :=
  let x := s.hart h
  let t := s.tc h.tile
  let c := s.ctx (s.ctxOf h.tile)
  match csr with
  | 0x001 => some (x.fflags.setWidth 64)
  | 0x002 => some (x.frm.setWidth 64)
  | 0x003 => some ((x.frm ++ x.fflags).setWidth 64)
  | 0x301 => if x.machine then some 0x8000000000901120 else none
  | 0xF14 => if x.machine then some (BitVec.ofNat 64 (2 * h.tile + if h.move then 1 else 0)) else none
  | 0xC00 => some x.cycle
  | 0xC01 => some (BitVec.ofNat 64 s.clk)
  | 0xC02 => some x.instret
  | 0x8C0 => if h.move then none else some 0
  | 0x8C1 => some (t.tlerr.setWidth 64)
  | 0x8C4 => some x.ctxvec
  | 0x8C5 => some x.ctxepc
  | 0x8C6 => some x.ctxcause
  | 0x8C7 => some x.ctxval
  | 0x8C8 => some x.ctxscr
  | 0x8C9 => some x.ctxstat
  | 0x8CA => some 0
  | 0x8CB => some x.grpsel
  | 0x8CC => some (t.tkov.setWidth 64)
  | 0x8CD => some (t.bkovf.setWidth 64)
  | 0xCC0 => some c.cfg.rndseed
  | 0xCC1 => some (BitVec.ofNat 64 (s.ctxOf h.tile))
  | 0xCC2 => some (BitVec.ofNat 64 (h.tile * 2 ^ 16 + s.ctileOf h.tile))
  | 0xCC3 => some (BitVec.ofNat 64 (4 * c.clusters.length))
  | 0xCC4 => some (BitVec.ofNat 64 c.clip)
  | 0xCC5 => some (BitVec.ofNat 64 c.ecc)
  | 0xCC6 => some (c.kstage (s.ctileOf h.tile))
  | 0xCC7 => some (c.groupsOf (s.ctileOf h.tile))
  | 0xCC8 => some (grpword c x.grpsel)
  | 0xCC9 => some (grpinfo c x.grpsel)
  | 0xCCA => some (scpinfo c x.grpsel)
  | 0xCCB => some t.cpstat
  | 0xCCC => some (BitVec.ofNat 64 c.cfg.mvwait)
  | 0xCCD => some (BitVec.ofNat 64 c.cfg.wfmbox)
  | 0xCCE => some (BitVec.ofNat 64 c.cfg.wfbudget)
  | 0xCCF => some t.msgstat
  | 0xCDC => some c.rxstat
  | 0xCDD => some (BitVec.ofNat 64 c.lost)
  | n =>
    if 0xCD0 ≤ n && n < 0xCDC then some ((t.queue ((n - 0xCD0) / 4)).record.word ((n - 0xCD0) % 4))
    else if 0xCE0 ≤ n && n < 0xCF0 then some (t.token (n - 0xCE0)).value
    else if x.machine then x.readMachine n
    else none

/-! ## Writing -/

/-- What a write to `qrec` asks for: the queue and act, by the rules of a WO field (R158, R403); none where
nothing is written. -/
def qrecWrite (k : CsrKind) (v : Word) : Option (BitVec 2 × Bool) :=
  match k with
  | .rc => none
  | _ => some (bits v 0 2, v.getLsbD 8)

/-- What a CSR write does to the state of its hart and tile; none where it is illegal (R6, R140, R403). -/
def writeCsr (s : State) (h : HartId) (k : CsrKind) (csr : Nat) (v : Word) : Option State :=
  let x := s.hart h
  match csr with
  | 0x001 => some (s.setHart h { x with fflags := bits (csrNew k (x.fflags.setWidth 64) v) 0 5 })
  | 0x002 => some (s.setHart h { x with frm := bits (csrNew k (x.frm.setWidth 64) v) 0 3 })
  | 0x003 =>
    let n := csrNew k ((x.frm ++ x.fflags).setWidth 64) v
    some (s.setHart h { x with fflags := bits n 0 5, frm := bits n 5 3 })
  | 0x301 => if x.machine then some s else none
  | 0x8C1 => some (s.modTc h.tile (fun t => { t with tlerr := w1c k t.tlerr (bits v 0 7) }))
  | 0x8C4 => some (s.setHart h { x with ctxvec := csrNew k x.ctxvec v &&& 0x3FFFD })
  | 0x8C5 => some (s.setHart h { x with ctxepc := csrNew k x.ctxepc v &&& pcMask })
  | 0x8C7 => some (s.setHart h { x with ctxval := csrNew k x.ctxval v })
  | 0x8C8 => some (s.setHart h { x with ctxscr := csrNew k x.ctxscr v })
  | 0x8C9 => some (s.setHart h { x with ctxstat := putBit x.ctxstat 5 ((csrNew k x.ctxstat v).getLsbD 5) })
  | 0x8CA =>
    match qrecWrite k v with
    | none => some s
    | some (q, flush) =>
      if (h.move && (q = 1 || q = 2)) || (!h.move && q = 0) then
        some (if (s.queue h.tile q.toNat).faulted then s.setWait h (.qrec q flush) else s)
      else none
  | 0x8CB => some (s.setHart h { x with grpsel := csrNew k x.grpsel v &&& 0x1FFF07 })
  | 0x8CC => some (s.modTc h.tile (fun t => { t with tkov := w1c k t.tkov (bits v 0 16) }))
  | 0x8CD => some (s.modTc h.tile (fun t => { t with bkovf := w1c k t.bkovf (bits v 0 32) }))
  | n => if x.machine then (x.writeMachine k n v).map (s.setHart h) else none

/-- The operand of a CSR instruction. -/
def csrOperand (c : CsrOp) (x : Hart) : Word := if c.imm then c.src.setWidth 64 else x.readX c.src

/-- The illegal-instruction trap as an outcome. -/
def State.illegalAt (s : State) (h : HartId) : State :=
  s.takeTrap h false 2 0 ((s.fetchWord h).setWidth 64)

/-- A Zicsr instruction that makes no write (R403). -/
def csrReadStep (s : State) (h : HartId) (c : CsrOp) : State :=
  match readCsr s h c.csr.toNat with
  | none => s.illegalAt h
  | some old => (s.writeX h c.rd old).retire h ((s.hart h).pc + 4)

/-- A Zicsr instruction retires; a write of minstret stands in place of its own count (R50; log entry 93). -/
def State.retireCsr (s : State) (h : HartId) (csr : Nat) (pc : Word) : State :=
  let u := s.retire h pc
  if csr = 0xB02 then u.modHart h (fun x => { x with instret := (s.hart h).instret }) else u

/-- A Zicsr instruction that writes: the old value goes to rd, the write takes effect (R403); a hart that a write
of `qrec` stalls retires when the recovery is complete (R158). -/
def csrWriteStep (s : State) (h : HartId) (c : CsrOp) : State :=
  let v := csrOperand c (s.hart h)
  match readCsr s h c.csr.toNat, writeCsr s h c.kind c.csr.toNat v with
  | some old, some s' =>
    let s'' := s'.writeX h c.rd old
    match (s''.hart h).run with
    | .waiting (.qrec _ _) => s''
    | _ => s''.retireCsr h c.csr.toNat ((s.hart h).pc + 4)
  | _, _ => s.illegalAt h

end Sys2Proof.Machine
end

