-- ==== Sys2Proof/Machine/Base.lean ====
section
/-! DEFINITION. The standard instructions of the harts: RV64IMF, Zicsr, Zifencei and Zicntr (R50 to R52, R402),
plain loads and stores (R93), service calls (R133), breakpoints, illegal instructions, and the floating-point
constants (R57, R58, R209). -/

namespace Sys2Proof.Machine

/-! ## Integer arithmetic (R50) -/

/-- Quotient and remainder of the M extension: a division by zero gives all ones and the dividend, the overflow the
dividend and zero. -/
def sdivW {n : Nat} (a b : BitVec n) : BitVec n := if b = 0 then BitVec.allOnes n else a.sdiv b
def sremW {n : Nat} (a b : BitVec n) : BitVec n := if b = 0 then a else a.srem b
def udivW {n : Nat} (a b : BitVec n) : BitVec n := if b = 0 then BitVec.allOnes n else a.udiv b
def uremW {n : Nat} (a b : BitVec n) : BitVec n := if b = 0 then a else a.umod b

/-- The high half of an exact product. -/
def highHalf (p : Int) : Word := BitVec.ofInt 64 (p / 2 ^ 64)

/-- A 32-bit result, sign-extended. -/
def sext32 (v : Word32) : Word := v.signExtend 64

def boolWord (b : Bool) : Word := if b then 1 else 0

def aluValue (op : AluOp) (a b : Word) : Word :=
  match op with
  | .add => a + b
  | .sub => a - b
  | .sll => a <<< (b.toNat % 64)
  | .slt => boolWord (a.slt b)
  | .sltu => boolWord (a.ult b)
  | .xor => a ^^^ b
  | .srl => a >>> (b.toNat % 64)
  | .sra => a.sshiftRight (b.toNat % 64)
  | .or => a ||| b
  | .and => a &&& b
  | .mul => a * b
  | .mulh => highHalf (a.toInt * b.toInt)
  | .mulhsu => highHalf (a.toInt * (b.toNat : Int))
  | .mulhu => highHalf ((a.toNat : Int) * (b.toNat : Int))
  | .div => sdivW a b
  | .divu => udivW a b
  | .rem => sremW a b
  | .remu => uremW a b

def aluWValue (op : AluWOp) (a b : Word) : Word :=
  let x : Word32 := a.setWidth 32; let y : Word32 := b.setWidth 32
  sext32 (match op with
    | .addw => x + y
    | .subw => x - y
    | .sllw => x <<< (y.toNat % 32)
    | .srlw => x >>> (y.toNat % 32)
    | .sraw => x.sshiftRight (y.toNat % 32)
    | .mulw => x * y
    | .divw => sdivW x y
    | .divuw => udivW x y
    | .remw => sremW x y
    | .remuw => uremW x y)

def immValue (op : ImmOp) (a : Word) (imm : BitVec 12) : Word :=
  let i : Word := imm.signExtend 64
  match op with
  | .addi => a + i
  | .slti => boolWord (a.slt i)
  | .sltiu => boolWord (a.ult i)
  | .xori => a ^^^ i
  | .ori => a ||| i
  | .andi => a &&& i

def shiftValue (op : ShiftOp) (a : Word) (n : Nat) : Word :=
  match op with
  | .sll => a <<< n
  | .srl => a >>> n
  | .sra => a.sshiftRight n

def shiftWValue (op : ShiftOp) (a : Word) (n : Nat) : Word :=
  let x : Word32 := a.setWidth 32
  sext32 (match op with
    | .sll => x <<< n
    | .srl => x >>> n
    | .sra => x.sshiftRight n)

def branchTaken (op : BranchOp) (a b : Word) : Bool :=
  match op with
  | .beq => a = b
  | .bne => a ≠ b
  | .blt => a.slt b
  | .bge => !a.slt b
  | .bltu => a.ult b
  | .bgeu => !a.ult b

/-- The immediate of a U-layout instruction. -/
def immU (imm : BitVec 20) : Word := (imm ++ (0#12)).signExtend 64

/-- A branch or jump to a target that is not a multiple of 4 traps at the branch with code 0 (R51, R130). -/
def jumpTo (target : Word) : M Word := do
  need (target.toNat % 4 = 0) (.trap 0 0 target)
  pure target

/-! ## Floating point (R29, R50) -/

/-- The rounding mode an instruction uses; a reserved dynamic mode is an illegal instruction. -/
def useMode (h : HartId) (rm : BitVec 3) : M RMode := do
  let s ← get
  match rmodeOf rm (s.hart h).frm with
  | some m => pure m
  | none => do illegal h; pure .rne

/-- The operands and result of a fused multiply-add (R50). -/
def fmaValue (op : FmaOp) (rm : RMode) (a b c : Nat) : Nat × FFlags :=
  match op with
  | .fmadd => fFma rm false false a b c
  | .fmsub => fFma rm false true a b c
  | .fnmsub => fFma rm true false a b c
  | .fnmadd => fFma rm true true a b c

def farithValue (op : FArithOp) (rm : RMode) (a b : Nat) : Nat × FFlags :=
  match op with
  | .fadd => fAdd rm false a b
  | .fsub => fAdd rm true a b
  | .fmul => fMul rm a b
  | .fdiv => fDiv rm a b

/-- Writes an f register and accrues flags. -/
def putF (h : HartId) (rd : Reg) (r : Nat × FFlags) : M Unit :=
  upd (fun s => s.modHart h (fun x => (x.writeF rd (BitVec.ofNat 32 r.1)).accrue r.2))

/-- Writes an x register and accrues flags. -/
def putX (h : HartId) (rd : Reg) (v : Word) (fl : FFlags) : M Unit :=
  upd (fun s => s.modHart h (fun x => (x.writeX rd v).accrue fl))

/-! ## Service calls (R133) -/

/-- The mailbox takes a value while it holds fewer than 16 entries. -/
def State.post (s : State) (c : Nat) (v : Word) : Option State :=
  if (s.ctx c).mailbox.length < 16 then some (s.modCtx c (fun x => { x with mailbox := x.mailbox ++ [v] })) else none

/-- Service 0: the firmware version in x10. -/
def serviceVersion (s : State) (h : HartId) : State :=
  (s.writeX h 10 (s.dev.firmware.setWidth 64)).retire h ((s.hart h).pc + 4)

/-- Service 1: posts x10 to the context's host mailbox; x10 tells whether it was full. -/
def servicePost (s : State) (h : HartId) : State :=
  match s.post (s.ctxOf h.tile) (s.readX h 10) with
  | some s' => (s'.writeX h 10 0).retire h ((s.hart h).pc + 4)
  | none => (s.writeX h 10 1).retire h ((s.hart h).pc + 4)

/-- Service 2: a context fault with reason 3; the code goes into the record's val field, and its cause field is zero
since no trap is written (log entry 18). -/
def serviceAbort (s : State) (h : HartId) : State :=
  s.contextFault (s.ctxOf h.tile)
    (faultRecordOf (s.readX h 10) 0 (s.hart h).pc 3 h.move (s.ctileOf h.tile))

/-- Any other service: all ones in x10. -/
def serviceUnknown (s : State) (h : HartId) : State :=
  (s.writeX h 10 (BitVec.allOnes 64)).retire h ((s.hart h).pc + 4)

/-- The service that x17 names. -/
def service (s : State) (h : HartId) : State :=
  match (s.readX h 17).toNat with
  | 0 => serviceVersion s h
  | 1 => servicePost s h
  | 2 => serviceAbort s h
  | _ => serviceUnknown s h

/-- An `ecall`: a service in user mode, and in machine mode the environment call that R50's specification has there, with cause 11 (log
entry 93). -/
def State.callService (s : State) (h : HartId) (f : State → HartId → State) : State :=
  if (s.hart h).machine then s.takeTrap h false 11 0 0 else f s h

/-! ## The instructions -/

/-- Writes rd and goes on at the next instruction. -/
def State.result (s : State) (h : HartId) (rd : Reg) (v : Word) : State :=
  (s.writeX h rd v).retire h ((s.hart h).pc + 4)

/-- The floating-point part of the standard subset. -/
def floatBody (h : HartId) (x : Hart) (b : Base) : M Unit :=
  match b with
  | .fma op rd rs1 rs2 rs3 rm => do
    let m ← useMode h rm
    putF h rd (fmaValue op m (x.readF rs1).toNat (x.readF rs2).toNat (x.readF rs3).toNat)
  | .farith op rd rs1 rs2 rm => do
    let m ← useMode h rm
    putF h rd (farithValue op m (x.readF rs1).toNat (x.readF rs2).toNat)
  | .fsqrt rd rs1 rm => do
    let m ← useMode h rm
    putF h rd (fSqrt m (x.readF rs1).toNat)
  | .fsgn op rd rs1 rs2 => putF h rd (fSgn op (x.readF rs1).toNat (x.readF rs2).toNat, 0)
  | .fminmax mx rd rs1 rs2 => putF h rd (fMinMax mx (x.readF rs1).toNat (x.readF rs2).toNat)
  | .fcmp op rd rs1 rs2 =>
    let r := fCmp op (x.readF rs1).toNat (x.readF rs2).toNat
    putX h rd (BitVec.ofNat 64 r.1) r.2
  | .fcvtToInt it rd rs1 rm => do
    let m ← useMode h rm
    let r := fToInt m it (x.readF rs1).toNat
    putX h rd r.1 r.2
  | .fcvtFromInt it rd rs1 rm => do
    let m ← useMode h rm
    putF h rd (fOfInt m it (x.readX rs1))
  | .fmvXW rd rs1 => putX h rd (sext32 (x.readF rs1)) 0
  | .fmvWX rd rs1 => putF h rd ((x.readX rs1).toNat % 2 ^ 32, 0)
  | .fclass rd rs1 => putX h rd (BitVec.ofNat 64 (fClass (x.readF rs1).toNat)) 0
  | _ => pure ()

/-- An RV64IMF or Zicsr instruction (R50, R51); `mret` returns in machine mode and is illegal in user mode. -/
def baseStep (b : Base) (s : State) : Host.Outcome State Fault Refusal :=
  let h := s.me
  let x := s.hart h
  match b with
  | .lui rd imm => .next (s.result h rd (immU imm))
  | .auipc rd imm => .next (s.result h rd (x.pc + immU imm))
  | .jal rd off => hartJump h (do
      let t ← jumpTo (x.pc + (off ++ (0#1)).signExtend 64)
      upd (fun s => s.writeX h rd (x.pc + 4)); pure t) s
  | .jalr rd rs1 imm => hartJump h (do
      let t ← jumpTo ((x.readX rs1 + imm.signExtend 64) &&& ~~~1)
      upd (fun s => s.writeX h rd (x.pc + 4)); pure t) s
  | .branch op rs1 rs2 off => hartJump h
      (if branchTaken op (x.readX rs1) (x.readX rs2) then jumpTo (x.pc + (off ++ (0#1)).signExtend 64)
       else pure (x.pc + 4)) s
  | .opImm op rd rs1 imm => .next (s.result h rd (immValue op (x.readX rs1) imm))
  | .shiftImm op rd rs1 sh => .next (s.result h rd (shiftValue op (x.readX rs1) sh.toNat))
  | .addiw rd rs1 imm => .next (s.result h rd (sext32 ((x.readX rs1 + imm.signExtend 64).setWidth 32)))
  | .shiftImmW op rd rs1 sh => .next (s.result h rd (shiftWValue op (x.readX rs1) sh.toNat))
  | .alu op rd rs1 rs2 => .next (s.result h rd (aluValue op (x.readX rs1) (x.readX rs2)))
  | .aluW op rd rs1 rs2 => .next (s.result h rd (aluWValue op (x.readX rs1) (x.readX rs2)))
  | .csrRead c => .next (csrReadStep s h c)
  | .ecall => .next (s.callService h service)
  | .mret => .next (if x.machine then s.setHart h x.machineReturn else s.illegalAt h)
  | b => hartStep h (floatBody h x b) s

def execBaseInstruction (b : Base) (s : State) : Host.Outcome State Fault Refusal := baseStep b s

/-! ## Plain loads and stores (R50, R82, R93) -/

/-- Bytes of a load and what it makes of the value read. -/
def loadSize : LoadOp → Nat
  | .lb | .lbu => 1
  | .lh | .lhu => 2
  | .lw | .lwu | .flw => 4
  | .ld => 8

def loadExtend (op : LoadOp) (v : Nat) : Word :=
  match op with
  | .lb => (BitVec.ofNat 8 v).signExtend 64
  | .lh => (BitVec.ofNat 16 v).signExtend 64
  | .lw => (BitVec.ofNat 32 v).signExtend 64
  | _ => BitVec.ofNat 64 v

def storeSize : StoreOp → Nat
  | .sb => 1
  | .sh => 2
  | .sw | .fsw => 4
  | .sd => 8

/-- The address of an access: X[rs1] and the sign-extended immediate. -/
def addressOf (s : State) (h : HartId) (rs1 : Reg) (imm : BitVec 12) : Word :=
  s.readX h rs1 + imm.signExtend 64

/-- Writes the register of a load. -/
def putLoad (h : HartId) (op : LoadOp) (rd : Reg) (v : Nat) : M Unit :=
  upd (fun s => match op with
    | .flw => s.modHart h (fun x => x.writeF rd (BitVec.ofNat 32 v))
    | _ => s.writeX h rd (loadExtend op v))

def execPlainLoad (op : LoadOp) (rd rs1 : Reg) (imm : BitVec 12) (s : State) : Host.Outcome State Fault Refusal :=
  let h := s.me
  hartStep h (do
    let v ← plainRead h (loadSize op) (addressOf s h rs1 imm)
    putLoad h op rd v) s

/-- The value that a store writes. -/
def storeValue (s : State) (h : HartId) (op : StoreOp) (rs2 : Reg) : Nat :=
  match op with
  | .fsw => ((s.hart h).readF rs2).toNat
  | _ => (s.readX h rs2).toNat

def execPlainStore (op : StoreOp) (rs1 rs2 : Reg) (imm : BitVec 12) (s : State) : Host.Outcome State Fault Refusal :=
  let h := s.me
  hartStep h (do
    let a := addressOf s h rs1 imm
    let l ← storeLeaf h (storeSize op) a
    accessWait h a l true
    upd (fun s' => s'.plainWrite h.tile (s.ctxOf h.tile) l (storeSize op) (storeValue s h op rs2))) s

/-! ## Unordered accesses (R241) -/

def execLdU (rd rs1 : Reg) (imm : BitVec 12) (s : State) : Host.Outcome State Fault Refusal :=
  let h := s.me
  hartStep h (do
    let l ← loadLeaf h 8 (addressOf s h rs1 imm)
    let v ← modifyGet (fun s' => let r := s'.bypassRead h.tile (s.ctxOf h.tile) l 8 false; (r.2, r.1))
    upd (fun s' => s'.writeX h rd (BitVec.ofNat 64 v))) s

def execSdU (rs1 rs2 : Reg) (imm : BitVec 12) (s : State) : Host.Outcome State Fault Refusal :=
  let h := s.me
  hartStep h (do
    let l ← storeLeaf h 8 (addressOf s h rs1 imm)
    movingWait h (addressOf s h rs1 imm)
    upd (fun s' => s'.plainWrite h.tile (s.ctxOf h.tile) l 8 (s.readX h rs2).toNat)) s

/-! ## CSR writes (R403) -/

def execCsrWrite (c : CsrOp) (s : State) : Host.Outcome State Fault Refusal := .next (csrWriteStep s s.me c)

/-- A write of v to `rndtile` reseeds both generators of the tile, between the draws of the commands pushed before
it and after it (R40, R41); the movement hart may not name it (R42). `csrrc` writes nothing (R403). -/
def execRndtileWrite (c : CsrOp) (s : State) : Host.Outcome State Fault Refusal :=
  let h := s.me
  if h.move then .next (s.illegalAt h)
  else
    let v := csrOperand c (s.hart h)
    let s' := if c.kind = .rc then s else s.modTc h.tile (fun t =>
      if t.q0.entries.isEmpty then
        { t with gen1 := seed v 0 1, gen2 := seed v 0 2, reseed1 := [], reseed2 := [] }
      else { t with reseed1 := t.reseed1 ++ [(t.q0.pushed, seed v 0 1)],
                    reseed2 := t.reseed2 ++ [(t.q0.pushed, seed v 0 2)] })
    .next (s'.result h c.rd 0)

/-! ## Constants (R57, R58, R209) -/

def State.putConst (s : State) (h : HartId) (rd : Reg) (v : Word32) (pc : Word) : State :=
  (s.modHart h (fun x => x.writeF rd v)).retire h pc

def execFimmS (rd : Reg) (imm : BitVec 20) (s : State) : Host.Outcome State Fault Refusal :=
  .next (s.putConst s.me rd (imm ++ (0#12)) ((s.hart s.me).pc + 4))

/-- `flit.s`: at 0x3_FFFC the literal lies outside instruction memory and its fetch faults at that pc (R58). -/
def execFlitS (rd : Reg) (lit : Word32) (s : State) : Host.Outcome State Fault Refusal :=
  let pc := (s.hart s.me).pc
  if pc.toNat + 4 ≥ Config.imemBytes then .next (s.takeTrap s.me false 1 0 pc)
  else .next (s.putConst s.me rd lit (pc + 8))

def execFconstS (rd : Reg) (k : BitVec 8) (s : State) : Host.Outcome State Fault Refusal :=
  .next (s.putConst s.me rd (SMap.get 0 (s.ctx (s.ctxOf s.me.tile)).consts k.toNat) ((s.hart s.me).pc + 4))

/-! ## The others -/

/-- A step that only moves the pc on. -/
def State.skip (s : State) : State := s.retire s.me ((s.hart s.me).pc + 4)

/-- `fence` and `fence.tso` order nothing more than program order (R103). -/
def execFence (s : State) : Host.Outcome State Fault Refusal := .next s.skip

/-- `fence.i`: fetches after it see the loaded text, as every fetch of this model does (R17). -/
def execFenceI (s : State) : Host.Outcome State Fault Refusal := .next s.skip

def execWfi (s : State) : Host.Outcome State Fault Refusal :=
  .next (if (s.hart s.me).machine then s.skip else s.illegalAt s.me)

def execEbreak (s : State) : Host.Outcome State Fault Refusal :=
  .next (s.takeTrap s.me false 3 0 (s.hart s.me).pc)

def execIllegalInstruction (w : Word32) (s : State) : Host.Outcome State Fault Refusal :=
  .next (s.takeTrap s.me false 2 0 (w.setWidth 64))

def execEcallFirmwareVersion (s : State) : Host.Outcome State Fault Refusal := .next (s.callService s.me serviceVersion)
def execEcallPostToHost (s : State) : Host.Outcome State Fault Refusal := .next (s.callService s.me servicePost)
def execEcallAbort (s : State) : Host.Outcome State Fault Refusal := .next (s.callService s.me serviceAbort)
def execEcallUnknown (s : State) : Host.Outcome State Fault Refusal := .next (s.callService s.me serviceUnknown)

/-- `tret` (R131): an illegal instruction outside a handler. -/
def execTret (s : State) : Host.Outcome State Fault Refusal :=
  if (s.hart s.me).inHandler then .next (s.returnFromTrap s.me) else .next (s.illegalAt s.me)

/-- The queue that a command-fault trap names: the lowest faulted queue the hart pushes to (log entry 19). -/
def TileCtx.faultedQueue (c : TileCtx) (move : Bool) : Nat :=
  if !move then 0 else if c.q1.faulted then 1 else 2

/-- A pending command-fault trap is taken (R129): the waiting instruction, if there is one, is abandoned, and CP
clears. -/
def execCommandFaultTrap (s : State) : Host.Outcome State Fault Refusal :=
  let h := s.me
  if (s.hart h).trapReady then
    let q := (s.tc h.tile).faultedQueue h.move
    let s := (s.abandon h).modHart h (fun x => x.setCP false)
    .next (s.takeTrap h true 16 q 0)
  else .next s

end Sys2Proof.Machine
end

