-- ==== Sys2Proof/Machine/Bucket.lean ====
section
/-! DEFINITION. The sort engine and the bucket lanes (R242 to R257). -/

namespace Sys2Proof.Machine

/-! ## Sorted-code records (R242 to R244) -/

/-- Codes per row-block and code width of a sorted-code handle. -/
def recK (r : Record) : Nat := field r 64 10
def recB (r : Record) : Nat := field r (64 + 16) 2

/-- RecBytes (R242). -/
def recBytes (k : Nat) : Nat := 64 * (1 + (k + 31) / 32)

/-- RecAddr (R242): none where the record clips. -/
def recAddr (r : Record) (y : List Int) : M (Option Nat) :=
  match clipCoords (shapeOf r).dims y with
  | none => pure none
  | some ys => do
    let a ← formed ((shapeOf r).base + recBytes (recK r) * dotStride (shapeOf r).dims ys)
    pure (some a)

/-- What a bucket command reads of a record. -/
structure SortedRec where
  addr : Nat
  bound : List Nat
  perm : List Nat
  cb : List Nat
  ew : Nat
deriving DecidableEq, Repr

/-- Offset c of the boundary list. -/
def SortedRec.at (x : SortedRec) (c : Nat) : Nat := nth 0 x.bound c

/-- Whether bucket c is empty (R47). -/
def SortedRec.empty (x : SortedRec) (c : Nat) : Bool := x.at c = x.at (c + 1)

/-- Well-formedness (R244). -/
def SortedRec.ok (x : SortedRec) (k b : Nat) : Bool :=
  x.at 0 = 0 && (List.range (2 ^ b)).all (fun c => x.at c ≤ x.at (c + 1)) && x.at (2 ^ b) = k &&
    x.perm.all (fun p => p < k)

/-- Reads n-byte items. -/
def readList (rd : Reader) (a n : Nat) (count : Nat) : M (List Nat) :=
  (List.range count).mapM (fun i => rd (a + n * i) n)

/-- Reads a record's boundary and permutation lists (`bk.sum`). -/
def readForSum (rd : Reader) (h : Record) (a : Nat) : M SortedRec := do
  let bound ← readList rd (a + 20) 2 (2 ^ recB h + 1)
  let perm ← readList rd (a + 64) 2 (recK h)
  pure { addr := a, bound := bound, perm := perm, cb := [], ew := 0 }

/-- Reads a record's codebook, scale and boundary list (`bk.fin`). -/
def readForFin (rd : Reader) (h : Record) (a : Nat) : M SortedRec := do
  let n := elemSize (shapeOf h).fmt
  let cb ← readList rd a n (2 ^ recB h)
  let ew ← rd (a + 16) 1
  let bound ← readList rd (a + 20) 2 (2 ^ recB h + 1)
  pure { addr := a, bound := bound, perm := [], cb := cb, ew := ew }

/-! ## srt.codes (R245, R248, R249) -/

def srHs (c : Cmd) : Nat := opf c 64 4
def srHd (c : Cmd) : Nat := opf c 128 4
def srNs (c : Cmd) : Nat := opf c 68 3
def srNd (c : Cmd) : Nat := opf c 132 3
def srDrow (c : Cmd) : Nat := opf c 116 4
def srSrow (c : Cmd) : Nat := opf c 120 4
def srRows (c : Cmd) : Nat := opf c 164 9

/-- Limits of `srt.codes`: the lowest failing field number (R248). -/
def srLimit (r : Run) (c : Cmd) : Option Nat :=
  let hs := shapeOf (r.e.handle (srHs c)); let hd := shapeOf (r.e.handle (srHd c))
  let n := srRows c
  if n = 0 || n > 256 then some 1
  else if n > 1 && (srSrow c = 0 || srSrow c ≥ hs.rank) then some 2
  else if n > 1 && srDrow c ≥ hd.rank then some 3
  else if srNs c > hs.rank || srNd c > hd.rank then some 5
  else if c.patch.toNat % 32 ≠ 0 then some 7
  else none

/-- The checks of `srt.codes` when it is taken (R248). The dcidx fields of dimensions at and above dncoord are taken as reserved,
as R233 has it for cidx (DESIGN CHOICE, log entry 103), and of two malformed handles hs is named (DESIGN CHOICE, log entry 100). -/
def srChecks (r : Run) (c : Cmd) : M Unit := do
  checkReserved c [(71, 1), coordRest 72 (srNs c), (100, 16), (124, 4), (135, 1), coordRest 136 (srNd c), (173, 19)]
  checkCapture c ([.h (srHs c)] ++ coordNames c 72 (srNs c) ++ [.h (srHd c)] ++ coordNames c 136 (srNd c))
  checkShape r.e (srHs c)
  checkShape r.e (srHd c)
  let hs := shapeOf (r.e.handle (srHs c)); let hd := shapeOf (r.e.handle (srHd c))
  need (hs.type = 0 && isCode hs.fmt) (.fault 0x03 (srHs c) 0)
  need (hd.type = 3) (.fault 0x03 (srHd c) 0)
  need (hs.fmt = cmdFormat c) (.fault 0x14 (srHs c) 0)
  need (recB (r.e.handle (srHd c)) = codeBits hs.fmt) (.fault 0x14 (srHd c) 0)
  match srLimit r c with
  | some n => throw (.fault 0x04 n 0)
  | none => pure ()

/-- Source and destination coordinates of row-block i. -/
def srSource (r : Run) (c : Cmd) (i : Nat) : List Int := addAt (coordsOf r.e c 72 (srNs c)) (srSrow c) i
def srDest (r : Run) (c : Cmd) (i : Nat) : List Int := addAt (coordsOf r.e c 136 (srNd c)) (srDrow c) i

/-- Positions of each code, codes rising, positions rising: the stable sort (R249). -/
def sortCodes (codes : List Nat) (b : Nat) : List (List Nat) :=
  (List.range (2 ^ b)).map (fun v => ((codes.zip (List.range codes.length)).filter (fun p => p.1 = v)).map (·.2))

/-- The offsets of the sorted runs: 0, then running totals. -/
def offsets : List (List Nat) → Nat → List Nat
  | [], n => [n]
  | l :: r, n => n :: offsets r (n + l.length)

/-- A record as a number (R243): reserved bits zero. -/
def recordImage (cb : List Nat) (cw ew : Nat) (off perm : List Nat) : Nat :=
  packElems cw cb + ew * 2 ^ 128 + packElems 2 off * 2 ^ 160 + packElems 2 perm * 2 ^ 512

/-- Writes of a block of bytes, as 64-bit words. -/
def wordPuts (a bytes v : Nat) : List Put :=
  (List.range (bytes / 8)).map (fun i => { va := a + 8 * i, n := 8, v := v / 2 ^ (64 * i) % 2 ^ 64 })

/-- Sorts row-block i and makes its record: the writes of its words; none where it clips (R249). -/
def sortImage (r : Run) (c : Cmd) (i : Nat) : M (Option (List Put)) := do
  let rd : Reader := cachedGet r
  let hs := shapeOf (r.e.handle (srHs c)); let hd := r.e.handle (srHd c)
  let k := recK hd; let b := recB hd
  let codes ← (List.range k).mapM (fun (j : Nat) => do
    let (v, _) ← readElem rd hs (addAt (srSource r c i) 0 j)
    pure (v % 2 ^ b))
  let runs := sortCodes codes b
  let e := c.patch.toNat + 32 * i
  let cw := elemSize (shapeOf hd).fmt
  let cb ← readList rd e cw (2 ^ b)
  let ew ← rd (e + 16) 1
  match ← recAddr hd (srDest r c i) with
  | none => pure none
  | some a => pure (some (wordPuts a (recBytes k) (recordImage cb cw ew (offsets runs 0) runs.flatten)))

/-- The words of a record that are not written yet, by address, and as writes. -/
def wordsOfPuts (l : List Put) : SMap Word := l.map (fun p => (p.va, BitVec.ofNat 64 p.v))
def putsOfWords (l : SMap Word) : List Put := l.map (fun p => { va := p.1, n := 8, v := p.2.toNat })

/-- The writes of the whole record of row-block i, for the place that a fault leaves open; none where it clips. -/
def sortPlace (r : Run) (c : Cmd) (i : Nat) : List Put :=
  let hd := r.e.handle (srHd c)
  match recAddr hd (srDest r c i) (State.reset) with
  | .ok (some a) _ => wordPuts a (recBytes (recK hd)) 0
  | _ => []

/-- Reads row-block i once and makes its record, whose words the entry then holds; one that clips is counted (R249). The translations
that a row-block holds are its own (R98). -/
def sortLoad (r : Run) (c : Cmd) (i : Nat) : M Unit := guardPuts r false (sortPlace r c i) (do
  match ← sortImage r c i with
  | none => do
    countClip r 1
    upd (fun s => s.modEntry r.t r.q r.e.seq (fun e => { e with prog := { e.prog with next := i + 1, got := [], xlat := [], seen := [] } }))
  | some l =>
    upd (fun s => s.modEntry r.t r.q r.e.seq (fun e => { e with prog := { e.prog with next := i, got := wordsOfPuts l } })))

/-- Writes some of the words that row-block i has left; after the last the next row-block follows (R249). -/
def sortWrite (r : Run) (c : Cmd) (i : Nat) (now later : SMap Word) : M Unit := guardPuts r false (sortPlace r c i) (do
  putAll r false (putsOfWords now)
  upd (fun s => s.modEntry r.t r.q r.e.seq (fun e =>
    { e with prog := if later.isEmpty then { e.prog with next := i + 1, got := [], xlat := [], seen := [] } else { e.prog with got := later } })))

/-- The entry of a run as the state holds it now. -/
def Run.entry (r : Run) (s : State) : Entry := ((s.queue r.t r.q).find r.e.seq).getD r.e

/-- What is left of row-block i: it is read unless its words are held, and they are written (R249). -/
def sortRow (r : Run) (c : Cmd) (i : Nat) : M Unit := do
  if (r.entry (← get)).prog.next ≤ i then
    if (r.entry (← get)).prog.got.isEmpty then sortLoad r c i
    let got := (r.entry (← get)).prog.got
    if !got.isEmpty then sortWrite r c i got []

/-- A started `srt.codes` of a tile reads its next row-block, or writes the n-th of the words that its record has left, and goes on
later (R100, R249, R255). -/
def State.sortPart (s : State) (t n : Nat) : State :=
  match (s.queue t 0).entries.find? (fun e => e.st = .running && field e.w 0 8 = 0x40) with
  | none => s
  | some e =>
    let r : Run := { t, q := 0, e }; let c := cmdOfBits e.w
    let got := e.prog.got
    if !s.engineWorks t 0 e || srRows c ≤ e.prog.next then s
    else
      match (if got.isEmpty then sortLoad r c e.prog.next
        else sortWrite r c e.prog.next ((got.drop n).take 1) (got.take n ++ got.drop (n + 1))) s with
      | .ok _ s' => s'
      | .error _ _ => s

def sortBody (c : Cmd) (r : Run) : M Bool := do
  srChecks r c
  begin r none []
  (List.range (srRows c)).forM (sortRow r c)
  pure true

def execSrtCodes (c : Cmd) (s : State) : Host.Outcome State Fault Refusal := runCommand 0x40 c (sortBody c) s

/-! ## Bucket operands (R246, R248) -/

def bkH (c : Cmd) : Nat := opf c 64 4
def bkNc (c : Cmd) : Nat := opf c 68 3
def bkL0 (c : Cmd) : Nat := opf c 100 5
def bkNl (c : Cmd) : Nat := opf c 105 6
def bkDq (c : Cmd) : Nat := opf c 112 3
def bkRdim (c : Cmd) : Nat := opf c 116 4
def bkVd (c : Cmd) : Nat := opf c 128 7
def bkE0 (c : Cmd) : Nat := opf c 136 11
def bkTag (c : Cmd) : Nat := opf c 160 32
/-- SUB[1]: every lane takes the same record. -/
def bkSame (c : Cmd) : Bool := c.sub.getLsbD 1

/-- Reserved fields of `bk.sum`, and of `bk.fin` to a register or to a data queue, rising. -/
def bkReserved (fin toDq : Bool) (c : Cmd) : List (Nat × Nat) :=
  let lead := [(71, 1), coordRest 72 (bkNc c)]
  if !fin then lead ++ [(111, 1), (115, 1), (120, 72)]
  else if toDq then lead ++ [(111, 1), (115, 1), (120, 40)]
  else lead ++ [(111, 5), (120, 8), (135, 1), (147, 45)]

/-- Limits: the lowest failing field number (R248). -/
def bkLimit (fin toDq : Bool) (r : Run) (c : Cmd) : Option Nat :=
  let h := shapeOf (r.e.handle (bkH c))
  if !bkSame c && bkNl c > 1 && bkRdim c ≥ h.rank then some 3
  else if bkNl c = 0 || bkL0 c + bkNl c > 32 then some 4
  else if bkNc c > h.rank then some 5
  else if fin && !toDq && bkE0 c + bkNl c > 2048 then some 6
  else none

/-- The checks of `bk.sum` and `bk.fin` when they are taken (R248). -/
def bkChecks (fin toDq : Bool) (r : Run) (c : Cmd) : M Unit := do
  checkReserved c (bkReserved fin toDq c)
  checkCapture c ([.h (bkH c)] ++ coordNames c 72 (bkNc c))
  checkShape r.e (bkH c)
  need ((shapeOf (r.e.handle (bkH c))).type = 3) (.fault 0x03 (bkH c) 0)
  match bkLimit fin toDq r c with
  | some n => throw (.fault 0x04 n 0)
  | none => pure ()

/-- The record coordinates of lane offset i (R253). -/
def bkCoords (r : Run) (c : Cmd) (i : Nat) : List Int :=
  addAt (coordsOf r.e c 72 (bkNc c)) (bkRdim c) (cmdOffset c + if bkSame c then 0 else i)

/-- The records of the lanes in order; none where one clips. -/
def bkRecords (read : Reader → Record → Nat → M SortedRec) (r : Run) (c : Cmd) : M (List (Option SortedRec)) := do
  let h := r.e.handle (bkH c)
  (List.range (bkNl c)).mapM (fun i => do
    match ← recAddr h (bkCoords r c i) with
    | none => pure none
    | some a => do let x ← read (cachedGet r) h a; pure (some x))

/-- The first malformed record ends the command with 0x16: its lane offset and address (R244). -/
def bkWellFormed (h : Record) : List (Option SortedRec) → Nat → M Unit
  | [], _ => pure ()
  | none :: l, i => bkWellFormed h l (i + 1)
  | some x :: l, i => do
    need (x.ok (recK h) (recB h)) (.fault 0x16 i x.addr)
    bkWellFormed h l (i + 1)

/-! ## Lanes (R250 to R254) -/

def TileCtx.lane (c : TileCtx) (l : Nat) : Lane := SMap.get {} c.lanes l
def TileCtx.setLane (c : TileCtx) (l : Nat) (x : Lane) : TileCtx := { c with lanes := SMap.put c.lanes l x }

/-- Zeroes the buckets and the used bits of lanes (R252). -/
def TileCtx.clearLanes (c : TileCtx) (l0 nl : Nat) : TileCtx :=
  (List.range nl).foldl (fun (c : TileCtx) i =>
    c.setLane (l0 + i) { c.lane (l0 + i) with bucket := [], used := false }) c

/-- Adds the activations of one code into its bucket; tells whether an add wrapped (R47). -/
def addBucket (row : Row) (b : BitVec 48) (ps : List Nat) : BitVec 48 × Bool :=
  ps.foldl (fun (acc : BitVec 48 × Bool) p =>
    let t := acc.1.toInt + signedVal 8 (elemAt row 8 p)
    (BitVec.ofInt 48 t, acc.2 || decide (t < -(2 ^ 47)) || decide (t > 2 ^ 47 - 1))) (b, false)

/-- Adds a row into the lane of a record (R253). -/
def TileCtx.sumLane (c : TileCtx) (l b : Nat) (sl : Slot) (x : SortedRec) : TileCtx :=
  let ln := c.lane l
  let step (acc : SMap (BitVec 48) × Bool) (v : Nat) : SMap (BitVec 48) × Bool :=
    let ps := (x.perm.drop (x.at v)).take (x.at (v + 1) - x.at v)
    let r := addBucket sl.data (SMap.get 0 acc.1 v) ps
    (SMap.set 0 acc.1 v r.1, acc.2 || r.2)
  let res := (List.range (2 ^ b)).foldl step (ln.bucket, false)
  let c := c.setLane l { row := sl.data, bucket := res.1, used := true, ea := bits sl.side 0 8 }
  if res.2 then c.setBkovf l else c

/-- The scale check of every lane before any changes: 0x15 with the lane offset (R253). -/
def bkScales (c : TileCtx) (l0 : Nat) (slot : Nat → Slot) : List (Option SortedRec) → Nat → M Unit
  | [], _ => pure ()
  | none :: l, i => bkScales c l0 slot l (i + 1)
  | some _ :: l, i => do
    let ln := c.lane (l0 + i)
    need (!(ln.used && ln.ea ≠ bits (slot i).side 0 8)) (.fault 0x15 i 0)
    bkScales c l0 slot l (i + 1)

def clearBody (c : Cmd) (r : Run) : M Bool := do
  checkReserved c [(64, 36), (111, 81)]
  need (bkNl c ≠ 0 && bkL0 c + bkNl c ≤ 32) (.fault 0x04 4 0)
  begin r none []
  upd (fun s => s.modTc r.t (fun k => k.clearLanes (bkL0 c) (bkNl c)))
  pure true

def sumBody (c : Cmd) (r : Run) : M Bool := do
  bkChecks false false r c
  let each := c.sub.getLsbD 0
  begin r none [(bkDq c, if each then bkNl c else 1)]
  let h := r.e.handle (bkH c)
  let recs ← bkRecords readForSum r c
  let slots ← claimed r (bkDq c)
  checkSlots (bkDq c) (some 0) slots
  bkWellFormed h recs 0
  let slot (i : Nat) : Slot := nth ⟨.claimed, 0, 0, 0⟩ slots (if each then i else 0)
  let s ← get
  bkScales (s.tc r.t) (bkL0 c) slot recs 0
  (recs.zip (List.range recs.length)).forM (fun p =>
    match p.1 with
    | none => pure ()
    | some x => upd (fun s => s.modTc r.t (fun k => k.sumLane (bkL0 c + p.2) (recB h) (slot p.2) x)))
  releaseClaims r
  pure true

/-- The value of a lane's combination (R48); every code is empty where the record clips. A zero bucket gives +0 with every finite
codeword, as R254 says of the buckets of an unused lane. -/
def combine (fmt b : Nat) (ln : Lane) (x : Option SortedRec) : Nat :=
  let ea := if ln.used then ln.ea.toNat else 127
  let term (v : Nat) : Nat :=
    match x with
    | none => 0
    | some x =>
      if x.empty v then 0
      else
        let n := SMap.get 0 ln.bucket v
        let a := ofF32 (roundF32 (Fl.ofInt n.toInt))
        let w := if fmt = 10 then ofM8 (nth 0 x.cb v) else ofBf16 (nth 0 x.cb v)
        product a (if n = 0 then w.abs else w) (scaleSum (scaleExp ea) (scaleExp x.ew))
  chainSum ((List.range (2 ^ b)).map (fun v => (v, term v)))

/-- Writes fp32 values to consecutive elements of a vector register. -/
def putF32s (v : VReg) (e0 : Nat) : List Nat → VReg
  | [] => v
  | x :: l => putF32s (setElem v 32 e0 x) (e0 + 1) l

def finBody (c : Cmd) (r : Run) : M Bool := do
  let toDq := c.sub.getLsbD 0
  bkChecks true toDq r c
  begin r (if toDq then some (bkDq c, 1) else none) []
  let h := r.e.handle (bkH c)
  let recs ← bkRecords readForFin r c
  bkWellFormed h recs 0
  let s ← get
  let k := s.tc r.t
  let out := (recs.zip (List.range recs.length)).map (fun p =>
    combine (shapeOf h).fmt (recB h) (k.lane (bkL0 c + p.2)) p.1)
  if toDq then
    fillSlot r (bkDq c) (BitVec.ofNat 4096 (packElems 4 out))
      (sideWord (bkTag c) false true (4 * bkNl c) 8 127)
  else upd (fun s => s.modTc r.t (fun k => k.setV (bkVd c) (putF32s (k.vreg (bkVd c)) (bkE0 c) out)))
  if c.md.getLsbD 0 then upd (fun s => s.modTc r.t (fun k => k.clearLanes (bkL0 c) (bkNl c)))
  pure true

def execBkClear (c : Cmd) (s : State) : Host.Outcome State Fault Refusal := runCommand 0x48 c (clearBody c) s
def execBkSum (c : Cmd) (s : State) : Host.Outcome State Fault Refusal := runCommand 0x49 c (sumBody c) s
def execBkFin (c : Cmd) (s : State) : Host.Outcome State Fault Refusal := runCommand 0x4A c (finBody c) s

/-! ## Spans (R255) -/

/-- The spans of some records, one for each that does not clip (R255). -/
def recSpans (h : Record) (ys : List (List Int)) : M (List Span) := do
  let l ← ys.mapM (recAddr h)
  pure (l.filterMap (fun x => x.map (fun a => (a, a + recBytes (recK h) - 1))))

def srSpans (r : Run) (rd : Reader) (c : Cmd) : M Spans := do
  srChecks r c
  let hs := shapeOf (r.e.handle (srHs c)); let hd := r.e.handle (srHd c)
  let rows := List.range (srRows c)
  let w ← elemsSpan rd hs (rows.flatMap (fun i => walkAlong (srSource r c i) 0 (recK hd) 1))
  let recs ← recSpans hd (rows.map (srDest r c))
  pure ⟨w ++ [(c.patch.toNat, c.patch.toNat + 32 * srRows c - 1)], recs⟩

def bkSpans (fin : Bool) (r : Run) (c : Cmd) : M Spans := do
  bkChecks fin (c.sub.getLsbD 0) r c
  let recs ← recSpans (r.e.handle (bkH c)) ((List.range (bkNl c)).map (bkCoords r c))
  pure ⟨recs, []⟩

end Sys2Proof.Machine
end

