-- ==== Sys2Proof/Machine/Scalar.lean ====
section
/-! DEFINITION. The scalar extension: coordinates and handles (R212, R213), tokens (R215), tagged words (R217 to
R219), memory-port atomics (R220 to R222), timelines (R114, R115), scope fences (R110), wake slots (R202, R203),
barriers (R199, R200), accumulator and vote reads (R223, R224). -/

namespace Sys2Proof.Machine

/-! ## Coordinates and handles -/

def execCset (c : BitVec 4) (rs1 : Reg) (imm : BitVec 12) (s : State) : Host.Outcome State Fault Refusal :=
  let h := s.me
  let s' := s.modHart h (fun x => { x with c := SMap.set 0 x.c c.toNat (x.readX rs1 + imm.signExtend 64) })
  .next (s'.retire h ((s.hart h).pc + 4))

def execHld (r : BitVec 4) (rs1 : Reg) (imm : BitVec 12) (s : State) : Host.Outcome State Fault Refusal :=
  let h := s.me
  hartStep h (do
    let a := addressOf s h rs1 imm
    need (a.toNat % 128 = 0) (.trap 4 0 a)
    let w ← plainWords h a 16
    upd (fun s' => s'.modHart h (fun x => { x with h := SMap.set 0 x.h r.toNat (BitVec.ofNat 1024 (joinWords w)) }))) s

/-! ## Tokens (R215) -/

/-- The unit count of a give or take, 1 to 65,535. -/
def tokenUnits (h : HartId) (v : Word) : M Nat := do
  if v = 0 || v.toNat > 65535 then illegal h
  pure v.toNat

def execTkGive (t : BitVec 4) (rs1 : Reg) (s : State) : Host.Outcome State Fault Refusal :=
  let h := s.me
  hartStep h (do
    let n ← tokenUnits h (s.readX h rs1)
    upd (fun s' => s'.modTc h.tile (fun c => c.give t.toNat n (.hart h.move)))) s

/-- A take that is in the waiting order ends if it is the oldest and the units are present, else waits (R215). -/
def State.tryTake (s : State) (h : HartId) (t : BitVec 4) (n : Nat) : State :=
  match (s.tc h.tile).take t.toNat n (.hart h.move n) with
  | some c => (s.setTc h.tile c).retire h ((s.hart h).pc + 4)
  | none => s.setWait h (.tk t n)

def execTkTake (t : BitVec 4) (rs1 : Reg) (s : State) : Host.Outcome State Fault Refusal :=
  let h := s.me
  hartEnd h (do
    let n ← tokenUnits h (s.readX h rs1)
    upd (fun s' =>
      let k := (s'.tc h.tile).token t.toNat
      (s'.modTc h.tile (fun c => c.setToken t.toNat { k with waiters := k.waiters ++ [.hart h.move n] })).tryTake h t n)) s

def execTkTakeServed (s : State) : Host.Outcome State Fault Refusal :=
  match (s.hart s.me).run with
  | .waiting (.tk t n) => .next (s.tryTake s.me t n)
  | _ => .next s

/-! ## Tagged words (R217, R218) -/

/-- Sends a tagged request to its home: it joins the requests held there, the hart stalls, and the home serves what it
can (R218). `ldt`, which empties the word, counts as a write for the range table and at a moving page (R93, R338; DESIGN CHOICE, log
entry 136). -/
def sendTagged (h : HartId) (kind : TaggedKind) (rd : Reg) (value : Word) (va : Word) : M Unit := do
  let store : Bool := kind = .stf || kind = .ste
  let l ← taggedLeaf h store (kind ≠ .ldf) va
  accessWait h va l (kind ≠ .ldf)
  upd (fun s =>
    let c := s.ctxOf h.tile
    let s := (((if store then s else s.countAccess c l).touch (some c) (l.pa / 64)).markTagged c l)
    let s := if store then s.discard h.tile (fun x => x = l.pa / 64) else s
    let r : Held := { pa := l.pa, tile := h.tile, move := h.move, kind := kind, rd := rd, value := value, va := va }
    ({ s with held := s.held ++ [r] }.setWait h (.tagged l.pa)).homeScan l.pa)

def execLdf (rd rs1 : Reg) (imm : BitVec 12) (s : State) : Host.Outcome State Fault Refusal :=
  hartEnd s.me (sendTagged s.me .ldf rd 0 (addressOf s s.me rs1 imm)) s

def execLdt (rd rs1 : Reg) (imm : BitVec 12) (s : State) : Host.Outcome State Fault Refusal :=
  hartEnd s.me (sendTagged s.me .ldt rd 0 (addressOf s s.me rs1 imm)) s

def execStf (rs1 rs2 : Reg) (imm : BitVec 12) (s : State) : Host.Outcome State Fault Refusal :=
  hartEnd s.me (sendTagged s.me .stf 0 (s.readX s.me rs2) (addressOf s s.me rs1 imm)) s

def execSte (rs1 rs2 : Reg) (imm : BitVec 12) (s : State) : Host.Outcome State Fault Refusal :=
  hartEnd s.me (sendTagged s.me .ste 0 (s.readX s.me rs2) (addressOf s s.me rs1 imm)) s

/-- The home of a word serves what it can (R218). -/
def execTaggedRequestServed (word : Nat) (s : State) : Host.Outcome State Fault Refusal := .next (s.homeScan word)

/-! ## Atomics (R220 to R222) -/

/-- An atomic of a hart: address, range table, then the read-modify-write at the home; xd receives what `res` makes
of the old value. -/
def atomicOp (h : HartId) (size : Nat) (rd rs1 : Reg) (f : Nat → Nat) (res : Nat → Word) (s : State) :
    Host.Outcome State Fault Refusal :=
  hartStep h (do
    let va := s.readX h rs1
    let l ← atomicLeaf h size va
    accessWait h va l true
    let old ← modifyGet (fun s' => let r := s'.atomic h.tile (s'.ctxOf h.tile) l size f; (r.2, r.1))
    upd (fun s' => s'.writeX h rd (res old))) s

/-- A 64-bit atomic that returns the old value. -/
def atomic64 (rd rs1 : Reg) (f : Word → Word) (s : State) : Host.Outcome State Fault Refusal :=
  atomicOp s.me 8 rd rs1 (fun o => (f (BitVec.ofNat 64 o)).toNat) (BitVec.ofNat 64) s

/-- A 32-bit atomic that returns the old value zero-extended. -/
def atomic32 (rd rs1 : Reg) (f : Nat → Nat) (s : State) : Host.Outcome State Fault Refusal :=
  atomicOp s.me 4 rd rs1 f (BitVec.ofNat 64) s

def execMaAdd (rd rs1 rs2 : Reg) (s : State) : Host.Outcome State Fault Refusal :=
  atomic64 rd rs1 (fun o => o + s.readX s.me rs2) s
def execMaMin (rd rs1 rs2 : Reg) (s : State) : Host.Outcome State Fault Refusal :=
  atomic64 rd rs1 (fun o => if (s.readX s.me rs2).slt o then s.readX s.me rs2 else o) s
def execMaMax (rd rs1 rs2 : Reg) (s : State) : Host.Outcome State Fault Refusal :=
  atomic64 rd rs1 (fun o => if o.slt (s.readX s.me rs2) then s.readX s.me rs2 else o) s
def execMaAnd (rd rs1 rs2 : Reg) (s : State) : Host.Outcome State Fault Refusal :=
  atomic64 rd rs1 (fun o => o &&& s.readX s.me rs2) s
def execMaOr (rd rs1 rs2 : Reg) (s : State) : Host.Outcome State Fault Refusal :=
  atomic64 rd rs1 (fun o => o ||| s.readX s.me rs2) s
def execMaXor (rd rs1 rs2 : Reg) (s : State) : Host.Outcome State Fault Refusal :=
  atomic64 rd rs1 (fun o => o ^^^ s.readX s.me rs2) s
def execMaSwap (rd rs1 rs2 : Reg) (s : State) : Host.Outcome State Fault Refusal :=
  atomic64 rd rs1 (fun _ => s.readX s.me rs2) s
def execMaCas (rd rs1 rs2 : Reg) (s : State) : Host.Outcome State Fault Refusal :=
  atomic64 rd rs1 (fun o => if o = s.readX s.me rd then s.readX s.me rs2 else o) s
def execMaIncw (rd rs1 rs2 : Reg) (s : State) : Host.Outcome State Fault Refusal :=
  atomic64 rd rs1 (fun o => if (s.readX s.me rs2).ule o then 0 else o + 1) s
/-- RoundF32 of the sum (R29, R221). -/
def fp32Sum (a b : Nat) : Nat := roundF32 ((ofF32 a).add false (ofF32 b))
def execMaFaddS (rd rs1 rs2 : Reg) (s : State) : Host.Outcome State Fault Refusal :=
  atomic32 rd rs1 (fun o => fp32Sum o ((s.readX s.me rs2).toNat % 2 ^ 32)) s
def execMaFmaxabsS (rd rs1 rs2 : Reg) (s : State) : Host.Outcome State Fault Refusal :=
  atomic32 rd rs1 (fun o => fmaxabs o ((s.readX s.me rs2).toNat % 2 ^ 32)) s

/-- `ma.addb`: added only where the exact sum is at most the bound; xd[63] reports failure (R222). -/
def execMaAddb (rd rs1 rs2 rs3 : Reg) (s : State) : Host.Outcome State Fault Refusal :=
  let v := (s.readX s.me rs2).toNat; let b := (s.readX s.me rs3).toNat
  atomicOp s.me 8 rd rs1 (fun o => if o + v ≤ b then o + v else o)
    (fun o => BitVec.ofNat 64 ((if o + v ≤ b then 0 else 2 ^ 63) + o % 2 ^ 63)) s

/-! ## Timelines (R114, R115) -/

/-- A wait that only the waiting hart could end is refused (R114). -/
def beyondTarget (s : State) (h : HartId) (x : Nat) (n : Nat) : Bool :=
  ((x = 1 || x = 2 || x = 3) && !h.move && decide ((s.tc h.tile).target x < n)) ||
    (x = 0 && h.move && decide ((s.tc h.tile).target x < n))

/-- `tl.wait` returns: tlr, tli and tlm discard every cached line (R83, R114). -/
def State.returnTl (s : State) (h : HartId) (x n : Nat) : State :=
  (if 4 ≤ x && n ≠ 0 then s.discardAll h.tile else s).retire h ((s.hart h).pc + 4)

def execTlWait (x : BitVec 3) (rs1 : Reg) (s : State) : Host.Outcome State Fault Refusal :=
  let h := s.me
  let v := s.readX h rs1
  if beyondTarget s h x.toNat v.toNat then .next (s.takeTrap h false 25 x.toNat v)
  else if v.toNat ≤ s.timeline h.tile x.toNat then .next (s.returnTl h x.toNat v.toNat)
  else .next (s.setWait h (.tl x v))

def execTlWaitReturn (s : State) : Host.Outcome State Fault Refusal :=
  match (s.hart s.me).run with
  | .waiting (.tl x n) =>
    .next (if n.toNat ≤ s.timeline s.me.tile x.toNat then s.returnTl s.me x.toNat n.toNat else s)
  | _ => .next s

def execTlRead (rd : Reg) (x : BitVec 3) (s : State) : Host.Outcome State Fault Refusal :=
  .next (s.result s.me rd (BitVec.ofNat 64 (s.timeline s.me.tile x.toNat)))

/-! ## Scope fences (R110) -/

/-- Whether a fabric fence of the movement hart still waits: a q2 command that is not locally complete, or one whose
acknowledgement is out (R110, R367). -/
def TileCtx.fencePending (c : TileCtx) : Bool := !c.q2.entries.isEmpty || !c.unacked.isEmpty

/-- `fence.g`: the bound state is checked once, when it starts (R189); every write of the tile is performed when it
is made. -/
def execFenceG (n : BitVec 5) (s : State) : Host.Outcome State Fault Refusal :=
  let h := s.me
  let c := s.ctx (s.ctxOf h.tile)
  let started : Bool := (s.hart h).run = .waiting .fence
  if !started && !c.scopeBound n.toNat then .next (s.takeTrap h false 26 n.toNat 0)
  else if (started || (SMap.get 0 c.scopes n.toNat).getLsbD 8) && h.move && (s.tc h.tile).fencePending then .next (s.setWait h .fence)
  else .next ((s.discardAll h.tile).retire h ((s.hart h).pc + 4))

/-! ## Wake slots (R202, R203) -/

def execWarm (k : BitVec 2) (rs1 : Reg) (s : State) : Host.Outcome State Fault Refusal :=
  let h := s.me
  hartStep h (do
    let l ← taggedLeaf h false false (s.readX h rs1)
    upd (fun s' =>
      let keep := s'.watches.filter (fun w => !(w.tile = h.tile && w.move = h.move && w.slot = k.toNat))
      State.modHart { s' with watches := keep ++ [{ pa := l.pa, tile := h.tile, move := h.move, slot := k.toNat }] } h
        (fun x => { x with slots := SMap.set .disarmed x.slots k.toNat (.armed l.pa) }))) s

/-- The fired slots, lowest first. -/
def Hart.fired (x : Hart) : List Nat := (List.range 4).filter (fun k => SMap.get .disarmed x.slots k = .fired)

/-- The result of `wsleep`: the mask and the lowest fired slot. -/
def wakeWord (l : List Nat) : Word := BitVec.ofNat 64 (l.foldl (fun acc k => acc + 2 ^ (8 + k)) 0 + l.headD 0)

/-- `wsleep` where a slot has fired: the mask, and every slot disarmed. -/
def State.wake (s : State) (h : HartId) (rd : Reg) : State :=
  let v := wakeWord (s.hart h).fired
  let s := { s with watches := s.watches.filter (fun w => !(w.tile = h.tile && w.move = h.move)) }
  (s.modHart h (fun x => { x with slots := [] })).result h rd v

def execWsleep (rd : Reg) (s : State) : Host.Outcome State Fault Refusal :=
  let h := s.me
  if (s.hart h).slots.isEmpty then .next (s.result h rd (BitVec.allOnes 64))
  else if (s.hart h).fired.isEmpty then .next (s.setWait h (.wsleep rd))
  else .next (s.wake h rd)

def execWsleepWake (s : State) : Host.Outcome State Fault Refusal :=
  match (s.hart s.me).run with
  | .waiting (.wsleep rd) => .next (if (s.hart s.me).fired.isEmpty then s else s.wake s.me rd)
  | _ => .next s

/-! ## Barriers (R196 to R200) -/

/-- What an arrival makes of the barrier and size words: the new word and the token; none where it is refused
(R197, R199). -/
def arrival (w z : Nat) : Option (Nat × Nat) :=
  let parties := z % 2 ^ 40
  if z / 2 ^ 40 ≠ 0 || parties = 0 then none
  else
    let p := w / 2 ^ 40; let c := w % 2 ^ 40 + 1
    if parties ≤ c then some ((p + 1) % 2 ^ 24 * 2 ^ 40, 2 ^ 63 + p) else some (p * 2 ^ 40 + c, p)

def execBarrArrive (rd rs1 : Reg) (s : State) : Host.Outcome State Fault Refusal :=
  let h := s.me
  hartStep h (do
    let a := s.readX h rs1
    need (a.toNat % 16 = 0) (.trap 6 0 a)
    let l ← taggedLeaf h true true a
    accessWait h a l true
    let c := s.ctxOf h.tile
    let w ← modifyGet (fun s' => let r := s'.homeRead (some c) l.pa 8; (r.2, r.1))
    let z ← modifyGet (fun s' => let r := s'.homeRead (some c) (l.pa + 8) 8; (r.2, r.1))
    match arrival w z with
    | none => throw (.trap 7 0 a)
    | some (b, token) =>
      upd (fun s' => (((s'.tileWrite h.tile c l 8 b (some true)).markTagged c l).writeX h rd (BitVec.ofNat 64 token)))) s

/-- The phase difference of `barr.wait`: it returns and acquires where it is not zero, else the hart waits (R200). -/
def barrBody (h : HartId) (a : Word) (token : BitVec 24) (rd : Reg) : M Unit := do
  need (a.toNat % 16 = 0) (.trap 4 0 a)
  let l ← taggedLeaf h false false a
  accessWait h a l false
  let s ← get
  let c := s.ctxOf h.tile
  let w ← modifyGet (fun s' => let r := s'.homeRead (some c) l.pa 8; (r.2, r.1))
  let d := (BitVec.ofNat 24 (w / 2 ^ 40)) - token
  upd (fun s' => s'.markTagged c l)
  if d = 0 then throw (.wait (.barr l.pa a token rd))
  else upd (fun s' => (s'.acquireLatch h.tile a).writeX h rd (d.setWidth 64))

def execBarrWait (rd rs1 rs2 : Reg) (s : State) : Host.Outcome State Fault Refusal :=
  hartStep s.me (barrBody s.me (s.readX s.me rs1) (bits (s.readX s.me rs2) 0 24) rd) s

def execBarrWaitWake (s : State) : Host.Outcome State Fault Refusal :=
  match (s.hart s.me).run with
  | .waiting (.barr _ va token rd) => hartStep s.me (barrBody s.me va token rd) s
  | _ => .next s

/-! ## Accumulators and votes (R223, R224) -/

/-- Whether a command owns the accumulators: `an.mul`, `an.gmul`, `an.close`, `an.drain` and `an.zero` (R304). -/
def ownsAcc (w : CmdBits) : Bool := [0x83, 0x84, 0x85, 0x86, 0x88].contains (field w 0 8)

def TileCtx.acc (c : TileCtx) (a : BitVec 1) : SMap Word32 := if a = 0 then c.a0 else c.a1

/-- `accrd`: only on the main hart; an element above 4,095 is illegal; while a command owns the accumulators the trap
names the tla number of the oldest, which its `qput` returned (R223). -/
def execAccrd (rd : Reg) (a : BitVec 1) (rs1 : Reg) (s : State) : Host.Outcome State Fault Refusal :=
  let h := s.me
  hartStep h (do
    let e := s.readX h rs1
    if h.move || 4096 ≤ e.toNat then illegal h
    match (s.tc h.tile).q0.entries.find? (fun x => ownsAcc x.w) with
    | some x => throw (.trap 27 a.toNat x.ret)
    | none => upd (fun s' => s'.writeX h rd ((SMap.get 0 ((s.tc h.tile).acc a) e.toNat).setWidth 64))) s

/-- The latest vote command for a register that is still out (R224). -/
def TileCtx.votePending (c : TileCtx) (vt : BitVec 2) : Bool :=
  c.q0.entries.any (fun e => field e.w 0 8 = 0x71 && field e.w 104 7 = vt.toNat)

def State.returnVote (s : State) (h : HartId) (rd : Reg) (vt : BitVec 2) : State :=
  if (s.tc h.tile).votePending vt then s.setWait h (.vread rd vt)
  else s.result h rd (SMap.get 0 (s.tc h.tile).vt vt.toNat)

def execVread (rd : Reg) (vt : BitVec 2) (s : State) : Host.Outcome State Fault Refusal :=
  if s.me.move then .next (s.illegalAt s.me) else .next (s.returnVote s.me rd vt)

def execVreadReturn (s : State) : Host.Outcome State Fault Refusal :=
  match (s.hart s.me).run with
  | .waiting (.vread rd vt) => .next (s.returnVote s.me rd vt)
  | _ => .next s

end Sys2Proof.Machine
end

