-- ==== Sys2Proof/Machine/Message.lean ====
section
/-! DEFINITION. Message commands and the receive engine (R207, R360 to R375): sends, puts, gets, remote arrivals,
posted receives, landings, acknowledgements and probes. -/

namespace Sys2Proof.Machine

/-! ## Fields (R361) -/

def msH (c : Cmd) : Nat := opf c 64 4
def msNcoord (c : Cmd) : Nat := opf c 68 3
def msScope (c : Cmd) : Nat := opf c 103 5
def msMember (c : Cmd) : Nat := opf c 108 7
def msSrc (c : Cmd) : BitVec 16 := BitVec.ofNat 16 (opf c 108 16)
def msSmask (c : Cmd) : BitVec 16 := BitVec.ofNat 16 (opf c 124 16)
def msClass (c : Cmd) : Nat := opf c 134 2
def msChan (c : Cmd) : BitVec 4 := BitVec.ofNat 4 (opf c 136 4)
def msWord (c : Cmd) : Nat := opf c 140 52
def msTag (c : Cmd) : BitVec 32 := bits c.patch 0 32
def msTmask (c : Cmd) : BitVec 32 := bits c.patch 32 32

inductive MsgKind
  | send
  | put
  | arrive
  | get
  | post
  | cancel
deriving DecidableEq, Repr

/-- Whether a command names a handle. -/
def MsgKind.hasH (k : MsgKind) : Bool := k ≠ .arrive && k ≠ .cancel

/-- Reserved fields, rising. -/
def msReserved (k : MsgKind) (c : Cmd) : List (Nat × Nat) :=
  (if k.hasH then [(71, 1), coordRest 72 (msNcoord c), (100, 3)] else [(64, if k = .cancel then 76 else 39)]) ++
    (match k with
     | .send => [(115, 19), (224, 32)]
     | .put | .get | .arrive => [(115, 19), (136, 4), (244, 12)]
     | .post => []
     | .cancel => [(192, 64)])

/-- The domain of a scope entry of fabric reach that is bound (R186, R189). -/
def Context.fabricDomain (x : Context) (n : Nat) : Option Domain :=
  let e := SMap.get 0 x.scopes n
  if x.scopeBound n && e.getLsbD 8 then x.domains.find? (fun d => d.id = bits e 16 16) else none

/-- The shape and the coordinates of a message command's box. -/
def msShape (r : Run) (c : Cmd) : Shape := shapeOf (r.e.handle (msH c))
def msCoords (r : Run) (c : Cmd) : List Int := coordsOf r.e c 72 (msNcoord c)

/-- The bytes of a box. -/
def Shape.boxBytes (h : Shape) : Nat := h.count * elemSize h.fmt

/-- The checks of a message command when it is taken, and of its word's page when it starts, for one that has not started yet (R364):
answers the domain that its scope entry names. -/
def msChecks (k : MsgKind) (r : Run) (c : Cmd) : M Domain := do
  checkReserved c (msReserved k c)
  if k.hasH then
    checkCapture c ([.h (msH c)] ++ coordNames c 72 (msNcoord c))
    checkShape r.e (msH c)
    let h := msShape r c
    need (h.type = 0) (.fault 0x03 (msH c) 0)
    need (h.fmt = cmdFormat c) (.fault 0x14 (msH c) 0)
    need (h.boxBytes ≤ 2 ^ 20) (.fault 0x04 1 0)
    need (msNcoord c ≤ h.rank) (.fault 0x04 2 0)
  let s ← get
  let d ← if k = .cancel then pure ⟨0, []⟩
    else match (s.ctx (s.ctxOf r.t)).fabricDomain (msScope c) with
      | some d => pure d
      | none => throw (.fault 0x1A (msScope c) 0)
  let w := msWord c
  need (w % 8 = 0 && (k ≠ .post || (w ≠ 0 && w % 16 = 0))) (.fault 0x07 0 w)
  if w ≠ 0 && k ≠ .put && r.e.st ≠ .running then let _ ← engineLeafIn (fun t => t = 0) r true false w
  pure d

/-! ## Tile states wherever they are held -/

/-- Changes the saved state of a context tile in shadow storage. -/
def State.modShadow (s : State) (c ct : Nat) (f : TileCtx → TileCtx) : State :=
  { s with tiles := s.tiles.map (fun p =>
      match p.2.shadow with
      | some sh => if sh.ctx = c && sh.ctile = ct then (p.1, { p.2 with shadow := some { sh with saved := f sh.saved } }) else p
      | none => p) }

/-- The tile that a context tile is on, where it is on one. -/
def State.homeOf (s : State) (c ct : Nat) : Option Nat :=
  (s.tilesOf c)[ct]?.bind (fun t => if (s.tile t).owner = some (c, ct) then some t else none)

/-- The state of a context tile: on its tile, in shadow storage, or in the save area (R136, R137). -/
def State.tcAt (s : State) (c ct : Nat) : TileCtx :=
  match s.homeOf c ct with
  | some t => s.tc t
  | none =>
    match s.tiles.findSome? (fun p => p.2.shadow.bind (fun sh => if sh.ctx = c && sh.ctile = ct then some sh.saved else none)) with
    | some x => x
    | none => SMap.get {} (s.ctx c).saveArea ct

/-- Changes the state of a context tile. -/
def State.modTcAt (s : State) (c ct : Nat) (f : TileCtx → TileCtx) : State :=
  match s.homeOf c ct with
  | some t => s.modTc t f
  | none =>
    (s.modShadow c ct f).modCtx c (fun x => { x with saveArea := x.saveArea.map (fun p => if p.1 = ct then (p.1, f p.2) else p) })

/-! ## Words and outcomes (R366) -/

/-- A leaf of a context's page table; none for an address outside the virtual space. -/
def State.leafAt (s : State) (c va : Nat) : Option Leaf :=
  if 2 ^ 52 ≤ va then none
  else match s.walk c va with
    | .ok l => if l.compressed then none else some l
    | .error _ => none

/-- Writes a word of tier S of a context and sets it full, as a release; a word that does not reach tier S is left. -/
def State.fillAt (s : State) (c va v : Nat) : State :=
  let s := s.deviceWalk c va
  match s.leafAt c va with
  | some l => if l.tier = 0 && l.writable then (s.homeWrite (some c) l.pa 8 v (some true)).markTagged c l else s
  | none => s

/-- `msgstat` after an outcome that is not 0 (R366). -/
def msgstatAfter (old : Word) (op : BitVec 8) (status : Nat) : Word :=
  BitVec.ofNat 64 (status * 2 ^ 60 + op.toNat * 2 ^ 48 + satAdd 32 (field old 0 32) 1)

/-- The outcome of a message command of a context tile: its status word, a write by the tile's engine (R83, R109), and `msgstat` where
it is not 0. -/
def State.outcome (s : State) (c ct : Nat) (op : BitVec 8) (word bytes status : Nat) : State :=
  let own (s : State) : State :=
    match s.homeOf c ct, s.leafAt c word with
    | some t, some l => s.discard t (fun x => x = l.pa / 64)
    | _, _ => s
  let s := if word = 0 then s else own (s.fillAt c word (bytes * 2 ^ 32 + status))
  if status = 0 then s else s.modTcAt c ct (fun x => { x with msgstat := msgstatAfter x.msgstat op status })

/-- Whether a page that holds one of the bytes is moving. -/
def State.spanMoving (s : State) (c va n : Nat) : Bool :=
  (s.ctx c).moves.any (fun m => m.started && m.pages.any (fun p => va < p.1 + 2 ^ pageBits p.2.1 && p.1 < va + n))

/-- Whether a word's page is moving. -/
def State.wordMoving (s : State) (c word : Nat) : Bool := word ≠ 0 && s.spanMoving c word 8

/-! ## Sending (R365) -/

/-- This chip's member index in a domain for a context (R360). -/
def State.memberIndex (s : State) (c : Nat) (d : Domain) : Nat := (d.members.findIdx? (fun m => m = (s.dev.serial, c))).getD 0

/-- The reference by which a target answers. -/
def State.refOf (s : State) (r : Run) : MsgRef := ⟨s.dev.serial, s.ctxOf r.t, s.ctileOf r.t, r.e.seq⟩

/-- Hands a message to the route: to this chip's own receive engine, or to the fabric in a class, from a tile by a channel. -/
def State.handOver (s : State) (serial : Word) (cls tile chan : Nat) (here : Instr) (out : Sent) : State :=
  if serial = s.dev.serial then s.later here else s.depart serial cls tile chan out

/-- The bytes of a number, least significant first. -/
def bytesOf (v : Nat) : Nat → List Byte
  | 0 => []
  | n + 1 => BitVec.ofNat 8 v :: bytesOf (v / 256) n

/-- The payload of a box in walk order; clipped elements give the fill. -/
def readPayload (r : Run) (c : Cmd) : M (List Byte) := do
  let h := msShape r c
  let l ← (List.range h.count).mapM (fun j => do
    let (v, _) ← readElem (directGet r false) h (addCoords (msCoords r c) (boxCoords h.extents j))
    pure (bytesOf v (elemSize h.fmt)))
  pure l.flatten

/-- Notes that an acknowledgement is awaited. -/
def awaitAck (r : Run) (op : BitVec 8) (word : Nat) : M Unit :=
  upd (fun s => s.modTc r.t (fun x => { x with unacked := x.unacked ++ [⟨r.e.seq, op, word⟩] }))

/-- An outcome found at this chip: the command completes locally. -/
def localOutcome (r : Run) (op : BitVec 8) (word bytes status : Nat) : M Unit :=
  upd (fun s => s.outcome (s.ctxOf r.t) (s.ctileOf r.t) op word bytes status)

/-- The requested class, no higher than the context's ceiling (R357). -/
def State.classOf (s : State) (r : Run) (c : Cmd) : Nat := max (msClass c) (s.ctx (s.ctxOf r.t)).cfg.cls.toNat

/-- Hands the request of a command of a tile to the route. -/
def sendOut (r : Run) (c : Cmd) (serial : Word) (chan : Nat) (here : Instr) (out : Sent) : M Unit :=
  upd (fun s => s.handOver serial (s.classOf r c) (s.ctileOf r.t) chan here out)

/-- A send goes on after its start, since each word of its payload may be read in a step of its own (R100, R367). -/
def execTxSend (c : Cmd) (s : State) : Host.Outcome State Fault Refusal :=
  runCommand 0xC0 c (fun r => do
    let d ← msChecks .send r c
    need (!r.only) .begun
    match d.members[msMember c]? with
    | none => localOutcome r 0xC0 (msWord c) 0 4
    | some (serial, peer) =>
      let p ← readPayload r c
      let s ← get
      let src := BitVec.ofNat 16 (s.memberIndex (s.ctxOf r.t) d * 512 + s.ctileOf r.t)
      let m : Message := { ctx := peer, domain := d.id, src := src, chan := msChan c, cls := s.classOf r c,
                           tag := msTag c, payload := p, cut := none, sender := s.refOf r }
      awaitAck r 0xC0 (msWord c)
      sendOut r c serial (msChan c).toNat (.messageArrival m) (.send serial m)
    pure true) s

/-- A put goes on after its start, as a send does. -/
def execTxPut (c : Cmd) (s : State) : Host.Outcome State Fault Refusal :=
  runCommand 0xC1 c (fun r => do
    let d ← msChecks .put r c
    need (!r.only) .begun
    match d.members[msMember c]? with
    | none => localOutcome r 0xC1 0 0 4
    | some (serial, peer) =>
      let p ← readPayload r c
      let s ← get
      let m : RemotePut := { ctx := peer, va := c.patch, payload := p, word := BitVec.ofNat 64 (msWord c), cls := s.classOf r c,
                             cut := none, sender := s.refOf r }
      awaitAck r 0xC1 0
      sendOut r c serial 0 (.remotePutWrite m) (.put serial m)
    pure true) s

def execTxPutArrive (c : Cmd) (s : State) : Host.Outcome State Fault Refusal :=
  runCommand 0xC1 c (fun r => do
    let d ← msChecks .arrive r c
    match d.members[msMember c]? with
    | none => localOutcome r 0xC1 (msWord c) 0 4
    | some (serial, peer) =>
      let s ← get
      let m : RemoteSignal := { ctx := peer, va := c.patch, cls := s.classOf r c, sender := s.refOf r }
      awaitAck r 0xC1 (msWord c)
      sendOut r c serial 0 (.remoteArrival m) (.arrive serial m)
    pure true) s

/-- `tx.get` sends its request once and stays in progress until its replies have landed. -/
def execTxGet (c : Cmd) (s : State) : Host.Outcome State Fault Refusal :=
  runCommand 0xC2 c (fun r => do
    need (!r.e.prog.started) (.hold 0)
    let d ← msChecks .get r c
    match d.members[msMember c]? with
    | none => do localOutcome r 0xC2 (msWord c) 0 4; pure true
    | some (serial, peer) =>
      let s ← get
      let m : RemoteGet := { ctx := peer, va := c.patch, len := (msShape r c).boxBytes, cls := s.classOf r c,
                             sender := s.refOf r }
      sendOut r c serial 0 (.remoteGetRead m) (.get serial m)
      upd (fun s => s.modEntry r.t r.q r.e.seq (fun e => { e with prog := { e.prog with started := true } }))
      pure false) s

/-! ## The pieces of a box -/

/-- Bytes from byte `off` of a box cut at its elements: element, first byte in it, bytes. At most `n` pieces. -/
def boxPieces (size : Nat) : Nat → Nat → List Byte → List (Nat × Nat × List Byte)
  | 0, _, _ => []
  | n + 1, off, l =>
    if l.isEmpty then []
    else
      let k := size - off % size
      (off / size, off % size, l.take k) :: boxPieces size n (off + k) (l.drop k)

/-- The value of bytes, least significant first. -/
def bytesValue : List Byte → Nat
  | [] => 0
  | b :: r => b.toNat + 256 * bytesValue r

/-- The number of the word that a piece of a box is written to; none where its element clips. -/
def pieceWord (h : Shape) (x : List Int) (p : Nat × Nat × List Byte) : Option Int :=
  (denseElem h (addCoords x (boxCoords h.extents p.1))).map (fun z => (z.a + p.2.1) / 8)

/-! ## Landing (R370) -/

inductive LandEnd
  | whole
  | fault
  | stall
deriving DecidableEq, Repr

/-- Lands pieces at a box of a context: the bytes landed, and how it ended. -/
def State.landPieces (s : State) (c : Nat) (h : Shape) (x : List Int) :
    List (Nat × Nat × List Byte) → Nat → State × Nat × LandEnd
  | [], n => (s, n, .whole)
  | (j, o, l) :: r, n =>
    match denseElem h (addCoords x (boxCoords h.extents j)) with
    | none => State.landPieces (s.modCtx c (fun k => { k with clip := if o = 0 then satAdd 64 k.clip 1 else k.clip })) c h x r
        (n + l.length)
    | some p =>
      if p.a < 0 then (s, n, .fault)
      else
        let s := s.deviceWalk c (p.a.toNat + o)
        match s.leafAt c (p.a.toNat + o) with
        | none => (s, n, .fault)
        | some leaf =>
          if leaf.tier = 2 || !leaf.writable then (s, n, .fault)
          else if (s.ctx c).moving (p.a.toNat + o) then (s, n, .stall)
          else State.landPieces (s.engineWrite c leaf.pa l.length (bytesValue l)) c h x r (n + l.length)

/-- What is left to land of a message, in walk order. -/
def Landing.pieces (l : Landing) : List (Nat × Nat × List Byte) :=
  let h := shapeOf l.p.handle
  let len := min (match l.m.cut with | some k => min k l.m.payload.length | none => l.m.payload.length) h.boxBytes
  boxPieces (elemSize h.fmt) len l.n ((l.m.payload.take len).drop l.n)

/-- Lands the next `k` pieces of a message: its writes have ended once one of them faults, and once nothing is left. -/
def State.landSome (s : State) (c : Nat) (l : Landing) (k : Nat) : State × Landing :=
  let r := s.landPieces c (shapeOf l.p.handle) l.p.coords (l.pieces.take k) l.n
  (r.1, { l with n := r.2.1, ended := r.2.2 = .fault || (r.2.2 = .whole && l.pieces.length ≤ k), fault := r.2.2 = .fault })

/-- Lands what is left of a message. -/
def State.land (s : State) (c : Nat) (l : Landing) : State × Landing := s.landSome c l l.pieces.length

/-- How many of the next pieces of a landing lie in one word, with those that clip before and among them (R100). -/
def Landing.inWord (l : Landing) : Nat :=
  let ws := l.pieces.map (pieceWord (shapeOf l.p.handle) l.p.coords)
  match ws.findSome? id with
  | none => ws.length
  | some w => (ws.takeWhile (fun x => x.all (· = w))).length

/-- The receive engine lands one more word of the n-th landing of a context, which then is the first to complete: landings of different
receives complete in any order, and the writes of each are made in walk order, each word of memory apart (R100, R369, R370; log
entry 139). -/
def State.landNext (s : State) (c n : Nat) : State :=
  match (s.ctx c).landings[n]? with
  | none => s
  | some l =>
    let r := if l.ended then (s, l) else s.landSome c l l.inWord
    r.1.modCtx c (fun x => { x with landings := r.2 :: x.landings.eraseIdx n })

/-- The status of a receive whose landing is over. -/
def Landing.status (l : Landing) : Nat :=
  if l.fault then 2
  else if l.m.cut.isSome then 4
  else if l.m.payload.length > (shapeOf l.p.handle).boxBytes then 1 else 0

/-- Fills the words of a receive and advances tlr (R370, R371). -/
def State.fillReceive (s : State) (c word : Nat) (tag : BitVec 32) (src : BitVec 16) (chan : BitVec 4) (n status : Nat) : State :=
  let k := (s.ctx c).tlr + 1
  let s := s.deviceWalk c (word + 8)
  let s := match s.leafAt c (word + 8) with
    | some l => if l.tier = 0 && l.writable then s.homeWrite (some c) l.pa 8 (k % 2 ^ 32 * 2 ^ 32 + n) none else s
    | none => s
  let s := s.fillAt c word (tag.toNat * 2 ^ 32 + src.toNat * 2 ^ 16 + chan.toNat * 2 ^ 12 + status)
  let s := s.modCtx c (fun x => { x with tlr := k })
  if status = 0 then s else s.setTlerrAll c 4

/-- Tells the sender of a message how it went, in the message's class. -/
def State.ack (s : State) (dst : MsgRef) (cls bytes status : Nat) : State :=
  let b := BitVec.ofNat 32 bytes; let st := BitVec.ofNat 8 status
  s.handOver dst.serial cls 0 0 (.messageAck ⟨dst.ctx, dst.ctile, dst.seq, b, st⟩) (.ack dst b st)

/-! ## The unexpected queue (R368, R369) -/

/-- The place of an entry of the unexpected queue in tier D: a 64-byte header, then the payload. -/
def CtxRecord.uqEntry (x : CtxRecord) (i : Nat) : Nat := x.uq + i * (64 + 2 ^ x.uqlog)

/-- The entry that has been free for the longest time: one never used, else the first freed; none where none is free. -/
def Context.freeEntry (x : Context) : Option Nat := if x.uqUsed < x.cfg.uqn then some x.uqUsed else x.uqFreed.head?

/-- Whether the unexpected queue of a context takes a message, and in which entry. -/
def Context.parks (x : Context) (m : Message) : Option Nat := if m.payload.length ≤ 2 ^ x.cfg.uqlog then x.freeEntry else none

/-- Writes bytes from a physical address as whole words, the last padded with zeros. -/
def State.storeWords (s : State) (c pa : Nat) (l : List Byte) : State :=
  (List.range ((l.length + 7) / 8)).foldl (fun (s : State) i =>
    s.engineWrite c (pa + 8 * i) 8 (bytesValue ((l.drop (8 * i)).take 8))) s

/-- Parks a message in an entry: the header, whose bytes the manual does not give, is free values (log entry 56). -/
def State.park (s : State) (i : Nat) (m : Message) : State :=
  let pa := (s.ctx m.ctx).cfg.uqEntry i
  let s := (List.range 8).foldl (fun (s : State) k =>
    let w := s.free
    w.2.homeWrite (some m.ctx) (pa + 8 * k) 8 w.1.toNat none) s
  (s.storeWords m.ctx (pa + 64) m.payload).modCtx m.ctx (fun x =>
    { x with parked := x.parked ++ [(i, m)]
             uqUsed := max x.uqUsed (i + 1)
             uqFreed := x.uqFreed.filter (· ≠ i) })

/-- Reads n bytes from a physical address, line by line. -/
def State.loadLines (s : State) (c pa n : Nat) : State × List Byte :=
  let r := (List.range ((n + 63) / 64)).foldl (fun (acc : State × List Byte) i =>
    let x := match acc.1.engineLoss c false with
      | some s => (s, 0)
      | none => acc.1.homeRead (some c) (pa + 64 * i) 64
    (x.1, acc.2 ++ bytesOf x.2 64)) (s, [])
  (r.1, r.2.take n)

/-- Takes a parked message out of the queue's list, with the payload that its entry holds; the entry is free after the landing. -/
def State.unpark (s : State) (i : Nat) (m : Message) : State × Message :=
  let r := s.loadLines m.ctx ((s.ctx m.ctx).cfg.uqEntry i + 64) m.payload.length
  (r.1.modCtx m.ctx (fun x => { x with parked := x.parked.filter (fun p => p.1 ≠ i) }), { m with payload := r.2 })

/-- Starts the landing of a message in a receive. -/
def State.startLanding (s : State) (c : Nat) (p : Posted) (m : Message) (parked : Option Nat) : State :=
  (s.modCtx c (fun x => { x with landings := x.landings ++ [{ p := p, m := m, parked := parked }] })).later (.landingComplete c)

/-- The first landing ends its writes, fills its words and is acknowledged, with outcome 4 where it faulted (R365); one that stalls at a
moving page is tried again. It is the oldest, but where `landNext` has brought another to the front (DESIGN CHOICE, log entry 139). A
message that had been parked has been acknowledged before, and its entry is free now. -/
def execLandingComplete (c : Nat) (s : State) : Host.Outcome State Fault Refusal :=
  match (s.ctx c).landings with
  | [] => .next s
  | l :: rest =>
    let r := if l.ended then (s, l) else s.land c l
    let s := r.1; let l := r.2
    if !l.ended || s.wordMoving c l.p.word then
      .next ((s.modCtx c (fun x => { x with landings := rest ++ [l] })).later (.landingComplete c))
    else
      let s := s.modCtx c (fun x => { x with landings := rest })
      let s := s.fillReceive c l.p.word l.m.tag l.m.src l.m.chan l.n l.status
      match l.parked with
      | some i => .next (s.modCtx c (fun x => { x with uqFreed := x.uqFreed ++ [i] }))
      | none => .next (if l.m.cut.isSome then s else s.ack l.m.sender l.m.cls l.n (if l.fault then 4 else 0))

/-! ## The receive engine (R368, R369) -/

/-- Whether a message matches a posted receive. -/
def Posted.matches (p : Posted) (m : Message) : Bool :=
  p.domain = m.domain && (m.src ^^^ p.src) &&& ~~~p.smask = 0 && (m.tag ^^^ p.tag) &&& ~~~p.tmask = 0

/-- Removes the first element that a test picks. -/
def dropFirst {α : Type} (p : α → Bool) : List α → List α
  | [] => []
  | x :: r => if p x then r else x :: dropFirst p r

/-- Whether a context takes messages: it exists and has not been torn down (R206, R372). -/
def Context.receives (x : Context) : Bool := x.st ≠ .free && x.st ≠ .tornDown

/-- A signal to a context that takes none is counted and logged (R206, R388). -/
def State.countSignal (s : State) (c : Nat) : State :=
  (s.modDev (fun d => { d with droppedSignals := satAdd 64 d.droppedSignals 1 })).logEvent .signalDropped (some c) 0

/-- A signal to a context that takes none: counted, and the sender told (R206). -/
def State.dropSignal (s : State) (c : Nat) (dst : MsgRef) (cls : Nat) : State := (s.countSignal c).ack dst cls 0 2

def execMessageArrival (m : Message) (s : State) : Host.Outcome State Fault Refusal :=
  let x := s.ctx m.ctx
  if !x.receives then .next (if m.cut.isSome then s else s.dropSignal m.ctx m.sender m.cls)
  else match x.posted.find? (fun p => p.matches m) with
    | some p =>
      .next ((s.modCtx m.ctx (fun x => { x with posted := dropFirst (fun p => p.matches m) x.posted })).startLanding m.ctx p m none)
    | none =>
      if m.cut.isSome then .next s
      else match x.parks m with
        | some i => .next ((s.park i m).ack m.sender m.cls m.payload.length 0)
        | none => .next ((s.modCtx m.ctx (fun x => { x with drops := satAdd 32 x.drops 1 })).ack m.sender m.cls 0 1)

def execRxPost (c : Cmd) (s : State) : Host.Outcome State Fault Refusal :=
  runCommand 0xC8 c (fun r => do
    let d ← msChecks .post r c
    let s ← get
    let ctx := s.ctxOf r.t
    let x := s.ctx ctx
    need (x.posted.length < 1024) (.fault 0x1B 0 0)
    let p : Posted := { domain := d.id, src := msSrc c, smask := msSmask c, tag := msTag c, tmask := msTmask c,
                        word := msWord c, handle := r.e.handle (msH c), coords := msCoords r c }
    match x.parked.find? (fun m => p.matches m.2) with
    | some (i, m) =>
      upd (fun s => let u := s.unpark i m; u.1.startLanding ctx p u.2 (some i))
    | none => upd (fun s => s.modCtx ctx (fun x => { x with posted := x.posted ++ [p] }))
    pure true) s

def execRxCancel (c : Cmd) (s : State) : Host.Outcome State Fault Refusal :=
  runCommand 0xC9 c (fun r => do
    let _ ← msChecks .cancel r c
    let s ← get
    let ctx := s.ctxOf r.t
    match (s.ctx ctx).posted.find? (fun p => p.word = msWord c) with
    | none => pure ()
    | some p =>
      upd (fun s => (s.modCtx ctx (fun x => { x with posted := dropFirst (fun p => p.word = msWord c) x.posted })).fillReceive
        ctx p.word p.tag p.src 0 0 3)
    pure true) s

/-! ## Probing (R374) -/

/-- The entries of the chosen list that match: result word and word 3. -/
def probeList (x : Context) (domain src smask : BitVec 16) (tag tmask : BitVec 32) (unexp : Bool) : List (Word × Word) :=
  let hit (d s : BitVec 16) (t : BitVec 32) : Bool := d = domain && (s ^^^ src) &&& ~~~smask = 0 && (t ^^^ tag) &&& ~~~tmask = 0
  let res (t : BitVec 32) (s : BitVec 16) (ch : Nat) : Word := BitVec.ofNat 64 (t.toNat * 2 ^ 32 + s.toNat * 2 ^ 16 + ch * 2 ^ 12)
  if unexp then
    (x.parked.filter (fun p => hit p.2.domain p.2.src p.2.tag)).map (fun p =>
      (res p.2.tag p.2.src p.2.chan.toNat, BitVec.ofNat 64 p.2.payload.length))
  else (x.posted.filter (fun p => hit p.domain p.src p.tag)).map (fun p => (res p.tag p.src 0, BitVec.ofNat 64 p.word))

/-- The page of a probe record: tier S, writable. Of a compressed page the page fault of R341 comes before the tier test of R374 (DESIGN
CHOICE, log entry 20). -/
def probeLeaf (h : HartId) (a : Word) : M Leaf := do
  need (a.toNat % 32 = 0) (.trap 4 0 a)
  need (a.toNat < 2 ^ 52) (.trap 7 0 a)
  let l ← hartLeaf h false 32 a
  need (l.tier = 0) (.trap 7 0 a)
  need l.writable (.trap 15 3 a)
  pure l

def execRxProbe (rd rs1 : Reg) (s : State) : Host.Outcome State Fault Refusal :=
  let h := s.me
  let a := s.readX h rs1
  hartStep h (do
    let l ← probeLeaf h a
    let w0 ← plainRead h 8 a
    let w1 ← plainRead h 8 (a + 8)
    let k := BitVec.ofNat 64 w1
    let s ← get
    let x := s.ctx (s.ctxOf h.tile)
    match x.fabricDomain (field k 8 5) with
    | none => upd (fun s => s.writeX h rd (BitVec.allOnes 64))
    | some d =>
      if k &&& 0xFFFF00000000E0FE ≠ 0 then upd (fun s => s.writeX h rd (BitVec.allOnes 64))
      else
        let v := BitVec.ofNat 64 w0
        let c := probeList x d.id (bits k 16 16) (bits k 32 16) (bits v 0 32) (bits v 32 32) (k.getLsbD 0)
        match c with
        | [] => pure ()
        | r :: _ => do
          accessWait h (a + 16) l true
          let put (s : State) (off : Nat) (v : Word) : State :=
            s.plainWrite h.tile (s.ctxOf h.tile) { l with pa := l.pa + off } 8 v.toNat
          upd (fun s => put (put s 16 r.1) 24 r.2)
        upd (fun s => s.writeX h rd (BitVec.ofNat 64 c.length))) s

/-! ## At the target (R207, R365) -/

/-- The leaf by which another chip reaches an address of a context: its copy engine reaches compressed pages too (R341). -/
def State.remoteLeaf (s : State) (copy : Bool) (c va : Nat) : Option Leaf :=
  if !copy then s.leafAt c va
  else if 2 ^ 52 ≤ va then none
  else match s.walk c va with
    | .ok l => some l
    | .error _ => none

/-- Writes bytes at a virtual address of a context, word by word; none where one of them cannot be written. -/
def State.putBytes (copy : Bool) (s : State) (c : Nat) : Nat → List (Nat × Nat × List Byte) → Option State
  | _, [] => some s
  | base, (j, o, l) :: r =>
    let s := s.deviceWalk c (base + 8 * j + o)
    match s.remoteLeaf copy c (base + 8 * j + o) with
    | none => none
    | some leaf =>
      if leaf.tier = 2 || !leaf.writable then none
      else State.putBytes copy (s.engineWrite c leaf.pa l.length (bytesValue l)) c base r

/-- Makes the bytes that can be written free values. -/
def State.scrambleBytes (copy : Bool) (s : State) (c : Nat) : Nat → List (Nat × Nat × List Byte) → State
  | _, [] => s
  | base, (j, o, l) :: r =>
    match s.remoteLeaf copy c (base + 8 * j + o) with
    | none => State.scrambleBytes copy s c base r
    | some leaf =>
      if leaf.tier = 2 || !leaf.writable then State.scrambleBytes copy s c base r
      else
        let w := s.free
        State.scrambleBytes copy (w.2.homeWrite (some c) leaf.pa l.length w.1.toNat none) c base r

/-- Whether two puts come from one tile in one class: their writes enter in push order (R367). -/
def RemotePut.sameOrder (p q : RemotePut) : Bool :=
  p.sender.serial = q.sender.serial && p.sender.ctx = q.sender.ctx && p.sender.ctile = q.sender.ctile && p.cls = q.cls

/-- The pieces of a put, word by word from the word that holds its first byte. -/
def RemotePut.parts (p : RemotePut) : List (Nat × Nat × List Byte) := boxPieces 8 p.payload.length (p.va.toNat % 8) p.payload

/-- The pieces of a put that no step of their own has written (R100). -/
def State.partsLeft (s : State) (p : RemotePut) : List (Nat × Nat × List Byte) :=
  (RemotePut.parts p).filter (fun x => !s.putWords.contains (p, p.va.toNat / 8 + x.1))

/-- The oldest put of the order of a put, of those that wait and those on their way (R367). -/
def State.putFirst (s : State) (p : RemotePut) : Option RemotePut :=
  (s.heldPuts ++ s.agenda.filterMap (fun m => match m with | .event (.remotePutWrite q) => some q | _ => none)).find?
    (RemotePut.sameOrder p)

/-- One word of a put on its way is written before its other writes: each word is apart from the others, and puts of one order keep theirs
(R100, R367; log entry 13). A word that cannot be written is left to the put itself. -/
def State.putWord (s : State) (p : RemotePut) (va : Nat) : State :=
  let l := (s.partsLeft p).filter (fun x => p.va.toNat / 8 + x.1 = va / 8)
  if s.putFirst p ≠ some p || p.cut.isSome || !(s.ctx p.ctx).receives || l.isEmpty || s.spanMoving p.ctx (va / 8 * 8) 8 then s
  else match State.putBytes p.copy s p.ctx (p.va.toNat / 8 * 8) l with
    | none => s
    | some s => { s with putWords := s.putWords ++ [(p, va / 8)] }

/-- A put has ended: it waits no longer. -/
def State.endPut (s : State) (p : RemotePut) : State :=
  { s with heldPuts := s.heldPuts.filter (· ≠ p), putWords := s.putWords.filter (fun x => x.1 ≠ p) }

/-- A put waits at a page that is moving, or behind an older one that waits (R338, R367). -/
def State.holdPut (s : State) (p : RemotePut) : State :=
  (if s.heldPuts.contains p then s else { s with heldPuts := s.heldPuts ++ [p] }).later (.remotePutWrite p)

/-- The writes of a put, then its completion word: outcome 4 where one of them cannot be made. Of one that a link failure has cut its
range is unpredictable and its word is not filled (R375). -/
def execRemotePutWrite (p : RemotePut) (s : State) : Host.Outcome State Fault Refusal :=
  let c := p.ctx
  let behind : Bool := match s.heldPuts.find? (RemotePut.sameOrder p) with | some q => decide (q ≠ p) | none => false
  if !(s.ctx c).receives then
    .next (if p.cut.isSome then s.endPut p else (s.endPut p).dropSignal c p.sender p.cls)
  else if behind || s.spanMoving c p.va.toNat p.payload.length || s.wordMoving c p.word.toNat then .next (s.holdPut p)
  else
    let l := s.partsLeft p
    let s := s.endPut p
    let base := p.va.toNat / 8 * 8
    if p.cut.isSome then .next (State.scrambleBytes p.copy s c base (RemotePut.parts p))
    else match State.putBytes p.copy s c base l with
    | none => .next ((State.scrambleBytes p.copy s c base (RemotePut.parts p)).ack p.sender p.cls 0 4)
    | some s =>
      if p.word = 0 then .next (s.ack p.sender p.cls p.payload.length 0)
      else
        let s := s.deviceWalk c p.word.toNat
        match s.leafAt c p.word.toNat with
        | some leaf =>
          if leaf.tier = 0 && leaf.writable then
            .next ((s.fillAt c p.word.toNat (p.payload.length * 2 ^ 32)).ack p.sender p.cls p.payload.length 0)
          else .next (s.ack p.sender p.cls 0 4)
        | none => .next (s.ack p.sender p.cls 0 4)

/-- Reads bytes of a context at their homes, word by word, counted for the barrow in tier S (R340), but those of words that have been read
before, by address / 8 (R100); none where one of them cannot be read. -/
def State.getBytes (copy : Bool) (seen : List (Nat × Word)) (s : State) (c : Nat) :
    Nat → List (Nat × Nat × List Byte) → Option (State × List Byte)
  | _, [] => some (s, [])
  | base, (j, o, l) :: r =>
    match seen.lookup (base / 8 + j) with
    | some w => (State.getBytes copy seen s c base r).map (fun y => (y.1, bytesOf (wordPart w o l.length) l.length ++ y.2))
    | none =>
      let s := s.deviceWalk c (base + 8 * j + o)
      match s.remoteLeaf copy c (base + 8 * j + o) with
      | none => none
      | some leaf =>
        let x := match s.engineLoss c false with
          | some s => (s, 0)
          | none => s.directRead c leaf l.length
        (State.getBytes copy seen x.1 c base r).map (fun y => (y.1, bytesOf x.2 l.length ++ y.2))

/-- The words that steps of their own have read for a remote get. -/
def State.seenFor (s : State) (g : RemoteGet) : List (Nat × Word) :=
  s.getWords.filterMap (fun x => if x.1 = g then some x.2 else none)

/-- One word is read for a remote get on its way, before its other reads (R100; log entry 13). A word that cannot be read is left to the
get itself. -/
def State.getWord (s : State) (g : RemoteGet) (va : Nat) : State :=
  let w := va / 8
  if !s.agenda.contains (.event (.remoteGetRead g)) || !(s.ctx g.ctx).receives || ((s.seenFor g).lookup w).isSome ||
    w < g.va.toNat / 8 || (g.va.toNat + g.len + 7) / 8 ≤ w then s
  else match State.getBytes g.copy [] s g.ctx (8 * w) [(0, 0, List.replicate 8 0)] with
    | none => s
    | some r => { r.1 with getWords := r.1.getWords ++ [(g, w, BitVec.ofNat 64 (bytesValue r.2))] }

/-- The bytes of a get are read and sent back; outcome 4 where one cannot be read. -/
def execRemoteGetRead (g : RemoteGet) (s : State) : Host.Outcome State Fault Refusal :=
  let c := g.ctx
  let seen := s.seenFor g
  let s := { s with getWords := s.getWords.filter (fun x => x.1 ≠ g) }
  let reply (s : State) (l : List Byte) (st : BitVec 8) : State :=
    s.handOver g.sender.serial g.cls 0 0 (.getReply ⟨g.sender.ctx, g.sender.ctile, g.sender.seq, 0, l, true, st⟩) (.reply g.sender l st)
  if !(s.ctx c).receives then
    .next (reply (s.countSignal c) [] 2)
  else match State.getBytes g.copy seen s c (g.va.toNat / 8 * 8) (boxPieces 8 g.len (g.va.toNat % 8) (List.replicate g.len 0)) with
    | none => .next (reply s [] 4)
    | some r => .next (reply r.1 r.2 0)

/-- A remote arrival takes the home step of R199: applied, or refused with outcome 4 (R207). -/
def execRemoteArrival (a : RemoteSignal) (s : State) : Host.Outcome State Fault Refusal :=
  let c := a.ctx
  if !(s.ctx c).receives then .next (s.dropSignal c a.sender a.cls)
  else if s.spanMoving c a.va.toNat 16 then .next (s.later (.remoteArrival a))
  else
    let s := s.deviceWalk c a.va.toNat
    match s.leafAt c a.va.toNat with
    | none => .next (s.ack a.sender a.cls 0 4)
    | some l =>
      if a.va.toNat % 16 ≠ 0 || l.tier ≠ 0 || !l.writable then .next (s.ack a.sender a.cls 0 4)
      else
        let w := s.homeRead (some c) l.pa 8
        let z := w.1.homeRead (some c) (l.pa + 8) 8
        match arrival w.2 z.2 with
        | none => .next (z.1.ack a.sender a.cls 0 4)
        | some (b, _) => .next (((z.1.homeWrite (some c) l.pa 8 b (some true)).markTagged c l).ack a.sender a.cls 0 0)

/-! ## Answers -/

/-- The writes of reply bytes into the box of a `tx.get`; clipped elements are counted. -/
def landReply (r : Run) (c : Cmd) : List (Nat × Nat × List Byte) → M Unit
  | [] => pure ()
  | (j, o, l) :: rest => do
    let h := msShape r c
    match denseElem h (addCoords (msCoords r c) (boxCoords h.extents j)) with
    | none => countClip r (if o = 0 then 1 else 0)
    | some p =>
      let a ← formed p.a
      enginePut r false (a + o) l.length (bytesValue l)
    landReply r c rest

/-- Makes the elements of a box from `lo` on free values, where they can be written (R375). -/
def State.scrambleBox (s : State) (r : Run) (c : Cmd) (lo : Nat) : State :=
  let h := msShape r c
  s.scramble r false ((List.range (h.count - lo)).filterMap (fun i =>
    (denseElem h (addCoords (msCoords r c) (boxCoords h.extents (lo + i)))).map
      (fun p => { va := p.a.toNat, n := elemSize h.fmt, v := 0 })))

/-- The `tx.get` that a reply is for, where it is in progress. -/
def State.getRun (s : State) (g : GetReply) : Option Run :=
  ((s.homeOf g.ctx g.ctile).bind (fun t => ((s.queue t 2).find g.seq).map (fun e => ({ t := t, q := 2, e := e } : Run)))).filter
    (fun r => r.e.st = .running && field r.e.w 0 8 = 0xC2 && r.e.prog.started)

/-- The box byte at which a piece starts. -/
def pieceStart (r : Run) (c : Cmd) (p : Nat × Nat × List Byte) : Nat := p.1 * elemSize (msShape r c).fmt + p.2.1

/-- The pieces of a reply that no step of their own has landed (R100). -/
def replyLeft (r : Run) (c : Cmd) (g : GetReply) : List (Nat × Nat × List Byte) :=
  let l := g.bytes.take ((msShape r c).boxBytes - g.off)
  (boxPieces (elemSize (msShape r c).fmt) l.length g.off l).filter (fun p => !r.e.prog.puts.contains (pieceStart r c p))

/-- A run whose entry has written nothing in steps of their own: the pieces that it lands have been chosen already. -/
def Run.whole (r : Run) : Run := { r with e := { r.e with prog := { r.e.prog with puts := [] } } }

/-- The pieces of one word of a reply on its way land before the others (R100; log entry 13). A word that cannot be written is left to the
reply itself. -/
def State.replyWord (s : State) (g : GetReply) (va : Nat) : State :=
  match s.getRun g with
  | none => s
  | some r =>
    let c := cmdOfBits r.e.w
    let l := (replyLeft r c g).filter (fun p => pieceWord (msShape r c) (msCoords r c) p = some ((va / 8 : Nat) : Int))
    if !s.agenda.contains (.event (.getReply g)) || l.isEmpty then s
    else match (landReply r.whole c l) s with
      | .ok _ s' =>
        s'.modEntry r.t 2 r.e.seq (fun e => { e with prog := { e.prog with puts := l.map (pieceStart r c) ++ e.prog.puts } })
      | .error _ s' => s.keepFresh s' (some g.ctx)

/-- Reply bytes land; after the last the completion word is filled and the command has completed. A landing that cannot
be made ends it in a command fault, its box unpredictable (R365). -/
def execGetReply (g : GetReply) (s : State) : Host.Outcome State Fault Refusal :=
  let s := if g.last then s.answered (fun x => match x with
    | .get _ r => r.sender.ctx = g.ctx && r.sender.ctile = g.ctile && r.sender.seq = g.seq
    | _ => false) else s
  match s.getRun g with
  | none => .next s
  | some r =>
    let c := cmdOfBits r.e.w
    let h := msShape r c
    let landed := r.e.prog.next + (g.bytes.take (h.boxBytes - g.off)).length
    let body : M Unit := do
      landReply r.whole c (replyLeft r c g)
      upd (fun s => s.modEntry r.t 2 r.e.seq (fun e => { e with prog := { e.prog with next := landed } }))
      if g.last then
        if g.status = 3 then upd (fun s => s.scrambleBox r c (landed / elemSize h.fmt))
        let s ← get
        need (!s.wordMoving g.ctx (msWord c)) (.hold 0)
        localOutcome r 0xC2 (msWord c) landed g.status.toNat
        upd (fun s => s.modEntry r.t 2 r.e.seq (fun e => { e with st := .done }))
    match body s with
    | .ok _ s' => .next s'
    | .error (.fault code detail addr) s' =>
      .next ((s'.scrambleBox r c 0).modTc r.t (fun x => x.recordFault 2 r.e code detail addr s'.clk))
    | .error _ s' => .next ((s.keepFresh s' (some (s.ctxOf r.t))).later (.getReply g))

/-- A target's answer: the status word and `msgstat` record the outcome; a put or arrival that was lost is counted
(R356, R375). -/
def execMessageAck (a : MsgAck) (s : State) : Host.Outcome State Fault Refusal :=
  let mine (r : MsgRef) : Bool := r.ctx = a.ctx && r.ctile = a.ctile && r.seq = a.seq
  let s := s.answered (fun x => match x with
    | .send _ m => mine m.sender
    | .put _ p => mine p.sender
    | .arrive _ p => mine p.sender
    | _ => false)
  match (s.tcAt a.ctx a.ctile).unacked.find? (fun u => u.seq = a.seq) with
  | none => .next s
  | some u =>
    if s.wordMoving a.ctx u.word then .next (s.later (.messageAck a))
    else
      let s := s.modTcAt a.ctx a.ctile (fun x => { x with unacked := x.unacked.filter (fun u => u.seq ≠ a.seq) })
      let s := if a.status = 3 && u.op = 0xC1 then s.modCtx a.ctx (fun x => { x with lost := satAdd 64 x.lost 1 }) else s
      .next (s.outcome a.ctx a.ctile u.op u.word a.bytes.toNat a.status.toNat)

end Sys2Proof.Machine
end

