-- ==== Sys2Proof/Machine/Copy.lean ====
section
/-! DEFINITION. The copy engine (R308 to R328): copies chunk by chunk, the block decoder, remote
elements, completion of chunks, suspension and cancelling. -/

namespace Sys2Proof.Machine

/-! ## Fields (R309) -/

inductive CopyKind
  | nd
  | gather
  | scatter
  | dec
  | red
  | fill
  | pref
deriving DecidableEq, Repr

def cpHs (c : Cmd) : Nat := opf c 64 4
def cpNcoord (c : Cmd) : Nat := opf c 68 3
def cpIdim (c : Cmd) : Nat := opf c 108 4
def cpEp (c : Cmd) : Nat := opf c 112 16
def cpDncoord (c : Cmd) : Nat := opf c 128 3
def cpHd (c : Cmd) : Nat := opf c 160 4
def cpHx (c : Cmd) : Nat := opf c 164 4
def cpTkr (c : Cmd) : Nat := opf c 168 4
def cpTkp (c : Cmd) : Nat := opf c 172 4
def cpTkn (c : Cmd) : Nat := opf c 176 12
def cpTkc (c : Cmd) : Nat := opf c 188 4
def cpBitmap (c : Cmd) : Nat := c.patch.toNat % 2 ^ 52
/-- PC and RG (R310). -/
def cpPc (c : Cmd) : Bool := c.md.getLsbD 0
def cpRg (c : Cmd) : Bool := c.md.getLsbD 1
/-- R: the indexed side is remote. -/
def cpRemote (k : CopyKind) (c : Cmd) : Bool := (k = .gather || k = .scatter) && c.sub.getLsbD 0
/-- Element size. -/
def cpSize (c : Cmd) : Nat := elemSize (cmdFormat c)

def CopyKind.hasHs (k : CopyKind) : Bool := k ≠ .fill
def CopyKind.hasHd (k : CopyKind) : Bool := k ≠ .pref
def CopyKind.hasHx (k : CopyKind) : Bool := k = .gather || k = .scatter

/-- The kind of an operation. -/
def copyKind (op : Nat) : CopyKind :=
  match op with
  | 0xA0 => .nd | 0xA1 => .gather | 0xA2 => .scatter | 0xA3 => .dec | 0xA4 => .red | 0xA5 => .fill | _ => .pref

/-- The bitmap of a copy: `cp.fill` and `cp.pref` name none. -/
def cpBits (k : CopyKind) (c : Cmd) : Nat := if k = .fill || k = .pref then 0 else cpBitmap c

/-! ## Checks when taken (R312) -/

/-- Reserved and unused fields, rising. -/
def cpReserved (k : CopyKind) (c : Cmd) : List (Nat × Nat) :=
  let free (b : Bool) (p : Nat × Nat) : List (Nat × Nat) := if b then [] else [p]
  (if k.hasHs then [(71, 1), coordRest 72 (cpNcoord c)] else [(64, 36)]) ++ [(100, 8)] ++ free k.hasHx (108, 4) ++
    free (cpRemote k c) (112, 16) ++
    (if k.hasHd then [(131, 1), coordRest 132 (cpDncoord c)] else [(128, 36)]) ++ free k.hasHx (164, 4) ++
    free (k = .dec) (168, 4) ++ free k.hasHd (172, 20) ++
    (match k with
     | .pref => [(192, 64)]
     | .fill => [(192 + 8 * cpSize c, 64 - 8 * cpSize c)]
     | _ => [(244, 12)])

/-- The registers that a copy names, by their places. -/
def cpNamed (k : CopyKind) (c : Cmd) : List Named :=
  (if k.hasHs then [.h (cpHs c)] ++ coordNames c 72 (cpNcoord c) else []) ++
    (if k.hasHd then coordNames c 132 (cpDncoord c) ++ [.h (cpHd c)] else []) ++
    (if k.hasHx then [.h (cpHx c)] else [])

/-- The shapes of a copy: source, destination, index. -/
def cpSource (r : Run) (c : Cmd) : Shape := shapeOf (r.e.handle (cpHs c))
def cpDest (r : Run) (c : Cmd) : Shape := shapeOf (r.e.handle (cpHd c))
def cpIndex (r : Run) (c : Cmd) : Shape := shapeOf (r.e.handle (cpHx c))

/-- The shape whose extents are the box (R313). -/
def cpBox (k : CopyKind) (r : Run) (c : Cmd) : Shape := if k = .pref then cpSource r c else cpDest r c

/-- Limits: the lowest failing field number (R312). -/
def cpLimit (k : CopyKind) (r : Run) (c : Cmd) : Option Nat :=
  let hs := cpSource r c; let hd := cpDest r c
  if (k = .nd || k = .gather || k = .scatter || k = .red) && hs.rank ≠ hd.rank then some 1
  else if (k.hasHs && cpNcoord c > hs.rank) || (k.hasHd && cpDncoord c > hd.rank) then some 2
  else if k.hasHx && cpIdim c ≥ hd.rank then some 3
  else if (cpBox k r c).count * cpSize c > 2 ^ 40 then some 4
  else none

/-- The checks of a copy when it is taken, but for the bitmap. Where several handles fail one check the fault names hs, then hd, then hx:
the spec gives no order among them (R312; DESIGN CHOICE, log entry 100). -/
def cpChecks (k : CopyKind) (r : Run) (c : Cmd) : M Unit := do
  checkReserved c (cpReserved k c)
  checkCapture c (cpNamed k c)
  if k.hasHs then checkShape r.e (cpHs c)
  if k.hasHd then checkShape r.e (cpHd c)
  if k.hasHx then checkShape r.e (cpHx c)
  let hs := cpSource r c; let hd := cpDest r c; let hx := cpIndex r c
  need (!k.hasHs || hs.type = 0) (.fault 0x03 (cpHs c) 0)
  need (!k.hasHd || hd.type = 0) (.fault 0x03 (cpHd c) 0)
  need (!k.hasHx || (hx.type = 0 && hx.rank = 1 && (hx.fmt = 3 || hx.fmt = 4))) (.fault 0x03 (cpHx c) 0)
  need (!k.hasHs || hs.fmt = (if k = .dec then 1 else cmdFormat c)) (.fault 0x14 (cpHs c) 0)
  need (!k.hasHd || hd.fmt = cmdFormat c) (.fault 0x14 (cpHd c) 0)
  match cpLimit k r c with
  | some n => throw (.fault 0x04 n 0)
  | none => pure ()

/-! ## Chunks (R313, R317) -/

/-- Elements of a chunk, chunks of a copy, and the elements of chunk i. -/
def cpPer (c : Cmd) : Nat := 512 / cpSize c
def cpChunks (k : CopyKind) (r : Run) (c : Cmd) : Nat := ((cpBox k r c).count + cpPer c - 1) / cpPer c
def cpElems (k : CopyKind) (r : Run) (c : Cmd) (i : Nat) : List Nat :=
  (List.range (min (cpPer c) ((cpBox k r c).count - i * cpPer c))).map (i * cpPer c + ·)

/-- The words of a bitmap are aligned and lie in tier S: checked when the copy starts, before any write (R312). -/
def checkBitmap (k : CopyKind) (r : Run) (c : Cmd) : M Unit := do
  let b := cpBits k c
  if b ≠ 0 then
    need (b % 8 = 0) (.fault 0x07 0 b)
    (List.range ((cpChunks k r c + 63) / 64)).forM (fun w => fun s =>
      match (engineLeafIn (fun t => t = 0) r true true (b + 8 * w)) s with
      | .ok _ s' => .ok () s'
      | .error (.fault code detail _) s' => .error (.fault code detail b) s'
      | .error e s' => .error e s')

/-- Changes the progress of a copy. -/
def setProgress (r : Run) (f : Progress → Progress) : M Unit :=
  upd (fun s => s.modEntry r.t r.q r.e.seq (fun e => { e with prog := f e.prog }))

/-! ## Elements (R313 to R316) -/

/-- The index of position k. -/
def cpIdx (r : Run) (c : Cmd) (k : Int) : M Int := indexAt (directGet r true) (cpIndex r c) k

/-- Source and destination coordinates of element n. -/
def cpSrcCoords (k : CopyKind) (r : Run) (c : Cmd) (n : Nat) : M (List Int) := do
  let j := boxCoords (cpBox k r c).extents n
  let y := addCoords (coordsOf r.e c 72 (cpNcoord c)) j
  if k = .gather then do let i ← cpIdx r c (nth 0 j (cpIdim c)); pure (setNth y (cpIdim c) i) else pure y
def cpDstCoords (k : CopyKind) (r : Run) (c : Cmd) (n : Nat) : M (List Int) := do
  let j := boxCoords (cpBox k r c).extents n
  let z := addCoords (coordsOf r.e c 132 (cpDncoord c)) j
  if k = .scatter then do let i ← cpIdx r c (nth 0 j (cpIdim c)); pure (setNth z (cpIdim c) i) else pure z

/-- The write of a value to the destination of element n; one that clips is counted (R237). -/
def cpPut (k : CopyKind) (r : Run) (c : Cmd) (n v : Nat) : M (List Put) := do
  let p ← elemPut (directGet r true) (cpDest r c) (← cpDstCoords k r c n) v
  if p.isEmpty then countClip r 1
  pure p

/-- The peer at the endpoint of a copy: its serial and context. -/
def State.copyPeer (s : State) (r : Run) (c : Cmd) : Option (Word × Nat) := s.memberAt (s.ctxOf r.t) (cpEp c)

/-- The context on this chip in which a side of a copy lies; none where it is on another chip (R314). -/
def State.sideContext (s : State) (r : Run) (c : Cmd) (remote : Bool) : Option Nat :=
  if remote then s.hereOf (s.copyPeer r c) else some (s.ctxOf r.t)

/-- The physical place of a virtual address, for overlaps of source and destination; none where it has none. -/
def State.placeOf (s : State) (c va : Nat) : Option Nat :=
  match s.walk c va with
  | .ok l => some l.pa
  | .error _ => none

/-- The address of the source of element n; none where it clips. -/
def State.copySrc (s : State) (r : Run) (c : Cmd) (k : CopyKind) (n : Nat) : Option Nat :=
  let j := boxCoords (cpBox k r c).extents n
  let y := addCoords (coordsOf r.e c 72 (cpNcoord c)) j
  let y := if k = .gather then setNth y (cpIdim c) (s.copyIndex r.t r.e (nth 0 j (cpIdim c))) else y
  (denseElem (cpSource r c) y).map (fun p => p.a.toNat)
/-- The physical place of the source of element n. -/
def State.copySrcPlace (s : State) (r : Run) (c : Cmd) (k : CopyKind) (n : Nat) : Option Nat :=
  (s.sideContext r c (cpRemote k c && k = .gather)).bind (fun ctx => (s.copySrc r c k n).bind (s.placeOf ctx))
/-- The physical place of the destination of element n. -/
def State.copyDstPlace (s : State) (r : Run) (c : Cmd) (k : CopyKind) (n : Nat) : Option Nat :=
  (s.sideContext r c (cpRemote k c && k = .scatter)).bind (fun ctx => (s.copyTarget r.t r.e n).bind (s.placeOf ctx))

/-- Whether the value of destination element n is left open by an overlap: its source lies where an earlier element
was written, or it lies where a later element reads (R313). -/
def State.overlapped (s : State) (k : CopyKind) (r : Run) (c : Cmd) (n : Nat) : Bool :=
  if !k.hasHs || k = .pref || k = .dec then false
  else
    let src := s.copySrcPlace r c k n
    let dst := s.copyDstPlace r c k n
    (src.isSome && (List.range n).any (fun i => s.copyDstPlace r c k i = src)) ||
      (dst.isSome && (List.range ((cpBox k r c).count - (n + 1))).any (fun i => s.copySrcPlace r c k (n + 1 + i) = dst))

/-- Draws a free value. -/
def drawFree : M Word := modifyGet (fun s => s.free)

/-- The new value at the destination of `cp.red` (R315). -/
def redOp (sub fmt old v : Nat) : Nat :=
  match sub with
  | 0 => (old + v) % 2 ^ (8 * elemSize fmt)
  | 1 => if intVal fmt v < intVal fmt old then v else old
  | 2 => if intVal fmt v > intVal fmt old then v else old
  | 3 => roundF32 ((ofF32 old).add false (ofF32 v))
  | 4 => fmaxabs old v
  | 5 => old &&& v
  | 6 => old ||| v
  | _ => old ^^^ v

/-- The value that element n brings: read from its source, or the fill pattern; a value left open by an overlap is
free. -/
def cpValue (k : CopyKind) (r : Run) (c : Cmd) (n : Nat) : M Nat := do
  if k = .fill then pure (c.patch.toNat % 2 ^ (8 * cpSize c))
  else
    let (v, _) ← readElem (directGet r true) (cpSource r c) (← cpSrcCoords k r c n)
    pure v

/-- Writes with free values in place of their own. -/
def freePuts (l : List Put) : M (List Put) := l.mapM (fun x => do let w ← drawFree; pure { x with v := w.toNat % 2 ^ (8 * x.n) })

/-- The writes of elements with the values they bring: atomics for `cp.red`. An element that an overlap leaves open gets a free
value (R313, R315). -/
def cpItems (k : CopyKind) (r : Run) (c : Cmd) (s : State) (l : List (Nat × Nat)) : List (M (List Put)) :=
  l.map (fun p => do
    let l ← cpPut k r c p.1 p.2
    if !s.overlapped k r c p.1 then pure l
    else do
      let l ← freePuts l
      if k = .red then do l.forM (atomicPut r true (fun _ v => v)); pure [] else pure l)

/-- Performs the writes of a chunk in walk order. -/
def cpWrite (k : CopyKind) (r : Run) (c : Cmd) (ns : List Nat) (vs : List Nat) : M Unit := do
  let s ← get
  let items := cpItems k r c s (ns.zip vs)
  if k = .red then atomicAll r true (redOp c.sub.toNat (cmdFormat c)) items [] else storeAll r true items []

/-! ## Remote elements (R314, R324, R357, R360) -/

/-- The class in which the remote elements of a context travel (R314, R357). -/
def Context.elementClass (x : Context) : Nat := max 1 x.cfg.cls.toNat

/-- The value of a remote gather's element has come: it is kept until its chunk is written. -/
def keepGathered (r : Run) (n v : Nat) : M Unit :=
  setProgress r (fun p => { p with got := SMap.put p.got n (BitVec.ofNat 64 v) })

/-- The values that a remote gather has been given and that a step writes: all, or those whose destination lies in the word that it writes
(R100). -/
def State.gathered (s : State) (r : Run) : SMap Word :=
  match r.word with
  | none => r.e.prog.got
  | some w => r.e.prog.got.filter (fun x => (s.copyDest r.t r.e x.1).any (fun a => a / 8 = w))

/-- Writes the values of a remote gather's chunk in walk order, once none of its elements is out (R313, R324). -/
def writeGathered (k : CopyKind) (r : Run) (c : Cmd) : M Unit := do
  let got := (← get).gathered r
  cpWrite k r c (got.map (·.1)) (got.map (fun x => x.2.toNat % 2 ^ (8 * cpSize c)))

/-- An element fails (R324). -/
def Progress.fail (p : Progress) (o : RemoteOutcome) : Progress :=
  { p with failed := true, miss := p.miss + 1, lost := p.lost || o = .lost, refused := p.refused || o = .refused,
           torn := p.torn || o = .torn }

/-- A remote element whose member is on this chip, as the copy engine accesses memory, compressed pages too: the value that a gather
reads, counted for the barrow in tiers S and D; none where the page cannot be reached so (R324, R340, R341). -/
def State.memberElement (s : State) (k : CopyKind) (r : Run) (c : Cmd) (ctx a n v : Nat) : Option (State × Nat) :=
  match s.walk ctx a with
  | .error _ => none
  | .ok l =>
    if k ≠ .scatter then some ((if l.tier = 1 then s.countAccess ctx l else s).directRead ctx l (cpSize c))
    else if l.tier = 2 || !l.writable then none
    else if s.overlapped k r c n then
      let f := s.free
      some (f.2.tileWrite r.t ctx l (cpSize c) (f.1.toNat % 2 ^ (8 * cpSize c)) none, 0)
    else some (s.tileWrite r.t ctx l (cpSize c) v none, 0)

/-- A remote element that its member cannot serve fails; a step that handles one word leaves it to the chunk (R100, R324). -/
def refuseElement (r : Run) : M Unit := do
  need r.word.isNone (.hold 0)
  setProgress r (fun p => p.fail .refused)

/-- One remote element: refused without a peer, served at once by this chip, else sent; a write to a page that is moving there holds the
copy (R338). A scatter that clips is counted and is no remote element; a gather that clips takes the fill. A step that handles one word
serves the elements of this chip that lie in it, and no other (R100). -/
def remoteElement (k : CopyKind) (r : Run) (c : Cmd) (n : Nat) : M Unit := do
  let s ← get
  let x ← if k = .gather then cpSrcCoords k r c n else cpDstCoords k r c n
  let h := if k = .gather then cpSource r c else cpDest r c
  let v ← if k = .scatter then cpValue k r c n else pure h.fill
  match ← elemAddr (directGet r true) h x with
  | none => if r.word.isSome then pure () else if k = .gather then keepGathered r n v else countClip r 1
  | some (a, _) =>
    match s.copyPeer r c with
    | none => refuseElement r
    | some (serial, ctx) =>
      if !r.writes a then pure ()
      else if serial = s.dev.serial then
        need (!(k = .scatter && (s.ctx ctx).moving a)) (.hold movingHold)
        upd (fun s => s.deviceWalk ctx a)
        match (← get).memberElement k r c ctx a n v with
        | none => refuseElement r
        | some (s', d) =>
          set s'
          if k = .gather then keepGathered r n d
      else
        need r.word.isNone (.hold 0)
        upd (fun s => s.depart serial (s.ctx (s.ctxOf r.t)).elementClass (s.ctileOf r.t) 0
          (.element serial ctx (k = .scatter) (BitVec.ofNat 64 a) (cpSize c) n (BitVec.ofNat 64 v) r.t r.e.seq))
        setProgress r (fun p => { p with wait := p.wait ++ [n] })

/-- The run of the copy in progress on the tile of the agent that acts. -/
def State.copyRun (s : State) : Option Run :=
  let t := s.cur.tile
  match (s.queue t 1).entries.find? (fun e => e.copying) with
  | some e => some { t, q := 1, e }
  | none => none

/-- Old or decoded, or free: what a failing block leaves at its stream bytes from `lo` (R322, R394). A checksum mismatch leaves each
byte as it was or as decoded, which the outcome table of R394 tells apart; any other failure leaves free values. -/
def State.spoilBytes (s : State) (r : Run) (d : DecState) (mismatch : Bool) : Nat → Nat → State
  | _, 0 => s
  | lo, n + 1 =>
    let size := elemSize (field r.e.w 24 4)
    let s := State.spoilBytes s r d mismatch (lo + 1) n
    match s.copyDest r.t r.e (lo / size) with
    | none => s
    | some a =>
      match s.walk (s.ctxOf r.t) (a + lo % size) with
      | .error _ => s
      | .ok l =>
        if !l.writable || l.tier ≠ 0 || homeTile l.pa ≠ r.t then s
        else
          let f := s.free
          if !mismatch then f.2.tileWrite r.t (s.ctxOf r.t) l 1 (f.1.toNat % 256) none
          else
            match SMap.find? d.old (lo - d.startOut) with
            | none => f.2
            | some v => if f.1.getLsbD 0 then f.2.tileWrite r.t (s.ctxOf r.t) l 1 v none else f.2

/-- What a fault of a copy leaves at its destination: from the first chunk not known complete on, free values (R319); for `cp.dec`,
the bytes of the failing block alone (R322; log entry 34). -/
def State.spoil (s : State) (r : Run) (code : Nat) : State :=
  if field r.e.w 0 8 = 0xA3 then
    let d := (((s.queue r.t r.q).find r.e.seq).getD r.e).prog.dec
    let size := (shapeOf (r.e.handle (field r.e.w 160 4))).count * elemSize (field r.e.w 24 4)
    if d.inBlock then s.spoilBytes r d (code = 0x11) d.startOut (min (field d.header 48 24) (size - d.startOut)) else s
  else s.scrambleCopy r.t r.e r.e.firstOpen

/-- Ends a step of the copy engine outside its command: a fault is recorded (R155). -/
def copyStep (r : Run) (body : M Unit) (s : State) : Host.Outcome State Fault Refusal :=
  match body s with
  | .ok _ s' => .next s'
  | .error (.fault code detail addr) s' =>
    .next ((s'.spoil r code).modTc r.t (fun c => c.recordFault r.q r.e code detail addr s'.clk))
  | .error (.hold why) s' => .next ((s.keepFresh s' (some (s.ctxOf r.t))).holdCommand r why)
  | .error _ s' => .next (s.keepFresh s' (some (s.ctxOf r.t)))

/-- The state after a cancel of an entry that has not completed: the destination of one that has started is unpredictable (R325). -/
def State.cancelNow (s : State) (t : Nat) (e : Entry) : State :=
  let s := if e.st = .running || e.st = .done then s.scrambleCopy t e e.firstOpen else s
  s.modTc t (fun c => c.cancelCopy e)

/-- The cancel of a copy whose writes have all ended, where no `cpcancel` waits for it: that of a context which stops (R138). -/
def State.endCancel (s : State) (t seq : Nat) : State :=
  match (s.queue t 1).find seq with
  | some e =>
    if e.copying && e.prog.cancelled && e.prog.wait.isEmpty && (s.hart ⟨t, true⟩).run ≠ .waiting .cancel then s.cancelNow t e else s
  | none => s

/-- Whether a thing handed to the fabric is the remote element that an answer is for. -/
def answersElement (m : RemoteReply) (x : Sent) : Bool :=
  match x with
  | .element _ _ _ _ _ elem _ tile seq => elem = m.elem && tile = m.tile && seq = m.seq
  | _ => false

/-- A remote element comes back or fails (R314, R324). After the last of its chunk the chunk completes. An answer to an element that is
not out any more, its link having failed, is not applied. -/
def execCopyRemoteElement (m : RemoteReply) (s : State) : Host.Outcome State Fault Refusal :=
  if m.outcome ≠ .lost && !s.sent.any (fun d => answersElement m d.what) then .next s else
  let s := s.answered (answersElement m)
  match (s.queue m.tile 1).entries.find? (fun e => e.copying && e.seq = m.seq) with
  | none => .next s
  | some e =>
    let r : Run := { t := m.tile, q := 1, e }
    let k := copyKind (field r.e.w 0 8)
    if !r.e.prog.wait.contains m.elem then .next s
    else copyStep r (do
      if m.outcome = .delivered then
        if k = .gather && !r.e.prog.cancelled then keepGathered r m.elem m.data.toNat
      else do
        setProgress r (fun p => p.fail m.outcome)
        let s ← get
        if k = .scatter then
          set (s.modCtx (s.ctxOf r.t) (fun x => if m.outcome = .lost then { x with lost := satAdd 64 x.lost 1 } else x))
      setProgress r (fun p =>
        let w := p.wait.filter (· ≠ m.elem)
        { p with wait := w, written := w.isEmpty && !p.cancelled })
      upd (fun s => s.endCancel r.t r.e.seq)) s

/-! ## Copies but `cp.dec` -/

/-- Starts a copy, unless it has been started before: its checks, its range entry, its bitmap. -/
def cpStart (k : CopyKind) (r : Run) (c : Cmd) : M Unit := do
  if r.e.st = .running then pure ()
  else do
    cpChecks k r c
    takeSlots r none []
    checkBitmap k r c
    setProgress r (fun p => { p with xlat := [] })
    need (!r.only) .begun

/-- The elements of the chunk that a step works on: all, or those whose destination lies in the word that it writes; of a remote copy those
that it has no value of yet (R100). -/
def State.cpWork (s : State) (k : CopyKind) (r : Run) (c : Cmd) : List Nat :=
  let ns := cpElems k r c r.e.prog.next
  if cpRemote k c then ns.filter (fun n => (SMap.find? r.e.prog.got n).isNone)
  else match r.word with
  | none => ns
  | some w => ns.filter (fun n => (s.copyDest r.t r.e n).any (fun a => a / 8 = w))

/-- Whether a step that writes one word comes too early: an element of the chunk reads a place there that an element after it in the walk
is to write, and has neither been read nor written (R313). -/
def State.readsFirst (s : State) (k : CopyKind) (r : Run) (c : Cmd) : Bool :=
  match r.word with
  | none => false
  | some w =>
    !(cpRemote k c && k = .gather) &&
    let ns := cpElems k r c r.e.prog.next
    let wordOf (n : Nat) : Option Nat := (s.copyTarget r.t r.e n).map (· / 8)
    let out := ns.filter (fun n => wordOf n = some w)
    let open' := ns.filter (fun i => (wordOf i).any (fun x => x ≠ w && !r.e.prog.puts.contains x) &&
      (s.copySrc r c k i).any (fun a => (SMap.find? r.e.prog.seen (a / 8)).isNone))
    open'.any (fun i => out.any (fun n => i < n && (s.copySrcPlace r c k i).isSome && s.copySrcPlace r c k i = s.copyDstPlace r c k n))

/-- The work of one chunk. -/
def cpChunk (k : CopyKind) (r : Run) (c : Cmd) : M Unit := do
  need (!(← get).readsFirst k r c) (.hold 0)
  let ns := (← get).cpWork k r c
  if cpRemote k c then ns.forM (remoteElement k r c)
  else if k = .pref then
    ns.forM (fun n => do
      match ← elemAddr (directGet r true) (cpSource r c) (← cpSrcCoords k r c n) with
      | none => pure ()
      | some (a, _) => do let _ ← directGet r true a (cpSize c))
  else do
    let vs ← ns.mapM (cpValue k r c)
    cpWrite k r c ns vs

/-- Whether a copy is inside a chunk: it has written words of it. -/
def Entry.midChunk (e : Entry) : Bool :=
  !e.prog.puts.isEmpty || (field e.w 0 8 = 0xA3 && e.prog.dec.out % 512 ≠ 0 &&
    e.prog.dec.out ≠ (shapeOf (e.handle (field e.w 160 4))).count * elemSize (field e.w 24 4))

/-- Whether a copy may work on a chunk now: none is in progress, it is not cancelled, and its context runs or it is inside the chunk. -/
def cpReady (r : Run) : M Unit := do
  let s ← get
  need (!r.e.prog.written && r.e.prog.wait.isEmpty && !r.e.prog.cancelled) (.hold 0)
  need ((s.ctx (s.ctxOf r.t)).st = .running || r.e.midChunk) (.hold 0)

/-- Runs a part of a copy whose fault leaves the destination unpredictable (R319). -/
def guardCopy (r : Run) (body : M Unit) : M Unit := fun s =>
  match body s with
  | .error (.fault code detail addr) s' =>
    .error (.fault code detail addr) (s'.spoil r code)
  | x => x

/-- The word that a step of a copy handles ends it: of a remote gather at work it has read the word, else it has written it (R100). -/
def endCopyWord (k : CopyKind) (r : Run) (c : Cmd) : M Unit :=
  if cpRemote k c && k = .gather then need r.word.isNone .begun else endWord r

/-- A step that handles one word of a chunk that is done but for the writes of a remote gather writes that one (R100). -/
def gatherWord (k : CopyKind) (r : Run) (c : Cmd) : M Unit := do
  need (cpRemote k c && k = .gather && !r.e.prog.cancelled) (.hold 0)
  writeGathered k r c
  endWord r

/-- One chunk of a copy, or one word of it (R100): the first run also starts it. -/
def copyBody (k : CopyKind) (c : Cmd) (r : Run) : M Bool := do
  if r.word.isSome && r.e.prog.written then gatherWord k r c
  cpReady r
  if !r.e.prog.started then cpStart k r c
  guardCopy r (cpChunk k r c)
  endCopyWord k r c
  setProgress r (fun p => { p with started := true, suspended := false, written := p.wait.isEmpty, seen := [], puts := [] })
  pure false

def execCpNd (c : Cmd) (s : State) : Host.Outcome State Fault Refusal := runCommand 0xA0 c (copyBody .nd c) s
def execCpGather (c : Cmd) (s : State) : Host.Outcome State Fault Refusal := runCommand 0xA1 c (copyBody .gather c) s
def execCpScatter (c : Cmd) (s : State) : Host.Outcome State Fault Refusal := runCommand 0xA2 c (copyBody .scatter c) s
def execCpRed (c : Cmd) (s : State) : Host.Outcome State Fault Refusal := runCommand 0xA4 c (copyBody .red c) s
def execCpFill (c : Cmd) (s : State) : Host.Outcome State Fault Refusal := runCommand 0xA5 c (copyBody .fill c) s
def execCpPref (c : Cmd) (s : State) : Host.Outcome State Fault Refusal := runCommand 0xA6 c (copyBody .pref c) s

/-! ## The block decoder (R320 to R323) -/

/-- One bit of a CRC-32C (reflected polynomial 0x82F63B78). -/
def crcBit (x : BitVec 32) : BitVec 32 := if x.getLsbD 0 then (x >>> 1) ^^^ 0x82F63B78 else x >>> 1
/-- One byte of a CRC-32C. -/
def crcByte (x : BitVec 32) (b : Nat) : BitVec 32 :=
  let y := x ^^^ BitVec.ofNat 32 b
  crcBit (crcBit (crcBit (crcBit (crcBit (crcBit (crcBit (crcBit y)))))))
/-- CRC-32C of a list of bytes (R320). -/
def crc32c (l : List Nat) : BitVec 32 := ~~~(l.foldl crcByte (BitVec.allOnes 32))

/-- Fields of a block header (R320). -/
def hMagic (h : BitVec 128) : Nat := field h 0 16
def hKind (h : BitVec 128) : Nat := field h 24 8
def hPlen (h : BitVec 128) : Nat := field h 32 16
def hRlen (h : BitVec 128) : Nat := field h 48 24
def hCyc (h : BitVec 128) : Nat := field h 72 24

/-- The code length of a symbol (R321). -/
def codeLen (t : BitVec 1024) (s : Nat) : Nat := field t (4 * s) 4
/-- Symbols of a length, rising. -/
def symbolsOf (t : BitVec 1024) (l : Nat) : List Nat := (List.range 256).filter (fun s => codeLen t s = l)
/-- The first canonical code of a length. -/
def firstCode (t : BitVec 1024) : Nat → Nat
  | 0 => 0
  | l + 1 => if l = 0 then 0 else 2 * (firstCode t l + (symbolsOf t l).length)
/-- A length table is acceptable: lengths 0 to 12, some symbol, not oversubscribed. -/
def tableOk (t : BitVec 1024) : Bool :=
  let used := (List.range 12).map (fun l => (symbolsOf t (l + 1)).length * 2 ^ (11 - l))
  (List.range 256).all (fun s => codeLen t s ≤ 12) && used.any (· ≠ 0) && used.sum ≤ 2 ^ 12

/-- Whether a header and its table are malformed (R320, R321). -/
def malformedBlock (h : BitVec 128) (t : BitVec 1024) : Bool :=
  hMagic h ≠ 0x5A4B || hKind h > 1 || field h 16 8 ≠ 0 || hRlen h = 0 || hCyc h = 0 || hPlen h = 0 ||
    (hKind h = 0 && 512 * hPlen h < 16 + hRlen h) || (hKind h = 1 && !tableOk t)

/-- A fault of the decoder: the code, the block, and the address of the block's first destination element, 0 where it
clips. Of a block whose first byte lies inside an element it is that element's address, not the byte's, which R319 leaves open (DESIGN
CHOICE, log entry 131). -/
def decFault (r : Run) (c : Cmd) (code : Nat) (d : DecState) : M Unit := do
  let s ← get
  throw (.fault code (d.blk % 256) ((s.copyDest r.t r.e (d.startOut / cpSize c)).getD 0))

/-- Byte n of the source stream: one that clips reads as the fill (R320). -/
def decSource (r : Run) (c : Cmd) (d : DecState) (n : Nat) : M Nat := do
  let hs := cpSource r c
  if n ≥ hs.count then decFault r c 0x12 d
  let (v, _) ← readElem (directGet r true) hs (addCoords (coordsOf r.e c 72 (cpNcoord c)) (boxCoords hs.extents n))
  pure v

/-- n bytes of the source stream. -/
def decBytes (r : Run) (c : Cmd) (d : DecState) (a n : Nat) : M Nat := do
  let l ← (List.range n).mapM (fun i => decSource r c d (a + i))
  pure (packElems 1 l)

/-- A byte of the block's body: one past the block's end is a length violation. -/
def bodyByte (r : Run) (c : Cmd) (d : DecState) (off : Nat) : M Nat := do
  if off ≥ 512 * hPlen d.header then decFault r c 0x12 d
  decSource r c d (d.src + off)

/-- Reads a code bit by bit: the symbol and the bits used. -/
def readCode (r : Run) (c : Cmd) (d : DecState) : Nat → Nat → Nat → M (Nat × Nat)
  | 0, _, _ => do decFault r c 0x12 d; pure (0, 0)
  | fuel + 1, code, l => do
    let b := d.bit + l
    let byte ← bodyByte r c d (144 + b / 8)
    let code := 2 * code + byte / 2 ^ (b % 8) % 2
    let first := firstCode d.table (l + 1)
    let syms := symbolsOf d.table (l + 1)
    if first ≤ code && code - first < syms.length then pure (nth 0 syms (code - first), l + 1)
    else readCode r c d fuel code (l + 1)

/-- The next symbol of a block and the decoder past it. -/
def nextSymbol (r : Run) (c : Cmd) (d : DecState) : M (Nat × DecState) := do
  if hKind d.header = 1 then
    let (s, n) ← readCode r c d 12 0 0
    pure (s, { d with bit := d.bit + n })
  else
    let b ← bodyByte r c d (16 + d.n)
    pure (b, d)

/-- Writes a raw byte to the stream: its element lies in the tile's own slice, else 0x07 (R319, R322). -/
def decWrite (r : Run) (c : Cmd) (out v : Nat) : M Unit := do
  let hd := cpDest r c
  let n := out / cpSize c
  let z := addCoords (coordsOf r.e c 132 (cpDncoord c)) (boxCoords hd.extents n)
  match ← elemAddr (directGet r true) hd z with
  | none => if out % cpSize c = 0 then countClip r 1
  | some (a, _) =>
    let va := a + out % cpSize c
    let l ← engineLeafIn (fun t => t = 0) r true true va
    need (homeTile l.pa = r.t) (.fault 0x07 0 va)
    let s ← get
    let src := cpSource r c
    let clash := (List.range src.count).any (fun i =>
      let y := addCoords (coordsOf r.e c 72 (cpNcoord c)) (boxCoords src.extents i)
      (denseElem src y).bind (fun p => s.placeOf (s.ctxOf r.t) p.a.toNat) = some l.pa)
    let v ← if clash then do let w ← drawFree; pure (w.toNat % 256) else pure v
    let old ← modifyGet (fun s => let x := s.homeRead (some (s.ctxOf r.t)) l.pa 1; (x.2, x.1))
    setProgress r (fun p => { p with dec := { p.dec with old := SMap.put p.dec.old (out - p.dec.startOut) old } })
    upd (fun s => s.tileWrite r.t (s.ctxOf r.t) l 1 v none)

/-- Reads and checks the header of the next block. The table of a kind 1 block is read before the header is checked, so a malformed header
whose table runs past the source ends with 0x12, not 0x19: the spec orders the two nowhere (R320, R322; DESIGN CHOICE, log entry 132). -/
def decHeader (r : Run) (c : Cmd) (d : DecState) : M DecState := do
  let d := { d with startOut := d.out }
  let h ← decBytes r c d d.src 16
  let header := BitVec.ofNat 128 h
  let t ← if hMagic header = 0x5A4B && hKind header = 1 then decBytes r c d (d.src + 16) 128 else pure 0
  let d := { d with header := header, table := BitVec.ofNat 1024 t, inBlock := true, n := 0, bit := 0,
                    crc := BitVec.allOnes 32, cycles := 0, old := [] }
  setProgress r (fun p => { p with dec := d })
  if malformedBlock d.header d.table then decFault r c 0x19 d
  pure d

/-- The end of a block: the watchdog, then the checksum (R322). -/
def decEnd (r : Run) (c : Cmd) (d : DecState) : M DecState := do
  if d.cycles ≥ hCyc d.header then decFault r c 0x12 d
  if ~~~d.crc ≠ bits d.header 96 32 then decFault r c 0x11 d
  pure { d with src := d.src + 512 * hPlen d.header, blk := d.blk + 1, inBlock := false }

/-- Decodes to the end of a chunk or of the block: stops where a ring unit is needed, and tells so. -/
def decRun (r : Run) (c : Cmd) : Nat → DecState → M (DecState × Bool)
  | 0, d => pure (d, false)
  | fuel + 1, d => do
    if d.n = hRlen d.header then do let d ← decEnd r c d; pure (d, false)
    else
      let (sym, d') ← nextSymbol r c d
      if d.out = (cpDest r c).count * cpSize c then decFault r c 0x12 d
      if cpRg c && d.out % 512 = 0 && !d.unit then pure (d, true)
      else
        decWrite r c d.out sym
        let d := { d' with out := d.out + 1, n := d.n + 1, unit := false, crc := crcByte d.crc sym }
        if d.n = hRlen d.header then do let d ← decEnd r c d; pure (d, false)
        else if d.out % 512 = 0 then pure (d, false)
        else decRun r c fuel d

/-- Chunks whose bytes all lie below the end of the verified blocks. -/
def decDone (r : Run) (c : Cmd) (d : DecState) : Nat :=
  if d.inBlock then d.startOut / 512
  else if d.out = (cpDest r c).count * cpSize c then cpChunks .dec r c else d.out / 512

/-- How far `cp.dec` decodes in one step: to the end of a chunk at most, or of eight bytes of its stream where the step handles a word
(R100). -/
def decFuel (r : Run) (d : DecState) : Nat := if r.word.isSome then 8 - d.out % 8 else 513

def decBody (c : Cmd) (r : Run) : M Bool := do
  let s ← get
  need (!r.e.prog.written && !r.e.prog.cancelled) (.hold 0)
  need ((s.ctx (s.ctxOf r.t)).st = .running || r.e.midChunk) (.hold 0)
  need (!(((s.tc r.t).token (cpTkr c)).waiters.contains .copy)) (.hold 5)
  if !r.e.prog.started then cpStart .dec r c
  guardCopy r (do
    let d := r.e.prog.dec
    let d ← if d.inBlock then pure d else decHeader r c d
    let (d, ring) ← decRun r c (decFuel r d) d
    setProgress r (fun p => { p with started := true, suspended := false, dec := { d with old := p.dec.old },
                                     written := p.next < decDone r c d, xlat := if d.out % 512 = 0 then [] else p.xlat
                                     seen := if d.out % 512 = 0 then [] else p.seen })
    if ring then
      upd (fun s => s.modTc r.t (fun k =>
        let x := k.token (cpTkr c)
        k.setToken (cpTkr c) { x with waiters := x.waiters ++ [.copy] })))
  need r.word.isNone .begun
  pure false

def execCpDec (c : Cmd) (s : State) : Host.Outcome State Fault Refusal := runCommand 0xA3 c (decBody c) s

/-- `cp.dec` takes a unit of tkr once it is the oldest waiter and one is there (R323). -/
def execRingUnitTake (s : State) : Host.Outcome State Fault Refusal :=
  match s.copyRun with
  | none => .next s
  | some r =>
    match (s.tc r.t).take (cpTkr (cmdOfBits r.e.w)) 1 .copy with
    | none => .next s
    | some k => .next ((s.setTc r.t k).modEntry r.t 1 r.e.seq (fun e =>
        { e with prog := { e.prog with dec := { e.prog.dec with unit := true } } }))

/-- A block whose cycle count reaches its bound ends the copy with a length violation (R322). -/
def execDecoderWatchdog (s : State) : Host.Outcome State Fault Refusal :=
  match s.copyRun with
  | none => .next s
  | some r =>
    let d := r.e.prog.dec
    if field r.e.w 0 8 = 0xA3 && d.inBlock && d.cycles ≥ hCyc d.header then
      copyStep r (decFault r (cmdOfBits r.e.w) 0x12 d) s
    else .next s

/-! ## Completion of a chunk (R317), suspension (R135) -/

/-- Sets chunk bit i: an atomic OR at the bitmap's home that fills the word (R95, R96). -/
def setChunkBit (r : Run) (bitmap i : Nat) : M Unit := do
  let l ← engineLeafIn (fun t => t = 0) r true true (bitmap + 8 * (i / 64))
  upd (fun s =>
    let x := s.directRead (s.ctxOf r.t) l 8
    (x.1.tileWrite r.t (s.ctxOf r.t) l 8 (x.2 ||| 2 ^ (i % 64)) (some true)).markTagged (s.ctxOf r.t) l)

/-- The chunk's writes are performed: its bit and its token, unless an element of it failed; the next chunk, or the end
of the copy. The chunks are worked, and their bits set, in rising order (R96 and R317 leave the order open; DESIGN CHOICE, log
entry 104). -/
def execCopyChunkComplete (s : State) : Host.Outcome State Fault Refusal :=
  match s.copyRun with
  | none => .next s
  | some r =>
    if !r.e.prog.written then .next s
    else
      let c := cmdOfBits r.e.w
      let k := copyKind (field r.e.w 0 8)
      copyStep r (do
        writeGathered k r c
        let p := { r.e.prog with got := [], xlat := [], seen := [], puts := [] }
        let b := cpBits k c
        if !p.failed then
          if b ≠ 0 then setChunkBit r b p.next
          if cpPc c then upd (fun s => s.modTc r.t (fun t => t.give (cpTkp c) 1 (.command 1 r.e.seq)))
        let p' : Progress := { p with next := p.next + 1, failed := false,
                                      bits := if b ≠ 0 && !p.failed then p.bits + 1 else p.bits,
                                      written := k = .dec && p.next + 1 < decDone r c p.dec }
        setProgress r (fun _ => p')
        if p'.next = cpChunks k r c then
          upd (fun s => s.modEntry r.t 1 r.e.seq (fun e => { e with st := .done }))) s

/-- A copy suspends between chunks while its context is pre-empted; it leaves a counter's waiting order (R135, R328). -/
def execCopySuspend (s : State) : Host.Outcome State Fault Refusal :=
  match s.copyRun with
  | none => .next s
  | some r =>
    if (s.ctx (s.ctxOf r.t)).st ≠ .preempting || r.e.prog.written || !r.e.prog.wait.isEmpty || r.e.midChunk ||
        r.e.prog.cancelled then .next s
    else
      let s := s.modTc r.t (fun k => k.leaveToken (cpTkr (cmdOfBits r.e.w)) (fun w => w = .copy))
      .next (s.modEntry r.t 1 r.e.seq (fun e => { e with prog := { e.prog with suspended := true, got := [], xlat := [], seen := [] } }))

/-- The status of a copy (R324): 0 where every element was delivered. -/
def Progress.status (p : Progress) : Nat := if p.lost then 1 else if p.refused then 4 else if p.torn then 3 else 0

/-- The completion actions of a copy (R317): tokens, the timeline, the status. -/
def TileCtx.completeCopy (c : TileCtx) (e : Entry) : TileCtx :=
  let k := copyKind (field e.w 0 8)
  let x := cmdOfBits e.w
  let st := e.prog.status
  let c := if k ≠ .pref && cpTkn x ≠ 0 then c.give (cpTkc x) (cpTkn x) (.command 1 e.seq) else c
  let c := c.retireEntry 1 e (st ≠ 0)
  if st ≠ 0 then c.setCopyStatus e st e.prog.miss else c

/-! ## Cancelling (R325) -/

/-- `cpcancel`: stalls while remote writes of the copy are out; the engine issues nothing more for it. -/
def execCpcancel (rd rs1 : Reg) (s : State) : Host.Outcome State Fault Refusal :=
  let h := s.me
  let n := (s.readX h rs1).toNat
  let c := s.tc h.tile
  let answer (s : State) (st bits : Nat) : State := s.result h rd (BitVec.ofNat 64 (bits * 2 ^ 32 + st))
  if !h.move then .next (s.illegalAt h)
  else match c.q1.entries.find? (fun e => e.num = some n) with
    | none =>
      if n = 0 || n > c.targetC || c.controls.contains n then .next (answer s 2 0)
      else .next (answer s 1 (SMap.get 0 c.chunks n))
    | some e =>
      if n = 0 || field e.w 5 3 ≠ 5 then .next (answer s 2 0)
      else if e.st = .faulted then .next (answer s 3 e.prog.bits)
      else if !e.prog.wait.isEmpty && copyKind (field e.w 0 8) = .scatter then
        .next ((s.modEntry h.tile 1 e.seq (fun e => { e with prog := { e.prog with cancelled := true } })).setWait h .cancel)
      else .next (answer (s.cancelNow h.tile e) 0 e.prog.bits)

/-! ## Spans (R326) -/

def cpSpans (k : CopyKind) (r : Run) (rd : Reader) (c : Cmd) : M Spans := do
  cpChecks k r c
  let hs := cpSource r c; let hd := cpDest r c
  let box := (List.range (cpBox k r c).count).map (boxCoords (cpBox k r c).extents)
  let at' (lo n : Nat) (l : List (List Int)) : List (List Int) := l.map (addCoords (coordsOf r.e c lo n))
  let src := at' 72 (cpNcoord c) box
  let ix ← if k.hasHx then elemsSpan rd (cpIndex r c) ((List.range (nth 0 hd.extents (cpIdim c))).map (fun (i : Nat) => [(i : Int)]))
    else pure []
  let rs ← match k with
    | .nd | .red | .scatter => elemsSpan rd hs src
    | .gather | .dec => if cpRemote k c then pure [] else tensorSpan rd hs
    | _ => pure []
  let ws ← match k with
    | .scatter => if cpRemote k c then pure [] else tensorSpan rd hd
    | .pref => pure []
    | _ => elemsSpan rd hd (at' 132 (cpDncoord c) box)
  pure ⟨if k = .pref then [] else rs ++ ix, ws⟩

end Sys2Proof.Machine
end

