-- ==== Sys2Proof/Machine/Queue.lean ====
section
/-! DEFINITION. The command queues: pushes (R65 to R68, R92), status reads (R152), `qsync` (R154), control
commands (R151), completion of commands (R113) and recovery (R159). -/

namespace Sys2Proof.Machine

/-! ## Control commands (R151) -/

/-- Whether an earlier command of the stream has not completed and not been retired. -/
def State.earlierLeft (s : State) (r : Run) : Bool :=
  (s.queue r.t r.q).entries.any (fun e => e.seq < r.e.seq && (r.q ≠ 0 || e.w.getLsbD 8 = r.e.w.getLsbD 8))

/-- Waits for every earlier command of the stream. -/
def awaitEarlier (r : Run) : M Unit := do
  let s ← get
  need (!s.earlierLeft r) (.hold 4)

def execCnop (c : Cmd) (s : State) : Host.Outcome State Fault Refusal :=
  runCommand 0x00 c (fun _ => do checkReserved c [(64, 128)]; pure true) s

def execCbump (c : Cmd) (s : State) : Host.Outcome State Fault Refusal :=
  runCommand 0x01 c (fun r => do
    checkReserved c [(64, 128)]
    awaitEarlier r
    pure true) s

/-- The word that a `cmark` fills. -/
def markAddr (c : Cmd) : Nat := opf c 64 64

def execCmark (c : Cmd) (s : State) : Host.Outcome State Fault Refusal :=
  runCommand 0x02 c (fun r => do
    checkReserved c [(128, 64)]
    awaitEarlier r
    begin r none []
    fillWord r (markAddr c) c.patch.toNat
    pure true) s

/-! ## Range-table entries at a push (R92, R238) -/

/-- The directions in which an operation accesses memory: reads, writes. -/
def accessOf (op : Nat) : Bool × Bool :=
  match op with
  | 0x02 => (false, true)
  | 0x20 | 0x21 | 0x22 => (true, false)
  | 0x24 | 0x40 => (true, true)
  | 0x49 | 0x4A => (true, false)
  | 0x6C | 0x6E => (true, false)
  | 0x6D => (true, true)
  | 0x6F => (false, true)
  | 0x81 | 0x84 => (true, false)
  | 0xA0 | 0xA1 | 0xA2 | 0xA3 | 0xA4 => (true, true)
  | 0xA5 => (false, true)
  | _ => (false, false)

/-- The spans of a command (R238, R255, R287, R305, R326). -/
def spansOf (r : Run) (rd : Reader) : M Spans :=
  let c := cmdOfBits r.e.w
  match field r.e.w 0 8 with
  | 0x02 => do
    checkReserved c [(128, 64)]
    let a ← formed (markAddr c)
    pure ⟨[], [(a, a + 7)]⟩
  | 0x20 => fdSpans (if c.sub = 1 then .crd else .row) r rd c
  | 0x21 => fdSpans .gather r rd c
  | 0x22 => fdSpans (if c.sub = 1 then .splat else .bcast) r rd c
  | 0x24 => fdSpans .store r rd c
  | 0x40 => srSpans r rd c
  | 0x49 => bkSpans false r c
  | 0x4A => bkSpans true r c
  | 0x6C => vSpans .ld r rd c
  | 0x6D => vSpans .st r rd c
  | 0x6E => vSpans .gather r rd c
  | 0x6F => vSpans .scatter r rd c
  | 0x81 => ldwSpans r rd c
  | 0x84 => gmulSpans r rd c
  | 0xA0 => cpSpans .nd r rd c
  | 0xA1 => cpSpans .gather r rd c
  | 0xA2 => cpSpans .scatter r rd c
  | 0xA3 => cpSpans .dec r rd c
  | 0xA4 => cpSpans .red r rd c
  | 0xA5 => cpSpans .fill r rd c
  | _ => pure ⟨[], []⟩

/-- The entry that a push allocates; none where the command does not qualify. One whose spans cannot be formed covers
the whole of tier S in the directions of its operation. -/
def State.rangeOf (s : State) (r : Run) : Option RangeEntry :=
  let acc := accessOf (field r.e.w 0 8)
  if r.e.w.getLsbD 9 || acc = (false, false) then none
  else
    let ctx := s.ctxOf r.t
    let x : RangeEntry :=
      match (spansOf r (peekGet ctx)) s with
      | .ok sp _ => { q := r.q, seq := r.e.seq, rd := s.runsOf ctx sp.rd, wr := s.runsOf ctx sp.wr }
      | .error _ _ => { q := r.q, seq := r.e.seq, rd := if acc.1 then allLines else [], wr := if acc.2 then allLines else [] }
    if x.rd.isEmpty && x.wr.isEmpty then none else some x

/-- What the translation of a push's spans reads: the position words and bitmap words that form them, and the page tables; each page is
walked once (R79, R88, R89, R238; log entry 25). -/
def State.touchSpans (s : State) (r : Run) : State :=
  if r.e.w.getLsbD 9 || accessOf (field r.e.w 0 8) = (false, false) then s
  else
    let ctx := s.ctxOf r.t
    match (spansOf r (spanGet ctx)) s with
    | .error _ s' => s'
    | .ok sp s' => ((sp.rd ++ sp.wr).filter (· ≠ (0, 2 ^ 52 - 1))).foldl (fun (s : State) x =>
        s.walkSpan ctx ((x.2 - x.1) / 16384 + 2) x.1 (x.2 + 1 - x.1)) s'

/-! ## Pushes (R65) -/

/-- The registers that a mask selects. -/
def captured {α : Type} [DecidableEq α] (d : α) (m : SMap α) (mask : BitVec 16) : SMap α :=
  (List.range 16).foldl (fun (acc : SMap α) i =>
    if mask.getLsbD i then SMap.set d acc i (SMap.get d m i) else acc) []

/-- Whether a command advances its timeline (R65). -/
def advances (w : CmdBits) (q : Nat) : Bool := q ≠ 2 && (w.getLsbD 10 || field w 0 8 = 0x01)

/-- The entry that a push of a word makes. -/
def State.entryFor (s : State) (h : HartId) (q : Nat) (w : CmdBits) : Entry :=
  let x := s.hart h
  let c := s.tc h.tile
  let v := match engineOf w q with
    | none => 0
    | some e => c.target e + (if advances w q then 1 else 0)
  { seq := (c.queue q).pushed, w := w, c := captured 0 x.c (bits w 48 16), h := captured 0 x.h (bits w 32 16),
    ret := BitVec.ofNat 64 v, num := if advances w q then some v else none }

/-- Appends an entry: the target of its timeline, the queue, its range-table entry. -/
def TileCtx.append (c : TileCtx) (q : Nat) (e : Entry) (x : Option RangeEntry) : TileCtx :=
  let c := match engineOf e.w q, e.num with
    | some t, some n => c.setTarget t n
    | _, _ => c
  let c := c.modQueue q (fun y => { y with entries := y.entries ++ [e], pushed := y.pushed + 1 })
  { c with ranges := c.ranges ++ x.toList
           controls := match e.num with
             | some n => if q = 1 && field e.w 5 3 = 0 then c.controls ++ [n] else c.controls
             | none => c.controls }

/-- The push of a checked word: it waits while the queue or the range table is full (R92, R146). -/
def pushWord (h : HartId) (rd : Reg) (q : BitVec 2) (w : CmdBits) : M Unit := do
  let s ← get
  let c := s.tc h.tile
  let full := (c.queue q.toNat).entries.filter (·.waiting)
  need (full.length < Config.queueCap q.toNat) (.wait (.qput rd q w))
  let e := s.entryFor h q.toNat w
  let r : Run := { t := h.tile, q := q.toNat, e := e }
  let x := s.rangeOf r
  need (x.isNone || c.ranges.length < Config.rangeEntries) (.wait (.qput rd q w))
  upd (fun s => ((s.touchSpans r).modTc h.tile (fun c => c.append q.toNat e x)).writeX h rd e.ret)

/-- The template that a `qput` reads, patched (R65, R68). -/
def readTemplate (h : HartId) (a : Word) (rs2 : Reg) : M CmdBits := do
  need (a.toNat % 32 = 0) (.trap 4 0 a)
  let l ← plainWords h a 4
  let s ← get
  let w := BitVec.ofNat 256 (joinWords l)
  pure (if rs2 = 0 then w else s.readX h rs2 ++ bits w 0 192)

/-- The record that an instruction reads with plain loads: its address, the alignment that it needs, and its words (R65, R173, R213). -/
def State.recordRead (s : State) (h : HartId) : Instr → Option (Word × Nat × Nat)
  | .qput _ _ rs1 _ => some (s.readX h rs1, 32, 4)
  | .hld _ rs1 imm => some (addressOf s h rs1 imm, 128, 16)
  | .spawn _ rs1 rs2 =>
    let v := s.readX h rs1
    let q := (s.ctx (s.ctxOf h.tile)).kernel.bind (fun k => k.queues[field v 0 4]?)
    some (s.readX h rs2, 8, (q.map (·.item)).getD 0 * min (field v 16 16) 256)
  | _ => none

/-- A hart reads word n of the record of its next instruction, and goes on later: the words of a record are read in any order, and
may have writes between them (R68, R81, R213). -/
def State.readPart (s : State) (h : HartId) (i : Instr) (n : Nat) : State :=
  match s.recordRead h i with
  | none => s
  | some (a, align, words) =>
    if a.toNat % align ≠ 0 || words ≤ n then s
    else match (recordWord h a n) s with
      | .ok _ s' => s'
      | .error _ _ => s

def execQput (rd : Reg) (q : BitVec 2) (rs1 rs2 : Reg) (s : State) : Host.Outcome State Fault Refusal :=
  let h := s.me
  hartStep h (do
    let w ← readTemplate h (s.readX h rs1) rs2
    let reason := headerCheck (bits w 0 32) q.toNat h.move
    need (reason = 0) (.trap 24 0 (BitVec.ofNat 64 (reason * 2 ^ 32 + field w 0 32)))
    pushWord h rd q w) s

/-- A stalled push completes once a slot or an entry frees. -/
def execQputResume (s : State) : Host.Outcome State Fault Refusal :=
  match (s.hart s.me).run with
  | .waiting (.qput rd q w) => hartStep s.me (pushWord s.me rd q w) s
  | _ => .next s

/-! ## qsync (R154) -/

/-- Goes on once every command pushed has completed or been retired. -/
def State.syncQueue (s : State) (h : HartId) (q : BitVec 2) : State :=
  let x := s.queue h.tile q.toNat
  if x.done < x.pushed then s.setWait h (.qsync q) else s.retire h ((s.hart h).pc + 4)

/-- The main hart names q0 only, the movement hart q1 or q2. -/
def execQsync (q : BitVec 2) (s : State) : Host.Outcome State Fault Refusal :=
  let h := s.me
  if h.move = (q = 0 : Bool) || q = 3 then .next (s.illegalAt h) else .next (s.syncQueue h q)

def execQsyncReturn (s : State) : Host.Outcome State Fault Refusal :=
  match (s.hart s.me).run with
  | .waiting (.qsync q) => .next (s.syncQueue s.me q)
  | _ => .next s

/-! ## Completion (R113, R317) -/

/-- A command whose effect is made completes: it leaves its queue and its timeline advances; a copy takes its
completion actions, a leasing command may end its lease. -/
def execCommandComplete (t : Nat) (q : BitVec 2) (seq : Nat) (s : State) : Host.Outcome State Fault Refusal :=
  match (s.queue t q.toNat).find seq with
  | none => .next s
  | some e =>
    let st := (s.ctx (s.ctxOf t)).st
    if e.st ≠ .done || !(st = .running || st = .preempting || st = .faulted || st = .tornDown) then .next s
    else if field e.w 5 3 = 5 then .next (s.modTc t (fun c => c.completeCopy e))
    else
      let s := s.modTc t (fun c => c.retireEntry q.toNat e false)
      .next (if leasing e.w then s.leaseUsed t else s)

/-! ## Recovery (R159) -/

/-- A slot that a faulted fill reserved becomes full and poisoned; the other fields of its side word are zero (R159 names none of
them; DESIGN CHOICE, log entry 105). -/
def poisonSlot (x : Slot) : Slot := if x.st = .reserved then { x with st := .full, data := 0, side := 1 <<< 28 } else x

def DataQueue.poison (x : DataQueue) : DataQueue :=
  { slots := x.slots.map poisonSlot, fills := x.fills + (x.slots.filter (fun y => y.st = .reserved)).length }

/-- Recovery of a queue whose started commands have completed. -/
def TileCtx.recover (c : TileCtx) (q : Nat) (flush : Bool) : TileCtx :=
  let x := c.queue q
  let bad := x.entries.filter (fun e => e.st = .faulted)
  let c := bad.foldl (fun (c : TileCtx) e => c.retireEntry q e true) c
  let c := if q = 0 then { c with dq := c.dq.map (fun p => (p.1, p.2.poison)) } else c
  let c := if !flush then c else
    let c := (x.entries.filter (·.waiting)).foldl (fun (c : TileCtx) e => c.retireEntry q e true) c
    if q = 0 then { c with dq := c.dq.map (fun p => (p.1, { p.2 with slots := p.2.slots.filter (fun y => y.st = .claimed) })) }
    else c
  let c := c.modQueue q (fun x => { x with faulted := false, record := {} })
  let mv : Bool := q ≠ 0
  let other : Bool := mv && (c.queue (3 - q)).faulted
  if other then c else c.setHart mv ((c.hart mv).setCP false)

/-- The stalled write of `qrec` recovers the queue once its started commands have completed, and retires. A lease request outlives the
leasing command that made it, where that one faults or is skipped, and a flush alone drops it: the spec says nothing of it (R159, R291;
DESIGN CHOICE, log entry 129). -/
def State.recoverQueue (s : State) (h : HartId) (q : BitVec 2) (flush : Bool) : State :=
  let x := s.queue h.tile q.toNat
  if x.entries.any (fun e => e.st = .running || e.st = .done) then s
  else
    let active := s.leaseActive h.tile
    let s := s.modTc h.tile (fun c => c.recover q.toNat flush)
    let s := if q = 0 && flush then s.dropLeaseRequest h.tile else s
    let s := if active && !s.leaseActive h.tile then s.leaseUsed h.tile else s
    s.retire h ((s.hart h).pc + 4)

def execQrecSkip (s : State) : Host.Outcome State Fault Refusal :=
  match (s.hart s.me).run with
  | .waiting (.qrec q false) => .next (s.recoverQueue s.me q false)
  | _ => .next s

def execQrecFlush (s : State) : Host.Outcome State Fault Refusal :=
  match (s.hart s.me).run with
  | .waiting (.qrec q true) => .next (s.recoverQueue s.me q true)
  | _ => .next s

end Sys2Proof.Machine
end

