-- ==== Sys2Proof/Machine/Fetch.lean ====
section
/-! DEFINITION. What the next step runs: the next move of the agenda, or the agent whose turn it is with the
instruction, command or request that it fetches (R18 to R20, R51, R129, R226, R377). -/

namespace Sys2Proof.Machine

/-- What a step does. -/
inductive Turn
  /-- An instruction of the table runs. -/
  | run (i : Instr) (s : State)
  /-- Nothing of the table runs: the state after an idle turn, a fetch trap, the passing of time or an upset. -/
  | rest (s : State)
  /-- The queue holds a word that no push leaves there. -/
  | stuck (f : Fault)
deriving DecidableEq, Repr

/-! ## Harts -/

/-- The row that a decoded word runs: an `ecall` is told apart by the service in x17 (R133), and what the machine-mode registers bar is
illegal. -/
def refine (s : State) (h : HartId) (w : Word32) (i : Instr) : Instr :=
  if (s.hart h).bars i then .illegalInstruction w
  else if i = .baseInstruction .ecall then
    match (s.readX h 17).toNat with
    | 0 => .ecallFirmwareVersion
    | 1 => .ecallPostToHost
    | 2 => .ecallAbort
    | _ => .ecallUnknown
  else i

/-- A hart fetches and decodes at its pc: at or above 0x4_0000 the fetch faults (R51). -/
def fetchHart (s : State) (h : HartId) : Turn :=
  let pc := (s.hart h).pc.toNat
  if Config.imemBytes ≤ pc then .rest (s.takeTrap h false 1 0 (s.hart h).pc)
  else
    let w := s.fetchWord h
    let lit := (s.modHart h (fun x => { x with pc := x.pc + 4 })).fetchWord h
    .run (refine s h w (decodeHart w lit)) s

/-- The row that a waiting hart's turn runs; none where the instruction executes again. -/
def Wait.row : Wait → Option Instr
  | .tl _ _ => some .tlWaitReturn
  | .tk _ _ => some .tkTakeServed
  | .tagged pa => some (.taggedRequestServed pa)
  | .barr _ _ _ _ => some .barrWaitWake
  | .wsleep _ => some .wsleepWake
  | .qsync _ => some .qsyncReturn
  | .vread _ _ => some .vreadReturn
  | .stgTake _ => some .stgTakeServed
  | .spawn _ _ _ _ => some .spawnPlaced
  | .qput _ _ _ => some .qputResume
  | .qrec _ flush => some (if flush then .qrecFlush else .qrecSkip)
  | .range _ _ | .kexit | .moving | .fence | .cancel => none

/-- The turn of a hart that waits: a pending command-fault trap comes first at a waiting instruction (R120, R129, R158, R338). -/
def waitTurn (s : State) (h : HartId) (w : Wait) : Turn :=
  if (s.hart h).trapReady && !w.begun then .run .commandFaultTrap s
  else match w.row with
    | some i => .run i s
    | none => fetchHart s h

/-- A hart of a context that stops: it stops at its boundary; a waiting instruction is abandoned, to execute again where the context
is restored, and one that has begun goes on (R120, R135). -/
def State.freezeHart (s : State) (h : HartId) : State :=
  match (s.hart h).run with
  | .waiting w => if w.begun then s else (s.abandon h).modHart h (fun x => { x with run := .running, tmpl := [] })
  | .running => s.modHart h (fun x => { x with tmpl := [] })
  | .stopped => s

/-- Whether the context of a tile stops or has stopped with its tiles still its own (R135, R138). -/
def State.stopping (s : State) (t : Nat) : Bool :=
  let st := (s.ctx (s.ctxOf t)).st
  st = .preempting || st = .faulted || st = .tornDown

/-- What the turn of a hart does in a context that stops, where no instruction of it goes on: it is brought to rest. -/
def State.restHart (s : State) (h : HartId) : State :=
  if (s.ctx (s.ctxOf h.tile)).st = .preempting then s.freezeHart h else (s.abandon h).modHart h Hart.stop

/-- The turn of a hart: in a running context; while the context stops only an instruction that has begun and is no waiting
instruction goes on, to its end, and one that comes to wait is abandoned (R128, R129, R135, R138). -/
def hartTurn (s : State) (h : HartId) : Turn :=
  let st := (s.ctx (s.ctxOf h.tile)).st
  let x := s.hart h
  if (s.tile h.tile).owner.isNone then .rest s
  else match x.run with
    | .stopped => .rest s
    | .running =>
      if st ≠ .running then .rest (if s.stopping h.tile then s.restHart h else s)
      else if x.trapReady then .run .commandFaultTrap s else fetchHart s h
    | .waiting w =>
      if st = .running || (s.stopping h.tile && w.begun) then waitTurn s h w
      else .rest (if s.stopping h.tile then s.restHart h else s)

/-- The instruction that a hart would execute next reads word n of its record (R68, R213). -/
def partTurn (s : State) (h : HartId) (n : Nat) : Turn :=
  match hartTurn s h with
  | .run i s' => .rest (s'.readPart h i n)
  | _ => .rest s

/-! ## Engines -/

/-- The step that a copy in its queue takes next: its command, its chunk's completion, the decoder's watchdog, a ring
unit, or its suspension while the context is pre-empted (R135, R317, R322, R323). -/
def copyRow (s : State) (t : Nat) (e : Entry) (i : Instr) : Instr :=
  if field e.w 5 3 ≠ 5 then i
  else if e.prog.written then .copyChunkComplete
  else if field e.w 0 8 = 0xA3 && e.prog.dec.inBlock && e.prog.dec.cycles ≥ hCyc e.prog.dec.header then .decoderWatchdog
  else if (s.ctx (s.ctxOf t)).st = .preempting && !e.midChunk then .copySuspend
  else if (s.tc t).tokens.any (fun p => p.2.waiters.contains .copy) then .ringUnitTake
  else i

/-- The entry that an engine's stream completes next: the oldest whose effect is made. -/
def CmdQueue.finished (x : CmdQueue) (q : Nat) (a : Bool) : Option Entry :=
  x.entries.find? (fun e => e.st = .done && inStream q a e)

/-- An engine runs a command of its queue. -/
def runEntry (s : State) (e : Entry) (row : Instr → Instr) : Turn :=
  match decodeCommand e.w with
  | none => .stuck .badQueueEntry
  | some i => .run (row i) s

/-- The turn of an engine: it completes its oldest finished command, or runs the head of its stream. -/
def engineTurn (s : State) (t q : Nat) (a : Bool) : Turn :=
  let x := s.queue t q
  match x.finished q a with
  | some e => .run (.commandComplete t (BitVec.ofNat 2 q) e.seq) s
  | none =>
    match x.head q a with
    | none => .rest s
    | some e => runEntry s e (fun i => if q = 1 then copyRow s t e i else i)

/-- The turn of an engine that only starts its next command, or goes on with one that it has started (R20, R226); the copy engine
has started one at most. -/
def pickTurn (s : State) (t q : Nat) (a : Bool) (pick : Pick) : Turn :=
  match (s.queue t q).working q a (some pick) with
  | none => .rest s
  | some e => if q = 1 && !pick.only && pick.word.isNone then runEntry s e (copyRow s t e) else runEntry { s with pick := some pick } e id

/-! ## Host rings -/

/-- The request that a ring would start next (R377, R378). -/
def State.ringWord (s : State) (n : Nat) : BitVec 512 :=
  let r := s.ring n
  BitVec.ofNat 512 (s.rawRead (hostPa (r.rqbase.toNat + 64 * (r.rqhead.toNat % max r.rqsize.toNat 1))) 64)

/-- The ring takes its next request: the head moves on and the ring is busy until it completes. -/
def State.takeRequest (s : State) (n : Nat) : State :=
  let r := s.ring n
  s.setRing n { r with busy := true, rqhead := BitVec.ofNat 64 ((r.rqhead.toNat + 1) % max r.rqsize.toNat 1) }

/-- Whether a request that names a context has started and not completed. -/
def Context.busy (x : Context) : Bool :=
  x.restoring.isSome || !x.yieldRequests.isEmpty || !x.tearRequests.isEmpty || x.moves.any (fun m => m.request.isSome) ||
    x.installs.any (fun i => i.request.isSome)

/-- Whether a request names a context (R378, R379). -/
def namesContext (w : BitVec 512) : Bool :=
  let op := field w 0 8
  (2 ≤ op && op ≤ 0x0E) || op = 0x14 || (op = 0x0F && 1 ≤ field w 64 64 && field w 64 64 ≤ 4) || (op = 0x12 && field w 128 64 < 64)

/-- The context that a request names: attest names it in its second argument (R379). -/
def contextOf (w : BitVec 512) : Nat := if field w 0 8 = 0x12 then field w 128 64 else field w 8 8

/-- Whether a command of a context is inside a chunk and holds translations for it (R98). -/
def State.midChunk (s : State) (c : Nat) : Bool :=
  (s.tilesOf c).any (fun t => [0, 1, 2].any (fun q => (s.queue t q).entries.any (fun e => e.st = .running && !e.prog.xlat.isEmpty)))

/-- Whether a request must wait for one on the same context: a teardown starts at once, and a hard pre-emption while
only a soft one is in progress (R134, R378). An invalidation waits for the chunks that are under way (R98). -/
def State.mustWait (s : State) (w : BitVec 512) : Bool :=
  let x := s.ctx (contextOf w)
  let hard : Bool := field w 0 8 = 5 && field w 64 64 = 1 && !x.yieldRequests.isEmpty && !x.hard && x.tearRequests.isEmpty
  (namesContext w && x.busy && field w 0 8 ≠ 8 && !hard) || (field w 0 8 = 0x0A && s.midChunk (field w 8 8))

/-- Whether a ring can start a request: it is enabled and holds one, the one before has completed, and no other holds it back. -/
def State.ringReady (s : State) (n : Nat) : Bool :=
  let r := s.ring n
  !r.busy && r.rqsize ≠ 0 && r.rqhead ≠ r.rqtail && !s.mustWait (s.ringWord n)

/-- The turn of the rings: the next one in turn that can starts its next request (R378); an op that names no request completes with
status 1. -/
def ringTurn (s : State) : Turn :=
  if !s.dev.ready || s.dev.power = .d3hot then .rest s
  else match ((List.range 16).map (fun i => (s.dev.turn + 1 + i) % 16)).find? s.ringReady with
    | none => .rest s
    | some n =>
      let s := { s with cur := .ring n, dev := { s.dev with turn := n } }
      let w := s.ringWord n
      match decodeRequest w with
      | some i => .run i s
      | none => .rest ((s.takeRequest n).complete n (field w 0 8) (bits w 32 32) 1 0)

/-- The turn of the agent that acts. -/
def agentTurn (s : State) : Turn :=
  match s.cur with
  | .main t => hartTurn s ⟨t, false⟩
  | .move t => hartTurn s ⟨t, true⟩
  | .slicer _ => .run .slicerTake s
  | .addr t => engineTurn s t 0 true
  | .compute t => engineTurn s t 0 false
  | .copy t => engineTurn s t 1 false
  | .msg t => engineTurn s t 2 false
  | .ring _ => ringTurn s

/-- The turn of an agent that only starts a command, or goes on with one; any other agent takes its turn. -/
def pickedTurn (s : State) (pick : Pick) : Turn :=
  match s.cur with
  | .addr t => pickTurn s t 0 true pick
  | .compute t => pickTurn s t 0 false pick
  | .copy t => pickTurn s t 1 false pick
  | .msg t => pickTurn s t 2 false pick
  | _ => agentTurn s

/-! ## Time and upsets -/

/-- The cycle count of a block that is being decoded: a wait for a ring unit does not count, nor the time in which the copy is suspended.
The time that a write of it stalls at a moving page counts, which the spec leaves open (R322; DESIGN CHOICE, log entry 125). -/
def TileCtx.passBlock (c : TileCtx) (n : Nat) : TileCtx :=
  if c.tokens.any (fun p => p.2.waiters.contains .copy) then c
  else { c with q1 := { c.q1 with entries := c.q1.entries.map (fun e =>
    if e.copying && e.prog.dec.inBlock && !e.prog.suspended then
      { e with prog := { e.prog with dec := { e.prog.dec with cycles := e.prog.dec.cycles + n } } } else e) } }

/-- Time passes: the device-wide count, the cycle counters of the harts whose context is running, and the block counts of the copies that
are not suspended yet, in a context that is being pre-empted too (R135, R322, R402). -/
def State.pass (s : State) (n : Nat) : State :=
  { s with
    clk := s.clk + n
    tiles := s.tiles.map (fun p =>
      let st := (s.ctx (p.2.owner.getD (0, 0)).1).st
      if p.2.owner.isSome && st = .preempting then (p.1, { p.2 with ctx := p.2.ctx.passBlock n })
      else if p.2.owner.isSome && st = .running then
        let c := p.2.ctx.passBlock n
        (p.1, { p.2 with ctx := { c with main := { c.main with cycle := c.main.cycle + BitVec.ofNat 64 n }
                                         move := { c.move with cycle := c.move.cycle + BitVec.ofNat 64 n } } })
      else p) }

/-- Cells of a symbol change (R88). -/
def State.flip (s : State) (line sym : Nat) (b : BitVec 33) : State :=
  { s with flips := SMap.set 0 s.flips (line * 18 + sym) (SMap.get 0 s.flips (line * 18 + sym) ^^^ b) }

/-! ## Placing an instruction -/

/-- A context with the first cluster, running a kernel whose one stage has no queues, on a device that is ready: what
a launch leaves (R126, R168, R169). -/
def runningContext : Context :=
  { st := .running, clusters := [0],
    kernel := some { st := .running, record := 0, text := 0, textLen := Config.imemBytes, tables := 0, ep := 0, arg := 0,
                     stages := [], queues := [] } }

/-- The device with context 0 running on cluster 0, each tile bound, tile 0's harts at pc 0. -/
def State.withContext (s : State) : State :=
  let s := s.setCtx 0 { runningContext with cfg := (s.ctx 0).cfg }
  let s := [0, 1, 2, 3].foldl (fun (s : State) i =>
    s.setTile (tileAt 0 i) { s.tile (tileAt 0 i) with owner := some (0, i) }) s
  let s := s.setTile 0 { s.tile 0 with textLen := Config.imemBytes }
  let s := (s.modHart ⟨0, false⟩ (fun h => { h with run := .running, pc := 0 })).modHart ⟨0, true⟩
    (fun h => { h with run := .running, pc := 0 })
  { s with agenda := [], dev := { s.dev with ready := true } }

/-- Whether a hart word may run on the main hart: the movement hart runs the pushes and waits of q1 and q2,
`cpcancel` and `rx.probe` (R18, R56). -/
def onMovement (w : Nat) : Bool :=
  match decodeHart (BitVec.ofNat 32 w) 0 with
  | .qput _ q _ _ => q ≠ 0
  | .qsync q => q ≠ 0
  | .cpcancel _ _ => true
  | .rxProbe _ _ => true
  | _ => false

/-- Places words in instruction memory. -/
def State.putText (s : State) (t k w : Nat) : State :=
  s.setTile t { s.tile t with imem := SMap.set 0 (s.tile t).imem k (BitVec.ofNat 32 w) }

/-- The engine and queue that run a command word placed by itself (R61). -/
def engineFor (w : CmdBits) : Agent × Nat :=
  match field w 5 3 with
  | 5 => (.copy 0, 1)
  | 6 => (.msg 0, 2)
  | _ => (if w.getLsbD 8 then .addr 0 else .compute 0, 0)

/-- A ring at whose head a request waits. -/
def oneRequest (r : Ring) : Ring := { r with rqsize := 64, rqhead := 0, rqtail := 1, busy := false }

/-- Places an instruction where the next step runs it: a hart word (and its literal) at pc 0, a command word at the
head of its engine's queue, a request at the head of ring 0. -/
def State.place (s : State) (nbits w : Nat) : State :=
  let s := s.withContext
  if nbits = 512 then
    let s := s.setRing 0 (oneRequest (s.ring 0))
    { s.rawWrite (hostPa (s.ring 0).rqbase.toNat) 64 w with cur := .ring 0, dev := { s.dev with turn := 15 } }
  else if nbits = 256 then
    let c := BitVec.ofNat 256 w
    let a := engineFor c
    let e : Entry := { seq := 0, w := c, st := if a.2 = 0 then .taken else .queued }
    { s.modTc 0 (fun k => k.setQueue a.2 { entries := [e], pushed := 1 }) with cur := a.1 }
  else
    let s := (s.putText 0 0 (w % 2 ^ 32)).putText 0 1 (w / 2 ^ 32)
    { s with cur := if onMovement (w % 2 ^ 32) then .move 0 else .main 0 }

end Sys2Proof.Machine
end

