-- ==== Sys2Proof/Machine/Requests.lean ====
section
/-! DEFINITION. Host requests (R377 to R379): how one is taken from its ring, tested against the state of the context it
names, and completed. -/

namespace Sys2Proof.Machine

/-- The ring whose turn it is. -/
def State.ringNumber (s : State) : Nat :=
  match s.cur with
  | .ring n => n
  | _ => 0

/-- What a request does: a status and a result at once, or nothing yet. -/
abbrev Answer := State × Option (Nat × Word)

/-- A request that answers at once with a status. -/
def State.answer (s : State) (status : Nat) : Answer := (s, some (status, 0))

/-- Takes a request and runs it: a nonzero reserved bit makes it malformed (R377, R379). -/
def runRequest (op : Nat) (r : Request) (body : Nat → State → Answer) (s : State) : Host.Outcome State Fault Refusal :=
  let n := s.ringNumber
  let s := s.takeRequest n
  if r.rsv ≠ 0 then .next (s.complete n op r.tag 1 0)
  else
    match body n s with
    | (s', some (status, result)) => .next (s'.complete n op r.tag status result)
    | (s', none) => .next s'

/-- A request that names a context ungates its tiles (R204). -/
def State.ungateContext (s : State) (c : Nat) : State := (s.tilesOf c).foldl (fun (s : State) t => s.ungate t) s

/-- A request that names a context: malformed with an id that is none, status 2 in a state that the request is no event
of (R379). -/
def runOnContext (op : Nat) (r : Request) (ok : Context → Bool) (body : Nat → State → Answer) (s : State) :
    Host.Outcome State Fault Refusal :=
  runRequest op r (fun n s =>
    if Config.nContexts ≤ r.ctx.toNat then s.answer 1
    else if !ok (s.ctx r.ctx.toNat) then s.answer 2
    else body n (s.ungateContext r.ctx.toNat)) s

/-- The context test of the requests that are no state events: any state but free and torn-down (R379). -/
def Context.live (x : Context) : Bool := x.st ≠ .free && x.st ≠ .tornDown

/-! ## Host memory as requests read and write it -/

/-- n bytes of host memory as a number. -/
def State.hostRead (s : State) (a : Word) (n : Nat) : Nat := s.rawRead (hostPa a.toNat) n

/-- A word of host memory. -/
def State.hostWord (s : State) (a : Word) (i : Nat) : Word := BitVec.ofNat 64 (s.hostRead (a + BitVec.ofNat 64 (8 * i)) 8)

/-- Writes 64-bit words to host memory. -/
def State.hostWords (s : State) (a : Nat) : List Nat → State
  | [] => s
  | v :: r => State.hostWords (s.rawWrite (hostPa a) 8 v) (a + 8) r

end Sys2Proof.Machine
end

