-- ==== Sys2Proof/Machine/Sha3.lean ====
section
/-! DEFINITION. SHA3-512, which R24 and R385 to R387 name, and the sponge that ML-DSA-87 shares with it: the manual does not give the
functions, which are taken from FIPS 202 (PRESUMED, log entry 6). Digests are numbers, the first byte least significant. -/

namespace Sys2Proof.Machine

/-- Rotates a 64-bit lane left. -/
def rotLane (x n : Nat) : Nat := x * 2 ^ n % 2 ^ 64 ||| x / 2 ^ (64 - n)

/-- The lane at column x and row y of a state of 25 lanes, each row of five after the one before. -/
def laneAt (a : List Nat) (x y : Nat) : Nat := nth 0 a (x % 5 + 5 * (y % 5))

/-- The parity of a column. -/
def columnParity (a : List Nat) (x : Nat) : Nat := (List.range 5).foldl (fun v y => v ^^^ laneAt a x y) 0

/-- Each lane takes in the parities of the two columns beside its own. -/
def mixColumns (a : List Nat) : List Nat :=
  (a.zip (List.range 25)).map (fun p => p.1 ^^^ columnParity a (p.2 + 4) ^^^ rotLane (columnParity a (p.2 + 1)) 1)

/-- Moves n lanes, each to where the next one stands, from the t-th at column x and row y on; the t-th is turned by the
t-th triangular number. Lanes are read from `a` and put into `b`. -/
def moveLanes (a : List Nat) : Nat → Nat → Nat → Nat → List Nat → List Nat
  | 0, _, _, _, b => b
  | n + 1, t, x, y, b =>
    let y' := (2 * x + 3 * y) % 5
    moveLanes a n (t + 1) y y' (setNth b (y + 5 * y') (rotLane (laneAt a x y) (t * (t + 1) / 2 % 64)))

/-- Each lane takes in where the next in its row is clear and the one after it is set. -/
def mixRows (a : List Nat) : List Nat :=
  (a.zip (List.range 25)).map (fun p =>
    let next (k : Nat) : Nat := laneAt a (p.2 + k) (p.2 / 5)
    p.1 ^^^ (next 2 ^^^ (next 1 &&& next 2)))

/-- The next state of the generator of the round constants: a polynomial over GF(2) modulo x^8 + x^6 + x^5 + x^4 + 1, times x. -/
def nextBit (g : Nat) : Nat := if g < 128 then 2 * g else 2 * g ^^^ 0x171

/-- The constant of a round from the generator's state: seven of its bits, at the places 2^j - 1; and the state after them. -/
def roundConstant (g : Nat) : Nat × Nat :=
  (List.range 7).foldl (fun p j => (p.1 + p.2 % 2 * 2 ^ (2 ^ j - 1), nextBit p.2)) (0, g)

/-- n rounds of the permutation from the generator's state g on. -/
def permute : Nat → Nat → List Nat → List Nat
  | 0, _, a => a
  | n + 1, g, a =>
    let (k, g) := roundConstant g
    let m := mixColumns a
    let b := mixRows (moveLanes m 24 1 1 0 m)
    permute n g (setNth b 0 (nth 0 b 0 ^^^ k))

/-- The permutation. -/
def keccak (a : List Nat) : List Nat := permute 24 1 a

/-- A 64-bit lane of bytes, the first lowest. -/
def laneOf : List Byte → Nat
  | [] => 0
  | b :: r => b.toNat + 256 * laneOf r

/-- Absorbs `n` blocks of `r` lanes. -/
def absorb (r : Nat) : Nat → List Byte → List Nat → List Nat
  | 0, _, a => a
  | n + 1, l, a =>
    let block := (List.range 25).map (fun i => nth 0 a i ^^^ (if i < r then laneOf ((l.drop (8 * i)).take 8) else 0))
    absorb r n (l.drop (8 * r)) (keccak block)

/-- The padding of a message of n bytes to whole blocks of `r` lanes, after the suffix that tells the functions apart. -/
def spongePad (r n : Nat) (suffix : Byte) : List Byte :=
  let k := 8 * r - n % (8 * r)
  if k = 1 then [suffix ||| 0x80] else [suffix] ++ List.replicate (k - 2) 0 ++ [0x80]

/-- The lanes after a byte string has been absorbed. -/
def sponge (r : Nat) (suffix : Byte) (l : List Byte) : List Nat :=
  let m := l ++ spongePad r l.length suffix
  absorb r (m.length / (8 * r)) m (List.replicate 25 0)

/-- SHA3-512 of a byte string. -/
def sha3 (l : List Byte) : BitVec 512 :=
  BitVec.ofNat 512 ((List.range 8).foldl (fun acc i => acc + nth 0 (sponge 9 0x06 l) i * 2 ^ (64 * i)) 0)

/-- The bytes of a lane, the lowest first. -/
def laneBytes (x : Nat) : List Byte := (List.range 8).map (fun i => BitVec.ofNat 8 (x / 256 ^ i))

/-- `n` blocks of `r` lanes that a sponge gives out. -/
def squeeze (r : Nat) : Nat → List Nat → List Byte
  | 0, _ => []
  | n + 1, a => (a.take r).flatMap laneBytes ++ squeeze r n (keccak a)

/-- SHAKE128 and SHAKE256 of a byte string, `n` blocks of it: the rates are 21 and 17 lanes. -/
def shake128 (n : Nat) (l : List Byte) : List Byte := squeeze 21 n (sponge 21 0x1F l)
def shake256 (n : Nat) (l : List Byte) : List Byte := squeeze 17 n (sponge 17 0x1F l)

end Sys2Proof.Machine
end

