-- ==== Sys2Proof/Machine/Kernel.lean ====
section
/-! DEFINITION. Kernels and stages (R160 to R182): launch records, loading and binding, stage queues, takes and spawns,
release of tiles, the stage scheduler, retirement and the closing of queues. -/

namespace Sys2Proof.Machine

/-! ## Memory of a context as the device reads it -/

/-- n 64-bit words from a virtual address, each none where its page is not resident. -/
def State.virtWords (s : State) (c : Nat) : Nat → Nat → List (Option Nat)
  | _, 0 => []
  | va, n + 1 => (s.leafAt c va).map (fun l => s.peek l.pa 8) :: State.virtWords s c (va + 8) n

/-- The lines of n bytes from a virtual address as a read finds them: corrected, counted, or lost, and in tier S counted for the barrow
(R87 to R89, R340). -/
def State.touchVirt (s : State) (c va n : Nat) : State :=
  (List.range ((va % 64 + n + 63) / 64)).foldl (fun (s : State) i =>
    let s := s.deviceWalk c (va / 64 * 64 + 64 * i)
    match s.leafAt c (va / 64 * 64 + 64 * i) with
    | some l => (s.directRead c l 1).1
    | none => s) s

/-- The words of a list that are all there. -/
def allThere {α : Type} (l : List (Option α)) : Option (List α) := l.mapM id

/-! ## Stage queues (R164, R174) -/

/-- Slots of the ring that hold no item and belong to no chunk. -/
def StageQueue.free (q : StageQueue) : Nat := q.depth - q.ring.length - (q.chunks.map (·.count)).sum
/-- Items held. -/
def StageQueue.occ (q : StageQueue) : Nat := q.ring.length + q.spill.length
/-- Address of a ring slot and of a place of the overflow region. -/
def StageQueue.slotVa (q : StageQueue) (i : Nat) : Nat := q.base + i % q.depth * (8 * q.item)
def StageQueue.spillVa (q : StageQueue) (i : Nat) : Nat := q.ovf + i % q.ovfn * (8 * q.item)

/-- How n items are placed: in the ring outside the reserve, in the overflow, in the reserve; none while they do not
fit in the space that the issuer may use. -/
def StageQueue.plan (q : StageQueue) (n : Nat) (oldest : Bool) : Option (Nat × Nat × Nat) :=
  let a := if q.spill.isEmpty then min n (q.free - q.rsv) else 0
  let b := min (n - a) (q.ovfn - q.spill.length)
  let r := n - a - b
  if r = 0 then some (a, b, 0) else if oldest && r ≤ q.free - a then some (a, b, r) else none

/-- The stages that name a queue as an output, or as their input. -/
def Kernel.producers (k : Kernel) (j : Nat) : List Stage := k.stages.filter (fun x => x.outs.contains j)
def Kernel.stage (k : Kernel) (i : Nat) : Option Stage := k.stages[i]?
def Kernel.queueAt (k : Kernel) (j : Nat) : Option StageQueue := k.queues[j]?
def Kernel.setQueue (k : Kernel) (j : Nat) (q : StageQueue) : Kernel := { k with queues := setNth k.queues j q }
/-- Tiles bound to a stage. -/
def Kernel.tiles (k : Kernel) (i : Nat) : Nat := (k.bound.filter (fun p => p.2.stage = i)).length
def Kernel.hasEnded (k : Kernel) (i : Nat) : Bool := match k.stage i with | some x => x.ended | none => true

/-- One pass of the drain rules (R175): queues drain, and stages end when their input has drained. -/
def Kernel.settleOnce (k : Kernel) : Kernel :=
  let qs := (k.queues.zip (List.range k.queues.length)).map (fun p =>
    if p.1.occ = 0 && p.1.chunks.all (·.retired) && !p.1.isOpen && (k.producers p.2).all (·.ended) then
      { p.1 with drained := true } else p.1)
  { k with queues := qs,
           stages := k.stages.map (fun x => { x with ended := x.ended || ((qs[x.inq]?).map (·.drained)).getD true }) }

def Kernel.settleN (k : Kernel) : Nat → Kernel
  | 0 => k
  | n + 1 => Kernel.settleN k.settleOnce n

/-- The drain rules to their end; a running kernel whose source queues have all drained is draining (R167). -/
def Kernel.settle (k : Kernel) : Kernel :=
  let k := k.settleN (k.queues.length + 1)
  let sources := (List.range k.queues.length).filter (fun j => (k.producers j).isEmpty)
  if k.st = .running && sources.all (fun j => ((k.queueAt j).map (·.drained)).getD true) then { k with st := .draining } else k

/-- Copies the words of an item. -/
def State.copyItem (s : State) (c src dst : Nat) : Nat → State
  | 0 => s
  | n + 1 =>
    let s := (s.deviceWalk c src).deviceWalk c dst
    let s := match s.leafAt c src, s.leafAt c dst with
      | some a, some b =>
        let r := s.directRead c a 8
        r.1.homeWrite (some c) b.pa 8 r.2 none
      | _, _ => s
    State.copyItem s c (src + 8) (dst + 8) n

/-- Refills freed ring slots from the head of the overflow, at most n items; it waits while the ring's page moves. -/
def State.refill (s : State) (c j : Nat) : Nat → State
  | 0 => s
  | n + 1 =>
    match (s.ctx c).kernel.bind (fun k => k.queueAt j) with
    | none => s
    | some q =>
      match q.spill with
      | [] => s
      | x :: rest =>
        let dst := q.slotVa (q.head + q.ring.length)
        if q.free ≤ q.rsv || s.spanMoving c dst (8 * q.item) then s
        else
          let s := s.copyItem c (q.spillVa q.ovfHead) dst q.item
          let s := s.modCtx c (fun x' => x'.modKernel (fun k =>
            k.setQueue j { q with ring := q.ring ++ [x], spill := rest, ovfHead := (q.ovfHead + 1) % q.ovfn }))
          State.refill s c j n

/-- Frees the slots of chunks in take order: retired, and no command that reads them left (R172). -/
def State.reclaim (s : State) (c : Nat) (q : StageQueue) : StageQueue :=
  { q with chunks := q.chunks.dropWhile (fun x => x.retired && !(s.tcAt c x.ctile).readersLeft x.readers) }

/-- Brings a stage queue up to date: slots that can be freed are, and the ring is refilled. -/
def State.tend (s : State) (c j : Nat) : State :=
  match (s.ctx c).kernel.bind (fun k => k.queueAt j) with
  | none => s
  | some q =>
    let q := s.reclaim c q
    (s.modCtx c (fun x => x.modKernel (fun k => k.setQueue j q))).refill c j q.spill.length

/-- Changes the kernel of a context and applies the drain rules. -/
def State.modK (s : State) (c : Nat) (f : Kernel → Kernel) : State := s.modCtx c (fun x => x.modKernel (fun k => (f k).settle))

/-! ## Takes (R170, R171) -/

/-- The binding of a tile. -/
def State.binding (s : State) (t : Nat) : Option Binding :=
  (s.ctx (s.ctxOf t)).kernel.bind (fun k => SMap.find? k.bound (s.ctileOf t))

/-- Chunks that a tile holds, in all queues. -/
def Kernel.outstanding (k : Kernel) (ct : Nat) : Nat :=
  (k.queues.map (fun q => (q.chunks.filter (fun x => x.ctile = ct && !x.retired)).length)).sum

def ceilDiv (a b : Nat) : Nat := (a + b - 1) / b

/-- The items of the chunk that is served now. -/
def chunkSize (q : StageQueue) (x : Stage) (tiles : Nat) : Nat :=
  let n := max x.minchunk (ceilDiv q.occ (x.factor * tiles))
  min (min n q.ring.length) (min (q.depth - q.head % q.depth) 1023)

/-- The result words of a take. -/
def takeNone : Word := 0xC000000000000000
def takeEnd : Word := 0x8000000000000000
def takeMark (m : Nat) : Word := BitVec.ofNat 64 (2 ^ 62 + m)

/-- The result of a take now, with the queue as it leaves it; none where it waits. -/
def Kernel.serve (k : Kernel) (ct : Nat) : Option (Word × Option (Nat × StageQueue)) :=
  match SMap.find? k.bound ct with
  | none => some (takeEnd, none)
  | some b =>
    match b.mark with
    | some m => some (takeMark m, none)
    | none =>
      match k.stage b.stage with
      | none => some (takeEnd, none)
      | some x =>
        match k.queueAt x.inq with
        | none => some (takeEnd, none)
        | some q =>
          if k.outstanding ct = 4 then some (takeNone, none)
          else if q.drained then some (takeEnd, none)
          else if !q.ring.isEmpty && (q.waiters.headD ct) = ct then
            let n := chunkSize q x (k.tiles b.stage)
            let a := q.slotVa q.head
            some (BitVec.ofNat 64 (n * 2 ^ 52 + a),
              some (x.inq, { q with ring := q.ring.drop n, head := (q.head + n) % q.depth,
                                    chunks := q.chunks ++ [{ ctile := ct, first := q.head, count := n, va := a }] }))
          else if k.outstanding ct > 0 then some (takeNone, none)
          else none

/-- A tile leaves the waiting order of its queue, or joins it. -/
def Kernel.leave (k : Kernel) (ct : Nat) : Kernel :=
  { k with queues := k.queues.map (fun q => { q with waiters := q.waiters.filter (· ≠ ct) }) }
def Kernel.join (k : Kernel) (ct : Nat) : Kernel :=
  match (SMap.find? k.bound ct).bind (fun b => k.stage b.stage) with
  | none => k
  | some x =>
    match k.queueAt x.inq with
    | none => k
    | some q => if q.waiters.contains ct then k else k.setQueue x.inq { q with waiters := q.waiters ++ [ct] }

/-- A take: a chunk, an end, a mark or none now is written to xd; otherwise the hart waits. -/
def State.take (s : State) (h : HartId) (rd : Reg) : State :=
  let c := s.ctxOf h.tile
  let ct := s.ctileOf h.tile
  let s := match (s.ctx c).kernel.bind (fun k => (SMap.find? k.bound ct).bind (fun b => k.stage b.stage)) with
    | some x => s.tend c x.inq
    | none => s
  match (s.ctx c).kernel with
  | none => s.result h rd takeEnd
  | some k =>
    match k.serve ct with
    | none => (s.modCtx c (fun x => x.modKernel (fun k => k.join ct))).setWait h (.stgTake rd)
    | some (v, none) => (s.modCtx c (fun x => x.modKernel (fun k => k.leave ct))).result h rd v
    | some (v, some (j, q)) =>
      let s := s.modCtx c (fun x => x.modKernel (fun k => Kernel.leave { k.setQueue j q with taken := satAdd 64 k.taken 1 } ct))
      (s.discardAll h.tile).result h rd v

def execStgTake (rd : Reg) (s : State) : Host.Outcome State Fault Refusal :=
  if s.me.move then .next (s.illegalAt s.me) else .next (s.take s.me rd)

def execStgTakeServed (s : State) : Host.Outcome State Fault Refusal :=
  match (s.hart s.me).run with
  | .waiting (.stgTake rd) => .next (s.take s.me rd)
  | _ => .next s

/-! ## Retiring chunks (R172) -/

/-- The read extent of a command (R172, R238): the spans of its entry, and for a send, a put and a prefetch, which make none, those of
the box that they read. -/
def readSpans (r : Run) (rd : Reader) : M (List Span) :=
  let c := cmdOfBits r.e.w
  match field r.e.w 0 8 with
  | 0xC0 | 0xC1 =>
    if c.sub ≠ 0 then pure []
    else
      let h := msShape r c
      elemsSpan rd h ((List.range h.count).map (fun j => addCoords (msCoords r c) (boxCoords h.extents j)))
  | 0xA6 =>
    let h := cpSource r c
    elemsSpan rd h ((List.range h.count).map (fun j => addCoords (coordsOf r.e c 72 (cpNcoord c)) (boxCoords h.extents j)))
  | _ => do let sp ← spansOf r rd; pure sp.rd

/-- Whether an operation reads memory. -/
def readsMemory (op : Nat) : Bool := (accessOf op).1 || op = 0xC0 || op = 0xC1 || op = 0xA6

/-- Whether the read extent of a command of a tile, in whole lines, meets a virtual range (R172, R238). The extent of a pending command is
formed when it is asked for, at `stg.done`, from position and bitmap memory as it stands then, and it is compared with the slots by virtual
address alone, so a command that reads the ring through an alias page does not hold them: the spec says neither (DESIGN CHOICE, log
entry 127). -/
def State.readsRange (s : State) (t q : Nat) (e : Entry) (va n : Nat) : Bool :=
  readsMemory (field e.w 0 8) &&
    (match (readSpans { t := t, q := q, e := e } (peekGet (s.ctxOf t))) s with
     | .ok sp _ => sp.any (fun x => x.1 / 64 * 64 < va + n && va < x.2 / 64 * 64 + 64)
     | .error _ _ => true)

/-- The acting engine reads one word of a command that it has started before the command's other accesses: the entry keeps what it read.
A word outside the read extent, and one whose read faults, is left to the command itself (R100; log entry 13). -/
def State.earlyRead (s : State) (seq va : Nat) : State :=
  let t := s.cur.tile
  let q := match s.cur with
    | .copy _ => 1
    | .msg _ => 2
    | _ => 0
  match (s.queue t q).find seq with
  | none => s
  | some e =>
    let r : Run := { t, q, e, word := some (va / 8) }
    if e.st ≠ .running || e.prog.written || !s.engineWorks t q e || !s.readsRange t q e (va / 8 * 8) 8 then s
    else
      match (if q = 0 then cachedGet r (va / 8 * 8) 8 else directGet r (q = 1) (va / 8 * 8) 8) s with
      | .ok _ s' => s'
      | .error _ s' => s.keepFresh s' (some (s.ctxOf t))

/-- The commands of a tile that read a virtual range. -/
def State.readers (s : State) (t va n : Nat) : List (Nat × Nat) :=
  [0, 1, 2].flatMap (fun q => ((s.queue t q).entries.filter (fun e => s.readsRange t q e va n)).map (fun e => (q, e.seq)))

/-- Retires the chunks of a tile that a test picks. -/
def State.retireChunks (s : State) (t : Nat) (p : Chunk → Bool) : State :=
  let c := s.ctxOf t; let ct := s.ctileOf t
  let s := s.modK c (fun k => { k with queues := k.queues.map (fun q => { q with chunks := q.chunks.map (fun x =>
    if x.ctile = ct && !x.retired && p x then
      { x with retired := true, readers := s.readers t x.va (x.count * 8 * q.item) } else x) }) })
  let n := match (s.ctx c).kernel with | some k => k.queues.length | none => 0
  (List.range n).foldl (fun (s : State) j => s.tend c j) s

def execStgDone (rs1 : Reg) (s : State) : Host.Outcome State Fault Refusal :=
  let h := s.me
  if h.move then .next (s.illegalAt h)
  else
    let v := s.readX h rs1
    let c := s.ctxOf h.tile; let ct := s.ctileOf h.tile
    let hit (x : Chunk) : Bool := field v 62 2 = 0 && x.ctile = ct && !x.retired && x.va = field v 0 52
    let s := match (s.ctx c).kernel with
      | none => s
      | some k =>
        if k.queues.any (fun q => q.chunks.any hit) then s.retireChunks h.tile hit
        else s.modCtx c (fun x => x.modKernel (fun k => { k with stray := satAdd 64 k.stray 1 }))
    .next (s.retire h ((s.hart h).pc + 4))

/-! ## Spawns (R173, R174) -/

/-- The oldest stage: its input queue holds the item with the lowest sequence number. -/
def Kernel.oldest (k : Kernel) : Option Nat :=
  let low (i : Nat) : Option (Nat × Nat) :=
    match (k.stage i).bind (fun x => k.queueAt x.inq) with
    | none => none
    | some q => match q.ring ++ q.spill with
      | [] => none
      | a :: r => some (r.foldl min a, i)
  let l := (List.range k.stages.length).filterMap low
  match l with
  | [] => none
  | a :: r => some (r.foldl (fun (b x : Nat × Nat) => if x.1 < b.1 then x else b) a).2

/-- Writes the words of an item. -/
def State.putItem (s : State) (t c : Nat) : Nat → List Word → State
  | _, [] => s
  | va, w :: r =>
    let s := s.deviceWalk c va
    let s := match s.leafAt c va with
      | some l => s.tileWrite t c l 8 w.toNat none
      | none => s
    State.putItem s t c (va + 8) r

/-- Item i of a list of items. -/
def itemWords (items : List Word) (size i : Nat) : List Word := (items.drop (i * size)).take size

/-- Places items by a plan and numbers them. -/
def State.placeItems (s : State) (t c j : Nat) (q : StageQueue) (items : List Word) (p : Nat × Nat × Nat) : State :=
  let n := p.1 + p.2.1 + p.2.2
  let seq := ((s.ctx c).kernel.map (·.nextSeq)).getD 0
  let tail := q.head + q.ring.length
  let s := (List.range n).foldl (fun (s : State) i =>
    let va := if i < p.1 then q.slotVa (tail + i)
      else if i < p.1 + p.2.1 then q.spillVa (q.ovfHead + q.spill.length + (i - p.1))
      else q.slotVa (tail + (i - p.2.1))
    s.putItem t c va (itemWords items q.item i)) s
  let num (a m : Nat) : List Nat := (List.range m).map (fun i => seq + a + i)
  s.modCtx c (fun x => x.modKernel (fun k =>
    { k.setQueue j { q with ring := q.ring ++ num 0 p.1 ++ num (p.1 + p.2.1) p.2.2, spill := q.spill ++ num p.1 p.2.1 } with
      nextSeq := seq + n }))

/-- Places the items of a spawn, or waits. -/
def spawnItems (h : HartId) (rd : Reg) (j n : Nat) (items : List Word) : M Unit := do
  upd (fun s => s.tend (s.ctxOf h.tile) j)
  let s ← get
  let c := s.ctxOf h.tile
  match (s.ctx c).kernel, (s.ctx c).kernel.bind (fun k => k.queueAt j) with
  | some k, some q =>
    let mine := (SMap.find? k.bound (s.ctileOf h.tile)).map (·.stage)
    let still : Bool := s.spanMoving c q.base (q.depth * 8 * q.item) || (q.ovfn ≠ 0 && s.spanMoving c q.ovf (q.ovfn * 8 * q.item))
    match q.plan n (mine.isSome && k.oldest = mine) with
    | some p =>
      need (!still) (.wait (.spawn rd j n items))
      upd (fun s => (s.placeItems h.tile c j q items p).writeX h rd
        (BitVec.ofNat 64 (q.occ + n + (if p.2.1 ≠ 0 then 2 ^ 63 else 0))))
    | none => throw (.wait (.spawn rd j n items))
  | _, _ => illegal h

def execSpawn (rd rs1 rs2 : Reg) (s : State) : Host.Outcome State Fault Refusal :=
  let h := s.me
  hartStep h (do
    let v := s.readX h rs1
    let j := field v 0 4; let n := field v 16 16
    let c := s.ctxOf h.tile
    match (s.ctx c).kernel, (s.ctx c).kernel.bind (fun k => k.queueAt j),
        ((s.ctx c).kernel.bind (fun k => (SMap.find? k.bound (s.ctileOf h.tile)).bind (fun b => k.stage b.stage))) with
    | some _, some q, some x => do
      if field v 32 32 ≠ 0 || field v 4 12 ≠ 0 || n = 0 || n > 256 || !(j = x.inq || x.outs.contains j) ||
          n > q.depth - q.rsv + q.ovfn then illegal h
      let a := s.readX h rs2
      need (a.toNat % 8 = 0) (.trap 4 0 a)
      let items ← plainWords h a (n * q.item)
      if q.drained then
        upd (fun s => (s.modCtx c (fun x => x.modKernel (fun k => { k with dropped := satAdd 64 k.dropped n }))).writeX h rd (2 ^ 62))
      else spawnItems h rd j n (items.map (BitVec.ofNat 64))
    | _, _, _ => illegal h) s

def execSpawnPlaced (s : State) : Host.Outcome State Fault Refusal :=
  match (s.hart s.me).run with
  | .waiting (.spawn rd j n items) => hartStep s.me (spawnItems s.me rd j n items) s
  | _ => .next s

/-! ## Binding (R169) -/

/-- The registers of a hart at a binding (R169, R193). -/
def Hart.bind (x : Hart) (pc stage ctile : Nat) (arg : Word) (cp : Bool) : Hart :=
  { x with
    run := .running
    pc := BitVec.ofNat 64 pc
    x := (([] : SMap Word) |> fun m => SMap.set 0 (SMap.set 0 (SMap.set 0 m 10 (BitVec.ofNat 64 stage)) 11 arg) 12 (BitVec.ofNat 64 ctile))
    f := []
    c := []
    h := []
    ctxvec := 0
    ctxstat := putBit 0 6 cp
    grpsel := 0
    slots := [] }

/-- Binds a tile to a stage: both harts start, counts and lease length are zero (R169, R214, R291). -/
def State.bindTile (s : State) (c ct i : Nat) : State :=
  match (s.ctx c).kernel, (s.tilesOf c)[ct]? with
  | some k, some t =>
    match k.stage i with
    | none => s
    | some x =>
      let s := { s with watches := s.watches.filter (fun w => w.tile ≠ t) }
      let s := (s.modTc t (fun m =>
        { m with main := m.main.bind x.main i ct k.arg m.q0.faulted
                 move := m.move.bind x.move i ct k.arg (m.q1.faulted || m.q2.faulted)
                 tokens := []
                 ll := 0 })).ungate t
      s.modCtx c (fun y => y.modKernel (fun k => { k with bound := SMap.put k.bound ct { stage := i, born := k.epoch } }))
  | _, _ => s

/-- The stages of the initial binding, in context tile order, for n tiles (R168). -/
def extraRounds (stages : List Stage) (n : Nat) : Nat → List Nat → List Nat
  | 0, acc => acc
  | r + 1, acc =>
    let more := (List.range stages.length).filter (fun i =>
      match stages[i]? with | some x => (acc.filter (· = i)).length < x.tmax | none => false)
    if more.isEmpty || n ≤ acc.length then acc else extraRounds stages n r (acc ++ more)

def initialStages (stages : List Stage) (n : Nat) : List Nat :=
  let first := (stages.zip (List.range stages.length)).flatMap (fun p => List.replicate p.1.tmin p.2)
  (extraRounds stages n n first).take n

/-! ## Leaving a stage (R176, R177) -/

/-- Whether a command that the hart pushed has not completed. -/
def State.pushesOut (s : State) (h : HartId) : Bool :=
  (if h.move then [1, 2] else [0]).any (fun q => (s.queue h.tile q).done < (s.queue h.tile q).pushed)

/-- `kexit` waits for the hart's commands; the main hart retires its chunks and gives up the lease; the hart stops, and
with the other the tile is released. -/
def execKexit (s : State) : Host.Outcome State Fault Refusal :=
  let h := s.me
  if s.pushesOut h then .next (s.setWait h .kexit)
  else
    let c := s.ctxOf h.tile; let ct := s.ctileOf h.tile
    let s := if h.move then s else (s.retireChunks h.tile (fun _ => true)).endLease h.tile
    let s := (s.retire h ((s.hart h).pc + 4)).modHart h (fun x => { x with run := .stopped })
    match s.binding h.tile with
    | none => .next s
    | some b =>
      let b := if h.move then { b with moveStopped := true } else { b with mainStopped := true }
      let s := s.modCtx c (fun x => x.modKernel (fun k => { k with bound := SMap.put k.bound ct b }))
      .next (if b.mainStopped && b.moveStopped then s.later (.kexitRelease h.tile) else s)

/-- The stage that a released tile is bound to at once: its mark's target, or the lowest stage below its tmin. -/
def Kernel.nextStage (k : Kernel) (b : Binding) : Option Nat :=
  match b.mark with
  | some m => if !k.hasEnded m then some m else (List.range k.stages.length).find? below
  | none => (List.range k.stages.length).find? below
where
  below (i : Nat) : Bool := match k.stage i with | some x => !x.ended && k.tiles i < x.tmin | none => false

/-- Data-queue slots that are full and unclaimed are emptied. -/
def TileCtx.emptyFull (m : TileCtx) : TileCtx :=
  { m with dq := m.dq.map (fun p => (p.1, { p.2 with slots := p.2.slots.filter (fun x => x.st ≠ .full) })) }

def execKexitRelease (t : Nat) (s : State) : Host.Outcome State Fault Refusal :=
  let c := s.ctxOf t; let ct := s.ctileOf t
  match (s.ctx c).kernel, s.binding t with
  | some k, some b =>
    if !(b.mainStopped && b.moveStopped) || (s.ctx c).st ≠ .running then .next s
    else
      let k := { k with bound := SMap.del k.bound ct }
      let s := (s.modTc t TileCtx.emptyFull).modCtx c (fun x => { x with kernel := some k })
      match k.nextStage b with
      | some i => .next (s.bindTile c ct i)
      | none => .next (s.later (.kernelRetire c))
  | _, _ => .next s

/-! ## Retirement (R167) -/

/-- Whether every hart has exited and every command of a context has completed. -/
def State.workDone (s : State) (c : Nat) (k : Kernel) : Bool :=
  k.stages.all (·.ended) && k.bound.all (fun p => p.2.mainStopped && p.2.moveStopped) &&
    (s.tilesOf c).all (fun t => [0, 1, 2].all (fun q => (s.queue t q).entries.isEmpty))

/-- Whether a put of a context's tiles has not been acknowledged: it has completed and left its queue, and writes of it may still be on
their way (R182, R365). -/
def State.putsOut (s : State) (c : Nat) : Bool := (s.tilesOf c).any (fun t => (s.tc t).unacked.any (fun u => u.op = 0xC1))

/-- Marks the command queues of a context's tiles as drained, or not. -/
def State.setDrained (s : State) (c : Nat) (b : Bool) : State :=
  (s.tilesOf c).foldl (fun (s : State) t => s.modTc t (fun m =>
    { m with q0 := { m.q0 with drained := b }, q1 := { m.q1 with drained := b }, q2 := { m.q2 with drained := b } })) s

/-- A context with no kernel left is resident (R127). -/
def State.toResident (s : State) (c : Nat) : State :=
  (s.setDrained c true).modCtx c (fun x => { x with st := .resident })

/-- A kernel retires, once every write of its commands has been performed: the tiles that are bound to it still, each stopped, are
released (R167, R169, R182). -/
def execKernelRetire (c : Nat) (s : State) : Host.Outcome State Fault Refusal :=
  let x := s.ctx c
  match x.kernel with
  | none => .next s
  | some k =>
    if x.st ≠ .running || !(k.st = .running || k.st = .draining) || !s.workDone c k then .next s
    else if s.putsOut c then .next (s.later (.kernelRetire c))
    else
      let ts := x.tiles
      let s := k.bound.foldl (fun (s : State) p => match ts[p.1]? with | some t => s.modTc t TileCtx.emptyFull | none => s) s
      let s := s.modCtx c (fun x => { x with kernel := some { k with st := .retired, bound := [] },
                                             counters := [k.stray, k.dropped, k.marks, k.taken] })
      .next (if x.waiting.isEmpty then s.toResident c else s.later (.kernelLoad c))

/-! ## Launch records (R161 to R165) -/

/-- A stage entry and a queue entry by their fields. -/
def stageOf (e : BitVec 256) : Stage :=
  { main := field e 0 18, move := field e 24 18, tmin := field e 48 10, tmax := field e 64 10, inq := field e 80 4,
    outs := (if e.getLsbD 96 then [field e 88 4] else []) ++ (if e.getLsbD 97 then [field e 92 4] else []),
    factor := field e 104 4, minchunk := field e 112 10 }

def queueEntry (e : BitVec 256) : StageQueue :=
  { base := field e 0 52, depth := field e 64 16, item := field e 80 8, rsv := field e 96 16, hi := field e 128 16,
    lo := field e 144 16, ovf := field e 160 52, ovfn := field e 224 24, isOpen := e.getLsbD 248, init := field e 112 16 }

/-- Whether a field that must be zero is not. -/
def anySet {n : Nat} (e : BitVec n) (l : List (Nat × Nat)) : Bool := l.any (fun p => field e p.1 p.2 ≠ 0)

def stageReserved (e : BitVec 256) : Bool :=
  anySet e [(18, 6), (42, 6), (58, 6), (74, 6), (84, 4), (98, 6), (108, 4), (122, 134)] ||
    (!e.getLsbD 96 && field e 88 4 ≠ 0) || (!e.getLsbD 97 && field e 92 4 ≠ 0)
def queueReserved (e : BitVec 256) : Bool := anySet e [(52, 12), (88, 8), (212, 12), (249, 7)]
def headerReserved (h : BitVec 512) : Bool :=
  anySet h [(50, 14), (83, 45), (128, 2), (180, 12), (192, 6), (244, 12), (256, 5), (308, 12), (324, 124)]

/-- Stages left after those that no stage left leads into are taken away, n times: a cycle leaves some. -/
def peelStages (l : List Stage) : Nat → List Stage
  | 0 => l
  | n + 1 => peelStages (l.filter (fun x => l.any (fun y => y.outs.contains x.inq))) n

/-- Reason 6: the queues and stages do not make a pipeline. `whole` says that every stage is known, without which no queue is known to
be named by none. -/
def badGraph (stages : List Stage) (nq : Nat) (whole : Bool) : Bool :=
  stages.any (fun x => nq ≤ x.inq || x.outs.any (nq ≤ ·) || x.outs.contains x.inq) ||
    (List.range nq).any (fun j => 1 < (stages.filter (fun x => x.inq = j)).length ||
      (whole && !(stages.any (fun x => x.inq = j || x.outs.contains j)))) ||
    !(peelStages stages (stages.length + 1)).isEmpty

def badEntry (textLen off : Nat) : Bool := off % 4 ≠ 0 || textLen ≤ off

def badQueue (q : StageQueue) : Bool :=
  q.depth < 4 || q.item = 0 || 32 < q.item || q.rsv = 0 || q.depth / 2 < q.rsv || q.depth - q.rsv < q.init ||
    q.hi ≤ q.lo || q.depth < q.hi

/-- The lowest of reasons 3 to 8 that the header and the declarations that could be read meet. -/
def declReason (h : BitVec 512) (ntile : Nat) (stages : List Stage) (queues : List StageQueue) : Nat :=
  let len := field h 64 19; let ns := field h 40 5; let nq := field h 45 5
  if ns = 0 || 16 < ns || nq = 0 || 16 < nq then 3
  else if len = 0 || len % 4 ≠ 0 || Config.imemBytes < len ||
      stages.any (fun x => badEntry len x.main || badEntry len x.move) then 4
  else if stages.any (fun x => x.tmin = 0 || x.tmax < x.tmin || 512 < x.tmax) || ntile < (stages.map (·.tmin)).sum then 5
  else if badGraph stages nq (stages.length = ns) then 6
  else if stages.any (fun x => x.factor = 0 || x.minchunk = 0) then 7
  else if queues.any badQueue then 8
  else 0

/-- The table block as its words give it. -/
structure Tables where
  groups : List (BitVec 512)
  scopes : List Word
  binds : List (BitVec 256)
  consts : List Word32

/-- n words from place i of a block, joined. -/
def blockField (l : List Nat) (i n : Nat) : Nat := joinWords ((l.drop i).take n)

/-- The entries of n words of a list that could be read. -/
def entriesRead (l : List (Option Nat)) (n count : Nat) : List (Option (BitVec (64 * n))) :=
  (List.range count).map (fun i => (allThere ((l.drop (n * i)).take n)).map (fun w => BitVec.ofNat (64 * n) (joinWords w)))

/-- The tables at their offsets (R162). -/
def tablesOf (l : List Nat) : Tables :=
  { groups := (List.range 256).map (fun g => BitVec.ofNat 512 (blockField l (8 * g) 8))
    scopes := (List.range 32).map (fun n => BitVec.ofNat 64 (nth 0 l (2048 + n)))
    binds := (List.range 256).map (fun n => BitVec.ofNat 256 (blockField l (2080 + 4 * n) 4))
    consts := (List.range 256).map (fun n => BitVec.ofNat 32 (nth 0 l (3104 + n / 2) / 2 ^ (32 * (n % 2)))) }

def badGroups (g : List (BitVec 512)) (ntile : Nat) : Bool :=
  g.any (fun m => m.toNat / 2 ^ ntile ≠ 0) ||
    (List.range ntile).any (fun t => 4 < (g.filter (fun m => m.getLsbD t)).length)

/-- A scope entry that R187 refuses. -/
def badScope (g : List (BitVec 512)) (e : Word) : Bool :=
  if e.getLsbD 63 then
    nth 0 g (field e 0 8) = 0 || anySet e [(9, 7), (32, 31)] || (e.getLsbD 8 = (field e 16 16 = 0 : Bool))
  else e ≠ 0

/-- A binding entry that R105 refuses; its latch is checked when it is used. -/
def badBind (e : BitVec 256) : Bool :=
  if e.getLsbD 63 then
    field e 64 52 ≤ field e 0 52 || anySet e [(0, 6), (52, 11), (64, 6), (116, 12), (180, 76)]
  else e ≠ 0

/-- Whether an entry of the table block is malformed (reason 10): of the words that could be read, where what was not read counts as
an entry that refuses nothing. -/
def badTables (l : List (Option Nat)) (ntile : Nat) : Bool :=
  let w (d : Nat) : List Nat := l.map (·.getD d)
  let some' (n : Nat) : Bool := (nth none l n).isSome
  let t := tablesOf (w 0)
  badGroups t.groups ntile ||
    (t.scopes.zip (List.range 32)).any (fun p => some' (2048 + p.2) && badScope (tablesOf (w 1)).groups p.1) ||
    (t.binds.zip (List.range 256)).any (fun p => some' (2080 + 4 * p.2) && badBind p.1)

/-- The entries of a list that are not zero, by place. -/
def listMap {n : Nat} (l : List (BitVec n)) : SMap (BitVec n) :=
  ((List.range l.length).zip l).filter (fun p => p.2 ≠ 0)

/-- What a launch record names: the header, its entries and the table block. -/
structure LaunchParts where
  h : BitVec 512
  stages : List (Option (BitVec 256))
  queues : List (Option (BitVec 256))
  tables : List (Option Nat)

/-- Reads a launch record at a virtual address; none where a page of the header is not resident. -/
def State.launchParts (s : State) (c a : Nat) : Option LaunchParts :=
  (allThere (s.virtWords c a 8)).map (fun hw =>
    let h : BitVec 512 := BitVec.ofNat 512 (joinWords hw)
    let ns := field h 40 5; let nq := field h 45 5
    let entries : List (Option (BitVec 256)) := entriesRead (s.virtWords c (field h 256 52) (4 * (ns + nq))) 4 (ns + nq)
    { h := h, stages := entries.take ns, queues := entries.drop ns, tables := s.virtWords c (field h 192 52) 3232 })

/-- The lowest reason that refuses a record (R165): every condition is tested on the parts that could be read; 0 where none is met. -/
def LaunchParts.reason (p : LaunchParts) (ntile : Nat) : Nat :=
  let se := p.stages.filterMap id; let qe := p.queues.filterMap id
  let why := declReason p.h ntile (se.map stageOf) (qe.map queueEntry)
  if field p.h 0 32 ≠ 0x524C4B56 || field p.h 32 8 ≠ 1 then 1
  else if headerReserved p.h || se.any stageReserved || qe.any queueReserved then 2
  else if why ≠ 0 then why
  else if badTables p.tables ntile then 10
  else if p.stages.contains none || p.queues.contains none || p.tables.contains none then 11
  else 0

/-- The kernel that a record with no reason declares. -/
def LaunchParts.kernel (p : LaunchParts) (a : Nat) : Kernel :=
  let t := tablesOf (p.tables.map (·.getD 0))
  { st := .declared, record := a, text := field p.h 128 52, textLen := field p.h 64 19, tables := field p.h 192 52,
    ep := field p.h 320 4, arg := bits p.h 448 64, stages := (p.stages.filterMap id).map stageOf,
    queues := (p.queues.filterMap id).map queueEntry, header := p.h, decl := p.stages.filterMap id ++ p.queues.filterMap id,
    block := p.tables.map (·.getD 0), groups := listMap t.groups, scopes := listMap t.scopes,
    binds := listMap t.binds, consts := listMap t.consts }

/-- A launch record at a virtual address of a context: the declared kernel, or
the lowest reason that refuses it. -/
def State.readLaunch (s : State) (c a : Nat) : Except Nat Kernel :=
  if a % 64 ≠ 0 then .error 1
  else match s.launchParts c a with
    | none => .error 11
    | some p =>
      let why := p.reason (4 * (s.ctx c).clusters.length)
      if why ≠ 0 then .error why else .ok (p.kernel a)

/-- The lines that the device reads of a launch record (R87 to R89). -/
def State.touchLaunch (s : State) (c a : Nat) : State :=
  if a % 64 ≠ 0 then s
  else
    let s := s.touchVirt c a 64
    match s.launchParts c a with
    | none => s
    | some p => (s.touchVirt c (field p.h 256 52) (32 * (p.stages.length + p.queues.length))).touchVirt c (field p.h 192 52) 0x6500

/-- A record written to a resident context takes effect (R380). -/
def State.takeRecord (s : State) (c : Nat) : State :=
  let x := s.ctx c
  match x.written with
  | none => s
  | some w =>
    let keepUq : Bool := !x.posted.isEmpty || !x.parked.isEmpty || x.landings.any (·.parked.isSome)
    let cfg := { w with rndseed := x.cfg.rndseed
                        uq := if keepUq then x.cfg.uq else w.uq
                        uqlog := if keepUq then x.cfg.uqlog else w.uqlog
                        uqn := if keepUq then x.cfg.uqn else w.uqn }
    let s := (x.tiles).foldl (fun (s : State) t => s.setTile t ((s.tile t).dropEntries (fun _ => true))) s
    s.modCtx c (fun x => { x with cfg := cfg, written := none, uqUsed := if keepUq then x.uqUsed else 0,
                                  uqFreed := if keepUq then x.uqFreed else [] })

/-- Generators are seeded when a context first enters running (R40). -/
def State.seedTiles (s : State) (c : Nat) : State :=
  let x := s.ctx c
  if x.seeded then s
  else
    let s := (x.tiles.zip (List.range x.tiles.length)).foldl (fun (s : State) p =>
      s.modTc p.1 (fun m => { m with gen1 := seed x.cfg.rndseed p.2 1, gen2 := seed x.cfg.rndseed p.2 2 })) s
    s.modCtx c (fun x => { x with seeded := true })

/-- Whether a kernel has not retired. -/
def Kernel.alive (k : Kernel) : Bool := k.st ≠ .retired && k.st ≠ .refused

/-- The bytes of some words, least significant first. -/
def wordBytes (l : List Nat) : List Byte := l.flatMap (fun v => bytesOf v 8)

/-- n bytes from a virtual address; a page that is not resident gives none. -/
def State.virtBytes (s : State) (c va n : Nat) : List Byte :=
  ((wordBytes ((allThere (s.virtWords c (va / 8 * 8) ((va % 8 + n + 7) / 8))).getD [])).drop (va % 8)).take n

/-- The bytes that attestation covers: the record with its declarations and the table block as they were read at the launch, and between
them the image as it stands: at the launch, and again once it has been loaded (R165, R387; log entry 115). -/
def State.launchBytes (s : State) (c : Nat) (k : Kernel) : List Byte :=
  bytesOf k.header.toNat 64 ++ k.decl.flatMap (fun e => bytesOf e.toNat 32) ++ s.virtBytes c k.text k.textLen ++ wordBytes k.block

def execLaunch (r : Request) (s : State) : Host.Outcome State Fault Refusal :=
  let c := r.ctx.toNat
  runOnContext 0x04 r (fun x => x.st = .resident || x.st = .running) (fun _ s =>
    let s := s.takeRecord c
    let x := s.ctx c
    let busy : Bool := (x.kernel.map Kernel.alive).getD false
    if (if busy then 4 else 5) ≤ x.waiting.length then s.answer 3
    else
      let s := s.touchLaunch c (r.word 1).toNat
      match s.readLaunch c (r.word 1).toNat with
      | .error why => (s, some (4, BitVec.ofNat 64 why))
      | .ok k =>
        let dig := sha3 (s.launchBytes c k)
        let s := if x.st = .resident then s.setDrained c false else s
        let s := s.modCtx c (fun x => { x with st := .running, waiting := x.waiting ++ [k], launchDigest := dig })
        let s := s.seedTiles c
        ((if busy then s else s.later (.kernelLoad c)).answer 0)) s

/-! ## Loading (R168) -/

/-- A declared kernel starts loading once no earlier one is left. -/
def execKernelLoad (c : Nat) (s : State) : Host.Outcome State Fault Refusal :=
  let x := s.ctx c
  match x.waiting with
  | [] => .next s
  | k :: rest =>
    if x.st ≠ .running || (x.kernel.map Kernel.alive).getD false then .next s
    else .next ((s.modCtx c (fun x => { x with waiting := rest, kernel := some { k with st := .loaded } })).later
      (.kernelLoadComplete c))

/-- The pages of a virtual range: the tier that each names, if any, and whether it is resident, so that the device can reach it. -/
def State.pagesOf (s : State) (c : Nat) : Nat → Nat → Nat → List (Option Nat × Bool)
  | _, _, 0 => []
  | va, n, k + 1 =>
    if n = 0 then []
    else
      let m := min n (16384 - va % 16384)
      (s.tierAt c va, (s.leafAt c va).isSome) :: State.pagesOf s c (va + m) (n - m) k

/-- Reads the table entries of the pages of a virtual range (R79, R88, R89). -/
def State.walkPages (s : State) (c : Nat) : Nat → Nat → Nat → State
  | _, _, 0 => s
  | va, n, k + 1 =>
    if n = 0 then s
    else
      let m := min n (16384 - va % 16384)
      State.walkPages (s.deviceWalk c va) c (va + m) (n - m) k

/-- The regions of a kernel's queues: address, bytes, tier. -/
def Kernel.regions (k : Kernel) : List (Nat × Nat × Nat) :=
  k.queues.flatMap (fun q =>
    [(q.base, q.depth * 8 * q.item, 0)] ++ (if q.ovfn = 0 then [] else [(q.ovf, q.ovfn * 8 * q.item, 1)]))

/-- Whether two lists of runs of lines of one context's regions overlap. -/
def overlapRuns : List (List (Nat × Nat)) → Bool
  | [] => false
  | a :: r => r.any (runsMeet a) || overlapRuns r

/-- Whether two regions of some share an address. -/
def overlapVirt : List (Nat × Nat) → Bool
  | [] => false
  | a :: r => r.any (fun b => a.1 < b.1 + b.2 && b.1 < a.1 + a.2) || overlapVirt r

/-- The reason that the image, the rings and the overflow regions meet: 9, 11, or 0. Regions overlap where they share an address of the
context or a line of memory (R165 does not say which; DESIGN CHOICE, log entry 106). A region that runs past address 2^52, for which R165
names no reason, is refused with 9 (DESIGN CHOICE, log entry 135). -/
def State.loadReason (s : State) (c : Nat) (k : Kernel) : Nat :=
  let l := k.regions
  let pages := l.map (fun x => (x.2.2, s.pagesOf c x.1 x.2.1 (x.2.1 / 16384 + 2)))
  if l.any (fun x => x.1 % 64 ≠ 0 || 2 ^ 52 < x.1 + x.2.1) || pages.any (fun x => x.2.any (fun y => y.1.isSome && y.1 ≠ some x.1)) ||
      overlapVirt (l.map (fun x => (x.1, x.2.1))) || overlapRuns (l.map (fun x => s.spanRuns c x.1 x.2.1)) then 9
  else if (pages.flatMap (·.2) ++ s.pagesOf c k.text k.textLen (k.textLen / 16384 + 2)).any (fun y => !y.2) then 11
  else 0

/-- The walks that load a kernel: its rings, its overflow regions and its image (R165). -/
def State.walkKernel (s : State) (c : Nat) (k : Kernel) : State :=
  ((k.regions.map (fun x => (x.1, x.2.1))) ++ [(k.text, k.textLen)]).foldl
    (fun (s : State) x => s.walkPages c x.1 x.2 (x.2 / 16384 + 2)) s

/-- The image as instruction words. -/
def State.imageOf (s : State) (c : Nat) (k : Kernel) : SMap Word32 :=
  listMap ((List.range (k.textLen / 4)).map (fun i =>
    match s.leafAt c (k.text + 4 * i) with
    | some l => BitVec.ofNat 32 (s.peek l.pa 4)
    | none => 0))

/-- Items present at launch take the first sequence numbers, in queue order, then slot order. -/
def numberItems : List StageQueue → Nat → List StageQueue × Nat
  | [], n => ([], n)
  | q :: r, n =>
    let rest := numberItems r (n + q.init)
    ({ q with ring := (List.range q.init).map (n + ·) } :: rest.1, rest.2)

/-- Loading ends: image, tables and queues are in place and the stages are bound; or the kernel is refused, the reason is reported
(log entry 107) and the next one proceeds. -/
def execKernelLoadComplete (c : Nat) (s : State) : Host.Outcome State Fault Refusal :=
  let x := s.ctx c
  match x.kernel with
  | none => .next s
  | some k =>
    if x.st ≠ .running || k.st ≠ .loaded then .next s
    else
      let s := s.walkKernel c k
      let why := s.loadReason c k
      if why ≠ 0 then
        let s := s.modCtx c (fun x => { x with kernel := some { k with st := .refused, reason := why },
                                               reports := x.reports ++ [why] })
        .next (if x.waiting.isEmpty then s.toResident c else s.later (.kernelLoad c))
      else
        let s := s.touchVirt c k.text k.textLen
        let img := s.imageOf c k
        let s := if x.waiting.isEmpty then s.modCtx c (fun x => { x with launchDigest := sha3 (s.launchBytes c k) }) else s
        let s := x.tiles.foldl (fun (s : State) t => s.setTile t { s.tile t with imem := img, textLen := k.textLen }) s
        let q := numberItems k.queues 0
        let k := Kernel.settle { k with st := .running, queues := q.1, nextSeq := q.2, since := s.clk }
        let s := s.modCtx c (fun x => { x with kernel := some k, groups := k.groups, scopes := k.scopes, binds := k.binds,
                                               consts := k.consts })
        let l := initialStages k.stages x.tiles.length
        .next ((l.zip (List.range l.length)).foldl (fun (s : State) p => s.bindTile c p.2 p.1) s)

/-! ## The stage scheduler (R178) -/

def Kernel.occOf (k : Kernel) (j : Nat) : Nat := ((k.queueAt j).map (·.occ)).getD 0
def Kernel.blocked (k : Kernel) (x : Stage) : Bool :=
  x.outs.any (fun j => match k.queueAt j with | some q => q.hi ≤ q.occ | none => false)
def Kernel.starved (k : Kernel) (x : Stage) : Bool :=
  match k.queueAt x.inq with | some q => q.occ ≤ q.lo | none => false
def Kernel.hungry (k : Kernel) (x : Stage) : Bool :=
  (match k.queueAt x.inq with | some q => decide (q.hi ≤ q.occ) | none => false) && !k.blocked x
/-- Tiles of a stage marked away, and tiles marked for it. -/
def Kernel.markedAway (k : Kernel) (i : Nat) : Nat := (k.bound.filter (fun p => p.2.stage = i && p.2.mark.isSome)).length
def Kernel.markedFor (k : Kernel) (i : Nat) : Nat := (k.bound.filter (fun p => p.2.mark = some i)).length

/-- Whether stage a's input queue is fuller than stage b's, in proportion to its depth. -/
def Kernel.fuller (k : Kernel) (a b : Nat) : Bool :=
  match (k.stage a).bind (fun x => k.queueAt x.inq), (k.stage b).bind (fun x => k.queueAt x.inq) with
  | some p, some q => q.occ * p.depth < p.occ * q.depth
  | _, _ => false

/-- Stages that may give a tile now: their tiles less those marked exceed tmin. -/
def Kernel.spare (k : Kernel) (i : Nat) : Bool :=
  match k.stage i with | some x => x.tmin < k.tiles i - k.markedAway i | none => false

/-- Stages that may take a tile: hungry, and their tiles with those marked for them are below tmax. -/
def Kernel.recipient (k : Kernel) (i : Nat) : Bool :=
  match k.stage i with
  | some x => !x.ended && k.hungry x && k.tiles i + k.markedFor i < x.tmax
  | none => false

/-- The recipients, fullest input first, then by index. -/
def Kernel.recipients (k : Kernel) : List Nat :=
  sortBy (fun a b => k.fuller a b || (!k.fuller b a && a < b)) ((List.range k.stages.length).filter k.recipient)

/-- The donors: blocked ones by their keys, then starved ones, emptiest input first, then by index falling. -/
def Kernel.donors (k : Kernel) (key : Nat → Nat) : List Nat :=
  let d := (List.range k.stages.length).filter (fun i =>
    match k.stage i with | some x => !x.ended && (k.blocked x || k.starved x) && x.tmin < k.tiles i | none => false)
  let isBlocked (i : Nat) : Bool := match k.stage i with | some x => k.blocked x | none => false
  sortBy (fun a b => key a < key b) (d.filter isBlocked) ++
    sortBy (fun a b => k.fuller b a || (!k.fuller a b && b < a)) (d.filter (fun i => !isBlocked i))

/-- Step 1: unbound tiles go to stages below tmin, the lowest of several first (R178 does not order them; DESIGN CHOICE, log entry
108), then to the recipients, at most one to each that has not been served. Answers the
tiles left and the stages served. A tile bound here counts as bound in the epoch that ends (R178 does not say; DESIGN CHOICE, log
entry 108). -/
def State.giveTiles (s : State) (c : Nat) : List Nat → List Nat → State × List Nat × List Nat
  | [], served => (s, [], served)
  | t :: ts, served =>
    match (s.ctx c).kernel with
    | none => (s, t :: ts, served)
    | some k =>
      let low := (List.range k.stages.length).find? (fun i =>
        match k.stage i with | some x => !x.ended && k.tiles i < x.tmin | none => false)
      match low.orElse (fun _ => k.recipients.find? (fun r => !served.contains r)) with
      | some i => State.giveTiles (s.bindTile c t i) c ts (served ++ [i])
      | none => (s, t :: ts, served)

/-- Steps 2 and 3: each recipient is paired with the first donor that can spare a tile; the donor's highest tile that
qualifies is marked, or the pair lapses. -/
def Kernel.markFor (donors : List Nat) (k : Kernel) (r : Nat) : Kernel :=
  match donors.find? (fun d => d ≠ r && k.spare d) with
  | none => k
  | some d =>
    match (k.bound.filter (fun p => p.2.stage = d && p.2.mark.isNone && p.2.born + 1 < k.epoch)).getLast? with
    | none => k
    | some p => { k with bound := SMap.put k.bound p.1 { p.2 with mark := some r }, marks := satAdd 64 k.marks 1 }

/-- The end of an epoch. -/
def execStageSchedulerEpoch (c : Nat) (s : State) : Host.Outcome State Fault Refusal :=
  let x := s.ctx c
  match x.kernel with
  | none => .next s
  | some k =>
    let len := 2 ^ (k.ep + 10)
    if x.st ≠ .running || !(k.st = .running || k.st = .draining) || s.clk < k.since + len then .next s
    else
      let free := (List.range x.tiles.length).filter (fun t => (SMap.find? k.bound t).isNone)
      let keys := (List.range k.stages.length).map (fun i => (Config.freeWord (s.fresh + i)).toNat)
      let donors := k.donors (nth 0 keys)
      let s := { s with fresh := s.fresh + k.stages.length }
      let r := s.giveTiles c free []
      .next (r.1.modCtx c (fun x => x.modKernel (fun k =>
        let k := if r.2.1.isEmpty then (k.recipients.filter (fun i => !r.2.2.contains i)).foldl (Kernel.markFor donors) k else k
        { k with epoch := k.epoch + 1, since := k.since + len })))

/-! ## Closing queues (R167) -/

/-- A queue is closed. The drain rules apply to a kernel once it is loaded: until then its queues hold nothing yet (R168, R175). While no
kernel is loaded, also where one is declared, there is no queue to close: 0xFF answers 0 and an index 1 (DESIGN CHOICE, log entry 70). -/
def execCloseQueue (r : Request) (s : State) : Host.Outcome State Fault Refusal :=
  let c := r.ctx.toNat
  runOnContext 0x0E r Context.live (fun _ s =>
    let j := (r.word 1).toNat
    match (s.ctx c).kernel with
    | none => s.answer (if j = 0xFF then 0 else 1)
    | some k =>
      if !k.alive then s.answer (if j = 0xFF then 0 else 1)
      else if j ≠ 0xFF && k.queues.length ≤ j then s.answer 1
      else
        (s.modCtx c (fun x => x.modKernel (fun k =>
          let k := { k with queues := (k.queues.zip (List.range k.queues.length)).map (fun p =>
            if j = 0xFF || p.2 = j then { p.1 with isOpen := false } else p.1) }
          if k.st = .loaded then k else k.settle))).answer 0) s

end Sys2Proof.Machine
end

