-- ==== Sys2Proof/Machine/Link.lean ====
section
/-! DEFINITION. Links, route tables and packets (R15, R22, R350 to R357, R375, R383): what each link joins, the link state
table, retirement, loss, replay and the requests that control a link. Nodes and destinations share one numbering: mesh
routers by tile number, chiplets from 512, the chip's own Jecen table at 516, then elevator routers, other chips and the
control die of a router's own tile (log entry 8). -/

namespace Sys2Proof.Machine

/-! ## The edge chiplets (R22) -/

/-- The external interfaces. -/
inductive Interface
  | jecen (port : Nat)
  | lpddr (channel : Nat)
  | narosh (i : Nat)
  | hostPort
  | management
  | cxlRoot
deriving DecidableEq, Repr

/-- The edge chiplet that carries an interface; none where there is no such interface. -/
def Interface.chiplet (x : Interface) : Option Nat :=
  let of (per n : Nat) : Option Nat := if n / per < 4 then some (n / per) else none
  match x with
  | .jecen p => of 36 p
  | .lpddr c => of 32 c
  | .narosh i => of 2 i
  | .hostPort | .management => some 0
  | .cxlRoot => some 1

/-- The node of the chiplet that carries an interface. -/
def Interface.node (x : Interface) : Option Nat := x.chiplet.map (Config.chipletBase + ·)

/-! ## Links and what they join (R15, R22, R350, R383) -/

/-- How many links of a kind there are. -/
def linkCount : LinkKind → Nat
  | .mesh => 928
  | .stem => 1024
  | .elevator => 128
  | .chiplet => 10
  | .jecen => 144

/-- The link that a link number names (R383). -/
def linkAt (n : Nat) : Option Link :=
  let mk (k : LinkKind) : Option Link := if n % 4096 < linkCount k then some ⟨k, n % 4096⟩ else none
  match n / 4096 with
  | 0 => mk .mesh
  | 1 => mk .stem
  | 2 => mk .elevator
  | 3 => mk .chiplet
  | 4 => mk .jecen
  | _ => none

/-- The links in link-number order (R383). -/
def allLinks : List Link :=
  [LinkKind.mesh, .stem, .elevator, .chiplet, .jecen].flatMap (fun k => (List.range (linkCount k)).map (fun i => ⟨k, i⟩))

/-- The two routers that a mesh link joins (R383). -/
def meshEnds (i : Nat) : Nat × Nat :=
  let bed := i / 232 * 128; let j := i % 232
  if j < 112 then (bed + j / 7 * 8 + j % 7, bed + j / 7 * 8 + j % 7 + 1) else (bed + (j - 112), bed + (j - 112) + 8)

/-- The two chiplets that a chiplet link between chiplets joins (R383). -/
def chipletEnds (i : Nat) : Nat × Nat :=
  match i with
  | 4 => (0, 1)
  | 5 => (0, 2)
  | 6 => (0, 3)
  | 7 => (1, 2)
  | 8 => (1, 3)
  | _ => (2, 3)

/-- A router at the border of its bed's mesh, by which the bed may reach its chiplet (R15 does not say which edge; log
entry 8). -/
def bedEdge (t : Nat) : Bool := t / 8 % 16 = 0 || t / 8 % 16 = 15 || t % 8 = 0 || t % 8 = 7

/-- Whether a link joins a node: a Jecen port adjoins the chiplet that carries it (R22), a stem its tile, an elevator
router the routers of its cluster. -/
def linkJoins (l : Link) (node : Nat) : Bool :=
  match l.kind with
  | .mesh => node = (meshEnds l.idx).1 || node = (meshEnds l.idx).2
  | .stem => node = l.idx / 2
  | .elevator => (node < Config.nTiles && clusterOf node = l.idx) || node = Config.elevatorBase + l.idx
  | .chiplet =>
    if l.idx < 4 then node = Config.chipletBase + l.idx || (node / 128 = l.idx && bedEdge node)
    else node = Config.chipletBase + (chipletEnds l.idx).1 || node = Config.chipletBase + (chipletEnds l.idx).2
  | .jecen => (Interface.jecen l.idx).node = some node

/-- The links that a node's table can name: those that join it, but for stems, which lead to a tile's own banks. -/
def linksAt (node : Nat) : List Link := allLinks.filter (fun l => l.kind ≠ .stem && linkJoins l node)

/-- The stem that serves a bank (R15): by bank number (R383). -/
def bankStem (b : Nat) : Link :=
  let j := b % 18
  ⟨.stem, b / 72 * 2 + (if j < 8 || j = 16 then 0 else 1)⟩

/-! ## Tables (R353) -/

/-- The link that a node's table names toward a destination. -/
def State.route (s : State) (node dest : Nat) : Link :=
  match SMap.find? s.routes (node * Config.nDests + dest) with
  | some l => l
  | none =>
    let l := linksAt node
    (l[Config.defaultRoute node dest % l.length]?).getD ⟨.mesh, 0⟩

/-- The elevator router that a mesh router names for its tile: by default its own cluster's. -/
def State.elevatorOf (s : State) (t : Nat) : Nat := SMap.get (clusterOf t) s.elevators t

/-- Whether every table avoids a link: the route tables of routers and chiplets toward each place on the chip, the elevator names and
the Jecen route table. -/
def State.avoided (s : State) (l : Link) : Bool :=
  (List.range Config.chipNode).all (fun n => (List.range Config.chipBase).all (fun d => s.route n d ≠ l)) &&
    !(l.kind = .elevator && (List.range Config.nTiles).any (fun t => s.elevatorOf t = l.idx)) &&
    !(l.kind = .jecen && s.dev.chips.any (fun p => p.2.contains l.idx))

/-- The states in which a link takes packets that are routed to it (R351). -/
def LinkState.carries (x : LinkState) : Bool :=
  match x with
  | .up | .degraded => true
  | _ => false

/-- The states of a link whose traffic still passes through it (R351). -/
def LinkState.passes (x : LinkState) : Bool := x.carries || x = .draining

/-- The link that leads to a tile's banks of one stem: that stem, or the neighbouring tile's where it is retired
or failed (R15, R354; which neighbour is log entry 8). -/
def State.bankPath (s : State) (b : Nat) : Link :=
  let l := bankStem b
  if (s.link l).st = .retired || (s.link l).st = .failed then { l with idx := l.idx ^^^ 2 } else l

/-- How far two clusters of a bed lie apart. -/
def clusterDistance (a b : Nat) : Nat :=
  let d (x y : Nat) : Nat := (x - y) + (y - x)
  d (a / 4 % 8) (b / 4 % 8) + d (a % 4) (b % 4)

/-- The elevator router of the nearest cluster of a bed that carries traffic, the lowest of several as near (log entry 8). -/
def State.nearestElevator (s : State) (e : Nat) : Option Nat :=
  let l := ((List.range 32).map (e / 32 * 32 + ·)).filter (fun k => k ≠ e && (s.link ⟨.elevator, k⟩).st.carries)
  l.foldl (fun best k => match best with
    | none => some k
    | some b => if clusterDistance e k < clusterDistance e b then some k else some b) none

/-- A retired elevator router is replaced in every table that names it (R354). -/
def State.replaceElevator (s : State) (e : Nat) : State :=
  match s.nearestElevator e with
  | none => s
  | some k => ((List.range Config.nTiles).filter (fun t => s.elevatorOf t = e)).foldl (fun (s : State) t =>
      { s with elevators := SMap.put s.elevators t k }) s

/-- The Jecen port by which a packet leaves for another chip (R353). -/
def State.packetPort (s : State) (p : Packet) : Option Nat :=
  match s.dev.chips[p.dest - Config.chipBase]? with
  | some c => s.portTo c.1 p.source p.chan
  | none => none

/-- The link that the tables name for a packet at the node it has reached. A tile reaches its control die through the elevator router
that its own router names. -/
def State.tableLink (s : State) (p : Packet) : Option Link :=
  if p.dest = Config.controlDie then
    let e := s.elevatorOf (if p.source < Config.nTiles then p.source else p.node)
    some (if linkJoins ⟨.elevator, e⟩ p.node then ⟨.elevator, e⟩ else s.route p.node (Config.elevatorBase + e))
  else if Config.chipBase ≤ p.dest then
    (s.packetPort p).map (fun q =>
      if linkJoins ⟨.jecen, q⟩ p.node then ⟨.jecen, q⟩
      else s.route p.node (((Interface.jecen q).node).getD Config.chipletBase))
  else some (s.route p.node p.dest)

/-- The link that takes a packet further from the node it has reached: one that joins that node; none where no table leads on (R15). -/
def State.nextLink (s : State) (p : Packet) : Option Link := (s.tableLink p).filter (fun l => linkJoins l p.node)

/-! ## Loss (R355, R375) -/

/-- Whether a packet is protected: every packet of class 0 is. -/
def protectedPacket (p : Packet) : Bool := p.protect || p.cls = 0

/-- Whether a node or destination lies on this chip. -/
def onChip (n : Nat) : Bool := n < Config.chipBase || n = Config.controlDie

/-- The node whose access a packet serves: a reply that of its destination. -/
def requester (p : Packet) : Nat := if p.reply then p.dest else p.source

/-- The context for which a packet travels: that of the tile whose access it serves, else what it says itself. -/
def State.packetContext (s : State) (p : Packet) : Nat := if requester p < Config.nTiles then s.ctxOf (requester p) else p.ctx

/-- The class of a packet where it enters the fabric (R357): on chip that of its context, to another chip no higher than that; what
another chip sends on keeps its class (R353). -/
def State.packetClass (s : State) (p : Packet) : Nat :=
  let c := (s.ctx (s.packetContext p)).cfg.cls.toNat
  if !onChip p.source then p.cls else if onChip p.dest then c else max p.cls c

/-- A packet is lost: its source resends a protected one. Of an unprotected read or write on the chip, the next access of that kind of
the tile that it serves, or of the context's receive engine and installs, is the one that is dropped, and it counts in `ctxlost` then;
of a write whose reply is lost the write stands, and it counts at once (log entry 91). -/
def State.losePacket (s : State) (p : Packet) : State :=
  if protectedPacket p then
    if s.resend.contains (p.source, p.dest) then s else { s with resend := s.resend ++ [(p.source, p.dest)] }
  else if !onChip p.source || !onChip p.dest then s
  else match p.kind with
    | .other => s
    | .read =>
      let t := requester p
      if t < Config.nTiles then s.setTile t { s.tile t with lostReads := (s.tile t).lostReads + 1 }
      else s.modCtx p.ctx (fun x => { x with lostReads := x.lostReads + 1 })
    | .write =>
      if p.reply then s.modCtx p.ctx (fun x => { x with lost := satAdd 64 x.lost 1 })
      else if p.source < Config.nTiles then
        s.setTile p.source { s.tile p.source with lostWrites := (s.tile p.source).lostWrites + 1 }
      else s.modCtx p.ctx (fun x => { x with lostWrites := x.lostWrites + 1 })

/-- The chip that a thing handed to the fabric goes to. -/
def Sent.serial : Sent → Word
  | .send w _ | .put w _ | .arrive w _ | .get w _ | .page w _ _ _ _ | .element w _ _ _ _ _ _ _ _ => w
  | .reply d _ _ | .ack d _ _ => d.serial

/-- Hands a thing to the fabric again, by what the table names now. -/
def State.redepart (s : State) (d : Departure) : State := s.depart d.what.serial d.cls d.tile d.chan d.what

/-- A link drops an unprotected packet: it is counted there and logged (R355, R388). -/
def State.dropAt (s : State) (l : Link) : State :=
  (s.modLink l (fun x => { x with dropped := satAdd 64 x.dropped 1 })).logEvent .linkDropped none (linkNumber l)

/-- A thing caught on a Jecen port that fails: one of class 0, and what waits for a route in any class, goes out again by another port,
any other is lost and counted at the port (R355, R375). -/
def State.caught (s : State) (q : Nat) (d : Departure) : State :=
  if d.cls = 0 || d.what.waits then s.redepart d
  else (s.dropAt ⟨.jecen, q⟩).loseSent d.what

/-- Whether a thing handed to the fabric is caught on a port that fails: one that has not passed it, and a remote element of a copy
whose answer is still to come by it (R324). -/
def Departure.caughtOn (d : Departure) (q : Nat) : Bool :=
  d.port = some q && (!d.passed || (match d.what with | .element _ _ _ _ _ _ _ _ _ => true | _ => false))

/-- A Jecen port leaves the state up: the remote elements of copies whose answers are to come by it fail. Those handed to a port that is
degraded already are lost only where it fails (R324; DESIGN CHOICE, log entry 141). -/
def State.loseElements (s : State) (q : Nat) : State :=
  let out (d : Departure) : Bool := d.port = some q && (match d.what with | .element _ _ _ _ _ _ _ _ _ => true | _ => false)
  (s.sent.filter out).foldl (fun (s : State) d => s.loseSent d.what) { s with sent := s.sent.filter (fun d => !out d) }

/-- What waits for a route to its chip goes out where there is one now. -/
def State.sendWaiting (s : State) : State :=
  (s.sent.filter (fun d => d.port.isNone)).foldl State.redepart { s with sent := s.sent.filter (fun d => d.port.isSome) }

/-- A Jecen port leaves the Jecen route table, and what is caught on it is handled by its class (R353, R375). -/
def State.failPort (s : State) (q : Nat) : State :=
  let lost := s.sent.filter (·.caughtOn q)
  let s := { s with sent := s.sent.filter (fun d => !d.caughtOn q),
                    dev := { s.dev with chips := s.dev.chips.map (fun p => (p.1, p.2.filter (· ≠ q))) } }
  (lost.foldl (fun (s : State) d => s.caught q d) s).sendWaiting

/-- A link fails: the packets inside it are lost, those that are dropped for good are counted at the link and logged with the failure,
and the tables that management keeps are updated (R351, R354, R375, R388, R390). -/
def State.failLink (s : State) (l : Link) : State :=
  let x := s.link l
  let s := s.setLink l { x with st := .failed, inside := [], flitFails := [] }
  let s := x.inside.foldl (fun (s : State) p => (if protectedPacket p then s else s.dropAt l).losePacket p) s
  let s := match l.kind with
    | .jecen => s.failPort l.idx
    | .elevator => s.replaceElevator l.idx
    | _ => s
  s.logEvent .linkFailed none (linkNumber l)

/-! ## Packets -/

/-- The link that holds a packet, and the packet as it was committed to it. -/
def State.holder (s : State) (p : Packet) : Option (Link × Packet) :=
  s.links.findSome? (fun x => (linkAt x.1).bind (fun l =>
    (x.2.inside.find? (fun y => y.source = p.source && y.seq = p.seq)).map (fun y => (l, y))))

/-- The end that all ways through a link have in common: the chiplet of a bed's link, the elevator router of a cluster's. -/
def linkHub (l : Link) : Option Nat :=
  match l.kind with
  | .chiplet => if l.idx < 4 then some (Config.chipletBase + l.idx) else none
  | .elevator => some (Config.elevatorBase + l.idx)
  | _ => none

/-- Whether a link leads from one node to another: to or from its hub where it has one; elevator routers lead to control dies, Jecen
ports to other chips too. -/
def linkLeads (l : Link) (a b : Nat) : Bool :=
  a ≠ b && ((linkJoins l b && (linkHub l).all (fun k => a = k || b = k)) || (l.kind = .elevator && b = Config.controlDie) ||
    (l.kind = .jecen && !onChip b))

/-- Whether a packet is at the node by which its source reaches the fabric: the source itself, or an elevator router for a control die
(R15). -/
def atSource (p : Packet) : Bool :=
  if p.source = Config.controlDie then Config.elevatorBase ≤ p.node && p.node < Config.chipBase else p.node = p.source

/-- Whether a packet enters the fabric at a node: at its source, where that is on the chip; from another chip at the chiplet of a Jecen
port that carries traffic (R15, R353). -/
def State.entersAt (s : State) (p : Packet) : Bool :=
  if onChip p.source then atSource p
  else (List.range (linkCount .jecen)).any (fun q => linkJoins ⟨.jecen, q⟩ p.node && (s.link ⟨.jecen, q⟩).st.passes)

/-- Whether a packet can come to a place: a router or a chiplet passes it on; a control die and another chip take only what is for them
(R15). -/
def takenAt (p : Packet) (node : Nat) : Bool := node < Config.chipBase || node = p.dest

/-- A packet as a node receives it: one that a link holds is that packet, one hop further, and comes only to a node that the link leads to
and that takes it (R15); one that the node holds goes on from there; any other comes only where it enters the fabric, for the context that
it serves and in its class. -/
def State.received (s : State) (p : Packet) : Option Packet :=
  match s.holder p with
  | some (l, y) => if linkLeads l y.node p.node && takenAt y p.node then some { y with node := p.node, hops := y.hops + 1 } else none
  | none =>
    match s.stalled.find? (fun y => y.source = p.source && y.seq = p.seq) with
    | some y => some y
    | none => if s.entersAt p then some { p with cls := s.packetClass p, ctx := s.packetContext p } else none

/-- A packet that has reached a node has left the link it came through, and is not held at a node. -/
def State.leaveLinks (s : State) (p : Packet) : State :=
  { s with
    links := s.links.map (fun x =>
      (x.1, { x.2 with inside := x.2.inside.filter (fun y => !(y.source = p.source && y.seq = p.seq)) }))
    stalled := s.stalled.filter (fun y => !(y.source = p.source && y.seq = p.seq)) }

/-- The source keeps a protected packet until its destination acknowledges it (R355). -/
def State.keep (s : State) (p : Packet) : State :=
  let l := SMap.get [] s.kept p.source
  if protectedPacket p && atSource p && p.hops = 0 && !l.any (fun y => y.seq = p.seq) then
    { s with kept := SMap.put s.kept p.source (l ++ [p]) }
  else s

/-- Whether a packet has reached its destination before. -/
def State.duplicate (s : State) (p : Packet) : Bool :=
  (SMap.get [] s.delivered p.dest).any (fun y => y.source = p.source && y.seq = p.seq)

/-- The destination takes a packet once, and acknowledges it (R355). -/
def State.deliver (s : State) (p : Packet) : State :=
  { s with
    delivered := if s.duplicate p then s.delivered else SMap.put s.delivered p.dest (SMap.get [] s.delivered p.dest ++ [p])
    kept := s.kept.map (fun x => if x.1 = p.source then (x.1, x.2.filter (fun y => y.seq ≠ p.seq)) else x) }

/-- A packet at a node: taken there, dropped past 64 hops, committed to the next link, held while the table still names a link that is
draining, or lost where no route takes it further (R351, R353 to R355; which count takes one that no route takes is log entry 61). -/
def State.routePacket (s : State) (p : Packet) : State :=
  let s := (s.leaveLinks p).keep p
  if p.node = p.dest then s.deliver p
  else if 64 < p.hops then (s.countDropped p.node).losePacket p
  else match s.nextLink p with
    | none => (if protectedPacket p then s else s.countDropped p.node).losePacket p
    | some l =>
      let x := s.link l
      if x.st.carries then s.setLink l { x with inside := x.inside ++ [p] }
      else if x.st = .draining then State.later { s with stalled := s.stalled ++ [p] } (.packetArrival p)
      else (if protectedPacket p then s else s.dropAt l).losePacket p

def execPacketArrival (p : Packet) (s : State) : Host.Outcome State Fault Refusal :=
  .next (match s.received p with
    | some p => s.routePacket p
    | none => s)

/-- After a loss the source sends again, in order and from where it entered, what the destination has not acknowledged (R355). -/
def execProtectedResend (source : Nat) (s : State) : Host.Outcome State Fault Refusal :=
  let dests := (s.resend.filter (fun p => p.1 = source)).map (·.2)
  let again := (SMap.get [] s.kept source).filter (fun p => dests.contains p.dest)
  .next { s with
    resend := s.resend.filter (fun p => p.1 ≠ source)
    agenda := s.agenda ++ again.map (fun p => .event (.packetArrival { p with hops := 0, protect := true })) }

/-! ## Flits (R350, R352) -/

/-- More than 1,024 flits replayed within 1.25 × 10^9 clk. -/
def LinkRec.worn (x : LinkRec) (now : Nat) : Bool :=
  x.replayTimes.length = 1025 && now - nth 0 x.replayTimes 1024 ≤ 1250000000

/-- A flit, named by a number of its own, fails its CRC: it is replayed, and the replay is counted; the failure of its eighth replay in a
row fails the link (R352). -/
def execFlitCrcFail (f : Flit) (s : State) : Host.Outcome State Fault Refusal :=
  let l := f.link
  let x := s.link l
  if !x.st.passes then .next s
  else
    let fails := SMap.get 0 x.flitFails f.number + 1
    let x := { x with replays := satAdd 32 x.replays 1, flitFails := SMap.put x.flitFails f.number fails,
                      replayTimes := (s.clk :: x.replayTimes).take 1025 }
    if 8 < fails then .next (s.failLink l)
    else if x.st = .up && l.kind ≠ .jecen && x.worn s.clk then .next (s.setLink l { x with st := .degraded })
    else .next (s.setLink l x)

/-! ## Lanes and training (R352) -/

def execJecenLaneLost (port : Nat) (s : State) : Host.Outcome State Fault Refusal :=
  let l : Link := ⟨.jecen, port⟩
  let x := s.link l
  if !x.st.passes then .next s
  else
    let x := { x with lanes := x.lanes - 1 }
    if x.lanes = 0 then .next ((s.setLink l x).failLink l)
    else if x.st = .up then .next ((s.setLink l { x with st := .degraded }).loseElements port)
    else .next (s.setLink l x)

def execJecenLaneRestored (port : Nat) (s : State) : Host.Outcome State Fault Refusal :=
  let l : Link := ⟨.jecen, port⟩
  let x := s.link l
  .next (if x.st = .degraded then s.setLink l { x with st := .up, lanes := 2 } else s)

/-- The end of a training: `lanes` lanes trained, of two for a Jecen port and one for a link on chip. -/
def State.trainEnd (s : State) (l : Link) (lanes : Nat) : State :=
  let x := s.link l
  if x.st ≠ .training then s
  else if lanes = 0 then
    let x := { x with trainFails := x.trainFails + 1 }
    if 3 ≤ x.trainFails then (s.setLink l x).failLink l else s.setLink l x
  else
    s.setLink l { x with trainFails := 0, flitFails := [], lanes := min lanes 2,
                         st := if l.kind = .jecen && lanes = 1 then .degraded else .up }

def execTrainingComplete (l : Link) (lanes : Nat) (s : State) : Host.Outcome State Fault Refusal := .next (s.trainEnd l lanes)

/-! ## What management and the host ask of a link (R352 to R354) -/

/-- Enabling a link. -/
def State.enableLink (s : State) (l : Link) : State := s.modLink l (fun x => { x with st := .training, trainFails := 0 })

/-- Starts retirement; an elevator router is replaced in every table that names it, and a Jecen port that leaves the state up fails the
remote elements out by it (R324, R354). -/
def State.drainLink (s : State) (l : Link) : State :=
  let up : Bool := (s.link l).st = .up
  let s := s.modLink l (fun x => { x with st := .draining, drainFrom := s.clk })
  match l.kind with
  | .elevator => s.replaceElevator l.idx
  | .jecen => if up then s.loseElements l.idx else s
  | _ => s

/-- The retrains of a port within the last 2^32 clk. -/
def LinkRec.recent (x : LinkRec) (now : Nat) : List Nat := x.retrains.filter (fun t => now < t + 2 ^ 32)

/-- Retraining a port. -/
def State.retrainLink (s : State) (l : Link) : State :=
  s.modLink l (fun x => { x with st := .training, trainFails := 0, retrains := x.recent s.clk ++ [s.clk] })

/-- Whether a link's state has the event: 0 enable, 1 retire, 2 retrain. -/
def LinkRec.allows (x : LinkRec) (now : Nat) (l : Link) (act : Nat) : Bool :=
  match act with
  | 0 => x.st = .down
  | 1 => x.st = .up || x.st = .degraded
  | 2 => l.kind = .jecen && x.st = .failed && (x.recent now).length < 3
  | _ => false

/-- The management processor acts on a link of its own accord; where the link's state has no such event nothing changes. -/
def State.manage (s : State) (l : Link) (act : Nat) : State :=
  if !(s.link l).allows s.clk l act then s
  else match act with
    | 0 => s.enableLink l
    | 1 => s.drainLink l
    | _ => s.retrainLink l

/-- Whether packets are still committed to a link: those inside it and, at a Jecen port, the messages that have not passed it. -/
def State.linkHolds (s : State) (l : Link) : Bool :=
  !(s.link l).inside.isEmpty || (l.kind = .jecen && s.sent.any (fun d => d.port = some l.idx && !d.passed))

def execLinkDrainComplete (l : Link) (s : State) : Host.Outcome State Fault Refusal :=
  let x := s.link l
  .next (if x.st = .draining && !s.linkHolds l && s.avoided l then s.setLink l { x with st := .retired } else s)

def execLinkDrainTimeout (l : Link) (s : State) : Host.Outcome State Fault Refusal :=
  let x := s.link l
  .next (if x.st = .draining && s.linkHolds l && x.drainFrom + 12500 ≤ s.clk then s.failLink l else s)

/-! ## Table updates (R353) -/

/-- Failed links on chip that every table now avoids are retired (R352). -/
def State.retireFailed (s : State) : State :=
  { s with links := s.links.map (fun p => match linkAt p.1 with
      | some l => if p.2.st = .failed && l.kind ≠ .jecen && s.avoided l then (p.1, { p.2 with st := .retired }) else p
      | none => p) }

/-- Whether a table can name a link: it carries traffic. -/
def State.usable (s : State) (l : Link) : Bool := (s.link l).st.carries

/-- A node's table names a link toward a destination; a degraded link on chip that it named before begins its retirement. -/
def State.setRoute (s : State) (node dest : Nat) (l : Link) : State :=
  let old := s.route node dest
  let s := { s with routes := SMap.put s.routes (node * Config.nDests + dest) l }
  if old.kind ≠ .jecen && old ≠ l && (s.link old).st = .degraded then s.drainLink old else s

/-- The management processor changes one entry of one node's table: the link that a router or chiplet names toward a destination on the
chip, the elevator router that a mesh router names for the control die, or the ports, at most four, that the Jecen route
table names for a chip. An update that the tables have no place for changes nothing. -/
def execRouteTableUpdate (node dest : Nat) (via : List Link) (s : State) : Host.Outcome State Fault Refusal :=
  if node = Config.chipNode then
    match s.dev.chips[dest - Config.chipBase]? with
    | some c =>
      if dest < Config.chipBase || 4 < via.length || via.any (fun l => l.kind ≠ .jecen || !s.usable l) then .next s
      else
        .next (State.sendWaiting { s with dev := { s.dev with
          chips := setNth s.dev.chips (dest - Config.chipBase) (c.1, via.map (·.idx)) } }).retireFailed
    | none => .next s
  else match via with
    | [l] =>
      if Config.chipNode < node || !s.usable l then .next s
      else if dest = Config.controlDie then
        if node < Config.nTiles && l.kind = .elevator && l.idx / 32 = node / 128 then
          .next (State.retireFailed { s with elevators := SMap.put s.elevators node l.idx })
        else .next s
      else if dest < Config.chipBase && linkJoins l node && l.kind ≠ .stem && l.kind ≠ .jecen then
        .next (s.setRoute node dest l).retireFailed
      else .next s
    | _ => .next s

/-! ## Link requests (R383) -/

/-- The link that a request's argument names. -/
def linkOf (w : Word) : Option Link := if field w 16 48 ≠ 0 then none else linkAt w.toNat

/-- A link request: malformed where it names no link, or a retrain names no port; status 2 where the link's state has no such
event. -/
def linkRequest (r : Request) (act : Nat) (s : State) : Host.Outcome State Fault Refusal :=
  runRequest 0x10 r (fun _ s =>
    match linkOf (r.word 1) with
    | none => s.answer 1
    | some l =>
      if act = 2 && l.kind ≠ .jecen then s.answer 1
      else if (s.link l).allows s.clk l act then (s.manage l act).answer 0
      else s.answer 2) s

def execLinkEnable (r : Request) (s : State) : Host.Outcome State Fault Refusal := linkRequest r 0 s

def execLinkRetire (r : Request) (s : State) : Host.Outcome State Fault Refusal := linkRequest r 1 s

def execLinkRetrain (r : Request) (s : State) : Host.Outcome State Fault Refusal := linkRequest r 2 s

end Sys2Proof.Machine
end

