-- ==== Sys2Proof/Machine/Context.lean ====
section
/-! DEFINITION. Contexts (R121 to R139, R380): creation, records, clusters, pre-emption, save and restore, faults that the
host declares, teardown and release. -/

namespace Sys2Proof.Machine

/-! ## Creation and records (R121, R380) -/

/-- A context id in a state, with nothing registered: its counts alone are kept, which only device reset clears (R388). -/
def Context.renew (x : Context) (st : CtxState) : Context :=
  { st := st, clip := x.clip, ecc := x.ecc, lost := x.lost, drops := x.drops, abandoned := x.abandoned,
    lostInstalls := x.lostInstalls }

def execCreate (r : Request) (s : State) : Host.Outcome State Fault Refusal :=
  runRequest 0x01 r (fun _ s =>
    match (List.range Config.nContexts).find? (fun c => (s.ctx c).st = .free) with
    | none => s.answer 3
    | some c => (s.modCtx c (fun x => x.renew .assembling), some (0, BitVec.ofNat 64 c))) s

/-- A region that lies in tier D. -/
def inTierD (a len : Nat) : Bool := Config.tierDBase ≤ a && a + len ≤ Config.tierDEnd

/-- A context record from its words; none where it is malformed. A save area of 0 and an unexpected queue of none name
no region. -/
def recordOf (w : Nat → Word) : Option CtxRecord :=
  let x : CtxRecord :=
    { ptroot := (w 0).toNat, rndseed := w 1, save := (w 2).toNat, uq := (w 3).toNat, cls := bits (w 4) 24 2,
      uqlog := field (w 4) 16 5, uqn := field (w 4) 0 16, wfmbox := (w 5).toNat, mvwait := field (w 6) 32 32,
      wfbudget := field (w 6) 0 32, spool := (w 7).toNat, dpool := (w 8).toNat, lowater := (w 9).toNat }
  let reserved : Bool :=
    anySet (w 0) [(0, 14), (54, 10)] || anySet (w 2) [(0, 21), (54, 10)] || anySet (w 3) [(0, 6), (54, 10)] ||
      anySet (w 4) [(21, 3), (26, 38)] || anySet (w 5) [(0, 3), (52, 12)] || anySet (w 7) [(0, 3), (54, 10)] ||
      anySet (w 8) [(0, 3), (54, 10)] || anySet (w 9) [(16, 48)] || (List.range 22).any (fun i => w (10 + i) ≠ 0)
  let root : Bool := match tierOf x.ptroot with | some 0 | some 1 => tierOf (x.ptroot + 0x7FFF) = tierOf x.ptroot | _ => false
  let queue : Bool := x.uqn = 0 || (6 ≤ x.uqlog && x.uqlog ≤ 20 && inTierD x.uq (x.uqn * (64 + 2 ^ x.uqlog)))
  if reserved || !root || !(x.save = 0 || inTierD x.save 0x180000) || !queue then none else some x

/-- Whether a record is valid for n tiles: its save area lies in tier D (R380). -/
def CtxRecord.fits (x : CtxRecord) (n : Nat) : Bool := x.save = 0 || inTierD x.save (n * 0x180000)

def execWriteRecord (r : Request) (s : State) : Host.Outcome State Fault Refusal :=
  let c := r.ctx.toNat
  runOnContext 0x02 r (fun x => x.st = .assembling || x.st = .resident) (fun _ s =>
    match recordOf (s.hostWord (r.word 1)) with
    | none => s.answer 1
    | some x =>
      if (s.ctx c).st = .resident && !x.fits (4 * (s.ctx c).width) then s.answer 1
      else (s.modCtx c (fun k => if k.st = .assembling then { k with cfg := x } else { k with written := some x })).answer 0) s

/-! ## Clusters (R122, R137, R383) -/

/-- The cluster list of a request; none where it is malformed. -/
def State.clusterList (s : State) (r : Request) : Option (List Nat) :=
  let n := (r.word 2).toNat
  let a := r.word 1
  let l := (List.range (min n 128)).map (fun i => s.hostRead (a + BitVec.ofNat 64 (2 * i)) 2)
  if n = 0 || 128 < n || a.toNat % 2 ≠ 0 || l.any (128 ≤ ·) then none else some l

/-- Whether a context holds its clusters (R122, R126). -/
def Context.holds (x : Context) : Bool :=
  match x.st with
  | .resident | .running | .preempting | .faulted => true
  | _ => false

/-- Whether a list names a cluster on which the started work of a context that was torn down goes on to its end: nobody holds it, and a
commit or restore waits until it is quiet (R126, R138; log entry 14). -/
def State.clustersEnding (s : State) (l : List Nat) : Bool :=
  s.ctxs.any (fun p => p.2.st = .tornDown && p.2.clusters.any l.contains)

/-- Whether clusters cannot be given to a context: listed twice, held, taken by another context's restore in progress, or with shadow
storage that holds another context's state (R122, R137). -/
def State.clustersTaken (s : State) (c : Nat) (l : List Nat) : Bool :=
  !l.Nodup || s.ctxs.any (fun p => p.1 ≠ c && ((p.2.holds && p.2.clusters.any l.contains) || p.2.coming.any l.contains)) ||
    l.any (fun k => [0, 1, 2, 3].any (fun i =>
      match (s.tile (tileAt k i)).shadow with | some sh => decide (sh.ctx ≠ c) | none => false))

/-- Whether a commit waits for clusters that it can have once they are quiet (R126, R138; log entry 14). -/
def State.commitWaits (s : State) (r : Request) : Bool :=
  (s.ctx r.ctx.toNat).st = .assembling &&
    (match s.clusterList r with | none => false | some l => !s.clustersTaken r.ctx.toNat l && s.clustersEnding l)

/-- A commit gives a context its clusters: every tile and anvil of them, every timeline and `ctxclip` start afresh (R127, R237). -/
def execCommit (r : Request) (s : State) : Host.Outcome State Fault Refusal :=
  let c := r.ctx.toNat
  if s.commitWaits r then .next s
  else runOnContext 0x03 r (fun x => x.st = .assembling) (fun _ s =>
    match s.clusterList r with
    | none => s.answer 1
    | some l =>
      if s.clustersTaken c l then s.answer 3
      else if !(s.ctx c).cfg.fits (4 * l.length) then s.answer 1
      else
        let s := s.modCtx c (fun x => { x with st := .resident, clusters := l, width := l.length,
                                               tlr := 0, tli := 0, tlm := 0, clip := 0 })
        let ts := (s.ctx c).tiles
        let s := (ts.zip (List.range ts.length)).foldl (fun (s : State) p =>
          s.setTile p.1 { owner := some (c, p.2), shadow := (s.tile p.1).shadow }) s
        (l.foldl (fun (s : State) k => s.setAnvil k {}) s).answer 0) s

/-! ## Pre-emption (R134, R135) -/

/-- A lease request of a command that has not started is dropped. -/
def State.freezeLease (s : State) (t : Nat) : State :=
  if (s.queue t 0).entries.any (fun e => field e.w 0 8 = 0x80 && e.st = .running) then s else s.dropLeaseRequest t

/-- Pre-emption starts (R135). -/
def State.startPreempt (s : State) (c : Nat) : State :=
  let runs : Bool := (s.ctx c).st = .running
  let s := (s.tilesOf c).foldl (fun (s : State) t =>
    (((s.freezeHart ⟨t, false⟩).freezeHart ⟨t, true⟩).freezeLease t).ungate t) s
  (s.modCtx c (fun x => { x with st := .preempting, graceFrom := none, kernelRuns := runs })).later (.saveComplete c)

/-- Sets or clears YR on every hart of a context. -/
def State.setYield (s : State) (c : Nat) (b : Bool) : State :=
  (s.tilesOf c).foldl (fun (s : State) t => s.modTc t (fun m =>
    { m with main := { m.main with ctxstat := putBit m.main.ctxstat 7 b }
             move := { m.move with ctxstat := putBit m.move.ctxstat 7 b } })) s

/-- A soft request: YR on every hart, and the grace time starts. -/
def execPreemptSoft (r : Request) (s : State) : Host.Outcome State Fault Refusal :=
  let c := r.ctx.toNat
  runOnContext 0x05 r (fun x => x.st = .resident || x.st = .running) (fun n s =>
    ((s.setYield c true).modCtx c (fun x =>
      { x with graceFrom := some s.clk, yieldRequests := x.yieldRequests ++ [(n, r.tag)] }), none)) s

/-- A hard request starts at once; during a pre-emption in progress it only waits for its end. -/
def execPreemptHard (r : Request) (s : State) : Host.Outcome State Fault Refusal :=
  let c := r.ctx.toNat
  runOnContext 0x05 r (fun x => x.st = .resident || x.st = .running || x.st = .preempting) (fun n s =>
    let s := s.modCtx c (fun x => { x with hard := true, yieldRequests := x.yieldRequests ++ [(n, r.tag)] })
    (if (s.ctx c).st = .preempting then s else s.startPreempt c, none)) s

/-- `ctx.yield`: a no-op while YR is 0; else it retires and pre-emption starts. -/
def execCtxYield (s : State) : Host.Outcome State Fault Refusal :=
  let h := s.me
  let ask := (s.hart h).yieldRequested
  let s := s.retire h ((s.hart h).pc + 4)
  .next (if ask then s.startPreempt (s.ctxOf h.tile) else s)

def execSoftPreemptGraceExpiry (c : Nat) (s : State) : Host.Outcome State Fault Refusal :=
  let x := s.ctx c
  match x.graceFrom with
  | none => .next s
  | some g =>
    .next (if (x.st = .running || x.st = .resident) && g + s.dev.settings.grace ≤ s.clk then s.startPreempt c else s)

/-! ## Saving (R135, R136) -/

/-- Whether a tile has finished: its harts stand at a boundary, every started command has completed, its copies are
suspended. -/
def State.tileQuiet (s : State) (t : Nat) : Bool :=
  [false, true].all (fun m => match (s.hart ⟨t, m⟩).run with | .waiting _ => false | _ => true) &&
    [0, 1, 2].all (fun q => (s.queue t q).entries.all (fun e =>
      !(e.st = .running || e.st = .done) || (e.copying && e.prog.suspended)))

/-- The quarter of a plane that the tile at a position of the cluster carries: 16 columns with their scales and block sizes, and the
format and the tag. Which columns go to which tile R136 does not say (DESIGN CHOICE, log entry 73). -/
def Plane.quarter (p : Plane) (pos : Nat) : Plane :=
  { p with w := p.w.filter (fun x => x.1 / 16 = pos), b := p.b.filter (fun x => x.1 / 16 = pos),
           scale := p.scale.filter (fun x => x.1 / 256 = pos) }

/-- The plane that four quarters make; its format and tag are those of the first tile's. -/
def joinQuarters (q : Nat → Plane) : Plane :=
  { q 0 with w := (List.range 4).flatMap (fun i => ((q i).quarter i).w), b := (List.range 4).flatMap (fun i => ((q i).quarter i).b),
             scale := (List.range 4).flatMap (fun i => ((q i).quarter i).scale) }

/-- Moves a tile's state to its shadow storage, its quarter of the planes with it, and frees the tile. -/
def State.saveTile (s : State) (c ct t : Nat) : State :=
  let x := s.tile t
  let a := s.anvil (clusterOf t)
  let clear (h : Hart) : Hart := { h with ctxstat := putBit h.ctxstat 7 false }
  let m := { x.ctx with main := clear x.ctx.main, move := clear x.ctx.move,
                        quarter := (a.active.quarter (positionOf t), a.shadow.quarter (positionOf t)) }
  State.setTile { s with watches := s.watches.filter (fun w => w.tile ≠ t) } t
    { shadow := some { ctx := c, ctile := ct, saved := m } }

/-- The saved state of a context is lost: a context fault of reason 4, whatever the context was (R132). -/
def State.lostSaveFault (s : State) (c : Nat) : State :=
  (s.modCtx c (fun x => { x with st := .running, saveLost := false })).contextFault c (faultRecordOf 0 0 0 4 false 0)

/-- The bytes of tier D that a save area gives each context tile (R380). -/
def saveAreaBytes : Nat := 0x180000

/-- Whether what a restore reads back holds an uncorrectable error (R132, R137). -/
def State.savedLost (s : State) (x : Context) : Bool :=
  x.saveLost || (x.cfg.save ≠ 0 && !x.saveArea.isEmpty && s.flips.any (fun p =>
    x.cfg.save / 64 ≤ p.1 / 18 && p.1 / 18 < (x.cfg.save + saveAreaBytes * (4 * x.width)) / 64))

/-- Brings to rest what waits on a context's tiles; a step by which an instruction that had begun came to wait is no exception. -/
def State.restHarts (s : State) (c : Nat) : State :=
  (s.tilesOf c).foldl (fun (s : State) t => (s.restHart ⟨t, false⟩).restHart ⟨t, true⟩) s

/-- Once every tile is quiet the tiles' state goes to shadow storage and the clusters are free (R135). -/
def execSaveComplete (c : Nat) (s : State) : Host.Outcome State Fault Refusal :=
  let x := s.ctx c
  let s := if x.st = .preempting then s.restHarts c else s
  if x.st ≠ .preempting then .next s
  else if !(x.tiles.all s.tileQuiet) then .next (s.later (.saveComplete c))
  else if x.saveLost then .next (s.lostSaveFault c)
  else
    let t0 := s.tile (x.tiles.headD 0)
    let anvils := x.clusters.map (fun k => { s.anvil k with active := {}, shadow := {} })
    let s := (x.tiles.zip (List.range x.tiles.length)).foldl (fun (s : State) p => s.saveTile c p.2 p.1) s
    let s := x.clusters.foldl (fun (s : State) k => s.setAnvil k {}) s
    let s := s.modCtx c (fun x => { x with st := .swappedOut, clusters := [], savedAnvils := anvils, text := t0.imem,
                                           textLen := t0.textLen, yieldRequests := [], hard := false, graceFrom := none })
    .next (s.completeAll 0x05 x.yieldRequests 0)

/-- Words that a save area gives each context tile. -/
def saveAreaWords : Nat := saveAreaBytes / 8

/-- What context tile ct has saved goes to its part of the save area, whose layout the manual does not give: its words are free values of
one draw (R137; log entry 73). A record that names no area has none to write. -/
def State.fillSaveArea (s : State) (c draw ct : Nat) : State :=
  let a := (s.ctx c).cfg.save
  if a = 0 then s
  else (List.range saveAreaWords).foldl (fun (s : State) i =>
    s.homeWrite (some c) (a + saveAreaBytes * ct + 8 * i) 8 (Config.saveWord draw (saveAreaWords * ct + i)).toNat none) s

/-- Whether the save area still holds what was saved of context tile ct. -/
def State.areaKept (s : State) (x : Context) (ct : Nat) : Bool :=
  x.cfg.save = 0 || (match SMap.find? x.saveDraws ct with
    | none => true
    | some n => (List.range saveAreaWords).all (fun i =>
        s.peek (x.cfg.save + saveAreaBytes * ct + 8 * i) 8 = (Config.saveWord n (saveAreaWords * ct + i)).toNat))

/-- What a restore makes of a part of the save area that has been written since the save-out, whose layout the manual does not give
(R137; log entry 73). -/
opaque garbledTile : Nat → Option TileCtx

/-- Shadow storage goes to the save area and is free (R137). A context whose record names no save area answers the same (log entry 73). -/
def execSaveOut (r : Request) (s : State) : Host.Outcome State Fault Refusal :=
  let c := r.ctx.toNat
  runOnContext 0x06 r (fun x => x.st = .swappedOut) (fun _ s =>
    let l := s.tiles.filterMap (fun p => p.2.shadow.bind (fun sh => if sh.ctx = c then some (sh.ctile, sh.saved) else none))
    let s := s.modCtx c (fun x => { x with saveArea := l.foldl (fun m p => SMap.put m p.1 p.2) x.saveArea,
                                           saveDraws := l.foldl (fun m p => SMap.put m p.1 s.fresh) x.saveDraws })
    let s := l.foldl (fun (u : State) p => u.fillSaveArea c s.fresh p.1) { s with fresh := s.fresh + 1 }
    State.answer { s with tiles := s.tiles.map (fun p =>
      match p.2.shadow with
      | some sh => if sh.ctx = c then (p.1, { p.2 with shadow := none }) else p
      | none => p) } 0) s

/-! ## Restoring (R137) -/

/-- A restored hart: every armed slot is fired (R202). -/
def Hart.restored (x : Hart) : Hart :=
  { x with slots := x.slots.map (fun p => (p.1, match p.2 with | .armed _ => .fired | w => w)) }

/-- A hart and a queue as a restore takes them from a save area that has been written: the hart in user mode and at a boundary, each
command one that a push could have left there, with no translation of its own (R4). -/
def Hart.sound (x : Hart) : Hart :=
  { x with machine := false, run := match x.run with | .waiting _ => .running | w => w }
def CmdQueue.sound (x : CmdQueue) : CmdQueue :=
  { x with entries := (x.entries.filter (fun e => (decodeCommand e.w).isSome)).map (fun e => e.dropXlat (fun _ => true)) }

/-- A tile state that a restore can take up: whatever the host has left in a save area stops neither the device nor another context (R4). -/
def TileCtx.sound (x : TileCtx) : TileCtx :=
  { x with main := x.main.sound, move := x.move.sound, q0 := x.q0.sound, q1 := x.q1.sound, q2 := x.q2.sound }

/-- The saved state of a context tile as a restore reads it back. -/
def State.savedTile (s : State) (c ct : Nat) : TileCtx × State :=
  let m := s.tcAt c ct
  if s.areaKept (s.ctx c) ct then (m, s)
  else (((garbledTile s.fresh).map TileCtx.sound).getD m, { s with fresh := s.fresh + 1 })

/-- Loads the saved state of a context tile on a tile. -/
def State.restoreTile (s : State) (c ct t : Nat) : State :=
  let x := s.ctx c
  let r := s.savedTile c ct
  let m := r.1
  r.2.setTile t { owner := some (c, ct), imem := x.text, textLen := x.textLen, shadow := (s.tile t).shadow,
                  ctx := { m with main := m.main.restored, move := m.move.restored } }

/-- Reloads the planes of a cluster from the quarters that its tiles have loaded; the recorded holder has the lease again, and its idle
time starts afresh (R137, R307). -/
def State.restoreAnvil (s : State) (k : Nat) (a : Anvil) : State :=
  let q (i : Nat) : Plane × Plane := (s.tc (tileAt k i)).quarter
  let s := s.setAnvil k { a with active := joinQuarters (fun i => (q i).1), shadow := joinQuarters (fun i => (q i).2),
                                 requests := [], since := s.clk }
  (List.range 4).foldl (fun (s : State) i => s.modTc (tileAt k i) (fun m => { m with quarter := ({}, {}) })) s

/-- Shadow storage and save area of a context are free. -/
def State.dropSaved (s : State) (c : Nat) : State :=
  State.modCtx
    { s with tiles := s.tiles.map (fun p =>
        match p.2.shadow with
        | some sh => if sh.ctx = c then (p.1, { p.2 with shadow := none }) else p
        | none => p) }
    c (fun x => { x with saveArea := [], saveDraws := [], savedAnvils := [], saveLost := false, text := [], textLen := 0 })

/-- A context that is swapped out is placed on clusters (R137). -/
def State.restoreContext (s : State) (c : Nat) (l : List Nat) : State :=
  let s0 := s
  let x := s.ctx c
  let ts := ({ x with clusters := l } : Context).tiles
  let s := (ts.zip (List.range ts.length)).foldl (fun (s : State) p => s.restoreTile c p.2 p.1) s
  let s := (l.zip x.savedAnvils).foldl (fun (s : State) p => s.restoreAnvil p.1 p.2) s
  let s := s.modCtx c (fun x =>
    { x.modKernel (fun k => { k with since := s.clk, bound := k.bound.map (fun p => (p.1, { p.2 with born := k.epoch })) }) with
      clusters := l, st := if x.kernelRuns then .running else .resident })
  let s := s.dropSaved c
  if s0.savedLost x then s.lostSaveFault c
  else
    let again := (ts.zip (List.range ts.length)).filter (fun p =>
      match (s.ctx c).kernel.bind (fun k => SMap.find? k.bound p.2) with
      | some b => b.mainStopped && b.moveStopped
      | none => false)
    let s := again.foldl (fun (s : State) p => s.later (.kexitRelease p.1)) s
    if x.kernelRuns then ((s.later (.kernelLoad c)).later (.kernelLoadComplete c)).later (.kernelRetire c) else s

/-- A restore starts: its list is read and tested, and from then on it holds the clusters (R122). -/
def State.startRestore (s : State) (c n : Nat) (r : Request) : Answer :=
  match s.clusterList r with
  | none => s.answer 1
  | some l =>
    if l.length ≠ (s.ctx c).width then s.answer 1
    else if s.clustersTaken c l then s.answer 3
    else ((s.modCtx c (fun x => { x with restoring := some (n, r.tag), coming := l })).later (.restore r), none)

/-- A restore starts, and then is in progress until its clusters are quiet and the context stands on them (R122, R126, R137, R378; log
entry 14). -/
def execRestore (r : Request) (s : State) : Host.Outcome State Fault Refusal :=
  let c := r.ctx.toNat
  match (s.ctx c).restoring with
  | none => runOnContext 0x07 r (fun x => x.st = .swappedOut) (fun n s => s.startRestore c n r) s
  | some p =>
    let l := (s.ctx c).coming
    if s.clustersEnding l then .next (s.later (.restore r))
    else .next (((s.restoreContext c l).modCtx c (fun x => { x with restoring := none, coming := [] })).complete p.1 0x07 p.2 0 0)

/-- A restore in progress ends with status 7 where a teardown overtakes it (R378). -/
def State.endRestore (s : State) (c : Nat) : State :=
  match (s.ctx c).restoring with
  | none => s
  | some p =>
    let s := { s with agenda := s.agenda.filter (fun m => match m with | .event (.restore r) => r.ctx.toNat ≠ c | _ => true) }
    (s.modCtx c (fun x => { x with restoring := none, coming := [] })).complete p.1 0x07 p.2 7 0

/-! ## Faults that the host declares (R132) -/

def execDeclareFault (r : Request) (s : State) : Host.Outcome State Fault Refusal :=
  let c := r.ctx.toNat
  runOnContext 0x09 r (fun x => x.st = .running || x.st = .preempting) (fun _ s =>
    (s.contextFault c (faultRecordOf (r.word 1) 0 0 5 false 0)).answer 0) s

/-! ## Teardown and release (R138, R139) -/

/-- The command queues of a tile are drained (R144). -/
def TileCtx.drainQueues (k : TileCtx) : TileCtx :=
  let d (q : CmdQueue) : CmdQueue := { q with drained := true, faulted := false }
  { k with q0 := d k.q0, q1 := d k.q1, q2 := d k.q2 }

/-- A context gives up its clusters: its tiles and their anvils are free, the command queues there drained (R144). -/
def State.freeClusters (s : State) (c : Nat) : State :=
  let x := s.ctx c
  let s := x.tiles.foldl (fun (s : State) t =>
    State.setTile { s with watches := s.watches.filter (fun w => w.tile ≠ t) } t { shadow := (s.tile t).shadow, ctx := TileCtx.drainQueues {} }) s
  let s := x.clusters.foldl (fun (s : State) k => s.setAnvil k {}) s
  s.modCtx c (fun x => { x with clusters := [] })

/-- Whether remote elements of a tile's copies are still out. -/
def State.elementsOut (s : State) (t : Nat) : Bool :=
  s.sent.any (fun d => match d.what with | .element _ _ _ _ _ _ _ tile _ => tile = t | _ => false) ||
    s.agenda.any (fun m => match m with | .event (.copyRemoteElement r) => r.tile = t | _ => false)

/-- A context that is torn down gives up its clusters once what it has started on them has ended. -/
def State.freeQuiet (s : State) (c : Nat) : State :=
  if ((s.ctx c).tiles.all (fun t => s.tileQuiet t && !s.elementsOut t)) then s.freeClusters c else s

/-- A teardown stops the work, withdraws receives, frees the unexpected queue and the saved state, drains the command queues, unbinds
groups and scopes, and gives up the clusters; what has started on them, and a message that is landing, goes on to its end first (R138,
R139, R144, R185, R189). A move that still waits for pins ends with status 8 and neither an advance of tlm nor a count of an abandoned
move (DESIGN CHOICE, log entry 138). -/
def State.tearDown (s : State) (c : Nat) : State :=
  let x := s.ctx c
  let s := if x.st = .running || x.st = .preempting || x.st = .resident then s.stopWork c else s
  let s := s.dropSaved c
  let s := (s.tilesOf c).foldl (fun (s : State) t => s.modTc t TileCtx.drainQueues) s
  let waiting := x.moves.filter (fun m => !m.started)
  let s := s.modCtx c (fun x =>
    { x with st := .tornDown, kernel := none, waiting := [], groups := [], scopes := [], posted := [], parked := [], graceFrom := none,
             moves := x.moves.filter (fun m => m.started) })
  (s.freeQuiet c).completeAll 0x0B (waiting.filterMap (·.request)) 8

def execTeardown (r : Request) (s : State) : Host.Outcome State Fault Refusal :=
  let c := r.ctx.toNat
  runOnContext 0x08 r (fun x => x.st ≠ .free && x.st ≠ .tornDown) (fun n s =>
    ((((s.endRestore c).tearDown c).modCtx c (fun x => { x with tearRequests := [(n, r.tag)] })).later (.releaseComplete c), none)) s

/-- The 16 KiB units of tier S that a context maps. -/
def State.unitsOfS (s : State) (c : Nat) : List Nat :=
  (s.leaves c).flatMap (fun p =>
    let f := frameOf p.2.2
    if field p.2.2 59 3 = 0 then (List.range (f.2 / 16384)).map (f.1 / 16384 + ·) else [])

/-- Zeroes and empties 16 KiB units of tier S (R84); as every write does, that reads the lines first, for a context, and then fires what
watches them and serves what is held there (R87, R202, R218). -/
def State.zeroUnits (s : State) (c : Nat) (l : List Nat) : State :=
  let s := l.foldl (fun (s : State) u => (List.range 256).foldl (fun (s : State) i => s.touch (some c) (256 * u + i)) s) s
  let s : State := { s with
    mem := s.mem.filter (fun p => !l.contains (p.1 / 16384))
    full := s.full.filter (fun p => !l.contains (p.1 / 2048))
    flips := s.flips.filter (fun p => !l.contains (p.1 / 18 / 256)) }
  ((s.watches.map (·.pa) ++ s.held.map (·.pa)).filter (fun a => l.contains (a / 16384))).foldl
    (fun (s : State) a => (s.fireWatches a).homeScan a) s

/-- Who sent a thing that is handed to the fabric and is still to be answered. -/
def Sent.sender (x : Sent) : Option MsgRef :=
  match x with
  | .send _ m => some m.sender
  | .put _ p => some p.sender
  | .arrive _ a => some a.sender
  | .get _ g => some g.sender
  | _ => none

/-- Who sent what a step brings to its target on this chip, or awaits the answer that it brings. -/
def State.senderOf (s : State) (i : Instr) : Option MsgRef :=
  match i with
  | .messageArrival m => some m.sender
  | .remotePutWrite p => some p.sender
  | .remoteArrival a => some a.sender
  | .remoteGetRead g => some g.sender
  | .messageAck a => some ⟨s.dev.serial, a.ctx, a.ctile, a.seq⟩
  | .getReply g => some ⟨s.dev.serial, g.ctx, g.ctile, g.seq⟩
  | _ => none

/-- Whether a message, put, arrival or get that a context has sent is still on its way, or its answer (R139). -/
def State.messagesOut (s : State) (c : Nat) : Bool :=
  let mine (r : Option MsgRef) : Bool := r.any (fun r => r.serial = s.dev.serial && r.ctx = c)
  s.sent.any (fun d => mine d.what.sender) ||
    s.agenda.any (fun m => match m with | .event i => mine (s.senderOf i) | _ => false)

/-- Whether an operation of a torn-down context is still in flight on the chip: work on its tiles, a landing, a put that waits, what it
has sent, an install, a move (R139). -/
def State.inFlight (s : State) (c : Nat) : Bool :=
  let x := s.ctx c
  !x.clusters.isEmpty || s.messagesOut c || !x.landings.isEmpty || s.heldPuts.any (fun p => p.ctx = c) || !x.installs.isEmpty || !x.moves.isEmpty

/-- Release completes when no operation of the context is left on the chip: its frames of tier S that no other context
maps are zeroed, and the id is free. A pre-emption that the teardown overtook ends with status 7 (R378). -/
def execReleaseComplete (c : Nat) (s : State) : Host.Outcome State Fault Refusal :=
  let x := s.ctx c
  if x.st ≠ .tornDown then .next s
  else
    let s := (s.restHarts c).freeQuiet c
    if s.inFlight c then .next (s.later (.releaseComplete c))
    else
      let s := ((s.ctxs.filter (fun p => p.2.st ≠ .free)).map (·.1)).foldl (fun (s : State) k => s.readTables k) s
      let others := (s.ctxs.filter (fun p => p.1 ≠ c && p.2.st ≠ .free)).flatMap (fun p => s.unitsOfS p.1)
      let s := s.zeroUnits c ((s.unitsOfS c).filter (fun u => !others.contains u))
      .next (((s.modCtx c (fun x => x.renew .free)).completeAll 0x05 x.yieldRequests 7).completeAll 0x08 x.tearRequests 0)

end Sys2Proof.Machine
end

