-- ==== Sys2Proof/Machine/Pages.lean ====
section
/-! DEFINITION. Pages (R98, R332 to R347): invalidation, moves and their commit, the barrow, and the installing of
weights in tier F. -/

namespace Sys2Proof.Machine

/-! ## Invalidation (R98, R331) -/

/-- Discards what the tiles of a context cache of the translations of a virtual range. -/
def State.invalidateRange (s : State) (c va n : Nat) : State :=
  (s.tilesOf c).foldl (fun (s : State) t =>
    s.setTile t ((s.tile t).dropEntries (fun e =>
      va / 16384 < e.base + 2 ^ (pageBits (field e.entry 57 2) - 14) && e.base < (va + n + 16383) / 16384))) s

def execInvalidate (r : Request) (s : State) : Host.Outcome State Fault Refusal :=
  let c := r.ctx.toNat
  runOnContext 0x0A r Context.live (fun _ s =>
    let va := (r.word 1).toNat; let k := (r.word 2).toNat
    if 2 ^ 52 ≤ va || 3 < k then s.answer 1
    else
      let n := 2 ^ pageBits k
      (s.invalidateRange c (va / n * n) n).answer 0) s

/-! ## Pins (R334) -/

/-- Context tiles of a context, on tiles or saved. -/
def State.tileStates (s : State) (c : Nat) : List TileCtx :=
  (List.range (4 * (s.ctx c).width)).map (fun ct => s.tcAt c ct)

/-- Whether two ranges of bytes, by first byte and length, meet. -/
def meets (a b : Nat × Nat) : Bool := a.1 < b.1 + b.2 && b.1 < a.1 + a.2

/-- Whether an entry is inside a chunk for which it holds a translation of a range of frames (R98, R334). -/
def Entry.pins (e : Entry) (pa n : Nat) : Bool := e.st = .running && e.prog.xlat.any (fun x => meets (frameOf x.2) (pa, n))

/-- Whether an install that has been accepted pins a range of frames: those of its source, or its target. -/
def Install.pins (i : Install) (pa n : Nat) : Bool :=
  i.code.isNone && (i.frames.any (meets (pa, n)) || meets (i.dstPa, 0x200000) (pa, n))

/-- Whether a range-table entry covers a page in a range of frames. -/
def RangeEntry.pins (e : RangeEntry) (pa n : Nat) : Bool :=
  let run := [(pa / 64, (pa + n - 1) / 64)]
  runsMeet e.rd run || runsMeet e.wr run || e.frames.any (meets (pa, n))

/-- Whether a command of a tile is inside a chunk for which it holds a translation of a range of frames. -/
def TileCtx.chunkPins (m : TileCtx) (pa n : Nat) : Bool := [0, 1, 2].any (fun q => (m.queue q).entries.any (fun e => e.pins pa n))

/-- Whether a range of frames is pinned: by a range-table entry, a chunk that is under way, an install's source, or an install's
target. -/
def State.pinned (s : State) (c pa n : Nat) : Bool :=
  (s.tileStates c).any (fun m => m.ranges.any (fun e => e.pins pa n)) ||
    (s.tilesOf c).any (fun t => (s.tc t).chunkPins pa n) ||
    s.ctxs.any (fun p => p.2.installs.any (fun i => i.pins pa n))

/-! ## Moves (R336 to R339) -/

/-- A page of a move as it stands: its leaf. -/
def State.pageLeaf (s : State) (c va : Nat) : Option Leaf :=
  match s.walk c va with
  | .ok l => some l
  | .error _ => none

/-- Whether every page of a move is free of pins. -/
def State.movable (s : State) (c : Nat) (m : PageMove) : Bool :=
  m.pages.all (fun p => match s.pageLeaf c p.1 with
    | some l => !s.pinned c l.base (2 ^ l.size)
    | none => true)

/-- Changes the first move that a test picks. -/
def mapFirst {α : Type} (p : α → Bool) (f : α → α) : List α → List α
  | [] => []
  | x :: r => if p x then f x :: r else x :: mapFirst p f r

/-- A move of pages is accepted: it waits for its pins. -/
def State.addMove (s : State) (c : Nat) (m : PageMove) : State :=
  (s.modCtx c (fun x => { x with moves := x.moves ++ [m] })).later (.moveStart c)

/-- Whether a page is in a move already. -/
def Context.inMove (x : Context) (va : Nat) : Bool :=
  x.moves.any (fun m => m.pages.any (fun p => p.1 ≤ va && va < p.1 + 2 ^ pageBits p.2.1))

/-- Whether a frame can take a page of n bytes: aligned, inside a tier that holds such pages, fitted, and outside the
staging region. -/
def State.frameOk (s : State) (tier frame n : Nat) (compressed : Bool) : Bool :=
  let r := tierRange tier
  tier ≠ 2 && tier < 5 && frame % n = 0 && r.1 ≤ frame && frame + n ≤ r.2 && s.fitted frame && s.fitted (frame + n - 1) &&
    !(tier = 1 && s.inStaging frame n) && !(compressed && tier = 0)

/-- Moves a page to a frame, or to the paired context of another chip. -/
def execMovePage (r : Request) (s : State) : Host.Outcome State Fault Refusal :=
  let c := r.ctx.toNat
  runOnContext 0x0B r Context.live (fun n s =>
    let va := (r.word 1).toNat; let w := r.word 2
    let s := s.deviceWalk c va
    if 2 ^ 52 ≤ va then s.answer 1
    else match s.pageLeaf c va with
      | none => s.answer 2
      | some l =>
        let size := 2 ^ l.size; let code := field l.entry 57 2; let base := va / size * size
        if l.tier = 2 then s.answer 2
        else if (s.ctx c).inMove base then s.answer 8
        else if w.getLsbD 7 then
          if anySet w [(8, 56)] then s.answer 1
          else match (s.ctx c).primaryDomain.bind (fun d => d.members[field w 0 7]?) with
            | none => s.answer 1
            | some m =>
              if m.1 = s.dev.serial then s.answer 1
              else (s.addMove c { pages := [(base, code, none, 0)], since := s.clk, dest := some m, request := some (n, r.tag) }, none)
        else
          let frame := field w 14 40 * 2 ^ 14; let tier := field w 61 3
          if anySet w [(0, 14), (54, 7)] || !s.frameOk tier frame size l.compressed then s.answer 1
          else (s.addMove c { pages := [(base, code, some frame, tier)], since := s.clk, request := some (n, r.tag) }, none)) s

/-- A move ends: tlm advances, and with an error the timeline's bit is set (R113, R335). -/
def State.endMove (s : State) (c : Nat) (m : PageMove) (status : Nat) : State :=
  let s := s.modCtx c (fun x => { x with tlm := x.tlm + 1 })
  let s := if status = 0 then s else s.setTlerrAll c 6
  s.completeAll 0x0B m.request.toList status

/-- The places that hold a page's entry: 16 for a 32 MiB page, of those that are equal to the one walked (R329). -/
def State.entryPlaces (s : State) (code : Nat) (l : Leaf) : List Nat :=
  if code = 2 then
    ((List.range 16).map (fun i => l.entryPa / 128 * 128 + 8 * i)).filter (fun a => s.peek a 8 = l.entry.toNat)
  else [l.entryPa]

/-- The entries of a move's pages as they stand: places and value. -/
def State.entriesOf (s : State) (c : Nat) (m : PageMove) : List (List Nat × Word) :=
  m.pages.map (fun p => match s.pageLeaf c p.1 with
    | some l => (s.entryPlaces p.2.1 l, l.entry)
    | none => ([], 0))

/-- Whether a page of tier S that the barrow would move has been touched by a tagged operation since it was chosen (R86). -/
def State.taggedSince (s : State) (c : Nat) (m : PageMove) : Bool :=
  m.barrow && m.pages.any (fun p => match s.pageLeaf c p.1 with
    | some l => (List.range (2 ^ l.size / 16384)).any (fun i => SMap.get false (s.ctx c).tagged (l.base / 16384 + i))
    | none => false)

/-- Once the pins of a move's pages are gone within `mvwait`, they are moving: their writes stall. A move of the barrow's whose page may
no longer leave tier S is withdrawn (R86; log entry 110). -/
def execMoveStart (c : Nat) (s : State) : Host.Outcome State Fault Refusal :=
  let x := s.ctx c
  let out (m : PageMove) : Bool := !m.started && s.taggedSince c m
  let ready (m : PageMove) : Bool := !m.started && s.clk ≤ m.since + x.cfg.mvwait && s.movable c m
  if x.moves.any out then .next (s.modCtx c (fun x => { x with moves := dropFirst out x.moves }))
  else if x.moves.any ready then
    let s := ((x.moves.find? ready).map (fun m => m.pages.map (·.1))).getD [] |>.foldl (fun (s : State) va => s.deviceWalk c va) s
    .next ((s.modCtx c (fun x =>
      { x with moves := mapFirst ready (fun m => { m with started := true, old := s.entriesOf c m }) x.moves })).later (.moveCommit c))
  else .next s

/-- A move whose pins do not clear within `mvwait` is abandoned. -/
def execMovePinWaitTimeout (c : Nat) (s : State) : Host.Outcome State Fault Refusal :=
  let x := s.ctx c
  let late (m : PageMove) : Bool :=
    !m.started && (m.since + x.cfg.mvwait < s.clk || (m.since + x.cfg.mvwait ≤ s.clk && !s.movable c m))
  match x.moves.find? late with
  | none => .next s
  | some m =>
    .next ((s.modCtx c (fun x => { x with moves := dropFirst late x.moves, abandoned := satAdd 64 x.abandoned 1 })).endMove c m 8)

/-- A move that has started ends without a commit, its pages where they were, where both copies of the commit record are lost: status
busy (R333). -/
def State.lostCommit (s : State) (c : Nat) : State :=
  match (s.ctx c).moves.find? (·.started) with
  | none => s
  | some m => (s.modCtx c (fun x => { x with moves := dropFirst (·.started) x.moves })).endMove c m 8

/-- A frame that changes places: from, to (none for another chip), bytes, and whether full/empty bits go with it. -/
structure Shift where
  src : Nat
  dst : Option Nat
  n : Nat
  bits : Bool
deriving DecidableEq, Repr

/-- The frames of a move, by the entries that its pages had when it started. -/
def PageMove.shifts (m : PageMove) : List Shift :=
  (m.pages.zip m.old).filterMap (fun p => if p.2.1.isEmpty then none else
    let f := frameOf p.2.2
    some { src := f.1, dst := p.1.2.2.1, n := f.2, bits := field p.2.2 59 3 = 0 && p.1.2.2.2 = 0 })

/-- Listed bytes of a range, by offset. -/
def State.cellsOf (s : State) (pa n : Nat) : SMap Byte :=
  (s.mem.filter (fun p => pa ≤ p.1 && p.1 < pa + n)).map (fun p => (p.1 - pa, p.2))

/-- Replaces the bytes of a range. -/
def State.setCells (s : State) (pa n : Nat) (cells : SMap Byte) : State :=
  { s with mem := cells.foldl (fun m p => SMap.set unlisted m (pa + p.1) p.2) (s.mem.filter (fun p => !(pa ≤ p.1 && p.1 < pa + n))) }

/-- The full words of a range, by offset, and their replacement. -/
def State.fullOf (s : State) (pa n : Nat) : SMap Bool :=
  (s.full.filter (fun p => pa / 8 ≤ p.1 && p.1 < (pa + n) / 8)).map (fun p => (p.1 - pa / 8, p.2))
def State.setFulls (s : State) (pa n : Nat) (l : SMap Bool) : State :=
  { s with full := l.foldl (fun m p => SMap.set false m (pa / 8 + p.1) p.2) (s.full.filter (fun p => !(pa / 8 ≤ p.1 && p.1 < (pa + n) / 8))) }

/-- Reads the source frames of a move: one that is not fitted is counted and reads as zeros (R79, R337). -/
def State.readFrames (s : State) (c : Nat) (l : List Shift) : State :=
  l.foldl (fun (s : State) x => if s.fitted x.src then s.touchRange c x.src x.n else s.countUnmapped (some c) x.src) s

/-- Where a word of a frame has gone: its new place in tier S, or none. -/
def movedTo (l : List Shift) (pa : Nat) : Option (Option Nat) :=
  (l.find? (fun x => x.src ≤ pa && pa < x.src + x.n)).map (fun x =>
    x.dst.bind (fun d => if tierOf d = some 0 then some (d + (pa - x.src)) else none))

/-- The words of a frame of tier S have been written: those that no move takes elsewhere fire what watches them and serve what is held
there (R202, R218). -/
def State.wroteFrame (s : State) (l : List Shift) (pa n : Nat) : State :=
  ((s.watches.map (·.pa) ++ s.held.map (·.pa)).filter (fun a => pa ≤ a && a < pa + n && (movedTo l a).isNone)).foldl
    (fun (s : State) a => (s.fireWatches a).homeScan a) s

/-- Copies the contents of the frames of a move, all at once; what is written outside fitted memory is dropped and counted (R79). -/
def State.copyFrames (s : State) (c : Nat) (l : List Shift) : State :=
  let data := l.map (fun x => (x, if s.fitted x.src then s.cellsOf x.src x.n else [], if x.bits then s.fullOf x.src x.n else []))
  data.foldl (fun (s : State) d =>
    match d.1.dst with
    | none => s
    | some dst =>
      if !s.fitted dst then s.countUnmapped (some c) dst
      else
        let s := (s.touchRange c dst d.1.n).setCells dst d.1.n d.2.1
        let s := { s with flips := s.flips.filter (fun p => !(dst / 64 ≤ p.1 / 18 && p.1 / 18 < (dst + d.1.n) / 64)) }
        if tierOf dst = some 0 then (s.setFulls dst d.1.n d.2.2).wroteFrame l dst d.1.n else s) s

/-- Watches move with their words; one whose word leaves tier S or the chip is fired (R338). -/
def State.moveWatches (s : State) (l : List Shift) : State :=
  let hit := s.watches.filter (fun w => (movedTo l w.pa).isSome)
  let kept := s.watches.filter (fun w => (movedTo l w.pa).isNone)
  hit.foldl (fun (s : State) w =>
    match movedTo l w.pa with
    | some (some pa) =>
      State.modHart { s with watches := s.watches ++ [{ w with pa := pa }] } ⟨w.tile, w.move⟩
        (fun h => { h with slots := SMap.set .disarmed h.slots w.slot (.armed pa) })
    | _ => (s.modHart ⟨w.tile, w.move⟩ (fun h => { h with slots := SMap.set .disarmed h.slots w.slot .fired })).ungate w.tile)
    { s with watches := kept }

/-- Held tagged requests move with their words, in the same order; one whose word leaves tier S ends at its instruction
with an access fault (R338). -/
def State.moveHeld (s : State) (l : List Shift) : State :=
  let gone := s.held.filter (fun r => match movedTo l r.pa with | some none => true | _ => false)
  let s := { s with held := (s.held.filter (fun r => match movedTo l r.pa with | some none => false | _ => true)).map (fun r =>
    match movedTo l r.pa with | some (some pa) => { r with pa := pa } | _ => r) }
  gone.foldl (fun (s : State) r =>
    s.takeTrap ⟨r.tile, r.move⟩ false (match r.kind with | .ldf | .ldt => 5 | _ => 7) 0 r.va) s

/-- Harts that wait at a word of a page go on waiting at its new place; where it has left tier S their instruction executes again
(R338). -/
def moveWait (l : List Shift) (x : Hart) : Hart :=
  match x.run with
  | .waiting (.tagged pa) =>
    match movedTo l pa with
    | some (some a) => { x with run := .waiting (.tagged a) }
    | _ => x
  | .waiting (.barr pa va token rd) =>
    match movedTo l pa with
    | some (some a) => { x with run := .waiting (.barr a va token rd) }
    | some none => { x with run := .running }
    | none => x
  | _ => x

def State.moveWaits (s : State) (l : List Shift) : State :=
  { s with tiles := s.tiles.map (fun p =>
      (p.1, { p.2 with ctx := { p.2.ctx with main := moveWait l p.2.ctx.main, move := moveWait l p.2.ctx.move } })) }

/-- Pages of 16 KiB on which a tagged operation has acted keep that mark in their new frame (R86). -/
def State.moveTagged (s : State) (c : Nat) (l : List Shift) : State :=
  s.modCtx c (fun x =>
    let old := l.filter (fun y => SMap.get false x.tagged (y.src / 16384))
    let m := l.foldl (fun (m : SMap Bool) y => SMap.del m (y.src / 16384)) x.tagged
    { x with tagged := old.foldl (fun (m : SMap Bool) y =>
        match y.dst with
        | some d => if tierOf d = some 0 then SMap.set false m (d / 16384) true else m
        | none => m) m })

/-- The new entry of a page: the frame and the tier change; of a page that has left the chip V is cleared (R339). -/
def newEntry (old : Word) (p : Nat × Nat × Option Nat × Nat) : Word :=
  match p.2.2.1 with
  | none => old &&& 0x7FFFFFFFFFFFFFFF
  | some f => (old &&& 0x07C0000000003FFF) ||| BitVec.ofNat 64 (p.2.2.2 * 2 ^ 59) ||| BitVec.ofNat 64 f ||| 0xC000000000000000

/-- Writes the new entry at its places. One that the host has written since the move started ends with the host's value or the
commit's, as a free value decides (R331); one that reads as zero, as where its line was lost, takes the commit's (log entry 113). -/
def State.commitEntry (s : State) (p : Nat × Nat × Option Nat × Nat) (old : List Nat × Word) : State :=
  old.1.foldl (fun (s : State) a =>
    let now := s.peek a 8
    let w := s.free
    if now = old.2.toNat || now = 0 then s.homeWrite none a 8 (newEntry old.2 p).toNat none
    else if w.1.getLsbD 0 then w.2.homeWrite none a 8 (newEntry old.2 p).toNat none
    else w.2) s

/-! ## Frame pools (R340) -/

/-- A frame pool: its frame addresses, read as any memory is. -/
def State.pool (s : State) (c pa : Nat) : State × List Nat :=
  let n := s.homeRead (some c) pa 8
  (List.range (min n.2 (2 ^ 20))).foldl (fun (acc : State × List Nat) i =>
    let x := acc.1.homeRead (some c) (pa + 8 + 8 * i) 8
    (x.1, acc.2 ++ [x.2])) (n.1, [])

/-- Writes a pool back. -/
def State.setPool (s : State) (c pa : Nat) (l : List Nat) : State :=
  (l.zip (List.range l.length)).foldl (fun (s : State) p => s.homeWrite (some c) (pa + 8 + 8 * p.2) 8 p.1 none)
    (s.homeWrite (some c) pa 8 l.length none)

/-- A frame leaves a pool for a page, whose old frame goes to the other pool. -/
def State.swapPools (s : State) (c take give f old : Nat) : State :=
  let a := s.pool c take
  let s := a.1.setPool c take (dropFirst (· = f) a.2)
  let b := s.pool c give
  b.1.setPool c give (b.2 ++ [old])

/-- What a committed move of the barrow's does to the pools: a promotion takes a frame of the S pool and frees one of tier D, a
demotion the other way; an exchange changes neither. -/
def State.settlePools (s : State) (c : Nat) (m : PageMove) (l : List Shift) : State :=
  let cfg := (s.ctx c).cfg
  match m.barrow, m.pages, l with
  | true, [p], [x] =>
    match p.2.2.1 with
    | some f => if p.2.2.2 = 0 then s.swapPools c cfg.spool cfg.dpool f x.src else s.swapPools c cfg.dpool cfg.spool f x.src
    | none => s
  | _, _, _ => s

/-- The frames of an install's source follow a move of its page; a page that leaves the chip leaves none (R339, R345; log entry 116). -/
def Install.follow (l : List Shift) (i : Install) : Install :=
  let gone (f : Nat × Nat) : Bool := l.any (fun x => x.dst.isNone && meets f (x.src, x.n))
  let go (f : Nat × Nat) : Nat × Nat := match l.find? (fun x => x.src ≤ f.1 && f.1 < x.src + x.n) with
    | some x => match x.dst with | some d => (d + (f.1 - x.src), f.2) | none => f
    | none => f
  { i with frames := if i.frames.any gone then [] else i.frames.map go }

/-- The lines of a frame, first and last. -/
def Shift.lines (x : Shift) : Nat × Nat := (x.src / 64, (x.src + x.n - 1) / 64)

/-- What is left of some runs of lines outside a frame that moves. -/
def Shift.outside (l : List (Nat × Nat)) (x : Shift) : List (Nat × Nat) :=
  l.flatMap (fun r =>
    (if r.1 < x.lines.1 then [(r.1, min r.2 (x.lines.1 - 1))] else []) ++
    (if x.lines.2 < r.2 then [(max r.1 (x.lines.2 + 1), r.2)] else []))

/-- The lines of some runs in a frame that moves, at their new place in tier S. -/
def Shift.taken (l : List (Nat × Nat)) (x : Shift) : List (Nat × Nat) :=
  match x.dst with
  | none => []
  | some d =>
    if tierOf d ≠ some 0 then []
    else (l.filter (fun r => runsMeet [r] [x.lines])).map (fun r =>
      (max r.1 x.lines.1 - x.lines.1 + d / 64, min r.2 x.lines.2 - x.lines.1 + d / 64))

/-- Runs of lines after a move: the lines of a page follow it; the whole of tier S stays so. -/
def moveRuns (l : List Shift) (runs : List (Nat × Nat)) : List (Nat × Nat) :=
  if runs = allLines || !l.any (fun x => runsMeet runs [x.lines]) then runs
  else boundRuns (l.foldl Shift.outside runs ++ l.flatMap (Shift.taken runs))

/-- A range-table entry follows the pages that it covers, so that they stay pinned until it retires; of a page that leaves tier S it
keeps the frame (R92, R238, R334; DESIGN CHOICE, log entry 126). -/
def RangeEntry.follow (l : List Shift) (e : RangeEntry) : RangeEntry :=
  let left := l.filter (fun x => runsMeet (e.rd ++ e.wr) [x.lines] && e.rd ≠ allLines && e.wr ≠ allLines)
  { e with rd := moveRuns l e.rd, wr := moveRuns l e.wr
           frames := e.frames ++ left.filterMap (fun x => match x.dst with
             | some d => if tierOf d = some 0 then none else some (d, x.n)
             | none => none) }

/-- The range tables of a context's tiles, on their tiles or saved, follow a move. -/
def State.moveRanges (s : State) (c : Nat) (l : List Shift) : State :=
  let go (k : TileCtx) : TileCtx := { k with ranges := k.ranges.map (RangeEntry.follow l) }
  ((s.tilesOf c).foldl (fun (s : State) t => s.modTc t go) s).modSavedAll c go

/-- Whether a command of a context holds a chunk's translation of a page that a move takes away (R98). -/
def State.moveHeldUp (s : State) (c : Nat) (l : List Shift) : Bool :=
  (s.tilesOf c).any (fun t => l.any (fun x => (s.tc t).chunkPins x.src x.n))

/-- A move commits: the contents are in the new frames, the entries are written, the old translations and what the tiles of the
context have cached of the frames are invalidated, the stalled writes go on, and tlm advances. The invalidation is acknowledged once no
chunk holds an old translation, and the commit is one step with it: it waits for those chunks (R98, R337, R339). -/
def execMoveCommit (c : Nat) (s : State) : Host.Outcome State Fault Refusal :=
  match (s.ctx c).moves.find? (·.started) with
  | none => .next s
  | some m =>
    let l := m.shifts
    if s.moveHeldUp c l then .next (s.later (.moveCommit c)) else
    let s := s.readFrames c l
    let s := match m.dest with
      | none => s
      | some d => (m.pages.zip l).foldl (fun (s : State) (p : (Nat × Nat × Option Nat × Nat) × Shift) =>
          s.depart d.1 (s.ctx c).cfg.cls.toNat 0 0
            (.page d.1 d.2 p.1.1 p.2.n (if s.fitted p.2.src then s.cellsOf p.2.src p.2.n else []))) s
    let s := s.copyFrames c l
    let s := (m.pages.zip m.old).foldl (fun (s : State) p => s.commitEntry p.1 p.2) s
    let s := m.pages.foldl (fun (s : State) p => s.invalidateRange c p.1 (2 ^ pageBits p.2.1)) s
    let inFrame (base n line : Nat) : Bool := base / 64 ≤ line && line < (base + n) / 64
    let s := (s.tilesOf c).foldl (fun (s : State) t => s.discard t (fun line => l.any (fun x =>
      inFrame x.src x.n line || (match x.dst with | some d => inFrame d x.n line | none => false)))) s
    let s := ((((s.moveTagged c l).moveRanges c l).moveWatches l).moveHeld l).moveWaits l
    let s := s.settlePools c m l
    let s := { s with ctxs := s.ctxs.map (fun (p : Nat × Context) => (p.1, { p.2 with installs := p.2.installs.map (Install.follow l) })) }
    let s := s.modCtx c (fun x => { x with moves := dropFirst (·.started) x.moves })
    .next (s.endMove c m 0)

/-! ## The barrow (R340) -/

/-- The size code of a frame of a pool, by its alignment. -/
def poolSize (frame : Nat) : Nat := if frame % 0x200000 = 0 then 1 else 0

/-- A page that the barrow may choose: address, size code, frame, count. -/
structure BarrowPage where
  va : Nat
  code : Nat
  frame : Nat
  count : Nat
deriving DecidableEq, Repr

/-- Whether a tagged operation has touched a word of a frame, or a hart waits at one (R86). -/
def State.touchedFrame (s : State) (c base n : Nat) : Bool :=
  (List.range (n / 16384)).any (fun i => SMap.get false (s.ctx c).tagged (base / 16384 + i)) ||
    s.held.any (fun r => base ≤ r.pa && r.pa < base + n) ||
    (s.tilesOf c).any (fun t => [false, true].any (fun m => match (s.hart ⟨t, m⟩).run with
      | .waiting (.barr pa _ _ _) => base ≤ pa && pa < base + n
      | _ => false))

/-- The pages of a tier that the barrow considers. -/
def State.barrowPages (s : State) (c tier : Nat) : List BarrowPage :=
  let x := s.ctx c
  (s.leaves c).filterMap (fun p =>
    let e := p.2.2; let f := frameOf e
    if field e 59 3 = tier && field e 57 2 ≤ 1 && !e.getLsbD 55 && !e.getLsbD 54 && !e.getLsbD 13 && !x.inMove p.1 &&
        !(s.ctxs.any (fun q => q.2.installs.any (fun i => i.code.isNone && i.frames.any (meets f)))) &&
        !s.touchedFrame c f.1 f.2 then
      some { va := p.1, code := field e 57 2, frame := f.1, count := SMap.get 0 x.hot (f.1 / 16384) }
    else none)

/-- Whether a move is to take a frame. -/
def State.targeted (s : State) (f : Nat) : Bool :=
  s.ctxs.any (fun p => p.2.moves.any (fun m => m.pages.any (fun q => q.2.2.1 = some f)))

/-- The frames of a pool that no move is to take. -/
def State.freeFrames (s : State) (c pa : Nat) : State × List Nat :=
  let r := s.pool c pa
  (r.1, r.2.filter (fun f => !r.1.targeted f))

/-- Promotes pages in turn: into a free frame of the right size, else by an exchange with the coldest page of that size
below the demotion threshold. `n` promotions are left on the chip. -/
def State.promote (s : State) (c : Nat) : List BarrowPage → List BarrowPage → List Nat → Nat → State
  | [], _, _, _ => s
  | _, _, _, 0 => s
  | p :: r, cold, free, n + 1 =>
    let count (s : State) : State := s.modDev (fun d => { d with barrow := (d.barrow.1, d.barrow.2 + 1) })
    let move (l : List (Nat × Nat × Option Nat × Nat)) : State := count (s.addMove c { pages := l, since := s.clk, barrow := true })
    match free.find? (fun f => poolSize f = p.code) with
    | some f => State.promote (move [(p.va, p.code, some f, 0)]) c r cold (dropFirst (· = f) free) n
    | none =>
      match sortBy (fun (a b : BarrowPage) => a.count < b.count) (cold.filter (fun x => x.code = p.code)) with
      | [] => State.promote s c r cold free (n + 1)
      | x :: _ =>
        State.promote (move [(p.va, p.code, some x.frame, 0), (x.va, x.code, some p.frame, 1)]) c r
          (cold.filter (fun y => y.va ≠ x.va)) free n

/-- Demotes cold pages into free frames of the D pool until the S pool will hold the low-water mark: `have` frames so far. -/
def State.demote (s : State) (c : Nat) : List BarrowPage → List Nat → Nat → State
  | [], _, _ => s
  | p :: r, free, k =>
    if (s.ctx c).cfg.lowater ≤ k then s
    else if (s.ctx c).inMove p.va then State.demote s c r free k
    else match free.find? (fun f => poolSize f = p.code) with
      | none => State.demote s c r free k
      | some f =>
        State.demote (s.addMove c { pages := [(p.va, p.code, some f, 1)], since := s.clk, barrow := true }) c r
          (dropFirst (· = f) free) (k + 1)

/-- Frames that demotions under way will give to the S pool. -/
def Context.comingFrames (x : Context) : Nat :=
  (x.moves.filter (fun m => m.barrow && (match m.pages with | [p] => p.2.2.2 = 1 | _ => false))).length

/-- What the barrow does for a context at the end of an epoch. The pages that it demotes are the coldest first, with no threshold of their
own: R340 does not say which they are (DESIGN CHOICE, log entry 77). -/
def State.barrow (s : State) (c : Nat) : State :=
  let cfg := (s.ctx c).cfg; let set := s.dev.settings
  let s := s.readTables c
  let a := s.freeFrames c cfg.spool
  let hot := sortBy (fun (a b : BarrowPage) => b.count < a.count) ((a.1.barrowPages c 1).filter (fun p => set.promote ≤ p.count))
  let cold := (a.1.barrowPages c 0).filter (fun p => p.count < set.demote)
  let s := a.1.promote c hot cold a.2 (set.perEpoch - s.dev.barrow.2)
  let f := s.freeFrames c cfg.spool
  let d := f.1.freeFrames c cfg.dpool
  d.1.demote c (sortBy (fun (a b : BarrowPage) => a.count < b.count) (d.1.barrowPages c 0)) d.2
    (f.2.length + (d.1.ctx c).comingFrames)

/-- The end of an epoch of 2^20 clk. -/
def execBarrowEpoch (c : Nat) (s : State) : Host.Outcome State Fault Refusal :=
  let x := s.ctx c
  let now := s.clk / 2 ^ 20
  if !x.live || now ≤ x.barrowAt then .next s
  else
    let s := s.modDev (fun d => { d with barrow := if d.barrow.1 = now then d.barrow else (now, 0) })
    let s := if x.cfg.spool = 0 || x.cfg.dpool = 0 then s else s.barrow c
    .next (s.modCtx c (fun x => { x with hot := [], barrowAt := now }))

/-! ## Installing weights (R343 to R347) -/

/-- The words of an install descriptor as the engine reads them; one that is absent reads as zero. -/
def State.descriptorWords (s : State) (c va : Nat) : List Nat := (s.virtWords c va 4).map (·.getD 0)

/-- The frames of n bytes from a virtual address, page by page, where every page is a fitted one of tier D that is not compressed; none
else. Neighbouring parts of one frame are one. -/
def State.sourceFrames (s : State) (c : Nat) : Nat → Nat → Nat → Option (List (Nat × Nat))
  | 0, _, _ => none
  | k + 1, va, n =>
    match s.leafAt c va with
    | none => none
    | some l =>
      let m := min n (2 ^ l.size - va % 2 ^ l.size)
      if l.tier ≠ 1 || !s.fitted l.pa || !s.fitted (l.pa + m - 1) then none
      else if n ≤ m then some [(l.pa, m)]
      else (State.sourceFrames s c k (va + m) (n - m)).map (fun r => (l.pa, m) :: r)

/-- The bytes of some frames in order, by offset from the first. -/
def State.framesImage (s : State) : Nat → List (Nat × Nat) → SMap Byte
  | _, [] => []
  | off, f :: r => (s.cellsOf f.1 f.2).map (fun p => (off + p.1, p.2)) ++ State.framesImage s (off + f.2) r

/-- An install descriptor, or none where it is malformed: its source and target frames too (R344, R345). The source is resident: its
pages are of tier D, and fitted (R342; log entry 116). -/
def State.descriptor (s : State) (c va : Nat) : Option Install :=
  if va % 32 ≠ 0 || (s.virtWords c va 4).any (·.isNone) then none
  else
    let d : BitVec 256 := BitVec.ofNat 256 (joinWords (s.descriptorWords c va))
    let src := field d 0 52; let dst := field d 64 52; let done := field d 128 64
    if anySet d [(52, 12), (116, 12), (192, 64)] || src % 0x200000 ≠ 0 || dst % 0x200000 ≠ 0 || done % 8 ≠ 0 ||
        2 ^ 52 ≤ done then none
    else match s.sourceFrames c 128 src 0x200000, s.pageLeaf c dst with
      | some a, some b =>
        let word : Bool := done = 0 || (match s.leafAt c done with | some l => l.writable && decide (l.tier = 0) | none => false)
        if b.tier = 2 && word then
          some { src := src, dst := dst, done := done, frames := a, dstPa := b.pa, image := s.framesImage 0 a }
        else none
      | _, _ => none

/-- An install ends: its completion word is filled where the descriptor names one of tier S, tli advances, the log and a
host request get the result (R345, R346). -/
def State.endInstall (s : State) (c pe code src dst done : Nat) (request : Option (Nat × BitVec 32)) : State :=
  let k := (s.ctx c).tli + 1
  let v := pe * 2 ^ 48 + k % 2 ^ 32 * 2 ^ 8 + code
  let s := if done = 0 || (s.ctx c).st = .tornDown then s else s.fillAt c done v
  let s := s.modCtx c (fun x =>
    { x with tli := k, installLog := (x.installLog ++ [({ num := k, pe := pe, code := code, dst := dst, src := src } : InstallLog)]).drop
                         (x.installLog.length + 1 - 256) })
  let s := if code = 0 then s else s.setTlerrAll c 5
  request.toList.foldl (fun (s : State) p => s.complete p.1 0x14 p.2 0 (BitVec.ofNat 64 v)) s

/-- An install that is not accepted ends at once, or once the page of its completion word has stopped moving (R338). -/
def State.refuseInstall (s : State) (c : Nat) (i : Install) (code : Nat) : State :=
  if s.wordMoving c i.done then
    (s.modCtx c (fun x => { x with installs := x.installs ++ [{ i with code := some code }] })).later
      (.installComplete c ⟨0, false, false, false⟩)
  else s.endInstall c 0 code i.src i.dst i.done i.request

/-- The engine takes a descriptor: malformed, over budget, or accepted. -/
def State.acceptInstall (s : State) (c va : Nat) (request : Option (Nat × BitVec 32)) : State :=
  let s := if va % 32 = 0 then s.touchVirt c va 32 else s
  let w := s.descriptorWords c va
  let s := if va % 32 = 0 then (w.take 3).foldl (fun (s : State) a => s.deviceWalk c (a % 2 ^ 52)) s else s
  let src := nth 0 w 0 % 2 ^ 52
  let s := match s.leafAt c src with
    | some l => if va % 32 = 0 && decide (l.size < 21) then s.walkSpan c 128 (src + 2 ^ l.size) (0x200000 - 2 ^ l.size) else s
    | none => s
  match s.descriptor c va with
  | none =>
    let done := nth 0 w 2
    s.refuseInstall c { src := nth 0 w 0 % 2 ^ 52, dst := nth 0 w 1 % 2 ^ 52,
                        done := if done % 8 = 0 && done < 2 ^ 52 then done else 0, frames := [], dstPa := 0, request := request } 6
  | some i =>
    if (s.ctx c).cfg.wfbudget = 0 then s.refuseInstall c { i with request := request } 1
    else
      let stamp := (s.ctxs.flatMap (fun p => p.2.installs.map (·.stamp))).foldl max 0 + 1
      s.modCtx c (fun x => { x with cfg := { x.cfg with wfbudget := x.cfg.wfbudget - 1 },
                                    installs := x.installs ++ [{ i with request := request, stamp := stamp }] })

/-- Accepted installs of a context that have not completed. -/
def Context.accepted (x : Context) : Nat := (x.installs.filter (fun i => i.code.isNone)).length

/-- The engine takes the mailbox as an `ldt` would, while it holds fewer than four installs of the context. -/
def execInstallTakeMailbox (c : Nat) (s : State) : Host.Outcome State Fault Refusal :=
  let x := s.ctx c
  let s := if x.live && x.cfg.wfmbox ≠ 0 then s.deviceWalk c x.cfg.wfmbox else s
  match s.leafAt c x.cfg.wfmbox with
  | none => .next s
  | some l =>
    if !x.live || x.cfg.wfmbox = 0 || l.tier ≠ 0 || 4 ≤ x.accepted || !s.isFull l.pa || s.wordMoving c x.cfg.wfmbox then
      .next s
    else
      let v := s.directRead c l 8
      let s := ((v.1.setFull l.pa false).homeScan l.pa).markTagged c l
      .next (s.acceptInstall c v.2 none)

def execInstallWeights (r : Request) (s : State) : Host.Outcome State Fault Refusal :=
  let c := r.ctx.toNat
  runOnContext 0x14 r Context.live (fun n s =>
    if 4 ≤ (s.ctx c).accepted then s.answer 8
    else if 2 ^ 52 ≤ (r.word 1).toNat then (s.endInstall c 0 6 0 0 0 (some (n, r.tag)), none)
    else (s.acceptInstall c (r.word 1).toNat (some (n, r.tag)), none)) s

/-- The bytes programmed: those of the source at acceptance; a 64-bit word written since is old or new (R347). -/
def mixImage (old new : SMap Byte) : List Nat → Nat → SMap Byte → SMap Byte
  | [], _, acc => acc
  | w :: r, n, acc =>
    let pick := if (Config.freeWord n).getLsbD 0 then new else old
    mixImage old new r (n + 1) ((List.range 8).foldl (fun (m : SMap Byte) i =>
      SMap.set unlisted m (8 * w + i) (SMap.get unlisted pick (8 * w + i))) acc)

/-- Words in which two images differ. -/
def changedWords (a b : SMap Byte) : List Nat :=
  (((a ++ b).filter (fun p => SMap.get unlisted a p.1 ≠ SMap.get unlisted b p.1)).map (fun p => p.1 / 8)).eraseDups

/-! ## Flash (R345, R346, R383) -/

/-- Erase units of a flash stack (R383). -/
def stackUnits : Nat := 8192

/-- The flash stack of a 2 MiB region of tier F: 512 GiB each, in address order (the manual does not give the order; log entry 109). -/
def regionStack (region : Nat) : Nat := region / 0x40000

/-- A unit is retired: it takes no slot any more. -/
def Device.retireUnit (d : Device) (u : Nat) : Device :=
  { d with wornUnits := SMap.set false d.wornUnits u true, openUnits := d.openUnits.filter (fun p => p.2 ≠ u) }

/-- A unit that has been programmed and holds no live slot is erased: one more program/erase cycle; at 5,000 it is retired. -/
def Device.eraseIdle (d : Device) (u : Nat) : Device :=
  if SMap.get 0 d.usedSlots u = 0 || d.regionUnit.any (fun p => p.2 = u) || SMap.get false d.wornUnits u then d
  else
    let n := SMap.get 0 d.pe u + 1
    let d := { d with pe := SMap.set 0 d.pe u n, usedSlots := SMap.set 0 d.usedSlots u 0 }
    if 5000 ≤ n then d.retireUnit u else d

/-- A slot of a unit is programmed, which is then its stack's open unit. -/
def Device.program (d : Device) (u : Nat) : Device :=
  { d with openUnits := SMap.put d.openUnits (u / stackUnits) u,
           usedSlots := SMap.set 0 d.usedSlots u (SMap.get 0 d.usedSlots u + 1) }

/-- The region's slot is now in unit u; the slot that held it is free. -/
def Device.commitSlot (d : Device) (region u : Nat) : Device :=
  let old := SMap.find? d.regionUnit region
  let d := { d with regionUnit := SMap.put d.regionUnit region u }
  match old with
  | none => d
  | some o => if o = u then d else d.eraseIdle o

/-- Slots of an erase unit: 64 MiB of 2 MiB each (R24). -/
def unitSlots : Nat := 32

/-- Whether a unit of the flash holds an erased slot. -/
def Device.hasErased (d : Device) (u : Nat) : Bool := SMap.get 0 d.usedSlots u < unitSlots && !SMap.get false d.wornUnits u

/-- Whether a slot of a region is programmed in a unit: the open unit of the region's stack while that holds an erased slot, else
another unit of the stack that the flash opens (which one it opens the manual does not give; log entry 109). -/
def Device.takesSlot (d : Device) (region u : Nat) : Bool :=
  u / stackUnits = regionStack region && d.hasErased u &&
    (match SMap.find? d.openUnits (regionStack region) with
     | some o => o = u || !d.hasErased o
     | none => true)

/-- A region of tier F leaves the staging cache. -/
def Device.unstage (d : Device) (pa n : Nat) : Device :=
  { d with staged := d.staged.map (fun k => (k.1, k.2.filter (fun g => !(pa / 16384 ≤ g && g < (pa + n) / 16384)))) }

/-- The lines of an install's source whose reads the fabric has dropped are zeros; which they are is a free value (R355; log entry 91). -/
def State.dropLines (s : State) (c : Nat) (img : SMap Byte) : State × SMap Byte :=
  (List.range (s.ctx c).lostReads).foldl (fun (acc : State × SMap Byte) _ =>
    match acc.1.engineLoss c false with
    | none => acc
    | some s =>
      let w := s.free
      let a := w.1.toNat % 32768 * 64
      (w.2, acc.2.filter (fun p => !(a ≤ p.1 && p.1 < a + 64)))) (s, img)

/-- The lines of some frames, in order, at whose read the symbol code may have something to do: those with changed cells, and all where two
banks of the chip are erased (R88). -/
def State.codeLines (s : State) (frames : List (Nat × Nat)) : List Nat :=
  let flipped := (s.flips.map (fun p => p.1 / 18)).eraseDups
  let two : Bool := 2 ≤ (s.banks.filter (fun b => b.2.erased)).length
  frames.flatMap (fun f =>
    if two then (List.range ((f.2 + 63) / 64)).map (f.1 / 64 + ·) else flipped.filter (fun l => meets f (l * 64, 64)))

/-- Whether a read of a line finds it uncorrectable: in tier S as its code says, elsewhere at any change (R88, R89, R345). -/
def State.lineBad (s : State) (line : Nat) : Bool :=
  if tierOf (line * 64) = some 0 then (readOutcome (s.lineFlips line) (s.erasedBanks line)).isNone
  else (s.lineFlips line).any (· ≠ 0)

/-- The engine reads the source of an install, up to the first uncorrectable line: whether there is one, and what the reads did (R88, R89,
R345). -/
def State.readSource (s : State) (c : Nat) (frames : List (Nat × Nat)) : Bool × State :=
  let l := s.codeLines frames
  let bad := l.find? s.lineBad
  let read := match bad with
    | some x => l.takeWhile (· ≠ x) ++ [x]
    | none => l
  (bad.isSome, read.foldl (fun (s : State) x => s.touch (some c) x) s)

/-- Whether an install of another context that was accepted before one has the same target (R345). -/
def State.installBefore (s : State) (c : Nat) (i : Install) : Bool :=
  s.ctxs.any (fun p => p.1 ≠ c && p.2.installs.any (fun j => j.code.isNone && j.dstPa = i.dstPa && j.stamp < i.stamp))

/-- Whether a command is inside a chunk for which it holds a translation of the target of an install (R98, R347). -/
def State.targetInUse (s : State) (pa : Nat) : Bool := s.tiles.any (fun p => p.2.ctx.chunkPins pa 0x200000)

/-- Programming ends: the oldest install commits its target, or keeps its old contents, and completes (R345, R346). It waits for the chunks
that read the target (R347), and for an install of another context that was accepted before it for the same target. One whose source has
left the chip programs nothing and gets back the budget unit that its acceptance took: code 6 charges nothing (R346; log entry 116). -/
def execInstallComplete (c : Nat) (r : InstallEnd) (s : State) : Host.Outcome State Fault Refusal :=
  match (s.ctx c).installs with
  | [] => .next s
  | i :: rest =>
    let region := i.dstPa / 0x200000 - Config.tierFBase / 0x200000
    if s.wordMoving c i.done then .next (s.later (.installComplete c r))
    else match i.code with
      | some code =>
        .next ((s.modCtx c (fun x => { x with installs := rest })).endInstall c 0 code i.src i.dst i.done i.request)
      | none =>
        if i.frames.isEmpty then
          .next ((s.modCtx c (fun x => { x with installs := rest, cfg := { x.cfg with wfbudget := x.cfg.wfbudget + 1 } })).endInstall
            c 0 6 i.src i.dst i.done i.request)
        else if s.targetInUse i.dstPa || s.installBefore c i then .next (s.later (.installComplete c r))
        else if !s.dev.takesSlot region r.unit then .next s
        else
          let pe := SMap.get 0 s.dev.pe r.unit
          let s := s.modCtx c (fun x => { x with installs := rest })
          let s := s.modDev (fun d => d.program r.unit)
          let fin (s : State) (code : Nat) : State := s.endInstall c pe code i.src i.dst i.done i.request
          let fail (s : State) (code : Nat) : State := fin (s.modDev (fun d => d.eraseIdle r.unit)) code
          let read := s.readSource c i.frames
          let s := read.2
          if r.poisoned || read.1 then .next (fail s 5)
          else if r.powerFault then .next (fail s 4)
          else if !r.verified then
            if 4500 ≤ pe then .next (fin (s.modDev (fun d => d.retireUnit r.unit)) 2) else .next (fail s 3)
          else
            let now := s.framesImage 0 i.frames
            let words := changedWords i.image now
            let img := mixImage i.image now words s.fresh i.image
            let (s, img) := State.dropLines { s with fresh := s.fresh + words.length } c img
            let s := if s.fitted i.dstPa then s.setCells i.dstPa 0x200000 img else s.countUnmapped (some c) i.dstPa
            .next (fin (s.modDev (fun d => (d.commitSlot region r.unit).unstage i.dstPa 0x200000)) 0)

end Sys2Proof.Machine
end

