-- ==== Sys2Proof/Machine/Sign.lean ====
section
/-! DEFINITION. ML-DSA-87 signatures, which R24, R385 and R387 ask for: whether one verifies, and the device's own. The manual does not
give the functions, which are taken from FIPS 204 (PRESUMED, log entry 6). The message is the 64 bytes of a SHA3-512 digest, signed with the
empty context string. Polynomials are lists of 256 residues. -/

namespace Sys2Proof.Machine

/-- The modulus. -/
def dsaMod : Nat := 8380417

/-- Values of n bits, cut from bytes from the lowest bit on. -/
def cutBits (n count : Nat) (l : List Byte) : List Nat :=
  let v := laneOf l
  (List.range count).map (fun i => v / 2 ^ (n * i) % 2 ^ n)

/-- Pieces of n bytes. -/
def cutBytes (n count : Nat) (l : List Byte) : List (List Byte) := (List.range count).map (fun i => (l.drop (n * i)).take n)

/-! ## The transform -/

/-- The exponent of the point at place i: its eight bits reversed, doubled, plus 1. -/
def pointExponent (i : Nat) : Nat := (List.range 8).foldl (fun v k => 2 * v + i / 2 ^ k % 2) 0 * 2 + 1

/-- The 256 points at which a polynomial is evaluated, and their inverses: 1753 has order 512. -/
def dsaPoints : List Nat := (List.range 256).map (fun i => 1753 ^ pointExponent i % dsaMod)
def dsaInverses : List Nat := (List.range 256).map (fun i => 1753 ^ (512 - pointExponent i) % dsaMod)

/-- The values of a polynomial at the points. -/
def dsaValues (p : List Nat) : List Nat := dsaPoints.map (fun z => p.foldr (fun c v => (c + z * v) % dsaMod) 0)

/-- The first n coefficients of a polynomial, from what each point adds to the next one; 8347681 is the inverse of 256. -/
def dsaCoefficients : Nat → List (Nat × Nat) → List Nat
  | 0, _ => []
  | n + 1, l =>
    (8347681 * l.foldl (fun v p => v + p.1) 0) % dsaMod :: dsaCoefficients n (l.map (fun p => (p.1 * p.2 % dsaMod, p.2)))

/-- The polynomial that has some values at the points. -/
def dsaPolynomial (v : List Nat) : List Nat := dsaCoefficients 256 (v.zip dsaInverses)

/-! ## What is sampled -/

/-- An entry of the public matrix, as values at the points: candidates of 23 bits below the modulus. Six blocks hold enough of them but
for a chance that FIPS 204 lets an implementation leave out. -/
def matrixEntry (seed : List Byte) (row col : Nat) : List Nat :=
  let l := shake128 6 (seed ++ [BitVec.ofNat 8 col, BitVec.ofNat 8 row])
  (((cutBits 24 336 l).map (· % 2 ^ 23)).filter (· < dsaMod)).take 256

/-- Places the 60 coefficients 1 or -1 of a challenge: for each place from 196 on the next byte that is not past it says which
coefficient moves there, and a bit of `signs` what takes its place. -/
def placeSigns (signs : Nat) : List Byte → Nat → List Nat → List Nat
  | [], _, c => c
  | b :: r, i, c =>
    if 256 ≤ i then c
    else if i < b.toNat then placeSigns signs r i c
    else
      let unit := if signs.testBit (i - 196) then dsaMod - 1 else 1
      placeSigns signs r (i + 1) (setNth (setNth c i (nth 0 c b.toNat)) b.toNat unit)

/-- The challenge that a signature's first 64 bytes name. -/
def challenge (l : List Byte) : List Nat :=
  let b := shake256 3 l
  placeSigns (laneOf (b.take 8)) (b.drop 8) 196 (List.replicate 256 0)

/-! ## Hints -/

/-- The places of one polynomial's hints among those of all: none where they do not rise. -/
def hintRow (y : List Nat) (first last : Nat) : Option (List Nat) :=
  let l := (y.drop first).take (last - first)
  if last < first || 75 < last || (l.zip (l.drop 1)).any (fun p => p.2 ≤ p.1) then none else some l

/-- The hints of the eight polynomials: 75 places, then where each polynomial's end; places past the last are zero. -/
def hints (y : List Nat) : Option (List (List Nat)) :=
  let ends := 0 :: y.drop 75
  if ((y.take 75).drop (nth 0 ends 8)).any (· ≠ 0) then none
  else (List.range 8).mapM (fun i => hintRow y (nth 0 ends i) (nth 0 ends (i + 1)))

/-- The high part of a residue, by multiples of 523776, moved by a hint toward where its low part points. -/
def highPart (hint : Bool) (r : Nat) : Nat :=
  let low := r % 523776
  let up : Bool := 261888 < low
  let high := (r / 523776 + (if up then 1 else 0)) % 16
  if !hint then high else if 0 < low && !up then (high + 1) % 16 else (high + 15) % 16

/-- The low part of a residue, as a residue: what the high part leaves. -/
def lowPart (r : Nat) : Nat := (r + dsaMod * 16 - highPart false r * 523776) % dsaMod

/-- How far a residue lies from zero. -/
def residueSize (v : Nat) : Nat := min v (dsaMod - v)

/-- Two values of four bits to a byte. -/
def packNibbles : List Nat → List Byte
  | a :: b :: r => BitVec.ofNat 8 (a + 16 * b) :: packNibbles r
  | _ => []

/-! ## Vectors of values -/

/-- What a message is signed as: the hash of a key, the empty context string and the digest. -/
def messageHash (key : List Byte) (digest : BitVec 512) : List Byte :=
  let bytes := (List.range 64).map (fun i => digest.extractLsb' (8 * i) 8)
  (shake256 1 ((shake256 1 key).take 64 ++ ([0, 0] : List Byte) ++ bytes)).take 64

/-- Row i of the public matrix times a vector of seven polynomials, as values at the points. -/
def matrixRow (seed : List Byte) (z : List (List Nat)) (i : Nat) : List Nat :=
  let products := (List.range 7).map (fun j => (matrixEntry seed i j).zipWith (· * ·) (nth [] z j))
  (products.foldl (fun a p => a.zipWith (· + ·) p) (List.replicate 256 0)).map (· % dsaMod)

/-- The challenge that a message hash and the high parts of eight polynomials give. -/
def challengeHash (mu : List Byte) (high : List (List Nat)) : List Byte := (shake256 1 (mu ++ high.flatMap packNibbles)).take 64

/-! ## Verification -/

/-- Whether a signature over a digest verifies under a public key of 2,592 bytes: a seed of 32, and eight polynomials of coefficients
of 10 bits. A signature is a challenge of 64 bytes, seven polynomials of coefficients of 20 bits, and 83 bytes of hints. -/
def signatureOk (key : List Byte) (digest : BitVec 512) (signature : List Byte) : Bool :=
  let seed := key.take 32
  let tops := (cutBytes 320 8 (key.drop 32)).map (fun l => (cutBits 10 256 l).map (· * 2 ^ 13))
  let raw := (cutBytes 640 7 (signature.drop 64)).map (cutBits 20 256)
  let answers := raw.map (fun p => p.map (fun v => (dsaMod + 2 ^ 19 - v) % dsaMod))
  match hints ((signature.drop 4544).map (·.toNat)) with
  | none => false
  | some h =>
    let c := dsaValues (challenge (signature.take 64))
    let z := answers.map dsaValues
    let row (i : Nat) : List Nat :=
      let taken := c.zipWith (· * ·) (dsaValues (nth [] tops i))
      let approx := dsaPolynomial ((matrixRow seed z i).zipWith (fun a b => (a + dsaMod * dsaMod - b) % dsaMod) taken)
      (approx.zip (List.range 256)).map (fun p => highPart ((nth [] h i).contains p.2) p.1)
    key.length = 2592 && signature.length = 4627 &&
      raw.all (fun p => p.all (fun v => 120 < v && v < 2 ^ 20 - 120)) &&
      challengeHash (messageHash key digest) ((List.range 8).map row) = signature.take 64

/-! ## Keys -/

/-- A polynomial of the secret key: its coefficients are -2 to 2, from half bytes below 15. Four blocks hold enough of them but for a
chance that FIPS 204 lets an implementation leave out. -/
def secretPoly (seed : List Byte) (n : Nat) : List Nat :=
  (((cutBits 4 1088 (shake256 4 (seed ++ [BitVec.ofNat 8 n, BitVec.ofNat 8 (n / 256)]))).filter (· < 15)).map
    (fun b => (dsaMod + 2 - b % 5) % dsaMod)).take 256

/-- A key pair: the seed of the matrix, the seed of the masks, the two secret vectors, and the low and high parts of the public one. -/
structure KeyPair where
  rho : List Byte
  mask : List Byte
  s1 : List (List Nat)
  s2 : List (List Nat)
  t0 : List (List Nat)
  t1 : List (List Nat)

/-- The key pair of a seed of 32 bytes. -/
def keyPair (seed : List Byte) : KeyPair :=
  let h := shake256 1 (seed ++ ([8, 7] : List Byte))
  let rho := h.take 32; let secret := (h.drop 32).take 64
  let s1 := (List.range 7).map (secretPoly secret)
  let s2 := (List.range 8).map (fun i => secretPoly secret (7 + i))
  let z := s1.map dsaValues
  let t := (List.range 8).map (fun i =>
    (dsaPolynomial (matrixRow rho z i)).zipWith (fun a b => (a + b) % dsaMod) (nth [] s2 i))
  { rho := rho, mask := (h.drop 96).take 32, s1 := s1, s2 := s2
    t0 := t.map (fun p => p.map (fun v => (v + dsaMod - (v + 4095) / 8192 * 8192) % dsaMod))
    t1 := t.map (fun p => p.map (fun v => (v + 4095) / 8192)) }

/-- Bytes of some values of n bits, the first lowest. -/
def packBits (n : Nat) (l : List Nat) : List Byte :=
  let v := l.foldr (fun x acc => x % 2 ^ n + 2 ^ n * acc) 0
  (List.range (n * l.length / 8)).map (fun i => BitVec.ofNat 8 (v / 256 ^ i))

/-- The public key of 2,592 bytes. -/
def KeyPair.publicKey (k : KeyPair) : List Byte := k.rho ++ k.t1.flatMap (packBits 10)

/-! ## Signing -/

/-- A polynomial of a mask: values within 2^19 of zero. -/
def maskPoly (seed : List Byte) (n : Nat) : List Nat :=
  (cutBits 20 256 (shake256 5 (seed ++ [BitVec.ofNat 8 n, BitVec.ofNat 8 (n / 256)]))).map (fun v => (dsaMod + 2 ^ 19 - v) % dsaMod)

/-- The hints of eight polynomials: the places where one is set, padded to 75, then where each polynomial's end. -/
def packHints (h : List (List Nat)) : List Byte :=
  let places := h.flatten
  let ends := (List.range 8).map (fun i => ((h.take (i + 1)).map (·.length)).sum)
  (places ++ List.replicate (75 - places.length) 0 ++ ends).map (BitVec.ofNat 8)

/-- One attempt at a signature from a mask: none where a part of it would show the secret, or there are too many hints. -/
def KeyPair.attempt (k : KeyPair) (mu : List Byte) (mask : List (List Nat)) : Option (List Byte) :=
  let y := mask.map dsaValues
  let w := (List.range 8).map (fun i => dsaPolynomial (matrixRow k.rho y i))
  let head := challengeHash mu (w.map (fun p => p.map (highPart false)))
  let c := dsaValues (challenge head)
  let times (p : List Nat) : List Nat := dsaPolynomial (c.zipWith (fun a b => a * b % dsaMod) (dsaValues p))
  let z := mask.zipWith (fun a b => a.zipWith (fun u v => (u + v) % dsaMod) (times b)) k.s1
  let r := w.zipWith (fun a b => a.zipWith (fun u v => (u + dsaMod - v) % dsaMod) (times b)) k.s2
  let ct0 := k.t0.map times
  let hint := r.zipWith (fun a b => (((a.zip b).zip (List.range 256)).filter (fun p =>
    highPart false p.1.1 ≠ highPart false ((p.1.1 + p.1.2) % dsaMod))).map (·.2)) ct0
  if z.any (fun p => p.any (fun v => 2 ^ 19 - 120 ≤ residueSize v)) ||
      r.any (fun p => p.any (fun v => 261888 - 120 ≤ residueSize (lowPart v))) ||
      ct0.any (fun p => p.any (fun v => 261888 ≤ residueSize v)) || 75 < (hint.map (·.length)).sum then none
  else some (head ++ z.flatMap (fun p => packBits 20 (p.map (fun v => (dsaMod + 2 ^ 19 - v) % dsaMod))) ++ packHints hint)

/-- Attempts with the masks from number n on. -/
def KeyPair.attempts (k : KeyPair) (mu seed : List Byte) : Nat → Nat → List Byte
  | 0, _ => []
  | m + 1, n =>
    match k.attempt mu ((List.range 7).map (fun i => maskPoly seed (n + i))) with
    | some l => l
    | none => KeyPair.attempts k mu seed m (n + 7)

/-- The signature of a digest, with the 32 bytes that a signer draws for it. FIPS 204 lets an implementation give up after 814
attempts. -/
def KeyPair.sign (k : KeyPair) (draw : List Byte) (digest : BitVec 512) : List Byte :=
  let mu := messageHash k.publicKey digest
  k.attempts mu ((shake256 1 (k.mask ++ draw ++ mu)).take 64) 814 0

end Sys2Proof.Machine
end

