-- ==== Sys2Proof/Machine/Device.lean ====
section
/-! DEFINITION. The host's windows and registers, the requests of device management, boot, reset and power, the scrubber,
the rebuild of retired banks and power gating (R84, R89 to R91, R188, R189, R204, R376 to R390). -/

namespace Sys2Proof.Machine

/-! ## The host's windows (R376) -/

/-- The physical address that an offset of BAR 2 or BAR 4 reaches; none past the window. -/
def State.windowAddress (s : State) (a : BarAccess) : Option Nat :=
  match a.bar with
  | .bar0 => none
  | .bar2 => if a.off + a.len ≤ Config.tierSEnd then some a.off else none
  | .bar4 => if a.off + a.len ≤ 2 ^ 32 then some (field s.dev.apbase 32 22 * 2 ^ 32 + a.off) else none

/-- n bytes cut at 64-bit words: address and length of each part, at most k parts. -/
def wordParts : Nat → Nat → Nat → List (Nat × Nat)
  | 0, _, _ => []
  | k + 1, pa, n =>
    if n = 0 then []
    else
      let m := min n (8 - pa % 8)
      (pa, m) :: wordParts k (pa + m) (n - m)

/-- Whether a host write of a byte reaches memory: tier F takes none (R376). -/
def State.takesWrite (s : State) (pa : Nat) : Bool := s.fitted pa && tierOf pa ≠ some 2

/-- A host write: each part is performed at its home; the access is counted once where a part reaches nothing (R79). -/
def State.hostWrite (s : State) (pa : Nat) (l : List Byte) : State :=
  let parts := wordParts (l.length + 1) pa l.length
  let s := if parts.all (fun p => s.takesWrite p.1) then s else s.countUnmapped none pa
  parts.foldl (fun (s : State) p =>
    if s.takesWrite p.1 then s.homeWrite none p.1 p.2 (bytesValue ((l.drop (p.1 - pa)).take p.2)) none else s) s

/-- Whether a host read of a byte reaches memory (R79, R342). -/
def State.givesRead (s : State) (pa : Nat) : Bool := s.fitted pa && !(tierOf pa = some 2 && s.dev.fittedD = 0)

/-- A host read: a part that reaches nothing reads zero, and the access is counted once (R79). -/
def State.hostFetch (s : State) (pa n : Nat) : State × List Byte :=
  let parts := wordParts (n + 1) pa n
  let s := if parts.all (fun p => s.givesRead p.1) then s else s.countUnmapped none pa
  parts.foldl (fun (acc : State × List Byte) p =>
    if acc.1.givesRead p.1 then
      let (s, v) := acc.1.homeRead none p.1 p.2
      (s, acc.2 ++ bytesOf v p.2)
    else (acc.1, acc.2 ++ bytesOf 0 p.2)) (s, [])

/-! ## Device registers (R376, R377, R383) -/

/-- What a write at an offset of a ring's registers stores: the value, but for `rqbase`, `rqsize` and `cqbase` while requests are
left, and for `rqhead`, which is read-only (R6, R377). -/
def Ring.write (r : Ring) (off : Nat) (v : Word) : Ring :=
  let idle : Bool := r.rqhead = r.rqtail
  if off = 0x00 then (if idle then { r with rqbase := v } else r)
  else if off = 0x08 then (if idle then { r with rqsize := v } else r)
  else if off = 0x10 then { r with rqtail := v }
  else if off = 0x20 then (if idle then { r with cqbase := v } else r)
  else if off = 0x28 then { r with cqvec := v }
  else r

/-- A ring's register at an offset. -/
def Ring.read (r : Ring) (off : Nat) : Option Word :=
  if off = 0x00 then some r.rqbase
  else if off = 0x08 then some r.rqsize
  else if off = 0x10 then some r.rqtail
  else if off = 0x18 then some r.rqhead
  else if off = 0x20 then some r.cqbase
  else if off = 0x28 then some r.cqvec
  else none

/-- The ring whose registers hold an offset of BAR 0, and the offset among them. -/
def ringOffset (off : Nat) : Option (Nat × Nat) :=
  if 0x1000 ≤ off && off < 0x1000 + 0x40 * 16 then some ((off - 0x1000) / 0x40, (off - 0x1000) % 0x40) else none

/-- A write of a register of BAR 0. -/
def State.writeRegister (s : State) (off : Nat) (v : Word) : State :=
  if off = 0x10 then s.modDev (fun d => { d with apbase := BitVec.ofNat 64 (field v 32 22 * 2 ^ 32) })
  else match ringOffset off with
    | some (n, o) => s.setRing n ((s.ring n).write o v)
    | none => s

/-- A register of BAR 0 whose place the manual gives: `devready`, `apbase`, the rings'. -/
def State.readRegister (s : State) (off : Nat) : Option Word :=
  if off = 0x08 then some (if s.dev.ready then 1 else 0)
  else if off = 0x10 then some s.dev.apbase
  else match ringOffset off with
    | some (n, o) => (s.ring n).read o
    | none => none

def execDeviceRegisterWrite (offset : Nat) (v : Word) (s : State) : Host.Outcome State Fault Refusal :=
  .next (if s.dev.power = .recovery then s else s.writeRegister offset v)

/-- The doorbell of a ring. -/
def execRqtailDoorbell (ring tail : Nat) (s : State) : Host.Outcome State Fault Refusal :=
  .next (if 16 ≤ ring || s.dev.power = .recovery then s
         else s.setRing ring ((s.ring ring).write 0x10 (BitVec.ofNat 64 tail)))

/-- What a read of a register gives: identity, power and error-log registers, whose places the manual does not give, are free values;
in recovery no others answer (R385; log entry 90). -/
def State.fetchRegister (s : State) (off : Nat) : State × Word :=
  match (if s.dev.power = .recovery then none else s.readRegister off) with
  | some v => (s, v)
  | none => ({ s with fresh := s.fresh + 1 }, Config.registerValue off s.fresh)

/-- A host read of BAR 0: the bytes of the registers that it covers. -/
def State.fetchBar0 (s : State) (off n : Nat) : State × List Byte :=
  let r := (List.range ((off % 8 + n + 7) / 8)).foldl (fun (acc : State × List Byte) i =>
    let x := acc.1.fetchRegister (off / 8 * 8 + 8 * i)
    (x.1, acc.2 ++ bytesOf x.2.toNat 8)) (s, [])
  (r.1, (r.2.drop (off % 8)).take n)

/-- A host write of BAR 0: each part of a register that it covers takes its bytes. -/
def State.writeBar0 (s : State) (off : Nat) (l : List Byte) : State :=
  (wordParts (l.length + 1) off l.length).foldl (fun (s : State) p =>
    let reg := p.1 / 8 * 8
    match s.readRegister reg with
    | none => s
    | some v =>
      let old := bytesOf v.toNat 8
      let new := old.take (p.1 - reg) ++ (l.drop (p.1 - off)).take p.2 ++ old.drop (p.1 - reg + p.2)
      s.writeRegister reg (BitVec.ofNat 64 (bytesValue new))) s

/-- A host access through a window; past its end, and but for BAR 0 in a device in recovery, nothing answers (R376, R385). -/
def execHostBarAccess (a : BarAccess) (s : State) : Host.Outcome State Fault Refusal :=
  let gave (r : State × List Byte) : Host.Outcome State Fault Refusal := .next (r.1.modDev (fun d => { d with barData := r.2 }))
  if a.bar = .bar0 then
    if 2 ^ 20 < a.off + a.len then .next s
    else match a.data with
      | some l => .next (if s.dev.power = .recovery then s else s.writeBar0 a.off (l.take a.len))
      | none => gave (s.fetchBar0 a.off a.len)
  else match s.dev.power, s.windowAddress a with
    | .recovery, _ => .next s
    | _, none => .next s
    | _, some pa =>
      match a.data with
      | some l => .next (s.hostWrite pa (l.take a.len))
      | none => gave (s.hostFetch pa a.len)

/-! ## Fabric domains (R188, R189, R382) -/

/-- The member list of a request: serials and contexts; none where a field is out of range or a reserved bit is set. -/
def State.memberList (s : State) (a : Word) : Option (List (Word × Nat)) :=
  let n := s.hostWord a 0
  let at' (i : Nat) : Word × Word := (s.hostWord a (1 + 2 * i), s.hostWord a (2 + 2 * i))
  if a.toNat % 8 ≠ 0 || n = 0 || 128 < n.toNat then none
  else
    let l := (List.range n.toNat).map at'
    if l.any (fun p => 64 ≤ p.2.toNat) then none else some (l.map (fun p => (p.1, p.2.toNat)))

def execRegisterDomain (r : Request) (s : State) : Host.Outcome State Fault Refusal :=
  let c := r.ctx.toNat
  runOnContext 0x0C r Context.live (fun _ s =>
    let d := (r.word 1).toNat
    match s.memberList (r.word 2) with
    | none => s.answer 1
    | some l =>
      let me := l.filter (fun p => p.1 = s.dev.serial)
      let serials := l.map (·.1)
      if d = 0 || 2 ^ 16 ≤ d || me ≠ [(s.dev.serial, c)] || serials.eraseDups ≠ serials then s.answer 1
      else if serials.any (fun x => x ≠ s.dev.serial && !s.dev.chips.any (fun p => p.1 = x && !p.2.isEmpty)) then s.answer 3
      else if (s.ctx c).domains.any (fun x => x.id.toNat = d) then s.answer 2
      else (s.modCtx c (fun x => { x with domains := x.domains ++ [{ id := BitVec.ofNat 16 d, members := l }] })).answer 0) s

def execWithdrawDomain (r : Request) (s : State) : Host.Outcome State Fault Refusal :=
  let c := r.ctx.toNat
  runOnContext 0x0D r Context.live (fun _ s =>
    let d := (r.word 1).toNat
    if d = 0 || 2 ^ 16 ≤ d then s.answer 1
    else (s.modCtx c (fun x => { x with domains := x.domains.filter (fun y => y.id.toNat ≠ d) })).answer 0) s

/-! ## Reads (R381, R383) -/

/-- A link's entry of the link table. -/
def State.linkEntry (s : State) (l : Link) : List Nat :=
  let x := s.link l
  let code := match x.st with
    | .down => 0 | .training => 1 | .up => 2 | .degraded => 3 | .draining => 4 | .retired => 5 | .failed => 6
  [linkNumber l + code * 2 ^ 16 + min x.replays (2 ^ 32 - 1) * 2 ^ 32, x.dropped]

/-- The program/erase counts, four to a word: eight stacks of 8,192 units; a retired unit reads 0xFFFF. -/
def State.peWords (s : State) : List Nat :=
  let one (u : Nat) : Nat := if SMap.get false s.dev.wornUnits u then 0xFFFF else SMap.get 0 s.dev.pe u % 2 ^ 16
  (List.range 16384).map (fun i => one (4 * i) + one (4 * i + 1) * 2 ^ 16 + one (4 * i + 2) * 2 ^ 32 + one (4 * i + 3) * 2 ^ 48)

/-- The device counters, and each bank's. -/
def State.counterWords (s : State) : List Nat :=
  let d := s.dev
  [d.unmapped, d.droppedSignals, d.faultsDropped, d.packetsDropped, d.lostInstalls, d.retiredBanks, d.logOverflows] ++
    (List.range (512 * 4 * 18)).map (fun b => (s.bank b).corrected + (s.bank b).uncorrectable * 2 ^ 32)

/-- Whether a kernel has begun to run and not retired. -/
def Kernel.begun (k : Kernel) : Bool := k.st = .running || k.st = .draining || k.st = .faulted

/-- The counters of the running kernel, or of the last retired one (R383); while the context's kernel is faulted, that kernel's (DESIGN
CHOICE, log entry 134). -/
def Context.kernelWords (x : Context) : List Nat :=
  match x.kernel with
  | some k => if k.begun then [k.stray, k.dropped, k.marks, k.taken] else x.counters
  | none => x.counters

/-- The migration and install logs. -/
def Context.logWords (x : Context) : List Nat :=
  [x.abandoned, x.lostInstalls, x.installLog.length] ++
    x.installLog.flatMap (fun e => [e.num, e.pe * 2 ^ 48 + e.code, e.dst, e.src])

/-- The words of an item, by selector; none for the inventory, whose layout R384 does not give. Selector 0x05 lists the 65,536 units of
eight stacks, however many are fitted or trained (DESIGN CHOICE, log entry 140). -/
def State.itemWords (s : State) (c sel : Nat) : Option (List Nat) :=
  let x := s.ctx c
  match sel with
  | 1 => some ((List.range 4).map (fun i => (bits x.faultRecord (64 * i) 64).toNat))
  | 2 => some ((x.mailbox.take 16).map (·.toNat))
  | 3 => some x.kernelWords
  | 4 => some x.logWords
  | 5 => some (65536 :: s.peWords)
  | 6 => some (allLinks.length :: allLinks.flatMap s.linkEntry)
  | 7 => some s.counterWords
  | _ => none

/-- The fitted ranges: tier, first byte, length. -/
def Device.ranges (d : Device) : List (Nat × Nat × Nat) :=
  [(0, 0, Config.tierSEnd), (1, Config.tierDBase, d.fittedD), (2, Config.tierFBase, d.fittedF)] ++
    d.expanders.map (fun e => (3, e.1, e.2)) ++ d.grantH.map (fun e => (4, e.1, e.2))

/-- The inventory (R384): what boot found, in bytes whose layout is a free value; the device writes no more than the buffer holds. -/
def State.inventory (s : State) : List Byte :=
  (Config.inventory s.dev.serial s.dev.ranges s.dev.channels s.dev.flashStacks s.stagingSize
    (s.dev.optics.map (fun q => (q, s.dev.peers.lookup q)))).take (0x80000 - 8)

/-- Writes bytes to host memory. -/
def State.hostBytes (s : State) (a : Nat) : List Byte → State
  | [] => s
  | b :: r => State.hostBytes (s.rawWrite (hostPa a) 1 b.toNat) (a + 1) r

/-- Writes the inventory after its byte count. -/
def State.writeInventory (s : State) (a : Nat) : State :=
  (s.rawWrite (hostPa a) 8 s.inventory.length).hostBytes (a + 8) s.inventory

/-- Writes an item: its byte count and its words. -/
def State.writeItem (s : State) (c sel a : Nat) : State :=
  match s.itemWords c sel with
  | none => s.writeInventory a
  | some l =>
    let s := s.hostWords a (8 * l.length :: l)
    if sel = 2 then s.modCtx c (fun x => { x with mailbox := x.mailbox.drop 16 }) else s

def execHostRead (r : Request) (s : State) : Host.Outcome State Fault Refusal :=
  let c := r.ctx.toNat
  let sel := (r.word 1).toNat
  let body (s : State) : Answer := (s.writeItem c sel (r.word 2).toNat).answer 0
  if 5 ≤ sel then runRequest 0x0F r (fun _ s => if 8 < sel then s.answer 1 else body s) s
  else runOnContext 0x0F r Context.live (fun _ s => if sel = 0 then s.answer 1 else body s) s

/-! ## Power (R383, R389) -/

def execPower (r : Request) (s : State) : Host.Outcome State Fault Refusal :=
  runRequest 0x11 r (fun _ s =>
    let w := r.word 1
    let cap := field w 32 16; let st := field w 0 2
    if anySet w [(48, 16), (2, 30)] || 2 ≤ st || (cap ≠ 0 && (cap < 1200 || s.dev.settings.powerCap < cap)) then s.answer 1
    else if st = 0 then (s.modDev (fun d => { d with power := .active, cap := d.settings.powerCap })).answer 0
    else (s.modDev (fun d => { d with power := .capped, cap := if cap = 0 then d.cap else cap })).answer 0) s

/-- The power state as it stands: idle where no context is running (R389). It changes timing only. -/
def State.powerNow (s : State) : PowerState :=
  if (s.dev.power = .active || s.dev.power = .capped) && !s.ctxs.any (fun p => p.2.st = .running) then .idle else s.dev.power

/-- D3hot is entered once every context is swapped out; otherwise the transition is refused with status 2. A device in recovery stays
in it until an image passes (R385). -/
def execD3hotTransition (s : State) : Host.Outcome State Fault Refusal :=
  let out := s.ctxs.all (fun p => p.2.st = .free || p.2.st = .swappedOut)
  .next (if s.dev.power = .recovery then s else
    s.modDev (fun d => if out then { d with power := .d3hot, pmStatus := 0 } else { d with pmStatus := 2 }))

/-! ## Signed records (R385, R386) -/

/-- Whether the settings that a payload names lie in their ranges (R386). -/
def payloadOk (module : Bool) (id : Nat) (p : List Byte) : Bool :=
  let v := Config.payloadValue id p
  let GiB := 2 ^ 30
  match id with
  | 0x0010 => v 0 % (64 * GiB) = 0 && 64 * GiB ≤ v 0 && v 0 ≤ 512 * GiB
  | 0x0011 => 12500 ≤ v 0 && v 0 ≤ 125000000
  | 0x0012 => v 0 = 0 || 1250 ≤ v 0
  | 0x0013 => 256 ≤ v 0 && v 0 ≤ 65536
  | 0x0014 => [v 0, v 1, v 2].all (fun x => 1 ≤ x && x ≤ 65535)
  | 0x0016 => 1200 ≤ v 0 && v 0 ≤ (if module then 2750 else 2400)
  | _ => true

/-- The records that there are (R385, R386). -/
def recordIds : List Nat := [0x0001, 0x0010, 0x0011, 0x0012, 0x0013, 0x0014, 0x0015, 0x0016]

/-- Installs the signed record at an address of host memory: the store and a status. -/
def State.storeRecord (s : State) (a : Word) : Answer :=
  let h := Config.headerOf (BitVec.ofNat 512 (s.hostRead a 64))
  let bytes (off n : Nat) : List Byte := bytesOf (s.hostRead (a + BitVec.ofNat 64 off) n) n
  if h.magic ≠ 0x52434B56 || 3072 < h.length || !recordIds.contains h.id then s.answer 1
  else
    let digest := sha3 (bytes 0 (64 + h.length))
    let signature := bytes (64 + h.length) Config.signatureBytes
    let key := if h.id = 1 then Config.vendorKey else s.dev.settings.operatorKey
    let signed : Bool := (h.id = 1 || key ≠ []) && signatureOk key digest signature
    let old : Bool := match SMap.find? s.dev.store h.id with | some x => h.version ≤ x.version | none => false
    if !signed || !(h.binding = 0 || h.binding = Config.deviceDigest) then s.answer 5
    else if old then s.answer 6
    else if !payloadOk s.dev.module h.id (bytes 64 h.length) then s.answer 1
    else (s.modDev (fun d => { d with
      store := SMap.put d.store h.id { version := h.version, payload := bytes 64 h.length, digest := digest,
                                        signature := signature } })).answer 0

def execInstallRecord (r : Request) (s : State) : Host.Outcome State Fault Refusal :=
  runRequest 0x13 r (fun _ s => s.storeRecord (r.word 1)) s

/-! ## Attestation (R387) -/

/-- The report on a context, or on none. -/
def State.report (s : State) (nonce : List Byte) (c : Nat) : List Byte :=
  let digest (d : BitVec 512) : List Byte := bytesOf d.toNat 64
  nonce ++ digest s.dev.image ++
    digest (sha3 (s.dev.store.flatMap (fun p => digest p.2.digest))) ++
    bytesOf (s.dev.firmware.toNat + Config.stepping.toNat * 2 ^ 32) 8 ++
    (if c = 0xFF then bytesOf 0 64 else digest (s.ctx c).launchDigest) ++ bytesOf c 8

/-- The device's signature over a digest (R387): its identity key, made from a seed that the manual does not give (log entry 6). -/
def deviceSignature (n : Nat) (digest : BitVec 512) : List Byte :=
  (keyPair (bytesOf Config.deviceSeed.toNat 32)).sign (bytesOf (Config.signerDraw n).toNat 32) digest

def execAttest (r : Request) (s : State) : Host.Outcome State Fault Refusal :=
  runRequest 0x12 r (fun _ s =>
    let c := (r.word 2).toNat
    if c ≠ 0xFF && Config.nContexts ≤ c then s.answer 1
    else if c ≠ 0xFF && !(s.ctx c).live then s.answer 2
    else
      let s := if c = 0xFF then s else s.ungateContext c
      let l := s.report (bytesOf (s.hostRead (r.word 1) 64) 64) c
      (State.hostBytes { s with fresh := s.fresh + 1 } (r.word 1).toNat
        (l ++ deviceSignature s.fresh (sha3 l) ++ Config.certificate)).answer 0) s

/-! ## Boot, reset and power (R84, R346, R384 to R386) -/

/-- Whether a stored record passes its check at boot: its bytes are whole, and it is signed by the vendor key (record 1) or by the
operator key of a record 1 that passes. -/
def Device.recordPasses (d : Device) (bad : List Nat) (id : Nat) (x : Stored) : Bool :=
  let root : List Byte := match SMap.find? d.store 1 with
    | some k => if !bad.contains 1 && signatureOk Config.vendorKey k.digest k.signature then k.payload else []
    | none => []
  if id = 1 then !bad.contains 1 && signatureOk Config.vendorKey x.digest x.signature
  else !bad.contains id && root ≠ [] && signatureOk root x.digest x.signature

/-- The payload of a record that passes its check at boot. -/
def Device.recordInForce (d : Device) (bad : List Nat) (id : Nat) : Option (List Byte) :=
  (SMap.find? d.store id).bind (fun x => if d.recordPasses bad id x then some x.payload else none)

/-- The settings that the stored records which pass their check at boot give; defaults for the others. -/
def Device.settingsFrom (d : Device) (bad : List Nat) : Settings :=
  let v (id k default : Nat) : Nat :=
    match d.recordInForce bad id with
    | some p => Config.payloadValue id p k
    | none => default
  { staging := v 0x10 0 Config.stagingDefault, grace := v 0x11 0 Config.graceDefault, gate := v 0x12 0 Config.gateDefault,
    leaseIdle := v 0x13 0 Config.leaseIdleDefault, promote := v 0x14 0 Config.promoteDefault,
    demote := v 0x14 1 Config.demoteDefault, perEpoch := v 0x14 2 Config.perEpochDefault,
    powerCap := v 0x16 0 (if d.module then 2750 else 2400), operatorKey := (d.recordInForce bad 1).getD [] }

/-- The expanders' ranges of tier P: upward in enumeration order, each at a multiple of 512 MiB (R384). -/
def placeExpanders : Nat → List Nat → List (Nat × Nat)
  | _, [] => []
  | base, n :: r => (base, n) :: placeExpanders ((base + n + 0x1FFFFFFF) / 0x20000000 * 0x20000000) r

/-- The ports toward the chips that boot found, at most four for a chip: those that the mask leaves and that have a peer; a peer that
the findings do not name is reached by its own ports (R353). -/
def chipTable (peers : List (Nat × Word)) (found : List (Word × List Nat)) : List (Word × List Nat) :=
  let direct := ((peers.map (·.2)).eraseDups.filter (fun w => !found.any (fun p => p.1 = w))).map (fun w =>
    (w, (peers.filter (fun p => p.2 = w)).map (·.1)))
  (found ++ direct).map (fun p => (p.1, (p.2.filter (fun q => peers.any (fun x => x.1 = q))).take 4))

/-- The inventory mask takes parts away from what was found: sizes of tiers D and F, expanders, ports, LPDDR channels and Narosh stacks
(R384, R386; log entry 90). -/
def Device.inventory (d : Device) (b : BootFindings) : Device :=
  let mask : Option (List Byte) := d.recordInForce b.badRecords 0x15
  let keeps (k i : Nat) : Bool := match mask with | some p => !(Config.payloadValue 0x15 p k).testBit i | none => true
  let least (k n : Nat) : Nat := match mask with | some p => min n (Config.payloadValue 0x15 p k) | none => n
  let ranges := placeExpanders Config.tierPBase (b.expanders.take 16)
  let port (q : Nat) : Bool := (Interface.jecen q).node.isSome && keeps 3 q
  let peers := b.peers.filter (fun p => port p.1)
  { d with
    optics := (b.optics ++ b.peers.map (·.1)).eraseDups.filter port
    serial := b.serial, fittedD := least 0 (min b.fittedD (Config.tierDEnd - Config.tierDBase)),
    fittedF := least 1 (min b.fittedF (Config.tierFEnd - Config.tierFBase)),
    expanders := (ranges.zip (List.range ranges.length)).filterMap (fun p => if keeps 2 p.2 then some p.1 else none),
    grantH := b.grantH, peers := peers, chips := chipTable peers b.chips,
    channels := b.channels.filter (fun i => (Interface.lpddr i).node.isSome && keeps 4 i)
    flashStacks := b.flashStacks.filter (fun i => (Interface.narosh i).node.isSome && keeps 5 i) }

/-- A link that is down is enabled at boot, and its trainings end as found (R352). -/
def State.trainLink (s : State) (found : List (Link × List Nat)) (l : Link) : State :=
  if (s.link l).st ≠ .down then s
  else
    let ends := match found.find? (fun p => p.1 = l) with | some p => p.2 | none => [2]
    ends.foldl (fun (s : State) n => s.trainEnd l n) (s.enableLink l)

/-- Whether the image of a slot passes the ROM's check: its key is the vendor key, by the digest that the ROM holds, and its signature over
the image's digest verifies (R385). -/
def imagePasses (x : ImageSlot) : Bool := sha3 x.key = sha3 Config.vendorKey && signatureOk x.key (sha3 x.image) x.signature

/-- The image that the ROM starts: the first of the two slots that passes. -/
def bootImage (b : BootFindings) : Option ImageSlot := (b.slots.take 2).find? imagePasses

/-- The peers with which ports have trained: the inventory names no other (R384). -/
def State.trainedPeers (s : State) : List (Nat × Word) := s.dev.peers.filter (fun p => (s.link ⟨.jecen, p.1⟩).st.carries)

/-- Boot: with neither image the device stays in recovery; else the image runs, the records are checked, interrupted installs are logged,
the links that have a peer train, the inventory is built and `devready` is set. -/
def execBoot (b : BootFindings) (s : State) : Host.Outcome State Fault Refusal :=
  if s.dev.ready then .next s
  else match bootImage b with
  | none => .next (s.modDev (fun d => { d with power := .recovery }))
  | some x =>
    let bad := s.dev.store.filter (fun p => !s.dev.recordPasses b.badRecords p.1 p.2)
    let s := s.modDev (fun d =>
      let set := d.settingsFrom b.badRecords
      { d.inventory b with firmware := x.version, image := sha3 x.image, settings := set, cap := set.powerCap,
                           power := if set.powerCap < (if d.module then 2750 else 2400) then .capped else .active })
    let s := bad.foldl (fun (s : State) p => s.logEvent .recordIgnored none p.1) s
    let s := s.dev.interrupted.foldl (fun (s : State) p => s.logEvent (.install 4) (some p.1) p.2) s
    let s := (allLinks.filter (fun l => l.kind ≠ .jecen || s.dev.peers.any (fun p => p.1 = l.idx))).foldl
      (fun (s : State) l => s.trainLink b.training l) s
    .next (s.modDev (fun d => { d with ready := true, interrupted := [], peers := s.trainedPeers }))

/-- The device after a reset: as `State.reset` (the count of clk starts again, R402), with the memory that a test keeps, the configuration
store, the flash's unit counts, what is fitted, and what is the model's own. -/
def State.restart (s : State) (keep : Nat → Bool) : State :=
  { State.reset with
    cur := s.cur, agenda := s.agenda, fresh := s.fresh
    mem := s.mem.filter (fun p => keep p.1)
    dev := { module := s.dev.module, serial := s.dev.serial, firmware := s.dev.firmware, image := s.dev.image, fittedD := s.dev.fittedD,
             fittedF := s.dev.fittedF, expanders := s.dev.expanders, grantH := s.dev.grantH, store := s.dev.store, pe := s.dev.pe,
             wornUnits := s.dev.wornUnits, regionUnit := s.dev.regionUnit, openUnits := s.dev.openUnits, usedSlots := s.dev.usedSlots,
             interrupted := s.dev.interrupted } }

/-- Device reset: tier S is zero and empty, links are down, counters are zero. -/
def execDeviceReset (s : State) : Host.Outcome State Fault Refusal := .next (s.restart (fun pa => tierOf pa ≠ some 0))

/-- Loss of power: contexts are lost, installs are cut off, and tiers S and D lose what they hold. -/
def execPowerLoss (s : State) : Host.Outcome State Fault Refusal :=
  let cut := s.ctxs.flatMap (fun p => p.2.installs.filterMap (fun i => if i.code.isNone then some (p.1, i.dstPa) else none))
  let s := s.modDev (fun d => { d with interrupted := d.interrupted ++ cut })
  .next (s.restart (fun pa => tierOf pa ≠ some 0 && tierOf pa ≠ some 1))

/-- An expander that leaves makes its range unfitted (R384). -/
def execCxlExpanderRemoval (base : Nat) (s : State) : Host.Outcome State Fault Refusal :=
  if s.dev.expanders.any (fun e => e.1 = base) then
    .next ((s.modDev (fun d => { d with expanders := d.expanders.filter (fun e => e.1 ≠ base) })).logEvent .expanderLost none base)
  else .next s

/-! ## The scrubber and the rebuild (R89, R91) -/

/-- The lines of a row of a layer of a tile (R80). -/
def rowLines (tile layer row : Nat) : List Nat :=
  (List.range 8).map (fun i => tile * 0x80000 + (row * 4 + layer) * 8 + i)

def execPatrolScrub (tile layer row : Nat) (s : State) : Host.Outcome State Fault Refusal :=
  if Config.nTiles ≤ tile || 4 ≤ layer || 16384 ≤ row then .next s
  else .next ((rowLines tile layer row).foldl (fun (s : State) l => s.touch none l) s)

/-- The next row of a rebuild: its symbols are computed from the other banks and written to the spare. -/
def execRebuildStep (bank : Nat) (s : State) : Host.Outcome State Fault Refusal :=
  match (s.bank bank).rebuild with
  | none => .next s
  | some r =>
    if 16384 ≤ r then .next s
    else
      let s := (rowLines (bank / 72) (bank / 18 % 4) r).foldl (fun (s : State) l => s.touch none l) s
      .next (s.setBank bank { s.bank bank with rebuild := some (r + 1) })

/-- A rebuild that has reached the last row: the spare replaces the bank. -/
def execRebuildComplete (bank : Nat) (s : State) : Host.Outcome State Fault Refusal :=
  match (s.bank bank).rebuild with
  | none => .next s
  | some r => if r < 16384 then .next s else .next (s.setBank bank { s.bank bank with erased := false, rebuild := none, times := [] })

/-! ## Power gating (R204) -/

/-- Whether a hart is stopped or stalled in a waiting instruction. -/
def Hart.idle (x : Hart) : Bool :=
  match x.run with
  | .stopped => true
  | .running => false
  | .waiting w => !w.begun

/-- Whether a tile may be gated: idle harts, no command outstanding, no copy suspended. -/
def State.tileIdle (s : State) (t : Nat) : Bool :=
  let k := s.tc t
  k.main.idle && k.move.idle && k.q0.entries.isEmpty && k.q1.entries.isEmpty && k.q2.entries.isEmpty

def execTileGate (tile : Nat) (s : State) : Host.Outcome State Fault Refusal :=
  if Config.nTiles ≤ tile || s.dev.settings.gate = 0 || !s.tileIdle tile then .next s
  else .next (s.setTile tile { s.tile tile with gated := true })

def execTileUngate (tile : Nat) (s : State) : Host.Outcome State Fault Refusal := .next (s.ungate tile)

end Sys2Proof.Machine
end

