-- ==== Sys2Proof/Machine/Status.lean ====
section
/-! DEFINITION. What `qstat` reads (R143, R152, R153): the states of the queues of a tile at one clk, with the reason for which a
command is held. -/

namespace Sys2Proof.Machine

/-- The step of a command of a queue. -/
def commandStep (i : Instr) (s : State) : Host.Outcome State Fault Refusal :=
  match i with
  | .csrWrite c => execCsrWrite c s
  | .rndtileWrite c => execRndtileWrite c s
  | .cnop c => execCnop c s
  | .cbump c => execCbump c s
  | .cmark c => execCmark c s
  | .fdRow c => execFdRow c s
  | .fdRowCrd c => execFdRowCrd c s
  | .fdGather c => execFdGather c s
  | .fdBcast c => execFdBcast c s
  | .fdBcastSplat c => execFdBcastSplat c s
  | .fdSkip c => execFdSkip c s
  | .fdStore c => execFdStore c s
  | .srtCodes c => execSrtCodes c s
  | .bkClear c => execBkClear c s
  | .bkSum c => execBkSum c s
  | .bkFin c => execBkFin c s
  | .anLease c => execAnLease c s
  | .anLdw c => execAnLdw c s
  | .anSwap c => execAnSwap c s
  | .anMul c => execAnMul c s
  | .anGmul c => execAnGmul c s
  | .anClose c => execAnClose c s
  | .anDrain c => execAnDrain c s
  | .anFree c => execAnFree c s
  | .anZero c => execAnZero c s
  | .cpNd c => execCpNd c s
  | .cpGather c => execCpGather c s
  | .cpScatter c => execCpScatter c s
  | .cpDec c => execCpDec c s
  | .cpRed c => execCpRed c s
  | .cpFill c => execCpFill c s
  | .cpPref c => execCpPref c s
  | .vadd c => execVadd c s
  | .vsub c => execVsub c s
  | .vmul c => execVmul c s
  | .vmulh c => execVmulh c s
  | .vmin c => execVmin c s
  | .vmax c => execVmax c s
  | .vabs c => execVabs c s
  | .vneg c => execVneg c s
  | .vand c => execVand c s
  | .vor c => execVor c s
  | .vxor c => execVxor c s
  | .vnot c => execVnot c s
  | .vandn c => execVandn c s
  | .vsll c => execVsll c s
  | .vsrl c => execVsrl c s
  | .vsra c => execVsra c s
  | .vfsh c => execVfsh c s
  | .vbfx c => execVbfx c s
  | .vbfi c => execVbfi c s
  | .vpopc c => execVpopc c s
  | .vclz c => execVclz c s
  | .vcmpEq c => execVcmpEq c s
  | .vcmpNe c => execVcmpNe c s
  | .vcmpLt c => execVcmpLt c s
  | .vcmpLe c => execVcmpLe c s
  | .vcmpGt c => execVcmpGt c s
  | .vcmpGe c => execVcmpGe c s
  | .vpand c => execVpand c s
  | .vpor c => execVpor c s
  | .vpxor c => execVpxor c s
  | .vpnot c => execVpnot c s
  | .vpset c => execVpset c s
  | .vsel c => execVsel c s
  | .vfadd c => execVfadd c s
  | .vfsub c => execVfsub c s
  | .vfmul c => execVfmul c s
  | .vfma c => execVfma c s
  | .vfms c => execVfms c s
  | .vfmin c => execVfmin c s
  | .vfmax c => execVfmax c s
  | .vfabs c => execVfabs c s
  | .vfneg c => execVfneg c s
  | .vqm8 c => execVqm8 c s
  | .vqi8 c => execVqi8 c s
  | .vdqm8 c => execVdqm8 c s
  | .vdqi8 c => execVdqi8 c s
  | .vcvt c => execVcvt c s
  | .vredsum c => execVredsum c s
  | .vredmax c => execVredmax c s
  | .vredmin c => execVredmin c s
  | .vredmaxabs c => execVredmaxabs c s
  | .vdot c => execVdot c s
  | .vperm c => execVperm c s
  | .vrot c => execVrot c s
  | .vsplat c => execVsplat c s
  | .vld c => execVld c s
  | .vgather c => execVgather c s
  | .vst c => execVst c s
  | .vscatter c => execVscatter c s
  | .vscatterAdd c => execVscatterAdd c s
  | .vscatterMin c => execVscatterMin c s
  | .vscatterMax c => execVscatterMax c s
  | .vscatterFadd c => execVscatterFadd c s
  | .vscatterFmaxabs c => execVscatterFmaxabs c s
  | .vmovReg c => execVmovReg c s
  | .vmovFromDq c => execVmovFromDq c s
  | .vmovToDq c => execVmovToDq c s
  | .vmovi c => execVmovi c s
  | .viota c => execViota c s
  | .vany c => execVany c s
  | .vall c => execVall c s
  | .txSend c => execTxSend c s
  | .txPut c => execTxPut c s
  | .txPutArrive c => execTxPutArrive c s
  | .txGet c => execTxGet c s
  | .rxPost c => execRxPost c s
  | .rxCancel c => execRxCancel c s
  | _ => .next s

/-- The agent of a stream. -/
def streamAgent (t q : Nat) (a : Bool) : Agent :=
  if q = 0 then (if a then .addr t else .compute t) else if q = 1 then .copy t else .msg t

/-- The reason for which an entry of a stream is held: what an attempt to run it now, or only to start it, tells; 0 where it is not
held. The attempt changes nothing. -/
def State.heldWhy (s : State) (t q : Nat) (a only : Bool) (e : Entry) : Nat :=
  match decodeCommand e.w with
  | none => 0
  | some i =>
    match commandStep i { s with cur := streamAgent t q a, pick := some { seq := e.seq, only := only } } with
    | .next s' =>
      match (s'.queue t q).find e.seq with
      | some e' => if e'.st = e.st then e'.why.toNat else 0
      | none => 0
    | _ => 0

/-- The reason for which the head of a stream of q0 is held: the next command that has not started. A leasing command of a tile that
holds no lease waits for one, whatever else holds it (R291). -/
def State.streamWhy (s : State) (t : Nat) (a : Bool) : Nat :=
  match (s.queue t 0).entries.find? (fun e => inStream 0 a e && e.st = .taken) with
  | none => 0
  | some e =>
    let k := s.anvil (clusterOf t)
    if leasing e.w && !(k.holder = some (positionOf t) && k.count ≠ 0) && s.heldWhy t 0 a true e ≠ 0 then 3
    else s.heldWhy t 0 a true e

/-- Why a queue is stalled; 0 where it is not (R143): in q0 the head of either stream, the compute stream's reason first; in q1 and q2
the running command while it waits, or the next entry while the engine is busy. -/
def State.stall (s : State) (t q : Nat) : Nat :=
  let x := s.queue t q
  if q = 0 then
    let k := s.streamWhy t false
    if k ≠ 0 then k else s.streamWhy t true
  else
    match x.entries.find? (fun e => e.st = .running || e.st = .done), x.entries.find? (·.waiting) with
    | some r, next =>
      let k := if r.st = .running then s.heldWhy t q false false r else 0
      if k ≠ 0 then k else if next.isSome then 4 else 0
    | none, some e => s.heldWhy t q false true e
    | none, none => 0

/-- Whether the queues of a tile are frozen: its context is being pre-empted or swapped out (R143). -/
def State.frozen (s : State) (t : Nat) : Bool :=
  let st := (s.ctx (s.ctxOf t)).st
  st = .preempting || st = .swappedOut

/-- The status word of a command queue. -/
def State.queueStatus (s : State) (t q : Nat) : Word :=
  let x := s.queue t q
  let stall := s.stall t q
  let st := if s.frozen t then 3 else if x.faulted then 4 else if x.drained then 5 else if x.entries.isEmpty then 0
    else if stall ≠ 0 then 2 else 1
  BitVec.ofNat 64 (st * 2 ^ 61 + (if x.faulted then x.record.code.toNat else 0) * 2 ^ 48 +
    (if st = 2 then stall else 0) * 2 ^ 40 + x.done % 2 ^ 16 * 2 ^ 16 + x.entries.length % 128)

/-- The status word of a data queue. -/
def dataStatus (x : DataQueue) (frozen : Bool) : Word :=
  let full := (x.slots.filter (fun y => y.st = .full)).length
  let st := if frozen then 3 else if x.slots.isEmpty then 0 else if x.slots.length ≥ 16 then 2 else 1
  BitVec.ofNat 64 (st * 2 ^ 61 + x.fills % 2 ^ 16 * 2 ^ 16 + (x.slots.length - full) * 2 ^ 8 + full)

def execQstatQ (rd : Reg) (q : BitVec 2) (s : State) : Host.Outcome State Fault Refusal :=
  let h := s.me
  .next (s.result h rd (s.queueStatus h.tile q.toNat))

def execQstatDq (rd : Reg) (q : BitVec 3) (s : State) : Host.Outcome State Fault Refusal :=
  let h := s.me
  .next (s.result h rd (dataStatus ((s.tc h.tile).dqueue q.toNat) (s.frozen h.tile)))

end Sys2Proof.Machine
end

