-- ==== Sys2Proof/Machine/Dispatch.lean ====
section
/-! DEFINITION. One arm per instruction: a direct call of its meaning. -/

namespace Sys2Proof.Machine

open Sys2Proof

def exec (i : Instr) (s : State) : Host.Outcome State Fault Refusal :=
  match i with
  | .fimmS rd imm => Sys2Proof.Machine.execFimmS rd imm s
  | .flitS rd lit => Sys2Proof.Machine.execFlitS rd lit s
  | .fconstS rd k => Sys2Proof.Machine.execFconstS rd k s
  | .cset c rs1 imm => Sys2Proof.Machine.execCset c rs1 imm s
  | .hld h rs1 imm => Sys2Proof.Machine.execHld h rs1 imm s
  | .qput rd q rs1 rs2 => Sys2Proof.Machine.execQput rd q rs1 rs2 s
  | .qstatQ rd q => Sys2Proof.Machine.execQstatQ rd q s
  | .qstatDq rd q => Sys2Proof.Machine.execQstatDq rd q s
  | .qsync q => Sys2Proof.Machine.execQsync q s
  | .qsyncReturn => Sys2Proof.Machine.execQsyncReturn s
  | .ldf rd rs1 imm => Sys2Proof.Machine.execLdf rd rs1 imm s
  | .ldt rd rs1 imm => Sys2Proof.Machine.execLdt rd rs1 imm s
  | .stf rs1 rs2 imm => Sys2Proof.Machine.execStf rs1 rs2 imm s
  | .ste rs1 rs2 imm => Sys2Proof.Machine.execSte rs1 rs2 imm s
  | .taggedRequestServed word => Sys2Proof.Machine.execTaggedRequestServed word s
  | .ldU rd rs1 imm => Sys2Proof.Machine.execLdU rd rs1 imm s
  | .sdU rs1 rs2 imm => Sys2Proof.Machine.execSdU rs1 rs2 imm s
  | .maAdd rd rs1 rs2 => Sys2Proof.Machine.execMaAdd rd rs1 rs2 s
  | .maMin rd rs1 rs2 => Sys2Proof.Machine.execMaMin rd rs1 rs2 s
  | .maMax rd rs1 rs2 => Sys2Proof.Machine.execMaMax rd rs1 rs2 s
  | .maAnd rd rs1 rs2 => Sys2Proof.Machine.execMaAnd rd rs1 rs2 s
  | .maOr rd rs1 rs2 => Sys2Proof.Machine.execMaOr rd rs1 rs2 s
  | .maXor rd rs1 rs2 => Sys2Proof.Machine.execMaXor rd rs1 rs2 s
  | .maSwap rd rs1 rs2 => Sys2Proof.Machine.execMaSwap rd rs1 rs2 s
  | .maCas rd rs1 rs2 => Sys2Proof.Machine.execMaCas rd rs1 rs2 s
  | .maIncw rd rs1 rs2 => Sys2Proof.Machine.execMaIncw rd rs1 rs2 s
  | .maFaddS rd rs1 rs2 => Sys2Proof.Machine.execMaFaddS rd rs1 rs2 s
  | .maFmaxabsS rd rs1 rs2 => Sys2Proof.Machine.execMaFmaxabsS rd rs1 rs2 s
  | .maAddb rd rs1 rs2 rs3 => Sys2Proof.Machine.execMaAddb rd rs1 rs2 rs3 s
  | .tkGive t rs1 => Sys2Proof.Machine.execTkGive t rs1 s
  | .tkTake t rs1 => Sys2Proof.Machine.execTkTake t rs1 s
  | .tkTakeServed => Sys2Proof.Machine.execTkTakeServed s
  | .tlWait x rs1 => Sys2Proof.Machine.execTlWait x rs1 s
  | .tlWaitReturn => Sys2Proof.Machine.execTlWaitReturn s
  | .tlRead rd x => Sys2Proof.Machine.execTlRead rd x s
  | .fenceG n => Sys2Proof.Machine.execFenceG n s
  | .warm k rs1 => Sys2Proof.Machine.execWarm k rs1 s
  | .wsleep rd => Sys2Proof.Machine.execWsleep rd s
  | .wsleepWake => Sys2Proof.Machine.execWsleepWake s
  | .barrArrive rd rs1 => Sys2Proof.Machine.execBarrArrive rd rs1 s
  | .barrWait rd rs1 rs2 => Sys2Proof.Machine.execBarrWait rd rs1 rs2 s
  | .barrWaitWake => Sys2Proof.Machine.execBarrWaitWake s
  | .spawn rd rs1 rs2 => Sys2Proof.Machine.execSpawn rd rs1 rs2 s
  | .spawnPlaced => Sys2Proof.Machine.execSpawnPlaced s
  | .stgTake rd => Sys2Proof.Machine.execStgTake rd s
  | .stgTakeServed => Sys2Proof.Machine.execStgTakeServed s
  | .stgDone rs1 => Sys2Proof.Machine.execStgDone rs1 s
  | .kexit => Sys2Proof.Machine.execKexit s
  | .kexitRelease tile => Sys2Proof.Machine.execKexitRelease tile s
  | .tret => Sys2Proof.Machine.execTret s
  | .ctxYield => Sys2Proof.Machine.execCtxYield s
  | .accrd rd a rs1 => Sys2Proof.Machine.execAccrd rd a rs1 s
  | .vread rd vt => Sys2Proof.Machine.execVread rd vt s
  | .vreadReturn => Sys2Proof.Machine.execVreadReturn s
  | .cpcancel rd rs1 => Sys2Proof.Machine.execCpcancel rd rs1 s
  | .rxProbe rd rs1 => Sys2Proof.Machine.execRxProbe rd rs1 s
  | .baseInstruction b => Sys2Proof.Machine.execBaseInstruction b s
  | .plainLoad op rd rs1 imm => Sys2Proof.Machine.execPlainLoad op rd rs1 imm s
  | .plainStore op rs1 rs2 imm => Sys2Proof.Machine.execPlainStore op rs1 rs2 imm s
  | .fence => Sys2Proof.Machine.execFence s
  | .fenceI => Sys2Proof.Machine.execFenceI s
  | .wfi => Sys2Proof.Machine.execWfi s
  | .ebreak => Sys2Proof.Machine.execEbreak s
  | .ecallFirmwareVersion => Sys2Proof.Machine.execEcallFirmwareVersion s
  | .ecallPostToHost => Sys2Proof.Machine.execEcallPostToHost s
  | .ecallAbort => Sys2Proof.Machine.execEcallAbort s
  | .ecallUnknown => Sys2Proof.Machine.execEcallUnknown s
  | .csrWrite c => Sys2Proof.Machine.execCsrWrite c s
  | .rndtileWrite c => Sys2Proof.Machine.execRndtileWrite c s
  | .qrecSkip => Sys2Proof.Machine.execQrecSkip s
  | .qrecFlush => Sys2Proof.Machine.execQrecFlush s
  | .commandFaultTrap => Sys2Proof.Machine.execCommandFaultTrap s
  | .qputResume => Sys2Proof.Machine.execQputResume s
  | .slicerTake => Sys2Proof.Machine.execSlicerTake s
  | .cnop c => Sys2Proof.Machine.execCnop c s
  | .cbump c => Sys2Proof.Machine.execCbump c s
  | .cmark c => Sys2Proof.Machine.execCmark c s
  | .fdRow c => Sys2Proof.Machine.execFdRow c s
  | .fdRowCrd c => Sys2Proof.Machine.execFdRowCrd c s
  | .fdGather c => Sys2Proof.Machine.execFdGather c s
  | .fdBcast c => Sys2Proof.Machine.execFdBcast c s
  | .fdBcastSplat c => Sys2Proof.Machine.execFdBcastSplat c s
  | .fdSkip c => Sys2Proof.Machine.execFdSkip c s
  | .fdStore c => Sys2Proof.Machine.execFdStore c s
  | .srtCodes c => Sys2Proof.Machine.execSrtCodes c s
  | .bkClear c => Sys2Proof.Machine.execBkClear c s
  | .bkSum c => Sys2Proof.Machine.execBkSum c s
  | .bkFin c => Sys2Proof.Machine.execBkFin c s
  | .anLease c => Sys2Proof.Machine.execAnLease c s
  | .anLdw c => Sys2Proof.Machine.execAnLdw c s
  | .anSwap c => Sys2Proof.Machine.execAnSwap c s
  | .anMul c => Sys2Proof.Machine.execAnMul c s
  | .anGmul c => Sys2Proof.Machine.execAnGmul c s
  | .anClose c => Sys2Proof.Machine.execAnClose c s
  | .anDrain c => Sys2Proof.Machine.execAnDrain c s
  | .anFree c => Sys2Proof.Machine.execAnFree c s
  | .anZero c => Sys2Proof.Machine.execAnZero c s
  | .leaseGrant cluster => Sys2Proof.Machine.execLeaseGrant cluster s
  | .leaseIdleExpiry cluster => Sys2Proof.Machine.execLeaseIdleExpiry cluster s
  | .cpNd c => Sys2Proof.Machine.execCpNd c s
  | .cpGather c => Sys2Proof.Machine.execCpGather c s
  | .cpScatter c => Sys2Proof.Machine.execCpScatter c s
  | .cpDec c => Sys2Proof.Machine.execCpDec c s
  | .cpRed c => Sys2Proof.Machine.execCpRed c s
  | .cpFill c => Sys2Proof.Machine.execCpFill c s
  | .cpPref c => Sys2Proof.Machine.execCpPref c s
  | .ringUnitTake => Sys2Proof.Machine.execRingUnitTake s
  | .decoderWatchdog => Sys2Proof.Machine.execDecoderWatchdog s
  | .copyChunkComplete => Sys2Proof.Machine.execCopyChunkComplete s
  | .copyRemoteElement reply => Sys2Proof.Machine.execCopyRemoteElement reply s
  | .copySuspend => Sys2Proof.Machine.execCopySuspend s
  | .commandComplete tile q seq => Sys2Proof.Machine.execCommandComplete tile q seq s
  | .vadd c => Sys2Proof.Machine.execVadd c s
  | .vsub c => Sys2Proof.Machine.execVsub c s
  | .vmul c => Sys2Proof.Machine.execVmul c s
  | .vmulh c => Sys2Proof.Machine.execVmulh c s
  | .vmin c => Sys2Proof.Machine.execVmin c s
  | .vmax c => Sys2Proof.Machine.execVmax c s
  | .vabs c => Sys2Proof.Machine.execVabs c s
  | .vneg c => Sys2Proof.Machine.execVneg c s
  | .vand c => Sys2Proof.Machine.execVand c s
  | .vor c => Sys2Proof.Machine.execVor c s
  | .vxor c => Sys2Proof.Machine.execVxor c s
  | .vnot c => Sys2Proof.Machine.execVnot c s
  | .vandn c => Sys2Proof.Machine.execVandn c s
  | .vsll c => Sys2Proof.Machine.execVsll c s
  | .vsrl c => Sys2Proof.Machine.execVsrl c s
  | .vsra c => Sys2Proof.Machine.execVsra c s
  | .vfsh c => Sys2Proof.Machine.execVfsh c s
  | .vbfx c => Sys2Proof.Machine.execVbfx c s
  | .vbfi c => Sys2Proof.Machine.execVbfi c s
  | .vpopc c => Sys2Proof.Machine.execVpopc c s
  | .vclz c => Sys2Proof.Machine.execVclz c s
  | .vcmpEq c => Sys2Proof.Machine.execVcmpEq c s
  | .vcmpNe c => Sys2Proof.Machine.execVcmpNe c s
  | .vcmpLt c => Sys2Proof.Machine.execVcmpLt c s
  | .vcmpLe c => Sys2Proof.Machine.execVcmpLe c s
  | .vcmpGt c => Sys2Proof.Machine.execVcmpGt c s
  | .vcmpGe c => Sys2Proof.Machine.execVcmpGe c s
  | .vpand c => Sys2Proof.Machine.execVpand c s
  | .vpor c => Sys2Proof.Machine.execVpor c s
  | .vpxor c => Sys2Proof.Machine.execVpxor c s
  | .vpnot c => Sys2Proof.Machine.execVpnot c s
  | .vpset c => Sys2Proof.Machine.execVpset c s
  | .vsel c => Sys2Proof.Machine.execVsel c s
  | .vfadd c => Sys2Proof.Machine.execVfadd c s
  | .vfsub c => Sys2Proof.Machine.execVfsub c s
  | .vfmul c => Sys2Proof.Machine.execVfmul c s
  | .vfma c => Sys2Proof.Machine.execVfma c s
  | .vfms c => Sys2Proof.Machine.execVfms c s
  | .vfmin c => Sys2Proof.Machine.execVfmin c s
  | .vfmax c => Sys2Proof.Machine.execVfmax c s
  | .vfabs c => Sys2Proof.Machine.execVfabs c s
  | .vfneg c => Sys2Proof.Machine.execVfneg c s
  | .vqm8 c => Sys2Proof.Machine.execVqm8 c s
  | .vqi8 c => Sys2Proof.Machine.execVqi8 c s
  | .vdqm8 c => Sys2Proof.Machine.execVdqm8 c s
  | .vdqi8 c => Sys2Proof.Machine.execVdqi8 c s
  | .vcvt c => Sys2Proof.Machine.execVcvt c s
  | .vredsum c => Sys2Proof.Machine.execVredsum c s
  | .vredmax c => Sys2Proof.Machine.execVredmax c s
  | .vredmin c => Sys2Proof.Machine.execVredmin c s
  | .vredmaxabs c => Sys2Proof.Machine.execVredmaxabs c s
  | .vdot c => Sys2Proof.Machine.execVdot c s
  | .vperm c => Sys2Proof.Machine.execVperm c s
  | .vrot c => Sys2Proof.Machine.execVrot c s
  | .vsplat c => Sys2Proof.Machine.execVsplat c s
  | .vld c => Sys2Proof.Machine.execVld c s
  | .vgather c => Sys2Proof.Machine.execVgather c s
  | .vst c => Sys2Proof.Machine.execVst c s
  | .vscatter c => Sys2Proof.Machine.execVscatter c s
  | .vscatterAdd c => Sys2Proof.Machine.execVscatterAdd c s
  | .vscatterMin c => Sys2Proof.Machine.execVscatterMin c s
  | .vscatterMax c => Sys2Proof.Machine.execVscatterMax c s
  | .vscatterFadd c => Sys2Proof.Machine.execVscatterFadd c s
  | .vscatterFmaxabs c => Sys2Proof.Machine.execVscatterFmaxabs c s
  | .vmovReg c => Sys2Proof.Machine.execVmovReg c s
  | .vmovFromDq c => Sys2Proof.Machine.execVmovFromDq c s
  | .vmovToDq c => Sys2Proof.Machine.execVmovToDq c s
  | .vmovi c => Sys2Proof.Machine.execVmovi c s
  | .viota c => Sys2Proof.Machine.execViota c s
  | .vany c => Sys2Proof.Machine.execVany c s
  | .vall c => Sys2Proof.Machine.execVall c s
  | .txSend c => Sys2Proof.Machine.execTxSend c s
  | .txPut c => Sys2Proof.Machine.execTxPut c s
  | .txPutArrive c => Sys2Proof.Machine.execTxPutArrive c s
  | .txGet c => Sys2Proof.Machine.execTxGet c s
  | .rxPost c => Sys2Proof.Machine.execRxPost c s
  | .rxCancel c => Sys2Proof.Machine.execRxCancel c s
  | .messageArrival m => Sys2Proof.Machine.execMessageArrival m s
  | .landingComplete ctx => Sys2Proof.Machine.execLandingComplete ctx s
  | .remoteArrival a => Sys2Proof.Machine.execRemoteArrival a s
  | .remotePutWrite p => Sys2Proof.Machine.execRemotePutWrite p s
  | .remoteGetRead g => Sys2Proof.Machine.execRemoteGetRead g s
  | .getReply r => Sys2Proof.Machine.execGetReply r s
  | .messageAck a => Sys2Proof.Machine.execMessageAck a s
  | .packetArrival p => Sys2Proof.Machine.execPacketArrival p s
  | .protectedResend source => Sys2Proof.Machine.execProtectedResend source s
  | .flitCrcFail flit => Sys2Proof.Machine.execFlitCrcFail flit s
  | .jecenLaneLost port => Sys2Proof.Machine.execJecenLaneLost port s
  | .trainingComplete link lanes => Sys2Proof.Machine.execTrainingComplete link lanes s
  | .linkDrainComplete link => Sys2Proof.Machine.execLinkDrainComplete link s
  | .linkDrainTimeout link => Sys2Proof.Machine.execLinkDrainTimeout link s
  | .routeTableUpdate node dest via => Sys2Proof.Machine.execRouteTableUpdate node dest via s
  | .patrolScrub tile layer row => Sys2Proof.Machine.execPatrolScrub tile layer row s
  | .rebuildStep bank => Sys2Proof.Machine.execRebuildStep bank s
  | .rebuildComplete bank => Sys2Proof.Machine.execRebuildComplete bank s
  | .tileGate tile => Sys2Proof.Machine.execTileGate tile s
  | .tileUngate tile => Sys2Proof.Machine.execTileUngate tile s
  | .stageSchedulerEpoch ctx => Sys2Proof.Machine.execStageSchedulerEpoch ctx s
  | .kernelLoad ctx => Sys2Proof.Machine.execKernelLoad ctx s
  | .kernelLoadComplete ctx => Sys2Proof.Machine.execKernelLoadComplete ctx s
  | .kernelRetire ctx => Sys2Proof.Machine.execKernelRetire ctx s
  | .softPreemptGraceExpiry ctx => Sys2Proof.Machine.execSoftPreemptGraceExpiry ctx s
  | .saveComplete ctx => Sys2Proof.Machine.execSaveComplete ctx s
  | .rqtailDoorbell ring tail => Sys2Proof.Machine.execRqtailDoorbell ring tail s
  | .hostBarAccess a => Sys2Proof.Machine.execHostBarAccess a s
  | .create r => Sys2Proof.Machine.execCreate r s
  | .writeRecord r => Sys2Proof.Machine.execWriteRecord r s
  | .commit r => Sys2Proof.Machine.execCommit r s
  | .launch r => Sys2Proof.Machine.execLaunch r s
  | .preemptSoft r => Sys2Proof.Machine.execPreemptSoft r s
  | .preemptHard r => Sys2Proof.Machine.execPreemptHard r s
  | .saveOut r => Sys2Proof.Machine.execSaveOut r s
  | .restore r => Sys2Proof.Machine.execRestore r s
  | .teardown r => Sys2Proof.Machine.execTeardown r s
  | .releaseComplete ctx => Sys2Proof.Machine.execReleaseComplete ctx s
  | .declareFault r => Sys2Proof.Machine.execDeclareFault r s
  | .invalidate r => Sys2Proof.Machine.execInvalidate r s
  | .movePage r => Sys2Proof.Machine.execMovePage r s
  | .barrowEpoch ctx => Sys2Proof.Machine.execBarrowEpoch ctx s
  | .movePinWaitTimeout ctx => Sys2Proof.Machine.execMovePinWaitTimeout ctx s
  | .moveStart ctx => Sys2Proof.Machine.execMoveStart ctx s
  | .moveCommit ctx => Sys2Proof.Machine.execMoveCommit ctx s
  | .installTakeMailbox ctx => Sys2Proof.Machine.execInstallTakeMailbox ctx s
  | .installComplete ctx r => Sys2Proof.Machine.execInstallComplete ctx r s
  | .registerDomain r => Sys2Proof.Machine.execRegisterDomain r s
  | .withdrawDomain r => Sys2Proof.Machine.execWithdrawDomain r s
  | .closeQueue r => Sys2Proof.Machine.execCloseQueue r s
  | .hostRead r => Sys2Proof.Machine.execHostRead r s
  | .linkEnable r => Sys2Proof.Machine.execLinkEnable r s
  | .linkRetire r => Sys2Proof.Machine.execLinkRetire r s
  | .linkRetrain r => Sys2Proof.Machine.execLinkRetrain r s
  | .power r => Sys2Proof.Machine.execPower r s
  | .attest r => Sys2Proof.Machine.execAttest r s
  | .installRecord r => Sys2Proof.Machine.execInstallRecord r s
  | .installWeights r => Sys2Proof.Machine.execInstallWeights r s
  | .boot b => Sys2Proof.Machine.execBoot b s
  | .deviceReset => Sys2Proof.Machine.execDeviceReset s
  | .powerLoss => Sys2Proof.Machine.execPowerLoss s
  | .d3hotTransition => Sys2Proof.Machine.execD3hotTransition s
  | .cxlExpanderRemoval base => Sys2Proof.Machine.execCxlExpanderRemoval base s
  | .illegalInstruction w => Sys2Proof.Machine.execIllegalInstruction w s
  | .deviceRegisterWrite offset v => Sys2Proof.Machine.execDeviceRegisterWrite offset v s
  | .jecenLaneRestored port => Sys2Proof.Machine.execJecenLaneRestored port s

end Sys2Proof.Machine
end

