-- ==== Sys2Proof/Machine/Turn.lean ====
section
/-! DEFINITION. What the next step does: the next move of the agenda, or the turn of the agent that acts (R20, R21). -/

namespace Sys2Proof.Machine

/-- A part of what an agent does next, with no more of it: a hart reads word n of a record (R68, R213), the compute stream writes word n of
the records of a sort (R255). -/
def partOf (s : State) (n : Nat) : Turn :=
  match s.cur with
  | .main t => partTurn s ⟨t, false⟩ n
  | .move t => partTurn s ⟨t, true⟩ n
  | .compute t => .rest (s.sortPart t n)
  | _ => .rest s

/-- A thing handed to the fabric has passed its first Jecen link (R375). -/
def State.passSent (s : State) (n : Nat) : State :=
  match s.sent[n]? with
  | some d => { s with sent := setNth s.sent n { d with passed := true } }
  | none => s

/-- What the next step does. -/
def State.turn (s : State) : Turn :=
  match s.agenda with
  | [] => agentTurn s
  | m :: r =>
    let s := { s with agenda := r }
    match m with
    | .run a => agentTurn { s with cur := a }
    | .event i => .run i s
    | .tick n => .rest (s.pass n)
    | .upset line sym b => .rest (s.flip line sym b)
    | .lostSave c => .rest (s.modCtx c (fun x => { x with saveLost := true }))
    | .lostCommit c => .rest (s.lostCommit c)
    | .start a => pickedTurn { s with cur := a } { seq := 0, only := true }
    | .finish a seq => pickedTurn { s with cur := a } { seq := seq }
    | .writeWord a seq va => pickedTurn { s with cur := a } { seq := seq, word := some (va / 8) }
    | .readWord a seq va => .rest ({ s with cur := a }.earlyRead seq va)
    | .landWord c n => .rest (s.landNext c n)
    | .putWord p va => .rest (s.putWord p va)
    | .getWord g va => .rest (s.getWord g va)
    | .replyWord g va => .rest (s.replyWord g va)
    | .part a n => partOf { s with cur := a } n
    | .manage l act => .rest (s.manage l act)
    | .passed n => .rest (s.passSent n)
    | .enableErrors on => .rest (s.modDev (fun d => { d with errorsOn := on }))

end Sys2Proof.Machine
end

