-- ==== Sys2Proof/Safety.lean ====
section
/-! DEFINITION. What a safe run is, the invariant that statements about every step take as a premise, and the conditions
on a state and its operands that the statements name. -/

namespace Sys2Proof

open Sys2Proof.Machine

/-- A step is safe when it answers a next state: the machine neither faults nor refuses. -/
def safeStep (s : State) : Prop := ∃ s', step s = .next s'

/-- The canonical form of the memory: addresses strictly rising, no listed byte that reads as an unlisted one. -/
def memoryOk (s : State) : Prop := Memory.wf s.mem = true

namespace Claims

/-- The agent `a` takes the next step, in the state `s0`: it acts already, or its move is next on the agenda. -/
def Acts (s : State) (a : Agent) (s0 : State) : Prop :=
  (s.agenda = [] ∧ s.cur = a ∧ s0 = s) ∨ ∃ r, s.agenda = .run a :: r ∧ s0 = { s with agenda := r, cur := a }

/-! ## Memory -/

/-- No line holds an upset, and no line has two erased banks. -/
def Quiet (s : State) : Prop := s.flips = [] ∧ ∀ line, (s.erasedBanks line).length ≤ 1

/-! ## Operands of harts -/

/-- An address that a hart may read: aligned, below 2^52, mapped by a page that is not compressed (R77, R130, R341,
R348). `l` is its translation and `t` the state after it. -/
def Readable (s : State) (h : HartId) (size : Nat) (va : Word) (l : Leaf) (t : State) : Prop :=
  va.toNat % size = 0 ∧ va.toNat < 2 ^ 52 ∧ s.translate h.tile (.hart h.move) (s.ctxOf h.tile) va.toNat = (t, .ok l) ∧ l.compressed = false

/-- An address that a hart may write: readable, on a writable page, and the page is not being moved (R338, R348). -/
def Writable (s : State) (h : HartId) (size : Nat) (va : Word) (l : Leaf) (t : State) : Prop :=
  Readable s h size va l t ∧ l.writable = true ∧ (t.ctx (t.ctxOf h.tile)).moving va.toNat = false

/-- No range-table entry conflicts with an access of a line (R93). -/
def LineFree (s : State) (h : HartId) (l : Leaf) (write : Bool) : Prop :=
  (l.tier = 0 && (s.tc h.tile).lineHeld (l.pa / 64) write) = false

/-- An instruction traps where it may not access an address, with the load codes for d = 0 and the store codes for d = 2 (R130, R348): one
that is misaligned, one that is not below 2^52, one whose walk gives a page fault, which then names its kind, and of an address that is
mapped one on a compressed page, in a tier that it may not access, or on a page that it may not write. -/
def Traps (i : Instr) (s : State) (d size : Nat) (va : Word) (tierOk : Nat → Bool) (pageOk : Leaf → Bool) : Prop :=
  let h := s.me
  let trap (t : State) (code kind : Nat) : Prop := exec i s = .next (t.takeTrap h false (code + d) kind va)
  let r := s.translate h.tile (.hart h.move) (s.ctxOf h.tile) va.toNat
  (va.toNat % size ≠ 0 → trap s 4 0) ∧ (va.toNat % size = 0 → 2 ^ 52 ≤ va.toNat → trap s 5 0) ∧
  (va.toNat % size = 0 → va.toNat < 2 ^ 52 →
    (∀ t k, r = (t, .error k) → trap t 13 k) ∧
    (∀ t l, r = (t, .ok l) →
      (l.compressed = true → trap t 13 4) ∧ (l.compressed = false → tierOk l.tier = false → trap t 5 0) ∧
      (l.compressed = false → tierOk l.tier = true → pageOk l = false → trap t 13 3)))

/-- A write at a home is what its bytes then read: its place is there, outside tier F, and no tagged request is held at its word
(R79, R218). -/
def Stored (s : State) (l : Leaf) : Prop :=
  s.fitted l.pa = true ∧ tierOf l.pa ≠ some 2 ∧ ∀ r ∈ s.held, r.pa / 8 ≠ l.pa / 8

/-! ## Commands -/

/-- A part of an instruction has its effect without stopping: it answers `a` and leaves the state `t`. -/
def Runs {α : Type} (m : M α) (s : State) (a : α) (t : State) : Prop := m s = .ok a t

/-- A command is the next that an engine runs: it heads its stream, its context runs, its unit is free (R18, R226). -/
def CanStart (op : Nat) (c : Cmd) (s : State) (r : Run) : Prop :=
  s.pick = none ∧ s.runOf op c = some r ∧ (s.ctx (s.ctxOf r.t)).st = .running ∧ (s.queue r.t r.q).unitBusy r.e = false

/-- The state after a command has made its whole effect: its entry waits only for its completion (R18, R155). -/
def finished (r : Run) (s : State) : State := s.modEntry r.t r.q r.e.seq (fun e => { e with st := .done, why := 0 })

/-- The state after a command has ended in a fault: its queue has recorded it, and its lease is used where it takes one (R155, R291). -/
def faulted (r : Run) (code detail addr : Nat) (s : State) : State :=
  let t := s.modTc r.t (fun c => c.recordFault r.q r.e code detail addr s.clk)
  if leasing r.e.w then t.leaseUsed r.t else t

/-- The state after a part of a command's effect. -/
def ongoing (r : Run) (s : State) : State := s.modEntry r.t r.q r.e.seq (fun e => { e with st := .running, why := 0 })

/-- No range-table entry allocated before a command's conflicts with it (R93). -/
def RangeFree (s : State) (r : Run) : Prop := (s.tc r.t).rangeHeld r.q r.e.seq = false

/-- A command that has not started finds room in a data queue for the n slots that it fills (R148). -/
def SlotsFree (s : State) (r : Run) (d n : Nat) : Prop := r.e.st ≠ .running ∧ RangeFree s r ∧ n + ((s.tc r.t).dqueue d).slots.length ≤ 16

/-- The n oldest slots of a data queue that no command has claimed are full, for a command that has not started (R148). -/
def SlotsFull (s : State) (r : Run) (d n : Nat) : Prop :=
  r.e.st ≠ .running ∧ RangeFree s r ∧ n ≤ 16 ∧ (((s.tc r.t).dqueue d).next n).length = n ∧
    (((s.tc r.t).dqueue d).next n).all (fun x => x.st = .full) = true

/-- A command has reserved n slots of a data queue at its start (R148). -/
def reserved (r : Run) (d n : Nat) (s : State) : State :=
  s.modTc r.t (fun c => c.setDq d
    { c.dqueue d with slots := (c.dqueue d).slots ++ List.replicate n ⟨.reserved, r.e.seq, 0, 0⟩ })

/-- A command has claimed the n oldest slots of a data queue at its start (R148). -/
def claiming (r : Run) (d n : Nat) (s : State) : State :=
  s.modTc r.t (fun c => c.setDq d { c.dqueue d with slots := claimSlots r.e.seq (c.dqueue d).slots n })

/-- The slots that a command has claimed. -/
def owned (r : Run) (d : Nat) (s : State) : List Slot :=
  ((s.tc r.t).dqueue d).slots.filter (fun x => x.st = .claimed && x.owner = r.e.seq)

/-- The slots that a command claimed are empty. -/
def released (r : Run) (s : State) : State := s.modTc r.t (fun c => c.releaseSlots r.e.seq)

/-- A register-form vector command executes: it starts, its unused fields are zero, its elements lie in a register, the
registers that it names exist, its aux field is in range, and nothing conflicts with it (R264). -/
def VectorReady (op : Nat) (f : VForm) (c : Cmd) (s : State) (r : Run) : Prop :=
  CanStart op c s r ∧ reservedBit c (vReserved f) = none ∧ (vVl c ≠ 0 ∧ vE0 c + vVl c ≤ 8192 / f.size) ∧
    f.named.all (fun p => p.1 ≤ p.2) = true ∧ f.auxOk = true ∧ RangeFree s r

/-- The vector commands that write a register, with the place of their operation and their form (R266 to R268, R271 to R278, R283, R284). -/
def vectorForms (c : Cmd) : List (Instr × Nat × VForm) :=
  let sum := sumFormat c
  let fmt := cmdFormat c
  let formats := [0, 1, 2, 3, 4, 8, 9, 10]
  [(.vadd c, 0x60, binForm c), (.vsub c, 0x60, binForm c), (.vmul c, 0x60, binForm c),
   (.vmulh c, 0x60, binForm c), (.vmin c, 0x60, binForm c), (.vmax c, 0x60, binForm c), (.vabs c, 0x60, unForm c),
   (.vneg c, 0x60, unForm c), (.vand c, 0x61, binForm c), (.vor c, 0x61, binForm c), (.vxor c, 0x61, binForm c),
   (.vnot c, 0x61, unForm c), (.vandn c, 0x61, binForm c), (.vsll c, 0x62, binForm c), (.vsrl c, 0x62, binForm c),
   (.vsra c, 0x62, binForm c), (.vfsh c, 0x62, { binForm c with s2 := true, s3 := !vX c }), (.vbfx c, 0x63, fieldForm c),
   (.vbfi c, 0x63, fieldForm c), (.vpopc c, 0x63, unForm c), (.vclz c, 0x63, unForm c),
   (.vsel c, 0x66, { binForm c with gov := .selector }), (.vfadd c, 0x67, binForm c), (.vfsub c, 0x67, binForm c),
   (.vfmul c, 0x67, binForm c), (.vfmin c, 0x67, binForm c), (.vfmax c, 0x67, binForm c), (.vfabs c, 0x67, unForm c),
   (.vfneg c, 0x67, unForm c), (.vfma c, 0x67, { binForm c with s3 := true }), (.vfms c, 0x67, { binForm c with s3 := true }),
   (.vqm8 c, 0x68, quantForm c 11 (vS c)), (.vqi8 c, 0x68, quantForm c 6 (vS c)), (.vdqm8 c, 0x68, quantForm c 0 false),
   (.vdqi8 c, 0x68, quantForm c 0 false),
   (.vcvt c, 0x68,
     { unForm c with
       size := max (elemSize fmt) (if formats.contains (vAux c) then elemSize (vAux c) else 1)
       auxOk := formats.contains (vAux c) }),
   (.vredsum c, 0x69, redForm c false sum), (.vredmax c, 0x69, redForm c false fmt), (.vredmin c, 0x69, redForm c false fmt),
   (.vredmaxabs c, 0x69, redForm c false fmt), (.vdot c, 0x6A, redForm c true sum),
   (.vperm c, 0x6B, { binForm c with s2 := true, size := max 2 (elemSize fmt) }), (.vrot c, 0x6B, unForm c),
   (.vsplat c, 0x6B, { unForm c with s1 := !vX c, auxOk := if vX c then vAux c = 0 else vAux c < 8192 / elemSize fmt }),
   (.vmovReg c, 0x72, { unForm c with auxOk := movAuxOk c }), (.vmovi c, 0x72, { unForm c with s1 := false }),
   (.viota c, 0x70, { unForm c with named := [(vVs1 c, 15)] })]

/-- The vector commands that write a predicate (R269, R270). -/
def predicateForms (c : Cmd) : List (Instr × Nat × VForm) :=
  let compare : VForm := { binForm c with named := [(vVd c, 15)] }
  let logic (n : Nat) (ok : Bool) : VForm :=
    { s1 := 1 ≤ n, s2 := 2 ≤ n, gov := .none, size := 1, auxOk := ok, named := [(vVd c, 15), (vVs1 c, 15), (vVs2 c, 15)] }
  [(.vcmpEq c, 0x64, compare), (.vcmpNe c, 0x64, compare), (.vcmpLt c, 0x64, compare), (.vcmpLe c, 0x64, compare),
   (.vcmpGt c, 0x64, compare), (.vcmpGe c, 0x64, compare), (.vpand c, 0x65, logic 2 (vAux c = 0)),
   (.vpor c, 0x65, logic 2 (vAux c = 0)), (.vpxor c, 0x65, logic 2 (vAux c = 0)), (.vpnot c, 0x65, logic 1 (vAux c = 0)),
   (.vpset c, 0x65, logic 0 (vAux c ≤ 1))]

/-- The vector commands that write a vote (R285). -/
def voteForms (c : Cmd) : List (Instr × Nat × VForm) :=
  let vote : VForm := { s2 := false, size := 1, auxOk := vAux c = 0, named := [(vVd c, 3), (vVs1 c, 15)] }
  [(.vany c, 0x71, vote), (.vall c, 0x71, vote)]

/-- A leasing command has started, or its tile holds its anvil's lease with a count left (R291). -/
def HoldsLease (s : State) (r : Run) : Prop :=
  r.e.st = .running ∨ ((s.anvil (clusterOf r.t)).holder = some (positionOf r.t) ∧ (s.anvil (clusterOf r.t)).count ≠ 0)

/-- A leasing command has lowered the count of its lease at its start (R291). -/
def leased (r : Run) (s : State) : State :=
  if r.e.st = .running then s else s.modAnvil (clusterOf r.t) (fun a => { a with count := a.count - 1 })

/-- A copy may work on its next chunk (R317, R328). -/
def CopyReady (r : Run) : Prop := r.e.prog.written = false ∧ r.e.prog.wait = [] ∧ r.e.prog.cancelled = false

/-- A copy is started: at once where it has worked before, else by its checks (R312). -/
def CopyStarts (k : CopyKind) (r : Run) (c : Cmd) (s t : State) : Prop :=
  if r.e.prog.started then t = s else cpStart k r c s = .ok () t

/-- The progress of a copy's entry changes. -/
def progressed (r : Run) (f : Progress → Progress) (s : State) : State :=
  s.modEntry r.t r.q r.e.seq (fun e => { e with prog := f e.prog })

/-- The low n bytes of a value at an address, least significant first (R5). -/
def bytesAt (pa n v : Nat) : List (Nat × Byte) := (List.range n).map (fun i => (pa + i, BitVec.ofNat 8 (v / 2 ^ (8 * i))))

/-- The bytes that writes of a command store, in order, each performed by `put` in the state that the one before left: `f` makes the
value stored of the old value and the write's (R79, R281). -/
def putWrites (put : Put → M Unit) (f : Nat → Nat → Nat) (r : Run) (copy : Bool) : List Put → State → List (Nat × Byte)
  | [], _ => []
  | p :: l, s =>
    (if !r.writes p.va then [] else match engineLeaf r true copy p.va s with
     | .ok x t => if t.fitted x.pa ∧ tierOf x.pa ≠ some 2 then bytesAt x.pa p.n (f (t.rawRead x.pa p.n) p.v) else []
     | .error _ _ => []) ++
    (match put p s with
     | .ok _ t => putWrites put f r copy l t
     | .error _ _ => [])

/-- The bytes that a command's writes, formed item by item, store. -/
def itemWrites (put : Put → M Unit) (f : Nat → Nat → Nat) (r : Run) (copy : Bool) : List (M (List Put)) → State →
    List (Nat × Byte)
  | [], _ => []
  | item :: rest, s =>
    match item s with
    | .ok l t => putWrites put f r copy l t ++
      (match (l.forM put) t with
       | .ok _ u => itemWrites put f r copy rest u
       | .error _ _ => [])
    | .error _ _ => []

/-- The bytes that plain writes, and those that atomics, store. -/
def plainWrites (r : Run) (copy : Bool) : List (M (List Put)) → State → List (Nat × Byte) :=
  itemWrites (fun p => enginePut r copy p.va p.n p.v) (fun _ v => v) r copy
def atomicWrites (r : Run) (copy : Bool) (f : Nat → Nat → Nat) : List (M (List Put)) → State → List (Nat × Byte) :=
  itemWrites (atomicPut r copy f) f r copy

/-- What a list of stored bytes makes of the memory of a state that a command of a tile began in, where no line holds an upset: a byte
that no write stores is as before, and so is every full/empty bit, but at words at which a tagged request is held; and where none is
held at all, and no packet of the tile's is dropped, every byte is the last one stored to it, or as before. -/
def Writes (w : List (Nat × Byte)) (tile : Nat) (s t : State) : Prop :=
  Quiet s →
  (∀ a, a ∉ w.map (·.1) → (∀ q ∈ s.held, q.pa / 8 ≠ a / 8) → t.byte a = s.byte a ∧ t.isFull a = s.isFull a) ∧
  (s.held = [] → (s.tile tile).lostWrites = 0 →
    ∀ a, t.byte a = w.foldl (fun b p => if p.1 = a then p.2 else b) (s.byte a))

/-! ## Requests -/

/-- A ring has taken a request (R377). -/
def taken (s : State) : State := s.takeRequest s.ringNumber

/-- A ring has taken a request on a context, whose tiles are ungated (R204, R377). -/
def takenFor (r : Request) (s : State) : State := (taken s).ungateContext r.ctx.toNat

/-- A request on a context is well formed and its context is in a state that has this event (R377, R379). -/
def Accepts (r : Request) (ok : Context → Bool) (s : State) : Prop :=
  r.rsv = 0 ∧ r.ctx.toNat < Config.nContexts ∧ ok ((taken s).ctx r.ctx.toNat) = true

/-- A request completes with a status and a result (R377). -/
def answered (s : State) (op : Nat) (r : Request) (status : Nat) (result : Word) (t : State) : State :=
  t.complete s.ringNumber op r.tag status result

/-- Every request of a list has completed: the entry of its operation, its tag and a status is the last thing written, on rings that are
till then as they were (R377). -/
def Completed (op status : Nat) (l : List (Nat × BitVec 32)) (s t : State) : Prop :=
  ∃ u : State, (∀ p ∈ l, u.ring p.1 = s.ring p.1) ∧ t = u.completeAll op l status

end Claims

end Sys2Proof
end

