-- ==== Sys2Proof/WellFormed.lean ====
section
/-! DEFINITION. Which terms of `Instr` stand for something the manual allows: field values inside
their valid ranges (R53), command headers that pass `HeaderCheck` (R66) under their own variant,
requests whose discriminating words agree, and events that name objects that exist (R13, R14, R121). -/

namespace Sys2Proof

/-- The variants a command constructor stands for, and the `vmov` modes (R62, R63, R283). -/
def variantOk (i : Instr) : Bool :=
  match i with
  | .cnop c => c.sub = 0
  | .cbump c => c.sub = 0
  | .cmark c => c.sub = 0
  | .fdRow c => c.sub = 0
  | .fdRowCrd c => c.sub = 1
  | .fdGather c => c.sub = 0
  | .fdBcast c => c.sub = 0
  | .fdBcastSplat c => c.sub = 1
  | .fdSkip c => c.sub = 0
  | .fdStore c => c.sub = 0
  | .srtCodes c => c.sub = 0
  | .bkClear c => c.sub = 0
  | .bkSum c => c.sub.toNat < 4
  | .bkFin c => c.sub.toNat < 4
  | .anLease c => c.sub = 0
  | .anLdw c => c.sub = 0
  | .anSwap c => c.sub = 0
  | .anMul c => c.sub = 0
  | .anGmul c => c.sub = 0
  | .anClose c => c.sub = 0
  | .anDrain c => c.sub.toNat < 2
  | .anFree c => c.sub = 0
  | .anZero c => c.sub = 0
  | .cpNd c => c.sub = 0
  | .cpGather c => c.sub.toNat < 2
  | .cpScatter c => c.sub.toNat < 2
  | .cpDec c => c.sub = 0
  | .cpRed c => c.sub.toNat < 8
  | .cpFill c => c.sub = 0
  | .cpPref c => c.sub = 0
  | .txSend c => c.sub = 0
  | .txPut c => c.sub = 0
  | .txPutArrive c => c.sub = 1
  | .txGet c => c.sub = 0
  | .rxPost c => c.sub = 0
  | .rxCancel c => c.sub = 0
  | .vadd c => c.sub = 0
  | .vsub c => c.sub = 1
  | .vmul c => c.sub = 2
  | .vmulh c => c.sub = 3
  | .vmin c => c.sub = 4
  | .vmax c => c.sub = 5
  | .vabs c => c.sub = 6
  | .vneg c => c.sub = 7
  | .vand c => c.sub = 0
  | .vor c => c.sub = 1
  | .vxor c => c.sub = 2
  | .vnot c => c.sub = 3
  | .vandn c => c.sub = 4
  | .vsll c => c.sub = 0
  | .vsrl c => c.sub = 1
  | .vsra c => c.sub = 2
  | .vfsh c => c.sub = 3
  | .vbfx c => c.sub = 0
  | .vbfi c => c.sub = 1
  | .vpopc c => c.sub = 2
  | .vclz c => c.sub = 3
  | .vcmpEq c => c.sub = 0
  | .vcmpNe c => c.sub = 1
  | .vcmpLt c => c.sub = 2
  | .vcmpLe c => c.sub = 3
  | .vcmpGt c => c.sub = 4
  | .vcmpGe c => c.sub = 5
  | .vpand c => c.sub = 0
  | .vpor c => c.sub = 1
  | .vpxor c => c.sub = 2
  | .vpnot c => c.sub = 3
  | .vpset c => c.sub = 4
  | .vsel c => c.sub = 0
  | .vfadd c => c.sub = 0
  | .vfsub c => c.sub = 1
  | .vfmul c => c.sub = 2
  | .vfma c => c.sub = 3
  | .vfms c => c.sub = 4
  | .vfmin c => c.sub = 5
  | .vfmax c => c.sub = 6
  | .vfabs c => c.sub = 7
  | .vfneg c => c.sub = 8
  | .vqm8 c => c.sub = 0
  | .vqi8 c => c.sub = 1
  | .vdqm8 c => c.sub = 2
  | .vdqi8 c => c.sub = 3
  | .vcvt c => c.sub = 4
  | .vredsum c => c.sub = 0
  | .vredmax c => c.sub = 1
  | .vredmin c => c.sub = 2
  | .vredmaxabs c => c.sub = 3
  | .vdot c => c.sub = 0
  | .vperm c => c.sub = 0
  | .vrot c => c.sub = 1
  | .vsplat c => c.sub = 2
  | .vld c => c.sub = 0
  | .vst c => c.sub = 0
  | .vgather c => c.sub = 0
  | .vscatter c => c.sub = 0
  | .vscatterAdd c => c.sub = 1
  | .vscatterMin c => c.sub = 2
  | .vscatterMax c => c.sub = 3
  | .vscatterFadd c => c.sub = 4
  | .vscatterFmaxabs c => c.sub = 5
  | .viota c => c.sub = 0
  | .vany c => c.sub = 0
  | .vall c => c.sub = 1
  | .vmovReg c => c.sub = 0 && field c.opnd 80 2 ≠ 1 && field c.opnd 80 2 ≠ 2
  | .vmovFromDq c => c.sub = 0 && field c.opnd 80 2 = 1
  | .vmovToDq c => c.sub = 0 && field c.opnd 80 2 = 2
  | .vmovi c => c.sub = 1
  | _ => true

/-- Whether a command passes the checks that every push makes of its header (R66). -/
def Cmd.wf (op : BitVec 8) (c : Cmd) : Bool :=
  let h : Word32 := bits (bitsOfCmd op c) 0 32
  shapeReason h = 0 && formReason h = 0

/-- Field ranges of the standard-subset instructions. -/
def Base.wf (b : Base) : Bool :=
  match b with
  | .fma _ _ _ _ _ rm | .farith _ _ _ _ rm | .fsqrt _ _ rm | .fcvtToInt _ _ _ rm | .fcvtFromInt _ _ _ rm => rmOk rm
  | .csrRead c => !c.writes
  | _ => true

/-- Field ranges of the hart instructions and requests, and the objects that events name. -/
def fieldsOk (i : Instr) : Bool :=
  match i with
  | .qput _ q _ _ | .qstatQ _ q | .qsync q => q ≠ 3
  | .tlWait x _ | .tlRead _ x => x ≠ 7
  | .baseInstruction b => b.wf
  | .csrWrite c => c.writes && c.csr ≠ 0x8C0#12
  | .rndtileWrite c => c.writes && c.csr = 0x8C0#12
  | .illegalInstruction w => (decodeWord w 0).isNone
  | .preemptSoft r => r.word 1 = 0
  | .preemptHard r => r.word 1 = 1
  | .linkEnable r => r.word 2 = 0
  | .linkRetire r => r.word 2 = 1
  | .linkRetrain r => r.word 2 = 2
  | .kexitRelease t | .tileGate t | .tileUngate t | .commandComplete t _ _ | .patrolScrub t _ _ => t < Config.nTiles
  | .leaseGrant k | .leaseIdleExpiry k => k < Config.nClusters
  | .landingComplete c | .stageSchedulerEpoch c | .kernelLoad c | .kernelLoadComplete c | .kernelRetire c
  | .softPreemptGraceExpiry c | .saveComplete c | .releaseComplete c | .barrowEpoch c | .movePinWaitTimeout c
  | .moveStart c | .moveCommit c | .installTakeMailbox c | .installComplete c _ => c < Config.nContexts
  | .jecenLaneLost p | .jecenLaneRestored p => p < 144
  | .rqtailDoorbell r _ => r < 16
  | _ => true

/-- Whether a term stands for an instruction, command, request or event of the manual. -/
def Instr.wf (i : Instr) : Bool :=
  fieldsOk i && variantOk i &&
    (match commandOf i with
     | some (op, c) => c.wf op
     | none => true)

end Sys2Proof
end

