-- ==== Sys2Proof/Certificates/Slice0/Obligations.lean ====
section
/-! DEFINITION. The statements for the provers. Each names the rules of the manual that it formalises; where a value or a
behaviour is the model's own choice its log entry is named. -/

section Statements

open Sys2Proof Sys2Proof.Machine Sys2Proof.Claims

/-! ## Encoding and the step -/

/-- R51 to R65, R379 (derived): decoding the encoding of a well-formed instruction gives the instruction back, for every
constructor that has an encoding and every operand value it admits. -/
def Obligations.DecodeOfEncode : Prop :=
  ∀ (i : Instr) (n w : Nat), i.wf = true → encode i = some (n, w) → decodeTableWord n w = some i

/-- Words written out from the encodings of R50, R57, R58, R62, R65, R114, R115, R131, R152, R199, R222 and R379 decode to what they
stand for: hart words (one with its literal word), a command word and a request word. -/
def Obligations.DecodeWords : Prop :=
  decodeTableWord 32 0x0000328B = some (.qstatQ 5 0) ∧
  decodeTableWord 32 0x1600328B = some (.qstatDq 5 3) ∧
  decodeTableWord 32 0x000542FB = some (.barrArrive 5 10) ∧
  decodeTableWord 32 0x060022FB = some (.tlRead 5 0) ∧
  decodeTableWord 32 0x0406207B = some (.tlWait 0 12) ∧
  decodeTableWord 32 0x0800507B = some .tret ∧
  decodeTableWord 32 0x00000073 = some (.baseInstruction .ecall) ∧
  decodeTableWord 32 0x00100073 = some .ebreak ∧
  decodeTableWord 32 0x00C58533 = some (.baseInstruction (.alu .add 10 11 12)) ∧
  decodeTableWord 32 0x3FC000DB = some (.fimmS 1 0x3FC00) ∧
  decodeTableWord 64 0x3DCCCCCD0000117B = some (.flitS 2 0x3DCCCCCD) ∧
  decodeTableWord 32 0x02C5850B = some (.qput 10 1 11 12) ∧
  decodeTableWord 32 0x68C5F52B = some (.maAddb 10 11 12 13) ∧
  decodeTableWord 256 0x5000000000000000000000000000000060000000009000121 = some (.fdGather
    { a := true, u := false, t := false, sub := 0, fmt := 9, md := 0, hmask := 0, cmask := 0, opnd := 6, patch := 5 }) ∧
  decodeTableWord 512 0x10000000900000304 = some (.launch { ctx := 3, rsv := 0, tag := 9, args := 1 })

/-- R18, R20, R51, R129, R226, R377, R378 (derived; that what happens next is listed in the state is the model's choice, log entry 11): a
step of a hart that runs is `exec` of the instruction that the word at its pc decodes to, and of one that waits of the row that ends its
wait; a pending command-fault trap comes first. A step of an event that happens next is `exec` of that row. An engine completes what is
finished, else runs `exec` of what the word at the head of its stream decodes to; by the agenda it may also start its next command only, go
on with one that it has started, or read or write one word of such a one before its other accesses (R100); so may one word of a landing, of
a put, of a get or of its reply come before the others. The rings take turns: the next one that can start a request runs `exec` of it.
Besides `exec` the step takes the move off the agenda and makes the agent the one that acts. -/
def Obligations.StepRunsTheDecodedInstruction : Prop :=
  (∀ (s s0 : State) (h : HartId), Acts s (if h.move then .move h.tile else .main h.tile) s0 →
    (s0.tile h.tile).owner.isSome = true → (s0.ctx (s0.ctxOf h.tile)).st = .running →
    ((s0.hart h).run = .running → (s0.hart h).trapReady = false → (s0.hart h).pc.toNat < Config.imemBytes →
      step s = exec (refine s0 h (s0.fetchWord h) (decodeHart (s0.fetchWord h)
        ((s0.modHart h (fun x => { x with pc := x.pc + 4 })).fetchWord h))) s0) ∧
    (∀ w i, (s0.hart h).run = .waiting w → (s0.hart h).trapReady = false → w.row = some i → step s = exec i s0) ∧
    ((s0.hart h).run = .running ∨ (∃ w, (s0.hart h).run = .waiting w ∧ w.begun = false) → (s0.hart h).trapReady = true →
      step s = exec .commandFaultTrap s0)) ∧
  (∀ (s : State) (i : Instr) (r : List Move), s.agenda = .event i :: r → step s = exec i { s with agenda := r }) ∧
  (∀ (s s0 : State) (t : Nat), Acts s (.slicer t) s0 → step s = exec .slicerTake s0) ∧
  (∀ (s s0 : State) (g : Agent) (t q : Nat) (a : Bool) (e : Entry) (i : Instr),
    (g, q, a) ∈ ([(.addr t, 0, true), (.compute t, 0, false), (.copy t, 1, false), (.msg t, 2, false)] :
      List (Agent × Nat × Bool)) → Acts s g s0 →
    ((s0.queue t q).finished q a = some e → step s = exec (.commandComplete t (BitVec.ofNat 2 q) e.seq) s0) ∧
    ((s0.queue t q).finished q a = none → (s0.queue t q).head q a = some e → decodeCommand e.w = some i →
      step s = exec (if q = 1 then copyRow s0 t e i else i) s0)) ∧
  (∀ (s : State) (r : List Move) (g : Agent) (t q seq va : Nat) (a : Bool) (e : Entry) (i : Instr),
    (g, q, a) ∈ ([(.addr t, 0, true), (.compute t, 0, false), (.copy t, 1, false), (.msg t, 2, false)] :
      List (Agent × Nat × Bool)) →
    let s0 := { s with agenda := r, cur := g }
    (s.agenda = .start g :: r → (s.queue t q).working q a (some { seq := 0, only := true }) = some e → decodeCommand e.w = some i →
      step s = exec i { s0 with pick := some { seq := 0, only := true } }) ∧
    (s.agenda = .finish g seq :: r → (s.queue t q).working q a (some { seq := seq }) = some e → decodeCommand e.w = some i →
      step s = if q = 1 then exec (copyRow s0 t e i) s0 else exec i { s0 with pick := some { seq := seq } }) ∧
    (s.agenda = .writeWord g seq va :: r → (s.queue t q).working q a (some { seq := seq, word := some (va / 8) }) = some e →
      decodeCommand e.w = some i → step s = exec i { s0 with pick := some { seq := seq, word := some (va / 8) } }) ∧
    (s.agenda = .readWord g seq va :: r → step s = .next (s0.earlyRead seq va))) ∧
  (∀ (s : State) (r : List Move) (c n va : Nat) (p : RemotePut) (g : RemoteGet) (y : GetReply),
    let s0 := { s with agenda := r }
    (s.agenda = .landWord c n :: r → step s = .next (s0.landNext c n)) ∧
    (s.agenda = .putWord p va :: r → step s = .next (s0.putWord p va)) ∧
    (s.agenda = .getWord g va :: r → step s = .next (s0.getWord g va)) ∧
    (s.agenda = .replyWord y va :: r → step s = .next (s0.replyWord y va))) ∧
  (∀ (s s0 : State) (m n : Nat) (i : Instr), Acts s (.ring m) s0 → s0.dev.ready = true → s0.dev.power ≠ .d3hot →
    ((List.range 16).map (fun i => (s0.dev.turn + 1 + i) % 16)).find? s0.ringReady = some n →
    decodeRequest (s0.ringWord n) = some i →
    step s = exec i { s0 with cur := .ring n, dev := { s0.dev with turn := n } })

/-! ## Invariants -/

/-- R78, R84 (derived; the canonical form is the model's): every step keeps memory a strictly rising list of bytes none of
which reads as an unlisted one. -/
def Obligations.StepKeepsMemoryCanonical : Prop :=
  ∀ s t : State, memoryOk s → step s = .next t → memoryOk t

/-- R84 (derived): memory right after reset has the canonical form. -/
def Obligations.ResetMemoryCanonical : Prop :=
  memoryOk State.reset

/-- R84, R121, R351, R377, R385 (derived): right after reset every byte of tier S reads as zero with its word empty, every context id is
free, no ring is enabled, every link is down and `devready` is clear. (What the other tiers hold is log entries 7 and 90.) -/
def Obligations.ResetState : Prop :=
  (∀ pa, tierOf pa = some 0 → State.reset.byte pa = 0 ∧ State.reset.isFull pa = false) ∧ (∀ c, (State.reset.ctx c).st = .free) ∧
  (∀ n, (State.reset.ring n).rqsize = 0) ∧ (∀ l, (State.reset.link l).st = .down) ∧ State.reset.dev.ready = false

/-! ## Constants, coordinates, handles -/

/-- R212 (stated), R57, R58, R209 (derived): the constant instructions write fd[31:0] and `cset` writes a coordinate register from X[xs1]
and the sign-extended immediate, its word illegal where bit 4 of rd is set; `flit.s` steps over its literal word. Nothing else changes but
the pc and `instret`, and that the hart runs and keeps no word of a record read in part.
R213 (derived): `hld` from an address that is a multiple of 128 loads sixteen words into a handle register; it traps with code 4 from any
other address, and where one of its loads traps as that load does; where it has read none of its words yet, as a load of the first. -/
def Obligations.ConstantResults : Prop :=
  (∀ (s : State) (rd rs1 : Reg) (imm : BitVec 20) (lit : Word32) (k : BitVec 8) (n : BitVec 4) (off : BitVec 12),
      let h := s.me
      let x := s.hart h
      let csetWord (top : BitVec 1) : Word32 := off ++ rs1 ++ (1#3) ++ top ++ n ++ (0x0B#7)
      decodeHart (csetWord 0) lit = .cset n rs1 off ∧
      decodeHart (csetWord 1) lit = .illegalInstruction (csetWord 1) ∧
      exec (.fimmS rd imm) s = .next (s.setHart h { x with f := SMap.set 0 x.f rd.toNat (imm ++ (0#12)), pc := x.pc + 4,
                                                           instret := x.instret + 1, run := .running, tmpl := [] }) ∧
      (x.pc.toNat + 4 < Config.imemBytes →
        exec (.flitS rd lit) s = .next (s.setHart h { x with f := SMap.set 0 x.f rd.toNat lit, pc := x.pc + 8,
                                                             instret := x.instret + 1, run := .running, tmpl := [] })) ∧
      exec (.fconstS rd k) s = .next (s.setHart h { x with
        f := SMap.set 0 x.f rd.toNat (SMap.get 0 (s.ctx (s.ctxOf h.tile)).consts k.toNat), pc := x.pc + 4,
        instret := x.instret + 1, run := .running, tmpl := [] }) ∧
      exec (.cset n rs1 off) s = .next (s.setHart h { x with
        c := SMap.set 0 x.c n.toNat (x.readX rs1 + off.signExtend 64), pc := x.pc + 4,
        instret := x.instret + 1, run := .running, tmpl := [] })) ∧
  (∀ (s t : State) (n : BitVec 4) (rs1 : Reg) (imm : BitVec 12) (w : List Nat),
      (addressOf s s.me rs1 imm).toNat % 128 = 0 →
      plainWords s.me (addressOf s s.me rs1 imm) 16 s = .ok w t →
      exec (.hld n rs1 imm) s =
        .next ((t.modHart s.me (fun x => { x with h := SMap.set 0 x.h n.toNat (BitVec.ofNat 1024 (joinWords w)) })).retire
          s.me ((s.hart s.me).pc + 4))) ∧
  (∀ (s t : State) (n : BitVec 4) (rs1 : Reg) (imm : BitVec 12) (code detail : Nat) (v : Word),
      ((s.hart s.me).tmpl = [] → Traps (.hld n rs1 imm) s 0 128 (addressOf s s.me rs1 imm) (fun _ => true) (fun _ => true)) ∧
      ((addressOf s s.me rs1 imm).toNat % 128 = 0 →
        plainWords s.me (addressOf s s.me rs1 imm) 16 s = .error (.trap code detail v) t →
        exec (.hld n rs1 imm) s = .next (t.takeTrap s.me false code detail v)))

/-! ## The standard subset -/

/-- R50 (derived): register-register and register-immediate integer instructions write rd and go on at pc + 4, with the values of
RV64IM: sums and products wrap, shifts use the low six bits (five for the W forms, whose 32-bit results are sign-extended), a division
truncates toward zero, and by zero gives all ones and the dividend. A CSR instruction that writes nothing gives rd the value of a
register that its hart may read and is an illegal instruction for one that it may not.
R29, R50 (derived): a floating-point instruction whose rounding mode is valid writes its result, the exact sum, product or fused
product rounded once, and accrues its flags; with a mode that is none it is an illegal instruction; those with no mode write always.
R51, R130 (derived): a branch is taken by its comparison; a taken branch, `jal` or `jalr` to a target that is a multiple of 4 goes
there; to any other target it traps with code 0 and the target as the value, and writes no register. -/
def Obligations.StandardSubsetResults : Prop :=
  (∀ (s : State) (rd rs1 rs2 : Reg) (op : AluOp) (ow : AluWOp) (io : ImmOp) (os : ShiftOp) (imm : BitVec 12) (u : BitVec 20)
      (sh : BitVec 6) (shw : BitVec 5) (k : CsrOp),
      let h := s.me
      let a := s.readX h rs1
      let b := s.readX h rs2
      exec (.baseInstruction (.alu op rd rs1 rs2)) s = .next (s.result h rd (aluValue op a b)) ∧
      exec (.baseInstruction (.opImm io rd rs1 imm)) s = .next (s.result h rd (immValue io a imm)) ∧
      exec (.baseInstruction (.addiw rd rs1 imm)) s = .next (s.result h rd (sext32 ((a + imm.signExtend 64).setWidth 32))) ∧
      exec (.baseInstruction (.aluW ow rd rs1 rs2)) s = .next (s.result h rd (aluWValue ow a b)) ∧
      exec (.baseInstruction (.shiftImm os rd rs1 sh)) s = .next (s.result h rd (shiftValue os a sh.toNat)) ∧
      exec (.baseInstruction (.shiftImmW os rd rs1 shw)) s = .next (s.result h rd (shiftWValue os a shw.toNat)) ∧
      exec (.baseInstruction (.lui rd u)) s = .next (s.result h rd ((u ++ (0#12)).signExtend 64)) ∧
      exec (.baseInstruction (.auipc rd u)) s = .next (s.result h rd ((s.hart h).pc + (u ++ (0#12)).signExtend 64)) ∧
      (∀ q, (s.result h rd b).readX h q = if q = 0 then 0 else if q = rd then b else s.readX h q) ∧
      (∀ v, readCsr s h k.csr.toNat = some v → exec (.baseInstruction (.csrRead k)) s = .next (s.result h k.rd v)) ∧
      (readCsr s h k.csr.toNat = none → exec (.baseInstruction (.csrRead k)) s =
        .next (s.takeTrap h false 2 0 ((s.fetchWord h).setWidth 64)))) ∧
  (∀ (a b : Word) (i : BitVec 12) (sh : Nat),
      let lo (x : Word) : Word32 := x.setWidth 32
      let w (x : Word32) : Word := x.signExtend 64
      let high (p : Int) : Word := BitVec.ofInt 64 (p / 2 ^ 64)
      let k := b.toNat % 64
      let kw := b.toNat % 32
      (aluValue .add a b = a + b ∧ aluValue .sub a b = a - b ∧ aluValue .and a b = a &&& b ∧ aluValue .or a b = a ||| b ∧
        aluValue .xor a b = a ^^^ b ∧ aluValue .sll a b = a <<< k ∧ aluValue .srl a b = a >>> k ∧
        aluValue .sra a b = a.sshiftRight k ∧ aluValue .slt a b = (if a.toInt < b.toInt then 1 else 0) ∧
        aluValue .sltu a b = (if a.toNat < b.toNat then 1 else 0) ∧ aluValue .mul a b = a * b ∧
        aluValue .mulh a b = high (a.toInt * b.toInt) ∧ aluValue .mulhsu a b = high (a.toInt * b.toNat) ∧
        aluValue .mulhu a b = high ((a.toNat : Int) * b.toNat)) ∧
      (b = 0 → aluValue .div a b = BitVec.allOnes 64 ∧ aluValue .divu a b = BitVec.allOnes 64 ∧ aluValue .rem a b = a ∧
        aluValue .remu a b = a) ∧
      (b ≠ 0 → aluValue .div a b = BitVec.ofInt 64 (a.toInt.tdiv b.toInt) ∧
        aluValue .rem a b = BitVec.ofInt 64 (a.toInt.tmod b.toInt) ∧
        aluValue .divu a b = BitVec.ofNat 64 (a.toNat / b.toNat) ∧ aluValue .remu a b = BitVec.ofNat 64 (a.toNat % b.toNat)) ∧
      (aluWValue .addw a b = w (lo a + lo b) ∧ aluWValue .subw a b = w (lo a - lo b) ∧ aluWValue .mulw a b = w (lo a * lo b) ∧
        aluWValue .sllw a b = w (lo a <<< kw) ∧ aluWValue .srlw a b = w (lo a >>> kw) ∧
        aluWValue .sraw a b = w ((lo a).sshiftRight kw)) ∧
      (lo b = 0 → aluWValue .divw a b = BitVec.allOnes 64 ∧ aluWValue .divuw a b = BitVec.allOnes 64 ∧
        aluWValue .remw a b = w (lo a) ∧ aluWValue .remuw a b = w (lo a)) ∧
      (lo b ≠ 0 → aluWValue .divw a b = w (BitVec.ofInt 32 ((lo a).toInt.tdiv (lo b).toInt)) ∧
        aluWValue .remw a b = w (BitVec.ofInt 32 ((lo a).toInt.tmod (lo b).toInt)) ∧
        aluWValue .divuw a b = w (BitVec.ofNat 32 ((lo a).toNat / (lo b).toNat)) ∧
        aluWValue .remuw a b = w (BitVec.ofNat 32 ((lo a).toNat % (lo b).toNat))) ∧
      (immValue .addi a i = a + i.signExtend 64 ∧ immValue .xori a i = a ^^^ i.signExtend 64 ∧
        immValue .ori a i = a ||| i.signExtend 64 ∧ immValue .andi a i = a &&& i.signExtend 64 ∧
        immValue .slti a i = (if a.toInt < (i.signExtend 64).toInt then 1 else 0) ∧
        immValue .sltiu a i = (if a.toNat < (i.signExtend 64).toNat then 1 else 0)) ∧
      (shiftValue .sll a sh = a <<< sh ∧ shiftValue .srl a sh = a >>> sh ∧ shiftValue .sra a sh = a.sshiftRight sh ∧
        shiftWValue .sll a sh = w (lo a <<< sh) ∧ shiftWValue .srl a sh = w (lo a >>> sh) ∧
        shiftWValue .sra a sh = w ((lo a).sshiftRight sh)) ∧
      ((branchTaken .beq a b = true ↔ a = b) ∧ (branchTaken .bne a b = true ↔ a ≠ b) ∧
        (branchTaken .blt a b = true ↔ a.toInt < b.toInt) ∧ (branchTaken .bge a b = true ↔ b.toInt ≤ a.toInt) ∧
        (branchTaken .bltu a b = true ↔ a.toNat < b.toNat) ∧ (branchTaken .bgeu a b = true ↔ b.toNat ≤ a.toNat))) ∧
  (∀ (m : RMode) (a b c : Nat),
      let v := ofF32
      let down : Bool := m = .rdn
      let round (x : Fl) : Nat := (roundF m x).1
      (farithValue .fadd m a b).1 = round ((v a).add down (v b)) ∧ (farithValue .fsub m a b).1 = round ((v a).add down (v b).neg) ∧
      (farithValue .fmul m a b).1 = round ((v a).mul (v b)) ∧
      (fmaValue .fmadd m a b c).1 = round (((v a).mul (v b)).add down (v c)) ∧
      (fmaValue .fmsub m a b c).1 = round (((v a).mul (v b)).add down (v c).neg) ∧
      (fmaValue .fnmsub m a b c).1 = round (((v a).mul (v b)).neg.add down (v c)) ∧
      (fmaValue .fnmadd m a b c).1 = round (((v a).mul (v b)).neg.add down (v c).neg)) ∧
  (∀ (s : State) (rd rs1 rs2 rs3 : Reg) (rm : BitVec 3) (oa : FArithOp) (om : FmaOp) (og : FSgnOp) (oc : FCmpOp) (it : FInt)
      (mx : Bool),
      let h := s.me
      let x := s.hart h
      let a := (x.readF rs1).toNat
      let b := (x.readF rs2).toNat
      let next := x.pc + 4
      let toF (r : Nat × FFlags) : Host.Outcome State Fault Refusal :=
        .next ((s.modHart h (fun x => (x.writeF rd (BitVec.ofNat 32 r.1)).accrue r.2)).retire h next)
      let toX (v : Word) (fl : FFlags) : Host.Outcome State Fault Refusal :=
        .next ((s.modHart h (fun x => (x.writeX rd v).accrue fl)).retire h next)
      (∀ m, rmodeOf rm x.frm = some m →
        exec (.baseInstruction (.farith oa rd rs1 rs2 rm)) s = toF (farithValue oa m a b) ∧
        exec (.baseInstruction (.fma om rd rs1 rs2 rs3 rm)) s = toF (fmaValue om m a b (x.readF rs3).toNat) ∧
        exec (.baseInstruction (.fsqrt rd rs1 rm)) s = toF (fSqrt m a) ∧
        exec (.baseInstruction (.fcvtToInt it rd rs1 rm)) s = toX (fToInt m it a).1 (fToInt m it a).2 ∧
        exec (.baseInstruction (.fcvtFromInt it rd rs1 rm)) s = toF (fOfInt m it (x.readX rs1))) ∧
      (rmodeOf rm x.frm = none → ∀ i ∈ ([.farith oa rd rs1 rs2 rm, .fma om rd rs1 rs2 rs3 rm, .fsqrt rd rs1 rm,
          .fcvtToInt it rd rs1 rm, .fcvtFromInt it rd rs1 rm] : List Base),
        exec (.baseInstruction i) s = .next (s.takeTrap h false 2 0 ((s.fetchWord h).setWidth 64))) ∧
      exec (.baseInstruction (.fsgn og rd rs1 rs2)) s = toF (fSgn og a b, 0) ∧
      exec (.baseInstruction (.fminmax mx rd rs1 rs2)) s = toF (fMinMax mx a b) ∧
      exec (.baseInstruction (.fcmp oc rd rs1 rs2)) s = toX (BitVec.ofNat 64 (fCmp oc a b).1) (fCmp oc a b).2 ∧
      exec (.baseInstruction (.fmvXW rd rs1)) s = toX (sext32 (x.readF rs1)) 0 ∧
      exec (.baseInstruction (.fmvWX rd rs1)) s = toF ((x.readX rs1).toNat % 2 ^ 32, 0) ∧
      exec (.baseInstruction (.fclass rd rs1)) s = toX (BitVec.ofNat 64 (fClass a)) 0) ∧
  (∀ (s : State) (rd rs1 rs2 : Reg) (op : BranchOp) (off : BitVec 12) (far : BitVec 20) (imm : BitVec 12),
      let h := s.me
      let x := s.hart h
      let tb := x.pc + (off ++ (0#1)).signExtend 64
      let tj := x.pc + (far ++ (0#1)).signExtend 64
      let tr := (x.readX rs1 + imm.signExtend 64) &&& ~~~1
      (branchTaken op (x.readX rs1) (x.readX rs2) = false →
        exec (.baseInstruction (.branch op rs1 rs2 off)) s = .next (s.retire h (x.pc + 4))) ∧
      (branchTaken op (x.readX rs1) (x.readX rs2) = true → tb.toNat % 4 = 0 →
        exec (.baseInstruction (.branch op rs1 rs2 off)) s = .next (s.retire h tb)) ∧
      (branchTaken op (x.readX rs1) (x.readX rs2) = true → tb.toNat % 4 ≠ 0 →
        exec (.baseInstruction (.branch op rs1 rs2 off)) s = .next (s.takeTrap h false 0 0 tb)) ∧
      (tj.toNat % 4 = 0 → exec (.baseInstruction (.jal rd far)) s = .next ((s.writeX h rd (x.pc + 4)).retire h tj)) ∧
      (tj.toNat % 4 ≠ 0 → exec (.baseInstruction (.jal rd far)) s = .next (s.takeTrap h false 0 0 tj)) ∧
      (tr.toNat % 4 = 0 → exec (.baseInstruction (.jalr rd rs1 imm)) s = .next ((s.writeX h rd (x.pc + 4)).retire h tr)) ∧
      (tr.toNat % 4 ≠ 0 → exec (.baseInstruction (.jalr rd rs1 imm)) s = .next (s.takeTrap h false 0 0 tr)))

/-! ## Loads and stores -/

/-- R50, R82, R93 (derived): a plain load of a readable address on a line that no command holds for writing writes what the
remote-read cache or the home gives, extended, to rd: a read of the tile's own slice reads the home, one of a cached line the line,
and one of another line the home, whose line it then caches. (That the tile discards no line of its own accord is the model's choice,
log entry 97; that a line falls in a free set, log entry 4.)
R130, R341, R348 (derived): a plain load traps with code 4 where the address is misaligned, with code 5 where it is not below
2^52, and with code 13 and the kind where the walk gives a page fault or, of kind 4, where the page is compressed. -/
def Obligations.PlainLoadResults : Prop :=
  (∀ (s t : State) (op : LoadOp) (rd rs1 : Reg) (imm : BitVec 12) (l : Leaf),
      let h := s.me
      Readable s h (loadSize op) (addressOf s h rs1 imm) l t → LineFree t h l false →
      let n := loadSize op
      let c := t.ctxOf h.tile
      let put (r : State × Nat) : Host.Outcome State Fault Refusal :=
        .next ((match op with
          | .flw => r.1.modHart h (fun x => x.writeF rd (BitVec.ofNat 32 r.2))
          | _ => r.1.writeX h rd (loadExtend op r.2)).retire h ((s.hart h).pc + 4))
      exec (.plainLoad op rd rs1 imm) s = put (t.cachedRead h.tile c l n) ∧
      (leavesTile h.tile l = false → t.cachedRead h.tile c l n = (t.countAccess c l).homeRead (some c) l.pa n) ∧
      (∀ x, leavesTile h.tile l = true → l.tier ≠ 2 → (t.tile h.tile).cache.find? (fun x => x.line = l.pa / 64) = some x →
        (t.cachedRead h.tile c l n).2 = x.data.toNat / 2 ^ (8 * (l.pa % 64)) % 2 ^ (8 * n)) ∧
      (leavesTile h.tile l = true → l.tier ≠ 2 → (t.tile h.tile).cache.find? (fun x => x.line = l.pa / 64) = none →
        t.takeLoss h.tile c false l = none →
        let r := (t.countAccess c l).homeRead (some c) (l.pa / 64 * 64) 64
        (t.cachedRead h.tile c l n).2 = r.2 / 2 ^ (8 * (l.pa % 64)) % 2 ^ (8 * n) ∧
        ∃ x ∈ ((t.cachedRead h.tile c l n).1.tile h.tile).cache, x.line = l.pa / 64 ∧ x.data = BitVec.ofNat 512 r.2)) ∧
  (∀ (s : State) (op : LoadOp) (rd rs1 : Reg) (imm : BitVec 12),
      let h := s.me
      Traps (.plainLoad op rd rs1 imm) s 0 (loadSize op) (addressOf s h rs1 imm) (fun _ => true) (fun _ => true))

/-- R50, R83, R93, R355 (derived): a plain store to a writable address outside tier F, on a line that no command holds, is performed at the
home, and the tile's cached line is discarded; where its packet is not dropped and no tagged request is held at its word, the bytes
stored then read as the low bytes of the source. (That it is performed in the step that issues it is the model's choice, log entry 22.)
R241 (derived): `ld.u` reads the home past the cache and the range table, `sd.u` writes it past the range table.
R130, R241, R348 (derived): a store and `sd.u` trap with codes 6, 7 and 15 where the address is misaligned, is not below 2^52 or has a page
fault, of kind 3 where its page is not writable or in tier F; `ld.u` traps as a plain load. -/
def Obligations.StoreResults : Prop :=
  (∀ (s t : State) (op : StoreOp) (rs1 rs2 : Reg) (imm : BitVec 12) (l : Leaf),
      let h := s.me
      let c := s.ctxOf h.tile
      let v := storeValue s h op rs2
      Writable s h (storeSize op) (addressOf s h rs1 imm) l t → l.tier ≠ 2 → LineFree t h l true →
      let u := t.plainWrite h.tile c l (storeSize op) v
      exec (.plainStore op rs1 rs2 imm) s = .next (u.retire h ((s.hart h).pc + 4)) ∧
      (t.takeLoss h.tile c true l = none → Stored t l →
        (u.retire h ((s.hart h).pc + 4)).rawRead l.pa (storeSize op) = v % 2 ^ (8 * storeSize op)) ∧
      (∀ x ∈ ((u.retire h ((s.hart h).pc + 4)).tile h.tile).cache, x.line ≠ l.pa / 64)) ∧
  (∀ (s t : State) (rd rs1 rs2 : Reg) (imm : BitVec 12) (l : Leaf),
      let h := s.me
      let c := s.ctxOf h.tile
      (Readable s h 8 (addressOf s h rs1 imm) l t →
        let r := t.bypassRead h.tile c l 8 false
        exec (.ldU rd rs1 imm) s = .next ((r.1.writeX h rd (BitVec.ofNat 64 r.2)).retire h ((s.hart h).pc + 4)) ∧
        (t.takeLoss h.tile c false l = none → r = t.directRead c l 8)) ∧
      (Writable s h 8 (addressOf s h rs1 imm) l t → l.tier ≠ 2 →
        let u := (t.plainWrite h.tile c l 8 (s.readX h rs2).toNat).retire h ((s.hart h).pc + 4)
        exec (.sdU rs1 rs2 imm) s = .next u ∧
        (t.takeLoss h.tile c true l = none → Stored t l → u.rawRead l.pa 8 = (s.readX h rs2).toNat))) ∧
  (∀ (s : State) (op : StoreOp) (rd rs1 rs2 : Reg) (imm : BitVec 12),
      let va := addressOf s s.me rs1 imm
      Traps (.plainStore op rs1 rs2 imm) s 2 (storeSize op) va (fun _ => true) (fun l => l.tier ≠ 2 && l.writable) ∧
      Traps (.sdU rs1 rs2 imm) s 2 8 va (fun _ => true) (fun l => l.tier ≠ 2 && l.writable) ∧
      Traps (.ldU rd rs1 imm) s 0 8 va (fun _ => true) (fun _ => true))

/-- The frame of a plain load and of `ld.u` in a state where no line holds an upset (R50, R82, R89, R355; derived): every byte of
memory and every full/empty bit reads as before, every context but for its access and loss counts, every anvil, ring, watch and
held request is as it was; of all that tiles hold for contexts only the hart that loads changes, and of it only the
destination register, the pc, `instret` and `run`, and that it keeps no word of a record. -/
def Obligations.LoadFrame : Prop :=
  ∀ (s t : State) (rd rs1 : Reg) (imm : BitVec 12) (l : Leaf) (op : LoadOp) (i : Instr),
    let h := s.me
    Quiet s → (i = .plainLoad op rd rs1 imm ∨ i = .ldU rd rs1 imm) →
    (∃ u n, Readable s h n (addressOf s h rs1 imm) l u ∧ n = (if i = .ldU rd rs1 imm then 8 else loadSize op) ∧
      LineFree u h l false) →
    exec i s = .next t →
    (∀ a, t.byte a = s.byte a) ∧ t.full = s.full ∧ t.anvils = s.anvils ∧ t.rings = s.rings ∧ t.watches = s.watches ∧
    t.held = s.held ∧ (∀ c, t.ctx c = { s.ctx c with hot := (t.ctx c).hot, lost := (t.ctx c).lost }) ∧
    (∀ u, u ≠ h.tile → t.tc u = s.tc u) ∧ t.tc h.tile = (s.tc h.tile).setHart h.move (t.hart h) ∧
    t.hart h = { s.hart h with x := (t.hart h).x, f := (t.hart h).f, pc := (s.hart h).pc + 4,
                               instret := (s.hart h).instret + 1, run := .running, tmpl := [] } ∧
    (∀ q, q ≠ rd → t.readX h q = s.readX h q) ∧ (∀ q, q ≠ rd → (t.hart h).readF q = (s.hart h).readF q)

/-- The frame of a plain store, of `sd.u` and of the atomics (R50, R81, R85, R202, R221, R355; derived): where no line holds an upset and
no request is held at the word, every byte outside the bytes stored reads as before, every full/empty bit, every anvil, ring, held
request and context but for its counts of lost install requests and lost packets is as it was, of what tiles hold for contexts only
harts change, of harts only wake slots, and of the hart that stores the pc, `instret`, `run`, the record words it keeps and, for an atomic, its
destination register. -/
def Obligations.StoreFrame : Prop :=
  ∀ (s t u : State) (rd rs1 rs2 rs3 : Reg) (imm : BitVec 12) (l : Leaf) (op : StoreOp) (i : Instr) (n : Nat) (a : Word),
    let h := s.me
    let at64 : List Instr := [.maAdd rd rs1 rs2, .maMin rd rs1 rs2, .maMax rd rs1 rs2, .maAnd rd rs1 rs2, .maOr rd rs1 rs2,
      .maXor rd rs1 rs2, .maSwap rd rs1 rs2, .maCas rd rs1 rs2, .maIncw rd rs1 rs2, .maAddb rd rs1 rs2 rs3]
    let at32 : List Instr := [.maFaddS rd rs1 rs2, .maFmaxabsS rd rs1 rs2]
    Quiet s → (i = .plainStore op rs1 rs2 imm ∧ n = storeSize op ∧ a = addressOf s h rs1 imm ∧ l.tier ≠ 2 ∨
      i = .sdU rs1 rs2 imm ∧ n = 8 ∧ a = addressOf s h rs1 imm ∧ l.tier ≠ 2 ∨
      i ∈ at64 ∧ n = 8 ∧ a = s.readX h rs1 ∧ l.tier ≤ 1 ∨ i ∈ at32 ∧ n = 4 ∧ a = s.readX h rs1 ∧ l.tier ≤ 1) →
    Writable s h n a l u → LineFree u h l true → (∀ r ∈ s.held, r.pa / 8 ≠ l.pa / 8) →
    exec i s = .next t →
    (∀ b, (b < l.pa ∨ l.pa + n ≤ b) → t.byte b = s.byte b) ∧ t.full = s.full ∧ t.anvils = s.anvils ∧ t.rings = s.rings ∧
    t.held = s.held ∧ (∀ c, t.ctx c = { s.ctx c with lostInstalls := (t.ctx c).lostInstalls, lost := (t.ctx c).lost }) ∧
    (∀ k, t.tc k = { s.tc k with main := (t.tc k).main, move := (t.tc k).move }) ∧
    (∀ g, g ≠ h → t.hart g = { s.hart g with slots := (t.hart g).slots }) ∧
    t.hart h = { s.hart h with slots := (t.hart h).slots, x := (t.hart h).x, pc := (s.hart h).pc + 4,
                               instret := (s.hart h).instret + 1, run := .running, tmpl := [] } ∧
    (∀ q, (q ≠ rd ∨ i ∉ at64 ∧ i ∉ at32) → t.readX h q = s.readX h q)

/-- The frame of the instructions that only write a register (R50, R54, R57, R58, R115, R152, R212, R223, R224; derived): unless it traps
or waits, nothing but the tile's hart changes, and of it only the destination register, the flags that a floating-point instruction
accrues, the pc, `instret`, `run` and the record words it keeps; x0 stays zero. An instruction of the list whose operation writes only an x
or an f register leaves the coordinates and the flags, and one that is no jump goes on at pc + 4 (pc + 8 for `flit.s`). -/
def Obligations.RegisterFrame : Prop :=
  ∀ (s t : State) (rd rs1 rs2 rs3 : Reg) (a : AluOp) (b : AluWOp) (c : ImmOp) (d : ShiftOp) (imm : BitVec 12) (u : BitVec 20)
    (sh : BitVec 6) (shw : BitVec 5) (k : BitVec 8) (x : BitVec 3) (q v : BitVec 2) (n : BitVec 4) (y : BitVec 1) (lit : Word32)
    (w : CsrOp) (fa : FArithOp) (fm : FmaOp) (fs : FSgnOp) (fc : FCmpOp) (it : FInt) (mx : Bool) (i : Instr),
    let h := s.me
    let plain : List Instr := [.baseInstruction (.alu a rd rs1 rs2), .baseInstruction (.aluW b rd rs1 rs2),
      .baseInstruction (.opImm c rd rs1 imm), .baseInstruction (.addiw rd rs1 imm),
      .baseInstruction (.shiftImm d rd rs1 sh), .baseInstruction (.shiftImmW d rd rs1 shw),
      .baseInstruction (.lui rd u), .baseInstruction (.auipc rd u), .fimmS rd u, .flitS rd lit, .fconstS rd k, .tlRead rd x,
      .qstatQ rd q, .qstatDq rd x, .accrd rd y rs1, .vread rd v]
    let jumps : List Instr := [.baseInstruction (.jal rd u), .baseInstruction (.jalr rd rs1 imm)]
    let floats : List Instr := [.baseInstruction (.farith fa rd rs1 rs2 x), .baseInstruction (.fma fm rd rs1 rs2 rs3 x),
      .baseInstruction (.fsqrt rd rs1 x), .baseInstruction (.fsgn fs rd rs1 rs2), .baseInstruction (.fminmax mx rd rs1 rs2),
      .baseInstruction (.fcmp fc rd rs1 rs2), .baseInstruction (.fcvtToInt it rd rs1 x),
      .baseInstruction (.fcvtFromInt it rd rs1 x), .baseInstruction (.fmvXW rd rs1), .baseInstruction (.fmvWX rd rs1),
      .baseInstruction (.fclass rd rs1)]
    (i ∈ plain ∨ i ∈ jumps ∨ i ∈ floats ∨ i = .cset n rs1 imm ∨ i = .baseInstruction (.csrRead w) ∧ w.rd = rd) →
    exec i s = .next t →
    (∃ code detail val, t = s.takeTrap h false code detail val) ∨ (∃ z, t = s.setWait h z) ∨
    (t = { s with tiles := t.tiles } ∧ (∀ g, g ≠ h.tile → t.tile g = s.tile g) ∧
     t.tile h.tile = { s.tile h.tile with ctx := (s.tc h.tile).setHart h.move (t.hart h) } ∧
     t.hart h = { s.hart h with x := (t.hart h).x, f := (t.hart h).f, c := (t.hart h).c, fflags := (t.hart h).fflags,
                                pc := (t.hart h).pc, instret := (s.hart h).instret + 1, run := .running, tmpl := [] } ∧
     (i ∉ jumps → (t.hart h).pc = (s.hart h).pc + (if i = .flitS rd lit then 8 else 4)) ∧
     (i ∉ floats → (t.hart h).fflags = (s.hart h).fflags) ∧
     (∀ m, m ≠ n.toNat ∨ i ≠ .cset n rs1 imm → SMap.get 0 (t.hart h).c m = SMap.get 0 (s.hart h).c m) ∧
     (∀ r, r ≠ rd → t.readX h r = s.readX h r ∧ (t.hart h).readF r = (s.hart h).readF r) ∧ t.readX h 0 = 0)

/-! ## Atomics -/

/-- R221 (stated), R117, R220, R222 (derived): an atomic on a writable address of tier S or D reads the word at its home, writes the
value that its operation makes of it and gives the old value in xd; `ma.addb` adds only up to its bound and reports
failure in xd[63]. The 32-bit forms act on four bytes. The words of R221 decode to the forms of its table. What an atomic writes then
reads back at the home, where no tagged request is held at the word, and the old value is the one that stood there, where no line
holds an upset. An atomic traps with code 6 where its address is misaligned, with code 7 where it is not below 2^52 or lies in another tier,
and with code 15 at a page fault (R130, R348). -/
def Obligations.AtomicResults : Prop :=
  ∀ (s t : State) (rd rs1 rs2 rs3 : Reg) (l : Leaf) (lit : Word32),
    let h := s.me
    let v := s.readX h rs2
    let maWord (f7 : BitVec 7) : Word32 := f7 ++ rs2 ++ rs1 ++ (6#3) ++ rd ++ (0x2B#7)
    let done (n : Nat) (f : Nat → Nat) (res : Nat → Word) : Host.Outcome State Fault Refusal :=
      let r := t.atomic h.tile (t.ctxOf h.tile) l n f
      .next ((r.1.writeX h rd (res r.2)).retire h ((s.hart h).pc + 4))
    let word (f : Word → Word) := done 8 (fun o => (f (BitVec.ofNat 64 o)).toNat) (BitVec.ofNat 64)
    ([0x00, 0x01, 0x02, 0x03, 0x04, 0x05, 0x06, 0x07, 0x08, 0x10, 0x11].map (fun f => decodeHart (maWord f) lit) =
      [.maAdd rd rs1 rs2, .maMin rd rs1 rs2, .maMax rd rs1 rs2, .maAnd rd rs1 rs2, .maOr rd rs1 rs2, .maXor rd rs1 rs2,
       .maSwap rd rs1 rs2, .maCas rd rs1 rs2, .maIncw rd rs1 rs2, .maFaddS rd rs1 rs2, .maFmaxabsS rd rs1 rs2]) ∧
    (Writable s h 8 (s.readX h rs1) l t → l.tier ≤ 1 → LineFree t h l true →
      exec (.maAdd rd rs1 rs2) s = word (fun o => o + v) ∧
      exec (.maMin rd rs1 rs2) s = word (fun o => if v.slt o then v else o) ∧
      exec (.maMax rd rs1 rs2) s = word (fun o => if o.slt v then v else o) ∧
      exec (.maAnd rd rs1 rs2) s = word (fun o => o &&& v) ∧
      exec (.maOr rd rs1 rs2) s = word (fun o => o ||| v) ∧
      exec (.maXor rd rs1 rs2) s = word (fun o => o ^^^ v) ∧
      exec (.maSwap rd rs1 rs2) s = word (fun _ => v) ∧
      exec (.maCas rd rs1 rs2) s = word (fun o => if o = s.readX h rd then v else o) ∧
      exec (.maIncw rd rs1 rs2) s = word (fun o => if v.ule o then 0 else o + 1) ∧
      exec (.maAddb rd rs1 rs2 rs3) s =
        done 8 (fun o => if o + v.toNat ≤ (s.readX h rs3).toNat then o + v.toNat else o)
          (fun o => BitVec.ofNat 64
            ((if o + v.toNat ≤ (s.readX h rs3).toNat then 0 else 2 ^ 63) + o % 2 ^ 63))) ∧
    (Writable s h 4 (s.readX h rs1) l t → l.tier ≤ 1 → LineFree t h l true →
      exec (.maFaddS rd rs1 rs2) s = done 4 (fun o => fp32Sum o (v.toNat % 2 ^ 32)) (BitVec.ofNat 64) ∧
      exec (.maFmaxabsS rd rs1 rs2) s = done 4 (fun o => fmaxabs o (v.toNat % 2 ^ 32)) (BitVec.ofNat 64)) ∧
    (∀ (n : Nat) (f : Nat → Nat), Stored t l →
      let r := t.atomic h.tile (t.ctxOf h.tile) l n f
      r.1.rawRead l.pa n = f r.2 % 2 ^ (8 * n) ∧ (Quiet t → r.2 = t.rawRead l.pa n)) ∧
    (∀ i ∈ ([.maAdd rd rs1 rs2, .maMin rd rs1 rs2, .maMax rd rs1 rs2, .maAnd rd rs1 rs2, .maOr rd rs1 rs2, .maXor rd rs1 rs2,
        .maSwap rd rs1 rs2, .maCas rd rs1 rs2, .maIncw rd rs1 rs2, .maAddb rd rs1 rs2 rs3] : List Instr),
      Traps i s 2 8 (s.readX h rs1) (fun t => t ≤ 1) Leaf.writable) ∧
    (∀ i ∈ ([.maFaddS rd rs1 rs2, .maFmaxabsS rd rs1 rs2] : List Instr),
      Traps i s 2 4 (s.readX h rs1) (fun t => t ≤ 1) Leaf.writable)

/-! ## Tagged words -/

/-- R217, R218 (derived): a tagged instruction on a tier S word sends its request to the word's home, where it joins the requests held
there, and its hart waits; the home serves the oldest request of the word whose condition holds: an `ldf` or `ldt` a full word,
an `ste` an empty one, an `stf` any. Where no other request is held at the word, an `ldf` or `ldt` of a full word writes it to rd, an
`ldt` then empties it, an `stf`, and an `ste` of an empty word, write it and fill it, and the hart goes on at pc + 4; where its condition
does not hold the hart waits with its request held and nothing else changed at the word, and it ends so when the home serves it later.
R83, R107, R202 (derived): a load form discards the lines that its latch binds, a store form its own cached line; a served request leaves
every other word, context and tile but for harts, cached lines and counts of lost install requests as it was. (That emptying a word
fires no watch is the model's choice, log entry 96.)
R130, R217, R348 (derived): a load form traps with codes 4, 5 and 13, a store form with 6, 7 and 15: misaligned, outside tier S, a page
fault, which is of kind 3 where all but `ldf` name a page that is not writable. -/
def Obligations.TaggedResults : Prop :=
  (∀ (s t : State) (rd rs1 rs2 : Reg) (imm : BitVec 12) (l : Leaf),
      let h := s.me
      let va := addressOf s h rs1 imm
      let c := t.ctxOf h.tile
      let sent (u : State) (k : TaggedKind) (r : Reg) (v : Word) : Host.Outcome State Fault Refusal :=
        .next ((State.setWait { u with held := u.held ++ [{ pa := l.pa, tile := h.tile, move := h.move, kind := k,
                                                               rd := r, value := v, va := va }] } h (.tagged l.pa)).homeScan l.pa)
      let loads := ((t.countAccess c l).touch (some c) (l.pa / 64)).markTagged c l
      let stores := ((t.touch (some c) (l.pa / 64)).markTagged c l).discard h.tile (fun x => x = l.pa / 64)
      (Readable s h 8 va l t → l.tier = 0 → LineFree t h l false → exec (.ldf rd rs1 imm) s = sent loads .ldf rd 0) ∧
      (Writable s h 8 va l t → l.tier = 0 → LineFree t h l true →
        exec (.ldt rd rs1 imm) s = sent loads .ldt rd 0 ∧
        exec (.stf rs1 rs2 imm) s = sent stores .stf 0 (s.readX h rs2) ∧
        exec (.ste rs1 rs2 imm) s = sent stores .ste 0 (s.readX h rs2))) ∧
  (∀ (s t : State) (rd rs1 rs2 : Reg) (imm : BitVec 12) (l : Leaf),
      let h := s.me
      let va := addressOf s h rs1 imm
      let old := BitVec.ofNat 64 (s.rawRead l.pa 8)
      let done (u : State) (r : Reg) (v : Word) : Prop :=
        (u.hart h).pc = (s.hart h).pc + 4 ∧ (u.hart h).run = .running ∧ u.readX h r = (if r = 0 then 0 else v) ∧
        ∀ q ∈ u.held, q.pa / 8 ≠ l.pa / 8
      let waits (u : State) (k : TaggedKind) : Prop :=
        (u.hart h).run = .waiting (.tagged l.pa) ∧ (u.hart h).pc = (s.hart h).pc ∧ u.mem = s.mem ∧ u.full = s.full ∧
        ∃ q ∈ u.held, q.pa = l.pa ∧ q.tile = h.tile ∧ q.move = h.move ∧ q.kind = k
      Quiet s → (∀ q ∈ s.held, q.pa / 8 ≠ l.pa / 8) → Readable s h 8 va l t → l.tier = 0 →
      (LineFree t h l false →
        (s.isFull l.pa = true → ∃ u, exec (.ldf rd rs1 imm) s = .next u ∧ done u rd old ∧ u.mem = s.mem ∧ u.full = s.full) ∧
        (s.isFull l.pa = false → ∃ u, exec (.ldf rd rs1 imm) s = .next u ∧ waits u .ldf)) ∧
      (Writable s h 8 va l t → LineFree t h l true →
        (s.isFull l.pa = true → ∃ u, exec (.ldt rd rs1 imm) s = .next u ∧ done u rd old ∧ u.mem = s.mem ∧
          u.isFull l.pa = false ∧ ∀ a, a / 8 ≠ l.pa / 8 → u.isFull a = s.isFull a) ∧
        (s.isFull l.pa = false → ∃ u, exec (.ldt rd rs1 imm) s = .next u ∧ waits u .ldt) ∧
        (∀ i : Instr, i = .stf rs1 rs2 imm ∨ i = .ste rs1 rs2 imm ∧ s.isFull l.pa = false →
          ∃ u, exec i s = .next u ∧ done u 0 0 ∧ u.rawRead l.pa 8 = (s.readX h rs2).toNat ∧ u.isFull l.pa = true ∧
            (∀ a, a < l.pa ∨ l.pa + 8 ≤ a → u.byte a = s.byte a) ∧ ∀ a, a / 8 ≠ l.pa / 8 → u.isFull a = s.isFull a) ∧
        (s.isFull l.pa = true → ∃ u, exec (.ste rs1 rs2 imm) s = .next u ∧ waits u .ste))) ∧
  (∀ (s : State) (pa : Nat) (r : Held),
      let h : HartId := ⟨r.tile, r.move⟩
      ((∀ q ∈ s.held, q.pa / 8 = pa / 8 → s.heldReady q = false) → exec (.taggedRequestServed pa) s = .next s) ∧
      (s.held.find? (fun r => r.pa / 8 = pa / 8 && s.heldReady r) = some r →
        exec (.taggedRequestServed pa) s = .next ((s.serve r).scan pa (s.held.length - 1))) ∧
      (s.held = [r] → r.pa / 8 = pa / 8 → s.heldReady r = true → ∃ u, exec (.taggedRequestServed pa) s = .next u ∧
        u = s.serve r ∧ u.held = [] ∧ (u.hart h).pc = (s.hart h).pc + 4 ∧ (u.hart h).run = .running)) ∧
  (∀ (s : State) (r : Held), r.pa % 8 = 0 →
      let h : HartId := ⟨r.tile, r.move⟩
      let u := s.serve r
      u.held = s.held.filter (fun q => !(q.tile = r.tile && q.move = r.move)) ∧
      (u.hart h).pc = (s.hart h).pc + 4 ∧ (u.hart h).run = .running ∧
      (r.kind = .ldf ∨ r.kind = .ldt → (∀ a, u.byte a = s.byte a) ∧ u.ctxs = s.ctxs ∧
        u.readX h r.rd = (if r.rd = 0 then 0 else BitVec.ofNat 64 (s.rawRead r.pa 8))) ∧
      (r.kind = .ldf → u.full = s.full) ∧ (r.kind = .ldt → u.isFull r.pa = false) ∧
      (r.kind = .ste ∨ r.kind = .stf → u.isFull r.pa = true ∧ u.rawRead r.pa 8 = r.value.toNat ∧
        (∀ a, (a < r.pa ∨ r.pa + 8 ≤ a) → u.byte a = s.byte a) ∧ (∀ x ∈ (u.tile r.tile).cache, x.line ≠ r.pa / 64) ∧
        (∀ q, u.readX h q = s.readX h q)) ∧
      (∀ a, a / 8 ≠ r.pa / 8 → u.isFull a = s.isFull a) ∧ u.anvils = s.anvils ∧ u.rings = s.rings ∧
      (∀ c, u.ctx c = { s.ctx c with lostInstalls := (u.ctx c).lostInstalls }) ∧
      (∀ k, u.tc k = { s.tc k with main := (u.tc k).main, move := (u.tc k).move }) ∧
      (∀ g, g ≠ h → u.hart g = { s.hart g with slots := (u.hart g).slots })) ∧
  (∀ (s : State) (rd rs1 rs2 : Reg) (imm : BitVec 12),
      let va := addressOf s s.me rs1 imm
      Traps (.ldf rd rs1 imm) s 0 8 va (fun t => t = 0) (fun _ => true) ∧
      Traps (.ldt rd rs1 imm) s 0 8 va (fun t => t = 0) Leaf.writable ∧
      Traps (.stf rs1 rs2 imm) s 2 8 va (fun t => t = 0) Leaf.writable ∧
      Traps (.ste rs1 rs2 imm) s 2 8 va (fun t => t = 0) Leaf.writable)

/-! ## Tokens, timelines, fences, wake slots, barriers -/

/-- R214, R215 (derived): a give of 1 to 65,535 units adds them, clamped at 2^32 − 1; a take that finds its counter without
waiters and with enough units subtracts them and retires; one that does not waits; a count of 0 or above 65,535 is an
illegal instruction. A give or take leaves memory, contexts and every tile but its own as they were, and of its own tile all but the
counter, the clamp bits and its hart.
R215 (derived): a waiting take is served where it is the oldest of its counter and the units are there; it then
retires. -/
def Obligations.TokenResults : Prop :=
  (∀ (s : State) (n : BitVec 4) (rs1 : Reg),
      let h := s.me
      let v := s.readX h rs1
      let k := (s.tc h.tile).token n.toNat
      let next := (s.hart h).pc + 4
      (v ≠ 0 → v.toNat ≤ 65535 →
        exec (.tkGive n rs1) s = .next ((s.modTc h.tile (fun c => c.give n.toNat v.toNat (.hart h.move))).retire h next) ∧
        ((((s.tc h.tile).give n.toNat v.toNat (.hart h.move)).token n.toNat).count =
          k.count + min v.toNat (2 ^ 32 - 1 - k.count)) ∧
        (k.waiters = [] → v.toNat ≤ k.count → ∃ t, exec (.tkTake n rs1) s = .next t ∧
          ((t.tc h.tile).token n.toNat).count = k.count - v.toNat ∧ ((t.tc h.tile).token n.toNat).waiters = [] ∧
          (t.hart h).pc = next ∧ (t.hart h).run = .running) ∧
        (k.waiters ≠ [] ∨ k.count < v.toNat → ∃ t, exec (.tkTake n rs1) s = .next t ∧
          ((t.tc h.tile).token n.toNat).count = k.count ∧
          ((t.tc h.tile).token n.toNat).waiters = k.waiters ++ [.hart h.move v.toNat] ∧
          (t.hart h).run = .waiting (.tk n v.toNat)) ∧
        (∀ (t : State) (i : Instr), i = .tkGive n rs1 ∨ i = .tkTake n rs1 → exec i s = .next t →
          t = { s with tiles := t.tiles } ∧ (∀ u, u ≠ h.tile → t.tile u = s.tile u) ∧
          t.tile h.tile = { s.tile h.tile with ctx := t.tc h.tile } ∧
          t.tc h.tile = { s.tc h.tile with tokens := (t.tc h.tile).tokens, tkov := (t.tc h.tile).tkov,
                                           main := (t.tc h.tile).main, move := (t.tc h.tile).move } ∧
          (∀ m, m ≠ n.toNat → (t.tc h.tile).token m = (s.tc h.tile).token m) ∧
          (∀ g, g ≠ h → t.hart g = s.hart g) ∧
          t.hart h = { s.hart h with pc := (t.hart h).pc, instret := (t.hart h).instret, run := (t.hart h).run,
                                     tmpl := (t.hart h).tmpl })) ∧
      (v = 0 ∨ 65535 < v.toNat →
        exec (.tkGive n rs1) s = .next (s.takeTrap h false 2 0 ((s.fetchWord h).setWidth 64)) ∧
        exec (.tkTake n rs1) s = .next (s.takeTrap h false 2 0 ((s.fetchWord h).setWidth 64)))) ∧
  (∀ (s : State) (n : BitVec 4) (m : Nat),
      let h := s.me
      let k := (s.tc h.tile).token n.toNat
      (s.hart h).run = .waiting (.tk n m) → k.waiters.head? = some (.hart h.move m) → m ≤ k.count →
      ∃ t, exec .tkTakeServed s = .next t ∧ ((t.tc h.tile).token n.toNat).count = k.count - m ∧
        ((t.tc h.tile).token n.toNat).waiters = k.waiters.tail ∧ (t.hart h).pc = (s.hart h).pc + 4 ∧
        (t.hart h).run = .running)

/-- R113, R114, R115 (derived): `tl.read` gives the count of a timeline; `tl.wait` for a count already reached retires at once, for a later
one it waits and retires when the count is reached; a wait that only the waiting hart could end is a trap with code 25. A `tl.wait` of tlr,
tli or tlm that returns discards the tile's cached lines, but one for 0 discards none.
R103, R110, R367 (derived; that every write is performed in the step that issues it is log entry 22): `fence` and `fence.i` only go on; a
scope fence on a bound entry discards every cached line of the tile and goes on; one of the movement hart on an entry of fabric reach first
waits while a command of q2 is not complete or not acknowledged; on an entry that is not bound it traps with code 26 and the entry. -/
def Obligations.TimelineAndFenceResults : Prop :=
  (∀ (s : State) (x : BitVec 3) (rd rs1 : Reg),
      let h := s.me
      let v := s.readX h rs1
      let next := (s.hart h).pc + 4
      exec (.tlRead rd x) s = .next (s.result h rd (BitVec.ofNat 64 (s.timeline h.tile x.toNat))) ∧
      (beyondTarget s h x.toNat v.toNat = true → exec (.tlWait x rs1) s = .next (s.takeTrap h false 25 x.toNat v)) ∧
      (beyondTarget s h x.toNat v.toNat = false → v.toNat ≤ s.timeline h.tile x.toNat → x.toNat < 4 →
        exec (.tlWait x rs1) s = .next (s.retire h next)) ∧
      (beyondTarget s h x.toNat v.toNat = false → s.timeline h.tile x.toNat < v.toNat →
        exec (.tlWait x rs1) s = .next (s.setWait h (.tl x v))) ∧
      (beyondTarget s h x.toNat v.toNat = false → v.toNat ≤ s.timeline h.tile x.toNat → 4 ≤ x.toNat → v ≠ 0 →
        exec (.tlWait x rs1) s = .next ((s.discardAll h.tile).retire h next)) ∧
      (4 ≤ x.toNat → v = 0 → exec (.tlWait x rs1) s = .next (s.retire h next)) ∧
      (∀ n, (s.hart h).run = .waiting (.tl x n) → s.timeline h.tile x.toNat < n.toNat → exec .tlWaitReturn s = .next s) ∧
      (∀ n, (s.hart h).run = .waiting (.tl x n) → n.toNat ≤ s.timeline h.tile x.toNat → 4 ≤ x.toNat → n ≠ 0 →
        exec .tlWaitReturn s = .next ((s.discardAll h.tile).retire h next)) ∧
      (∀ n, (s.hart h).run = .waiting (.tl x n) → n.toNat ≤ s.timeline h.tile x.toNat → x.toNat < 4 →
        exec .tlWaitReturn s = .next (s.retire h next))) ∧
  (∀ (s : State) (n : BitVec 5),
      let h := s.me
      let c := s.ctx (s.ctxOf h.tile)
      let next := (s.hart h).pc + 4
      exec .fence s = .next (s.retire h next) ∧ exec .fenceI s = .next (s.retire h next) ∧
      ((s.hart h).run ≠ .waiting .fence → c.scopeBound n.toNat = false →
        exec (.fenceG n) s = .next (s.takeTrap h false 26 n.toNat 0)) ∧
      let fabric : Bool := (SMap.get 0 c.scopes n.toNat).getLsbD 8
      let waits : Bool := h.move && (s.tc h.tile).fencePending
      ((s.hart h).run ≠ .waiting .fence → c.scopeBound n.toNat = true → fabric = false ∨ waits = false →
        exec (.fenceG n) s = .next ((s.discardAll h.tile).retire h next)) ∧
      ((s.hart h).run ≠ .waiting .fence → c.scopeBound n.toNat = true → fabric = true → waits = true →
        exec (.fenceG n) s = .next (s.setWait h .fence)) ∧
      ((s.hart h).run = .waiting .fence → waits = true → exec (.fenceG n) s = .next (s.setWait h .fence)) ∧
      ((s.hart h).run = .waiting .fence → waits = false → exec (.fenceG n) s = .next ((s.discardAll h.tile).retire h next)) ∧
      ((s.tc h.tile).fencePending = true ↔ (s.tc h.tile).q2.entries ≠ [] ∨ (s.tc h.tile).unacked ≠ []))

/-- R202, R203 (derived): `warm` arms a slot on a word of tier S; `wsleep` with no slot in use gives all ones, with a fired
slot gives the mask of the fired slots in [11:8] and the lowest in [1:0] and disarms all, else it waits, and wakes when a
slot fires. `warm` traps with code 4 where its address is misaligned, with 5 outside tier S and with 13 at a page fault (R130, R348). -/
def Obligations.WakeResults : Prop :=
  ∀ (s t : State) (k : BitVec 2) (rd rs1 : Reg) (l : Leaf),
    let h := s.me
    (Readable s h 8 (s.readX h rs1) l t → l.tier = 0 → ∃ u, exec (.warm k rs1) s = .next u ∧
      SMap.get .disarmed (u.hart h).slots k.toNat = .armed l.pa ∧
      ({ pa := l.pa, tile := h.tile, move := h.move, slot := k.toNat } : Watch) ∈ u.watches ∧ u.mem = t.mem) ∧
    Traps (.warm k rs1) s 0 8 (s.readX h rs1) (fun t => t = 0) (fun _ => true) ∧
    ((s.hart h).slots = [] → exec (.wsleep rd) s = .next (s.result h rd (BitVec.allOnes 64))) ∧
    ((s.hart h).slots ≠ [] → (s.hart h).fired = [] → exec (.wsleep rd) s = .next (s.setWait h (.wsleep rd))) ∧
    ((s.hart h).slots ≠ [] → (s.hart h).fired ≠ [] → ∃ u, exec (.wsleep rd) s = .next u ∧
      (rd ≠ 0 → u.readX h rd = wakeWord (s.hart h).fired) ∧ (u.hart h).slots = [] ∧ (u.hart h).pc = (s.hart h).pc + 4) ∧
    ((s.hart h).run = .waiting (.wsleep rd) → (s.hart h).fired ≠ [] → ∃ u, exec .wsleepWake s = .next u ∧
      (rd ≠ 0 → u.readX h rd = wakeWord (s.hart h).fired) ∧ (u.hart h).slots = [] ∧ (u.hart h).pc = (s.hart h).pc + 4)

/-- R196, R198, R199 (derived): what an arrival makes of the two words of a barrier: below the party count the count rises
and the token is the phase; the arrival that completes it begins the next phase with count 0 and has token bit 63; a
party count of zero or a reserved bit refuses it. -/
def Obligations.BarrierArrivalRule : Prop :=
  ∀ w z : Nat, w < 2 ^ 64 → z < 2 ^ 64 →
    (z / 2 ^ 40 ≠ 0 ∨ z % 2 ^ 40 = 0 → arrival w z = none) ∧
    (z / 2 ^ 40 = 0 → z % 2 ^ 40 ≠ 0 → w % 2 ^ 40 + 1 < z → ∃ b, arrival w z = some (b, w / 2 ^ 40) ∧
      b / 2 ^ 40 = w / 2 ^ 40 ∧ b % 2 ^ 40 = w % 2 ^ 40 + 1) ∧
    (z / 2 ^ 40 = 0 → z % 2 ^ 40 ≠ 0 → z ≤ w % 2 ^ 40 + 1 → ∃ b, arrival w z = some (b, 2 ^ 63 + w / 2 ^ 40) ∧
      b / 2 ^ 40 = (w / 2 ^ 40 + 1) % 2 ^ 24 ∧ b % 2 ^ 40 = 0)

/-- R83, R199, R200 (derived): an arrival on a writable barrier that accepts it writes the barrier word, fills it and gives the token,
where no request is held at its words and no line holds an upset: the barrier word then reads as the new word and is full. An arrival that
the barrier refuses traps with code 7 and writes nothing. `barr.wait` gives the phase difference where it is not zero and else waits, and
the wait ends by the same rule. An arrival traps with codes 6, 7 and 15, a wait with 4, 5 and 13: at an address that is no multiple of 16,
outside tier S, or with a page fault, of kind 3 for an arrival on a page that is not writable (R130, R348). -/
def Obligations.BarrierResults : Prop :=
  ∀ (s t : State) (rd rs1 rs2 : Reg) (l : Leaf),
    let h := s.me
    let a := s.readX h rs1
    let next := (s.hart h).pc + 4
    (Writable s h 8 a l t → a.toNat % 16 = 0 → l.tier = 0 → LineFree t h l true →
      let c := s.ctxOf h.tile
      let r := t.homeRead (some c) l.pa 8
      let q := r.1.homeRead (some c) (l.pa + 8) 8
      (∀ b token, arrival r.2 q.2 = some (b, token) →
        let u := ((q.1.tileWrite h.tile c l 8 b (some true)).markTagged c l).writeX h rd (BitVec.ofNat 64 token)
        exec (.barrArrive rd rs1) s = .next (u.retire h next) ∧
        (Stored t l → Quiet s → u.rawRead l.pa 8 = b % 2 ^ 64 ∧ u.isFull l.pa = true ∧ r.2 = t.rawRead l.pa 8 ∧
          q.2 = t.rawRead (l.pa + 8) 8)) ∧
      (arrival r.2 q.2 = none → exec (.barrArrive rd rs1) s = .next (q.1.takeTrap h false 7 0 a))) ∧
    (Readable s h 8 a l t → a.toNat % 16 = 0 → l.tier = 0 → LineFree t h l false →
      let c := t.ctxOf h.tile
      let r := t.homeRead (some c) l.pa 8
      let d := BitVec.ofNat 24 (r.2 / 2 ^ 40) - bits (s.readX h rs2) 0 24
      (d ≠ 0 → exec (.barrWait rd rs1 rs2) s =
        .next ((((r.1.markTagged c l).acquireLatch h.tile a).writeX h rd (d.setWidth 64)).retire h next)) ∧
      (d = 0 → exec (.barrWait rd rs1 rs2) s =
        .next ((r.1.markTagged c l).setWait h (.barr l.pa a (bits (s.readX h rs2) 0 24) rd)))) ∧
    (∀ (pa : Nat) (token : BitVec 24), (s.hart h).run = .waiting (.barr pa a token rd) → Readable s h 8 a l t →
      a.toNat % 16 = 0 → l.tier = 0 → LineFree t h l false →
      let c := t.ctxOf h.tile
      let r := t.homeRead (some c) l.pa 8
      let d := BitVec.ofNat 24 (r.2 / 2 ^ 40) - token
      d ≠ 0 → exec .barrWaitWake s =
        .next ((((r.1.markTagged c l).acquireLatch h.tile a).writeX h rd (d.setWidth 64)).retire h next)) ∧
    Traps (.barrArrive rd rs1) s 2 16 a (fun t => t = 0) Leaf.writable ∧
    Traps (.barrWait rd rs1 rs2) s 0 16 a (fun t => t = 0) (fun _ => true)

/-! ## Accumulator, vote and queue reads -/

/-- R152, R223, R224 (derived): `accrd` on the main hart reads an accumulator element while no command owns the
accumulators, and traps with code 27 while one does; `vread` gives a vote once no vote command for it is out, else it
waits and returns by the same rule; `qstat` gives the status word of a command queue or a data queue. (Which of several reasons `qstat`
names, and that every pending anvil command owns both accumulators, is the model's choice, logs 12, 46 and 52.) -/
def Obligations.EngineReadResults : Prop :=
  ∀ (s : State) (rd rs1 : Reg) (a : BitVec 1) (v q : BitVec 2) (d : BitVec 3),
    let h := s.me
    (h.move = false → (s.readX h rs1).toNat < 4096 → (s.tc h.tile).q0.entries.find? (fun x => ownsAcc x.w) = none →
      exec (.accrd rd a rs1) s =
        .next (s.result h rd ((SMap.get 0 ((s.tc h.tile).acc a) (s.readX h rs1).toNat).setWidth 64))) ∧
    (∀ e, h.move = false → (s.readX h rs1).toNat < 4096 → (s.tc h.tile).q0.entries.find? (fun x => ownsAcc x.w) = some e →
      exec (.accrd rd a rs1) s = .next (s.takeTrap h false 27 a.toNat e.ret)) ∧
    (h.move = false → (s.tc h.tile).votePending v = false →
      exec (.vread rd v) s = .next (s.result h rd (SMap.get 0 (s.tc h.tile).vt v.toNat))) ∧
    (h.move = false → (s.tc h.tile).votePending v = true → exec (.vread rd v) s = .next (s.setWait h (.vread rd v))) ∧
    ((s.hart h).run = .waiting (.vread rd v) → (s.tc h.tile).votePending v = false →
      exec .vreadReturn s = .next (s.result h rd (SMap.get 0 (s.tc h.tile).vt v.toNat))) ∧
    exec (.qstatQ rd q) s =
      .next (s.result h rd (s.queueStatus h.tile q.toNat)) ∧
    exec (.qstatDq rd d) s = .next (s.result h rd (dataStatus ((s.tc h.tile).dqueue d.toNat) (s.frozen h.tile)))

/-! ## Traps and services -/

/-- R129 (derived): taking a trap in user mode saves the pc, the cause and the value, sets H and goes to the vector; nothing else of the
hart changes but that it runs and forgets the words of a template that it has read in part, and nothing but the hart changes.
R50 (derived; machine-mode registers are log entry 93): in machine mode the trap is taken there: mepc, mcause and mtval are written and
the pc is that of mtvec. -/
def Obligations.TrapEntry : Prop :=
  ∀ (s : State) (h : HartId) (async : Bool) (code detail : Nat) (v : Word),
    let t := s.takeTrap h async code detail v
    let x := s.hart h
    (x.machine = false → x.inHandler = false → x.trapsEnabled = true →
      t.hart h = { x with ctxepc := x.pc &&& 0x3FFFC, ctxcause := causeWord async code detail (s.ctileOf h.tile), ctxval := v,
                          ctxstat := x.ctxstat ||| 0x10, pc := x.ctxvec &&& 0x3FFFC, run := .running, tmpl := [] } ∧
      (t.hart h).inHandler = true) ∧
    (x.machine = true →
      (t.hart h).pc = x.mreg 0x305 &&& ~~~3 ∧ (t.hart h).machine = true ∧ (t.hart h).run = .running ∧
      (t.hart h).mreg 0x341 = x.pc ∧ (t.hart h).mreg 0x343 = v ∧
      (t.hart h).mreg 0x342 = BitVec.ofNat 64 ((if async then 2 ^ 63 else 0) + code) ∧
      (∀ r, t.readX h r = s.readX h r)) ∧
    (x.machine = true ∨ x.inHandler = false ∧ x.trapsEnabled = true →
      (∀ g, g ≠ h → t.hart g = s.hart g) ∧ t = { s with tiles := t.tiles } ∧ (∀ k, k ≠ h.tile → t.tile k = s.tile k) ∧
      t.tile h.tile = { s.tile h.tile with ctx := (s.tc h.tile).setHart h.move (t.hart h) })

/-- R129, R132 (derived): a trap of a user-mode hart while H is set or E is clear is a context fault: reason 2 or 1, with the pc, the
cause and the value that the trap would have written. -/
def Obligations.TrapInHandlerFaultsTheContext : Prop :=
  ∀ (s : State) (h : HartId) (async : Bool) (code detail : Nat) (v : Word),
    (s.hart h).machine = false → (s.hart h).inHandler = true ∨ (s.hart h).trapsEnabled = false →
    let c := s.ctxOf h.tile
    (s.ctx c).st = .running → (s.ctx c).hasFault = false →
    let t := s.takeTrap h async code detail v
    (t.ctx c).st = .faulted ∧ (t.ctx c).hasFault = true ∧
    (t.ctx c).faultRecord = faultRecordOf v (causeWord async code detail (s.ctileOf h.tile)) (s.hart h).pc
      (if (s.hart h).inHandler then 2 else 1) h.move (s.ctileOf h.tile)

/-- R54, R128, R130, R131 (derived): `ebreak`, a word that is no instruction and `wfi` in user mode take their traps;
`tret` returns inside a handler and is illegal outside one, its word with a register field that is not zero illegal; `wfi` in machine mode
goes on. `mret` (R50; log entry 93) is illegal in user mode and in machine mode goes to mepc.
R129, R158 (derived): a hart whose command-fault trap is ready abandons what it waits for, clears CP and takes the trap
with code 16, bit 63 of the cause set and the queue as the detail; which of two faulted queues it names is log entry 19. -/
def Obligations.TrapInstructions : Prop :=
  (∀ (s : State) (w : Word32) (rd rs1 rs2 : Reg),
      let h := s.me
      let ill := s.takeTrap h false 2 0 ((s.fetchWord h).setWidth 64)
      let tretWord : Word32 := (4#7) ++ rs2 ++ rs1 ++ (5#3) ++ rd ++ (0x7B#7)
      decodeHart 0x0800507B w = .tret ∧
      ((rd ≠ 0 ∨ rs1 ≠ 0 ∨ rs2 ≠ 0) → decodeHart tretWord w = .illegalInstruction tretWord) ∧
      exec .ebreak s = .next (s.takeTrap h false 3 0 (s.hart h).pc) ∧
      exec (.illegalInstruction w) s = .next (s.takeTrap h false 2 0 (w.setWidth 64)) ∧
      ((s.hart h).machine = false → exec .wfi s = .next ill) ∧
      ((s.hart h).machine = true → exec .wfi s = .next (s.retire h ((s.hart h).pc + 4))) ∧
      ((s.hart h).inHandler = false → exec .tret s = .next ill) ∧
      ((s.hart h).inHandler = true → ∃ t, exec .tret s = .next t ∧ (t.hart h).pc = (s.hart h).ctxepc &&& 0x3FFFC ∧
        (t.hart h).inHandler = false ∧ (t.hart h).run = .running ∧ (∀ r, t.readX h r = s.readX h r) ∧ t.mem = s.mem) ∧
      ((s.hart h).machine = false → exec (.baseInstruction .mret) s = .next ill) ∧
      ((s.hart h).machine = true → ∃ t, exec (.baseInstruction .mret) s = .next t ∧
        (t.hart h).pc = (s.hart h).mreg 0x341 ∧ (∀ r, t.readX h r = s.readX h r) ∧ t.mem = s.mem)) ∧
  (∀ s : State,
      let h := s.me
      (s.hart h).trapReady = true →
      let q := (s.tc h.tile).faultedQueue h.move
      exec .commandFaultTrap s =
        .next (((s.abandon h).modHart h (fun x => x.setCP false)).takeTrap h true 16 q 0) ∧
      (((s.abandon h).modHart h (fun x => x.setCP false)).hart h).trapReady = false)

/-- R133 (derived): the services: 0 gives the firmware version, 1 posts x10 to the context's mailbox of 16 entries and
tells whether it was full, any other but 2 gives all ones.
R132, R133 (derived; the zero cause field is log entry 18): service 2 is a context fault of reason 3 with x10 in the
record's val field.
R50 (derived; machine mode is log entry 93): in machine mode an `ecall` is a trap of that mode with cause 11. -/
def Obligations.ServiceResults : Prop :=
  (∀ s : State,
      let h := s.me
      let c := s.ctxOf h.tile
      let next := (s.hart h).pc + 4
      (s.hart h).machine = false →
      exec .ecallFirmwareVersion s = .next ((s.writeX h 10 (s.dev.firmware.setWidth 64)).retire h next) ∧
      ((s.ctx c).mailbox.length < 16 → exec .ecallPostToHost s =
        .next (((s.modCtx c (fun x => { x with mailbox := x.mailbox ++ [s.readX h 10] })).writeX h 10 0).retire h next)) ∧
      (16 ≤ (s.ctx c).mailbox.length → exec .ecallPostToHost s = .next ((s.writeX h 10 1).retire h next)) ∧
      exec .ecallUnknown s = .next ((s.writeX h 10 (BitVec.allOnes 64)).retire h next)) ∧
  (∀ s : State,
      let h := s.me
      let c := s.ctxOf h.tile
      (s.hart h).machine = false → (s.ctx c).st = .running → (s.ctx c).hasFault = false →
      ∃ t, exec .ecallAbort s = .next t ∧ (t.ctx c).st = .faulted ∧
        (t.ctx c).faultRecord = faultRecordOf (s.readX h 10) 0 (s.hart h).pc 3 h.move (s.ctileOf h.tile)) ∧
  (∀ s : State, (s.hart s.me).machine = true →
      ∀ i ∈ ([.ecallFirmwareVersion, .ecallPostToHost, .ecallAbort, .ecallUnknown, .baseInstruction .ecall] : List Instr),
        exec i s = .next (s.takeTrap s.me false 11 0 0))

/-! ## Control registers -/

/-- R140, R141, R403 (derived): a CSR instruction that writes a register its hart may write gives rd the old value and
performs the write, with `csrrs` setting and `csrrc` clearing bits: shown for the scratch register, the vector and the
saved pc of a trap, whose reserved bits stay zero, and for `ctxstat`, of which only CE is written; a write of a read-only register is
an illegal instruction.
R116, R216, R251, R403 (derived): a write of `tlerr`, `tkov` or `bkovf` clears the bits written as 1 by `csrrw` and `csrrs`, and none by
`csrrc`.
R158, R403 (derived): a write of `qrec` that names a faulted queue that its hart pushes to starts the recovery: the hart stalls until it
is complete; one that names a usable queue only goes on, and one that names another queue is an illegal instruction; it reads zero.
R40, R42 (derived): a write of `rndtile` by the main hart with q0 empty seeds both generators of the tile from the value
written; the movement hart may not name it. -/
def Obligations.CsrResults : Prop :=
  (∀ (s : State) (c : CsrOp),
      let h := s.me
      let x := s.hart h
      let v := csrOperand c x
      let next := x.pc + 4
      let ill := s.takeTrap h false 2 0 ((s.fetchWord h).setWidth 64)
      let clear {n : Nat} (old w : BitVec n) : BitVec n := if c.kind = .rc then old else old &&& ~~~w
      (x.run = .running → c.csr = 0x8C8 → exec (.csrWrite c) s =
        .next (((s.setHart h { x with ctxscr := csrNew c.kind x.ctxscr v }).writeX h c.rd x.ctxscr).retire h next)) ∧
      (x.run = .running → c.csr = 0x8C4 → exec (.csrWrite c) s =
        .next (((s.setHart h { x with ctxvec := csrNew c.kind x.ctxvec v &&& 0x3FFFD }).writeX h c.rd x.ctxvec).retire h next)) ∧
      (x.run = .running → c.csr = 0x8C5 → exec (.csrWrite c) s =
        .next (((s.setHart h { x with ctxepc := csrNew c.kind x.ctxepc v &&& 0x3FFFC }).writeX h c.rd x.ctxepc).retire h next)) ∧
      (x.run = .running → c.csr = 0x8C9 → ∃ t, exec (.csrWrite c) s = .next t ∧
        (∀ i, i ≠ 5 → (t.hart h).ctxstat.getLsbD i = x.ctxstat.getLsbD i) ∧
        (t.hart h).ctxstat.getLsbD 5 = (csrNew c.kind x.ctxstat v).getLsbD 5 ∧ (t.hart h).pc = next ∧
        (c.rd ≠ 0 → t.readX h c.rd = x.ctxstat)) ∧
      (x.run = .running → c.csr = 0x8C1 → exec (.csrWrite c) s = .next (((s.modTc h.tile (fun k =>
        { k with tlerr := clear k.tlerr (bits v 0 7) })).writeX h c.rd ((s.tc h.tile).tlerr.setWidth 64)).retire h next)) ∧
      (x.run = .running → c.csr = 0x8CC → exec (.csrWrite c) s = .next (((s.modTc h.tile (fun k =>
        { k with tkov := clear k.tkov (bits v 0 16) })).writeX h c.rd ((s.tc h.tile).tkov.setWidth 64)).retire h next)) ∧
      (x.run = .running → c.csr = 0x8CD → exec (.csrWrite c) s = .next (((s.modTc h.tile (fun k =>
        { k with bkovf := clear k.bkovf (bits v 0 32) })).writeX h c.rd ((s.tc h.tile).bkovf.setWidth 64)).retire h next)) ∧
      (x.run = .running → c.csr = 0x8CA → c.kind ≠ .rc →
        let q := bits v 0 2
        (q ≠ 3 → h.move = decide (q ≠ 0) → (s.queue h.tile q.toNat).faulted = true →
          exec (.csrWrite c) s = .next ((s.setWait h (.qrec q (v.getLsbD 8))).writeX h c.rd 0)) ∧
        (q ≠ 3 → h.move = decide (q ≠ 0) → (s.queue h.tile q.toNat).faulted = false →
          exec (.csrWrite c) s = .next ((s.writeX h c.rd 0).retire h next)) ∧
        (q = 3 ∨ h.move = decide (q = 0) → exec (.csrWrite c) s = .next ill)) ∧
      (c.csr = 0x8C6 ∨ c.csr = 0xC00 ∨ c.csr = 0xCC5 → exec (.csrWrite c) s = .next ill)) ∧
  (∀ (s : State) (c : CsrOp),
      let h := s.me
      (h.move = true → exec (.rndtileWrite c) s = .next (s.takeTrap h false 2 0 ((s.fetchWord h).setWidth 64))) ∧
      (h.move = false → c.kind ≠ .rc → (s.tc h.tile).q0.entries = [] → ∃ t, exec (.rndtileWrite c) s = .next t ∧
        (t.tc h.tile).gen1 = seed (csrOperand c (s.hart h)) 0 1 ∧ (t.tc h.tile).gen2 = seed (csrOperand c (s.hart h)) 0 2 ∧
        (t.hart h).pc = (s.hart h).pc + 4 ∧ (∀ r, r ≠ c.rd → t.readX h r = s.readX h r) ∧ t.mem = s.mem))

/-! ## Command queues -/

/-- R65, R145, R146, R152 (derived): a `qput` whose template is readable and passes the header check appends the patched word to its queue
with the registers its masks capture and the next sequence number, and gives the timeline value in xd, if the queue and the range table
have room; what the translation of its spans reads is counted, corrected or lost as any read is (a template is read as up to four words,
some of which the hart may have read before); it stalls while the queue is full and pushes when `qputResume` finds room; a header that
fails traps with code 24, the header and the reason. (The lines that a push reserves for a record read in pieces, and that the header check
passes message commands of format e8, are the model's choice, logs 21, 36 and 101.) -/
def Obligations.PushResults : Prop :=
  ∀ (s t : State) (rd rs1 rs2 : Reg) (q : BitVec 2) (w : CmdBits),
    let h := s.me
    let next := (s.hart h).pc + 4
    let room (u : State) : Prop := ((u.queue h.tile q.toNat).entries.filter (·.waiting)).length < Config.queueCap q.toNat
    let pushed (u : State) : State :=
      let e := u.entryFor h q.toNat w
      let r : Run := { t := h.tile, q := q.toNat, e := e }
      (((u.touchSpans r).modTc h.tile (fun c => c.append q.toNat e (u.rangeOf r))).writeX h rd e.ret).retire h next
    let fits (u : State) : Prop := u.rangeOf { t := h.tile, q := q.toNat, e := u.entryFor h q.toNat w } = none ∨
      (u.tc h.tile).ranges.length < Config.rangeEntries
    (readTemplate h (s.readX h rs1) rs2 s = .ok w t → headerCheck (bits w 0 32) q.toNat h.move = 0 →
      (room t → fits t → exec (.qput rd q rs1 rs2) s = .next (pushed t)) ∧
      (¬ room t → ∃ u, exec (.qput rd q rs1 rs2) s = .next u ∧ (u.hart h).run = .waiting (.qput rd q w))) ∧
    (readTemplate h (s.readX h rs1) rs2 s = .ok w t → headerCheck (bits w 0 32) q.toNat h.move ≠ 0 →
      exec (.qput rd q rs1 rs2) s = .next (t.takeTrap h false 24 0
        (BitVec.ofNat 64 (headerCheck (bits w 0 32) q.toNat h.move * 2 ^ 32 + field w 0 32)))) ∧
    ((s.hart h).run = .waiting (.qput rd q w) → room s → fits s → exec .qputResume s = .next (pushed s))

/-- R19, R155, R226 (derived): while the context runs and q0 is not faulted the slicer hands the first entry that waits in
q0 to its stream; a faulted queue gives none.
R113, R317 (derived): a command whose effect is made completes: its entry leaves its queue, the queue counts one more
done, and with its entry its range-table entry goes.
R317, R318 (derived; the number of a copy with T = 0 is zero): so does a copy, which then gives the units of its completion token,
counted up to 2^32 − 1, and where its status is not 0 writes `cpstat` (the status, the elements missed, the number) and bit 0 of
`tlerr`.
R151 (derived): `cnop` completes at once; `cbump` once every earlier command of its stream has completed; `cmark` then
also fills its word with the patch value; each with its reserved fields zero. -/
def Obligations.QueueProgress : Prop :=
  (∀ (s : State) (e : Entry),
      let t := s.cur.tile
      ((s.queue t 0).faulted = true → exec .slicerTake s = .next s) ∧
      ((s.queue t 0).faulted = false → (s.ctx (s.ctxOf t)).st = .running →
        (s.queue t 0).entries.find? (fun e => e.st = .queued) = some e →
        exec .slicerTake s = .next (s.modEntry t 0 e.seq (fun y => { y with st := .taken })))) ∧
  (∀ (s : State) (t seq : Nat) (q : BitVec 2) (e : Entry),
      (s.queue t q.toNat).find seq = some e → e.st = .done → field e.w 5 3 ≠ 5 →
      ((s.ctx (s.ctxOf t)).st = .running ∨ (s.ctx (s.ctxOf t)).st = .preempting ∨ (s.ctx (s.ctxOf t)).st = .faulted ∨
        (s.ctx (s.ctxOf t)).st = .tornDown) → q ≠ 3 →
      ∃ u, exec (.commandComplete t q seq) s = .next u ∧
        (u.queue t q.toNat).done = (s.queue t q.toNat).done + 1 ∧
        (u.queue t q.toNat).entries = (s.queue t q.toNat).entries.filter (fun x => x.seq ≠ seq) ∧
        (∀ r ∈ (u.tc t).ranges, ¬ (r.q = q.toNat ∧ r.seq = seq)) ∧ u.mem = s.mem) ∧
  (∀ (s : State) (t seq : Nat) (e : Entry),
      let c := s.tc t
      let x := cmdOfBits e.w
      let gives : Prop := copyKind (field e.w 0 8) ≠ .pref ∧ cpTkn x ≠ 0
      c.q1.find seq = some e → e.st = .done → field e.w 5 3 = 5 →
      ((s.ctx (s.ctxOf t)).st = .running ∨ (s.ctx (s.ctxOf t)).st = .preempting ∨ (s.ctx (s.ctxOf t)).st = .faulted ∨
        (s.ctx (s.ctxOf t)).st = .tornDown) →
      ∃ u, exec (.commandComplete t 1 seq) s = .next u ∧ u.mem = s.mem ∧ (u.tc t).q1.done = c.q1.done + 1 ∧
        (u.tc t).q1.entries = c.q1.entries.filter (fun y => y.seq ≠ seq) ∧
        (∀ r ∈ (u.tc t).ranges, ¬ (r.q = 1 ∧ r.seq = seq)) ∧
        (∀ n, (u.tc t).token n = c.token n ∨ (gives ∧ n = cpTkc x)) ∧
        (gives → ((u.tc t).token (cpTkc x)).count =
          (c.token (cpTkc x)).count + min (cpTkn x) (2 ^ 32 - 1 - (c.token (cpTkc x)).count)) ∧
        (e.prog.status = 0 → (u.tc t).cpstat = c.cpstat ∧ (u.tc t).tlerr = c.tlerr) ∧
        (e.prog.status ≠ 0 → (u.tc t).tlerr.getLsbD 0 = true ∧ (u.tc t).cpstat =
          BitVec.ofNat 64 (e.prog.status * 2 ^ 60 + min e.prog.miss (2 ^ 28 - 1) * 2 ^ 32 + e.num.getD 0 % 2 ^ 32))) ∧
  (∀ (s t : State) (c : Cmd) (r : Run),
      (CanStart 0 c s r → checkReserved c [(64, 128)] s = .ok () s → exec (.cnop c) s = .next (finished r s)) ∧
      (CanStart 1 c s r → checkReserved c [(64, 128)] s = .ok () s → s.earlierLeft r = false →
        exec (.cbump c) s = .next (finished r s)) ∧
      (CanStart 2 c s r → checkReserved c [(128, 64)] s = .ok () s → s.earlierLeft r = false → RangeFree s r →
        fillWord r (markAddr c) c.patch.toNat s = .ok () t →
        exec (.cmark c) s = .next (finished r t)))

/-- R154 (derived): `qsync` goes on at once if every command pushed has completed or been retired and else waits; it
returns by the same rule; a queue that the hart does not push to is illegal.
R155, R156, R157 (derived): a command whose checks fail, or that faults while it executes, ends in a command fault: with code 0x01 and the
lowest bit for a reserved bit that is set, else with the code, the detail and the address that its check or its access gives. Of a queue
without a fault its record is then that fault's, the queue is faulted and CP is set on the hart that pushes to it; a later fault sets M
alone, but one of the same clk whose command was pushed earlier takes the record. The command's range-table entry is gone, the slots that
it had claimed are empty, and no timeline, count or token changes. (What the destination of a copy that faults holds is log entry 34; of
several that fail the slot check, log entries 45 and 143.)
R155, R158, R159 (derived): a recovery whose queue has no started command left retires the faulted commands (a flush
also those not started), makes the queue usable again, clears CP where no queue of its hart is faulted, and lets its hart go on; the slots
that a faulted fill of q0 had reserved are then full and poisoned; with a started command left it waits. -/
def Obligations.SyncAndRecovery : Prop :=
  (∀ (s : State) (q : BitVec 2),
      let h := s.me
      let x := s.queue h.tile q.toNat
      let next := (s.hart h).pc + 4
      (q ≠ 3 → h.move = decide (q ≠ 0) → x.pushed ≤ x.done → exec (.qsync q) s = .next (s.retire h next)) ∧
      (q ≠ 3 → h.move = decide (q ≠ 0) → x.done < x.pushed → exec (.qsync q) s = .next (s.setWait h (.qsync q))) ∧
      (q = 3 ∨ h.move = decide (q = 0) →
        exec (.qsync q) s = .next (s.takeTrap h false 2 0 ((s.fetchWord h).setWidth 64))) ∧
      ((s.hart h).run = .waiting (.qsync q) → x.pushed ≤ x.done → exec .qsyncReturn s = .next (s.retire h next))) ∧
  (∀ (s : State) (q : BitVec 2) (flush : Bool),
      let h := s.me
      let i : Instr := if flush then .qrecFlush else .qrecSkip
      (s.hart h).run = .waiting (.qrec q flush) →
      ((s.queue h.tile q.toNat).entries.any (fun e => e.st = .running || e.st = .done) = true → exec i s = .next s) ∧
      ((s.queue h.tile q.toNat).entries.any (fun e => e.st = .running || e.st = .done) = false →
        ∃ t, exec i s = .next t ∧ (t.queue h.tile q.toNat).faulted = false ∧
          (t.queue h.tile q.toNat).record = {} ∧ (∀ e ∈ (t.queue h.tile q.toNat).entries, e.st ≠ .faulted) ∧
          (flush = true → (t.queue h.tile q.toNat).entries = []) ∧
          (q = 0 ∨ q ≠ 3 ∧ (s.queue h.tile (3 - q.toNat)).faulted = false → h.move = decide (q ≠ 0) →
            (t.hart h).faultPending = false) ∧
          (q = 0 → flush = false → ∀ d, ((t.tc h.tile).dqueue d).slots = ((s.tc h.tile).dqueue d).slots.map (fun x =>
            if x.st = .reserved then { x with st := .full, data := 0, side := 1 <<< 28 } else x)) ∧
          (t.hart h).run = .running ∧ (t.hart h).pc = (s.hart h).pc + 4 ∧ t.mem = s.mem)) ∧
  (∀ (k : TileCtx) (q : Nat) (e : Entry) (code detail addr clk : Nat), q < 3 →
      let x := k.queue q
      let t := k.recordFault q e code detail addr clk
      let y := t.queue q
      let mine : FaultRecord :=
        { addr := BitVec.ofNat 64 addr, tlv := e.ret, hdr := bits e.w 0 32, detail := BitVec.ofNat 8 detail,
          code := BitVec.ofNat 8 code, m := x.faulted, s := q = 0 && e.w.getLsbD 8, clk := clk, seq := e.seq }
      let mv : Bool := q ≠ 0
      y.faulted = true ∧
      (x.faulted = false → y.record = mine ∧ (t.hart mv).faultPending = true ∧ t.hart mv = (k.hart mv).setCP true) ∧
      (x.faulted = true → t.hart mv = k.hart mv ∧
        (x.record.clk = clk ∧ e.seq < x.record.seq → y.record = mine) ∧
        (¬ (x.record.clk = clk ∧ e.seq < x.record.seq) → y.record = { x.record with m := true })) ∧
      t.hart (!mv) = k.hart (!mv) ∧
      y.entries = x.entries.map (fun z => if z.seq = e.seq then { z with st := .faulted } else z) ∧
      y.done = x.done ∧ y.pushed = x.pushed ∧ (∀ p, p < 3 → p ≠ q → t.queue p = k.queue p) ∧
      t.ranges = k.ranges.filter (fun z => !(z.q = q && z.seq = e.seq)) ∧
      (q = 0 → ∀ d, ∀ z ∈ (t.dqueue d).slots, ¬ (z.st = .claimed ∧ z.owner = e.seq)) ∧
      (q ≠ 0 → t.dq = k.dq) ∧ t.tokens = k.tokens ∧ t.timeline = k.timeline ∧ t.chunks = k.chunks) ∧
  (∀ (s t : State) (c : Cmd) (r : Run) (code detail addr : Nat),
      let fails {α : Type} (i : Instr) (op : Nat) (m : M α) : Prop :=
        CanStart op c s r → m s = .error (.fault code detail addr) t → exec i s = .next (faulted r code detail addr t)
      (∀ l n, reservedBit c l = some n → checkReserved c l s = .error (.fault 0x01 n 0) s) ∧
      (∀ p ∈ ([(.cnop c, 0x00, [(64, 128)]), (.cbump c, 0x01, [(64, 128)]), (.cmark c, 0x02, [(128, 64)]),
          (.fdSkip c, 0x23, fdReserved .skip c), (.bkClear c, 0x48, [(64, 36), (111, 81)])] : List (Instr × Nat × List (Nat × Nat))),
        fails p.1 p.2.1 (checkReserved c p.2.2)) ∧
      (∀ p ∈ ([(.fdRow c, 0x20, .row), (.fdRowCrd c, 0x20, .crd), (.fdGather c, 0x21, .gather), (.fdBcast c, 0x22, .bcast),
          (.fdBcastSplat c, 0x22, .splat), (.fdStore c, 0x24, .store)] : List (Instr × Nat × FeederKind)),
        fails p.1 p.2.1 (fdChecks p.2.2 r c)) ∧
      fails (.srtCodes c) 0x40 (srChecks r c) ∧ fails (.bkSum c) 0x49 (bkChecks false false r c) ∧
      fails (.bkFin c) 0x4A (bkChecks true (c.sub.getLsbD 0) r c) ∧
      (∀ p ∈ vectorForms c ++ predicateForms c ++ voteForms c, fails p.1 p.2.1 (vChecks p.2.2 c)) ∧
      (∀ p ∈ ([(.vld c, 0x6C, .ld), (.vst c, 0x6D, .st), (.vgather c, 0x6E, .gather), (.vscatter c, 0x6F, .scatter),
          (.vscatterAdd c, 0x6F, .scatter), (.vscatterMin c, 0x6F, .scatter), (.vscatterMax c, 0x6F, .scatter),
          (.vscatterFadd c, 0x6F, .scatter), (.vscatterFmaxabs c, 0x6F, .scatter)] : List (Instr × Nat × VMem)),
        fails p.1 p.2.1 (vmChecks p.2.2 r c)) ∧
      (∀ p ∈ ([(.anFree c, 0x87, { cnt := false }), (.anLdw c, 0x81, ldwForm), (.anSwap c, 0x82, swapForm), (.anMul c, 0x83, mulForm),
          (.anGmul c, 0x84, gmulForm), (.anClose c, 0x85, rowsForm), (.anDrain c, 0x86, drainForm c), (.anZero c, 0x88, rowsForm)] :
            List (Instr × Nat × AnForm)), fails p.1 p.2.1 (anChecks p.2.2 r c)) ∧
      (r.e.st ≠ .running → fails (.anLease c) 0x80 (anChecks {} r c)) ∧
      (∀ p ∈ ([(.cpNd c, 0xA0, .nd), (.cpGather c, 0xA1, .gather), (.cpScatter c, 0xA2, .scatter), (.cpRed c, 0xA4, .red),
          (.cpFill c, 0xA5, .fill), (.cpPref c, 0xA6, .pref)] : List (Instr × Nat × CopyKind)), CopyReady r →
        (r.e.prog.started = false → fails p.1 p.2.1 (cpStart p.2.2 r c)) ∧
        (∀ u, CanStart p.2.1 c s r → CopyStarts p.2.2 r c s u → cpChunk p.2.2 r c u = .error (.fault code detail addr) t →
          exec p.1 s = .next (faulted r code detail addr (t.spoil r code)))) ∧
      (∀ p ∈ ([(.txSend c, 0xC0, .send), (.txPut c, 0xC1, .put), (.txPutArrive c, 0xC1, .arrive), (.rxPost c, 0xC8, .post),
          (.rxCancel c, 0xC9, .cancel)] : List (Instr × Nat × MsgKind)), fails p.1 p.2.1 (msChecks p.2.2 r c)) ∧
      (r.e.prog.started = false → fails (.txGet c) 0xC2 (msChecks .get r c)) ∧
      (∀ h u, fdChecks .row r c s = .ok h s → SlotsFree s r (fdDq c) (fdNslot c) →
        ((List.range (fdNslot c)).forM (fun i => fillFrom r .row c h i (slotCoords r c i))) (reserved r (fdDq c) (fdNslot c) s) =
          .error (.fault code detail addr) u →
        CanStart 0x20 c s r → exec (.fdRow c) s = .next (faulted r code detail addr u)) ∧
      (∀ h u, fdChecks .store r c s = .ok h s → SlotsFull s r (fdDq c) (fdNslot c) →
        let v := claiming r (fdDq c) (fdNslot c) s
        let l := owned r (fdDq c) v
        (checkSlots (fdDq c) (some (cmdFormat c)) l v = .error (.fault code detail addr) u ∨
          (∀ x ∈ l, x.side.getLsbD 28 = false ∧ field x.side 8 4 = cmdFormat c) ∧
          storeAll r false ((l.zip (List.range l.length)).flatMap (fun p => slotPuts r c h p.2 p.1)) [] v =
            .error (.fault code detail addr) u) →
        CanStart 0x24 c s r → exec (.fdStore c) s = .next (faulted r code detail addr u)) ∧
      (∀ h u, vmChecks .st r c s = .ok h s → RangeFree s r →
        storeAll r false (((s.tc r.t).actives c).map (fun i =>
          vPut r h (vCoords r c (i - vE0 c)) (elemAt ((s.tc r.t).vreg (vmVs1 c)) (vBits c) i))) [] s =
            .error (.fault code detail addr) u →
        CanStart 0x6D c s r → exec (.vst c) s = .next (faulted r code detail addr u)))

/-! ## Stage queues and kernels -/

/-- R169 to R172 (derived): on the main hart, `stg.take` gives the end value where the tile's input queue has drained, and none now where
the tile holds four chunks or holds one and can be served none; a mark gives the new stage; where none of these holds and no chunk can
be served the hart waits, last in the queue's order.
`stg.done` for an outstanding chunk of the tile retires it; for any other address it only counts a stray, up to 2^64 − 1; both are
illegal on the movement hart.
R170, R171 (derived): a take of a tile that holds fewer than four chunks, whose queue has items in its ring and no other first waiter,
gets the size and the address of the first item: the most of minchunk and of an equal part of the items, at most the items of the ring,
the slots before its end and 1023; the items leave the ring and the chunk is outstanding; so does a waiting take when its turn comes.
R173, R174 (derived): a spawn of 1 to 256 items to a queue that the tile's stage names, with a readable block of items, gives
2^62 and counts the items dropped where the queue has drained; else, where the queue has a place for the items and is not being moved,
it places them at once and gives the occupancy in rd, with bit 63 where the overflow took some; where it has none it waits, and does the
same when it has. Items go to the ring while the overflow is empty and slots outside the reserve are free, then to the overflow; only
the oldest stage uses the reserve, for what the others do not hold. -/
def Obligations.StageQueueResults : Prop :=
  (∀ (s : State) (rd : Reg) (i : Instr),
      let h := s.me
      let c := s.ctxOf h.tile
      let ct := s.ctileOf h.tile
      let u := match (s.ctx c).kernel.bind (fun k => (SMap.find? k.bound ct).bind (fun b => k.stage b.stage)) with
        | some x => s.tend c x.inq
        | none => s
      let gave (v : Word) : State := (u.modCtx c (fun x => x.modKernel (fun k => k.leave ct))).result h rd v
      (i = .stgTake rd ∧ h.move = false ∨ i = .stgTakeServed ∧ (s.hart h).run = .waiting (.stgTake rd)) →
      (∀ (k : Kernel) (b : Binding) (x : Stage) (q : StageQueue),
        (u.ctx c).kernel = some k → SMap.find? k.bound ct = some b → k.stage b.stage = some x → k.queueAt x.inq = some q →
        let n := min (min (max x.minchunk (ceilDiv (q.ring.length + q.spill.length) (x.factor * k.tiles b.stage))) q.ring.length)
          (min (q.depth - q.head % q.depth) 1023)
        let a := q.base + q.head % q.depth * (8 * q.item)
        let held := k.outstanding ct
        (∀ m, b.mark = some m → exec i s = .next (gave (BitVec.ofNat 64 (2 ^ 62 + m)))) ∧
        (b.mark = none → held = 4 → exec i s = .next (gave 0xC000000000000000)) ∧
        (b.mark = none → held ≠ 4 → q.drained = true → exec i s = .next (gave 0x8000000000000000)) ∧
        (b.mark = none → held ≠ 4 → q.drained = false → q.ring ≠ [] → q.waiters.headD ct = ct →
          exec i s = .next (((u.modCtx c (fun y => y.modKernel (fun k => Kernel.leave
            { k.setQueue x.inq { q with ring := q.ring.drop n, head := (q.head + n) % q.depth,
                                        chunks := q.chunks ++ [{ ctile := ct, first := q.head, count := n, va := a }] } with
              taken := satAdd 64 k.taken 1 } ct))).discardAll h.tile).result h rd (BitVec.ofNat 64 (n * 2 ^ 52 + a)))) ∧
        (b.mark = none → held ≠ 4 → q.drained = false → q.ring = [] ∨ q.waiters.headD ct ≠ ct → 0 < held →
          exec i s = .next (gave 0xC000000000000000)) ∧
        (b.mark = none → q.drained = false → q.ring = [] ∨ q.waiters.headD ct ≠ ct → held = 0 →
          exec i s = .next ((u.modCtx c (fun y => y.modKernel (fun k => k.join ct))).setWait h (.stgTake rd))))) ∧
  (∀ (s : State) (rd rs1 : Reg) (k : Kernel),
      let h := s.me
      let c := s.ctxOf h.tile
      let next := (s.hart h).pc + 4
      let hit (x : Chunk) : Bool := field (s.readX h rs1) 62 2 = 0 && x.ctile = s.ctileOf h.tile && !x.retired &&
        x.va = field (s.readX h rs1) 0 52
      (h.move = true → exec (.stgTake rd) s = .next (s.takeTrap h false 2 0 ((s.fetchWord h).setWidth 64)) ∧
        exec (.stgDone rs1) s = .next (s.takeTrap h false 2 0 ((s.fetchWord h).setWidth 64))) ∧
      (h.move = false → (s.ctx c).kernel = some k → k.queues.any (fun q => q.chunks.any hit) = false →
        exec (.stgDone rs1) s =
          .next ((s.modCtx c (fun x => x.modKernel (fun k => { k with stray := min (k.stray + 1) (2 ^ 64 - 1) }))).retire h next)) ∧
      (h.move = false → (s.ctx c).kernel = some k → k.queues.any (fun q => q.chunks.any hit) = true →
        exec (.stgDone rs1) s = .next ((s.retireChunks h.tile hit).retire h next))) ∧
  (∀ (q : StageQueue) (n : Nat) (oldest : Bool),
      let room := q.depth - q.ring.length - (q.chunks.map (·.count)).sum
      (q.spill = [] → n ≤ room - q.rsv → q.plan n oldest = some (n, 0, 0)) ∧
      (q.spill ≠ [] → n ≤ q.ovfn - q.spill.length → q.plan n oldest = some (0, n, 0)) ∧
      (q.spill = [] → room - q.rsv < n → n - (room - q.rsv) ≤ q.ovfn →
        q.plan n oldest = some (room - q.rsv, n - (room - q.rsv), 0)) ∧
      (∀ a b r, q.plan n oldest = some (a, b, r) → a + b + r = n ∧ (r ≠ 0 → oldest = true ∧ a + r ≤ room) ∧
        b ≤ q.ovfn - q.spill.length)) ∧
  (∀ (s u : State) (rd : Reg) (j n : Nat) (items : List Word) (k : Kernel) (q : StageQueue) (i : Instr),
      let h := s.me
      let c := s.ctxOf h.tile
      let t := u.tend c j
      let mine := (SMap.find? k.bound (t.ctileOf h.tile)).map (·.stage)
      (i = .spawnPlaced ∧ u = s ∧ (s.hart h).run = .waiting (.spawn rd j n items) ∨
        (∃ (rs1 rs2 : Reg) (k₀ : Kernel) (b : Binding) (x : Stage) (q₀ : StageQueue) (l : List Nat),
          let v := s.readX h rs1
          i = .spawn rd rs1 rs2 ∧ j = field v 0 4 ∧ n = field v 16 16 ∧ field v 32 32 = 0 ∧ field v 4 12 = 0 ∧
          (s.ctx c).kernel = some k₀ ∧ SMap.find? k₀.bound (s.ctileOf h.tile) = some b ∧ k₀.stage b.stage = some x ∧
          k₀.queueAt j = some q₀ ∧ 1 ≤ n ∧ n ≤ 256 ∧ (j = x.inq ∨ j ∈ x.outs) ∧ n ≤ q₀.depth - q₀.rsv + q₀.ovfn ∧
          (s.readX h rs2).toNat % 8 = 0 ∧ plainWords h (s.readX h rs2) (n * q₀.item) s = .ok l u ∧ q₀.drained = false ∧
          items = l.map (BitVec.ofNat 64))) →
      t.ctxOf h.tile = c → (t.ctx c).kernel = some k → k.queueAt j = some q →
      (∀ p, q.plan n (mine.isSome && k.oldest = mine) = some p → t.spanMoving c q.base (q.depth * 8 * q.item) = false →
        (q.ovfn = 0 ∨ t.spanMoving c q.ovf (q.ovfn * 8 * q.item) = false) →
        exec i s = .next (((t.placeItems h.tile c j q items p).writeX h rd
          (BitVec.ofNat 64 (q.occ + n + (if p.2.1 ≠ 0 then 2 ^ 63 else 0)))).retire h ((s.hart h).pc + 4))) ∧
      (q.plan n (mine.isSome && k.oldest = mine) = none ∨ t.spanMoving c q.base (q.depth * 8 * q.item) = true ∨
          q.ovfn ≠ 0 ∧ t.spanMoving c q.ovf (q.ovfn * 8 * q.item) = true →
        exec i s = .next (t.setWait h (.spawn rd j n items)))) ∧
  (∀ (s t : State) (rd rs1 rs2 : Reg) (k : Kernel) (b : Binding) (x : Stage) (q : StageQueue) (items : List Nat),
      let h := s.me
      let c := s.ctxOf h.tile
      let v := s.readX h rs1
      let j := field v 0 4
      let n := field v 16 16
      (s.ctx c).kernel = some k → SMap.find? k.bound (s.ctileOf h.tile) = some b → k.stage b.stage = some x →
      k.queueAt j = some q → field v 32 32 = 0 → field v 4 12 = 0 → 1 ≤ n → n ≤ 256 → (j = x.inq ∨ j ∈ x.outs) →
      n ≤ q.depth - q.rsv + q.ovfn → (s.readX h rs2).toNat % 8 = 0 →
      plainWords h (s.readX h rs2) (n * q.item) s = .ok items t → q.drained = true →
      exec (.spawn rd rs1 rs2) s = .next (((t.modCtx c (fun x => x.modKernel (fun k =>
        { k with dropped := min (k.dropped + n) (2 ^ 64 - 1) }))).writeX h rd (BitVec.ofNat 64 (2 ^ 62))).retire h
          ((s.hart h).pc + 4)))

/-- R169, R176, R177 (derived): `kexit` waits while a command that its hart pushed has not completed, then stops the hart; that of the main
hart retires the chunks that its tile has outstanding and gives up its lease. A tile whose harts have both exited is released and rebound at
once by the first rule that applies: marked, to its target where that has not ended; else to the lowest stage that has not ended and has
fewer tiles than tmin; else it stays unbound. A tile that is rebound starts as R169 has it.
R134 (derived): `ctx.yield` goes on, and starts a pre-emption where one was requested. -/
def Obligations.KernelExit : Prop :=
  (∀ (s : State),
      let h := s.me
      (s.pushesOut h = true → exec .kexit s = .next (s.setWait h .kexit)) ∧
      (s.pushesOut h = false → (∀ q ∈ s.held, q.tile ≠ h.tile ∨ q.move ≠ h.move) → ∃ t, exec .kexit s = .next t ∧
        (t.hart h).run = .stopped ∧ (t.hart h).pc = (s.hart h).pc + 4 ∧
        (h.move = false → (t.anvil (clusterOf h.tile)).holder ≠ some (positionOf h.tile) ∧
          ∀ k, (t.ctx (s.ctxOf h.tile)).kernel = some k → ∀ q ∈ k.queues, ∀ x ∈ q.chunks,
            x.ctile = s.ctileOf h.tile → x.retired = true))) ∧
  (∀ (s : State) (t : Nat) (k : Kernel) (b : Binding),
      let c := s.ctxOf t
      let ct := s.ctileOf t
      let free : Kernel := { k with bound := SMap.del k.bound ct }
      let low (i : Nat) : Prop := ∃ x, k.stage i = some x ∧ x.ended = false ∧ free.tiles i < x.tmin
      let marked (m : Nat) : Prop := b.mark = some m ∧ k.hasEnded m = false
      let bound (i : Nat) : Prop := ∃ (x : Stage) (u : State) (k' : Kernel), k.stage i = some x ∧ exec (.kexitRelease t) s = .next u ∧
        (u.ctx c).kernel = some k' ∧ SMap.find? k'.bound ct = some { stage := i, born := k.epoch } ∧ (u.tc t).tokens = [] ∧
        (∀ w ∈ u.watches, w.tile ≠ t) ∧
        ∀ move : Bool,
          let y := u.hart ⟨t, move⟩
          let faulted : Bool := if move then (s.queue t 1).faulted || (s.queue t 2).faulted else (s.queue t 0).faulted
          y.run = .running ∧ y.pc = BitVec.ofNat 64 (if move then x.move else x.main) ∧
          y.readX 10 = BitVec.ofNat 64 i ∧ y.readX 11 = k.arg ∧ y.readX 12 = BitVec.ofNat 64 ct ∧
          (∀ q, q ≠ 10 → q ≠ 11 → q ≠ 12 → y.readX q = 0) ∧ y.f = [] ∧ y.c = [] ∧ y.h = [] ∧ y.slots = [] ∧ y.ctxvec = 0 ∧
          y.ctxstat = (if faulted then 0x40 else 0)
      (s.ctx c).kernel = some k → s.binding t = some b → b.mainStopped = true → b.moveStopped = true → (s.ctx c).st = .running →
      (s.tilesOf c)[ct]? = some t →
      (∀ m, marked m → bound m) ∧
      (∀ i, (∀ m, ¬ marked m) → low i → (∀ j, j < i → ¬ low j) → bound i) ∧
      ((∀ m, ¬ marked m) → (∀ j, ¬ low j) → ∃ u, exec (.kexitRelease t) s = .next u ∧ (u.ctx c).kernel = some free)) ∧
  (∀ s : State,
      let h := s.me
      ((s.hart h).yieldRequested = false → exec .ctxYield s = .next (s.retire h ((s.hart h).pc + 4))) ∧
      ((s.hart h).yieldRequested = true →
        exec .ctxYield s = .next ((s.retire h ((s.hart h).pc + 4)).startPreempt (s.ctxOf h.tile))))

/-- R166 to R169, R387 (derived): a declared kernel is loaded once no kernel is left before it; a loaded kernel whose regions are in place
runs: every tile of the context then holds its image as memory has it, its groups, scopes, bindings and constants are the context's, and
the initial binding is made, each tile of it bound to its stage with both harts at that stage's entries and their first registers set; one
whose regions are not is refused with the reason, which the host can read (in what form, and that the next kernel then proceeds, are the
model's choice, log entries 65 and 107); one whose work is done waits for the puts of its
tiles that are not acknowledged, then retires, its counts stay for the host (R182), and with no launch waiting
its context is resident. (What the walks of a load read of memory is counted and repaired as at any read.)
R178, R180 (derived; that an epoch's end is a step of its own is log entry 71, the model's choice): at the end of an epoch of a running
kernel the scheduler takes its turn: the epoch count rises by one and the next epoch begins where this one ended; while the context does
not run it evaluates nothing. -/
def Obligations.KernelLife : Prop :=
  (∀ (s : State) (c : Nat) (k : Kernel) (rest : List Kernel),
      let x := s.ctx c
      let w := s.walkKernel c k
      (x.st = .running → x.waiting = k :: rest → x.kernel = none → ∃ t, exec (.kernelLoad c) s = .next t ∧
        (t.ctx c).kernel = some { k with st := .loaded } ∧ (t.ctx c).waiting = rest) ∧
      (x.st = .running → x.kernel = some k → k.st = .loaded → w.loadReason c k ≠ 0 → x.waiting = [] →
        ∃ t, exec (.kernelLoadComplete c) s = .next t ∧
          (t.ctx c).kernel = some { k with st := .refused, reason := w.loadReason c k } ∧ (t.ctx c).st = .resident ∧
          (t.ctx c).reports = x.reports ++ [w.loadReason c k]) ∧
      (x.st = .running → x.kernel = some k → k.st = .loaded → w.loadReason c k = 0 → k.bound = [] → x.tiles.Nodup →
        ∃ t k', exec (.kernelLoadComplete c) s = .next t ∧ (t.ctx c).kernel = some k' ∧
          (k'.st = .running ∨ k'.st = .draining) ∧ (t.ctx c).consts = k.consts ∧ (t.ctx c).scopes = k.scopes ∧
          (t.ctx c).groups = k.groups ∧ (t.ctx c).binds = k.binds ∧
          (∀ u ∈ x.tiles, (t.tile u).imem = (w.touchVirt c k.text k.textLen).imageOf c k ∧ (t.tile u).textLen = k.textLen) ∧
          ∀ i n u y, (initialStages k.stages x.tiles.length)[i]? = some n → x.tiles[i]? = some u → k.stages[n]? = some y →
            SMap.find? k'.bound i = some { stage := n, born := k.epoch } ∧
            ∀ b, let h : HartId := ⟨u, b⟩
              (t.hart h).run = .running ∧ (t.hart h).pc = BitVec.ofNat 64 (if b then y.move else y.main) ∧
              t.readX h 10 = BitVec.ofNat 64 n ∧ t.readX h 11 = k.arg ∧ t.readX h 12 = BitVec.ofNat 64 i) ∧
      (x.st = .running → x.kernel = some k → (k.st = .running ∨ k.st = .draining) → s.workDone c k = true →
        s.putsOut c = true → exec (.kernelRetire c) s = .next (s.later (.kernelRetire c))) ∧
      (x.st = .running → x.kernel = some k → (k.st = .running ∨ k.st = .draining) → s.workDone c k = true →
        s.putsOut c = false → x.waiting = [] → ∃ t, exec (.kernelRetire c) s = .next t ∧ (t.ctx c).kernel = some { k with st := .retired, bound := [] } ∧
          (t.ctx c).st = .resident ∧ (t.ctx c).counters = [k.stray, k.dropped, k.marks, k.taken])) ∧
  (∀ (s : State) (c : Nat) (k : Kernel),
      let x := s.ctx c
      x.kernel = some k →
      (x.st ≠ .running → exec (.stageSchedulerEpoch c) s = .next s) ∧
      (x.st = .running → (k.st = .running ∨ k.st = .draining) → k.since + 2 ^ (k.ep + 10) ≤ s.clk →
        ∃ t k', exec (.stageSchedulerEpoch c) s = .next t ∧ (t.ctx c).kernel = some k' ∧ k'.epoch = k.epoch + 1 ∧
          k'.since = k.since + 2 ^ (k.ep + 10)))

/-! ## The address stream -/

/-- R226, R233, R234 (derived): a feeder command whose checks pass and whose data queue has room reserves its slots and
fills each from its coordinates: `fd.row` and its coordinates form and the splat from consecutive rows, `fd.gather` from the
row that an index selects, `fd.bcast` every slot alike, `fd.skip` with zeros.
R148, R236 (derived): `fd.store` claims its full slots, which hold its format and are not poisoned, writes their
elements and scales, and empties them; where no line holds an upset the bytes of memory are then those it stores, and every other byte and every
full/empty bit is as before. A write of an engine that is not dropped reads back at its place (R83, R355). -/
def Obligations.FeederResults : Prop :=
  (∀ (s u : State) (c : Cmd) (r : Run) (h : Shape) (x : Row × Bool × Nat),
      let d := fdDq c
      let n := fdNslot c
      let t := reserved r d n s
      let ready (k : FeederKind) (op : Nat) : Prop := CanStart op c s r ∧ fdChecks k r c s = .ok h s ∧ SlotsFree s r d n
      let rows (k : FeederKind) : M Unit := (List.range n).forM (fun i => fillFrom r k c h i (slotCoords r c i))
      (ready .row 0x20 → rows .row t = .ok () u → exec (.fdRow c) s = .next (finished r u)) ∧
      (ready .crd 0x20 → rows .crd t = .ok () u → exec (.fdRowCrd c) s = .next (finished r u)) ∧
      (ready .splat 0x22 → rows .splat t = .ok () u → exec (.fdBcastSplat c) s = .next (finished r u)) ∧
      (ready .gather 0x21 → Runs ((List.range n).forM (fun k => do
          let i ← indexAt (cachedGet r) (shapeOf (r.e.handle (fdHx c))) (cmdOffset c + k)
          fillFrom r .gather c h k (setNth (coordsOf r.e c 72 (fdNcoord c)) (fdRow c) i))) t () u →
        exec (.fdGather c) s = .next (finished r u)) ∧
      (∀ v, ready .bcast 0x22 → slotContents r .bcast c h (slotCoords r c 0) t = .ok x v →
        (List.range n).forM (fun k => fillSlot r d x.1 (fdSide c k x.2.1 x.2.2)) v = .ok () u →
        exec (.fdBcast c) s = .next (finished r u)) ∧
      (CanStart 0x23 c s r → reservedBit c (fdReserved .skip c) = none → n ≠ 0 → n ≤ 16 → SlotsFree s r d n →
        (List.range n).forM (fun k => fillSlot r d 0 (sideWord (fdTag c) false (k + 1 = n) 0 (cmdFormat c) 127)) t = .ok () u →
        exec (.fdSkip c) s = .next (finished r u))) ∧
  (∀ (s t : State) (c : Cmd) (r : Run) (h : Shape),
      let u := claiming r (fdDq c) (fdNslot c) s
      let l := owned r (fdDq c) u
      CanStart 0x24 c s r → fdChecks .store r c s = .ok h s → SlotsFull s r (fdDq c) (fdNslot c) →
      (∀ x ∈ l, x.side.getLsbD 28 = false ∧ field x.side 8 4 = cmdFormat c) →
      storeAll r false ((l.zip (List.range l.length)).flatMap (fun p => slotPuts r c h p.2 p.1)) [] u = .ok () t →
      let items := (l.zip (List.range l.length)).flatMap (fun p => slotPuts r c h p.2 p.1)
      exec (.fdStore c) s = .next (finished r (released r t)) ∧
      Writes (plainWrites r false items u) r.t s (finished r (released r t))) ∧
  (∀ (s t : State) (r : Run) (copy : Bool) (va n v : Nat) (l : Leaf),
      r.writes va = true → engineLeaf r true copy va s = .ok l t → t.takeLoss r.t (t.ctxOf r.t) true l = none → Stored t l →
      ∃ u, enginePut r copy va n v s = .ok () u ∧ u.rawRead l.pa n = v % 2 ^ (8 * n))

/-! ## Sorting and buckets -/

/-- R245, R249 (derived): the positions of a row's codes are listed code by code, rising, and within a code rising: every
position once. -/
def Obligations.SortIsStable : Prop :=
  ∀ (codes : List Nat) (b : Nat), (∀ v ∈ codes, v < 2 ^ b) →
    (sortCodes codes b).length = 2 ^ b ∧ ((sortCodes codes b).flatten).Perm (List.range codes.length) ∧
    (∀ v < 2 ^ b, ((sortCodes codes b)[v]?.getD []).Pairwise (· < ·) ∧
      ∀ p, p ∈ (sortCodes codes b)[v]?.getD [] ↔ codes[p]? = some v)

/-- R249, R252, R253, R254 (derived): `srt.codes` sorts and records its rows; `bk.clear` zeroes lanes; `bk.sum` adds its
slots into the lanes of well-formed records and empties them; `bk.fin` writes the combined values to a register or to one
slot, and clears the lanes where it is asked to. -/
def Obligations.BucketResults : Prop :=
  ∀ (s u v w : State) (c : Cmd) (r : Run) (recs : List (Option SortedRec)),
    let h := r.e.handle (bkH c)
    let n := if c.sub.getLsbD 0 then bkNl c else 1
    let cleared (x : State) : State :=
      if c.md.getLsbD 0 then x.modTc r.t (fun k => k.clearLanes (bkL0 c) (bkNl c)) else x
    let out (x : State) : List Nat := (recs.zip (List.range recs.length)).map (fun p =>
      combine (shapeOf h).fmt (recB h) ((x.tc r.t).lane (bkL0 c + p.2)) p.1)
    (CanStart 0x40 c s r → srChecks r c s = .ok () s → RangeFree s r →
      (List.range (srRows c)).forM (sortRow r c) s = .ok () u → exec (.srtCodes c) s = .next (finished r u)) ∧
    (CanStart 0x48 c s r → reservedBit c [(64, 36), (111, 81)] = none → bkNl c ≠ 0 → bkL0 c + bkNl c ≤ 32 → RangeFree s r →
      exec (.bkClear c) s = .next (finished r (s.modTc r.t (fun k => k.clearLanes (bkL0 c) (bkNl c))))) ∧
    (CanStart 0x49 c s r → bkChecks false false r c s = .ok () s → SlotsFull s r (bkDq c) n →
      bkRecords readForSum r c (claiming r (bkDq c) n s) = .ok recs u →
      let slots := owned r (bkDq c) u
      let slot (i : Nat) : Slot := nth ⟨.claimed, 0, 0, 0⟩ slots (if c.sub.getLsbD 0 then i else 0)
      (∀ x ∈ slots, x.side.getLsbD 28 = false ∧ field x.side 8 4 = 0) →
      (∀ x ∈ recs, ∀ y, x = some y → y.ok (recK h) (recB h) = true) →
      bkScales (u.tc r.t) (bkL0 c) slot recs 0 u = .ok () u →
      Runs ((recs.zip (List.range recs.length)).forM (fun p =>
        match p.1 with
        | none => pure ()
        | some x => upd (fun s => s.modTc r.t (fun k => k.sumLane (bkL0 c + p.2) (recB h) (slot p.2) x)))) u () v →
      exec (.bkSum c) s = .next (finished r (released r v))) ∧
    (c.sub.getLsbD 0 = false → CanStart 0x4A c s r → bkChecks true false r c s = .ok () s → RangeFree s r →
      bkRecords readForFin r c s = .ok recs u → bkWellFormed h recs 0 u = .ok () u →
      exec (.bkFin c) s = .next (finished r
        (cleared (u.modTc r.t (fun k => k.setV (bkVd c) (putF32s (k.vreg (bkVd c)) (bkE0 c) (out u))))))) ∧
    (c.sub.getLsbD 0 = true → CanStart 0x4A c s r → bkChecks true true r c s = .ok () s → SlotsFree s r (bkDq c) 1 →
      bkRecords readForFin r c (reserved r (bkDq c) 1 s) = .ok recs u → bkWellFormed h recs 0 u = .ok () u →
      fillSlot r (bkDq c) (BitVec.ofNat 4096 (packElems 4 (out u))) (sideWord (bkTag c) false true (4 * bkNl c) 8 127) u =
        .ok () w →
      exec (.bkFin c) s = .next (finished r (cleared w)))

/-! ## The anvil -/

/-- R291, R292, R293 (derived): `an.lease` gives up what it holds and asks anew; the next waiting tile in cyclic order is
granted a free lease with the count it asked for; `an.free` and an idle time of `leaseidle` end a lease; a leasing command
(`an.ldw`, `an.swap`, `an.mul`, `an.gmul`) of a tile that holds no lease waits and asks for one. -/
def Obligations.LeaseResults : Prop :=
  ∀ (s : State) (c : Cmd) (r : Run) (k p n : Nat),
    let a := s.anvil k
    (CanStart 0x80 c s r → r.e.st ≠ .running → anChecks {} r c s = .ok () s →
      exec (.anLease c) s = .next (ongoing r ((((s.endLease r.t).modTc r.t (fun k => { k with ll := anCnt c })).dropLeaseRequest
        r.t).requestLease r.t (anCnt c)))) ∧
    (nextLease { a with last := a.holder.getD a.last } = some (p, n) → s.leaseFree k = true →
      ∃ t, exec (.leaseGrant k) s = .next t ∧ t.mem = s.mem ∧
        t.anvil k = { a with holder := some p, count := n, since := s.clk, last := a.holder.getD a.last
                             requests := a.requests.filter (fun r => r.1 ≠ p) }) ∧
    (∀ x, nextLease a = some x → x ∈ a.requests ∧ ∀ j, 0 < j → j < 5 → x.1 = (a.last + j) % 4 →
      ∀ i, 0 < i → i < j → ∀ y ∈ a.requests, y.1 ≠ (a.last + i) % 4) ∧
    (∀ t, ((s.endLease t).anvil (clusterOf t)).holder ≠ some (positionOf t)) ∧
    (a.holder = none → a.requests = [(p, n)] → p < 4 → ∃ t, exec (.leaseGrant k) s = .next t ∧
      (t.anvil k).holder = some p ∧ (t.anvil k).count = n) ∧
    (CanStart 0x87 c s r → anChecks { cnt := false } r c s = .ok () s → RangeFree s r →
      exec (.anFree c) s = .next (finished r (s.endLease r.t))) ∧
    (a.holder = some p → s.leaseActive (tileAt k p) = false → (s.ctx (s.ctxOf (tileAt k p))).st ≠ .preempting →
      a.since + s.dev.settings.leaseIdle ≤ s.clk → exec (.leaseIdleExpiry k) s = .next (s.endLease (tileAt k p))) ∧
    (∀ i op f, (i, op, f) ∈ ([(.anLdw c, 0x81, ldwForm), (.anSwap c, 0x82, swapForm), (.anMul c, 0x83, mulForm),
        (.anGmul c, 0x84, gmulForm)] : List (Instr × Nat × AnForm)) →
      CanStart op c s r → anChecks f r c s = .ok () s → (i = .anMul c → anCnt c ≤ 16) → ¬ HoldsLease s r →
      exec i s = .next ((s.modEntry r.t r.q r.e.seq (fun e => { e with why := 3 })).requestLease r.t (max 1 (s.tc r.t).ll)))

/-- R298, R299, R300, R301 (derived): on a tile that holds the lease, `an.ldw` loads columns of the shadow plane, `an.swap`
exchanges the planes and tags the active one, `an.mul` adds the products of its slots and `an.gmul` those of the rows that
its indices select; each lowers the count by one. -/
def Obligations.AnvilPlaneResults : Prop :=
  ∀ (s u v : State) (c : Cmd) (r : Run) (rows : List (List Act)),
    let k := clusterOf r.t
    let h := shapeOf (r.e.handle (anH c))
    let plane (x : State) : Prop := (x.anvil k).active.tag = anWtag c ∧ ((x.anvil k).active.bf16 = true ↔ cmdFormat c = 9)
    (CanStart 0x81 c s r → anChecks ldwForm r c s = .ok () s → HoldsLease s r → RangeFree s r →
      Runs ((List.range (anCnt c)).forM (fun j => do
        let (w, sc) ← ldwColumn r c h j
        upd (fun s => s.modAnvil k (fun a => { a with shadow := a.shadow.setCol (anN0 c + j) w (ldwBlock c h) sc }))))
        ((leased r s).modAnvil k (fun a => { a with shadow := { a.shadow with tag := 0, bf16 := decide (cmdFormat c = 9) } })) () u →
      exec (.anLdw c) s = .next (finished r u)) ∧
    (CanStart 0x82 c s r → anChecks swapForm r c s = .ok () s → HoldsLease s r → RangeFree s r →
      exec (.anSwap c) s = .next (finished r ((leased r s).modAnvil k (fun a =>
        { a with active := { a.shadow with tag := anWtag c }, shadow := a.active })))) ∧
    (CanStart 0x83 c s r → anChecks mulForm r c s = .ok () s → HoldsLease s r → SlotsFull s r (anDq c) (anCnt c) →
      let t := leased r (claiming r (anDq c) (anCnt c) s)
      let l := owned r (anDq c) t
      (∀ x ∈ l, x.side.getLsbD 28 = false ∧ field x.side 8 4 = cmdFormat c) → plane t →
      addRows r c (l.map (slotActs c)) t = .ok () v →
      exec (.anMul c) s = .next (finished r (released r v))) ∧
    (CanStart 0x84 c s r → anChecks gmulForm r c s = .ok () s → HoldsLease s r → RangeFree s r → plane (leased r s) →
      (List.range (anCnt c)).mapM (fun i =>
        (List.range (anKp c)).mapM (fun q => readAct (cachedGet r) h
          (gmulCoords r c (signedVal 32 (elemAt (((leased r s).tc r.t).vreg (anVs c)) 32 (anE0 c + i))) q))) (leased r s) =
        .ok rows u →
      addRows r c rows u = .ok () v → exec (.anGmul c) s = .next (finished r v))

/-- R302, R303 (derived): `an.zero` empties the rows that it names, `an.close` adds each element's two chains and empties the
odd one, `an.drain` writes closed rows out, converted, to slots or registers, and empties them where C is set. -/
def Obligations.AnvilDrainResults : Prop :=
  ∀ (s u : State) (c : Cmd) (r : Run),
    let closed (x : State) : Prop := ∀ i < anCnt c, ∀ n < 64, (x.tc r.t).chainOf true (anM0 c + i) n = none
    let ready (x : State) : State := if cmdFormat c = 10 then x.modTc r.t (fun k => k.seeded2 r.e.seq) else x
    let after (x : State) : State := if anC c then x.modTc r.t (fun k => k.zeroRows c) else x
    (CanStart 0x88 c s r → anChecks rowsForm r c s = .ok () s → RangeFree s r →
      exec (.anZero c) s = .next (finished r (s.modTc r.t (fun k => k.zeroRows c)))) ∧
    (CanStart 0x85 c s r → anChecks rowsForm r c s = .ok () s → RangeFree s r →
      exec (.anClose c) s = .next (finished r (s.modTc r.t (fun k =>
        (anRows c).foldl (fun (k : TileCtx) m => (List.range 64).foldl (fun (k : TileCtx) n =>
          { k with a0 := setChain k.a0 m n (some (closeChains (k.chainOf false m n) (k.chainOf true m n)))
                   a1 := setChain k.a1 m n none }) k) k)))) ∧
    (CanStart 0x86 c s r → anChecks (drainForm c) r c s = .ok () s →
      (anD c = false ∧ RangeFree s r ∧ closed s ∧ (List.range (anCnt c)).forM (drainOut r c) (ready s) = .ok () u ∨
        anD c = true ∧ SlotsFree s r (anDq c) (anCnt c) ∧ closed (reserved r (anDq c) (anCnt c) s) ∧
          (List.range (anCnt c)).forM (drainOut r c) (ready (reserved r (anDq c) (anCnt c) s)) = .ok () u) →
      exec (.anDrain c) s = .next (finished r (after u)))

/-! ## The vector engine -/

/-- R258, R265 (derived): what an operation of n-bit elements does to its destination: an active element of the range takes
its result, an inactive one is kept or zeroed, every element outside the range and every other register is as it was. -/
def Obligations.VectorWriteRule : Prop :=
  ∀ (k : TileCtx) (c : Cmd) (n : Nat) (op : Nat → Nat), 0 < n → n * (vE0 c + vVl c) ≤ 65536 →
    (∀ i, n * (i + 1) ≤ 65536 →
      elemAt ((k.putV c n op).vreg (vVd c)) n i =
        (if vE0 c ≤ i ∧ i < vE0 c + vVl c then
          if k.active c i then op i % 2 ^ n else if vZm c then 0 else elemAt (k.vreg (vVd c)) n i
         else elemAt (k.vreg (vVd c)) n i)) ∧
    (∀ q, q ≠ vVd c → (k.putV c n op).vreg q = k.vreg q) ∧ (k.putV c n op).p = k.p ∧ (k.putV c n op).vt = k.vt

/-- R266, R267, R268 (derived): the integer, logic, shift and bit-field commands write the named function of their
sources' elements to the active elements of vd. -/
def Obligations.VectorIntegerResults : Prop :=
  ∀ (s : State) (c : Cmd) (r : Run),
    let w := vBits c
    let val := intVal (cmdFormat c)
    let put (f : TileCtx → Nat → Nat) : Host.Outcome State Fault Refusal :=
      .next (finished r (s.modTc r.t (fun k => k.putV c w (f k))))
    let two (f : Nat → Nat → Nat) := put (fun k i => f (srcA k c i) (srcB k c i))
    let one (f : Nat → Nat) := put (fun k i => f (srcA k c i))
    let int (f : Int → Int → Int) := two (fun a b => narrow (cmdFormat c) (vS c) (f (val a) (val b)))
    let amount (k : TileCtx) (i : Nat) : Nat := (if vX c then scalarOf c else srcC k c i) % (2 * w)
    (VectorReady 0x60 (binForm c) c s r →
      exec (.vadd c) s = int (fun a b => a + b) ∧ exec (.vsub c) s = int (fun a b => a - b) ∧
      exec (.vmul c) s = int (fun a b => a * b) ∧
      exec (.vmulh c) s = two (fun a b => wrap (val a * val b / (2 ^ w : Int)) w) ∧
      exec (.vmin c) s = two (fun a b => if val a ≤ val b then a else b) ∧
      exec (.vmax c) s = two (fun a b => if val a ≥ val b then a else b)) ∧
    (VectorReady 0x60 (unForm c) c s r →
      exec (.vabs c) s = one (fun a => narrow (cmdFormat c) (vS c) (val a).natAbs) ∧
      exec (.vneg c) s = one (fun a => narrow (cmdFormat c) (vS c) (-val a))) ∧
    (VectorReady 0x61 (binForm c) c s r →
      exec (.vand c) s = two (fun a b => a &&& b) ∧ exec (.vor c) s = two (fun a b => a ||| b) ∧
      exec (.vxor c) s = two (fun a b => a ^^^ b) ∧ exec (.vandn c) s = two (fun a b => a &&& (2 ^ w - 1 - b))) ∧
    (VectorReady 0x61 (unForm c) c s r → exec (.vnot c) s = one (fun a => 2 ^ w - 1 - a)) ∧
    (VectorReady 0x62 (binForm c) c s r →
      exec (.vsll c) s = two (fun a n => if n ≥ w then 0 else a * 2 ^ n % 2 ^ w) ∧
      exec (.vsrl c) s = two (fun a n => if n ≥ w then 0 else a / 2 ^ n) ∧
      exec (.vsra c) s = two (fun a n => wrap (signedVal w a / (2 ^ min n w : Int)) w)) ∧
    (VectorReady 0x62 { binForm c with s2 := true, s3 := !vX c } c s r →
      exec (.vfsh c) s = put (fun k i =>
        (srcA k c i * 2 ^ w + elemAt (k.vreg (vVs2 c)) w i) / 2 ^ amount k i % 2 ^ w)) ∧
    (VectorReady 0x63 (fieldForm c) c s r →
      exec (.vbfx c) s = two (fun a n =>
        let u := if n ≥ w then 0 else a / 2 ^ n % 2 ^ vAux c
        if vS c then wrap (signedVal (vAux c) u) w else u) ∧
      exec (.vbfi c) s = put (fun k i =>
        let n := srcB k c i; let d := elemAt (k.vreg (vVd c)) w i
        let hi := min (n + vAux c) w
        if n ≥ w then d else d % 2 ^ n + srcA k c i % 2 ^ (hi - n) * 2 ^ n + d / 2 ^ hi * 2 ^ hi)) ∧
    (VectorReady 0x63 (unForm c) c s r →
      exec (.vpopc c) s = one (fun a => popBelow a w) ∧ exec (.vclz c) s = one (fun a => w - bitLen a))

/-- R269, R270, R271, R285 (derived): comparisons write one predicate bit an element, a NaN comparing unequal to all; the
predicate commands combine predicates bit by bit; `vsel` chooses by the selector; `vany` and `vall` write a vote. -/
def Obligations.VectorPredicateResults : Prop :=
  ∀ (s : State) (c : Cmd) (r : Run),
    let cmp (un : Bool) (p : Int → Bool) : Host.Outcome State Fault Refusal :=
      .next (finished r (s.modTc r.t (fun k => k.putP c (k.active c) (fun i =>
        match elemCmp (cmdFormat c) (srcA k c i) (srcB k c i) with
        | none => un
        | some o => p o))))
    let pred (f : Bool → Bool → Bool) : Host.Outcome State Fault Refusal :=
      .next (finished r (s.modTc r.t (fun k => k.putP c (fun _ => true) (fun i =>
        f ((k.preg (vVs1 c)).getLsbD i) ((k.preg (vVs2 c)).getLsbD i)))))
    let form (n : Nat) (ok : Bool) : VForm :=
      { s1 := 1 ≤ n, s2 := 2 ≤ n, gov := .none, size := 1, auxOk := ok,
        named := [(vVd c, 15), (vVs1 c, 15), (vVs2 c, 15)] }
    let vote (f : Nat → Nat → Bool) : Host.Outcome State Fault Refusal :=
      .next (finished r (s.modTc r.t (fun k =>
        let n := countSet (k.preg (vVs1 c)) (k.actives c)
        let w := BitVec.ofNat 64 (n * 2 ^ 16 + if f n (k.actives c).length then 1 else 0)
        { k with vt := SMap.set 0 k.vt (vVd c) w })))
    (VectorReady 0x64 { binForm c with named := [(vVd c, 15)] } c s r →
      exec (.vcmpEq c) s = cmp false (fun o => o = 0) ∧ exec (.vcmpNe c) s = cmp true (fun o => o ≠ 0) ∧
      exec (.vcmpLt c) s = cmp false (fun o => o < 0) ∧ exec (.vcmpLe c) s = cmp false (fun o => o ≤ 0) ∧
      exec (.vcmpGt c) s = cmp false (fun o => o > 0) ∧ exec (.vcmpGe c) s = cmp false (fun o => o ≥ 0)) ∧
    (VectorReady 0x65 (form 2 (vAux c = 0)) c s r →
      exec (.vpand c) s = pred (fun a b => a && b) ∧ exec (.vpor c) s = pred (fun a b => a || b) ∧
      exec (.vpxor c) s = pred (fun a b => a != b)) ∧
    (VectorReady 0x65 (form 1 (vAux c = 0)) c s r → exec (.vpnot c) s = pred (fun a _ => !a)) ∧
    (VectorReady 0x65 (form 0 (vAux c ≤ 1)) c s r → exec (.vpset c) s = pred (fun _ _ => vAux c = 1)) ∧
    (VectorReady 0x66 { binForm c with gov := .selector } c s r →
      exec (.vsel c) s = .next (finished r (s.modTc r.t (fun k => k.putV c (vBits c) (fun i =>
        if (k.preg (vPg c)).getLsbD i != vPn c then srcA k c i else srcB k c i))))) ∧
    (VectorReady 0x71 { s2 := false, size := 1, auxOk := vAux c = 0, named := [(vVd c, 3), (vVs1 c, 15)] } c s r →
      exec (.vany c) s = vote (fun n _ => n > 0) ∧ exec (.vall c) s = vote (fun n m => n = m))

/-- R26, R272, R273, R274, R275 (derived): the floating-point commands round the exact result once; the quantising and
dequantising commands scale by 2^(e − 127) of the block's scale; `vcvt` converts between the formats, drawing where it rounds
to m8. -/
def Obligations.VectorFloatResults : Prop :=
  ∀ (s : State) (c : Cmd) (r : Run),
    let fmt := cmdFormat c
    let v := ofElem fmt
    let put (n : Nat) (f : TileCtx → Nat → Nat) : Host.Outcome State Fault Refusal :=
      .next (finished r (s.modTc r.t (fun k => k.putV c n (f k))))
    let two (f : Fl → Fl → Fl) := put (vBits c) (fun k i => roundReal fmt (f (v (srcA k c i)) (v (srcB k c i))))
    let fused (sign : Fl → Fl) := put (vBits c) (fun k i =>
      roundReal fmt (((v (srcA k c i)).mul (v (srcB k c i))).add false (sign (v (srcC k c i)))))
    let dequant (f : Nat) := put 32 (fun k i =>
      product (ofElem f (elemAt (k.vreg (vVs1 c)) 8 i)) (.fin false 1 0) (scaleExp (qScale k c i)))
    let formats := [0, 1, 2, 3, 4, 8, 9, 10]
    let sf := vAux c
    (VectorReady 0x67 (binForm c) c s r →
      exec (.vfadd c) s = two (Fl.add false) ∧ exec (.vfsub c) s = two (fun a b => a.add false b.neg) ∧
      exec (.vfmul c) s = two Fl.mul ∧ exec (.vfmin c) s = two Fl.min2 ∧ exec (.vfmax c) s = two Fl.max2) ∧
    (VectorReady 0x67 { binForm c with s3 := true } c s r →
      exec (.vfma c) s = fused (fun z => z) ∧ exec (.vfms c) s = fused Fl.neg) ∧
    (VectorReady 0x67 (unForm c) c s r →
      exec (.vfabs c) s = put (vBits c) (fun k i => srcA k c i % 2 ^ (vBits c - 1)) ∧
      exec (.vfneg c) s = put (vBits c) (fun k i => srcA k c i ^^^ 2 ^ (vBits c - 1))) ∧
    (VectorReady 0x68 (quantForm c 11 (vS c)) c s r → ¬ (vS c = true ∧ vVd c = vVs2 c) →
      exec (.vqm8 c) s = .next (finished r (s.modTc r.t (fun k => (k.deriveScales c).putDrawn c r.e.seq 8 (fun i g =>
        match scaledBy k (k.deriveScales c) c i with
        | none => (0x80, g)
        | some x => toM8 x g))))) ∧
    (VectorReady 0x68 (quantForm c 6 (vS c)) c s r → ¬ (vS c = true ∧ vVd c = vVs2 c) →
      exec (.vqi8 c) s = .next (finished r (s.modTc r.t (fun k => (k.deriveScales c).putV c 8 (fun i =>
        match scaledBy k (k.deriveScales c) c i with
        | none => 0
        | some x => toInt x 0 (vW c)))))) ∧
    (VectorReady 0x68 (quantForm c 0 false) c s r → exec (.vdqm8 c) s = dequant 10 ∧ exec (.vdqi8 c) s = dequant 0) ∧
    (sf ∈ formats → VectorReady 0x68 { unForm c with size := max (elemSize fmt) (elemSize sf), auxOk := true } c s r →
      exec (.vcvt c) s = .next (finished r (s.modTc r.t (fun k => k.putDrawn c r.e.seq (vBits c) (fun i g =>
        convertElem sf fmt (vW c) (elemAt (k.vreg (vVs1 c)) (8 * elemSize sf) i) g)))))

/-- R276, R277, R278, R283, R284 (derived): a reduction or a dot product writes one element; the permuting commands and the
moves inside the register file write the elements that they choose; `viota` counts the predicate bits below an element. -/
def Obligations.VectorReduceResults : Prop :=
  ∀ (s : State) (c : Cmd) (r : Run),
    let fmt := cmdFormat c
    let sum := sumFormat c
    let red (res : Nat) (f : TileCtx → Nat) : Host.Outcome State Fault Refusal :=
      .next (finished r (s.modTc r.t (fun k =>
        k.setV (vVd c) (setElem (k.vreg (vVd c)) (8 * elemSize res) (opf c 144 13) (f k)))))
    let put (f : TileCtx → Nat → Nat) : Host.Outcome State Fault Refusal :=
      .next (finished r (s.modTc r.t (fun k => k.putV c (vBits c) (f k))))
    let nan (l : List Nat) : Bool := !isInt fmt && l.any (fun a => ofElem fmt a = .nan)
    (VectorReady 0x69 (redForm c false sum) c s r →
      (isInt fmt = true → exec (.vredsum c) s =
        red sum (fun k => wrap (((k.actives c).map (fun i => intVal fmt (srcA k c i))).sum) 64)) ∧
      (isInt fmt = false → exec (.vredsum c) s =
        red sum (fun k => chainSum ((k.actives c).map (fun i => (i - vE0 c, termOf fmt (srcA k c i))))))) ∧
    (VectorReady 0x69 (redForm c false fmt) c s r →
      exec (.vredmax c) s = red fmt (fun k => bestOf fmt (leastOf fmt) (fun a m => orderKey fmt a > orderKey fmt m)
        ((k.actives c).map (srcA k c))) ∧
      exec (.vredmin c) s = red fmt (fun k => bestOf fmt (greatestOf fmt) (fun a m => orderKey fmt a < orderKey fmt m)
        ((k.actives c).map (srcA k c))) ∧
      exec (.vredmaxabs c) s = red fmt (fun k =>
        if nan ((k.actives c).map (srcA k c)) then canonNan fmt
        else (((k.actives c).map (srcA k c)).map (magnitude fmt)).foldl max 0)) ∧
    (VectorReady 0x6A (redForm c true sum) c s r →
      (isInt fmt = true → exec (.vdot c) s = red sum (fun k => wrap (((k.actives c).map (fun i =>
        intVal fmt (srcA k c i) * intVal fmt (elemAt (k.vreg (vVs2 c)) (vBits c) i))).sum) 64)) ∧
      (isInt fmt = false → exec (.vdot c) s = red sum (fun k => chainSum ((k.actives c).map (fun i => (i - vE0 c,
        product (ofElem fmt (srcA k c i)) (ofElem fmt (elemAt (k.vreg (vVs2 c)) (vBits c) i)) (some 0))))))) ∧
    (VectorReady 0x6B { binForm c with s2 := true, size := max 2 (elemSize fmt) } c s r →
      exec (.vperm c) s = put (fun k i =>
        let j := elemAt (k.vreg (vVs2 c)) 16 i
        if j ≥ 8192 / elemSize fmt then 0 else srcA k c j)) ∧
    (VectorReady 0x6B (unForm c) c s r →
      exec (.vrot c) s = put (fun k i => srcA k c (vE0 c + (i - vE0 c + c.patch.toNat) % vVl c))) ∧
    (VectorReady 0x6B
        { unForm c with s1 := !vX c, auxOk := if vX c then vAux c = 0 else vAux c < 8192 / elemSize fmt } c s r →
      exec (.vsplat c) s = put (fun k _ => if vX c then scalarOf c else srcA k c (vAux c))) ∧
    (VectorReady 0x72 { unForm c with auxOk := movAuxOk c } c s r → exec (.vmovReg c) s = put (fun k i => srcA k c i)) ∧
    (VectorReady 0x72 { unForm c with s1 := false } c s r → exec (.vmovi c) s = put (fun _ _ => scalarOf c)) ∧
    (VectorReady 0x70 { unForm c with named := [(vVs1 c, 15)] } c s r →
      exec (.viota c) s = put (fun k i => countSet (k.preg (vVs1 c)) ((vRange c).filter (· < i))))

/-- R279, R280, R281, R282, R283 (derived): vector loads and gathers fill reserved slots from memory; stores and scatters write the active
elements, and where no line holds an upset the bytes of memory are then those they store, the others and every full/empty bit as before;
the scatters that combine act on the old value at its home; `vmov` moves slots to a register and elements to slots. -/
def Obligations.VectorMemoryResults : Prop :=
  ∀ (s u : State) (c : Cmd) (r : Run) (h : Shape),
    let d := vDq c
    let n := vSlots c
    let t := reserved r d n s
    let k := s.tc r.t
    let items : List (M (List Put)) :=
      (k.actives c).map (fun i => vPut r h (scatterCoords r c k i) (elemAt (k.vreg (vmVs1 c)) (vBits c) i))
    let moves : VForm := { unForm c with s2 := movSc c, gov := .none, auxOk := movAuxOk c }
    let m := claiming r (movDq c) n s
    let l := owned r (movDq c) m
    (CanStart 0x6C c s r → vmChecks .ld r c s = .ok h s → SlotsFree s r d n →
      (List.range n).forM (fun k => vFillSlot r c h k ((vSlotElems c k).map (vCoords r c))) t = .ok () u →
      exec (.vld c) s = .next (finished r u)) ∧
    (CanStart 0x6E c s r → vmChecks .gather r c s = .ok h s → SlotsFree s r d n →
      Runs ((List.range n).forM (fun k => do
        let l ← (vSlotElems c k).mapM (gatherCoords r (cachedGet r) c)
        vFillSlot r c h k l)) t () u →
      exec (.vgather c) s = .next (finished r u)) ∧
    (CanStart 0x6D c s r → vmChecks .st r c s = .ok h s → RangeFree s r →
      let stores : List (M (List Put)) :=
        (k.actives c).map (fun i => vPut r h (vCoords r c (i - vE0 c)) (elemAt (k.vreg (vmVs1 c)) (vBits c) i))
      storeAll r false stores [] s = .ok () u →
      exec (.vst c) s = .next (finished r u) ∧
      Writes (plainWrites r false stores s) r.t s (finished r u)) ∧
    (CanStart 0x6F c s r → vmChecks .scatter r c s = .ok h s → RangeFree s r →
      let atomics (f : Nat → Nat → Nat) (i : Instr) : Prop := atomicAll r false f items [] s = .ok () u →
        exec i s = .next (finished r u) ∧ Writes (atomicWrites r false f items s) r.t s (finished r u)
      (storeAll r false items [] s = .ok () u → exec (.vscatter c) s = .next (finished r u) ∧
        Writes (plainWrites r false items s) r.t s (finished r u)) ∧
      atomics (fun old a => (old + a) % 2 ^ vBits c) (.vscatterAdd c) ∧
      atomics (fun old a => if intVal (cmdFormat c) a < intVal (cmdFormat c) old then a else old) (.vscatterMin c) ∧
      atomics (fun old a => if intVal (cmdFormat c) a > intVal (cmdFormat c) old then a else old) (.vscatterMax c) ∧
      atomics (fun old a => roundF32 ((ofF32 old).add false (ofF32 a))) (.vscatterFadd c) ∧
      atomics fmaxabs (.vscatterFmaxabs c)) ∧
    (CanStart 0x72 c s r → reservedBit c (vReserved { moves with s1 := false }) = none → vRangeBad moves.size c = false →
      movAuxOk c = true → SlotsFull s r (movDq c) n →
      (∀ x ∈ l, x.side.getLsbD 28 = false ∧ field x.side 8 4 = cmdFormat c) →
      exec (.vmovFromDq c) s = .next (finished r (released r (m.modTc r.t (fun k =>
        let k := k.setV (vVd c) (putElems (k.vreg (vVd c)) (vBits c) (vE0 c) (slotsElems c l))
        if movSc c then
          k.setV (vVs2 c) (putElems (k.vreg (vVs2 c)) 8 (movScale c) (l.map (fun x => field x.side 0 8)))
        else k))))) ∧
    (CanStart 0x72 c s r → reservedBit c (vReserved { moves with d := false }) = none → vRangeBad moves.size c = false →
      movAuxOk c = true → SlotsFree s r (movDq c) n →
      let q := reserved r (movDq c) n s
      (List.range n).forM (fun j =>
        fillSlot r (movDq c) (BitVec.ofNat 4096 (packElems (elemSize (cmdFormat c))
            ((vSlotElems c j).map (fun i => srcA (q.tc r.t) c (vE0 c + i)))))
          (vSide c j (c.patch.toNat / 2 ^ 32) false
            (if movSc c then elemAt ((q.tc r.t).vreg (vVs2 c)) 8 (movScale c + j) else 127))) q = .ok () u →
      exec (.vmovToDq c) s = .next (finished r u))

/-- The frame of the vector commands that name no memory (R258, R265, R269 to R278, R283 to R285; derived): where one executes, nothing but
its tile changes, and of what its tile holds for the context only its entry, the registers of its destination's kind and, for `vqm8` and
`vcvt`, the generator that they draw from: of the registers only its destination, and for a quantising command that derives its scales
the scale register. A command that writes a predicate or a vote leaves every other one. A move to or from a data queue changes the slots
of that queue only. -/
def Obligations.VectorFrame : Prop :=
  (∀ (s t : State) (c : Cmd) (r : Run) (op : Nat) (f : VForm) (i : Instr),
    let draws : List Instr := [.vqm8 c, .vcvt c]
    let quants : List Instr := [.vqm8 c, .vqi8 c]
    ((i, op, f) ∈ vectorForms c →
     VectorReady op f c s r → ¬ (i ∈ quants ∧ vS c = true ∧ vVd c = vVs2 c) → exec i s = .next t →
     t = { s with tiles := t.tiles } ∧ (∀ q, q ≠ r.t → t.tile q = s.tile q) ∧ t.tile r.t = { s.tile r.t with ctx := t.tc r.t } ∧
     t.tc r.t = { s.tc r.t with v := (t.tc r.t).v, gen1 := (t.tc r.t).gen1, reseed1 := (t.tc r.t).reseed1, q0 := (t.tc r.t).q0 } ∧
     (t.tc r.t).q0 = (s.tc r.t).q0.mod r.e.seq (fun e => { e with st := .done, why := 0 }) ∧
     (i ∉ draws → (t.tc r.t).gen1 = (s.tc r.t).gen1 ∧ (t.tc r.t).reseed1 = (s.tc r.t).reseed1) ∧
     (∀ q, q ≠ vVd c → (q ≠ vVs2 c ∨ i ∉ quants ∨ vS c = false) → (t.tc r.t).vreg q = (s.tc r.t).vreg q)) ∧
    ((i, op, f) ∈ predicateForms c →
     VectorReady op f c s r → exec i s = .next t →
     t = { s with tiles := t.tiles } ∧ (∀ q, q ≠ r.t → t.tile q = s.tile q) ∧ t.tile r.t = { s.tile r.t with ctx := t.tc r.t } ∧
     t.tc r.t = { s.tc r.t with p := (t.tc r.t).p, q0 := (t.tc r.t).q0 } ∧
     (∀ q, q ≠ vVd c → (t.tc r.t).preg q = (s.tc r.t).preg q)) ∧
    ((i, op, f) ∈ voteForms c → VectorReady op f c s r → exec i s = .next t →
     t = { s with tiles := t.tiles } ∧ (∀ q, q ≠ r.t → t.tile q = s.tile q) ∧ t.tile r.t = { s.tile r.t with ctx := t.tc r.t } ∧
     t.tc r.t = { s.tc r.t with vt := (t.tc r.t).vt, q0 := (t.tc r.t).q0 } ∧
     (∀ q, q ≠ vVd c → SMap.get 0 (t.tc r.t).vt q = SMap.get 0 (s.tc r.t).vt q))) ∧
  (∀ (s t : State) (c : Cmd) (r : Run) (i : Instr),
    let free (f : VForm) : Prop := reservedBit c (vReserved f) = none ∧ vRangeBad (elemSize (cmdFormat c)) c = false ∧
      movAuxOk c = true ∧ CanStart 0x72 c s r
    let moves : VForm := { unForm c with s2 := movSc c, gov := .none, auxOk := movAuxOk c }
    (i = .vmovFromDq c ∧ free { moves with s1 := false } ∧ SlotsFull s r (movDq c) (vSlots c) ∧
        (∀ x ∈ owned r (movDq c) (claiming r (movDq c) (vSlots c) s), x.side.getLsbD 28 = false ∧ field x.side 8 4 = cmdFormat c) ∨
      i = .vmovToDq c ∧ free { moves with d := false } ∧ SlotsFree s r (movDq c) (vSlots c)) →
    exec i s = .next t →
    t = { s with tiles := t.tiles } ∧ (∀ q, q ≠ r.t → t.tile q = s.tile q) ∧ t.tile r.t = { s.tile r.t with ctx := t.tc r.t } ∧
    t.tc r.t = { s.tc r.t with v := (t.tc r.t).v, dq := (t.tc r.t).dq, q0 := (t.tc r.t).q0 } ∧
    (i = .vmovToDq c → ∀ q, (t.tc r.t).vreg q = (s.tc r.t).vreg q) ∧
    (∀ q, q ≠ vVd c → (q ≠ vVs2 c ∨ movSc c = false) → (t.tc r.t).vreg q = (s.tc r.t).vreg q) ∧
    (i = .vmovToDq c → ∀ d, d ≠ movDq c → (t.tc r.t).dqueue d = (s.tc r.t).dqueue d))

/-! ## The copy engine -/

/-- R312, R313, R314, R315, R316, R317 (derived; that a chunk is one step, but for words of it that are taken before, is log entry 13, the
model's choice): a copy that may work makes the effect of its next chunk: it starts by its checks, works the chunk's elements, and notes
that their writes are performed unless remote elements are still out. Of a copy between places of this context: element n takes its value
from its source, whose coordinates are the source's base and the element's place in the box, for `cp.gather` with the index put in; for
`cp.fill` the pattern. It goes to the destination of the element's place in the box, for `cp.scatter` with the index put in, and is dropped
and counted where that clips. Where no line holds an upset the bytes of memory are then those the chunk stores, for `cp.red` the old value
combined with the element's, in walk order; the other bytes and every full/empty bit are as before. (What an overlap of source and
destination leaves is log entry 47.) `cp.pref` and a gather of remote elements change no byte. -/
def Obligations.CopyChunkResults : Prop :=
  (∀ (s t u : State) (c : Cmd) (r : Run) (op : Nat) (k : CopyKind) (i : Instr),
    (i, op, k) ∈ ([(.cpNd c, 0xA0, .nd), (.cpGather c, 0xA1, .gather), (.cpScatter c, 0xA2, .scatter), (.cpRed c, 0xA4, .red),
      (.cpFill c, 0xA5, .fill), (.cpPref c, 0xA6, .pref)] : List (Instr × Nat × CopyKind)) →
    CanStart op c s r → CopyReady r → CopyStarts k r c s t → cpChunk k r c t = .ok () u →
    let v := ongoing r (progressed r (fun p => { p with started := true, suspended := false, written := p.wait.isEmpty, seen := [], puts := [] }) u)
    let ns := cpElems k r c r.e.prog.next
    exec i s = .next v ∧
    (cpRemote k c = false → k ≠ .pref → ∀ vs w, ns.mapM (cpValue k r c) t = .ok vs w →
      let items := cpItems k r c w (ns.zip vs)
      (k ≠ .red → Writes (plainWrites r true items w) r.t t v) ∧
      (k = .red → (∀ n ∈ ns, w.overlapped k r c n = false) →
        Writes (atomicWrites r true (redOp c.sub.toNat (cmdFormat c)) items w) r.t t v)) ∧
    (k = .pref ∨ (cpRemote k c = true ∧ k = .gather) → Writes [] r.t t v)) ∧
  (∀ (s t : State) (c : Cmd) (r : Run) (k : CopyKind) (n v : Nat) (ix : Int) (p : Place),
    let j := boxCoords (cpBox k r c).extents n
    let y := addCoords (coordsOf r.e c 72 (cpNcoord c)) j
    let z := addCoords (coordsOf r.e c 132 (cpDncoord c)) j
    let bytes := 8 * elemSize (cpDest r c).fmt
    cpValue .fill r c n s = .ok (c.patch.toNat % 2 ^ (8 * cpSize c)) s ∧
    (k ≠ .fill → k ≠ .gather → cpValue k r c n s = (do
      let x ← readElem (directGet r true) (cpSource r c) y
      pure x.1 : M Nat) s) ∧
    (k = .gather → cpIdx r c (nth 0 j (cpIdim c)) s = .ok ix t → cpValue k r c n s = (do
      let x ← readElem (directGet r true) (cpSource r c) (setNth y (cpIdim c) ix)
      pure x.1 : M Nat) t) ∧
    ((cpDest r c).type = 0 → isCode (cpDest r c).fmt = false → 0 ≤ p.a → p.a < 2 ^ 52 →
      (k ≠ .scatter → denseElem (cpDest r c) z = some p →
        cpPut k r c n v s = .ok [{ va := p.a.toNat, n := elemSize (cpDest r c).fmt, v := v % 2 ^ bytes }] s) ∧
      (k = .scatter → cpIdx r c (nth 0 j (cpIdim c)) s = .ok ix t → denseElem (cpDest r c) (setNth z (cpIdim c) ix) = some p →
        cpPut k r c n v s = .ok [{ va := p.a.toNat, n := elemSize (cpDest r c).fmt, v := v % 2 ^ bytes }] t)) ∧
    ((cpDest r c).type = 0 → k ≠ .scatter → denseElem (cpDest r c) z = none →
      cpPut k r c n v s = .ok [] (s.modCtx (s.ctxOf r.t) (fun x => { x with clip := satAdd 64 x.clip 1 }))))

/-- R319, R320, R321, R322, R323 (derived; that a step decodes to the end of a chunk or block is log entry 13): `cp.dec` reads a block's
header where it is between blocks and decodes to the end of a chunk or of the block, or to where it needs a ring unit, for which it then
waits; it takes the unit as the oldest waiter; a block that reaches its cycle bound ends in fault 0x12, what it leaves of the block's bytes
are free values (log entry 34). A fault of the decoder ends the copy with its code, the block's number mod 256 and the address of the
block's first destination element, 0 where that clips (log entry 131). A block is malformed, which gives 0x19, by its header or by a length
table with a length above 12, with no symbol, or with lengths that oversubscribe the code (that a table past the source's end comes first
is log entry 132). A byte of a stored block is the source byte at its place past the 16 bytes of the header; one of a coded block is the
symbol of its length whose canonical code the bits of the body from place 144 on form, read from the least significant bit of each byte and
with the code's most significant bit first. Bits that form no code, a body or a source that ends, and a destination that is full give 0x12.
A decoded byte goes to the next byte of the destination and into the checksum; where that differs at the block's end the fault is 0x11.
Where no line holds an upset and the source has no byte there, the destination byte is then that byte, and every other byte is as before.
-/
def Obligations.DecoderResults : Prop :=
  (∀ (s t u v : State) (c : Cmd) (r : Run) (d0 d : DecState) (ring : Bool) (k : TileCtx),
    (CanStart 0xA3 c s r → r.e.prog.written = false → r.e.prog.cancelled = false →
      ((s.tc r.t).token (cpTkr c)).waiters.contains .copy = false → CopyStarts .dec r c s t →
      (if r.e.prog.dec.inBlock then d0 = r.e.prog.dec ∧ u = t else decHeader r c r.e.prog.dec t = .ok d0 u) →
      decRun r c 513 d0 u = .ok (d, ring) v →
      let w := progressed r (fun p => { p with started := true, suspended := false, dec := { d with old := p.dec.old },
                                               written := p.next < decDone r c d,
                                               xlat := if d.out % 512 = 0 then [] else p.xlat
                                               seen := if d.out % 512 = 0 then [] else p.seen }) v
      exec (.cpDec c) s = .next (ongoing r (if ring then w.modTc r.t (fun k =>
        k.setToken (cpTkr c) { k.token (cpTkr c) with waiters := (k.token (cpTkr c)).waiters ++ [.copy] }) else w))) ∧
    (∀ code detail addr, CanStart 0xA3 c s r → r.e.prog.written = false → r.e.prog.cancelled = false →
      ((s.tc r.t).token (cpTkr c)).waiters.contains .copy = false →
      (r.e.prog.started = false → cpStart .dec r c s = .error (.fault code detail addr) t →
        exec (.cpDec c) s = .next (faulted r code detail addr t)) ∧
      (CopyStarts .dec r c s t → (r.e.prog.dec.inBlock = false ∧ decHeader r c r.e.prog.dec t = .error (.fault code detail addr) v ∨
          (if r.e.prog.dec.inBlock then d0 = r.e.prog.dec ∧ u = t else decHeader r c r.e.prog.dec t = .ok d0 u) ∧
            decRun r c 513 d0 u = .error (.fault code detail addr) v) →
        exec (.cpDec c) s = .next (faulted r code detail addr (v.spoil r code)))) ∧
    (s.copyRun = some r → (s.tc r.t).take (cpTkr (cmdOfBits r.e.w)) 1 .copy = some k →
      exec .ringUnitTake s = .next ((s.setTc r.t k).modEntry r.t 1 r.e.seq (fun e =>
        { e with prog := { e.prog with dec := { e.prog.dec with unit := true } } }))) ∧
    (s.copyRun = some r → field r.e.w 0 8 = 0xA3 → r.e.prog.dec.inBlock = true →
      hCyc r.e.prog.dec.header ≤ r.e.prog.dec.cycles →
      exec .decoderWatchdog s = .next ((s.spoil r 0x12).modTc r.t (fun x =>
        x.recordFault r.q r.e 0x12 (r.e.prog.dec.blk % 256)
          ((s.copyDest r.t r.e (r.e.prog.dec.startOut / cpSize (cmdOfBits r.e.w))).getD 0) s.clk)))) ∧
  (∀ (h : BitVec 128) (tb : BitVec 1024),
    (malformedBlock h tb = true ↔ field h 0 16 ≠ 0x5A4B ∨ field h 16 8 ≠ 0 ∨ 1 < field h 24 8 ∨ field h 32 16 = 0 ∨ field h 48 24 = 0 ∨
      field h 72 24 = 0 ∨ (field h 24 8 = 0 ∧ 512 * field h 32 16 < 16 + field h 48 24) ∨ (field h 24 8 = 1 ∧ tableOk tb = false)) ∧
    (tableOk tb = true ↔ (∀ x, x < 256 → codeLen tb x ≤ 12) ∧ (∃ x, x < 256 ∧ codeLen tb x ≠ 0) ∧
      (((List.range 256).filter (fun x => codeLen tb x ≠ 0)).map (fun x => 2 ^ (12 - codeLen tb x))).sum ≤ 2 ^ 12) ∧
    (∀ n x, x ∈ symbolsOf tb n ↔ x < 256 ∧ field tb (4 * x) 4 = n) ∧ (∀ n, (symbolsOf tb n).Pairwise (· < ·)) ∧
    firstCode tb 1 = 0 ∧ ∀ n, 1 ≤ n → firstCode tb (n + 1) = 2 * (firstCode tb n + (symbolsOf tb n).length)) ∧
  (∀ (s t u : State) (c : Cmd) (r : Run) (d : DecState) (h tb : Nat),
    let x : DecState := { d with startOut := d.out }
    let y : DecState := { x with header := BitVec.ofNat 128 h, table := BitVec.ofNat 1024 tb, inBlock := true, n := 0, bit := 0,
                                 crc := BitVec.allOnes 32, cycles := 0, old := [] }
    let v := progressed r (fun p => { p with dec := y }) u
    (∀ e, decBytes r c x d.src 16 s = .error e t → decHeader r c d s = .error e t) ∧
    (decBytes r c x d.src 16 s = .ok h t →
    (if hMagic y.header = 0x5A4B ∧ hKind y.header = 1 then decBytes r c x (d.src + 16) 128 t = .ok tb u else tb = 0 ∧ u = t) →
    (malformedBlock y.header y.table = false → decHeader r c d s = .ok y v) ∧
    (malformedBlock y.header y.table = true → decHeader r c d s =
      .error (.fault 0x19 (d.blk % 256) ((v.copyDest r.t r.e (d.out / cpSize c)).getD 0)) v))) ∧
  (∀ (s t : State) (c : Cmd) (r : Run) (d e : DecState) (b f n : Nat),
    let fails {α : Type} (m : M α) (code : Nat) (t : State) : Prop :=
      m s = .error (.fault code (d.blk % 256) ((t.copyDest r.t r.e (d.startOut / cpSize c)).getD 0)) t
    ((cpSource r c).count ≤ n → fails (decSource r c d n) 0x12 s) ∧
    (hKind d.header = 0 →
      (512 * hPlen d.header ≤ 16 + d.n → fails (nextSymbol r c d) 0x12 s) ∧
      (16 + d.n < 512 * hPlen d.header → decSource r c d (d.src + (16 + d.n)) s = .ok b t → nextSymbol r c d s = .ok (b, d) t)) ∧
    (∀ (at_ : Nat → State) (byte : Nat → Nat), hKind d.header = 1 → at_ 0 = s →
      let code (n : Nat) : Nat := (List.range n).foldl (fun a i => 2 * a + byte i / 2 ^ ((d.bit + i) % 8) % 2) 0
      let reads (n : Nat) : Prop := ∀ i < n, bodyByte r c d (144 + (d.bit + i) / 8) (at_ i) = .ok (byte i) (at_ (i + 1))
      (∀ n k x, tableOk d.table = true → 1 ≤ n → (symbolsOf d.table n)[k]? = some x → code n = firstCode d.table n + k → reads n →
        nextSymbol r c d s = .ok (x, { d with bit := d.bit + n }) (at_ n)) ∧
      ((∀ n k, 1 ≤ n → n ≤ 12 → k < (symbolsOf d.table n).length → code n ≠ firstCode d.table n + k) → reads 12 →
        fails (nextSymbol r c d) 0x12 (at_ 12))) ∧
    (512 * hPlen d.header ≤ n → fails (bodyByte r c d n) 0x12 s) ∧
    (n < 512 * hPlen d.header → bodyByte r c d n s = decSource r c d (d.src + n) s) ∧
    (d.n = hRlen d.header →
      (hCyc d.header ≤ d.cycles → fails (decRun r c (f + 1) d) 0x12 s) ∧
      (d.cycles < hCyc d.header → ~~~d.crc ≠ bits d.header 96 32 → fails (decRun r c (f + 1) d) 0x11 s)) ∧
    (d.n < hRlen d.header → nextSymbol r c d s = .ok (b, e) t →
      (d.out = (cpDest r c).count * cpSize c → fails (decRun r c (f + 1) d) 0x12 t) ∧
      (d.out < (cpDest r c).count * cpSize c → cpRg c = true → d.out % 512 = 0 → d.unit = false →
        decRun r c (f + 1) d s = .ok (d, true) t))) ∧
  (∀ (s t u : State) (c : Cmd) (r : Run) (d e : DecState) (b f : Nat),
    let d' : DecState := { e with out := d.out + 1, n := d.n + 1, unit := false, crc := crcByte d.crc b }
    d.n < hRlen d.header → d.out < (cpDest r c).count * cpSize c →
    (cpRg c = false ∨ d.out % 512 ≠ 0 ∨ d.unit = true) → nextSymbol r c d s = .ok (b, e) t → e = { d with bit := e.bit } →
    decWrite r c d.out b t = .ok () u →
    (d.n + 1 = hRlen d.header → d.cycles < hCyc d.header → ~~~(crcByte d.crc b) ≠ bits d.header 96 32 →
      decRun r c (f + 1) d s =
        .error (.fault 0x11 (d.blk % 256) ((u.copyDest r.t r.e (d.startOut / cpSize c)).getD 0)) u) ∧
    (d.n + 1 ≠ hRlen d.header → (d.out + 1) % 512 ≠ 0 → decRun r c (f + 1) d s = decRun r c f d' u) ∧
    (d.n + 1 ≠ hRlen d.header → (d.out + 1) % 512 = 0 → decRun r c (f + 1) d s = .ok (d', false) u) ∧
    (d.n + 1 = hRlen d.header → d.cycles < hCyc d.header → ~~~(crcByte d.crc b) = bits d.header 96 32 →
      decRun r c (f + 1) d s =
        .ok ({ d' with src := d.src + 512 * hPlen d.header, blk := d.blk + 1, inBlock := false }, false) u)) ∧
  (∀ (s t : State) (c : Cmd) (r : Run) (out b : Nat) (p : Place) (l : Leaf),
    let z := addCoords (coordsOf r.e c 132 (cpDncoord c)) (boxCoords (cpDest r c).extents (out / cpSize c))
    (cpDest r c).type = 0 → denseElem (cpDest r c) z = some p → 0 ≤ p.a → p.a < 2 ^ 52 →
    engineLeafIn (fun t => t = 0) r true true (p.a.toNat + out % cpSize c) s = .ok l t → homeTile l.pa = r.t →
    (∀ i < (cpSource r c).count,
      (denseElem (cpSource r c) (addCoords (coordsOf r.e c 72 (cpNcoord c)) (boxCoords (cpSource r c).extents i))).bind
        (fun q => t.placeOf (t.ctxOf r.t) q.a.toNat) ≠ some l.pa) →
    Quiet s → s.held = [] → Stored t l →
    ∃ u, decWrite r c out b s = .ok () u ∧ u.byte l.pa = BitVec.ofNat 8 b ∧ ∀ a, a ≠ l.pa → u.byte a = s.byte a)

/-- R317, R324, R325, R328 (derived): a chunk whose writes are performed sets its bit and gives its token, unless an element
of it failed, and the copy goes to its next chunk or is done (in rising order: log entry 104, the model's choice); the values that a remote
gather has been given are written then, in walk order; a remote element that answers is kept or fails; a copy of a
context that is pre-empted suspends between chunks; `cpcancel` answers by what it finds: 2 where the number is of no copy, 1 of one that
has completed, 3 of one that has faulted, and else 0 with the chunks whose bits are set, the copy then ended; where elements of a remote scatter
are out it waits for them first. (That it answers 0 of a copy whose effect is complete, and which elements a cancelled copy counts as
missed, are the model's choice, logs 49 and 31.) -/
def Obligations.CopyProgressResults : Prop :=
  ∀ (s t w : State) (r : Run) (m : RemoteReply) (rd rs1 : Reg) (e : Entry),
    let c := cmdOfBits r.e.w
    let k := copyKind (field r.e.w 0 8)
    let p := r.e.prog
    let h := s.me
    let n := (s.readX h rs1).toNat
    let answer (x : State) (st bits : Nat) : Host.Outcome State Fault Refusal :=
      .next (x.result h rd (BitVec.ofNat 64 (bits * 2 ^ 32 + st)))
    (s.copyRun = some r → p.written = true → writeGathered k r c s = .ok () w →
      (if p.failed = false ∧ cpBits k c ≠ 0 then setChunkBit r (cpBits k c) p.next w = .ok () t else t = w) →
      let u := if p.failed = false ∧ cpPc c = true then t.modTc r.t (fun x => x.give (cpTkp c) 1 (.command 1 r.e.seq)) else t
      let v := progressed r (fun _ =>
        { p with got := [], xlat := [], seen := [], puts := [], next := p.next + 1, failed := false,
                 bits := if cpBits k c ≠ 0 && !p.failed then p.bits + 1 else p.bits,
                 written := k = .dec && p.next + 1 < decDone r c p.dec }) u
      exec .copyChunkComplete s = .next (if p.next + 1 = cpChunks k r c then
        v.modEntry r.t 1 r.e.seq (fun e => { e with st := .done }) else v)) ∧
    (r = { t := m.tile, q := 1, e := e } → (s.queue m.tile 1).entries.find? (fun y => y.copying && y.seq = m.seq) = some e →
      p.wait.contains m.elem = true →
      let u := s.answered (answersElement m)
      let out : Bool := s.sent.any (fun d => answersElement m d.what)
      let left (x : State) : State := (progressed r (fun q =>
        let l := q.wait.filter (· ≠ m.elem)
        { q with wait := l, written := l.isEmpty && !q.cancelled }) x).endCancel m.tile m.seq
      (m.outcome ≠ .lost → out = false → exec (.copyRemoteElement m) s = .next s) ∧
      (m.outcome = .delivered → out = true → k = .gather → p.cancelled = false → exec (.copyRemoteElement m) s =
        .next (left (progressed r (fun q => { q with got := SMap.put q.got m.elem (BitVec.ofNat 64 m.data.toNat) }) u))) ∧
      (m.outcome = .delivered → out = true → k ≠ .gather ∨ p.cancelled = true → exec (.copyRemoteElement m) s = .next (left u)) ∧
      (m.outcome ≠ .delivered → m.outcome = .lost ∨ out = true → k ≠ .scatter ∨ m.outcome ≠ .lost →
        ∃ x, exec (.copyRemoteElement m) s = .next (left x) ∧ x.tiles = (progressed r (fun q => q.fail m.outcome) u).tiles ∧
          x.mem = s.mem) ∧
      (m.outcome = .lost → k = .scatter → exec (.copyRemoteElement m) s = .next (left
        ((progressed r (fun q => q.fail m.outcome) u).modCtx ((progressed r (fun q => q.fail m.outcome) u).ctxOf r.t)
          (fun x => { x with lost := satAdd 64 x.lost 1 }))))) ∧
    (s.copyRun = some r → (s.ctx (s.ctxOf r.t)).st = .preempting → p.written = false → p.wait = [] →
      r.e.midChunk = false → p.cancelled = false →
      exec .copySuspend s = .next (progressed r (fun q => { q with suspended := true, got := [], xlat := [], seen := [] })
        (s.modTc r.t (fun k => k.leaveToken (cpTkr c) (fun w => w = .copy))))) ∧
    (h.move = false → exec (.cpcancel rd rs1) s = .next (s.takeTrap h false 2 0 ((s.fetchWord h).setWidth 64))) ∧
    (h.move = true → (s.tc h.tile).q1.entries.find? (fun e => e.num = some n) = none →
      (n = 0 ∨ (s.tc h.tile).targetC < n ∨ (s.tc h.tile).controls.contains n = true →
        exec (.cpcancel rd rs1) s = answer s 2 0) ∧
      (n ≠ 0 → n ≤ (s.tc h.tile).targetC → (s.tc h.tile).controls.contains n = false →
        exec (.cpcancel rd rs1) s = answer s 1 (SMap.get 0 (s.tc h.tile).chunks n))) ∧
    (h.move = true → (s.tc h.tile).q1.entries.find? (fun e => e.num = some n) = some e → n = 0 ∨ field e.w 5 3 ≠ 5 →
      exec (.cpcancel rd rs1) s = answer s 2 0) ∧
    (h.move = true → (s.tc h.tile).q1.entries.find? (fun e => e.num = some n) = some e → n ≠ 0 → field e.w 5 3 = 5 →
      let out : Prop := copyKind (field e.w 0 8) = .scatter ∧ e.prog.wait ≠ []
      (e.st ≠ .faulted → out → exec (.cpcancel rd rs1) s =
        .next ((s.modEntry h.tile 1 e.seq (fun x => { x with prog := { x.prog with cancelled := true } })).setWait h .cancel)) ∧
      (e.st = .faulted → exec (.cpcancel rd rs1) s = answer s 3 e.prog.bits) ∧
      (e.st ≠ .faulted → ¬ out →
        exec (.cpcancel rd rs1) s = answer (s.cancelNow h.tile e) 0 e.prog.bits))

/-! ## Messages -/

/-- R360, R364, R365 (derived; that messages leave as data of the state, and that unused PATCH bits are not checked, is the model's choice,
logs 51 and 91): a send, a put, an arrival or a get whose scope entry names a domain with the member hands its message to the route: to
this chip's receive engine, or to the fabric; it then awaits the answer. To a member that the domain does not have it has outcome 4 at
once. Each travels in the class that it asks for, or the context's where that is higher (R357). -/
def Obligations.SendResults : Prop :=
  ∀ (s t u : State) (c : Cmd) (r : Run) (d : Domain) (serial : Word) (peer : Nat) (p : List Byte),
    let wait (op : BitVec 8) (word : Nat) (x : State) : State :=
      x.modTc r.t (fun y => { y with unacked := y.unacked ++ [⟨r.e.seq, op, word⟩] })
    let miss (x : State) (op : BitVec 8) (word : Nat) : Host.Outcome State Fault Refusal :=
      .next (finished r (x.outcome (x.ctxOf r.t) (x.ctileOf r.t) op word 0 4))
    let get : RemoteGet :=
      { ctx := peer, va := c.patch, len := (msShape r c).boxBytes, cls := t.classOf r c, sender := t.refOf r }
    let msg : Message :=
      { ctx := peer, domain := d.id, src := BitVec.ofNat 16 (u.memberIndex (u.ctxOf r.t) d * 512 + u.ctileOf r.t),
        chan := msChan c, cls := u.classOf r c, tag := msTag c, payload := p, cut := none, sender := u.refOf r }
    let put : RemotePut :=
      { ctx := peer, va := c.patch, payload := p, word := BitVec.ofNat 64 (msWord c), cls := u.classOf r c, cut := none,
        sender := u.refOf r }
    let sig : RemoteSignal := { ctx := peer, va := c.patch, cls := t.classOf r c, sender := t.refOf r }
    let out (x : State) (chan : Nat) (i : Instr) (y : Sent) : State :=
      x.handOver serial (max (msClass c) (x.ctx (x.ctxOf r.t)).cfg.cls.toNat) (x.ctileOf r.t) chan i y
    (CanStart 0xC0 c s r → msChecks .send r c s = .ok d t →
      (d.members[msMember c]? = some (serial, peer) → readPayload r c t = .ok p u →
        exec (.txSend c) s = .next (finished r (out (wait 0xC0 (msWord c) u) (msChan c).toNat (.messageArrival msg)
          (.send serial msg)))) ∧
      (d.members[msMember c]? = none → exec (.txSend c) s = miss t 0xC0 (msWord c))) ∧
    (CanStart 0xC1 c s r → msChecks .put r c s = .ok d t →
      (d.members[msMember c]? = some (serial, peer) → readPayload r c t = .ok p u →
        exec (.txPut c) s = .next (finished r (out (wait 0xC1 0 u) 0 (.remotePutWrite put) (.put serial put)))) ∧
      (d.members[msMember c]? = none → exec (.txPut c) s = miss t 0xC1 0)) ∧
    (CanStart 0xC1 c s r → msChecks .arrive r c s = .ok d t →
      (d.members[msMember c]? = some (serial, peer) →
        exec (.txPutArrive c) s = .next (finished r (out (wait 0xC1 (msWord c) t) 0 (.remoteArrival sig)
          (.arrive serial sig)))) ∧
      (d.members[msMember c]? = none → exec (.txPutArrive c) s = miss t 0xC1 (msWord c))) ∧
    (CanStart 0xC2 c s r → r.e.prog.started = false → msChecks .get r c s = .ok d t →
      (d.members[msMember c]? = some (serial, peer) →
        exec (.txGet c) s = .next (ongoing r (progressed r (fun q => { q with started := true })
          (out t 0 (.remoteGetRead get) (.get serial get))))) ∧
      (d.members[msMember c]? = none → exec (.txGet c) s = miss t 0xC2 (msWord c)))

/-- R368, R369, R371, R374 (derived): a posted receive takes the oldest parked message that matches it, with the payload that its entry of
the unexpected queue holds, else it waits in the list; a cancel removes the receive of a word and fills it with status 3; a probe of a
domain that the context has writes the number of entries that match, and the first one's words, and all ones where its scope is not bound
or its key has a reserved bit set; a probe traps with code 4 where its record is misaligned, with code 7 where the record is not in tier S,
and with code 15 and kind 3 where its page is not writable. (That a matched message leaves the parked list at the match, and that it lands
the bytes its entry holds, is the model's choice, logs 56 and 57.) -/
def Obligations.ReceiveResults : Prop :=
  ∀ (s t : State) (c : Cmd) (r : Run) (d : Domain) (rd rs1 : Reg) (l : Leaf) (v0 v1 v2 : State) (w0 w1 : Nat),
    let x := s.ctxOf r.t
    let p : Posted := { domain := d.id, src := msSrc c, smask := msSmask c, tag := msTag c, tmask := msTmask c,
                        word := msWord c, handle := r.e.handle (msH c), coords := msCoords r c }
    let h := s.me
    let a := s.readX h rs1
    let k := BitVec.ofNat 64 w1
    let next := (s.hart h).pc + 4
    let put (x : State) (off : Nat) (v : Word) : State :=
      x.plainWrite h.tile (x.ctxOf h.tile) { l with pa := l.pa + off } 8 v.toNat
    let hits (e : Domain) : List (Word × Word) :=
      probeList (v2.ctx (v2.ctxOf h.tile)) e.id (bits k 16 16) (bits k 32 16) (bits (BitVec.ofNat 64 w0) 0 32)
        (bits (BitVec.ofNat 64 w0) 32 32) (k.getLsbD 0)
    (CanStart 0xC8 c s r → msChecks .post r c s = .ok d t → t.ctxOf r.t = x → (t.ctx x).posted.length < 1024 →
      ((t.ctx x).parked.find? (fun m => p.matches m.2) = none → exec (.rxPost c) s =
        .next (finished r (t.modCtx x (fun y => { y with posted := y.posted ++ [p] })))) ∧
      (∀ i m, (t.ctx x).parked.find? (fun m => p.matches m.2) = some (i, m) → exec (.rxPost c) s =
        .next (finished r ((t.unpark i m).1.startLanding x p (t.unpark i m).2 (some i)))) ∧
      (∀ i m, ((t.unpark i m).1.ctx m.ctx).parked = (t.ctx m.ctx).parked.filter (fun q => q.1 ≠ i))) ∧
    (CanStart 0xC9 c s r → msChecks .cancel r c s = .ok d t → t.ctxOf r.t = x →
      ((t.ctx x).posted.find? (fun p => p.word = msWord c) = none → exec (.rxCancel c) s = .next (finished r t)) ∧
      (∀ q, (t.ctx x).posted.find? (fun p => p.word = msWord c) = some q → exec (.rxCancel c) s =
        .next (finished r ((t.modCtx x (fun y => { y with posted := dropFirst (fun p => p.word = msWord c) y.posted
          })).fillReceive x q.word q.tag q.src 0 0 3)))) ∧
    (probeLeaf h a s = .ok l v0 → plainRead h 8 a v0 = .ok w0 v1 → plainRead h 8 (a + 8) v1 = .ok w1 v2 →
      ((v2.ctx (v2.ctxOf h.tile)).fabricDomain (field k 8 5) = none →
        exec (.rxProbe rd rs1) s = .next ((v2.writeX h rd (BitVec.allOnes 64)).retire h next)) ∧
      (∀ e, (v2.ctx (v2.ctxOf h.tile)).fabricDomain (field k 8 5) = some e → k &&& 0xFFFF00000000E0FE ≠ 0 →
        exec (.rxProbe rd rs1) s = .next ((v2.writeX h rd (BitVec.allOnes 64)).retire h next)) ∧
      (∀ e, (v2.ctx (v2.ctxOf h.tile)).fabricDomain (field k 8 5) = some e → k &&& 0xFFFF00000000E0FE = 0 → hits e = [] →
        exec (.rxProbe rd rs1) s = .next ((v2.writeX h rd 0).retire h next)) ∧
      (∀ e q rest, (v2.ctx (v2.ctxOf h.tile)).fabricDomain (field k 8 5) = some e → k &&& 0xFFFF00000000E0FE = 0 →
        hits e = q :: rest → LineFree v2 h l true →
        exec (.rxProbe rd rs1) s =
          .next (((put (put v2 16 q.1) 24 q.2).writeX h rd (BitVec.ofNat 64 (rest.length + 1))).retire h next))) ∧
    (a.toNat % 32 ≠ 0 → exec (.rxProbe rd rs1) s = .next (s.takeTrap h false 4 0 a)) ∧
    (a.toNat % 32 = 0 → 2 ^ 52 ≤ a.toNat → exec (.rxProbe rd rs1) s = .next (s.takeTrap h false 7 0 a)) ∧
    (a.toNat % 32 = 0 → a.toNat < 2 ^ 52 → hartLeaf h false 32 a s = .ok l v0 →
      (l.tier ≠ 0 → exec (.rxProbe rd rs1) s = .next (v0.takeTrap h false 7 0 a)) ∧
      (l.tier = 0 → l.writable = false → exec (.rxProbe rd rs1) s = .next (v0.takeTrap h false 15 3 a)))

/-- R206, R365, R366, R368, R369, R370, R372 (derived): a message to a context that takes none is counted and refused with outcome 2; one
that matches a posted receive starts its landing; another is parked where the unexpected queue has a free entry for it and else dropped
with outcome 1; the first landing makes what is left of its writes, and where one of them or its word is on a page that is moving is tried
again, after the others; once they have ended it fills its words, frees the entry that it held and is acknowledged otherwise, with
outcome 4 where it faulted; an answer records its outcome. (Which entry, and the bytes of its
header, that a landing keeps its entry to its end, the byte count of the answer to one that faulted, and where a lost arrival is counted are
the model's choice, logs 53, 56, 57 and 58.) -/
def Obligations.MessageArrivalResults : Prop :=
  ∀ (s : State) (m : Message) (c : Nat) (l : Landing) (rest : List Landing) (a : MsgAck) (k : Unacked),
    let x := s.ctx m.ctx
    (x.receives = false → m.cut = none →
      exec (.messageArrival m) s = .next (s.dropSignal m.ctx m.sender m.cls) ∧
      (s.countSignal m.ctx).dev.droppedSignals = satAdd 64 s.dev.droppedSignals 1 ∧
      { clk := s.clk, code := .signalDropped, ctx := some m.ctx, place := 0 } ∈ (s.countSignal m.ctx).dev.log) ∧
    (∀ p, x.receives = true → x.posted.find? (fun p => p.matches m) = some p → exec (.messageArrival m) s =
      .next ((s.modCtx m.ctx (fun x => { x with posted := dropFirst (fun p => p.matches m) x.posted })).startLanding m.ctx p m
        none)) ∧
    (x.receives = true → x.posted.find? (fun p => p.matches m) = none → m.cut = none →
      (∀ i, x.parks m = some i → exec (.messageArrival m) s = .next ((s.park i m).ack m.sender m.cls m.payload.length 0) ∧
        ((s.park i m).ctx m.ctx).parked = x.parked ++ [(i, m)]) ∧
      (x.parks m = none → exec (.messageArrival m) s =
        .next ((s.modCtx m.ctx (fun x => { x with drops := satAdd 32 x.drops 1 })).ack m.sender m.cls 0 1)) ∧
      (x.parks m = none ↔ 2 ^ x.cfg.uqlog < m.payload.length ∨ x.cfg.uqn ≤ x.uqUsed ∧ x.uqFreed = [])) ∧
    ((s.ctx c).landings = l :: rest →
      let r := if l.ended then (s, l) else s.land c l
      let l := r.2
      (l.ended = true → r.1.wordMoving c l.p.word = false → exec (.landingComplete c) s = .next (
        let t := (r.1.modCtx c (fun x => { x with landings := rest })).fillReceive c l.p.word l.m.tag l.m.src l.m.chan l.n l.status
        match l.parked with
        | some i => t.modCtx c (fun x => { x with uqFreed := x.uqFreed ++ [i] })
        | none => if l.m.cut.isSome then t else t.ack l.m.sender l.m.cls l.n (if l.fault then 4 else 0))) ∧
      (l.ended = false ∨ r.1.wordMoving c l.p.word = true → exec (.landingComplete c) s =
        .next ((r.1.modCtx c (fun x => { x with landings := rest ++ [l] })).later (.landingComplete c)))) ∧
    (let mine (r : MsgRef) : Bool := r.ctx = a.ctx && r.ctile = a.ctile && r.seq = a.seq
      let s' := s.answered (fun x => match x with
        | .send _ m => mine m.sender
        | .put _ p => mine p.sender
        | .arrive _ p => mine p.sender
        | _ => false)
      (s'.tcAt a.ctx a.ctile).unacked.find? (fun u => u.seq = a.seq) = some k → s'.wordMoving a.ctx k.word = false →
      exec (.messageAck a) s = .next (
        let t := s'.modTcAt a.ctx a.ctile (fun x => { x with unacked := x.unacked.filter (fun u => u.seq ≠ a.seq) })
        let t := if a.status = 3 && k.op = 0xC1 then t.modCtx a.ctx (fun x => { x with lost := satAdd 64 x.lost 1 }) else t
        t.outcome a.ctx a.ctile k.op k.word a.bytes.toNat a.status.toNat))

/-- R199, R206, R207, R365, R367, R375 (derived; what a remote put that faults partway leaves, where a lost arrival counts and that peers
act by events are the model's choice, logs 55, 58 and 91): at the target a put writes its bytes, then its word, and answers, with outcome 4
where one cannot be written; it waits while its page is moving and behind an older put of its tile and class that waits; one that a link
failure has cut leaves free values and is not answered; a get reads its bytes and replies with them; an arrival takes the barrier's home
step; each is refused with outcome 2 by a context that takes none, and a get has outcome 4 where it cannot read; a word of a put that another
of its order is before is not written ahead of it; reply bytes land in the box of the `tx.get`, which the last of them
completes. -/
def Obligations.RemoteAccessResults : Prop :=
  ∀ (s₀ t : State) (p : RemotePut) (g : RemoteGet) (a : RemoteSignal) (l : Leaf) (y : GetReply) (tile : Nat) (e : Entry),
    let s := s₀
    let base := p.va.toNat / 8 * 8
    let parts := s.partsLeft p
    let all := RemotePut.parts p
    let free : Prop := s.spanMoving p.ctx p.va.toNat p.payload.length = false ∧ s.wordMoving p.ctx p.word.toNat = false
    let first : Prop := ∀ q, s.heldPuts.find? (RemotePut.sameOrder p) = some q → q = p
    let s' : State := s.endPut p
    let s0 : State := { s with getWords := s.getWords.filter (fun x => x.1 ≠ g) }
    let words := boxPieces 8 g.len (g.va.toNat % 8) (List.replicate g.len 0)
    let reply (x : State) (l : List Byte) (st : BitVec 8) : Host.Outcome State Fault Refusal :=
      .next (x.handOver g.sender.serial g.cls 0 0 (.getReply ⟨g.sender.ctx, g.sender.ctile, g.sender.seq, 0, l, true, st⟩)
        (.reply g.sender l st))
    let s1 := s.deviceWalk a.ctx a.va.toNat
    let w := s1.homeRead (some a.ctx) l.pa 8
    let z := w.1.homeRead (some a.ctx) (l.pa + 8) 8
    let r : Run := { t := tile, q := 2, e := e }
    let c := cmdOfBits e.w
    ((s.ctx p.ctx).receives = false → p.cut = none → exec (.remotePutWrite p) s =
      .next (s'.dropSignal p.ctx p.sender p.cls)) ∧
    (∀ va, s.putFirst p ≠ some p → s.putWord p va = s) ∧
    ((s.ctx p.ctx).receives = true → ¬ (free ∧ first) → exec (.remotePutWrite p) s = .next (s.holdPut p)) ∧
    ((s.ctx p.ctx).receives = true → free → first → p.cut = none → s'.putBytes p.copy p.ctx base parts = some t → p.word = 0 →
      exec (.remotePutWrite p) s = .next (t.ack p.sender p.cls p.payload.length 0)) ∧
    (∀ z, (s.ctx p.ctx).receives = true → free → first → p.cut = none → s'.putBytes p.copy p.ctx base parts = some t → p.word ≠ 0 →
      let v := t.deviceWalk p.ctx p.word.toNat
      v.leafAt p.ctx p.word.toNat = some z → z.tier = 0 → z.writable = true → exec (.remotePutWrite p) s =
        .next ((v.fillAt p.ctx p.word.toNat (p.payload.length * 2 ^ 32)).ack p.sender p.cls p.payload.length 0)) ∧
    ((s.ctx p.ctx).receives = true → free → first → p.cut = none → s'.putBytes p.copy p.ctx base parts = none →
      exec (.remotePutWrite p) s = .next ((s'.scrambleBytes p.copy p.ctx base all).ack p.sender p.cls 0 4)) ∧
    ((s.ctx p.ctx).receives = true → free → first → p.cut.isSome = true →
      exec (.remotePutWrite p) s = .next (s'.scrambleBytes p.copy p.ctx base all)) ∧
    ((s.ctx g.ctx).receives = false → exec (.remoteGetRead g) s = reply (s0.countSignal g.ctx) [] 2) ∧
    (∀ x, (s.ctx g.ctx).receives = true → s0.getBytes g.copy (s.seenFor g) g.ctx (g.va.toNat / 8 * 8) words = some x →
      exec (.remoteGetRead g) s = reply x.1 x.2 0) ∧
    ((s.ctx g.ctx).receives = true → s0.getBytes g.copy (s.seenFor g) g.ctx (g.va.toNat / 8 * 8) words = none →
      exec (.remoteGetRead g) s = reply s0 [] 4) ∧
    ((s.ctx a.ctx).receives = false → exec (.remoteArrival a) s = .next (s.dropSignal a.ctx a.sender a.cls)) ∧
    (∀ b token, (s.ctx a.ctx).receives = true → s.spanMoving a.ctx a.va.toNat 16 = false → s1.leafAt a.ctx a.va.toNat = some l →
      a.va.toNat % 16 = 0 → l.tier = 0 → l.writable = true → arrival w.2 z.2 = some (b, token) →
      exec (.remoteArrival a) s =
        .next (((z.1.homeWrite (some a.ctx) l.pa 8 b (some true)).markTagged a.ctx l).ack a.sender a.cls 0 0)) ∧
    (∀ u, let s := if y.last then s.answered (fun x => match x with
        | .get _ r => r.sender.ctx = y.ctx && r.sender.ctile = y.ctile && r.sender.seq = y.seq
        | _ => false) else s
      s.homeOf y.ctx y.ctile = some tile → (s.queue tile 2).find y.seq = some e → e.st = .running →
      field e.w 0 8 = 0xC2 → e.prog.started = true →
      let l := y.bytes.take ((msShape r c).boxBytes - y.off)
      let n := e.prog.next + l.length
      let v := u.modEntry tile 2 e.seq (fun q => { q with prog := { q.prog with next := n } })
      landReply r.whole c (replyLeft r c y) s = .ok () u →
      (y.last = false → exec (.getReply y) s₀ = .next v) ∧
      (y.last = true → y.status ≠ 3 → v.wordMoving y.ctx (msWord c) = false → exec (.getReply y) s₀ =
        .next ((v.outcome (v.ctxOf tile) (v.ctileOf tile) 0xC2 (msWord c) n y.status.toNat).modEntry tile 2 e.seq
          (fun q => { q with st := .done }))))

/-! ## Links -/

/-- R15, R350, R351, R352, R353, R354, R355 (derived; that a packet's hop, a flit's failure and a table update are steps of their own, and
the numbers of nodes and destinations, how a packet waits at a draining link, and where a loss is counted, are log entries 8, 11, 61, 62,
63 and 91, the model's choice): what packets and the events of a link do to its state: a packet that a link holds comes to a node only
where that link leads, any other enters at its source, for the context of the tile that it serves and in that context's class; a bed's
chiplet link leads to or from the chiplet; at its destination it is taken once, elsewhere it enters the link that the node's tables name,
waits while that link drains, and is lost where the link is retired, failed, down or training or no route leads on; one past 64 hops is
dropped and counted, as is an unprotected one that no route takes, and a link counts the unprotected ones that it does not take or that its
failure catches, and each is logged; the source of a protected one resends what has not been acknowledged, and of an unprotected one an
access of its requester is lost, or of a reply to a write counted; a link drains until no packet or message is committed to it; a link
wears out, loses lanes, trains, drains, retires and fails as the table of R351 has it; a Jecen port that leaves the state up loses the
remote elements of copies that are out by it (R324; log entry 141); a failure is logged; an update of a table names the link for the
destination; the host's requests enable, retire and retrain a link. -/
def Obligations.LinkResults : Prop :=
  ∀ (s : State) (p : Packet) (l via : Link) (port n dest lanes flit : Nat) (q : Request),
    let x := s.link l
    let j : Link := ⟨.jecen, port⟩
    let y := s.link j
    let lost (e : LogCode) (place : Nat) : LogEntry := { clk := s.clk, code := e, ctx := none, place := place }
    let fails := SMap.get 0 x.flitFails flit + 1
    let w : LinkRec := { x with replays := satAdd 32 x.replays 1, flitFails := SMap.put x.flitFails flit fails,
                                replayTimes := (s.clk :: x.replayTimes).take 1025 }
    let passes : Prop := x.st = .up ∨ x.st = .degraded ∨ x.st = .draining
    let b := taken s
    let z := b.link l
    (s.holder p = none → (∀ y ∈ s.stalled, ¬ (y.source = p.source ∧ y.seq = p.seq)) →
      s.received p = if s.entersAt p then some { p with cls := s.packetClass p, ctx := s.packetContext p } else none) ∧
    (p.source < Config.chipBase → s.entersAt p = decide (p.node = p.source)) ∧
    (p.source = Config.controlDie → s.entersAt p = (decide (Config.elevatorBase ≤ p.node) && decide (p.node < Config.chipBase))) ∧
    (∀ y, s.holder p = none → s.stalled.find? (fun y => y.source = p.source && y.seq = p.seq) = some y → s.received p = some y) ∧
    (∀ a, l.kind = .chiplet → l.idx < 4 → linkLeads l a dest = true →
      a = Config.chipletBase + l.idx ∨ dest = Config.chipletBase + l.idx) ∧
    (∀ y, s.holder p = some (l, y) →
      (linkLeads l y.node p.node = true → takenAt y p.node = true →
        s.received p = some { y with node := p.node, hops := y.hops + 1 }) ∧
      (linkLeads l y.node p.node = false ∨ Config.chipBase ≤ p.node ∧ p.node ≠ y.dest → s.received p = none)) ∧
    (s.nextLink p = some l → linkJoins l p.node = true) ∧
    (s.received p = none → exec (.packetArrival p) s = .next s) ∧
    (∀ g, s.received p = some g →
      let u := (s.leaveLinks g).keep g
      let v := u.countDropped g.node
      let refuses : Prop := (u.link l).st ≠ .up ∧ (u.link l).st ≠ .degraded ∧ (u.link l).st ≠ .draining
      (g.node = g.dest → exec (.packetArrival p) s = .next (u.deliver g) ∧
        (u.duplicate g = true → (u.deliver g).delivered = u.delivered)) ∧
      (g.node ≠ g.dest → 64 < g.hops → exec (.packetArrival p) s = .next (v.losePacket g)) ∧
      (g.node ≠ g.dest → g.hops ≤ 64 →
        (u.nextLink g = none → protectedPacket g = true → exec (.packetArrival p) s = .next (u.losePacket g)) ∧
        (u.nextLink g = none → protectedPacket g = false → exec (.packetArrival p) s = .next (v.losePacket g)) ∧
        (u.nextLink g = some l → (u.link l).st = .up ∨ (u.link l).st = .degraded → exec (.packetArrival p) s =
          .next (u.setLink l { u.link l with inside := (u.link l).inside ++ [g] })) ∧
        (u.nextLink g = some l → (u.link l).st = .draining → exec (.packetArrival p) s =
          .next (State.later { u with stalled := u.stalled ++ [g] } (.packetArrival g))) ∧
        (u.nextLink g = some l → refuses → protectedPacket g = true →
          exec (.packetArrival p) s = .next (u.losePacket g)) ∧
        (u.nextLink g = some l → refuses → protectedPacket g = false → exec (.packetArrival p) s =
          .next ((u.dropAt l).losePacket g)))) ∧
    ((s.countDropped n).dev.packetsDropped = satAdd 64 s.dev.packetsDropped 1 ∧
      lost .packetDropped n ∈ (s.countDropped n).dev.log) ∧
    ((s.dropAt l).link l = { x with dropped := satAdd 64 x.dropped 1 } ∧ lost .linkDropped (linkNumber l) ∈ (s.dropAt l).dev.log) ∧
    (protectedPacket p = true → (p.source, p.dest) ∈ (s.losePacket p).resend) ∧
    (protectedPacket p = false → onChip p.source = true → onChip p.dest = true →
      (requester p < Config.nTiles → p.kind = .read →
        ((s.losePacket p).tile (requester p)).lostReads = (s.tile (requester p)).lostReads + 1) ∧
      (p.source < Config.nTiles → p.reply = false → p.kind = .write →
        ((s.losePacket p).tile p.source).lostWrites = (s.tile p.source).lostWrites + 1) ∧
      (Config.nTiles ≤ requester p → p.kind = .read → ((s.losePacket p).ctx p.ctx).lostReads = (s.ctx p.ctx).lostReads + 1) ∧
      (Config.nTiles ≤ p.source → p.reply = false → p.kind = .write →
        ((s.losePacket p).ctx p.ctx).lostWrites = (s.ctx p.ctx).lostWrites + 1) ∧
      (p.reply = true → p.kind = .write → ((s.losePacket p).ctx p.ctx).lost = satAdd 64 (s.ctx p.ctx).lost 1)) ∧
    (∃ t, exec (.protectedResend n) s = .next t ∧ (∀ k ∈ t.resend, k.1 ≠ n) ∧ t.mem = s.mem ∧
      ∀ g ∈ SMap.get [] s.kept n, (n, g.dest) ∈ s.resend →
        .event (.packetArrival { g with hops := 0, protect := true }) ∈ t.agenda) ∧
    (passes → fails ≤ 8 → (x.st ≠ .up ∨ l.kind = .jecen ∨ w.worn s.clk = false) →
      exec (.flitCrcFail ⟨l, flit⟩) s = .next (s.setLink l w)) ∧
    (passes → fails ≤ 8 → x.st = .up → l.kind ≠ .jecen → w.worn s.clk = true →
      exec (.flitCrcFail ⟨l, flit⟩) s = .next (s.setLink l { w with st := .degraded })) ∧
    (passes → 8 < fails → exec (.flitCrcFail ⟨l, flit⟩) s = .next (s.failLink l)) ∧
    (((s.failLink l).link l).st = .failed ∧ ((s.failLink l).link l).inside = [] ∧
      (x.dropped < 2 ^ 64 → ((s.failLink l).link l).dropped =
        satAdd 64 x.dropped ((x.inside.filter (fun p => !protectedPacket p)).length +
          (if l.kind = .jecen then (s.sent.filter (fun d => d.caughtOn l.idx && !(d.cls = 0 || d.what.waits))).length else 0))) ∧
      lost .linkFailed (linkNumber l) ∈ (s.failLink l).dev.log) ∧
    ((∀ d ∈ (s.loseElements port).sent, ∀ a b c e f g i k m, d.what = .element a b c e f g i k m → d.port ≠ some port) ∧
      (∀ d ∈ s.sent, ∀ a b c e f elem i tile seq, d.port = some port → d.what = .element a b c e f elem i tile seq →
        .event (.copyRemoteElement { tile := tile, seq := seq, elem := elem, outcome := .lost, data := 0 }) ∈
          (s.loseElements port).agenda)) ∧
    (y.st = .up → y.lanes = 2 →
      exec (.jecenLaneLost port) s = .next ((s.setLink j { y with lanes := 1, st := .degraded }).loseElements port)) ∧
    (passes → l.kind = .jecen → x.lanes ≤ 1 →
      exec (.jecenLaneLost l.idx) s = .next ((s.setLink l { x with lanes := 0 }).failLink l)) ∧
    (y.st = .degraded → exec (.jecenLaneRestored port) s = .next (s.setLink j { y with st := .up, lanes := 2 })) ∧
    (x.st = .training → lanes ≠ 0 → exec (.trainingComplete l lanes) s = .next (s.setLink l
      { x with trainFails := 0, flitFails := [], lanes := min lanes 2,
               st := if l.kind = .jecen && lanes = 1 then .degraded else .up })) ∧
    (x.st = .training → 2 ≤ x.trainFails → exec (.trainingComplete l 0) s =
      .next ((s.setLink l { x with trainFails := x.trainFails + 1 }).failLink l)) ∧
    (s.linkHolds l = true ↔
      x.inside ≠ [] ∨ l.kind = .jecen ∧ ∃ d ∈ s.sent, d.port = some l.idx ∧ d.passed = false) ∧
    (x.st = .draining → s.linkHolds l = false → s.avoided l = true →
      exec (.linkDrainComplete l) s = .next (s.setLink l { x with st := .retired })) ∧
    (x.st = .draining → s.linkHolds l = true → x.drainFrom + 12500 ≤ s.clk →
      exec (.linkDrainTimeout l) s = .next (s.failLink l)) ∧
    (n < Config.chipNode → dest < Config.chipBase → dest ≠ Config.controlDie → linkJoins via n = true → via.kind ≠ .stem →
      via.kind ≠ .jecen → (s.link via).st = .up ∨ (s.link via).st = .degraded →
      ∃ t, exec (.routeTableUpdate n dest [via]) s = .next t ∧ t.route n dest = via ∧ t.mem = s.mem) ∧
    (n < Config.nTiles → via.kind = .elevator → via.idx / 32 = n / 128 → (s.link via).st = .up →
      ∃ t, exec (.routeTableUpdate n Config.controlDie [via]) s = .next t ∧ t.elevatorOf n = via.idx ∧ t.mem = s.mem) ∧
    (q.rsv = 0 → linkOf (q.word 1) = some l → z.st = .down → exec (.linkEnable q) s =
      .next (answered s 0x10 q 0 0 (b.modLink l (fun x => { x with st := .training, trainFails := 0 })))) ∧
    (q.rsv = 0 → linkOf (q.word 1) = some l → (z.st = .up ∨ z.st = .degraded) → l.kind ≠ .elevator → exec (.linkRetire q) s =
      .next (answered s 0x10 q 0 0 (
        let u := b.modLink l (fun x => { x with st := .draining, drainFrom := b.clk })
        if l.kind = .jecen ∧ z.st = .up then u.loseElements l.idx else u))) ∧
    (q.rsv = 0 → linkOf (q.word 1) = some l → (z.st = .up ∨ z.st = .degraded) → l.kind = .elevator → exec (.linkRetire q) s =
      .next (answered s 0x10 q 0 0
        ((b.modLink l (fun x => { x with st := .draining, drainFrom := b.clk })).replaceElevator l.idx))) ∧
    (q.rsv = 0 → linkOf (q.word 1) = some l → l.kind = .jecen → z.st = .failed → z.retrains = [] →
      exec (.linkRetrain q) s = .next (answered s 0x10 q 0 0 (b.modLink l (fun x =>
        { x with st := .training, trainFails := 0, retrains := [b.clk] }))))

/-! ## Contexts -/

/-- R126, R380, R383 (derived; the values at commit of registers to which the manual gives none, the treatment of counts out of range, the
number of launches that can wait a close-queue without a kernel, and that a commit waits while the started work of a context that was torn
down still runs on its clusters, are the model's choice, logs 9, 14, 66, 69, 70 and 73): `create` gives the lowest free id; a record that
is well formed is stored, for a resident context until its next launch; `commit` of free clusters makes the context resident on them with
its timelines and `ctxclip` at zero; `launch` of a resident context declares its kernel and runs.
R166, R167, R168, R378, R379 (derived): `launch` of a readable record with room in the queue of launches declares the kernel and makes the
context running; a record that is malformed completes with status 4 and the reason; `close-queue` closes the queue that it names, or all of
them, of the kernel that has not retired, and what has drained by it is marked once the kernel is loaded. -/
def Obligations.ContextSetupResults : Prop :=
  (∀ (s : State) (q : Request) (c : Nat) (x : CtxRecord) (l : List Nat),
      let b := taken s
      let t := takenFor q s
      let k := q.ctx.toNat
      (q.rsv = 0 → (List.range Config.nContexts).find? (fun c => (b.ctx c).st = .free) = some c →
        exec (.create q) s = .next (answered s 0x01 q 0 (BitVec.ofNat 64 c) (b.modCtx c (fun x => x.renew .assembling)))) ∧
      (q.rsv = 0 → (List.range Config.nContexts).find? (fun c => (b.ctx c).st = .free) = none →
        exec (.create q) s = .next (answered s 0x01 q 3 0 b)) ∧
      (Accepts q (fun x => x.st = .assembling || x.st = .resident) s → recordOf (t.hostWord (q.word 1)) = some x →
        (t.ctx k).st = .assembling ∨ x.fits (4 * (t.ctx k).width) = true →
        exec (.writeRecord q) s = .next (answered s 0x02 q 0 0 (t.modCtx k (fun y =>
          if y.st = .assembling then { y with cfg := x } else { y with written := some x })))) ∧
      (Accepts q (fun x => x.st = .assembling) s → s.commitWaits q = false → t.clusterList q = some l → t.clustersTaken k l = false →
        (t.ctx k).cfg.fits (4 * l.length) = true → ∃ u, exec (.commit q) s = .next (answered s 0x03 q 0 0 u) ∧
        (u.ctx k).st = .resident ∧ (u.ctx k).clusters = l ∧ (u.ctx k).tlr = 0 ∧ (u.ctx k).tli = 0 ∧ (u.ctx k).tlm = 0 ∧
        (u.ctx k).clip = 0 ∧ u.mem = t.mem) ∧
      (Accepts q (fun x => x.st = .assembling) s → s.commitWaits q = false → t.clusterList q = some l →
        t.clustersTaken k l = true → exec (.commit q) s = .next (answered s 0x03 q 3 0 t)) ∧
      ((s.ctx k).st = .assembling → s.clusterList q = some l → s.clustersTaken k l = false → s.clustersEnding l = true →
        s.commitWaits q = true ∧ exec (.commit q) s = .next s)) ∧
  (∀ (s : State) (a d n : Nat) (l : List Nat), a ≠ d → n ∈ l → n ∈ (s.ctx d).coming ∨ (s.ctx d).st = .running ∧ n ∈ (s.ctx d).clusters →
    s.clustersTaken a l = true) ∧
  (∀ (s : State) (q : Request) (k : Kernel) (why : Nat),
      let c := q.ctx.toNat
      let t := takenFor q s
      let v := (t.takeRecord c).touchLaunch c (q.word 1).toNat
      let x := v.ctx c
      let j := (q.word 1).toNat
      let busy : Bool := (x.kernel.map Kernel.alive).getD false
      let shut (j : Nat) (k : Kernel) : Kernel := { k with queues := (k.queues.zip (List.range k.queues.length)).map (fun p =>
        if j = 0xFF || p.2 = j then { p.1 with isOpen := false } else p.1) }
      let open' : Prop := Accepts q (fun x => x.st = .resident || x.st = .running) s ∧
        x.waiting.length < (if busy then 4 else 5)
      (open' → v.readLaunch c (q.word 1).toNat = .ok k → ∃ u, exec (.launch q) s = .next (answered s 0x04 q 0 0 u) ∧
        (u.ctx c).st = .running ∧ (u.ctx c).waiting = x.waiting ++ [k] ∧ u.mem = v.mem) ∧
      (open' → v.readLaunch c (q.word 1).toNat = .error why →
        exec (.launch q) s = .next (answered s 0x04 q 4 (BitVec.ofNat 64 why) v)) ∧
      (Accepts q Context.live s → (t.ctx c).kernel = some k → k.alive = true → (j = 0xFF ∨ j < k.queues.length) →
        exec (.closeQueue q) s = .next (answered s 0x0E q 0 0 (t.modCtx c (fun x => x.modKernel (fun k =>
          if k.st = .loaded then shut j k else (shut j k).settle))))))

/-- R132, R138, R139, R378 (derived; the zero cause of a declared fault, and status 8 of a move that still waits, are the model's choice,
logs 18 and 138): a fault that the host declares is a context fault of reason 5 with its value; a teardown tears the context down, its
groups and scopes unbound; a restore of it that is in progress completes with status 7, a move of its pages that still waits with status 8,
its own request with its release; once no operation of the context is left on the chip its release zeroes its frames of tier S, frees its
id, of which only the counts stay (R388), and completes a pre-emption that waits for it with status 7, then the teardown with status 0;
until then it waits. -/
def Obligations.ContextEndResults : Prop :=
  ∀ (s : State) (q : Request) (c : Nat),
    let t := takenFor q s
    let k := q.ctx.toNat
    let x := s.ctx c
    (Accepts q (fun x => x.st = .running || x.st = .preempting) s →
      exec (.declareFault q) s =
        .next (answered s 0x09 q 0 0 (t.contextFault k (faultRecordOf (q.word 1) 0 0 5 false 0)))) ∧
    (Accepts q (fun x => x.st ≠ .free && x.st ≠ .tornDown) s → ∃ e v u, exec (.teardown q) s = .next u ∧
      Completed 0x07 7 (t.ctx k).restoring.toList t e ∧
      Completed 0x0B 8 (((t.ctx k).moves.filter (fun m => !m.started)).filterMap (·.request)) e v ∧ u.rings = v.rings ∧ u.mem = v.mem ∧
      (u.ctx k).moves = (t.ctx k).moves.filter (·.started) ∧ (u.ctx k).restoring = none ∧ (u.ctx k).coming = [] ∧
      (u.ctx k).st = .tornDown ∧ (u.ctx k).tearRequests = [(s.ringNumber, q.tag)] ∧ (u.ctx k).kernel = none ∧
      (u.ctx k).posted = [] ∧ (u.ctx k).parked = [] ∧ (u.ctx k).groups = [] ∧ (u.ctx k).scopes = []) ∧
    (x.st = .tornDown → s.inFlight c = false → ∃ v u, exec (.releaseComplete c) s = .next u ∧
      u.ctx c = (u.ctx c).renew .free ∧ Completed 0x05 7 x.yieldRequests s v ∧ Completed 0x08 0 x.tearRequests v u ∧
      (Quiet s → (∀ p ∈ s.ctxs, p.1 ≠ c → p.2.st = .free) → ∀ pa, pa < Config.tierSEnd → pa / 16384 ∈ s.unitsOfS c →
        u.byte pa = 0 ∧ u.isFull pa = false)) ∧
    (x.st = .tornDown → x.clusters = [] → s.inFlight c = true →
      ∃ u, exec (.releaseComplete c) s = .next u ∧ (u.ctx c).st = .tornDown ∧ .event (.releaseComplete c) ∈ u.agenda)

/-- R134, R135, R136, R137 (derived): a soft pre-emption sets YR and starts the grace time, whose end starts the pre-emption as a hard one
does at once; when every tile is quiet the state goes to shadow storage, the context is swapped out and every request that waits for it
completes with status 0; until then the save waits; `save-out` moves it to the save area and frees the shadow storage, and writes nowhere but in the
parts of that area of the tiles it moves (whose bytes are not laid out, and what a context without an area answers: log entry 73); a
restore of a swapped-out context tests its list of clusters and then holds them; it is in progress while the started work of a context
that was torn down still runs there, then brings the context back on them and completes (log 14). -/
def Obligations.PreemptionResults : Prop :=
  ∀ (s : State) (q : Request) (c g : Nat) (l : List Nat),
    let t := takenFor q s
    let k := q.ctx.toNat
    let x := s.ctx c
    (Accepts q (fun x => x.st = .resident || x.st = .running) s →
      exec (.preemptSoft q) s = .next ((t.setYield k true).modCtx k (fun x =>
        { x with graceFrom := some s.clk, yieldRequests := x.yieldRequests ++ [(s.ringNumber, q.tag)] }))) ∧
    (Accepts q (fun x => x.st = .resident || x.st = .running || x.st = .preempting) s → ∃ u, exec (.preemptHard q) s = .next u ∧
      (u.ctx k).st = .preempting ∧ (u.ctx k).yieldRequests = (t.ctx k).yieldRequests ++ [(s.ringNumber, q.tag)]) ∧
    (x.graceFrom = some g → (x.st = .running ∨ x.st = .resident) → g + s.dev.settings.grace ≤ s.clk →
      exec (.softPreemptGraceExpiry c) s = .next (s.startPreempt c)) ∧
    (x.st = .preempting → x.tiles.all (s.restHarts c).tileQuiet = true → x.saveLost = false →
      ∃ u, exec (.saveComplete c) s = .next u ∧ (u.ctx c).st = .swappedOut ∧ (u.ctx c).clusters = [] ∧
        (∀ k ∈ x.tiles, ∃ sh, (u.tile k).shadow = some sh ∧ sh.ctx = c) ∧ Completed 0x05 0 x.yieldRequests s u ∧
        (u.ctx c).yieldRequests = [] ∧ ∀ a, a < Config.tierHBase → u.byte a = s.byte a) ∧
    (x.st = .preempting → x.tiles.all (s.restHarts c).tileQuiet = false →
      ∃ u, exec (.saveComplete c) s = .next u ∧ (u.ctx c).st = .preempting ∧ .event (.saveComplete c) ∈ u.agenda) ∧
    (Accepts q (fun x => x.st = .swappedOut) s → ∃ u, exec (.saveOut q) s = .next (answered s 0x06 q 0 0 u) ∧
      (∀ p ∈ u.tiles, ∀ sh, p.2.shadow = some sh → sh.ctx ≠ k) ∧ ((t.ctx k).cfg.save = 0 → u.mem = t.mem) ∧
      (Quiet s → s.held = [] → ∀ a, (∀ p ∈ t.tiles, ∀ sh, p.2.shadow = some sh → sh.ctx = k →
        a < (t.ctx k).cfg.save + saveAreaBytes * sh.ctile ∨ (t.ctx k).cfg.save + saveAreaBytes * (sh.ctile + 1) ≤ a) →
        u.byte a = t.byte a)) ∧
    (Accepts q (fun x => x.st = .swappedOut) s → (s.ctx k).restoring = none →
      (t.clusterList q = none → exec (.restore q) s = .next (answered s 0x07 q 1 0 t)) ∧
      (t.clusterList q = some l → l.length ≠ (t.ctx k).width → exec (.restore q) s = .next (answered s 0x07 q 1 0 t)) ∧
      (t.clusterList q = some l → l.length = (t.ctx k).width → t.clustersTaken k l = true →
        exec (.restore q) s = .next (answered s 0x07 q 3 0 t)) ∧
      (t.clusterList q = some l → l.length = (t.ctx k).width → t.clustersTaken k l = false → exec (.restore q) s =
        .next ((t.modCtx k (fun x => { x with restoring := some (s.ringNumber, q.tag), coming := l })).later (.restore q)))) ∧
    (∀ p, (s.ctx k).restoring = some p →
      (s.clustersEnding (s.ctx k).coming = true → exec (.restore q) s = .next (s.later (.restore q))) ∧
      (s.clustersEnding (s.ctx k).coming = false → ∃ u : State, exec (.restore q) s = .next (u.complete p.1 0x07 p.2 0 0) ∧
        (u.ctx k).restoring = none ∧ (u.ctx k).coming = [] ∧ u.mem = s.mem ∧
        (s.savedLost (s.ctx k) = false → (u.ctx k).clusters = (s.ctx k).coming ∧
          (u.ctx k).st = if (s.ctx k).kernelRuns then .running else .resident)))

/-! ## Pages and weights -/

/-- R98, R113, R336 to R340, R343 to R346 (derived): an invalidation waits at its ring while a chunk of its context is under way, then
discards the cached translations of a page. A move of a page not mapped or of tier F is refused with status 2, of one in a move with 8,
one to a member that is none, or this chip, with 1; an accepted one, to a frame or to a member's chip, waits for its pins, starts when
they are gone in time, is abandoned with 8 when they stay, and commits once no chunk holds the old translation. The copy leaves in each
new frame what was in the old one; the new entry names the new frame and tier and keeps the rest; a page that leaves the chip clears V
alone, its bytes handed to the fabric. The end of a move raises tlm by one. The barrow promotes a hot page of tier D into a frame of its
size in the pool, else in exchange for a page of tier S of its size, the coldest below the threshold, within what is left of the chip's
limit. At the end of an epoch a live context's counts are emptied and the epoch noted (that this is a step of its own is log 71). While
fewer than four installs are accepted a full mailbox is emptied, its value taken as a descriptor's address; a malformed descriptor, or a
budget of 0, ends at once with code 6 or 1, a count of 0 and nothing charged; else the budget falls by one and the install is accepted
after the others. A barrow move whose page a tagged operation has touched since is withdrawn (the model's choice, log 110). An install
waits for the chunks that read its target and for an earlier one of another context, takes an erased slot of its region's stack (which:
log 109) and ends with code 5 on an uncorrectable line, 4 at a power fault, 3 or 2 where the cells do not verify, else 0 with its source's
bytes in its target; one whose source has left the chip programs nothing and ends with code 6, its unit given back (log 116). -/
def Obligations.PageResults : Prop :=
  ∀ (s : State) (q : Request) (c : Nat) (l : Leaf) (m : PageMove) (i : Install) (rest : List Install) (e : InstallEnd),
    let t := takenFor q s
    let k := q.ctx.toNat
    let va := (q.word 1).toNat
    let n := 2 ^ pageBits (q.word 2).toNat
    let x := s.ctx c
    let out (m : PageMove) : Bool := !m.started && s.taggedSince c m
    let ready (m : PageMove) : Bool := !m.started && s.clk ≤ m.since + x.cfg.mvwait && s.movable c m
    let late (m : PageMove) : Bool :=
      !m.started && (m.since + x.cfg.mvwait < s.clk || (m.since + x.cfg.mvwait ≤ s.clk && !s.movable c m))
    let frame := field (q.word 2) 14 40 * 2 ^ 14
    let tier := field (q.word 2) 61 3
    let w := t.deviceWalk k va
    let page : List (Nat × Nat × Option Nat × Nat) := [(va / 2 ^ l.size * 2 ^ l.size, field l.entry 57 2, some frame, tier)]
    (Accepts q Context.live s → va < 2 ^ 52 → (q.word 2).toNat ≤ 3 → s.midChunk k = false →
      exec (.invalidate q) s = .next (answered s 0x0A q 0 0 (t.invalidateRange k (va / n * n) n))) ∧
    (∀ j, field (s.ringWord j) 0 8 = 0x0A → s.midChunk (field (s.ringWord j) 8 8) = true → s.ringReady j = false) ∧
    (Accepts q Context.live s → va < 2 ^ 52 →
      (w.pageLeaf k va = none → exec (.movePage q) s = .next (answered s 0x0B q 2 0 w)) ∧
      (w.pageLeaf k va = some l →
        let base := va / 2 ^ l.size * 2 ^ l.size
        let away := (q.word 2).getLsbD 7 = true
        let member := (w.ctx k).primaryDomain.bind (fun d => d.members[field (q.word 2) 0 7]?)
        let free := l.tier ≠ 2 ∧ (w.ctx k).inMove base = false
        (l.tier = 2 → exec (.movePage q) s = .next (answered s 0x0B q 2 0 w)) ∧
        (l.tier ≠ 2 → (w.ctx k).inMove base = true → exec (.movePage q) s = .next (answered s 0x0B q 8 0 w)) ∧
        (free → away → (anySet (q.word 2) [(8, 56)] = true ∨ member = none ∨ (member.map (·.1)) = some w.dev.serial) →
          exec (.movePage q) s = .next (answered s 0x0B q 1 0 w)) ∧
        (∀ peer, free → away → anySet (q.word 2) [(8, 56)] = false → member = some peer → peer.1 ≠ w.dev.serial →
          exec (.movePage q) s = .next (w.addMove k
            { pages := [(base, field l.entry 57 2, none, 0)], since := w.clk, dest := some peer,
              request := some (s.ringNumber, q.tag) })))) ∧
    (Accepts q Context.live s → va < 2 ^ 52 → w.pageLeaf k va = some l → l.tier ≠ 2 →
      (w.ctx k).inMove (va / 2 ^ l.size * 2 ^ l.size) = false → (q.word 2).getLsbD 7 = false →
      anySet (q.word 2) [(0, 14), (54, 7)] = false → w.frameOk tier frame (2 ^ l.size) l.compressed = true →
      exec (.movePage q) s = .next
        (w.addMove k { pages := page, since := w.clk, request := some (s.ringNumber, q.tag) })) ∧
    (x.moves.any out = true → exec (.moveStart c) s =
      .next (s.modCtx c (fun x => { x with moves := dropFirst out x.moves }))) ∧
    (∀ m, x.moves.any out = false → x.moves.find? ready = some m →
      let v := (m.pages.map (·.1)).foldl (fun (s : State) va => s.deviceWalk c va) s
      exec (.moveStart c) s = .next ((v.modCtx c (fun x =>
        { x with moves := mapFirst ready (fun m => { m with started := true, old := v.entriesOf c m }) x.moves })).later
        (.moveCommit c))) ∧
    (x.moves.find? late = some m → exec (.movePinWaitTimeout c) s =
      .next ((s.modCtx c (fun x => { x with moves := dropFirst late x.moves, abandoned := satAdd 64 x.abandoned 1 })).endMove c m
        8)) ∧
    (x.moves.find? (·.started) = some m → s.moveHeldUp c m.shifts = true →
      exec (.moveCommit c) s = .next (s.later (.moveCommit c))) ∧
    (x.moves.find? (·.started) = some m → s.moveHeldUp c m.shifts = false → ∃ u, exec (.moveCommit c) s = .next u ∧
      (s.held = [] → (u.ctx c).tlm = x.tlm + 1 ∧ (u.ctx c).moves = dropFirst (·.started) x.moves ∧
        Completed 0x0B 0 m.request.toList s u)) ∧
    (∀ peer p o olds old, x.moves.find? (·.started) = some m → s.moveHeldUp c m.shifts = false → m.dest = some peer → m.pages = [p] →
      m.old = [(o :: olds, old)] → Quiet s → s.held = [] → s.fitted (frameOf old).1 = true →
      ∃ u d, exec (.moveCommit c) s = .next u ∧ d ∈ u.sent ∧
        d.what = .page peer.1 peer.2 p.1 (frameOf old).2 (s.cellsOf (frameOf old).1 (frameOf old).2)) ∧
    (∀ src d size : Nat, ∀ bits : Bool, Quiet s → s.held = [] → memoryOk s → s.fitted src = true → s.fitted d = true →
      let u := (s.readFrames c [⟨src, some d, size, bits⟩]).copyFrames c [⟨src, some d, size, bits⟩]
      ∀ a, u.byte a = if d ≤ a ∧ a < d + size then s.byte (src + (a - d)) else s.byte a) ∧
    (∀ (old : Word) (v code f tr : Nat), f < 2 ^ 54 → f % 2 ^ 14 = 0 → tr < 8 →
      let new := newEntry old (v, code, some f, tr)
      field new 14 40 * 2 ^ 14 = f ∧ field new 59 3 = tr ∧ field new 0 14 = field old 0 14 ∧ field new 54 5 = field old 54 5 ∧
        field new 62 2 = 3) ∧
    (∀ (old : Word) (v code tr : Nat), let new := newEntry old (v, code, none, tr)
      field new 63 1 = 0 ∧ field new 0 63 = field old 0 63) ∧
    (∀ status, ((s.endMove c m status).ctx c).tlm = x.tlm + 1 ∧ Completed 0x0B status m.request.toList s (s.endMove c m status)) ∧
    (x.live = true → x.barrowAt < s.clk / 2 ^ 20 → ∃ u, exec (.barrowEpoch c) s = .next u ∧ (u.ctx c).hot = [] ∧
      (u.ctx c).barrowAt = s.clk / 2 ^ 20) ∧
    (∀ (hot cold : List BarrowPage) (free : List Nat) (n : Nat), let u := s.promote c hot cold free n
      ∃ new : List PageMove, (u.ctx c).moves = x.moves ++ new ∧ u.dev.barrow.2 = s.dev.barrow.2 + new.length ∧ new.length ≤ n ∧
        ∀ m ∈ new, m.barrow = true ∧ m.started = false ∧ m.dest = none ∧ ∃ p ∈ hot,
          (∃ f ∈ free, poolSize f = p.code ∧ m.pages = [(p.va, p.code, some f, 0)]) ∨
          (∃ y ∈ cold, y.code = p.code ∧ m.pages = [(p.va, p.code, some y.frame, 0), (y.va, y.code, some p.frame, 1)])) ∧
    (∀ (p y : BarrowPage) (cold : List BarrowPage) (free : List Nat) (n f : Nat),
      let moves := ((s.promote c [p] cold free (n + 1)).ctx c).moves
      (free.find? (fun f => poolSize f = p.code) = some f →
        moves = x.moves ++ [{ pages := [(p.va, p.code, some f, 0)], since := s.clk, barrow := true }]) ∧
      (free.all (fun f => poolSize f ≠ p.code) = true → y ∈ cold → y.code = p.code → ∃ z ∈ cold, z.code = p.code ∧
        z.count ≤ y.count ∧ moves = x.moves ++
          [{ pages := [(p.va, p.code, some z.frame, 0), (z.va, z.code, some p.frame, 1)], since := s.clk, barrow := true }])) ∧
    (Quiet s → x.live = true → x.barrowAt < s.clk / 2 ^ 20 → ∃ u new, exec (.barrowEpoch c) s = .next u ∧
      (u.ctx c).moves = x.moves ++ new ∧
      u.dev.barrow.2 ≤ max (if s.dev.barrow.1 = s.clk / 2 ^ 20 then s.dev.barrow.2 else 0) s.dev.settings.perEpoch ∧
      ∀ m ∈ new, m.barrow = true ∧ m.started = false ∧ ∃ b f,
        (b ∈ s.barrowPages c 1 ∧ s.dev.settings.promote ≤ b.count ∧ m.pages.head? = some (b.va, b.code, some f, 0)) ∨
        (b ∈ s.barrowPages c 0 ∧ m.pages = [(b.va, b.code, some f, 1)])) ∧
    (∀ a i, s.descriptor c a = some i → a % 32 = 0 ∧ i.src % 0x200000 = 0 ∧ i.dst % 0x200000 = 0 ∧ i.done % 8 = 0 ∧
      i.code = none ∧ (i.frames.map (·.2)).sum = 0x200000 ∧ (∃ b, s.pageLeaf c i.dst = some b ∧ b.tier = 2 ∧ i.dstPa = b.pa) ∧
      (i.done ≠ 0 → ∃ b, s.leafAt c i.done = some b ∧ b.tier = 0 ∧ b.writable = true)) ∧
    (∀ a request, Quiet s → s.held = [] → (∀ b, s.wordMoving c b = false) →
      let u := s.acceptInstall c a request
      let refused (code : Nat) : Prop := (u.ctx c).installs = x.installs ∧ (u.ctx c).cfg = x.cfg ∧ (u.ctx c).tli = x.tli + 1 ∧
        ∃ g, (u.ctx c).installLog.getLast? = some g ∧ g.code = code ∧ g.pe = 0 ∧ g.num = x.tli + 1
      (s.descriptor c a = none → refused 6) ∧
      (∀ i, s.descriptor c a = some i → x.cfg.wfbudget = 0 → refused 1) ∧
      (∀ i, s.descriptor c a = some i → 0 < x.cfg.wfbudget → (u.ctx c).tli = x.tli ∧
        (u.ctx c).cfg = { x.cfg with wfbudget := x.cfg.wfbudget - 1 } ∧ ∃ stamp,
          (u.ctx c).installs = x.installs ++ [{ i with request := request, stamp := stamp }] ∧
          ∀ b, ∀ j ∈ (s.ctx b).installs, j.stamp < stamp)) ∧
    (let b := s.deviceWalk c x.cfg.wfmbox;
      b.leafAt c x.cfg.wfmbox = some l → x.live = true → x.cfg.wfmbox ≠ 0 → l.tier = 0 → x.accepted < 4 →
      b.isFull l.pa = true → b.wordMoving c x.cfg.wfmbox = false → exec (.installTakeMailbox c) s = .next (
        let v := b.directRead c l 8
        State.acceptInstall ((((v.1.setFull l.pa false).homeScan l.pa).markTagged c l)) c v.2 none)) ∧
    (Accepts q Context.live s → (t.ctx k).accepted < 4 → va < 2 ^ 52 →
      exec (.installWeights q) s = .next (t.acceptInstall k va (some (s.ringNumber, q.tag)))) ∧
    (x.installs = i :: rest → s.wordMoving c i.done = false →
      let region := i.dstPa / 0x200000 - Config.tierFBase / 0x200000
      let pe := SMap.get 0 s.dev.pe e.unit
      let v := s.modCtx c (fun x => { x with installs := rest })
      let p := v.modDev (fun d => d.program e.unit)
      let read := p.readSource c i.frames
      let fin (u : State) (code : Nat) : State := u.endInstall c pe code i.src i.dst i.done i.request
      let fail (code : Nat) : State := fin (read.2.modDev (fun d => d.eraseIdle e.unit)) code
      (∀ code, i.code = some code →
        exec (.installComplete c e) s = .next (v.endInstall c 0 code i.src i.dst i.done i.request)) ∧
      (i.code = none → i.frames = [] →
        exec (.installComplete c e) s = .next ((s.modCtx c (fun x =>
          { x with installs := rest, cfg := { x.cfg with wfbudget := x.cfg.wfbudget + 1 } })).endInstall c 0 6 i.src i.dst i.done
            i.request)) ∧
      (i.code = none → i.frames ≠ [] → (s.targetInUse i.dstPa || s.installBefore c i) = true →
        exec (.installComplete c e) s = .next (s.later (.installComplete c e))) ∧
      (i.code = none → s.dev.takesSlot region e.unit = true → i.frames ≠ [] →
        (s.targetInUse i.dstPa || s.installBefore c i) = false →
        (e.poisoned = true ∨ read.1 = true → exec (.installComplete c e) s = .next (fail 5)) ∧
        (e.poisoned = false → read.1 = false → e.powerFault = true → exec (.installComplete c e) s = .next (fail 4)) ∧
        (e.poisoned = false → read.1 = false → e.powerFault = false → e.verified = false → pe < 4500 →
          exec (.installComplete c e) s = .next (fail 3)) ∧
        (e.poisoned = false → read.1 = false → e.powerFault = false → e.verified = false → 4500 ≤ pe →
          exec (.installComplete c e) s = .next (fin (read.2.modDev (fun d => d.retireUnit e.unit)) 2)) ∧
        (s.codeLines i.frames = [] → e.poisoned = false → e.powerFault = false → e.verified = true →
          ∃ u, exec (.installComplete c e) s = .next u ∧ (u.ctx c).tli = x.tli + 1 ∧
            SMap.find? u.dev.regionUnit region = some e.unit ∧
            (memoryOk s → s.fitted i.dstPa = true → i.done = 0 → i.image = s.framesImage 0 i.frames → x.lostReads = 0 →
              (i.frames.map (·.2)).sum = 0x200000 →
              (∀ a, (a < i.dstPa ∨ i.dstPa + 0x200000 ≤ a) → u.byte a = s.byte a) ∧
              ∀ l1 l2 f n j, i.frames = l1 ++ (f, n) :: l2 → j < n →
                u.byte (i.dstPa + (l1.map (·.2)).sum + j) = s.byte (f + j)))))

/-! ## The device -/

/-- R188, R189, R377, R378, R382, R383, R385, R387, R389 (derived): the requests of device management: a domain of members that the chip
reaches is registered and withdrawn; a read writes its item; a power state and a cap in range are set, and a cap of 0 leaves the cap of
state 1; an attestation writes its report, on no context or on one that is live; a record whose format, signature, binding,
version and range pass completes with status 0 and replaces the item of its id, and no other; one that fails a check completes with that
check's status and is not stored. A request with a reserved bit set completes with status 1 and changes nothing else. The inventory's
layout, the keys and the device's own signature are not given: free values (logs 6, 90); what a withdrawal of no registered domain answers,
the result of a read, the place of a report and the order of a record's checks are the model's choice (logs 82, 83, 84, 85). -/
def Obligations.ManagementResults : Prop :=
  ∀ (s : State) (q : Request) (l : List (Word × Nat)),
    let t := taken s
    let f := takenFor q s
    let k := q.ctx.toNat
    let d := (q.word 1).toNat
    let sel := d
    let p := q.word 1
    let who := (q.word 2).toNat
    let cap := field p 32 16
    let report (u : State) : List Byte := u.report (bytesOf (u.hostRead p 64) 64) who
    let attested (u : State) : State :=
      State.hostBytes { u with fresh := u.fresh + 1 } p.toNat
        (report u ++ deviceSignature u.fresh (sha3 (report u)) ++ Config.certificate)
    let h := Config.headerOf (BitVec.ofNat 512 (t.hostRead p 64))
    let bytes (off n : Nat) : List Byte := bytesOf (t.hostRead (p + BitVec.ofNat 64 off) n) n
    let payload := bytes 64 h.length
    let digest := sha3 (bytes 0 (64 + h.length))
    let signature := bytes (64 + h.length) Config.signatureBytes
    let key := if h.id = 1 then Config.vendorKey else t.dev.settings.operatorKey
    (q.rsv ≠ 0 → ∀ i ∈ ([(0x0C, .registerDomain q), (0x0D, .withdrawDomain q), (0x0F, .hostRead q), (0x11, .power q),
        (0x12, .attest q), (0x13, .installRecord q)] : List (Nat × Instr)),
      exec i.2 s = .next (answered s i.1 q 1 0 t)) ∧
    (Accepts q Context.live s → f.memberList (q.word 2) = some l → d ≠ 0 → d < 2 ^ 16 →
      l.filter (fun p => p.1 = f.dev.serial) = [(f.dev.serial, k)] → (l.map (·.1)).eraseDups = l.map (·.1) →
      (l.map (·.1)).any (fun x => x ≠ f.dev.serial && !f.dev.chips.any (fun p => p.1 = x && !p.2.isEmpty)) = false →
      (f.ctx k).domains.any (fun x => x.id.toNat = d) = false →
      exec (.registerDomain q) s = .next (answered s 0x0C q 0 0
        (f.modCtx k (fun x => { x with domains := x.domains ++ [{ id := BitVec.ofNat 16 d, members := l }] })))) ∧
    (Accepts q Context.live s → d ≠ 0 → d < 2 ^ 16 → exec (.withdrawDomain q) s = .next (answered s 0x0D q 0 0
      (f.modCtx k (fun x => { x with domains := x.domains.filter (fun y => y.id.toNat ≠ d) })))) ∧
    (Accepts q Context.live s → 1 ≤ sel → sel ≤ 4 →
      exec (.hostRead q) s = .next (answered s 0x0F q 0 0 (f.writeItem k sel who))) ∧
    (q.rsv = 0 → 5 ≤ sel → sel ≤ 8 →
      exec (.hostRead q) s = .next (answered s 0x0F q 0 0 (t.writeItem k sel who))) ∧
    (q.rsv = 0 → anySet p [(48, 16), (2, 30)] = false → field p 0 2 = 0 → cap = 0 ∨ (1200 ≤ cap ∧ cap ≤ t.dev.settings.powerCap) →
      exec (.power q) s = .next (answered s 0x11 q 0 0 (t.modDev (fun d => { d with power := .active, cap := d.settings.powerCap })))) ∧
    (q.rsv = 0 → anySet p [(48, 16), (2, 30)] = false → field p 0 2 = 1 → cap = 0 ∨ (1200 ≤ cap ∧ cap ≤ t.dev.settings.powerCap) →
      exec (.power q) s = .next (answered s 0x11 q 0 0
        (t.modDev (fun d => { d with power := .capped, cap := if cap = 0 then d.cap else cap })))) ∧
    (q.rsv = 0 → anySet p [(48, 16), (2, 30)] = true ∨ 2 ≤ field p 0 2 ∨ (0 < cap ∧ cap < 1200) ∨ t.dev.settings.powerCap < cap →
      exec (.power q) s = .next (answered s 0x11 q 1 0 t)) ∧
    (q.rsv = 0 → who = 0xFF → exec (.attest q) s = .next (answered s 0x12 q 0 0 (attested t))) ∧
    (q.rsv = 0 → who < Config.nContexts → (t.ctx who).live = true →
      exec (.attest q) s = .next (answered s 0x12 q 0 0 (attested (t.ungateContext who)))) ∧
    (let whole : Prop := h.magic = 0x52434B56 ∧ h.length ≤ 3072 ∧ recordIds.contains h.id = true
      let valid : Prop := (h.id = 1 ∨ key ≠ []) ∧ signatureOk key digest signature = true ∧
        (h.binding = 0 ∨ h.binding = Config.deviceDigest)
      let newer : Prop := ∀ x, SMap.find? t.dev.store h.id = some x → x.version < h.version
      let done (st : Nat) (u : State) : Prop := exec (.installRecord q) s = .next (answered s 0x13 q st 0 u)
      q.rsv = 0 →
      (¬ whole → done 1 t) ∧ (whole → ¬ valid → done 5 t) ∧ (whole → valid → ¬ newer → done 6 t) ∧
      (whole → valid → newer → payloadOk t.dev.module h.id payload = false → done 1 t) ∧
      (whole → valid → newer → payloadOk t.dev.module h.id payload = true → done 0 (t.modDev (fun d => { d with
        store := SMap.put d.store h.id { version := h.version, payload := payload, digest := digest, signature := signature } }))))

/-- R6, R84, R346, R352, R376, R377, R384, R385, R389 (derived): a host access through BAR 2 or BAR 4 is performed at memory, where what
was written reads back; a register of BAR 0 whose place the manual gives is read there and keeps what is written, but for `rqhead` and,
while requests are left, `rqbase`, `rqsize` and `cqbase`; boot runs an image whose key has the digest of the vendor key and whose signature
verifies, or leaves the device in recovery where no slot holds one; it trains the links, takes for peers those with which a port has
trained and sets `devready`, and logs the installs that a loss of power cut off; a device reset leaves tier S zero and empty and every
context free; a loss of power does so for tier D too; D3hot is entered once every context is swapped out, else refused with status 2, and
not from recovery; an expander that leaves takes its range and is logged. What tiers D, F, P and H hold at reset is log 7, that a register
of a ring keeps any value written to it log 81, that links train at a boot without findings log 86, and which tiers keep their contents log
87. -/
def Obligations.DeviceResults : Prop :=
  ∀ (s : State) (a : BarAccess) (pa off ring tail base : Nat) (w v : Word) (l : List Byte) (b : BootFindings),
    let gone (t : State) : Prop := (∀ c, t.ctx c = {}) ∧ (∀ n, t.ring n = {}) ∧ t.full = [] ∧ t.dev.ready = false ∧
      (∀ l, (t.link l).st = .down) ∧ t.dev.store = s.dev.store
    let at' := 0x1000 + 0x40 * ring + off
    let out := ∀ c ∈ s.ctxs, c.2.st = .free ∨ c.2.st = .swappedOut
    (s.dev.power ≠ .recovery → a.bar ≠ .bar0 → s.windowAddress a = some pa → a.data = some l →
      exec (.hostBarAccess a) s = .next (s.hostWrite pa (l.take a.len)) ∧
      (Quiet s → s.held = [] → l.length = a.len → (∀ i, i < a.len → s.takesWrite (pa + i) = true) → ∀ x,
        (s.hostWrite pa l).byte x = if pa ≤ x ∧ x < pa + a.len then nth 0 l (x - pa) else s.byte x)) ∧
    (s.dev.power ≠ .recovery → a.bar ≠ .bar0 → s.windowAddress a = some pa → a.data = none →
      exec (.hostBarAccess a) s =
        .next ((s.hostFetch pa a.len).1.modDev (fun d => { d with barData := (s.hostFetch pa a.len).2 })) ∧
      (Quiet s → (∀ i, i < a.len → s.givesRead (pa + i) = true) →
        (s.hostFetch pa a.len).2 = (List.range a.len).map (fun i => s.byte (pa + i)))) ∧
    (s.dev.power ≠ .recovery → s.readRegister off = some v → off % 8 = 0 → off + 8 ≤ 2 ^ 20 →
      exec (.hostBarAccess { bar := .bar0, off := off, len := 8, data := none }) s =
        .next (s.modDev (fun d => { d with barData := bytesOf v.toNat 8 })) ∧
      exec (.hostBarAccess { bar := .bar0, off := off, len := 8, data := some (bytesOf w.toNat 8) }) s =
        .next (s.writeRegister off w)) ∧
    s.readRegister 0x08 = some (if s.dev.ready then 1 else 0) ∧
    (s.writeRegister 0x10 w).readRegister 0x10 = some (BitVec.ofNat 64 (field w 32 22 * 2 ^ 32)) ∧
    (ring < 16 → let x := s.ring ring; let r := (s.writeRegister at' w).readRegister at'
      (off = 0x10 ∨ off = 0x28 → r = some w) ∧
      (off = 0x18 → r = some x.rqhead ∧ s.readRegister at' = some x.rqhead) ∧
      (off = 0x00 ∨ off = 0x08 ∨ off = 0x20 →
        (x.rqhead = x.rqtail → r = some w) ∧ (x.rqhead ≠ x.rqtail → r = s.readRegister at'))) ∧
    (s.dev.power ≠ .recovery → exec (.deviceRegisterWrite off w) s = .next (s.writeRegister off w)) ∧
    (s.dev.power ≠ .recovery → ring < 16 → exec (.rqtailDoorbell ring tail) s =
      .next (s.setRing ring { s.ring ring with rqtail := BitVec.ofNat 64 tail })) ∧
    (s.dev.ready = true → exec (.boot b) s = .next s) ∧
    (∀ x, s.dev.ready = false → bootImage b = some x → ∃ t, exec (.boot b) s = .next t ∧ t.dev.ready = true ∧
      (x ∈ b.slots ∧ sha3 x.key = sha3 Config.vendorKey ∧ signatureOk x.key (sha3 x.image) x.signature = true) ∧
      t.dev.serial = b.serial ∧ t.dev.firmware = x.version ∧ t.dev.image = sha3 x.image ∧ t.dev.interrupted = [] ∧
      (∀ p ∈ t.dev.peers, p ∈ b.peers ∧ (t.link ⟨.jecen, p.1⟩).st.carries = true) ∧
      (∀ i ∈ t.dev.optics, i ∈ b.optics ∨ i ∈ b.peers.map (·.1)) ∧
      (∀ i ∈ t.dev.channels, i ∈ b.channels ∧ i < 128) ∧ (∀ i ∈ t.dev.flashStacks, i ∈ b.flashStacks ∧ i < 8) ∧
      (b.training = [] → t.mem = s.mem ∧
        ∀ l ∈ allLinks, l.kind ≠ .jecen → (s.link l).st = .down → (t.link l).st = .up) ∧
      (s.dev.store = [] → b.training = [] → s.dev.log = [] → ∀ c x, s.dev.interrupted = [(c, x)] →
        t.dev.log = [{ clk := s.clk, code := .install 4, ctx := some c, place := x }])) ∧
    (s.dev.ready = false → (∀ x ∈ b.slots, imagePasses x = false) →
      exec (.boot b) s = .next (s.modDev (fun d => { d with power := .recovery }))) ∧
    (∃ t, exec .deviceReset s = .next t ∧ gone t ∧ (∀ pa, tierOf pa = some 0 → t.byte pa = 0) ∧
      (∀ pa, tierOf pa ≠ some 0 → t.byte pa = s.byte pa)) ∧
    (∃ t, exec .powerLoss s = .next t ∧ gone t ∧ (∀ pa, tierOf pa = some 0 ∨ tierOf pa = some 1 → t.byte pa = 0) ∧
      (∀ pa, tierOf pa ≠ some 0 → tierOf pa ≠ some 1 → t.byte pa = s.byte pa) ∧
      (∀ p ∈ s.ctxs, ∀ i ∈ p.2.installs, i.code = none → (p.1, i.dstPa) ∈ t.dev.interrupted)) ∧
    (s.dev.power = .recovery → exec .d3hotTransition s = .next s) ∧
    (s.dev.power ≠ .recovery → out → exec .d3hotTransition s = .next (s.modDev (fun d => { d with power := .d3hot, pmStatus := 0 }))) ∧
    (s.dev.power ≠ .recovery → ¬ out → exec .d3hotTransition s = .next (s.modDev (fun d => { d with pmStatus := 2 }))) ∧
    (s.dev.expanders.any (fun e => e.1 = base) = true → ∃ t, exec (.cxlExpanderRemoval base) s = .next t ∧
      t.dev.expanders = s.dev.expanders.filter (fun e => e.1 ≠ base) ∧
      { clk := s.clk, code := .expanderLost, ctx := none, place := base } ∈ t.dev.log)

/-- R89, R91, R204 (derived): the scrubber reads the eight lines of a row as an access would (for whom is the model's choice, log 95); a
rebuild goes row by row through its bank and ends with the spare in its place; an idle tile is gated and an event for it ungates it (when
is the model's choice, log 88; that a rebuild clears the times of the bank's corrections is log 89). -/
def Obligations.UpkeepResults : Prop :=
  ∀ (s : State) (tile layer row bank r : Nat),
    let rows (x : State) (l : List Nat) : State := l.foldl (fun (x : State) n => x.touch none n) x
    (tile < Config.nTiles → layer < 4 → row < 16384 →
      exec (.patrolScrub tile layer row) s = .next (rows s (rowLines tile layer row))) ∧
    ((s.bank bank).rebuild = some r → r < 16384 → ∃ t, exec (.rebuildStep bank) s = .next t ∧
      (t.bank bank).rebuild = some (r + 1)) ∧
    ((s.bank bank).rebuild = some r → 16384 ≤ r → exec (.rebuildComplete bank) s =
      .next (s.setBank bank { s.bank bank with erased := false, rebuild := none, times := [] })) ∧
    (tile < Config.nTiles → s.dev.settings.gate ≠ 0 → s.tileIdle tile = true →
      exec (.tileGate tile) s = .next (s.setTile tile { s.tile tile with gated := true })) ∧
    exec (.tileUngate tile) s = .next (s.ungate tile)

end Statements
end

