-- ==== Sys2Proof/Laws/Maps.lean ====
section
/-! SUPPORT. Laws of maps: reading after writing, and the canonical form. -/

namespace Sys2Proof.Machine

section Reads
variable {α : Type}

theorem SMap.find?_put_self (m : SMap α) (k : Nat) (v : α) : SMap.find? (SMap.put m k v) k = some v := by
  induction m with
  | nil => simp [SMap.put, SMap.find?]
  | cons p r ih =>
    obtain ⟨k', v'⟩ := p
    by_cases h1 : k < k'
    · simp [SMap.put, SMap.find?, h1]
    · by_cases h2 : k = k'
      · simp [SMap.put, SMap.find?, h2]
      · simp [SMap.put, SMap.find?, h1, h2, Ne.symm h2, ih]

theorem SMap.find?_put_other (m : SMap α) (k j : Nat) (v : α) (h : j ≠ k) :
    SMap.find? (SMap.put m k v) j = SMap.find? m j := by
  induction m with
  | nil => simp [SMap.put, SMap.find?, Ne.symm h]
  | cons p r ih =>
    obtain ⟨k', v'⟩ := p
    by_cases h1 : k < k'
    · simp [SMap.put, SMap.find?, h1, Ne.symm h]
    · by_cases h2 : k = k'
      · subst h2; simp [SMap.put, SMap.find?, Ne.symm h]
      · simp only [SMap.put, h1, h2, if_false, SMap.find?, ih]

theorem SMap.find?_put (m : SMap α) (k j : Nat) (v : α) :
    SMap.find? (SMap.put m k v) j = if j = k then some v else SMap.find? m j := by
  by_cases h : j = k
  · subst h; simp [SMap.find?_put_self]
  · simp [h, SMap.find?_put_other m k j v h]

theorem SMap.find?_filter_ne (m : SMap α) (k j : Nat) :
    SMap.find? (SMap.del m k) j = if j = k then none else SMap.find? m j := by
  unfold SMap.del
  induction m with
  | nil => simp [SMap.find?]
  | cons p r ih =>
    obtain ⟨k', v'⟩ := p
    by_cases h : k' = k
    · subst h
      rw [List.filter_cons_of_neg (by simp), ih]
      by_cases hj : j = k'
      · simp [hj]
      · simp [hj, SMap.find?, Ne.symm hj]
    · rw [List.filter_cons_of_pos (by simpa using h)]
      simp only [SMap.find?, ih]
      by_cases hj : k' = j
      · subst hj; simp [h]
      · simp [hj]

theorem SMap.get_put (d : α) (m : SMap α) (k j : Nat) (v : α) :
    SMap.get d (SMap.put m k v) j = if j = k then v else SMap.get d m j := by
  unfold SMap.get; rw [SMap.find?_put]; split <;> rfl

@[simp] theorem SMap.get_put_self (d : α) (m : SMap α) (k : Nat) (v : α) : SMap.get d (SMap.put m k v) k = v := by
  simp [SMap.get_put]

theorem SMap.get_put_other (d : α) (m : SMap α) (k j : Nat) (v : α) (h : j ≠ k) :
    SMap.get d (SMap.put m k v) j = SMap.get d m j := by simp [SMap.get_put, h]

theorem SMap.get_set [DecidableEq α] (d : α) (m : SMap α) (k j : Nat) (v : α) :
    SMap.get d (SMap.set d m k v) j = if j = k then v else SMap.get d m j := by
  unfold SMap.set
  split
  · rename_i h; subst h; unfold SMap.get; rw [SMap.find?_filter_ne]; split <;> rfl
  · exact SMap.get_put d m k j v

@[simp] theorem SMap.get_set_self [DecidableEq α] (d : α) (m : SMap α) (k : Nat) (v : α) :
    SMap.get d (SMap.set d m k v) k = v := by simp [SMap.get_set]

theorem SMap.get_set_other [DecidableEq α] (d : α) (m : SMap α) (k j : Nat) (v : α) (h : j ≠ k) :
    SMap.get d (SMap.set d m k v) j = SMap.get d m j := by simp [SMap.get_set, h]

/-- The later of two writes to one key is the one that is listed. -/
@[simp] theorem SMap.put_put (m : SMap α) (k : Nat) (v w : α) : SMap.put (SMap.put m k v) k w = SMap.put m k w := by
  induction m with
  | nil => simp [SMap.put]
  | cons p r ih =>
    obtain ⟨k', v'⟩ := p
    by_cases h1 : k < k'
    · simp [SMap.put, h1]
    · by_cases h2 : k = k'
      · subst h2; simp [SMap.put]
      · simp [SMap.put, h1, h2, ih]

/-- A filter that only looks at keys keeps or drops each key whole. -/
theorem SMap.find?_filter_key (m : SMap α) (f : Nat → Bool) (k : Nat) :
    SMap.find? (m.filter (fun p => f p.1)) k = if f k then SMap.find? m k else none := by
  induction m with
  | nil => simp [SMap.find?]
  | cons p r ih =>
    obtain ⟨k', v'⟩ := p
    by_cases hf : f k'
    · rw [List.filter_cons_of_pos (by simpa using hf)]
      simp only [SMap.find?, ih]
      by_cases hk : k' = k
      · subst hk; simp [hf]
      · simp [hk]
    · rw [List.filter_cons_of_neg (by simpa using hf), ih]
      simp only [SMap.find?]
      by_cases hk : k' = k
      · subst hk; simp [hf]
      · simp [hk]

theorem SMap.get_filter_key (d : α) (m : SMap α) (f : Nat → Bool) (k : Nat) :
    SMap.get d (m.filter (fun p => f p.1)) k = if f k then SMap.get d m k else d := by
  unfold SMap.get; rw [SMap.find?_filter_key]; split <;> rfl

@[simp] theorem SMap.get_nil (d : α) (k : Nat) : SMap.get d ([] : SMap α) k = d := rfl

end Reads

/-! ## The canonical form -/

section Canonical
variable {α : Type}

/-- Every key of a sorted map is above the one before it. -/
theorem SMap.sorted_iff (m : SMap α) : SMap.sorted m = true ↔ m.Pairwise (fun a b => a.1 < b.1) := by
  induction m with
  | nil => simp [SMap.sorted]
  | cons p r ih =>
    obtain ⟨k, v⟩ := p
    cases r with
    | nil => simp [SMap.sorted]
    | cons q r =>
      obtain ⟨k', v'⟩ := q
      simp only [SMap.sorted, Bool.and_eq_true, decide_eq_true_eq, ih, List.pairwise_cons, List.mem_cons,
        forall_eq_or_imp]
      constructor
      · rintro ⟨h, h1, h2⟩; exact ⟨⟨h, fun a ha => Nat.lt_trans h (h1 a ha)⟩, h1, h2⟩
      · rintro ⟨⟨h, _⟩, h1, h2⟩; exact ⟨h, h1, h2⟩

theorem SMap.mem_put {m : SMap α} {k : Nat} {v : α} {p : Nat × α} (h : p ∈ SMap.put m k v) : p = (k, v) ∨ p ∈ m := by
  induction m with
  | nil => simpa [SMap.put] using h
  | cons q r ih =>
    obtain ⟨k', v'⟩ := q
    unfold SMap.put at h
    split at h
    · simpa using h
    · split at h
      · rcases List.mem_cons.1 h with h | h
        · exact .inl h
        · exact .inr (List.mem_cons_of_mem _ h)
      · rcases List.mem_cons.1 h with h | h
        · exact .inr (by simp [h])
        · exact (ih h).imp id (List.mem_cons_of_mem _)

theorem SMap.sorted_put (m : SMap α) (k : Nat) (v : α) (h : SMap.sorted m = true) :
    SMap.sorted (SMap.put m k v) = true := by
  rw [SMap.sorted_iff] at *
  induction m with
  | nil => simp [SMap.put]
  | cons q r ih =>
    obtain ⟨k', v'⟩ := q
    obtain ⟨h1, h2⟩ := List.pairwise_cons.1 h
    unfold SMap.put
    split
    · rename_i hk
      refine List.pairwise_cons.2 ⟨fun p hp => ?_, h⟩
      rcases List.mem_cons.1 hp with hp | hp
      · simp [hp, hk]
      · exact Nat.lt_trans hk (h1 p hp)
    · split
      · rename_i hk; subst hk; exact List.pairwise_cons.2 ⟨h1, h2⟩
      · refine List.pairwise_cons.2 ⟨fun p hp => ?_, ih h2⟩
        rcases SMap.mem_put hp with hp | hp
        · subst hp; show k' < k; omega
        · exact h1 p hp

theorem SMap.sorted_filter (m : SMap α) (f : Nat × α → Bool) (h : SMap.sorted m = true) :
    SMap.sorted (m.filter f) = true := by
  rw [SMap.sorted_iff] at *; exact h.filter f

variable [DecidableEq α]

theorem SMap.wf_filter (d : α) (m : SMap α) (f : Nat × α → Bool) (h : SMap.wf d m = true) :
    SMap.wf d (m.filter f) = true := by
  unfold SMap.wf at *
  rw [Bool.and_eq_true] at *
  refine ⟨SMap.sorted_filter m f h.1, ?_⟩
  have h2 := List.all_eq_true.1 h.2
  exact List.all_eq_true.2 fun p hp => h2 p (List.mem_of_mem_filter hp)

/-- A write keeps the canonical form. -/
theorem SMap.wf_set (d : α) (m : SMap α) (k : Nat) (v : α) (h : SMap.wf d m = true) :
    SMap.wf d (SMap.set d m k v) = true := by
  unfold SMap.set
  split
  · exact SMap.wf_filter d m _ h
  · rename_i hv
    unfold SMap.wf at *
    rw [Bool.and_eq_true] at *
    refine ⟨SMap.sorted_put m k v h.1, List.all_eq_true.2 fun p hp => ?_⟩
    rcases SMap.mem_put hp with hp | hp
    · simp [hp, hv]
    · exact List.all_eq_true.1 h.2 p hp

end Canonical

end Sys2Proof.Machine
end

