-- ==== Sys2Proof/Laws/State.lean ====
section
/-! SUPPORT. Laws of the state: what each update leaves alone, and reading after writing. -/

namespace Sys2Proof.Machine

/-! ### `setTile` -/

@[simp] theorem State.setTile_cur (s : State) (t : Nat) (x : Tile) : (s.setTile t x).cur = s.cur := rfl
@[simp] theorem State.setTile_agenda (s : State) (t : Nat) (x : Tile) : (s.setTile t x).agenda = s.agenda := rfl
@[simp] theorem State.setTile_pick (s : State) (t : Nat) (x : Tile) : (s.setTile t x).pick = s.pick := rfl
@[simp] theorem State.setTile_fresh (s : State) (t : Nat) (x : Tile) : (s.setTile t x).fresh = s.fresh := rfl
@[simp] theorem State.setTile_clk (s : State) (t : Nat) (x : Tile) : (s.setTile t x).clk = s.clk := rfl
@[simp] theorem State.setTile_mem (s : State) (t : Nat) (x : Tile) : (s.setTile t x).mem = s.mem := rfl
@[simp] theorem State.setTile_full (s : State) (t : Nat) (x : Tile) : (s.setTile t x).full = s.full := rfl
@[simp] theorem State.setTile_flips (s : State) (t : Nat) (x : Tile) : (s.setTile t x).flips = s.flips := rfl
@[simp] theorem State.setTile_banks (s : State) (t : Nat) (x : Tile) : (s.setTile t x).banks = s.banks := rfl
@[simp] theorem State.setTile_spares (s : State) (t : Nat) (x : Tile) : (s.setTile t x).spares = s.spares := rfl
@[simp] theorem State.setTile_held (s : State) (t : Nat) (x : Tile) : (s.setTile t x).held = s.held := rfl
@[simp] theorem State.setTile_watches (s : State) (t : Nat) (x : Tile) : (s.setTile t x).watches = s.watches := rfl
@[simp] theorem State.setTile_anvils (s : State) (t : Nat) (x : Tile) : (s.setTile t x).anvils = s.anvils := rfl
@[simp] theorem State.setTile_ctxs (s : State) (t : Nat) (x : Tile) : (s.setTile t x).ctxs = s.ctxs := rfl
@[simp] theorem State.setTile_links (s : State) (t : Nat) (x : Tile) : (s.setTile t x).links = s.links := rfl
@[simp] theorem State.setTile_routes (s : State) (t : Nat) (x : Tile) : (s.setTile t x).routes = s.routes := rfl
@[simp] theorem State.setTile_elevators (s : State) (t : Nat) (x : Tile) : (s.setTile t x).elevators = s.elevators := rfl
@[simp] theorem State.setTile_kept (s : State) (t : Nat) (x : Tile) : (s.setTile t x).kept = s.kept := rfl
@[simp] theorem State.setTile_stalled (s : State) (t : Nat) (x : Tile) : (s.setTile t x).stalled = s.stalled := rfl
@[simp] theorem State.setTile_resend (s : State) (t : Nat) (x : Tile) : (s.setTile t x).resend = s.resend := rfl
@[simp] theorem State.setTile_delivered (s : State) (t : Nat) (x : Tile) : (s.setTile t x).delivered = s.delivered := rfl
@[simp] theorem State.setTile_sent (s : State) (t : Nat) (x : Tile) : (s.setTile t x).sent = s.sent := rfl
@[simp] theorem State.setTile_heldPuts (s : State) (t : Nat) (x : Tile) : (s.setTile t x).heldPuts = s.heldPuts := rfl
@[simp] theorem State.setTile_putWords (s : State) (t : Nat) (x : Tile) : (s.setTile t x).putWords = s.putWords := rfl
@[simp] theorem State.setTile_getWords (s : State) (t : Nat) (x : Tile) : (s.setTile t x).getWords = s.getWords := rfl
@[simp] theorem State.setTile_rings (s : State) (t : Nat) (x : Tile) : (s.setTile t x).rings = s.rings := rfl
@[simp] theorem State.setTile_dev (s : State) (t : Nat) (x : Tile) : (s.setTile t x).dev = s.dev := rfl

/-! ### `setTc` -/

@[simp] theorem State.setTc_cur (s : State) (t : Nat) (x : TileCtx) : (s.setTc t x).cur = s.cur := rfl
@[simp] theorem State.setTc_agenda (s : State) (t : Nat) (x : TileCtx) : (s.setTc t x).agenda = s.agenda := rfl
@[simp] theorem State.setTc_pick (s : State) (t : Nat) (x : TileCtx) : (s.setTc t x).pick = s.pick := rfl
@[simp] theorem State.setTc_fresh (s : State) (t : Nat) (x : TileCtx) : (s.setTc t x).fresh = s.fresh := rfl
@[simp] theorem State.setTc_clk (s : State) (t : Nat) (x : TileCtx) : (s.setTc t x).clk = s.clk := rfl
@[simp] theorem State.setTc_mem (s : State) (t : Nat) (x : TileCtx) : (s.setTc t x).mem = s.mem := rfl
@[simp] theorem State.setTc_full (s : State) (t : Nat) (x : TileCtx) : (s.setTc t x).full = s.full := rfl
@[simp] theorem State.setTc_flips (s : State) (t : Nat) (x : TileCtx) : (s.setTc t x).flips = s.flips := rfl
@[simp] theorem State.setTc_banks (s : State) (t : Nat) (x : TileCtx) : (s.setTc t x).banks = s.banks := rfl
@[simp] theorem State.setTc_spares (s : State) (t : Nat) (x : TileCtx) : (s.setTc t x).spares = s.spares := rfl
@[simp] theorem State.setTc_held (s : State) (t : Nat) (x : TileCtx) : (s.setTc t x).held = s.held := rfl
@[simp] theorem State.setTc_watches (s : State) (t : Nat) (x : TileCtx) : (s.setTc t x).watches = s.watches := rfl
@[simp] theorem State.setTc_anvils (s : State) (t : Nat) (x : TileCtx) : (s.setTc t x).anvils = s.anvils := rfl
@[simp] theorem State.setTc_ctxs (s : State) (t : Nat) (x : TileCtx) : (s.setTc t x).ctxs = s.ctxs := rfl
@[simp] theorem State.setTc_links (s : State) (t : Nat) (x : TileCtx) : (s.setTc t x).links = s.links := rfl
@[simp] theorem State.setTc_routes (s : State) (t : Nat) (x : TileCtx) : (s.setTc t x).routes = s.routes := rfl
@[simp] theorem State.setTc_elevators (s : State) (t : Nat) (x : TileCtx) : (s.setTc t x).elevators = s.elevators := rfl
@[simp] theorem State.setTc_kept (s : State) (t : Nat) (x : TileCtx) : (s.setTc t x).kept = s.kept := rfl
@[simp] theorem State.setTc_stalled (s : State) (t : Nat) (x : TileCtx) : (s.setTc t x).stalled = s.stalled := rfl
@[simp] theorem State.setTc_resend (s : State) (t : Nat) (x : TileCtx) : (s.setTc t x).resend = s.resend := rfl
@[simp] theorem State.setTc_delivered (s : State) (t : Nat) (x : TileCtx) : (s.setTc t x).delivered = s.delivered := rfl
@[simp] theorem State.setTc_sent (s : State) (t : Nat) (x : TileCtx) : (s.setTc t x).sent = s.sent := rfl
@[simp] theorem State.setTc_heldPuts (s : State) (t : Nat) (x : TileCtx) : (s.setTc t x).heldPuts = s.heldPuts := rfl
@[simp] theorem State.setTc_putWords (s : State) (t : Nat) (x : TileCtx) : (s.setTc t x).putWords = s.putWords := rfl
@[simp] theorem State.setTc_getWords (s : State) (t : Nat) (x : TileCtx) : (s.setTc t x).getWords = s.getWords := rfl
@[simp] theorem State.setTc_rings (s : State) (t : Nat) (x : TileCtx) : (s.setTc t x).rings = s.rings := rfl
@[simp] theorem State.setTc_dev (s : State) (t : Nat) (x : TileCtx) : (s.setTc t x).dev = s.dev := rfl

/-! ### `modTc` -/

@[simp] theorem State.modTc_cur (s : State) (t : Nat) (f : TileCtx → TileCtx) : (s.modTc t f).cur = s.cur := rfl
@[simp] theorem State.modTc_agenda (s : State) (t : Nat) (f : TileCtx → TileCtx) : (s.modTc t f).agenda = s.agenda := rfl
@[simp] theorem State.modTc_pick (s : State) (t : Nat) (f : TileCtx → TileCtx) : (s.modTc t f).pick = s.pick := rfl
@[simp] theorem State.modTc_fresh (s : State) (t : Nat) (f : TileCtx → TileCtx) : (s.modTc t f).fresh = s.fresh := rfl
@[simp] theorem State.modTc_clk (s : State) (t : Nat) (f : TileCtx → TileCtx) : (s.modTc t f).clk = s.clk := rfl
@[simp] theorem State.modTc_mem (s : State) (t : Nat) (f : TileCtx → TileCtx) : (s.modTc t f).mem = s.mem := rfl
@[simp] theorem State.modTc_full (s : State) (t : Nat) (f : TileCtx → TileCtx) : (s.modTc t f).full = s.full := rfl
@[simp] theorem State.modTc_flips (s : State) (t : Nat) (f : TileCtx → TileCtx) : (s.modTc t f).flips = s.flips := rfl
@[simp] theorem State.modTc_banks (s : State) (t : Nat) (f : TileCtx → TileCtx) : (s.modTc t f).banks = s.banks := rfl
@[simp] theorem State.modTc_spares (s : State) (t : Nat) (f : TileCtx → TileCtx) : (s.modTc t f).spares = s.spares := rfl
@[simp] theorem State.modTc_held (s : State) (t : Nat) (f : TileCtx → TileCtx) : (s.modTc t f).held = s.held := rfl
@[simp] theorem State.modTc_watches (s : State) (t : Nat) (f : TileCtx → TileCtx) : (s.modTc t f).watches = s.watches := rfl
@[simp] theorem State.modTc_anvils (s : State) (t : Nat) (f : TileCtx → TileCtx) : (s.modTc t f).anvils = s.anvils := rfl
@[simp] theorem State.modTc_ctxs (s : State) (t : Nat) (f : TileCtx → TileCtx) : (s.modTc t f).ctxs = s.ctxs := rfl
@[simp] theorem State.modTc_links (s : State) (t : Nat) (f : TileCtx → TileCtx) : (s.modTc t f).links = s.links := rfl
@[simp] theorem State.modTc_routes (s : State) (t : Nat) (f : TileCtx → TileCtx) : (s.modTc t f).routes = s.routes := rfl
@[simp] theorem State.modTc_elevators (s : State) (t : Nat) (f : TileCtx → TileCtx) : (s.modTc t f).elevators = s.elevators := rfl
@[simp] theorem State.modTc_kept (s : State) (t : Nat) (f : TileCtx → TileCtx) : (s.modTc t f).kept = s.kept := rfl
@[simp] theorem State.modTc_stalled (s : State) (t : Nat) (f : TileCtx → TileCtx) : (s.modTc t f).stalled = s.stalled := rfl
@[simp] theorem State.modTc_resend (s : State) (t : Nat) (f : TileCtx → TileCtx) : (s.modTc t f).resend = s.resend := rfl
@[simp] theorem State.modTc_delivered (s : State) (t : Nat) (f : TileCtx → TileCtx) : (s.modTc t f).delivered = s.delivered := rfl
@[simp] theorem State.modTc_sent (s : State) (t : Nat) (f : TileCtx → TileCtx) : (s.modTc t f).sent = s.sent := rfl
@[simp] theorem State.modTc_heldPuts (s : State) (t : Nat) (f : TileCtx → TileCtx) : (s.modTc t f).heldPuts = s.heldPuts := rfl
@[simp] theorem State.modTc_putWords (s : State) (t : Nat) (f : TileCtx → TileCtx) : (s.modTc t f).putWords = s.putWords := rfl
@[simp] theorem State.modTc_getWords (s : State) (t : Nat) (f : TileCtx → TileCtx) : (s.modTc t f).getWords = s.getWords := rfl
@[simp] theorem State.modTc_rings (s : State) (t : Nat) (f : TileCtx → TileCtx) : (s.modTc t f).rings = s.rings := rfl
@[simp] theorem State.modTc_dev (s : State) (t : Nat) (f : TileCtx → TileCtx) : (s.modTc t f).dev = s.dev := rfl

/-! ### `setHart` -/

@[simp] theorem State.setHart_cur (s : State) (h : HartId) (x : Hart) : (s.setHart h x).cur = s.cur := rfl
@[simp] theorem State.setHart_agenda (s : State) (h : HartId) (x : Hart) : (s.setHart h x).agenda = s.agenda := rfl
@[simp] theorem State.setHart_pick (s : State) (h : HartId) (x : Hart) : (s.setHart h x).pick = s.pick := rfl
@[simp] theorem State.setHart_fresh (s : State) (h : HartId) (x : Hart) : (s.setHart h x).fresh = s.fresh := rfl
@[simp] theorem State.setHart_clk (s : State) (h : HartId) (x : Hart) : (s.setHart h x).clk = s.clk := rfl
@[simp] theorem State.setHart_mem (s : State) (h : HartId) (x : Hart) : (s.setHart h x).mem = s.mem := rfl
@[simp] theorem State.setHart_full (s : State) (h : HartId) (x : Hart) : (s.setHart h x).full = s.full := rfl
@[simp] theorem State.setHart_flips (s : State) (h : HartId) (x : Hart) : (s.setHart h x).flips = s.flips := rfl
@[simp] theorem State.setHart_banks (s : State) (h : HartId) (x : Hart) : (s.setHart h x).banks = s.banks := rfl
@[simp] theorem State.setHart_spares (s : State) (h : HartId) (x : Hart) : (s.setHart h x).spares = s.spares := rfl
@[simp] theorem State.setHart_held (s : State) (h : HartId) (x : Hart) : (s.setHart h x).held = s.held := rfl
@[simp] theorem State.setHart_watches (s : State) (h : HartId) (x : Hart) : (s.setHart h x).watches = s.watches := rfl
@[simp] theorem State.setHart_anvils (s : State) (h : HartId) (x : Hart) : (s.setHart h x).anvils = s.anvils := rfl
@[simp] theorem State.setHart_ctxs (s : State) (h : HartId) (x : Hart) : (s.setHart h x).ctxs = s.ctxs := rfl
@[simp] theorem State.setHart_links (s : State) (h : HartId) (x : Hart) : (s.setHart h x).links = s.links := rfl
@[simp] theorem State.setHart_routes (s : State) (h : HartId) (x : Hart) : (s.setHart h x).routes = s.routes := rfl
@[simp] theorem State.setHart_elevators (s : State) (h : HartId) (x : Hart) : (s.setHart h x).elevators = s.elevators := rfl
@[simp] theorem State.setHart_kept (s : State) (h : HartId) (x : Hart) : (s.setHart h x).kept = s.kept := rfl
@[simp] theorem State.setHart_stalled (s : State) (h : HartId) (x : Hart) : (s.setHart h x).stalled = s.stalled := rfl
@[simp] theorem State.setHart_resend (s : State) (h : HartId) (x : Hart) : (s.setHart h x).resend = s.resend := rfl
@[simp] theorem State.setHart_delivered (s : State) (h : HartId) (x : Hart) : (s.setHart h x).delivered = s.delivered := rfl
@[simp] theorem State.setHart_sent (s : State) (h : HartId) (x : Hart) : (s.setHart h x).sent = s.sent := rfl
@[simp] theorem State.setHart_heldPuts (s : State) (h : HartId) (x : Hart) : (s.setHart h x).heldPuts = s.heldPuts := rfl
@[simp] theorem State.setHart_putWords (s : State) (h : HartId) (x : Hart) : (s.setHart h x).putWords = s.putWords := rfl
@[simp] theorem State.setHart_getWords (s : State) (h : HartId) (x : Hart) : (s.setHart h x).getWords = s.getWords := rfl
@[simp] theorem State.setHart_rings (s : State) (h : HartId) (x : Hart) : (s.setHart h x).rings = s.rings := rfl
@[simp] theorem State.setHart_dev (s : State) (h : HartId) (x : Hart) : (s.setHart h x).dev = s.dev := rfl

/-! ### `modHart` -/

@[simp] theorem State.modHart_cur (s : State) (h : HartId) (f : Hart → Hart) : (s.modHart h f).cur = s.cur := rfl
@[simp] theorem State.modHart_agenda (s : State) (h : HartId) (f : Hart → Hart) : (s.modHart h f).agenda = s.agenda := rfl
@[simp] theorem State.modHart_pick (s : State) (h : HartId) (f : Hart → Hart) : (s.modHart h f).pick = s.pick := rfl
@[simp] theorem State.modHart_fresh (s : State) (h : HartId) (f : Hart → Hart) : (s.modHart h f).fresh = s.fresh := rfl
@[simp] theorem State.modHart_clk (s : State) (h : HartId) (f : Hart → Hart) : (s.modHart h f).clk = s.clk := rfl
@[simp] theorem State.modHart_mem (s : State) (h : HartId) (f : Hart → Hart) : (s.modHart h f).mem = s.mem := rfl
@[simp] theorem State.modHart_full (s : State) (h : HartId) (f : Hart → Hart) : (s.modHart h f).full = s.full := rfl
@[simp] theorem State.modHart_flips (s : State) (h : HartId) (f : Hart → Hart) : (s.modHart h f).flips = s.flips := rfl
@[simp] theorem State.modHart_banks (s : State) (h : HartId) (f : Hart → Hart) : (s.modHart h f).banks = s.banks := rfl
@[simp] theorem State.modHart_spares (s : State) (h : HartId) (f : Hart → Hart) : (s.modHart h f).spares = s.spares := rfl
@[simp] theorem State.modHart_held (s : State) (h : HartId) (f : Hart → Hart) : (s.modHart h f).held = s.held := rfl
@[simp] theorem State.modHart_watches (s : State) (h : HartId) (f : Hart → Hart) : (s.modHart h f).watches = s.watches := rfl
@[simp] theorem State.modHart_anvils (s : State) (h : HartId) (f : Hart → Hart) : (s.modHart h f).anvils = s.anvils := rfl
@[simp] theorem State.modHart_ctxs (s : State) (h : HartId) (f : Hart → Hart) : (s.modHart h f).ctxs = s.ctxs := rfl
@[simp] theorem State.modHart_links (s : State) (h : HartId) (f : Hart → Hart) : (s.modHart h f).links = s.links := rfl
@[simp] theorem State.modHart_routes (s : State) (h : HartId) (f : Hart → Hart) : (s.modHart h f).routes = s.routes := rfl
@[simp] theorem State.modHart_elevators (s : State) (h : HartId) (f : Hart → Hart) : (s.modHart h f).elevators = s.elevators := rfl
@[simp] theorem State.modHart_kept (s : State) (h : HartId) (f : Hart → Hart) : (s.modHart h f).kept = s.kept := rfl
@[simp] theorem State.modHart_stalled (s : State) (h : HartId) (f : Hart → Hart) : (s.modHart h f).stalled = s.stalled := rfl
@[simp] theorem State.modHart_resend (s : State) (h : HartId) (f : Hart → Hart) : (s.modHart h f).resend = s.resend := rfl
@[simp] theorem State.modHart_delivered (s : State) (h : HartId) (f : Hart → Hart) : (s.modHart h f).delivered = s.delivered := rfl
@[simp] theorem State.modHart_sent (s : State) (h : HartId) (f : Hart → Hart) : (s.modHart h f).sent = s.sent := rfl
@[simp] theorem State.modHart_heldPuts (s : State) (h : HartId) (f : Hart → Hart) : (s.modHart h f).heldPuts = s.heldPuts := rfl
@[simp] theorem State.modHart_putWords (s : State) (h : HartId) (f : Hart → Hart) : (s.modHart h f).putWords = s.putWords := rfl
@[simp] theorem State.modHart_getWords (s : State) (h : HartId) (f : Hart → Hart) : (s.modHart h f).getWords = s.getWords := rfl
@[simp] theorem State.modHart_rings (s : State) (h : HartId) (f : Hart → Hart) : (s.modHart h f).rings = s.rings := rfl
@[simp] theorem State.modHart_dev (s : State) (h : HartId) (f : Hart → Hart) : (s.modHart h f).dev = s.dev := rfl

/-! ### `writeX` -/

@[simp] theorem State.writeX_cur (s : State) (h : HartId) (r : Reg) (v : Word) : (s.writeX h r v).cur = s.cur := rfl
@[simp] theorem State.writeX_agenda (s : State) (h : HartId) (r : Reg) (v : Word) : (s.writeX h r v).agenda = s.agenda := rfl
@[simp] theorem State.writeX_pick (s : State) (h : HartId) (r : Reg) (v : Word) : (s.writeX h r v).pick = s.pick := rfl
@[simp] theorem State.writeX_fresh (s : State) (h : HartId) (r : Reg) (v : Word) : (s.writeX h r v).fresh = s.fresh := rfl
@[simp] theorem State.writeX_clk (s : State) (h : HartId) (r : Reg) (v : Word) : (s.writeX h r v).clk = s.clk := rfl
@[simp] theorem State.writeX_mem (s : State) (h : HartId) (r : Reg) (v : Word) : (s.writeX h r v).mem = s.mem := rfl
@[simp] theorem State.writeX_full (s : State) (h : HartId) (r : Reg) (v : Word) : (s.writeX h r v).full = s.full := rfl
@[simp] theorem State.writeX_flips (s : State) (h : HartId) (r : Reg) (v : Word) : (s.writeX h r v).flips = s.flips := rfl
@[simp] theorem State.writeX_banks (s : State) (h : HartId) (r : Reg) (v : Word) : (s.writeX h r v).banks = s.banks := rfl
@[simp] theorem State.writeX_spares (s : State) (h : HartId) (r : Reg) (v : Word) : (s.writeX h r v).spares = s.spares := rfl
@[simp] theorem State.writeX_held (s : State) (h : HartId) (r : Reg) (v : Word) : (s.writeX h r v).held = s.held := rfl
@[simp] theorem State.writeX_watches (s : State) (h : HartId) (r : Reg) (v : Word) : (s.writeX h r v).watches = s.watches := rfl
@[simp] theorem State.writeX_anvils (s : State) (h : HartId) (r : Reg) (v : Word) : (s.writeX h r v).anvils = s.anvils := rfl
@[simp] theorem State.writeX_ctxs (s : State) (h : HartId) (r : Reg) (v : Word) : (s.writeX h r v).ctxs = s.ctxs := rfl
@[simp] theorem State.writeX_links (s : State) (h : HartId) (r : Reg) (v : Word) : (s.writeX h r v).links = s.links := rfl
@[simp] theorem State.writeX_routes (s : State) (h : HartId) (r : Reg) (v : Word) : (s.writeX h r v).routes = s.routes := rfl
@[simp] theorem State.writeX_elevators (s : State) (h : HartId) (r : Reg) (v : Word) : (s.writeX h r v).elevators = s.elevators := rfl
@[simp] theorem State.writeX_kept (s : State) (h : HartId) (r : Reg) (v : Word) : (s.writeX h r v).kept = s.kept := rfl
@[simp] theorem State.writeX_stalled (s : State) (h : HartId) (r : Reg) (v : Word) : (s.writeX h r v).stalled = s.stalled := rfl
@[simp] theorem State.writeX_resend (s : State) (h : HartId) (r : Reg) (v : Word) : (s.writeX h r v).resend = s.resend := rfl
@[simp] theorem State.writeX_delivered (s : State) (h : HartId) (r : Reg) (v : Word) : (s.writeX h r v).delivered = s.delivered := rfl
@[simp] theorem State.writeX_sent (s : State) (h : HartId) (r : Reg) (v : Word) : (s.writeX h r v).sent = s.sent := rfl
@[simp] theorem State.writeX_heldPuts (s : State) (h : HartId) (r : Reg) (v : Word) : (s.writeX h r v).heldPuts = s.heldPuts := rfl
@[simp] theorem State.writeX_putWords (s : State) (h : HartId) (r : Reg) (v : Word) : (s.writeX h r v).putWords = s.putWords := rfl
@[simp] theorem State.writeX_getWords (s : State) (h : HartId) (r : Reg) (v : Word) : (s.writeX h r v).getWords = s.getWords := rfl
@[simp] theorem State.writeX_rings (s : State) (h : HartId) (r : Reg) (v : Word) : (s.writeX h r v).rings = s.rings := rfl
@[simp] theorem State.writeX_dev (s : State) (h : HartId) (r : Reg) (v : Word) : (s.writeX h r v).dev = s.dev := rfl

/-! ### `retire` -/

@[simp] theorem State.retire_cur (s : State) (h : HartId) (pc : Word) : (s.retire h pc).cur = s.cur := rfl
@[simp] theorem State.retire_agenda (s : State) (h : HartId) (pc : Word) : (s.retire h pc).agenda = s.agenda := rfl
@[simp] theorem State.retire_pick (s : State) (h : HartId) (pc : Word) : (s.retire h pc).pick = s.pick := rfl
@[simp] theorem State.retire_fresh (s : State) (h : HartId) (pc : Word) : (s.retire h pc).fresh = s.fresh := rfl
@[simp] theorem State.retire_clk (s : State) (h : HartId) (pc : Word) : (s.retire h pc).clk = s.clk := rfl
@[simp] theorem State.retire_mem (s : State) (h : HartId) (pc : Word) : (s.retire h pc).mem = s.mem := rfl
@[simp] theorem State.retire_full (s : State) (h : HartId) (pc : Word) : (s.retire h pc).full = s.full := rfl
@[simp] theorem State.retire_flips (s : State) (h : HartId) (pc : Word) : (s.retire h pc).flips = s.flips := rfl
@[simp] theorem State.retire_banks (s : State) (h : HartId) (pc : Word) : (s.retire h pc).banks = s.banks := rfl
@[simp] theorem State.retire_spares (s : State) (h : HartId) (pc : Word) : (s.retire h pc).spares = s.spares := rfl
@[simp] theorem State.retire_held (s : State) (h : HartId) (pc : Word) : (s.retire h pc).held = s.held := rfl
@[simp] theorem State.retire_watches (s : State) (h : HartId) (pc : Word) : (s.retire h pc).watches = s.watches := rfl
@[simp] theorem State.retire_anvils (s : State) (h : HartId) (pc : Word) : (s.retire h pc).anvils = s.anvils := rfl
@[simp] theorem State.retire_ctxs (s : State) (h : HartId) (pc : Word) : (s.retire h pc).ctxs = s.ctxs := rfl
@[simp] theorem State.retire_links (s : State) (h : HartId) (pc : Word) : (s.retire h pc).links = s.links := rfl
@[simp] theorem State.retire_routes (s : State) (h : HartId) (pc : Word) : (s.retire h pc).routes = s.routes := rfl
@[simp] theorem State.retire_elevators (s : State) (h : HartId) (pc : Word) : (s.retire h pc).elevators = s.elevators := rfl
@[simp] theorem State.retire_kept (s : State) (h : HartId) (pc : Word) : (s.retire h pc).kept = s.kept := rfl
@[simp] theorem State.retire_stalled (s : State) (h : HartId) (pc : Word) : (s.retire h pc).stalled = s.stalled := rfl
@[simp] theorem State.retire_resend (s : State) (h : HartId) (pc : Word) : (s.retire h pc).resend = s.resend := rfl
@[simp] theorem State.retire_delivered (s : State) (h : HartId) (pc : Word) : (s.retire h pc).delivered = s.delivered := rfl
@[simp] theorem State.retire_sent (s : State) (h : HartId) (pc : Word) : (s.retire h pc).sent = s.sent := rfl
@[simp] theorem State.retire_heldPuts (s : State) (h : HartId) (pc : Word) : (s.retire h pc).heldPuts = s.heldPuts := rfl
@[simp] theorem State.retire_putWords (s : State) (h : HartId) (pc : Word) : (s.retire h pc).putWords = s.putWords := rfl
@[simp] theorem State.retire_getWords (s : State) (h : HartId) (pc : Word) : (s.retire h pc).getWords = s.getWords := rfl
@[simp] theorem State.retire_rings (s : State) (h : HartId) (pc : Word) : (s.retire h pc).rings = s.rings := rfl
@[simp] theorem State.retire_dev (s : State) (h : HartId) (pc : Word) : (s.retire h pc).dev = s.dev := rfl

/-! ### `setWait` -/

@[simp] theorem State.setWait_cur (s : State) (h : HartId) (w : Wait) : (s.setWait h w).cur = s.cur := rfl
@[simp] theorem State.setWait_agenda (s : State) (h : HartId) (w : Wait) : (s.setWait h w).agenda = s.agenda := rfl
@[simp] theorem State.setWait_pick (s : State) (h : HartId) (w : Wait) : (s.setWait h w).pick = s.pick := rfl
@[simp] theorem State.setWait_fresh (s : State) (h : HartId) (w : Wait) : (s.setWait h w).fresh = s.fresh := rfl
@[simp] theorem State.setWait_clk (s : State) (h : HartId) (w : Wait) : (s.setWait h w).clk = s.clk := rfl
@[simp] theorem State.setWait_mem (s : State) (h : HartId) (w : Wait) : (s.setWait h w).mem = s.mem := rfl
@[simp] theorem State.setWait_full (s : State) (h : HartId) (w : Wait) : (s.setWait h w).full = s.full := rfl
@[simp] theorem State.setWait_flips (s : State) (h : HartId) (w : Wait) : (s.setWait h w).flips = s.flips := rfl
@[simp] theorem State.setWait_banks (s : State) (h : HartId) (w : Wait) : (s.setWait h w).banks = s.banks := rfl
@[simp] theorem State.setWait_spares (s : State) (h : HartId) (w : Wait) : (s.setWait h w).spares = s.spares := rfl
@[simp] theorem State.setWait_held (s : State) (h : HartId) (w : Wait) : (s.setWait h w).held = s.held := rfl
@[simp] theorem State.setWait_watches (s : State) (h : HartId) (w : Wait) : (s.setWait h w).watches = s.watches := rfl
@[simp] theorem State.setWait_anvils (s : State) (h : HartId) (w : Wait) : (s.setWait h w).anvils = s.anvils := rfl
@[simp] theorem State.setWait_ctxs (s : State) (h : HartId) (w : Wait) : (s.setWait h w).ctxs = s.ctxs := rfl
@[simp] theorem State.setWait_links (s : State) (h : HartId) (w : Wait) : (s.setWait h w).links = s.links := rfl
@[simp] theorem State.setWait_routes (s : State) (h : HartId) (w : Wait) : (s.setWait h w).routes = s.routes := rfl
@[simp] theorem State.setWait_elevators (s : State) (h : HartId) (w : Wait) : (s.setWait h w).elevators = s.elevators := rfl
@[simp] theorem State.setWait_kept (s : State) (h : HartId) (w : Wait) : (s.setWait h w).kept = s.kept := rfl
@[simp] theorem State.setWait_stalled (s : State) (h : HartId) (w : Wait) : (s.setWait h w).stalled = s.stalled := rfl
@[simp] theorem State.setWait_resend (s : State) (h : HartId) (w : Wait) : (s.setWait h w).resend = s.resend := rfl
@[simp] theorem State.setWait_delivered (s : State) (h : HartId) (w : Wait) : (s.setWait h w).delivered = s.delivered := rfl
@[simp] theorem State.setWait_sent (s : State) (h : HartId) (w : Wait) : (s.setWait h w).sent = s.sent := rfl
@[simp] theorem State.setWait_heldPuts (s : State) (h : HartId) (w : Wait) : (s.setWait h w).heldPuts = s.heldPuts := rfl
@[simp] theorem State.setWait_putWords (s : State) (h : HartId) (w : Wait) : (s.setWait h w).putWords = s.putWords := rfl
@[simp] theorem State.setWait_getWords (s : State) (h : HartId) (w : Wait) : (s.setWait h w).getWords = s.getWords := rfl
@[simp] theorem State.setWait_rings (s : State) (h : HartId) (w : Wait) : (s.setWait h w).rings = s.rings := rfl
@[simp] theorem State.setWait_dev (s : State) (h : HartId) (w : Wait) : (s.setWait h w).dev = s.dev := rfl

/-! ### `result` -/

@[simp] theorem State.result_cur (s : State) (h : HartId) (r : Reg) (v : Word) : (s.result h r v).cur = s.cur := rfl
@[simp] theorem State.result_agenda (s : State) (h : HartId) (r : Reg) (v : Word) : (s.result h r v).agenda = s.agenda := rfl
@[simp] theorem State.result_pick (s : State) (h : HartId) (r : Reg) (v : Word) : (s.result h r v).pick = s.pick := rfl
@[simp] theorem State.result_fresh (s : State) (h : HartId) (r : Reg) (v : Word) : (s.result h r v).fresh = s.fresh := rfl
@[simp] theorem State.result_clk (s : State) (h : HartId) (r : Reg) (v : Word) : (s.result h r v).clk = s.clk := rfl
@[simp] theorem State.result_mem (s : State) (h : HartId) (r : Reg) (v : Word) : (s.result h r v).mem = s.mem := rfl
@[simp] theorem State.result_full (s : State) (h : HartId) (r : Reg) (v : Word) : (s.result h r v).full = s.full := rfl
@[simp] theorem State.result_flips (s : State) (h : HartId) (r : Reg) (v : Word) : (s.result h r v).flips = s.flips := rfl
@[simp] theorem State.result_banks (s : State) (h : HartId) (r : Reg) (v : Word) : (s.result h r v).banks = s.banks := rfl
@[simp] theorem State.result_spares (s : State) (h : HartId) (r : Reg) (v : Word) : (s.result h r v).spares = s.spares := rfl
@[simp] theorem State.result_held (s : State) (h : HartId) (r : Reg) (v : Word) : (s.result h r v).held = s.held := rfl
@[simp] theorem State.result_watches (s : State) (h : HartId) (r : Reg) (v : Word) : (s.result h r v).watches = s.watches := rfl
@[simp] theorem State.result_anvils (s : State) (h : HartId) (r : Reg) (v : Word) : (s.result h r v).anvils = s.anvils := rfl
@[simp] theorem State.result_ctxs (s : State) (h : HartId) (r : Reg) (v : Word) : (s.result h r v).ctxs = s.ctxs := rfl
@[simp] theorem State.result_links (s : State) (h : HartId) (r : Reg) (v : Word) : (s.result h r v).links = s.links := rfl
@[simp] theorem State.result_routes (s : State) (h : HartId) (r : Reg) (v : Word) : (s.result h r v).routes = s.routes := rfl
@[simp] theorem State.result_elevators (s : State) (h : HartId) (r : Reg) (v : Word) : (s.result h r v).elevators = s.elevators := rfl
@[simp] theorem State.result_kept (s : State) (h : HartId) (r : Reg) (v : Word) : (s.result h r v).kept = s.kept := rfl
@[simp] theorem State.result_stalled (s : State) (h : HartId) (r : Reg) (v : Word) : (s.result h r v).stalled = s.stalled := rfl
@[simp] theorem State.result_resend (s : State) (h : HartId) (r : Reg) (v : Word) : (s.result h r v).resend = s.resend := rfl
@[simp] theorem State.result_delivered (s : State) (h : HartId) (r : Reg) (v : Word) : (s.result h r v).delivered = s.delivered := rfl
@[simp] theorem State.result_sent (s : State) (h : HartId) (r : Reg) (v : Word) : (s.result h r v).sent = s.sent := rfl
@[simp] theorem State.result_heldPuts (s : State) (h : HartId) (r : Reg) (v : Word) : (s.result h r v).heldPuts = s.heldPuts := rfl
@[simp] theorem State.result_putWords (s : State) (h : HartId) (r : Reg) (v : Word) : (s.result h r v).putWords = s.putWords := rfl
@[simp] theorem State.result_getWords (s : State) (h : HartId) (r : Reg) (v : Word) : (s.result h r v).getWords = s.getWords := rfl
@[simp] theorem State.result_rings (s : State) (h : HartId) (r : Reg) (v : Word) : (s.result h r v).rings = s.rings := rfl
@[simp] theorem State.result_dev (s : State) (h : HartId) (r : Reg) (v : Word) : (s.result h r v).dev = s.dev := rfl

/-! ### `putConst` -/

@[simp] theorem State.putConst_cur (s : State) (h : HartId) (r : Reg) (v : Word32) (pc : Word) : (s.putConst h r v pc).cur = s.cur := rfl
@[simp] theorem State.putConst_agenda (s : State) (h : HartId) (r : Reg) (v : Word32) (pc : Word) : (s.putConst h r v pc).agenda = s.agenda := rfl
@[simp] theorem State.putConst_pick (s : State) (h : HartId) (r : Reg) (v : Word32) (pc : Word) : (s.putConst h r v pc).pick = s.pick := rfl
@[simp] theorem State.putConst_fresh (s : State) (h : HartId) (r : Reg) (v : Word32) (pc : Word) : (s.putConst h r v pc).fresh = s.fresh := rfl
@[simp] theorem State.putConst_clk (s : State) (h : HartId) (r : Reg) (v : Word32) (pc : Word) : (s.putConst h r v pc).clk = s.clk := rfl
@[simp] theorem State.putConst_mem (s : State) (h : HartId) (r : Reg) (v : Word32) (pc : Word) : (s.putConst h r v pc).mem = s.mem := rfl
@[simp] theorem State.putConst_full (s : State) (h : HartId) (r : Reg) (v : Word32) (pc : Word) : (s.putConst h r v pc).full = s.full := rfl
@[simp] theorem State.putConst_flips (s : State) (h : HartId) (r : Reg) (v : Word32) (pc : Word) : (s.putConst h r v pc).flips = s.flips := rfl
@[simp] theorem State.putConst_banks (s : State) (h : HartId) (r : Reg) (v : Word32) (pc : Word) : (s.putConst h r v pc).banks = s.banks := rfl
@[simp] theorem State.putConst_spares (s : State) (h : HartId) (r : Reg) (v : Word32) (pc : Word) : (s.putConst h r v pc).spares = s.spares := rfl
@[simp] theorem State.putConst_held (s : State) (h : HartId) (r : Reg) (v : Word32) (pc : Word) : (s.putConst h r v pc).held = s.held := rfl
@[simp] theorem State.putConst_watches (s : State) (h : HartId) (r : Reg) (v : Word32) (pc : Word) : (s.putConst h r v pc).watches = s.watches := rfl
@[simp] theorem State.putConst_anvils (s : State) (h : HartId) (r : Reg) (v : Word32) (pc : Word) : (s.putConst h r v pc).anvils = s.anvils := rfl
@[simp] theorem State.putConst_ctxs (s : State) (h : HartId) (r : Reg) (v : Word32) (pc : Word) : (s.putConst h r v pc).ctxs = s.ctxs := rfl
@[simp] theorem State.putConst_links (s : State) (h : HartId) (r : Reg) (v : Word32) (pc : Word) : (s.putConst h r v pc).links = s.links := rfl
@[simp] theorem State.putConst_routes (s : State) (h : HartId) (r : Reg) (v : Word32) (pc : Word) : (s.putConst h r v pc).routes = s.routes := rfl
@[simp] theorem State.putConst_elevators (s : State) (h : HartId) (r : Reg) (v : Word32) (pc : Word) : (s.putConst h r v pc).elevators = s.elevators := rfl
@[simp] theorem State.putConst_kept (s : State) (h : HartId) (r : Reg) (v : Word32) (pc : Word) : (s.putConst h r v pc).kept = s.kept := rfl
@[simp] theorem State.putConst_stalled (s : State) (h : HartId) (r : Reg) (v : Word32) (pc : Word) : (s.putConst h r v pc).stalled = s.stalled := rfl
@[simp] theorem State.putConst_resend (s : State) (h : HartId) (r : Reg) (v : Word32) (pc : Word) : (s.putConst h r v pc).resend = s.resend := rfl
@[simp] theorem State.putConst_delivered (s : State) (h : HartId) (r : Reg) (v : Word32) (pc : Word) : (s.putConst h r v pc).delivered = s.delivered := rfl
@[simp] theorem State.putConst_sent (s : State) (h : HartId) (r : Reg) (v : Word32) (pc : Word) : (s.putConst h r v pc).sent = s.sent := rfl
@[simp] theorem State.putConst_heldPuts (s : State) (h : HartId) (r : Reg) (v : Word32) (pc : Word) : (s.putConst h r v pc).heldPuts = s.heldPuts := rfl
@[simp] theorem State.putConst_putWords (s : State) (h : HartId) (r : Reg) (v : Word32) (pc : Word) : (s.putConst h r v pc).putWords = s.putWords := rfl
@[simp] theorem State.putConst_getWords (s : State) (h : HartId) (r : Reg) (v : Word32) (pc : Word) : (s.putConst h r v pc).getWords = s.getWords := rfl
@[simp] theorem State.putConst_rings (s : State) (h : HartId) (r : Reg) (v : Word32) (pc : Word) : (s.putConst h r v pc).rings = s.rings := rfl
@[simp] theorem State.putConst_dev (s : State) (h : HartId) (r : Reg) (v : Word32) (pc : Word) : (s.putConst h r v pc).dev = s.dev := rfl

/-! ### `modEntry` -/

@[simp] theorem State.modEntry_cur (s : State) (t q n : Nat) (f : Entry → Entry) : (s.modEntry t q n f).cur = s.cur := rfl
@[simp] theorem State.modEntry_agenda (s : State) (t q n : Nat) (f : Entry → Entry) : (s.modEntry t q n f).agenda = s.agenda := rfl
@[simp] theorem State.modEntry_pick (s : State) (t q n : Nat) (f : Entry → Entry) : (s.modEntry t q n f).pick = s.pick := rfl
@[simp] theorem State.modEntry_fresh (s : State) (t q n : Nat) (f : Entry → Entry) : (s.modEntry t q n f).fresh = s.fresh := rfl
@[simp] theorem State.modEntry_clk (s : State) (t q n : Nat) (f : Entry → Entry) : (s.modEntry t q n f).clk = s.clk := rfl
@[simp] theorem State.modEntry_mem (s : State) (t q n : Nat) (f : Entry → Entry) : (s.modEntry t q n f).mem = s.mem := rfl
@[simp] theorem State.modEntry_full (s : State) (t q n : Nat) (f : Entry → Entry) : (s.modEntry t q n f).full = s.full := rfl
@[simp] theorem State.modEntry_flips (s : State) (t q n : Nat) (f : Entry → Entry) : (s.modEntry t q n f).flips = s.flips := rfl
@[simp] theorem State.modEntry_banks (s : State) (t q n : Nat) (f : Entry → Entry) : (s.modEntry t q n f).banks = s.banks := rfl
@[simp] theorem State.modEntry_spares (s : State) (t q n : Nat) (f : Entry → Entry) : (s.modEntry t q n f).spares = s.spares := rfl
@[simp] theorem State.modEntry_held (s : State) (t q n : Nat) (f : Entry → Entry) : (s.modEntry t q n f).held = s.held := rfl
@[simp] theorem State.modEntry_watches (s : State) (t q n : Nat) (f : Entry → Entry) : (s.modEntry t q n f).watches = s.watches := rfl
@[simp] theorem State.modEntry_anvils (s : State) (t q n : Nat) (f : Entry → Entry) : (s.modEntry t q n f).anvils = s.anvils := rfl
@[simp] theorem State.modEntry_ctxs (s : State) (t q n : Nat) (f : Entry → Entry) : (s.modEntry t q n f).ctxs = s.ctxs := rfl
@[simp] theorem State.modEntry_links (s : State) (t q n : Nat) (f : Entry → Entry) : (s.modEntry t q n f).links = s.links := rfl
@[simp] theorem State.modEntry_routes (s : State) (t q n : Nat) (f : Entry → Entry) : (s.modEntry t q n f).routes = s.routes := rfl
@[simp] theorem State.modEntry_elevators (s : State) (t q n : Nat) (f : Entry → Entry) : (s.modEntry t q n f).elevators = s.elevators := rfl
@[simp] theorem State.modEntry_kept (s : State) (t q n : Nat) (f : Entry → Entry) : (s.modEntry t q n f).kept = s.kept := rfl
@[simp] theorem State.modEntry_stalled (s : State) (t q n : Nat) (f : Entry → Entry) : (s.modEntry t q n f).stalled = s.stalled := rfl
@[simp] theorem State.modEntry_resend (s : State) (t q n : Nat) (f : Entry → Entry) : (s.modEntry t q n f).resend = s.resend := rfl
@[simp] theorem State.modEntry_delivered (s : State) (t q n : Nat) (f : Entry → Entry) : (s.modEntry t q n f).delivered = s.delivered := rfl
@[simp] theorem State.modEntry_sent (s : State) (t q n : Nat) (f : Entry → Entry) : (s.modEntry t q n f).sent = s.sent := rfl
@[simp] theorem State.modEntry_heldPuts (s : State) (t q n : Nat) (f : Entry → Entry) : (s.modEntry t q n f).heldPuts = s.heldPuts := rfl
@[simp] theorem State.modEntry_putWords (s : State) (t q n : Nat) (f : Entry → Entry) : (s.modEntry t q n f).putWords = s.putWords := rfl
@[simp] theorem State.modEntry_getWords (s : State) (t q n : Nat) (f : Entry → Entry) : (s.modEntry t q n f).getWords = s.getWords := rfl
@[simp] theorem State.modEntry_rings (s : State) (t q n : Nat) (f : Entry → Entry) : (s.modEntry t q n f).rings = s.rings := rfl
@[simp] theorem State.modEntry_dev (s : State) (t q n : Nat) (f : Entry → Entry) : (s.modEntry t q n f).dev = s.dev := rfl

/-! ### `setCtx` -/

@[simp] theorem State.setCtx_cur (s : State) (c : Nat) (x : Context) : (s.setCtx c x).cur = s.cur := rfl
@[simp] theorem State.setCtx_agenda (s : State) (c : Nat) (x : Context) : (s.setCtx c x).agenda = s.agenda := rfl
@[simp] theorem State.setCtx_pick (s : State) (c : Nat) (x : Context) : (s.setCtx c x).pick = s.pick := rfl
@[simp] theorem State.setCtx_fresh (s : State) (c : Nat) (x : Context) : (s.setCtx c x).fresh = s.fresh := rfl
@[simp] theorem State.setCtx_clk (s : State) (c : Nat) (x : Context) : (s.setCtx c x).clk = s.clk := rfl
@[simp] theorem State.setCtx_mem (s : State) (c : Nat) (x : Context) : (s.setCtx c x).mem = s.mem := rfl
@[simp] theorem State.setCtx_full (s : State) (c : Nat) (x : Context) : (s.setCtx c x).full = s.full := rfl
@[simp] theorem State.setCtx_flips (s : State) (c : Nat) (x : Context) : (s.setCtx c x).flips = s.flips := rfl
@[simp] theorem State.setCtx_banks (s : State) (c : Nat) (x : Context) : (s.setCtx c x).banks = s.banks := rfl
@[simp] theorem State.setCtx_spares (s : State) (c : Nat) (x : Context) : (s.setCtx c x).spares = s.spares := rfl
@[simp] theorem State.setCtx_held (s : State) (c : Nat) (x : Context) : (s.setCtx c x).held = s.held := rfl
@[simp] theorem State.setCtx_watches (s : State) (c : Nat) (x : Context) : (s.setCtx c x).watches = s.watches := rfl
@[simp] theorem State.setCtx_tiles (s : State) (c : Nat) (x : Context) : (s.setCtx c x).tiles = s.tiles := rfl
@[simp] theorem State.setCtx_anvils (s : State) (c : Nat) (x : Context) : (s.setCtx c x).anvils = s.anvils := rfl
@[simp] theorem State.setCtx_links (s : State) (c : Nat) (x : Context) : (s.setCtx c x).links = s.links := rfl
@[simp] theorem State.setCtx_routes (s : State) (c : Nat) (x : Context) : (s.setCtx c x).routes = s.routes := rfl
@[simp] theorem State.setCtx_elevators (s : State) (c : Nat) (x : Context) : (s.setCtx c x).elevators = s.elevators := rfl
@[simp] theorem State.setCtx_kept (s : State) (c : Nat) (x : Context) : (s.setCtx c x).kept = s.kept := rfl
@[simp] theorem State.setCtx_stalled (s : State) (c : Nat) (x : Context) : (s.setCtx c x).stalled = s.stalled := rfl
@[simp] theorem State.setCtx_resend (s : State) (c : Nat) (x : Context) : (s.setCtx c x).resend = s.resend := rfl
@[simp] theorem State.setCtx_delivered (s : State) (c : Nat) (x : Context) : (s.setCtx c x).delivered = s.delivered := rfl
@[simp] theorem State.setCtx_sent (s : State) (c : Nat) (x : Context) : (s.setCtx c x).sent = s.sent := rfl
@[simp] theorem State.setCtx_heldPuts (s : State) (c : Nat) (x : Context) : (s.setCtx c x).heldPuts = s.heldPuts := rfl
@[simp] theorem State.setCtx_putWords (s : State) (c : Nat) (x : Context) : (s.setCtx c x).putWords = s.putWords := rfl
@[simp] theorem State.setCtx_getWords (s : State) (c : Nat) (x : Context) : (s.setCtx c x).getWords = s.getWords := rfl
@[simp] theorem State.setCtx_rings (s : State) (c : Nat) (x : Context) : (s.setCtx c x).rings = s.rings := rfl
@[simp] theorem State.setCtx_dev (s : State) (c : Nat) (x : Context) : (s.setCtx c x).dev = s.dev := rfl

/-! ### `modCtx` -/

@[simp] theorem State.modCtx_cur (s : State) (c : Nat) (f : Context → Context) : (s.modCtx c f).cur = s.cur := rfl
@[simp] theorem State.modCtx_agenda (s : State) (c : Nat) (f : Context → Context) : (s.modCtx c f).agenda = s.agenda := rfl
@[simp] theorem State.modCtx_pick (s : State) (c : Nat) (f : Context → Context) : (s.modCtx c f).pick = s.pick := rfl
@[simp] theorem State.modCtx_fresh (s : State) (c : Nat) (f : Context → Context) : (s.modCtx c f).fresh = s.fresh := rfl
@[simp] theorem State.modCtx_clk (s : State) (c : Nat) (f : Context → Context) : (s.modCtx c f).clk = s.clk := rfl
@[simp] theorem State.modCtx_mem (s : State) (c : Nat) (f : Context → Context) : (s.modCtx c f).mem = s.mem := rfl
@[simp] theorem State.modCtx_full (s : State) (c : Nat) (f : Context → Context) : (s.modCtx c f).full = s.full := rfl
@[simp] theorem State.modCtx_flips (s : State) (c : Nat) (f : Context → Context) : (s.modCtx c f).flips = s.flips := rfl
@[simp] theorem State.modCtx_banks (s : State) (c : Nat) (f : Context → Context) : (s.modCtx c f).banks = s.banks := rfl
@[simp] theorem State.modCtx_spares (s : State) (c : Nat) (f : Context → Context) : (s.modCtx c f).spares = s.spares := rfl
@[simp] theorem State.modCtx_held (s : State) (c : Nat) (f : Context → Context) : (s.modCtx c f).held = s.held := rfl
@[simp] theorem State.modCtx_watches (s : State) (c : Nat) (f : Context → Context) : (s.modCtx c f).watches = s.watches := rfl
@[simp] theorem State.modCtx_tiles (s : State) (c : Nat) (f : Context → Context) : (s.modCtx c f).tiles = s.tiles := rfl
@[simp] theorem State.modCtx_anvils (s : State) (c : Nat) (f : Context → Context) : (s.modCtx c f).anvils = s.anvils := rfl
@[simp] theorem State.modCtx_links (s : State) (c : Nat) (f : Context → Context) : (s.modCtx c f).links = s.links := rfl
@[simp] theorem State.modCtx_routes (s : State) (c : Nat) (f : Context → Context) : (s.modCtx c f).routes = s.routes := rfl
@[simp] theorem State.modCtx_elevators (s : State) (c : Nat) (f : Context → Context) : (s.modCtx c f).elevators = s.elevators := rfl
@[simp] theorem State.modCtx_kept (s : State) (c : Nat) (f : Context → Context) : (s.modCtx c f).kept = s.kept := rfl
@[simp] theorem State.modCtx_stalled (s : State) (c : Nat) (f : Context → Context) : (s.modCtx c f).stalled = s.stalled := rfl
@[simp] theorem State.modCtx_resend (s : State) (c : Nat) (f : Context → Context) : (s.modCtx c f).resend = s.resend := rfl
@[simp] theorem State.modCtx_delivered (s : State) (c : Nat) (f : Context → Context) : (s.modCtx c f).delivered = s.delivered := rfl
@[simp] theorem State.modCtx_sent (s : State) (c : Nat) (f : Context → Context) : (s.modCtx c f).sent = s.sent := rfl
@[simp] theorem State.modCtx_heldPuts (s : State) (c : Nat) (f : Context → Context) : (s.modCtx c f).heldPuts = s.heldPuts := rfl
@[simp] theorem State.modCtx_putWords (s : State) (c : Nat) (f : Context → Context) : (s.modCtx c f).putWords = s.putWords := rfl
@[simp] theorem State.modCtx_getWords (s : State) (c : Nat) (f : Context → Context) : (s.modCtx c f).getWords = s.getWords := rfl
@[simp] theorem State.modCtx_rings (s : State) (c : Nat) (f : Context → Context) : (s.modCtx c f).rings = s.rings := rfl
@[simp] theorem State.modCtx_dev (s : State) (c : Nat) (f : Context → Context) : (s.modCtx c f).dev = s.dev := rfl

/-! ### `setLink` -/

@[simp] theorem State.setLink_cur (s : State) (l : Link) (x : LinkRec) : (s.setLink l x).cur = s.cur := rfl
@[simp] theorem State.setLink_agenda (s : State) (l : Link) (x : LinkRec) : (s.setLink l x).agenda = s.agenda := rfl
@[simp] theorem State.setLink_pick (s : State) (l : Link) (x : LinkRec) : (s.setLink l x).pick = s.pick := rfl
@[simp] theorem State.setLink_fresh (s : State) (l : Link) (x : LinkRec) : (s.setLink l x).fresh = s.fresh := rfl
@[simp] theorem State.setLink_clk (s : State) (l : Link) (x : LinkRec) : (s.setLink l x).clk = s.clk := rfl
@[simp] theorem State.setLink_mem (s : State) (l : Link) (x : LinkRec) : (s.setLink l x).mem = s.mem := rfl
@[simp] theorem State.setLink_full (s : State) (l : Link) (x : LinkRec) : (s.setLink l x).full = s.full := rfl
@[simp] theorem State.setLink_flips (s : State) (l : Link) (x : LinkRec) : (s.setLink l x).flips = s.flips := rfl
@[simp] theorem State.setLink_banks (s : State) (l : Link) (x : LinkRec) : (s.setLink l x).banks = s.banks := rfl
@[simp] theorem State.setLink_spares (s : State) (l : Link) (x : LinkRec) : (s.setLink l x).spares = s.spares := rfl
@[simp] theorem State.setLink_held (s : State) (l : Link) (x : LinkRec) : (s.setLink l x).held = s.held := rfl
@[simp] theorem State.setLink_watches (s : State) (l : Link) (x : LinkRec) : (s.setLink l x).watches = s.watches := rfl
@[simp] theorem State.setLink_tiles (s : State) (l : Link) (x : LinkRec) : (s.setLink l x).tiles = s.tiles := rfl
@[simp] theorem State.setLink_anvils (s : State) (l : Link) (x : LinkRec) : (s.setLink l x).anvils = s.anvils := rfl
@[simp] theorem State.setLink_ctxs (s : State) (l : Link) (x : LinkRec) : (s.setLink l x).ctxs = s.ctxs := rfl
@[simp] theorem State.setLink_routes (s : State) (l : Link) (x : LinkRec) : (s.setLink l x).routes = s.routes := rfl
@[simp] theorem State.setLink_elevators (s : State) (l : Link) (x : LinkRec) : (s.setLink l x).elevators = s.elevators := rfl
@[simp] theorem State.setLink_kept (s : State) (l : Link) (x : LinkRec) : (s.setLink l x).kept = s.kept := rfl
@[simp] theorem State.setLink_stalled (s : State) (l : Link) (x : LinkRec) : (s.setLink l x).stalled = s.stalled := rfl
@[simp] theorem State.setLink_resend (s : State) (l : Link) (x : LinkRec) : (s.setLink l x).resend = s.resend := rfl
@[simp] theorem State.setLink_delivered (s : State) (l : Link) (x : LinkRec) : (s.setLink l x).delivered = s.delivered := rfl
@[simp] theorem State.setLink_sent (s : State) (l : Link) (x : LinkRec) : (s.setLink l x).sent = s.sent := rfl
@[simp] theorem State.setLink_heldPuts (s : State) (l : Link) (x : LinkRec) : (s.setLink l x).heldPuts = s.heldPuts := rfl
@[simp] theorem State.setLink_putWords (s : State) (l : Link) (x : LinkRec) : (s.setLink l x).putWords = s.putWords := rfl
@[simp] theorem State.setLink_getWords (s : State) (l : Link) (x : LinkRec) : (s.setLink l x).getWords = s.getWords := rfl
@[simp] theorem State.setLink_rings (s : State) (l : Link) (x : LinkRec) : (s.setLink l x).rings = s.rings := rfl
@[simp] theorem State.setLink_dev (s : State) (l : Link) (x : LinkRec) : (s.setLink l x).dev = s.dev := rfl

/-! ### `modLink` -/

@[simp] theorem State.modLink_cur (s : State) (l : Link) (f : LinkRec → LinkRec) : (s.modLink l f).cur = s.cur := rfl
@[simp] theorem State.modLink_agenda (s : State) (l : Link) (f : LinkRec → LinkRec) : (s.modLink l f).agenda = s.agenda := rfl
@[simp] theorem State.modLink_pick (s : State) (l : Link) (f : LinkRec → LinkRec) : (s.modLink l f).pick = s.pick := rfl
@[simp] theorem State.modLink_fresh (s : State) (l : Link) (f : LinkRec → LinkRec) : (s.modLink l f).fresh = s.fresh := rfl
@[simp] theorem State.modLink_clk (s : State) (l : Link) (f : LinkRec → LinkRec) : (s.modLink l f).clk = s.clk := rfl
@[simp] theorem State.modLink_mem (s : State) (l : Link) (f : LinkRec → LinkRec) : (s.modLink l f).mem = s.mem := rfl
@[simp] theorem State.modLink_full (s : State) (l : Link) (f : LinkRec → LinkRec) : (s.modLink l f).full = s.full := rfl
@[simp] theorem State.modLink_flips (s : State) (l : Link) (f : LinkRec → LinkRec) : (s.modLink l f).flips = s.flips := rfl
@[simp] theorem State.modLink_banks (s : State) (l : Link) (f : LinkRec → LinkRec) : (s.modLink l f).banks = s.banks := rfl
@[simp] theorem State.modLink_spares (s : State) (l : Link) (f : LinkRec → LinkRec) : (s.modLink l f).spares = s.spares := rfl
@[simp] theorem State.modLink_held (s : State) (l : Link) (f : LinkRec → LinkRec) : (s.modLink l f).held = s.held := rfl
@[simp] theorem State.modLink_watches (s : State) (l : Link) (f : LinkRec → LinkRec) : (s.modLink l f).watches = s.watches := rfl
@[simp] theorem State.modLink_tiles (s : State) (l : Link) (f : LinkRec → LinkRec) : (s.modLink l f).tiles = s.tiles := rfl
@[simp] theorem State.modLink_anvils (s : State) (l : Link) (f : LinkRec → LinkRec) : (s.modLink l f).anvils = s.anvils := rfl
@[simp] theorem State.modLink_ctxs (s : State) (l : Link) (f : LinkRec → LinkRec) : (s.modLink l f).ctxs = s.ctxs := rfl
@[simp] theorem State.modLink_routes (s : State) (l : Link) (f : LinkRec → LinkRec) : (s.modLink l f).routes = s.routes := rfl
@[simp] theorem State.modLink_elevators (s : State) (l : Link) (f : LinkRec → LinkRec) : (s.modLink l f).elevators = s.elevators := rfl
@[simp] theorem State.modLink_kept (s : State) (l : Link) (f : LinkRec → LinkRec) : (s.modLink l f).kept = s.kept := rfl
@[simp] theorem State.modLink_stalled (s : State) (l : Link) (f : LinkRec → LinkRec) : (s.modLink l f).stalled = s.stalled := rfl
@[simp] theorem State.modLink_resend (s : State) (l : Link) (f : LinkRec → LinkRec) : (s.modLink l f).resend = s.resend := rfl
@[simp] theorem State.modLink_delivered (s : State) (l : Link) (f : LinkRec → LinkRec) : (s.modLink l f).delivered = s.delivered := rfl
@[simp] theorem State.modLink_sent (s : State) (l : Link) (f : LinkRec → LinkRec) : (s.modLink l f).sent = s.sent := rfl
@[simp] theorem State.modLink_heldPuts (s : State) (l : Link) (f : LinkRec → LinkRec) : (s.modLink l f).heldPuts = s.heldPuts := rfl
@[simp] theorem State.modLink_putWords (s : State) (l : Link) (f : LinkRec → LinkRec) : (s.modLink l f).putWords = s.putWords := rfl
@[simp] theorem State.modLink_getWords (s : State) (l : Link) (f : LinkRec → LinkRec) : (s.modLink l f).getWords = s.getWords := rfl
@[simp] theorem State.modLink_rings (s : State) (l : Link) (f : LinkRec → LinkRec) : (s.modLink l f).rings = s.rings := rfl
@[simp] theorem State.modLink_dev (s : State) (l : Link) (f : LinkRec → LinkRec) : (s.modLink l f).dev = s.dev := rfl

/-! ### `setBank` -/

@[simp] theorem State.setBank_cur (s : State) (b : Nat) (x : Bank) : (s.setBank b x).cur = s.cur := rfl
@[simp] theorem State.setBank_agenda (s : State) (b : Nat) (x : Bank) : (s.setBank b x).agenda = s.agenda := rfl
@[simp] theorem State.setBank_pick (s : State) (b : Nat) (x : Bank) : (s.setBank b x).pick = s.pick := rfl
@[simp] theorem State.setBank_fresh (s : State) (b : Nat) (x : Bank) : (s.setBank b x).fresh = s.fresh := rfl
@[simp] theorem State.setBank_clk (s : State) (b : Nat) (x : Bank) : (s.setBank b x).clk = s.clk := rfl
@[simp] theorem State.setBank_mem (s : State) (b : Nat) (x : Bank) : (s.setBank b x).mem = s.mem := rfl
@[simp] theorem State.setBank_full (s : State) (b : Nat) (x : Bank) : (s.setBank b x).full = s.full := rfl
@[simp] theorem State.setBank_flips (s : State) (b : Nat) (x : Bank) : (s.setBank b x).flips = s.flips := rfl
@[simp] theorem State.setBank_spares (s : State) (b : Nat) (x : Bank) : (s.setBank b x).spares = s.spares := rfl
@[simp] theorem State.setBank_held (s : State) (b : Nat) (x : Bank) : (s.setBank b x).held = s.held := rfl
@[simp] theorem State.setBank_watches (s : State) (b : Nat) (x : Bank) : (s.setBank b x).watches = s.watches := rfl
@[simp] theorem State.setBank_tiles (s : State) (b : Nat) (x : Bank) : (s.setBank b x).tiles = s.tiles := rfl
@[simp] theorem State.setBank_anvils (s : State) (b : Nat) (x : Bank) : (s.setBank b x).anvils = s.anvils := rfl
@[simp] theorem State.setBank_ctxs (s : State) (b : Nat) (x : Bank) : (s.setBank b x).ctxs = s.ctxs := rfl
@[simp] theorem State.setBank_links (s : State) (b : Nat) (x : Bank) : (s.setBank b x).links = s.links := rfl
@[simp] theorem State.setBank_routes (s : State) (b : Nat) (x : Bank) : (s.setBank b x).routes = s.routes := rfl
@[simp] theorem State.setBank_elevators (s : State) (b : Nat) (x : Bank) : (s.setBank b x).elevators = s.elevators := rfl
@[simp] theorem State.setBank_kept (s : State) (b : Nat) (x : Bank) : (s.setBank b x).kept = s.kept := rfl
@[simp] theorem State.setBank_stalled (s : State) (b : Nat) (x : Bank) : (s.setBank b x).stalled = s.stalled := rfl
@[simp] theorem State.setBank_resend (s : State) (b : Nat) (x : Bank) : (s.setBank b x).resend = s.resend := rfl
@[simp] theorem State.setBank_delivered (s : State) (b : Nat) (x : Bank) : (s.setBank b x).delivered = s.delivered := rfl
@[simp] theorem State.setBank_sent (s : State) (b : Nat) (x : Bank) : (s.setBank b x).sent = s.sent := rfl
@[simp] theorem State.setBank_heldPuts (s : State) (b : Nat) (x : Bank) : (s.setBank b x).heldPuts = s.heldPuts := rfl
@[simp] theorem State.setBank_putWords (s : State) (b : Nat) (x : Bank) : (s.setBank b x).putWords = s.putWords := rfl
@[simp] theorem State.setBank_getWords (s : State) (b : Nat) (x : Bank) : (s.setBank b x).getWords = s.getWords := rfl
@[simp] theorem State.setBank_rings (s : State) (b : Nat) (x : Bank) : (s.setBank b x).rings = s.rings := rfl
@[simp] theorem State.setBank_dev (s : State) (b : Nat) (x : Bank) : (s.setBank b x).dev = s.dev := rfl

/-! ### `setRing` -/

@[simp] theorem State.setRing_cur (s : State) (n : Nat) (x : Ring) : (s.setRing n x).cur = s.cur := rfl
@[simp] theorem State.setRing_agenda (s : State) (n : Nat) (x : Ring) : (s.setRing n x).agenda = s.agenda := rfl
@[simp] theorem State.setRing_pick (s : State) (n : Nat) (x : Ring) : (s.setRing n x).pick = s.pick := rfl
@[simp] theorem State.setRing_fresh (s : State) (n : Nat) (x : Ring) : (s.setRing n x).fresh = s.fresh := rfl
@[simp] theorem State.setRing_clk (s : State) (n : Nat) (x : Ring) : (s.setRing n x).clk = s.clk := rfl
@[simp] theorem State.setRing_mem (s : State) (n : Nat) (x : Ring) : (s.setRing n x).mem = s.mem := rfl
@[simp] theorem State.setRing_full (s : State) (n : Nat) (x : Ring) : (s.setRing n x).full = s.full := rfl
@[simp] theorem State.setRing_flips (s : State) (n : Nat) (x : Ring) : (s.setRing n x).flips = s.flips := rfl
@[simp] theorem State.setRing_banks (s : State) (n : Nat) (x : Ring) : (s.setRing n x).banks = s.banks := rfl
@[simp] theorem State.setRing_spares (s : State) (n : Nat) (x : Ring) : (s.setRing n x).spares = s.spares := rfl
@[simp] theorem State.setRing_held (s : State) (n : Nat) (x : Ring) : (s.setRing n x).held = s.held := rfl
@[simp] theorem State.setRing_watches (s : State) (n : Nat) (x : Ring) : (s.setRing n x).watches = s.watches := rfl
@[simp] theorem State.setRing_tiles (s : State) (n : Nat) (x : Ring) : (s.setRing n x).tiles = s.tiles := rfl
@[simp] theorem State.setRing_anvils (s : State) (n : Nat) (x : Ring) : (s.setRing n x).anvils = s.anvils := rfl
@[simp] theorem State.setRing_ctxs (s : State) (n : Nat) (x : Ring) : (s.setRing n x).ctxs = s.ctxs := rfl
@[simp] theorem State.setRing_links (s : State) (n : Nat) (x : Ring) : (s.setRing n x).links = s.links := rfl
@[simp] theorem State.setRing_routes (s : State) (n : Nat) (x : Ring) : (s.setRing n x).routes = s.routes := rfl
@[simp] theorem State.setRing_elevators (s : State) (n : Nat) (x : Ring) : (s.setRing n x).elevators = s.elevators := rfl
@[simp] theorem State.setRing_kept (s : State) (n : Nat) (x : Ring) : (s.setRing n x).kept = s.kept := rfl
@[simp] theorem State.setRing_stalled (s : State) (n : Nat) (x : Ring) : (s.setRing n x).stalled = s.stalled := rfl
@[simp] theorem State.setRing_resend (s : State) (n : Nat) (x : Ring) : (s.setRing n x).resend = s.resend := rfl
@[simp] theorem State.setRing_delivered (s : State) (n : Nat) (x : Ring) : (s.setRing n x).delivered = s.delivered := rfl
@[simp] theorem State.setRing_sent (s : State) (n : Nat) (x : Ring) : (s.setRing n x).sent = s.sent := rfl
@[simp] theorem State.setRing_heldPuts (s : State) (n : Nat) (x : Ring) : (s.setRing n x).heldPuts = s.heldPuts := rfl
@[simp] theorem State.setRing_putWords (s : State) (n : Nat) (x : Ring) : (s.setRing n x).putWords = s.putWords := rfl
@[simp] theorem State.setRing_getWords (s : State) (n : Nat) (x : Ring) : (s.setRing n x).getWords = s.getWords := rfl
@[simp] theorem State.setRing_dev (s : State) (n : Nat) (x : Ring) : (s.setRing n x).dev = s.dev := rfl

/-! ### `setAnvil` -/

@[simp] theorem State.setAnvil_cur (s : State) (k : Nat) (x : Anvil) : (s.setAnvil k x).cur = s.cur := rfl
@[simp] theorem State.setAnvil_agenda (s : State) (k : Nat) (x : Anvil) : (s.setAnvil k x).agenda = s.agenda := rfl
@[simp] theorem State.setAnvil_pick (s : State) (k : Nat) (x : Anvil) : (s.setAnvil k x).pick = s.pick := rfl
@[simp] theorem State.setAnvil_fresh (s : State) (k : Nat) (x : Anvil) : (s.setAnvil k x).fresh = s.fresh := rfl
@[simp] theorem State.setAnvil_clk (s : State) (k : Nat) (x : Anvil) : (s.setAnvil k x).clk = s.clk := rfl
@[simp] theorem State.setAnvil_mem (s : State) (k : Nat) (x : Anvil) : (s.setAnvil k x).mem = s.mem := rfl
@[simp] theorem State.setAnvil_full (s : State) (k : Nat) (x : Anvil) : (s.setAnvil k x).full = s.full := rfl
@[simp] theorem State.setAnvil_flips (s : State) (k : Nat) (x : Anvil) : (s.setAnvil k x).flips = s.flips := rfl
@[simp] theorem State.setAnvil_banks (s : State) (k : Nat) (x : Anvil) : (s.setAnvil k x).banks = s.banks := rfl
@[simp] theorem State.setAnvil_spares (s : State) (k : Nat) (x : Anvil) : (s.setAnvil k x).spares = s.spares := rfl
@[simp] theorem State.setAnvil_held (s : State) (k : Nat) (x : Anvil) : (s.setAnvil k x).held = s.held := rfl
@[simp] theorem State.setAnvil_watches (s : State) (k : Nat) (x : Anvil) : (s.setAnvil k x).watches = s.watches := rfl
@[simp] theorem State.setAnvil_tiles (s : State) (k : Nat) (x : Anvil) : (s.setAnvil k x).tiles = s.tiles := rfl
@[simp] theorem State.setAnvil_ctxs (s : State) (k : Nat) (x : Anvil) : (s.setAnvil k x).ctxs = s.ctxs := rfl
@[simp] theorem State.setAnvil_links (s : State) (k : Nat) (x : Anvil) : (s.setAnvil k x).links = s.links := rfl
@[simp] theorem State.setAnvil_routes (s : State) (k : Nat) (x : Anvil) : (s.setAnvil k x).routes = s.routes := rfl
@[simp] theorem State.setAnvil_elevators (s : State) (k : Nat) (x : Anvil) : (s.setAnvil k x).elevators = s.elevators := rfl
@[simp] theorem State.setAnvil_kept (s : State) (k : Nat) (x : Anvil) : (s.setAnvil k x).kept = s.kept := rfl
@[simp] theorem State.setAnvil_stalled (s : State) (k : Nat) (x : Anvil) : (s.setAnvil k x).stalled = s.stalled := rfl
@[simp] theorem State.setAnvil_resend (s : State) (k : Nat) (x : Anvil) : (s.setAnvil k x).resend = s.resend := rfl
@[simp] theorem State.setAnvil_delivered (s : State) (k : Nat) (x : Anvil) : (s.setAnvil k x).delivered = s.delivered := rfl
@[simp] theorem State.setAnvil_sent (s : State) (k : Nat) (x : Anvil) : (s.setAnvil k x).sent = s.sent := rfl
@[simp] theorem State.setAnvil_heldPuts (s : State) (k : Nat) (x : Anvil) : (s.setAnvil k x).heldPuts = s.heldPuts := rfl
@[simp] theorem State.setAnvil_putWords (s : State) (k : Nat) (x : Anvil) : (s.setAnvil k x).putWords = s.putWords := rfl
@[simp] theorem State.setAnvil_getWords (s : State) (k : Nat) (x : Anvil) : (s.setAnvil k x).getWords = s.getWords := rfl
@[simp] theorem State.setAnvil_rings (s : State) (k : Nat) (x : Anvil) : (s.setAnvil k x).rings = s.rings := rfl
@[simp] theorem State.setAnvil_dev (s : State) (k : Nat) (x : Anvil) : (s.setAnvil k x).dev = s.dev := rfl

/-! ### `modAnvil` -/

@[simp] theorem State.modAnvil_cur (s : State) (k : Nat) (f : Anvil → Anvil) : (s.modAnvil k f).cur = s.cur := rfl
@[simp] theorem State.modAnvil_agenda (s : State) (k : Nat) (f : Anvil → Anvil) : (s.modAnvil k f).agenda = s.agenda := rfl
@[simp] theorem State.modAnvil_pick (s : State) (k : Nat) (f : Anvil → Anvil) : (s.modAnvil k f).pick = s.pick := rfl
@[simp] theorem State.modAnvil_fresh (s : State) (k : Nat) (f : Anvil → Anvil) : (s.modAnvil k f).fresh = s.fresh := rfl
@[simp] theorem State.modAnvil_clk (s : State) (k : Nat) (f : Anvil → Anvil) : (s.modAnvil k f).clk = s.clk := rfl
@[simp] theorem State.modAnvil_mem (s : State) (k : Nat) (f : Anvil → Anvil) : (s.modAnvil k f).mem = s.mem := rfl
@[simp] theorem State.modAnvil_full (s : State) (k : Nat) (f : Anvil → Anvil) : (s.modAnvil k f).full = s.full := rfl
@[simp] theorem State.modAnvil_flips (s : State) (k : Nat) (f : Anvil → Anvil) : (s.modAnvil k f).flips = s.flips := rfl
@[simp] theorem State.modAnvil_banks (s : State) (k : Nat) (f : Anvil → Anvil) : (s.modAnvil k f).banks = s.banks := rfl
@[simp] theorem State.modAnvil_spares (s : State) (k : Nat) (f : Anvil → Anvil) : (s.modAnvil k f).spares = s.spares := rfl
@[simp] theorem State.modAnvil_held (s : State) (k : Nat) (f : Anvil → Anvil) : (s.modAnvil k f).held = s.held := rfl
@[simp] theorem State.modAnvil_watches (s : State) (k : Nat) (f : Anvil → Anvil) : (s.modAnvil k f).watches = s.watches := rfl
@[simp] theorem State.modAnvil_tiles (s : State) (k : Nat) (f : Anvil → Anvil) : (s.modAnvil k f).tiles = s.tiles := rfl
@[simp] theorem State.modAnvil_ctxs (s : State) (k : Nat) (f : Anvil → Anvil) : (s.modAnvil k f).ctxs = s.ctxs := rfl
@[simp] theorem State.modAnvil_links (s : State) (k : Nat) (f : Anvil → Anvil) : (s.modAnvil k f).links = s.links := rfl
@[simp] theorem State.modAnvil_routes (s : State) (k : Nat) (f : Anvil → Anvil) : (s.modAnvil k f).routes = s.routes := rfl
@[simp] theorem State.modAnvil_elevators (s : State) (k : Nat) (f : Anvil → Anvil) : (s.modAnvil k f).elevators = s.elevators := rfl
@[simp] theorem State.modAnvil_kept (s : State) (k : Nat) (f : Anvil → Anvil) : (s.modAnvil k f).kept = s.kept := rfl
@[simp] theorem State.modAnvil_stalled (s : State) (k : Nat) (f : Anvil → Anvil) : (s.modAnvil k f).stalled = s.stalled := rfl
@[simp] theorem State.modAnvil_resend (s : State) (k : Nat) (f : Anvil → Anvil) : (s.modAnvil k f).resend = s.resend := rfl
@[simp] theorem State.modAnvil_delivered (s : State) (k : Nat) (f : Anvil → Anvil) : (s.modAnvil k f).delivered = s.delivered := rfl
@[simp] theorem State.modAnvil_sent (s : State) (k : Nat) (f : Anvil → Anvil) : (s.modAnvil k f).sent = s.sent := rfl
@[simp] theorem State.modAnvil_heldPuts (s : State) (k : Nat) (f : Anvil → Anvil) : (s.modAnvil k f).heldPuts = s.heldPuts := rfl
@[simp] theorem State.modAnvil_putWords (s : State) (k : Nat) (f : Anvil → Anvil) : (s.modAnvil k f).putWords = s.putWords := rfl
@[simp] theorem State.modAnvil_getWords (s : State) (k : Nat) (f : Anvil → Anvil) : (s.modAnvil k f).getWords = s.getWords := rfl
@[simp] theorem State.modAnvil_rings (s : State) (k : Nat) (f : Anvil → Anvil) : (s.modAnvil k f).rings = s.rings := rfl
@[simp] theorem State.modAnvil_dev (s : State) (k : Nat) (f : Anvil → Anvil) : (s.modAnvil k f).dev = s.dev := rfl

/-! ### `modDev` -/

@[simp] theorem State.modDev_cur (s : State) (f : Device → Device) : (s.modDev f).cur = s.cur := rfl
@[simp] theorem State.modDev_agenda (s : State) (f : Device → Device) : (s.modDev f).agenda = s.agenda := rfl
@[simp] theorem State.modDev_pick (s : State) (f : Device → Device) : (s.modDev f).pick = s.pick := rfl
@[simp] theorem State.modDev_fresh (s : State) (f : Device → Device) : (s.modDev f).fresh = s.fresh := rfl
@[simp] theorem State.modDev_clk (s : State) (f : Device → Device) : (s.modDev f).clk = s.clk := rfl
@[simp] theorem State.modDev_mem (s : State) (f : Device → Device) : (s.modDev f).mem = s.mem := rfl
@[simp] theorem State.modDev_full (s : State) (f : Device → Device) : (s.modDev f).full = s.full := rfl
@[simp] theorem State.modDev_flips (s : State) (f : Device → Device) : (s.modDev f).flips = s.flips := rfl
@[simp] theorem State.modDev_banks (s : State) (f : Device → Device) : (s.modDev f).banks = s.banks := rfl
@[simp] theorem State.modDev_spares (s : State) (f : Device → Device) : (s.modDev f).spares = s.spares := rfl
@[simp] theorem State.modDev_held (s : State) (f : Device → Device) : (s.modDev f).held = s.held := rfl
@[simp] theorem State.modDev_watches (s : State) (f : Device → Device) : (s.modDev f).watches = s.watches := rfl
@[simp] theorem State.modDev_tiles (s : State) (f : Device → Device) : (s.modDev f).tiles = s.tiles := rfl
@[simp] theorem State.modDev_anvils (s : State) (f : Device → Device) : (s.modDev f).anvils = s.anvils := rfl
@[simp] theorem State.modDev_ctxs (s : State) (f : Device → Device) : (s.modDev f).ctxs = s.ctxs := rfl
@[simp] theorem State.modDev_links (s : State) (f : Device → Device) : (s.modDev f).links = s.links := rfl
@[simp] theorem State.modDev_routes (s : State) (f : Device → Device) : (s.modDev f).routes = s.routes := rfl
@[simp] theorem State.modDev_elevators (s : State) (f : Device → Device) : (s.modDev f).elevators = s.elevators := rfl
@[simp] theorem State.modDev_kept (s : State) (f : Device → Device) : (s.modDev f).kept = s.kept := rfl
@[simp] theorem State.modDev_stalled (s : State) (f : Device → Device) : (s.modDev f).stalled = s.stalled := rfl
@[simp] theorem State.modDev_resend (s : State) (f : Device → Device) : (s.modDev f).resend = s.resend := rfl
@[simp] theorem State.modDev_delivered (s : State) (f : Device → Device) : (s.modDev f).delivered = s.delivered := rfl
@[simp] theorem State.modDev_sent (s : State) (f : Device → Device) : (s.modDev f).sent = s.sent := rfl
@[simp] theorem State.modDev_heldPuts (s : State) (f : Device → Device) : (s.modDev f).heldPuts = s.heldPuts := rfl
@[simp] theorem State.modDev_putWords (s : State) (f : Device → Device) : (s.modDev f).putWords = s.putWords := rfl
@[simp] theorem State.modDev_getWords (s : State) (f : Device → Device) : (s.modDev f).getWords = s.getWords := rfl
@[simp] theorem State.modDev_rings (s : State) (f : Device → Device) : (s.modDev f).rings = s.rings := rfl

/-! ### `logEvent` -/

@[simp] theorem State.logEvent_cur (s : State) (k : LogCode) (c : Option Nat) (p : Nat) : (s.logEvent k c p).cur = s.cur := rfl
@[simp] theorem State.logEvent_agenda (s : State) (k : LogCode) (c : Option Nat) (p : Nat) : (s.logEvent k c p).agenda = s.agenda := rfl
@[simp] theorem State.logEvent_pick (s : State) (k : LogCode) (c : Option Nat) (p : Nat) : (s.logEvent k c p).pick = s.pick := rfl
@[simp] theorem State.logEvent_fresh (s : State) (k : LogCode) (c : Option Nat) (p : Nat) : (s.logEvent k c p).fresh = s.fresh := rfl
@[simp] theorem State.logEvent_clk (s : State) (k : LogCode) (c : Option Nat) (p : Nat) : (s.logEvent k c p).clk = s.clk := rfl
@[simp] theorem State.logEvent_mem (s : State) (k : LogCode) (c : Option Nat) (p : Nat) : (s.logEvent k c p).mem = s.mem := rfl
@[simp] theorem State.logEvent_full (s : State) (k : LogCode) (c : Option Nat) (p : Nat) : (s.logEvent k c p).full = s.full := rfl
@[simp] theorem State.logEvent_flips (s : State) (k : LogCode) (c : Option Nat) (p : Nat) : (s.logEvent k c p).flips = s.flips := rfl
@[simp] theorem State.logEvent_banks (s : State) (k : LogCode) (c : Option Nat) (p : Nat) : (s.logEvent k c p).banks = s.banks := rfl
@[simp] theorem State.logEvent_spares (s : State) (k : LogCode) (c : Option Nat) (p : Nat) : (s.logEvent k c p).spares = s.spares := rfl
@[simp] theorem State.logEvent_held (s : State) (k : LogCode) (c : Option Nat) (p : Nat) : (s.logEvent k c p).held = s.held := rfl
@[simp] theorem State.logEvent_watches (s : State) (k : LogCode) (c : Option Nat) (p : Nat) : (s.logEvent k c p).watches = s.watches := rfl
@[simp] theorem State.logEvent_tiles (s : State) (k : LogCode) (c : Option Nat) (p : Nat) : (s.logEvent k c p).tiles = s.tiles := rfl
@[simp] theorem State.logEvent_anvils (s : State) (k : LogCode) (c : Option Nat) (p : Nat) : (s.logEvent k c p).anvils = s.anvils := rfl
@[simp] theorem State.logEvent_ctxs (s : State) (k : LogCode) (c : Option Nat) (p : Nat) : (s.logEvent k c p).ctxs = s.ctxs := rfl
@[simp] theorem State.logEvent_links (s : State) (k : LogCode) (c : Option Nat) (p : Nat) : (s.logEvent k c p).links = s.links := rfl
@[simp] theorem State.logEvent_routes (s : State) (k : LogCode) (c : Option Nat) (p : Nat) : (s.logEvent k c p).routes = s.routes := rfl
@[simp] theorem State.logEvent_elevators (s : State) (k : LogCode) (c : Option Nat) (p : Nat) : (s.logEvent k c p).elevators = s.elevators := rfl
@[simp] theorem State.logEvent_kept (s : State) (k : LogCode) (c : Option Nat) (p : Nat) : (s.logEvent k c p).kept = s.kept := rfl
@[simp] theorem State.logEvent_stalled (s : State) (k : LogCode) (c : Option Nat) (p : Nat) : (s.logEvent k c p).stalled = s.stalled := rfl
@[simp] theorem State.logEvent_resend (s : State) (k : LogCode) (c : Option Nat) (p : Nat) : (s.logEvent k c p).resend = s.resend := rfl
@[simp] theorem State.logEvent_delivered (s : State) (k : LogCode) (c : Option Nat) (p : Nat) : (s.logEvent k c p).delivered = s.delivered := rfl
@[simp] theorem State.logEvent_sent (s : State) (k : LogCode) (c : Option Nat) (p : Nat) : (s.logEvent k c p).sent = s.sent := rfl
@[simp] theorem State.logEvent_heldPuts (s : State) (k : LogCode) (c : Option Nat) (p : Nat) : (s.logEvent k c p).heldPuts = s.heldPuts := rfl
@[simp] theorem State.logEvent_putWords (s : State) (k : LogCode) (c : Option Nat) (p : Nat) : (s.logEvent k c p).putWords = s.putWords := rfl
@[simp] theorem State.logEvent_getWords (s : State) (k : LogCode) (c : Option Nat) (p : Nat) : (s.logEvent k c p).getWords = s.getWords := rfl
@[simp] theorem State.logEvent_rings (s : State) (k : LogCode) (c : Option Nat) (p : Nat) : (s.logEvent k c p).rings = s.rings := rfl

/-! ### `setByte` -/

@[simp] theorem State.setByte_cur (s : State) (pa : Nat) (v : Byte) : (s.setByte pa v).cur = s.cur := rfl
@[simp] theorem State.setByte_agenda (s : State) (pa : Nat) (v : Byte) : (s.setByte pa v).agenda = s.agenda := rfl
@[simp] theorem State.setByte_pick (s : State) (pa : Nat) (v : Byte) : (s.setByte pa v).pick = s.pick := rfl
@[simp] theorem State.setByte_fresh (s : State) (pa : Nat) (v : Byte) : (s.setByte pa v).fresh = s.fresh := rfl
@[simp] theorem State.setByte_clk (s : State) (pa : Nat) (v : Byte) : (s.setByte pa v).clk = s.clk := rfl
@[simp] theorem State.setByte_full (s : State) (pa : Nat) (v : Byte) : (s.setByte pa v).full = s.full := rfl
@[simp] theorem State.setByte_flips (s : State) (pa : Nat) (v : Byte) : (s.setByte pa v).flips = s.flips := rfl
@[simp] theorem State.setByte_banks (s : State) (pa : Nat) (v : Byte) : (s.setByte pa v).banks = s.banks := rfl
@[simp] theorem State.setByte_spares (s : State) (pa : Nat) (v : Byte) : (s.setByte pa v).spares = s.spares := rfl
@[simp] theorem State.setByte_held (s : State) (pa : Nat) (v : Byte) : (s.setByte pa v).held = s.held := rfl
@[simp] theorem State.setByte_watches (s : State) (pa : Nat) (v : Byte) : (s.setByte pa v).watches = s.watches := rfl
@[simp] theorem State.setByte_tiles (s : State) (pa : Nat) (v : Byte) : (s.setByte pa v).tiles = s.tiles := rfl
@[simp] theorem State.setByte_anvils (s : State) (pa : Nat) (v : Byte) : (s.setByte pa v).anvils = s.anvils := rfl
@[simp] theorem State.setByte_ctxs (s : State) (pa : Nat) (v : Byte) : (s.setByte pa v).ctxs = s.ctxs := rfl
@[simp] theorem State.setByte_links (s : State) (pa : Nat) (v : Byte) : (s.setByte pa v).links = s.links := rfl
@[simp] theorem State.setByte_routes (s : State) (pa : Nat) (v : Byte) : (s.setByte pa v).routes = s.routes := rfl
@[simp] theorem State.setByte_elevators (s : State) (pa : Nat) (v : Byte) : (s.setByte pa v).elevators = s.elevators := rfl
@[simp] theorem State.setByte_kept (s : State) (pa : Nat) (v : Byte) : (s.setByte pa v).kept = s.kept := rfl
@[simp] theorem State.setByte_stalled (s : State) (pa : Nat) (v : Byte) : (s.setByte pa v).stalled = s.stalled := rfl
@[simp] theorem State.setByte_resend (s : State) (pa : Nat) (v : Byte) : (s.setByte pa v).resend = s.resend := rfl
@[simp] theorem State.setByte_delivered (s : State) (pa : Nat) (v : Byte) : (s.setByte pa v).delivered = s.delivered := rfl
@[simp] theorem State.setByte_sent (s : State) (pa : Nat) (v : Byte) : (s.setByte pa v).sent = s.sent := rfl
@[simp] theorem State.setByte_heldPuts (s : State) (pa : Nat) (v : Byte) : (s.setByte pa v).heldPuts = s.heldPuts := rfl
@[simp] theorem State.setByte_putWords (s : State) (pa : Nat) (v : Byte) : (s.setByte pa v).putWords = s.putWords := rfl
@[simp] theorem State.setByte_getWords (s : State) (pa : Nat) (v : Byte) : (s.setByte pa v).getWords = s.getWords := rfl
@[simp] theorem State.setByte_rings (s : State) (pa : Nat) (v : Byte) : (s.setByte pa v).rings = s.rings := rfl
@[simp] theorem State.setByte_dev (s : State) (pa : Nat) (v : Byte) : (s.setByte pa v).dev = s.dev := rfl

/-! ### `setFull` -/

@[simp] theorem State.setFull_cur (s : State) (pa : Nat) (b : Bool) : (s.setFull pa b).cur = s.cur := rfl
@[simp] theorem State.setFull_agenda (s : State) (pa : Nat) (b : Bool) : (s.setFull pa b).agenda = s.agenda := rfl
@[simp] theorem State.setFull_pick (s : State) (pa : Nat) (b : Bool) : (s.setFull pa b).pick = s.pick := rfl
@[simp] theorem State.setFull_fresh (s : State) (pa : Nat) (b : Bool) : (s.setFull pa b).fresh = s.fresh := rfl
@[simp] theorem State.setFull_clk (s : State) (pa : Nat) (b : Bool) : (s.setFull pa b).clk = s.clk := rfl
@[simp] theorem State.setFull_mem (s : State) (pa : Nat) (b : Bool) : (s.setFull pa b).mem = s.mem := rfl
@[simp] theorem State.setFull_flips (s : State) (pa : Nat) (b : Bool) : (s.setFull pa b).flips = s.flips := rfl
@[simp] theorem State.setFull_banks (s : State) (pa : Nat) (b : Bool) : (s.setFull pa b).banks = s.banks := rfl
@[simp] theorem State.setFull_spares (s : State) (pa : Nat) (b : Bool) : (s.setFull pa b).spares = s.spares := rfl
@[simp] theorem State.setFull_held (s : State) (pa : Nat) (b : Bool) : (s.setFull pa b).held = s.held := rfl
@[simp] theorem State.setFull_watches (s : State) (pa : Nat) (b : Bool) : (s.setFull pa b).watches = s.watches := rfl
@[simp] theorem State.setFull_tiles (s : State) (pa : Nat) (b : Bool) : (s.setFull pa b).tiles = s.tiles := rfl
@[simp] theorem State.setFull_anvils (s : State) (pa : Nat) (b : Bool) : (s.setFull pa b).anvils = s.anvils := rfl
@[simp] theorem State.setFull_ctxs (s : State) (pa : Nat) (b : Bool) : (s.setFull pa b).ctxs = s.ctxs := rfl
@[simp] theorem State.setFull_links (s : State) (pa : Nat) (b : Bool) : (s.setFull pa b).links = s.links := rfl
@[simp] theorem State.setFull_routes (s : State) (pa : Nat) (b : Bool) : (s.setFull pa b).routes = s.routes := rfl
@[simp] theorem State.setFull_elevators (s : State) (pa : Nat) (b : Bool) : (s.setFull pa b).elevators = s.elevators := rfl
@[simp] theorem State.setFull_kept (s : State) (pa : Nat) (b : Bool) : (s.setFull pa b).kept = s.kept := rfl
@[simp] theorem State.setFull_stalled (s : State) (pa : Nat) (b : Bool) : (s.setFull pa b).stalled = s.stalled := rfl
@[simp] theorem State.setFull_resend (s : State) (pa : Nat) (b : Bool) : (s.setFull pa b).resend = s.resend := rfl
@[simp] theorem State.setFull_delivered (s : State) (pa : Nat) (b : Bool) : (s.setFull pa b).delivered = s.delivered := rfl
@[simp] theorem State.setFull_sent (s : State) (pa : Nat) (b : Bool) : (s.setFull pa b).sent = s.sent := rfl
@[simp] theorem State.setFull_heldPuts (s : State) (pa : Nat) (b : Bool) : (s.setFull pa b).heldPuts = s.heldPuts := rfl
@[simp] theorem State.setFull_putWords (s : State) (pa : Nat) (b : Bool) : (s.setFull pa b).putWords = s.putWords := rfl
@[simp] theorem State.setFull_getWords (s : State) (pa : Nat) (b : Bool) : (s.setFull pa b).getWords = s.getWords := rfl
@[simp] theorem State.setFull_rings (s : State) (pa : Nat) (b : Bool) : (s.setFull pa b).rings = s.rings := rfl
@[simp] theorem State.setFull_dev (s : State) (pa : Nat) (b : Bool) : (s.setFull pa b).dev = s.dev := rfl

/-! ### `clearFlips` -/

@[simp] theorem State.clearFlips_cur (s : State) (l : Nat) : (s.clearFlips l).cur = s.cur := rfl
@[simp] theorem State.clearFlips_agenda (s : State) (l : Nat) : (s.clearFlips l).agenda = s.agenda := rfl
@[simp] theorem State.clearFlips_pick (s : State) (l : Nat) : (s.clearFlips l).pick = s.pick := rfl
@[simp] theorem State.clearFlips_fresh (s : State) (l : Nat) : (s.clearFlips l).fresh = s.fresh := rfl
@[simp] theorem State.clearFlips_clk (s : State) (l : Nat) : (s.clearFlips l).clk = s.clk := rfl
@[simp] theorem State.clearFlips_mem (s : State) (l : Nat) : (s.clearFlips l).mem = s.mem := rfl
@[simp] theorem State.clearFlips_full (s : State) (l : Nat) : (s.clearFlips l).full = s.full := rfl
@[simp] theorem State.clearFlips_banks (s : State) (l : Nat) : (s.clearFlips l).banks = s.banks := rfl
@[simp] theorem State.clearFlips_spares (s : State) (l : Nat) : (s.clearFlips l).spares = s.spares := rfl
@[simp] theorem State.clearFlips_held (s : State) (l : Nat) : (s.clearFlips l).held = s.held := rfl
@[simp] theorem State.clearFlips_watches (s : State) (l : Nat) : (s.clearFlips l).watches = s.watches := rfl
@[simp] theorem State.clearFlips_tiles (s : State) (l : Nat) : (s.clearFlips l).tiles = s.tiles := rfl
@[simp] theorem State.clearFlips_anvils (s : State) (l : Nat) : (s.clearFlips l).anvils = s.anvils := rfl
@[simp] theorem State.clearFlips_ctxs (s : State) (l : Nat) : (s.clearFlips l).ctxs = s.ctxs := rfl
@[simp] theorem State.clearFlips_links (s : State) (l : Nat) : (s.clearFlips l).links = s.links := rfl
@[simp] theorem State.clearFlips_routes (s : State) (l : Nat) : (s.clearFlips l).routes = s.routes := rfl
@[simp] theorem State.clearFlips_elevators (s : State) (l : Nat) : (s.clearFlips l).elevators = s.elevators := rfl
@[simp] theorem State.clearFlips_kept (s : State) (l : Nat) : (s.clearFlips l).kept = s.kept := rfl
@[simp] theorem State.clearFlips_stalled (s : State) (l : Nat) : (s.clearFlips l).stalled = s.stalled := rfl
@[simp] theorem State.clearFlips_resend (s : State) (l : Nat) : (s.clearFlips l).resend = s.resend := rfl
@[simp] theorem State.clearFlips_delivered (s : State) (l : Nat) : (s.clearFlips l).delivered = s.delivered := rfl
@[simp] theorem State.clearFlips_sent (s : State) (l : Nat) : (s.clearFlips l).sent = s.sent := rfl
@[simp] theorem State.clearFlips_heldPuts (s : State) (l : Nat) : (s.clearFlips l).heldPuts = s.heldPuts := rfl
@[simp] theorem State.clearFlips_putWords (s : State) (l : Nat) : (s.clearFlips l).putWords = s.putWords := rfl
@[simp] theorem State.clearFlips_getWords (s : State) (l : Nat) : (s.clearFlips l).getWords = s.getWords := rfl
@[simp] theorem State.clearFlips_rings (s : State) (l : Nat) : (s.clearFlips l).rings = s.rings := rfl
@[simp] theorem State.clearFlips_dev (s : State) (l : Nat) : (s.clearFlips l).dev = s.dev := rfl

/-! ## What an update leaves of the parts of the state -/

@[simp] theorem State.byte_setTile (s : State) (t : Nat) (x : Tile) (a : Nat) : (s.setTile t x).byte a = s.byte a := rfl
@[simp] theorem State.isFull_setTile (s : State) (t : Nat) (x : Tile) (a : Nat) : (s.setTile t x).isFull a = s.isFull a := rfl
@[simp] theorem State.ctx_setTile (s : State) (t : Nat) (x : Tile) (d : Nat) : (s.setTile t x).ctx d = s.ctx d := rfl
@[simp] theorem State.link_setTile (s : State) (t : Nat) (x : Tile) (m : Link) : (s.setTile t x).link m = s.link m := rfl
@[simp] theorem State.bank_setTile (s : State) (t : Nat) (x : Tile) (i : Nat) : (s.setTile t x).bank i = s.bank i := rfl
@[simp] theorem State.ring_setTile (s : State) (t : Nat) (x : Tile) (m : Nat) : (s.setTile t x).ring m = s.ring m := rfl
@[simp] theorem State.anvil_setTile (s : State) (t : Nat) (x : Tile) (j : Nat) : (s.setTile t x).anvil j = s.anvil j := rfl
@[simp] theorem State.byte_setTc (s : State) (t : Nat) (x : TileCtx) (a : Nat) : (s.setTc t x).byte a = s.byte a := rfl
@[simp] theorem State.isFull_setTc (s : State) (t : Nat) (x : TileCtx) (a : Nat) : (s.setTc t x).isFull a = s.isFull a := rfl
@[simp] theorem State.ctx_setTc (s : State) (t : Nat) (x : TileCtx) (d : Nat) : (s.setTc t x).ctx d = s.ctx d := rfl
@[simp] theorem State.link_setTc (s : State) (t : Nat) (x : TileCtx) (m : Link) : (s.setTc t x).link m = s.link m := rfl
@[simp] theorem State.bank_setTc (s : State) (t : Nat) (x : TileCtx) (i : Nat) : (s.setTc t x).bank i = s.bank i := rfl
@[simp] theorem State.ring_setTc (s : State) (t : Nat) (x : TileCtx) (m : Nat) : (s.setTc t x).ring m = s.ring m := rfl
@[simp] theorem State.anvil_setTc (s : State) (t : Nat) (x : TileCtx) (j : Nat) : (s.setTc t x).anvil j = s.anvil j := rfl
@[simp] theorem State.byte_modTc (s : State) (t : Nat) (f : TileCtx → TileCtx) (a : Nat) : (s.modTc t f).byte a = s.byte a := rfl
@[simp] theorem State.isFull_modTc (s : State) (t : Nat) (f : TileCtx → TileCtx) (a : Nat) : (s.modTc t f).isFull a = s.isFull a := rfl
@[simp] theorem State.ctx_modTc (s : State) (t : Nat) (f : TileCtx → TileCtx) (d : Nat) : (s.modTc t f).ctx d = s.ctx d := rfl
@[simp] theorem State.link_modTc (s : State) (t : Nat) (f : TileCtx → TileCtx) (m : Link) : (s.modTc t f).link m = s.link m := rfl
@[simp] theorem State.bank_modTc (s : State) (t : Nat) (f : TileCtx → TileCtx) (i : Nat) : (s.modTc t f).bank i = s.bank i := rfl
@[simp] theorem State.ring_modTc (s : State) (t : Nat) (f : TileCtx → TileCtx) (m : Nat) : (s.modTc t f).ring m = s.ring m := rfl
@[simp] theorem State.anvil_modTc (s : State) (t : Nat) (f : TileCtx → TileCtx) (j : Nat) : (s.modTc t f).anvil j = s.anvil j := rfl
@[simp] theorem State.byte_setHart (s : State) (h : HartId) (x : Hart) (a : Nat) : (s.setHart h x).byte a = s.byte a := rfl
@[simp] theorem State.isFull_setHart (s : State) (h : HartId) (x : Hart) (a : Nat) : (s.setHart h x).isFull a = s.isFull a := rfl
@[simp] theorem State.ctx_setHart (s : State) (h : HartId) (x : Hart) (d : Nat) : (s.setHart h x).ctx d = s.ctx d := rfl
@[simp] theorem State.link_setHart (s : State) (h : HartId) (x : Hart) (m : Link) : (s.setHart h x).link m = s.link m := rfl
@[simp] theorem State.bank_setHart (s : State) (h : HartId) (x : Hart) (i : Nat) : (s.setHart h x).bank i = s.bank i := rfl
@[simp] theorem State.ring_setHart (s : State) (h : HartId) (x : Hart) (m : Nat) : (s.setHart h x).ring m = s.ring m := rfl
@[simp] theorem State.anvil_setHart (s : State) (h : HartId) (x : Hart) (j : Nat) : (s.setHart h x).anvil j = s.anvil j := rfl
@[simp] theorem State.byte_modHart (s : State) (h : HartId) (f : Hart → Hart) (a : Nat) : (s.modHart h f).byte a = s.byte a := rfl
@[simp] theorem State.isFull_modHart (s : State) (h : HartId) (f : Hart → Hart) (a : Nat) : (s.modHart h f).isFull a = s.isFull a := rfl
@[simp] theorem State.ctx_modHart (s : State) (h : HartId) (f : Hart → Hart) (d : Nat) : (s.modHart h f).ctx d = s.ctx d := rfl
@[simp] theorem State.link_modHart (s : State) (h : HartId) (f : Hart → Hart) (m : Link) : (s.modHart h f).link m = s.link m := rfl
@[simp] theorem State.bank_modHart (s : State) (h : HartId) (f : Hart → Hart) (i : Nat) : (s.modHart h f).bank i = s.bank i := rfl
@[simp] theorem State.ring_modHart (s : State) (h : HartId) (f : Hart → Hart) (m : Nat) : (s.modHart h f).ring m = s.ring m := rfl
@[simp] theorem State.anvil_modHart (s : State) (h : HartId) (f : Hart → Hart) (j : Nat) : (s.modHart h f).anvil j = s.anvil j := rfl
@[simp] theorem State.byte_writeX (s : State) (h : HartId) (r : Reg) (v : Word) (a : Nat) : (s.writeX h r v).byte a = s.byte a := rfl
@[simp] theorem State.isFull_writeX (s : State) (h : HartId) (r : Reg) (v : Word) (a : Nat) : (s.writeX h r v).isFull a = s.isFull a := rfl
@[simp] theorem State.ctx_writeX (s : State) (h : HartId) (r : Reg) (v : Word) (d : Nat) : (s.writeX h r v).ctx d = s.ctx d := rfl
@[simp] theorem State.link_writeX (s : State) (h : HartId) (r : Reg) (v : Word) (m : Link) : (s.writeX h r v).link m = s.link m := rfl
@[simp] theorem State.bank_writeX (s : State) (h : HartId) (r : Reg) (v : Word) (i : Nat) : (s.writeX h r v).bank i = s.bank i := rfl
@[simp] theorem State.ring_writeX (s : State) (h : HartId) (r : Reg) (v : Word) (m : Nat) : (s.writeX h r v).ring m = s.ring m := rfl
@[simp] theorem State.anvil_writeX (s : State) (h : HartId) (r : Reg) (v : Word) (j : Nat) : (s.writeX h r v).anvil j = s.anvil j := rfl
@[simp] theorem State.byte_retire (s : State) (h : HartId) (pc : Word) (a : Nat) : (s.retire h pc).byte a = s.byte a := rfl
@[simp] theorem State.isFull_retire (s : State) (h : HartId) (pc : Word) (a : Nat) : (s.retire h pc).isFull a = s.isFull a := rfl
@[simp] theorem State.ctx_retire (s : State) (h : HartId) (pc : Word) (d : Nat) : (s.retire h pc).ctx d = s.ctx d := rfl
@[simp] theorem State.link_retire (s : State) (h : HartId) (pc : Word) (m : Link) : (s.retire h pc).link m = s.link m := rfl
@[simp] theorem State.bank_retire (s : State) (h : HartId) (pc : Word) (i : Nat) : (s.retire h pc).bank i = s.bank i := rfl
@[simp] theorem State.ring_retire (s : State) (h : HartId) (pc : Word) (m : Nat) : (s.retire h pc).ring m = s.ring m := rfl
@[simp] theorem State.anvil_retire (s : State) (h : HartId) (pc : Word) (j : Nat) : (s.retire h pc).anvil j = s.anvil j := rfl
@[simp] theorem State.byte_setWait (s : State) (h : HartId) (w : Wait) (a : Nat) : (s.setWait h w).byte a = s.byte a := rfl
@[simp] theorem State.isFull_setWait (s : State) (h : HartId) (w : Wait) (a : Nat) : (s.setWait h w).isFull a = s.isFull a := rfl
@[simp] theorem State.ctx_setWait (s : State) (h : HartId) (w : Wait) (d : Nat) : (s.setWait h w).ctx d = s.ctx d := rfl
@[simp] theorem State.link_setWait (s : State) (h : HartId) (w : Wait) (m : Link) : (s.setWait h w).link m = s.link m := rfl
@[simp] theorem State.bank_setWait (s : State) (h : HartId) (w : Wait) (i : Nat) : (s.setWait h w).bank i = s.bank i := rfl
@[simp] theorem State.ring_setWait (s : State) (h : HartId) (w : Wait) (m : Nat) : (s.setWait h w).ring m = s.ring m := rfl
@[simp] theorem State.anvil_setWait (s : State) (h : HartId) (w : Wait) (j : Nat) : (s.setWait h w).anvil j = s.anvil j := rfl
@[simp] theorem State.byte_modEntry (s : State) (t q n : Nat) (f : Entry → Entry) (a : Nat) : (s.modEntry t q n f).byte a = s.byte a := rfl
@[simp] theorem State.isFull_modEntry (s : State) (t q n : Nat) (f : Entry → Entry) (a : Nat) : (s.modEntry t q n f).isFull a = s.isFull a := rfl
@[simp] theorem State.ctx_modEntry (s : State) (t q n : Nat) (f : Entry → Entry) (d : Nat) : (s.modEntry t q n f).ctx d = s.ctx d := rfl
@[simp] theorem State.link_modEntry (s : State) (t q n : Nat) (f : Entry → Entry) (m : Link) : (s.modEntry t q n f).link m = s.link m := rfl
@[simp] theorem State.bank_modEntry (s : State) (t q n : Nat) (f : Entry → Entry) (i : Nat) : (s.modEntry t q n f).bank i = s.bank i := rfl
@[simp] theorem State.ring_modEntry (s : State) (t q n : Nat) (f : Entry → Entry) (m : Nat) : (s.modEntry t q n f).ring m = s.ring m := rfl
@[simp] theorem State.anvil_modEntry (s : State) (t q n : Nat) (f : Entry → Entry) (j : Nat) : (s.modEntry t q n f).anvil j = s.anvil j := rfl
@[simp] theorem State.byte_setCtx (s : State) (c : Nat) (x : Context) (a : Nat) : (s.setCtx c x).byte a = s.byte a := rfl
@[simp] theorem State.isFull_setCtx (s : State) (c : Nat) (x : Context) (a : Nat) : (s.setCtx c x).isFull a = s.isFull a := rfl
@[simp] theorem State.tile_setCtx (s : State) (c : Nat) (x : Context) (u : Nat) : (s.setCtx c x).tile u = s.tile u := rfl
@[simp] theorem State.tc_setCtx (s : State) (c : Nat) (x : Context) (u : Nat) : (s.setCtx c x).tc u = s.tc u := rfl
@[simp] theorem State.hart_setCtx (s : State) (c : Nat) (x : Context) (g : HartId) : (s.setCtx c x).hart g = s.hart g := rfl
@[simp] theorem State.link_setCtx (s : State) (c : Nat) (x : Context) (m : Link) : (s.setCtx c x).link m = s.link m := rfl
@[simp] theorem State.bank_setCtx (s : State) (c : Nat) (x : Context) (i : Nat) : (s.setCtx c x).bank i = s.bank i := rfl
@[simp] theorem State.ring_setCtx (s : State) (c : Nat) (x : Context) (m : Nat) : (s.setCtx c x).ring m = s.ring m := rfl
@[simp] theorem State.anvil_setCtx (s : State) (c : Nat) (x : Context) (j : Nat) : (s.setCtx c x).anvil j = s.anvil j := rfl
@[simp] theorem State.queue_setCtx (s : State) (c : Nat) (x : Context) (u q : Nat) : (s.setCtx c x).queue u q = s.queue u q := rfl
@[simp] theorem State.ctxOf_setCtx (s : State) (c : Nat) (x : Context) (u : Nat) : (s.setCtx c x).ctxOf u = s.ctxOf u := rfl
@[simp] theorem State.byte_modCtx (s : State) (c : Nat) (f : Context → Context) (a : Nat) : (s.modCtx c f).byte a = s.byte a := rfl
@[simp] theorem State.isFull_modCtx (s : State) (c : Nat) (f : Context → Context) (a : Nat) : (s.modCtx c f).isFull a = s.isFull a := rfl
@[simp] theorem State.tile_modCtx (s : State) (c : Nat) (f : Context → Context) (u : Nat) : (s.modCtx c f).tile u = s.tile u := rfl
@[simp] theorem State.tc_modCtx (s : State) (c : Nat) (f : Context → Context) (u : Nat) : (s.modCtx c f).tc u = s.tc u := rfl
@[simp] theorem State.hart_modCtx (s : State) (c : Nat) (f : Context → Context) (g : HartId) : (s.modCtx c f).hart g = s.hart g := rfl
@[simp] theorem State.link_modCtx (s : State) (c : Nat) (f : Context → Context) (m : Link) : (s.modCtx c f).link m = s.link m := rfl
@[simp] theorem State.bank_modCtx (s : State) (c : Nat) (f : Context → Context) (i : Nat) : (s.modCtx c f).bank i = s.bank i := rfl
@[simp] theorem State.ring_modCtx (s : State) (c : Nat) (f : Context → Context) (m : Nat) : (s.modCtx c f).ring m = s.ring m := rfl
@[simp] theorem State.anvil_modCtx (s : State) (c : Nat) (f : Context → Context) (j : Nat) : (s.modCtx c f).anvil j = s.anvil j := rfl
@[simp] theorem State.queue_modCtx (s : State) (c : Nat) (f : Context → Context) (u q : Nat) : (s.modCtx c f).queue u q = s.queue u q := rfl
@[simp] theorem State.ctxOf_modCtx (s : State) (c : Nat) (f : Context → Context) (u : Nat) : (s.modCtx c f).ctxOf u = s.ctxOf u := rfl
@[simp] theorem State.byte_setLink (s : State) (l : Link) (x : LinkRec) (a : Nat) : (s.setLink l x).byte a = s.byte a := rfl
@[simp] theorem State.isFull_setLink (s : State) (l : Link) (x : LinkRec) (a : Nat) : (s.setLink l x).isFull a = s.isFull a := rfl
@[simp] theorem State.tile_setLink (s : State) (l : Link) (x : LinkRec) (u : Nat) : (s.setLink l x).tile u = s.tile u := rfl
@[simp] theorem State.tc_setLink (s : State) (l : Link) (x : LinkRec) (u : Nat) : (s.setLink l x).tc u = s.tc u := rfl
@[simp] theorem State.hart_setLink (s : State) (l : Link) (x : LinkRec) (g : HartId) : (s.setLink l x).hart g = s.hart g := rfl
@[simp] theorem State.ctx_setLink (s : State) (l : Link) (x : LinkRec) (d : Nat) : (s.setLink l x).ctx d = s.ctx d := rfl
@[simp] theorem State.bank_setLink (s : State) (l : Link) (x : LinkRec) (i : Nat) : (s.setLink l x).bank i = s.bank i := rfl
@[simp] theorem State.ring_setLink (s : State) (l : Link) (x : LinkRec) (m : Nat) : (s.setLink l x).ring m = s.ring m := rfl
@[simp] theorem State.anvil_setLink (s : State) (l : Link) (x : LinkRec) (j : Nat) : (s.setLink l x).anvil j = s.anvil j := rfl
@[simp] theorem State.queue_setLink (s : State) (l : Link) (x : LinkRec) (u q : Nat) : (s.setLink l x).queue u q = s.queue u q := rfl
@[simp] theorem State.ctxOf_setLink (s : State) (l : Link) (x : LinkRec) (u : Nat) : (s.setLink l x).ctxOf u = s.ctxOf u := rfl
@[simp] theorem State.byte_modLink (s : State) (l : Link) (f : LinkRec → LinkRec) (a : Nat) : (s.modLink l f).byte a = s.byte a := rfl
@[simp] theorem State.isFull_modLink (s : State) (l : Link) (f : LinkRec → LinkRec) (a : Nat) : (s.modLink l f).isFull a = s.isFull a := rfl
@[simp] theorem State.tile_modLink (s : State) (l : Link) (f : LinkRec → LinkRec) (u : Nat) : (s.modLink l f).tile u = s.tile u := rfl
@[simp] theorem State.tc_modLink (s : State) (l : Link) (f : LinkRec → LinkRec) (u : Nat) : (s.modLink l f).tc u = s.tc u := rfl
@[simp] theorem State.hart_modLink (s : State) (l : Link) (f : LinkRec → LinkRec) (g : HartId) : (s.modLink l f).hart g = s.hart g := rfl
@[simp] theorem State.ctx_modLink (s : State) (l : Link) (f : LinkRec → LinkRec) (d : Nat) : (s.modLink l f).ctx d = s.ctx d := rfl
@[simp] theorem State.bank_modLink (s : State) (l : Link) (f : LinkRec → LinkRec) (i : Nat) : (s.modLink l f).bank i = s.bank i := rfl
@[simp] theorem State.ring_modLink (s : State) (l : Link) (f : LinkRec → LinkRec) (m : Nat) : (s.modLink l f).ring m = s.ring m := rfl
@[simp] theorem State.anvil_modLink (s : State) (l : Link) (f : LinkRec → LinkRec) (j : Nat) : (s.modLink l f).anvil j = s.anvil j := rfl
@[simp] theorem State.queue_modLink (s : State) (l : Link) (f : LinkRec → LinkRec) (u q : Nat) : (s.modLink l f).queue u q = s.queue u q := rfl
@[simp] theorem State.ctxOf_modLink (s : State) (l : Link) (f : LinkRec → LinkRec) (u : Nat) : (s.modLink l f).ctxOf u = s.ctxOf u := rfl
@[simp] theorem State.byte_setBank (s : State) (b : Nat) (x : Bank) (a : Nat) : (s.setBank b x).byte a = s.byte a := rfl
@[simp] theorem State.isFull_setBank (s : State) (b : Nat) (x : Bank) (a : Nat) : (s.setBank b x).isFull a = s.isFull a := rfl
@[simp] theorem State.tile_setBank (s : State) (b : Nat) (x : Bank) (u : Nat) : (s.setBank b x).tile u = s.tile u := rfl
@[simp] theorem State.tc_setBank (s : State) (b : Nat) (x : Bank) (u : Nat) : (s.setBank b x).tc u = s.tc u := rfl
@[simp] theorem State.hart_setBank (s : State) (b : Nat) (x : Bank) (g : HartId) : (s.setBank b x).hart g = s.hart g := rfl
@[simp] theorem State.ctx_setBank (s : State) (b : Nat) (x : Bank) (d : Nat) : (s.setBank b x).ctx d = s.ctx d := rfl
@[simp] theorem State.link_setBank (s : State) (b : Nat) (x : Bank) (m : Link) : (s.setBank b x).link m = s.link m := rfl
@[simp] theorem State.ring_setBank (s : State) (b : Nat) (x : Bank) (m : Nat) : (s.setBank b x).ring m = s.ring m := rfl
@[simp] theorem State.anvil_setBank (s : State) (b : Nat) (x : Bank) (j : Nat) : (s.setBank b x).anvil j = s.anvil j := rfl
@[simp] theorem State.queue_setBank (s : State) (b : Nat) (x : Bank) (u q : Nat) : (s.setBank b x).queue u q = s.queue u q := rfl
@[simp] theorem State.ctxOf_setBank (s : State) (b : Nat) (x : Bank) (u : Nat) : (s.setBank b x).ctxOf u = s.ctxOf u := rfl
@[simp] theorem State.byte_setRing (s : State) (n : Nat) (x : Ring) (a : Nat) : (s.setRing n x).byte a = s.byte a := rfl
@[simp] theorem State.isFull_setRing (s : State) (n : Nat) (x : Ring) (a : Nat) : (s.setRing n x).isFull a = s.isFull a := rfl
@[simp] theorem State.tile_setRing (s : State) (n : Nat) (x : Ring) (u : Nat) : (s.setRing n x).tile u = s.tile u := rfl
@[simp] theorem State.tc_setRing (s : State) (n : Nat) (x : Ring) (u : Nat) : (s.setRing n x).tc u = s.tc u := rfl
@[simp] theorem State.hart_setRing (s : State) (n : Nat) (x : Ring) (g : HartId) : (s.setRing n x).hart g = s.hart g := rfl
@[simp] theorem State.ctx_setRing (s : State) (n : Nat) (x : Ring) (d : Nat) : (s.setRing n x).ctx d = s.ctx d := rfl
@[simp] theorem State.link_setRing (s : State) (n : Nat) (x : Ring) (m : Link) : (s.setRing n x).link m = s.link m := rfl
@[simp] theorem State.bank_setRing (s : State) (n : Nat) (x : Ring) (i : Nat) : (s.setRing n x).bank i = s.bank i := rfl
@[simp] theorem State.anvil_setRing (s : State) (n : Nat) (x : Ring) (j : Nat) : (s.setRing n x).anvil j = s.anvil j := rfl
@[simp] theorem State.queue_setRing (s : State) (n : Nat) (x : Ring) (u q : Nat) : (s.setRing n x).queue u q = s.queue u q := rfl
@[simp] theorem State.ctxOf_setRing (s : State) (n : Nat) (x : Ring) (u : Nat) : (s.setRing n x).ctxOf u = s.ctxOf u := rfl
@[simp] theorem State.byte_setAnvil (s : State) (k : Nat) (x : Anvil) (a : Nat) : (s.setAnvil k x).byte a = s.byte a := rfl
@[simp] theorem State.isFull_setAnvil (s : State) (k : Nat) (x : Anvil) (a : Nat) : (s.setAnvil k x).isFull a = s.isFull a := rfl
@[simp] theorem State.tile_setAnvil (s : State) (k : Nat) (x : Anvil) (u : Nat) : (s.setAnvil k x).tile u = s.tile u := rfl
@[simp] theorem State.tc_setAnvil (s : State) (k : Nat) (x : Anvil) (u : Nat) : (s.setAnvil k x).tc u = s.tc u := rfl
@[simp] theorem State.hart_setAnvil (s : State) (k : Nat) (x : Anvil) (g : HartId) : (s.setAnvil k x).hart g = s.hart g := rfl
@[simp] theorem State.ctx_setAnvil (s : State) (k : Nat) (x : Anvil) (d : Nat) : (s.setAnvil k x).ctx d = s.ctx d := rfl
@[simp] theorem State.link_setAnvil (s : State) (k : Nat) (x : Anvil) (m : Link) : (s.setAnvil k x).link m = s.link m := rfl
@[simp] theorem State.bank_setAnvil (s : State) (k : Nat) (x : Anvil) (i : Nat) : (s.setAnvil k x).bank i = s.bank i := rfl
@[simp] theorem State.ring_setAnvil (s : State) (k : Nat) (x : Anvil) (m : Nat) : (s.setAnvil k x).ring m = s.ring m := rfl
@[simp] theorem State.queue_setAnvil (s : State) (k : Nat) (x : Anvil) (u q : Nat) : (s.setAnvil k x).queue u q = s.queue u q := rfl
@[simp] theorem State.ctxOf_setAnvil (s : State) (k : Nat) (x : Anvil) (u : Nat) : (s.setAnvil k x).ctxOf u = s.ctxOf u := rfl
@[simp] theorem State.byte_modAnvil (s : State) (k : Nat) (f : Anvil → Anvil) (a : Nat) : (s.modAnvil k f).byte a = s.byte a := rfl
@[simp] theorem State.isFull_modAnvil (s : State) (k : Nat) (f : Anvil → Anvil) (a : Nat) : (s.modAnvil k f).isFull a = s.isFull a := rfl
@[simp] theorem State.tile_modAnvil (s : State) (k : Nat) (f : Anvil → Anvil) (u : Nat) : (s.modAnvil k f).tile u = s.tile u := rfl
@[simp] theorem State.tc_modAnvil (s : State) (k : Nat) (f : Anvil → Anvil) (u : Nat) : (s.modAnvil k f).tc u = s.tc u := rfl
@[simp] theorem State.hart_modAnvil (s : State) (k : Nat) (f : Anvil → Anvil) (g : HartId) : (s.modAnvil k f).hart g = s.hart g := rfl
@[simp] theorem State.ctx_modAnvil (s : State) (k : Nat) (f : Anvil → Anvil) (d : Nat) : (s.modAnvil k f).ctx d = s.ctx d := rfl
@[simp] theorem State.link_modAnvil (s : State) (k : Nat) (f : Anvil → Anvil) (m : Link) : (s.modAnvil k f).link m = s.link m := rfl
@[simp] theorem State.bank_modAnvil (s : State) (k : Nat) (f : Anvil → Anvil) (i : Nat) : (s.modAnvil k f).bank i = s.bank i := rfl
@[simp] theorem State.ring_modAnvil (s : State) (k : Nat) (f : Anvil → Anvil) (m : Nat) : (s.modAnvil k f).ring m = s.ring m := rfl
@[simp] theorem State.queue_modAnvil (s : State) (k : Nat) (f : Anvil → Anvil) (u q : Nat) : (s.modAnvil k f).queue u q = s.queue u q := rfl
@[simp] theorem State.ctxOf_modAnvil (s : State) (k : Nat) (f : Anvil → Anvil) (u : Nat) : (s.modAnvil k f).ctxOf u = s.ctxOf u := rfl
@[simp] theorem State.byte_modDev (s : State) (f : Device → Device) (a : Nat) : (s.modDev f).byte a = s.byte a := rfl
@[simp] theorem State.isFull_modDev (s : State) (f : Device → Device) (a : Nat) : (s.modDev f).isFull a = s.isFull a := rfl
@[simp] theorem State.tile_modDev (s : State) (f : Device → Device) (u : Nat) : (s.modDev f).tile u = s.tile u := rfl
@[simp] theorem State.tc_modDev (s : State) (f : Device → Device) (u : Nat) : (s.modDev f).tc u = s.tc u := rfl
@[simp] theorem State.hart_modDev (s : State) (f : Device → Device) (g : HartId) : (s.modDev f).hart g = s.hart g := rfl
@[simp] theorem State.ctx_modDev (s : State) (f : Device → Device) (d : Nat) : (s.modDev f).ctx d = s.ctx d := rfl
@[simp] theorem State.link_modDev (s : State) (f : Device → Device) (m : Link) : (s.modDev f).link m = s.link m := rfl
@[simp] theorem State.bank_modDev (s : State) (f : Device → Device) (i : Nat) : (s.modDev f).bank i = s.bank i := rfl
@[simp] theorem State.ring_modDev (s : State) (f : Device → Device) (m : Nat) : (s.modDev f).ring m = s.ring m := rfl
@[simp] theorem State.anvil_modDev (s : State) (f : Device → Device) (j : Nat) : (s.modDev f).anvil j = s.anvil j := rfl
@[simp] theorem State.queue_modDev (s : State) (f : Device → Device) (u q : Nat) : (s.modDev f).queue u q = s.queue u q := rfl
@[simp] theorem State.ctxOf_modDev (s : State) (f : Device → Device) (u : Nat) : (s.modDev f).ctxOf u = s.ctxOf u := rfl
@[simp] theorem State.isFull_setByte (s : State) (pa : Nat) (v : Byte) (a : Nat) : (s.setByte pa v).isFull a = s.isFull a := rfl
@[simp] theorem State.tile_setByte (s : State) (pa : Nat) (v : Byte) (u : Nat) : (s.setByte pa v).tile u = s.tile u := rfl
@[simp] theorem State.tc_setByte (s : State) (pa : Nat) (v : Byte) (u : Nat) : (s.setByte pa v).tc u = s.tc u := rfl
@[simp] theorem State.hart_setByte (s : State) (pa : Nat) (v : Byte) (g : HartId) : (s.setByte pa v).hart g = s.hart g := rfl
@[simp] theorem State.ctx_setByte (s : State) (pa : Nat) (v : Byte) (d : Nat) : (s.setByte pa v).ctx d = s.ctx d := rfl
@[simp] theorem State.link_setByte (s : State) (pa : Nat) (v : Byte) (m : Link) : (s.setByte pa v).link m = s.link m := rfl
@[simp] theorem State.bank_setByte (s : State) (pa : Nat) (v : Byte) (i : Nat) : (s.setByte pa v).bank i = s.bank i := rfl
@[simp] theorem State.ring_setByte (s : State) (pa : Nat) (v : Byte) (m : Nat) : (s.setByte pa v).ring m = s.ring m := rfl
@[simp] theorem State.anvil_setByte (s : State) (pa : Nat) (v : Byte) (j : Nat) : (s.setByte pa v).anvil j = s.anvil j := rfl
@[simp] theorem State.queue_setByte (s : State) (pa : Nat) (v : Byte) (u q : Nat) : (s.setByte pa v).queue u q = s.queue u q := rfl
@[simp] theorem State.ctxOf_setByte (s : State) (pa : Nat) (v : Byte) (u : Nat) : (s.setByte pa v).ctxOf u = s.ctxOf u := rfl
@[simp] theorem State.byte_setFull (s : State) (pa : Nat) (b : Bool) (a : Nat) : (s.setFull pa b).byte a = s.byte a := rfl
@[simp] theorem State.tile_setFull (s : State) (pa : Nat) (b : Bool) (u : Nat) : (s.setFull pa b).tile u = s.tile u := rfl
@[simp] theorem State.tc_setFull (s : State) (pa : Nat) (b : Bool) (u : Nat) : (s.setFull pa b).tc u = s.tc u := rfl
@[simp] theorem State.hart_setFull (s : State) (pa : Nat) (b : Bool) (g : HartId) : (s.setFull pa b).hart g = s.hart g := rfl
@[simp] theorem State.ctx_setFull (s : State) (pa : Nat) (b : Bool) (d : Nat) : (s.setFull pa b).ctx d = s.ctx d := rfl
@[simp] theorem State.link_setFull (s : State) (pa : Nat) (b : Bool) (m : Link) : (s.setFull pa b).link m = s.link m := rfl
@[simp] theorem State.bank_setFull (s : State) (pa : Nat) (b : Bool) (i : Nat) : (s.setFull pa b).bank i = s.bank i := rfl
@[simp] theorem State.ring_setFull (s : State) (pa : Nat) (b : Bool) (m : Nat) : (s.setFull pa b).ring m = s.ring m := rfl
@[simp] theorem State.anvil_setFull (s : State) (pa : Nat) (b : Bool) (j : Nat) : (s.setFull pa b).anvil j = s.anvil j := rfl
@[simp] theorem State.queue_setFull (s : State) (pa : Nat) (b : Bool) (u q : Nat) : (s.setFull pa b).queue u q = s.queue u q := rfl
@[simp] theorem State.ctxOf_setFull (s : State) (pa : Nat) (b : Bool) (u : Nat) : (s.setFull pa b).ctxOf u = s.ctxOf u := rfl

@[simp] theorem State.anvil_setAnvil_self (s : State) (k : Nat) (x : Anvil) : (s.setAnvil k x).anvil k = x := by
  simp [State.setAnvil, State.anvil]
@[simp] theorem State.anvil_modAnvil_self (s : State) (k : Nat) (f : Anvil → Anvil) : (s.modAnvil k f).anvil k = f (s.anvil k) := by
  simp [State.modAnvil]
@[simp] theorem State.ring_setRing_self (s : State) (n : Nat) (x : Ring) : (s.setRing n x).ring n = x := by
  simp [State.setRing, State.ring]
@[simp] theorem State.link_setLink_self (s : State) (l : Link) (x : LinkRec) : (s.setLink l x).link l = x := by
  simp [State.setLink, State.link]
@[simp] theorem State.bank_setBank_self (s : State) (b : Nat) (x : Bank) : (s.setBank b x).bank b = x := by
  simp [State.setBank, State.bank]

/-! ### What was written is read -/

theorem State.tile_setTile (s : State) (t u : Nat) (x : Tile) :
    (s.setTile t x).tile u = if u = t then x else s.tile u := SMap.get_put _ _ _ _ _
@[simp] theorem State.tile_setTile_self (s : State) (t : Nat) (x : Tile) : (s.setTile t x).tile t = x := by
  simp [State.tile_setTile]
theorem State.tile_setTile_other (s : State) (t u : Nat) (x : Tile) (h : u ≠ t) :
    (s.setTile t x).tile u = s.tile u := by simp [State.tile_setTile, h]

theorem State.tc_setTc (s : State) (t u : Nat) (x : TileCtx) :
    (s.setTc t x).tc u = if u = t then x else s.tc u := by
  unfold State.setTc State.tc; rw [State.tile_setTile]; split <;> rfl
@[simp] theorem State.tc_setTc_self (s : State) (t : Nat) (x : TileCtx) : (s.setTc t x).tc t = x := by
  simp [State.tc_setTc]
@[simp] theorem State.tc_modTc_self (s : State) (t : Nat) (f : TileCtx → TileCtx) : (s.modTc t f).tc t = f (s.tc t) := by
  simp [State.modTc]
theorem State.tc_modTc (s : State) (t u : Nat) (f : TileCtx → TileCtx) :
    (s.modTc t f).tc u = if u = t then f (s.tc t) else s.tc u := by simp [State.modTc, State.tc_setTc]

/-- What a change of a tile's context part leaves of every tile. -/
theorem State.tile_setTc (s : State) (t u : Nat) (x : TileCtx) :
    (s.setTc t x).tile u = if u = t then { s.tile t with ctx := x } else s.tile u := State.tile_setTile _ _ _ _
@[simp] theorem State.owner_setTc (s : State) (t u : Nat) (x : TileCtx) :
    ((s.setTc t x).tile u).owner = (s.tile u).owner := by
  rw [State.tile_setTc]; split
  · subst_vars; rfl
  · rfl
@[simp] theorem State.ctxOf_setTc (s : State) (t u : Nat) (x : TileCtx) : (s.setTc t x).ctxOf u = s.ctxOf u := by
  simp [State.ctxOf]
@[simp] theorem State.ctileOf_setTc (s : State) (t u : Nat) (x : TileCtx) : (s.setTc t x).ctileOf u = s.ctileOf u := by
  simp [State.ctileOf]
@[simp] theorem State.ctxOf_modTc (s : State) (t u : Nat) (f : TileCtx → TileCtx) : (s.modTc t f).ctxOf u = s.ctxOf u := by
  simp [State.modTc]
@[simp] theorem State.ctxOf_modHart (s : State) (h : HartId) (f : Hart → Hart) (u : Nat) :
    (s.modHart h f).ctxOf u = s.ctxOf u := by simp [State.modHart, State.setHart]

@[simp] theorem TileCtx.hart_setHart_self (c : TileCtx) (mv : Bool) (x : Hart) : (c.setHart mv x).hart mv = x := by
  cases mv <;> rfl
theorem TileCtx.hart_setHart (c : TileCtx) (mv mw : Bool) (x : Hart) :
    (c.setHart mv x).hart mw = if mw = mv then x else c.hart mw := by cases mv <;> cases mw <;> rfl

@[simp] theorem State.hart_setHart_self (s : State) (h : HartId) (x : Hart) : (s.setHart h x).hart h = x := by
  simp [State.setHart, State.hart]
theorem State.hart_setHart (s : State) (h g : HartId) (x : Hart) :
    (s.setHart h x).hart g = if g = h then x else s.hart g := by
  obtain ⟨t, m⟩ := h; obtain ⟨u, n⟩ := g
  by_cases hu : u = t
  · subst hu; simp [State.setHart, State.hart, TileCtx.hart_setHart]
  · simp [State.setHart, State.hart, State.tc_modTc, hu]
@[simp] theorem State.hart_modHart_self (s : State) (h : HartId) (f : Hart → Hart) :
    (s.modHart h f).hart h = f (s.hart h) := by simp [State.modHart]
theorem State.hart_modHart (s : State) (h g : HartId) (f : Hart → Hart) :
    (s.modHart h f).hart g = if g = h then f (s.hart h) else s.hart g := by simp [State.modHart, State.hart_setHart]
theorem State.hart_modHart_other (s : State) (h g : HartId) (f : Hart → Hart) (hg : g ≠ h) :
    (s.modHart h f).hart g = s.hart g := by simp [State.hart_modHart, hg]

@[simp] theorem State.hart_retire_self (s : State) (h : HartId) (pc : Word) :
    (s.retire h pc).hart h = { s.hart h with pc := pc, instret := (s.hart h).instret + 1, run := .running, tmpl := [] } := by
  simp [State.retire]

/-! ### The later of two writes is the one that stands -/

@[simp] theorem State.setTile_setTile (s : State) (t : Nat) (x y : Tile) : (s.setTile t x).setTile t y = s.setTile t y := by
  simp [State.setTile]
@[simp] theorem State.setTc_setTc (s : State) (t : Nat) (x y : TileCtx) : (s.setTc t x).setTc t y = s.setTc t y := by
  simp [State.setTc]
@[simp] theorem State.modTc_modTc (s : State) (t : Nat) (f g : TileCtx → TileCtx) :
    (s.modTc t f).modTc t g = s.modTc t (fun c => g (f c)) := by simp [State.modTc]
@[simp] theorem TileCtx.setHart_setHart (c : TileCtx) (mv : Bool) (x y : Hart) :
    (c.setHart mv x).setHart mv y = c.setHart mv y := by cases mv <;> rfl
@[simp] theorem State.setHart_setHart (s : State) (h : HartId) (x y : Hart) : (s.setHart h x).setHart h y = s.setHart h y := by
  simp [State.setHart]

/-- A register but x0 reads what was written to it; x0 reads zero and a write of it does nothing (R54). -/
theorem Hart.readX_writeX (x : Hart) (r q : Reg) (v : Word) :
    (x.writeX r v).readX q = if q = 0 then 0 else if q = r then v else x.readX q := by
  unfold Hart.readX Hart.writeX
  by_cases hq : q = 0
  · rw [if_pos hq, if_pos hq]
  · rw [if_neg hq, if_neg hq, if_neg hq]
    by_cases hr : r = 0
    · rw [if_pos hr, if_neg (fun h => hq (h.trans hr))]
    · rw [if_neg hr]
      by_cases h : q = r
      · subst h; rw [if_pos rfl]; exact SMap.get_set_self _ _ _ _
      · rw [if_neg h]
        exact SMap.get_set_other _ _ _ _ _ (fun e => h (BitVec.eq_of_toNat_eq e))

@[simp] theorem State.readX_retire (s : State) (h g : HartId) (pc : Word) (r : Reg) :
    (s.retire h pc).readX g r = s.readX g r := by
  unfold State.readX State.retire; rw [State.hart_modHart]; split
  · subst_vars; rfl
  · rfl
theorem State.readX_writeX (s : State) (h : HartId) (r q : Reg) (v : Word) :
    (s.writeX h r v).readX h q = if q = 0 then 0 else if q = r then v else s.readX h q := by
  simp [State.readX, State.writeX, Hart.readX_writeX]
theorem State.readX_result (s : State) (h : HartId) (r q : Reg) (v : Word) :
    (s.result h r v).readX h q = if q = 0 then 0 else if q = r then v else s.readX h q := by
  simp [State.result, State.readX_writeX]

@[simp] theorem Hart.readX_zero (x : Hart) : x.readX 0 = 0 := rfl
@[simp] theorem Hart.writeX_zero (x : Hart) (v : Word) : x.writeX 0 v = x := rfl

theorem Hart.readF_writeF (x : Hart) (r q : Reg) (v : Word32) :
    (x.writeF r v).readF q = if q = r then v else x.readF q := by
  unfold Hart.readF Hart.writeF
  by_cases h : q = r
  · subst h; simp
  · have : q.toNat ≠ r.toNat := fun e => h (BitVec.eq_of_toNat_eq e)
    simp [h, SMap.get_set_other _ _ _ _ _ this]

/-- What a write of an x register leaves of its hart. -/
theorem Hart.writeX_other (x : Hart) (r : Reg) (v : Word) :
    ∃ m, x.writeX r v = { x with x := m } := by
  unfold Hart.writeX; split
  · exact ⟨x.x, rfl⟩
  · exact ⟨_, rfl⟩

@[simp] theorem Hart.writeX_pc (x : Hart) (r : Reg) (v : Word) : (x.writeX r v).pc = x.pc := by
  unfold Hart.writeX; split <;> rfl
@[simp] theorem Hart.writeX_f (x : Hart) (r : Reg) (v : Word) : (x.writeX r v).f = x.f := by
  unfold Hart.writeX; split <;> rfl
@[simp] theorem Hart.writeX_ctxstat (x : Hart) (r : Reg) (v : Word) : (x.writeX r v).ctxstat = x.ctxstat := by
  unfold Hart.writeX; split <;> rfl
@[simp] theorem Hart.writeX_instret (x : Hart) (r : Reg) (v : Word) : (x.writeX r v).instret = x.instret := by
  unfold Hart.writeX; split <;> rfl

/-! ### Contexts -/

theorem State.ctx_setCtx (s : State) (c d : Nat) (x : Context) :
    (s.setCtx c x).ctx d = if d = c then x else s.ctx d := SMap.get_put _ _ _ _ _
@[simp] theorem State.ctx_setCtx_self (s : State) (c : Nat) (x : Context) : (s.setCtx c x).ctx c = x := by
  simp [State.ctx_setCtx]
@[simp] theorem State.ctx_modCtx_self (s : State) (c : Nat) (f : Context → Context) : (s.modCtx c f).ctx c = f (s.ctx c) := by
  simp [State.modCtx]
theorem State.ctx_modCtx (s : State) (c d : Nat) (f : Context → Context) :
    (s.modCtx c f).ctx d = if d = c then f (s.ctx c) else s.ctx d := by simp [State.modCtx, State.ctx_setCtx]

/-! ### Queues -/

@[simp] theorem TileCtx.queue_setQueue_self (c : TileCtx) (q : Nat) (x : CmdQueue) : (c.setQueue q x).queue q = x := by
  unfold TileCtx.setQueue TileCtx.queue; split <;> [skip; split] <;> simp_all
@[simp] theorem TileCtx.setQueue_main (c : TileCtx) (q : Nat) (x : CmdQueue) : (c.setQueue q x).main = c.main := by
  unfold TileCtx.setQueue; split <;> [skip; split] <;> rfl
@[simp] theorem TileCtx.setQueue_move (c : TileCtx) (q : Nat) (x : CmdQueue) : (c.setQueue q x).move = c.move := by
  unfold TileCtx.setQueue; split <;> [skip; split] <;> rfl
@[simp] theorem TileCtx.hart_modQueue (c : TileCtx) (q : Nat) (f : CmdQueue → CmdQueue) (mv : Bool) :
    (c.modQueue q f).hart mv = c.hart mv := by cases mv <;> simp [TileCtx.modQueue, TileCtx.hart]

@[simp] theorem State.hart_modEntry (s : State) (t q n : Nat) (f : Entry → Entry) (h : HartId) :
    (s.modEntry t q n f).hart h = s.hart h := by
  obtain ⟨u, m⟩ := h
  simp only [State.modEntry, State.hart, State.tc_modTc]
  split
  · subst_vars; simp
  · rfl

end Sys2Proof.Machine
end

