-- ==== Sys2Proof/Laws/Ops.lean ====
section
/-! SUPPORT. What the shared operations do, said once: how the run of a hart instruction, a command and a request ends for
each way its body ends, what a command's start does, and the small checks. -/

namespace Sys2Proof.Machine

open Sys2Proof.Claims

/-! ## The monad of bodies -/

theorem M.bind_ok {α β : Type} {m : M α} {f : α → M β} {s t : State} {a : α} (h : m s = .ok a t) :
    (m >>= f) s = f a t := by
  show EStateM.bind m f s = _
  simp [EStateM.bind, h]

theorem M.bind_error {α β : Type} {m : M α} {f : α → M β} {s t : State} {e : Exc} (h : m s = .error e t) :
    (m >>= f) s = .error e t := by
  show EStateM.bind m f s = _
  simp [EStateM.bind, h]

theorem M.bind_run {α β : Type} (m : M α) (f : α → M β) (s : State) :
    (m >>= f) s = match m s with | .ok a t => f a t | .error e t => .error e t := by
  show EStateM.bind m f s = _
  unfold EStateM.bind
  cases m s <;> rfl

theorem M.map_run {α β : Type} (m : M α) (f : α → β) (s : State) :
    (f <$> m) s = match m s with | .ok a t => .ok (f a) t | .error e t => .error e t := by
  show EStateM.map f m s = _
  unfold EStateM.map
  cases m s <;> rfl

@[simp] theorem M.pure_run {α : Type} (a : α) (s : State) : (pure a : M α) s = .ok a s := rfl

@[simp] theorem M.get_run (s : State) : (get : M State) s = .ok s s := rfl

@[simp] theorem M.set_run (s t : State) : (set t : M PUnit) s = .ok () t := rfl

@[simp] theorem M.throw_run {α : Type} (e : Exc) (s : State) : (throw e : M α) s = .error e s := rfl

@[simp] theorem upd_run (f : State → State) (s : State) : upd f s = .ok () (f s) := rfl

@[simp] theorem modifyGet_run {α : Type} (f : State → α × State) (s : State) :
    (modifyGet f : M α) s = .ok (f s).1 (f s).2 := rfl

theorem need_run (b : Bool) (e : Exc) (s : State) : need b e s = if b then .ok () s else .error e s := by
  cases b <;> rfl

@[simp] theorem need_true (e : Exc) (s : State) : need true e s = .ok () s := rfl

@[simp] theorem need_false (e : Exc) (s : State) : need false e s = .error e s := rfl

/-! ## Harts -/

/-- An instruction whose body has its effect retires at the next pc. -/
theorem hartStep_ok {h : HartId} {body : M Unit} {s t : State} (hb : body s = .ok () t) :
    hartStep h body s = .next (t.retire h ((s.hart h).pc + 4)) := by
  simp [hartStep, hartEnd, M.bind_ok hb]

/-- An instruction whose body traps takes the trap where its reads have left the state. -/
theorem hartStep_trap {h : HartId} {body : M Unit} {s t : State} {code detail : Nat} {v : Word}
    (hb : body s = .error (.trap code detail v) t) :
    hartStep h body s = .next (t.takeTrap h false code detail v) := by
  simp [hartStep, hartEnd, M.bind_error hb]

/-- An instruction whose body waits does so where its reads have left the state. -/
theorem hartStep_wait {h : HartId} {body : M Unit} {s t : State} {w : Wait} (hb : body s = .error (.wait w) t) :
    hartStep h body s = .next (t.setWait h w) := by
  simp [hartStep, hartEnd, M.bind_error hb]

theorem hartJump_ok {h : HartId} {body : M Word} {s t : State} {pc : Word} (hb : body s = .ok pc t) :
    hartJump h body s = .next (t.retire h pc) := by
  simp [hartJump, hartEnd, M.bind_ok hb]

theorem hartJump_trap {h : HartId} {body : M Word} {s t : State} {code detail : Nat} {v : Word}
    (hb : body s = .error (.trap code detail v) t) :
    hartJump h body s = .next (t.takeTrap h false code detail v) := by
  simp [hartJump, hartEnd, M.bind_error hb]

/-- Nothing is repaired where nothing was read. -/
@[simp] theorem keepFresh_self (s : State) (c : Option Nat) : s.keepFresh s c = s := by
  have hn : s.newEvents s = [] := by simp [State.newEvents]
  simp [State.keepFresh, State.lostLines, hn]

/-! ## Machine-mode registers -/

@[simp] theorem Hart.mreg_setMreg_self (x : Hart) (csr : Nat) (v : Word) : (x.setMreg csr v).mreg csr = v := by
  simp [Hart.mreg, Hart.setMreg]
theorem Hart.mreg_setMreg_other (x : Hart) (a b : Nat) (v : Word) (h : b ≠ a) : (x.setMreg a v).mreg b = x.mreg b := by
  have hk : ∀ d e : Word, SMap.get d (SMap.set e x.mcsr a v) b = SMap.get d x.mcsr b := by
    intro d e
    unfold SMap.set
    split
    · simp [SMap.get, SMap.find?_filter_ne, h]
    · exact SMap.get_put_other _ _ _ _ _ h
  exact hk _ _
@[simp] theorem Hart.setMreg_pc (x : Hart) (csr : Nat) (v : Word) : (x.setMreg csr v).pc = x.pc := rfl
@[simp] theorem Hart.setMreg_x (x : Hart) (csr : Nat) (v : Word) : (x.setMreg csr v).x = x.x := rfl

/-! ## Commands -/

theorem State.pick_eta {s : State} (h : s.pick = none) : { s with pick := none } = s := by
  cases s; simp only [State.mk.injEq, true_and]; exact ⟨h.symm, trivial⟩

/-- A command that is not picked is run whole. -/
theorem only_of_canStart {op : Nat} {c : Cmd} {s : State} {r : Run} (h : CanStart op c s r) : r.only = false := by
  obtain ⟨h0, h1, _⟩ := h
  unfold State.runOf at h1
  simp only [h0] at h1
  split at h1
  · cases h1
  · split at h1
    · injection h1 with h1; subst h1; rfl
    · cases h1

/-- A command that is not picked handles no single word. -/
theorem word_of_canStart {op : Nat} {c : Cmd} {s : State} {r : Run} (h : CanStart op c s r) : r.word = none := by
  obtain ⟨h0, h1, _⟩ := h
  unfold State.runOf at h1
  simp only [h0] at h1
  split at h1
  · cases h1
  · split at h1
    · injection h1 with h1; subst h1; rfl
    · cases h1

/-- A running context's engines work on every entry. -/
theorem engineWorks_running {s : State} {t q : Nat} {e : Entry} (h : (s.ctx (s.ctxOf t)).st = .running) :
    s.engineWorks t q e = true := by
  simp [State.engineWorks, h]

/-- A command that starts and whose body has its effect, whole or in part. -/
theorem runCommand_ok {op : Nat} {c : Cmd} {body : Run → M Bool} {s t : State} {r : Run} {fin : Bool}
    (h : CanStart op c s r) (hb : body r s = .ok fin t) :
    runCommand op c body s = .next (if fin then finished r t else ongoing r t) := by
  have hw := word_of_canStart h
  obtain ⟨h0, h1, h2, h3⟩ := h
  simp only [runCommand, State.pick_eta h0, h1, engineWorks_running h2, h3, hb, hw]
  cases fin <;> rfl

/-- A command whose body faults is recorded in its queue. -/
theorem runCommand_fault {op : Nat} {c : Cmd} {body : Run → M Bool} {s t : State} {r : Run} {code detail addr : Nat}
    (h : CanStart op c s r) (hb : body r s = .error (.fault code detail addr) t) :
    runCommand op c body s = .next (
      let u := t.modTc r.t (fun c => c.recordFault r.q r.e code detail addr t.clk)
      if leasing r.e.w then u.leaseUsed r.t else u) := by
  have hw := word_of_canStart h
  obtain ⟨h0, h1, h2, h3⟩ := h
  simp only [runCommand, State.pick_eta h0, h1, engineWorks_running h2, h3, hb, hw]
  rfl

/-- A command that is only started leaves the state that its start makes. -/
theorem runCommand_begun {op : Nat} {c : Cmd} {body : Run → M Bool} {s t : State} {r : Run}
    (h : CanStart op c s r) (hb : body r s = .error .begun t) : runCommand op c body s = .next (ongoing r t) := by
  have hw := word_of_canStart h
  obtain ⟨h0, h1, h2, h3⟩ := h
  simp only [runCommand, State.pick_eta h0, h1, engineWorks_running h2, h3, hb, hw]
  rfl

/-- A command that is held stays at the head of its stream. -/
theorem runCommand_hold {op : Nat} {c : Cmd} {body : Run → M Bool} {s t : State} {r : Run} {why : Nat}
    (h : CanStart op c s r) (hb : body r s = .error (.hold why) t) :
    runCommand op c body s = .next ((s.keepFresh t (some (s.ctxOf r.t))).holdCommand r why) := by
  have hw := word_of_canStart h
  obtain ⟨h0, h1, h2, h3⟩ := h
  simp only [runCommand, State.pick_eta h0, h1, engineWorks_running h2, h3, hb, hw]
  rfl

/-- Without slots a start reserves nothing. -/
theorem begin_none {r : Run} {s : State} (ho : r.only = false) (h : RangeFree s r) : begin r none [] s = .ok () s := by
  simp only [RangeFree] at h
  by_cases hr : r.e.st = .running <;> simp [begin, demandChecks, takeSlots, M.bind_run, need_run, h, ho, hr]

theorem begin_fill {r : Run} {s : State} {d n : Nat} (ho : r.only = false) (h : SlotsFree s r d n) :
    begin r (some (d, n)) [] s = .ok () (reserved r d n s) := by
  obtain ⟨h0, h1, h2⟩ := h
  simp only [RangeFree] at h1
  have h3 : n ≤ 16 := by omega
  simp [begin, demandChecks, takeSlots, M.bind_run, need_run, h0, h1, h2, h3, ho, reserved]

theorem begin_pop {r : Run} {s : State} {d n : Nat} (ho : r.only = false) (h : SlotsFull s r d n) :
    begin r none [(d, n)] s = .ok () (claiming r d n s) := by
  obtain ⟨h0, h1, h2, h3, h4⟩ := h
  simp only [RangeFree] at h1
  have h5 : ¬ 16 < n := by omega
  simp [begin, demandChecks, takeSlots, M.bind_run, need_run, h0, h1, h3, h4, h5, ho, claiming]

theorem checkReserved_ok {c : Cmd} {l : List (Nat × Nat)} {s : State} (h : reservedBit c l = none) :
    checkReserved c l s = .ok () s := by
  simp [checkReserved, h]

theorem claimed_run (r : Run) (d : Nat) (s : State) : claimed r d s = .ok (owned r d s) s := by
  simp [claimed, owned, M.bind_run]

theorem checkSlots_ok {d f : Nat} {s : State} {l : List Slot}
    (h : ∀ x ∈ l, x.side.getLsbD 28 = false ∧ field x.side 8 4 = f) : checkSlots d (some f) l s = .ok () s := by
  induction l with
  | nil => rfl
  | cons x l ih =>
    obtain ⟨h1, h2⟩ := h x (by simp)
    simp only [checkSlots, h1, h2]
    simp [M.bind_run, ih (fun y hy => h y (by simp [hy]))]

theorem releaseClaims_run (r : Run) (s : State) : releaseClaims r s = .ok () (released r s) := rfl

/-- A register-form vector command executes where its conditions hold. -/
theorem vBody_ok {op : Nat} {f : VForm} {c : Cmd} {s : State} {r : Run} {g : TileCtx → TileCtx}
    (h : VectorReady op f c s r) : vBody f c g r s = .ok true (s.modTc r.t g) := by
  obtain ⟨h0, h1, ⟨h2, h3⟩, h4, h5, h6⟩ := h
  have h7 : vRangeBad f.size c = false := by simp [vRangeBad, h2]; omega
  simp [vBody, vChecks, M.bind_run, M.map_run, checkReserved_ok h1, h7, h4, h5, begin_none (only_of_canStart h0) h6]

theorem runVector_ok {op : Nat} {f : VForm} {c : Cmd} {s : State} {r : Run} {g : TileCtx → TileCtx}
    (h : VectorReady op f c s r) : runCommand op c (vBody f c g) s = .next (finished r (s.modTc r.t g)) := by
  rw [runCommand_ok h.1 (vBody_ok h)]; rfl

/-- A step that writes one word of a command leaves what its body does where the word is written. -/
theorem runWord_begun {body : Run → M Bool} {r : Run} {s t : State} (hb : body r s = .error .begun t) : runWord body r s = t := by
  simp [runWord, hb]

/-! ## Words that a command has handled before (R100) -/

/-- A command that has read no word before reads memory. -/
theorem wordGet_unseen {r : Run} (hs : r.e.prog.seen = []) (hw : r.word = none) (get : Nat → Nat → M Nat) : wordGet r get = get := by
  funext va n
  simp [wordGet, hs, hw, SMap.find?]

/-- Of a word that it has read before it takes what it read then. -/
theorem wordGet_seen {r : Run} {va n : Nat} {w : Word} (h8 : va % 8 + n ≤ 8) (hs : SMap.find? r.e.prog.seen (va / 8) = some w)
    (get : Nat → Nat → M Nat) : wordGet r get va n = pure (wordPart w (va % 8) n) := by
  simp [wordGet, Nat.not_lt.mpr h8, hs]

/-- A command that has written no word before writes every word. -/
theorem writes_unput {r : Run} (hp : r.e.prog.puts = []) (hw : r.word = none) (va : Nat) : r.writes va = true := by
  simp [Run.writes, hp, hw]

/-- A word that it has written before is left. -/
theorem enginePut_done {r : Run} {copy : Bool} {va n v : Nat} {s : State} (h : r.writes va = false) :
    enginePut r copy va n v s = .ok () s := by
  simp [enginePut, h]

/-! ## Requests -/

/-- A request with a reserved bit set is malformed. -/
theorem runRequest_malformed {op : Nat} {r : Request} {body : Nat → State → Answer} {s : State} (h : r.rsv ≠ 0) :
    runRequest op r body s = .next (answered s op r 1 0 (taken s)) := by
  simp only [runRequest, if_pos h]
  rfl

theorem runRequest_answer {op : Nat} {r : Request} {body : Nat → State → Answer} {s t : State} {st : Nat} {v : Word}
    (h : r.rsv = 0) (hb : body s.ringNumber (taken s) = (t, some (st, v))) :
    runRequest op r body s = .next (answered s op r st v t) := by
  simp only [taken] at hb
  simp [runRequest, h, hb, answered]

theorem runRequest_later {op : Nat} {r : Request} {body : Nat → State → Answer} {s t : State}
    (h : r.rsv = 0) (hb : body s.ringNumber (taken s) = (t, none)) : runRequest op r body s = .next t := by
  simp only [taken] at hb
  simp [runRequest, h, hb]

theorem runOnContext_answer {op : Nat} {r : Request} {ok : Context → Bool} {body : Nat → State → Answer} {s t : State}
    {st : Nat} {v : Word} (h : Accepts r ok s) (hb : body s.ringNumber (takenFor r s) = (t, some (st, v))) :
    runOnContext op r ok body s = .next (answered s op r st v t) := by
  obtain ⟨h1, h2, h3⟩ := h
  simp only [takenFor] at hb
  exact runRequest_answer h1 (by simp [Nat.not_le.mpr h2, h3, hb])

theorem runOnContext_later {op : Nat} {r : Request} {ok : Context → Bool} {body : Nat → State → Answer} {s t : State}
    (h : Accepts r ok s) (hb : body s.ringNumber (takenFor r s) = (t, none)) : runOnContext op r ok body s = .next t := by
  obtain ⟨h1, h2, h3⟩ := h
  simp only [takenFor] at hb
  exact runRequest_later h1 (by simp [Nat.not_le.mpr h2, h3, hb])

end Sys2Proof.Machine
end

