-- ==== Sys2Proof/Laws/Access.lean ====
section
/-! SUPPORT. What the address checks and accesses of harts do, said once: an address that is readable or writable passes
them, an address that is not traps, and a line that no command holds is not waited for. -/

namespace Sys2Proof.Machine

open Sys2Proof.Claims

variable {h : HartId} {s t : State} {l : Leaf} {va : Word}

/-! ## Jumps -/

theorem jumpTo_ok {v : Word} (hv : v.toNat % 4 = 0) : jumpTo v s = .ok v s := by
  simp [jumpTo, M.bind_run, need_run, hv]

theorem jumpTo_trap {v : Word} (hv : v.toNat % 4 ≠ 0) : jumpTo v s = .error (.trap 0 0 v) s := by
  simp [jumpTo, M.bind_run, need_run, hv]

/-! ## Addresses -/

theorem hartLeaf_ok {n : Nat} {store : Bool} (hr : Readable s h n va l t) : hartLeaf h store n va s = .ok l t := by
  obtain ⟨h1, h2, h3, h4⟩ := hr
  replace h2 : va.toNat < 4503599627370496 := h2
  simp [hartLeaf, M.bind_run, M.map_run, need_run, h1, h2, h3, h4]

theorem hartLeaf_misaligned {n : Nat} {store : Bool} (h1 : va.toNat % n ≠ 0) :
    hartLeaf h store n va s = .error (.trap (4 + if store then 2 else 0) 0 va) s := by
  simp [hartLeaf, M.bind_run, need_run, h1]

theorem hartLeaf_beyond {n : Nat} {store : Bool} (h1 : va.toNat % n = 0) (h2 : 2 ^ 52 ≤ va.toNat) :
    hartLeaf h store n va s = .error (.trap (5 + if store then 2 else 0) 0 va) s := by
  have h3 : ¬ va.toNat < 4503599627370496 := by omega
  simp [hartLeaf, M.bind_run, need_run, h1, h3]

theorem hartLeaf_unmapped {n k : Nat} {store : Bool} (h1 : va.toNat % n = 0) (h2 : va.toNat < 2 ^ 52)
    (h3 : s.translate h.tile (.hart h.move) (s.ctxOf h.tile) va.toNat = (t, .error k)) :
    hartLeaf h store n va s = .error (.trap (13 + if store then 2 else 0) k va) t := by
  replace h2 : va.toNat < 4503599627370496 := h2
  simp [hartLeaf, M.bind_run, need_run, h1, h2, h3]

theorem loadLeaf_ok {n : Nat} (hr : Readable s h n va l t) : loadLeaf h n va s = .ok l t := hartLeaf_ok hr

theorem movingWait_ok (hm : (t.ctx (t.ctxOf h.tile)).moving va.toNat = false) : movingWait h va t = .ok () t := by
  simp [movingWait, M.bind_run, need_run, hm]

theorem storeLeaf_ok {n : Nat} (hw : Writable s h n va l t) (hf : l.tier ≠ 2) : storeLeaf h n va s = .ok l t := by
  obtain ⟨h1, h2, h3⟩ := hw
  simp [storeLeaf, M.bind_run, M.map_run, need_run, hartLeaf_ok h1, h2, hf]

theorem taggedLeaf_read {store : Bool} (hr : Readable s h 8 va l t) (hs : l.tier = 0) :
    taggedLeaf h store false va s = .ok l t := by
  simp [taggedLeaf, M.bind_run, M.map_run, need_run, hartLeaf_ok hr, hs]

theorem taggedLeaf_write {store : Bool} (hw : Writable s h 8 va l t) (hs : l.tier = 0) :
    taggedLeaf h store true va s = .ok l t := by
  obtain ⟨h1, h2, h3⟩ := hw
  simp [taggedLeaf, M.bind_run, M.map_run, need_run, hartLeaf_ok h1, hs, h2]

theorem atomicLeaf_ok {n : Nat} (hw : Writable s h n va l t) (hs : l.tier ≤ 1) : atomicLeaf h n va s = .ok l t := by
  obtain ⟨h1, h2, h3⟩ := hw
  have h4 : l.tier = 0 ∨ l.tier = 1 := by omega
  simp [atomicLeaf, M.bind_run, M.map_run, need_run, hartLeaf_ok h1, h4, h2]

/-! ## Lines -/

/-- Where no entry conflicts a hart waits on none. -/
@[simp] theorem Hart.heldBy_nil (x : Hart) (va : Word) : x.heldBy va [] = [] := by
  unfold Hart.heldBy
  split
  · split
    · rfl
    · split <;> rfl
  all_goals rfl

theorem lineHolders_free {write : Bool} (hf : LineFree s h l write) :
    (if l.tier = 0 then (s.tc h.tile).lineHolders (l.pa / 64) write else []) = [] := by
  unfold LineFree TileCtx.lineHeld at hf
  split
  · simpa [*] using hf
  · rfl

theorem rangeWait_ok {write : Bool} (hf : LineFree s h l write) : rangeWait h va l write s = .ok () s := by
  have := lineHolders_free hf
  by_cases ht : l.tier = 0 <;> simp_all [rangeWait, M.bind_run, need_run]

/-- A running hart waits on every entry that conflicts. -/
theorem rangeWait_held {write : Bool} (hr : (s.hart h).run = .running) (hf : ¬ LineFree s h l write) :
    rangeWait h va l write s = .error (.wait (.range va ((s.tc h.tile).lineHolders (l.pa / 64) write))) s := by
  unfold LineFree TileCtx.lineHeld at hf
  simp only [Bool.and_eq_false_iff, not_or, decide_eq_false_iff_not, Decidable.not_not, Bool.not_eq_false'] at hf
  obtain ⟨h1, h2⟩ := hf
  simp only [rangeWait, M.bind_run, M.get_run, need_run, Hart.heldBy, hr, h1, if_true, h2, Bool.false_eq_true, if_false]

theorem accessWait_read (hf : LineFree s h l false) : accessWait h va l false s = .ok () s := by
  simp [accessWait, M.bind_run, rangeWait_ok hf]

theorem accessWait_write (hf : LineFree s h l true) (hm : (s.ctx (s.ctxOf h.tile)).moving va.toNat = false) :
    accessWait h va l true s = .ok () s := by
  simp [accessWait, M.bind_run, rangeWait_ok hf, movingWait_ok hm]

/-! ## Plain loads -/

theorem plainRead_ok {n : Nat} (hr : Readable s h n va l t) (hf : LineFree t h l false) :
    plainRead h n va s = .ok (t.cachedRead h.tile (t.ctxOf h.tile) l n).2 (t.cachedRead h.tile (t.ctxOf h.tile) l n).1 := by
  simp [plainRead, M.bind_run, loadLeaf_ok hr, rangeWait_ok hf]

theorem plainRead_error {n : Nat} {e : Exc} (hr : hartLeaf h false n va s = .error e t) : plainRead h n va s = .error e t := by
  simp [plainRead, M.bind_run, loadLeaf, hr]

/-! ## Atomics -/

theorem atomicOp_ok {n : Nat} {rd rs1 : Reg} {f : Nat → Nat} {res : Nat → Word}
    (hw : Writable s h n (s.readX h rs1) l t) (hs : l.tier ≤ 1) (hf : LineFree t h l true) :
    atomicOp h n rd rs1 f res s =
      .next (((t.atomic h.tile (t.ctxOf h.tile) l n f).1.writeX h rd
        (res (t.atomic h.tile (t.ctxOf h.tile) l n f).2)).retire h ((s.hart h).pc + 4)) := by
  rw [atomicOp]
  exact hartStep_ok (by simp [M.bind_run, atomicLeaf_ok hw hs, accessWait_write hf hw.2.2])

end Sys2Proof.Machine
end

