-- ==== Sys2Proof/Laws/Memory.lean ====
section
/-! SUPPORT. Laws of memory: a read after a write, what a write leaves alone, the canonical form, and what reads and
translations do where no line holds an upset. -/

namespace Sys2Proof.Machine

open Sys2Proof.Claims

/-! ## Bytes -/

theorem State.byte_setByte (s : State) (a b : Nat) (v : Byte) : (s.setByte a v).byte b = if b = a then v else s.byte b :=
  SMap.get_set _ _ _ _ _

@[simp] theorem State.byte_setByte_self (s : State) (a : Nat) (v : Byte) : (s.setByte a v).byte a = v := by
  simp [State.byte_setByte]

/-- A write of n bytes leaves every byte outside them. -/
theorem State.byte_rawWrite_other (s : State) (pa n v b : Nat) (h : b < pa ∨ pa + n ≤ b) :
    (s.rawWrite pa n v).byte b = s.byte b := by
  induction n generalizing s pa v with
  | zero => rfl
  | succ n ih =>
    rw [State.rawWrite, ih _ _ _ (by omega), State.byte_setByte, if_neg (by omega)]

/-- A read of n bytes depends on those bytes alone. -/
theorem State.rawRead_congr {s t : State} {pa n : Nat} (h : ∀ b, pa ≤ b → b < pa + n → t.byte b = s.byte b) :
    t.rawRead pa n = s.rawRead pa n := by
  induction n generalizing pa with
  | zero => rfl
  | succ n ih =>
    rw [State.rawRead, State.rawRead, h pa (by omega) (by omega), ih (fun b h1 h2 => h b (by omega) (by omega))]

/-- A read after a write to the same place gives the low n bytes written. -/
theorem State.rawRead_rawWrite (s : State) (pa n v : Nat) : (s.rawWrite pa n v).rawRead pa n = v % 256 ^ n := by
  induction n generalizing s pa v with
  | zero => simp [State.rawRead, Nat.mod_one]
  | succ n ih =>
    rw [State.rawWrite, State.rawRead, State.byte_rawWrite_other _ _ _ _ _ (by omega), State.byte_setByte_self, ih,
      BitVec.toNat_ofNat, show 256 ^ (n + 1) = 256 * 256 ^ n from Nat.pow_succ', Nat.mod_mul]

/-! ## Full/empty bits -/

theorem State.isFull_setFull (s : State) (a b : Nat) (f : Bool) :
    (s.setFull a f).isFull b = if b / 8 = a / 8 then f else s.isFull b := SMap.get_set _ _ _ _ _

@[simp] theorem State.isFull_setFull_self (s : State) (a : Nat) (f : Bool) : (s.setFull a f).isFull a = f := by
  simp [State.isFull_setFull]

/-! ## A write changes memory alone -/

theorem State.rawWrite_eq (s : State) (pa n v : Nat) : ∃ m, s.rawWrite pa n v = { s with mem := m } := by
  induction n generalizing s pa v with
  | zero => exact ⟨s.mem, rfl⟩
  | succ n ih => obtain ⟨m, hm⟩ := ih (s.setByte pa (BitVec.ofNat 8 v)) (pa + 1) (v / 256); exact ⟨m, hm⟩

section RawWrite
variable (s : State) (pa n v : Nat)
@[simp] theorem State.rawWrite_full : (s.rawWrite pa n v).full = s.full := by
  obtain ⟨m, h⟩ := s.rawWrite_eq pa n v; rw [h]
@[simp] theorem State.rawWrite_flips : (s.rawWrite pa n v).flips = s.flips := by
  obtain ⟨m, h⟩ := s.rawWrite_eq pa n v; rw [h]
@[simp] theorem State.rawWrite_held : (s.rawWrite pa n v).held = s.held := by
  obtain ⟨m, h⟩ := s.rawWrite_eq pa n v; rw [h]
@[simp] theorem State.rawWrite_tiles : (s.rawWrite pa n v).tiles = s.tiles := by
  obtain ⟨m, h⟩ := s.rawWrite_eq pa n v; rw [h]
@[simp] theorem State.rawWrite_ctxs : (s.rawWrite pa n v).ctxs = s.ctxs := by
  obtain ⟨m, h⟩ := s.rawWrite_eq pa n v; rw [h]
@[simp] theorem State.rawWrite_watches : (s.rawWrite pa n v).watches = s.watches := by
  obtain ⟨m, h⟩ := s.rawWrite_eq pa n v; rw [h]
@[simp] theorem State.rawWrite_banks : (s.rawWrite pa n v).banks = s.banks := by
  obtain ⟨m, h⟩ := s.rawWrite_eq pa n v; rw [h]
@[simp] theorem State.rawWrite_dev : (s.rawWrite pa n v).dev = s.dev := by
  obtain ⟨m, h⟩ := s.rawWrite_eq pa n v; rw [h]
end RawWrite

/-! ## The canonical form of memory -/

theorem State.wf_setByte {s : State} {pa : Nat} {v : Byte} (h : memoryOk s) : memoryOk (s.setByte pa v) :=
  SMap.wf_set _ _ _ _ h

theorem State.wf_rawWrite {s : State} {pa n v : Nat} (h : memoryOk s) : memoryOk (s.rawWrite pa n v) := by
  induction n generalizing s pa v with
  | zero => exact h
  | succ n ih => exact ih (State.wf_setByte h)

theorem State.wf_setCells {s : State} {pa n : Nat} {cells : SMap Byte} (h : memoryOk s) :
    memoryOk (s.setCells pa n cells) := by
  have : ∀ m : List Host.Cell, Memory.wf m = true →
      Memory.wf (cells.foldl (fun m p => SMap.set unlisted m (pa + p.1) p.2) m) = true := by
    induction cells with
    | nil => exact fun m hm => hm
    | cons p l ih => exact fun m hm => ih _ (SMap.wf_set _ _ _ _ hm)
  exact this _ (SMap.wf_filter _ _ _ h)

theorem State.wf_restart {s : State} {keep : Nat → Bool} (h : memoryOk s) : memoryOk (s.restart keep) :=
  SMap.wf_filter _ _ _ h

theorem State.wf_setFull {s : State} {pa : Nat} {b : Bool} (h : memoryOk s) : memoryOk (s.setFull pa b) := h

/-- A state whose memory is that of a canonical one is canonical. -/
theorem memoryOk_of_mem {s t : State} (h : memoryOk s) (hm : t.mem = s.mem) : memoryOk t := by
  unfold memoryOk; rw [hm]; exact h

/-! ## Where no line holds an upset -/

theorem State.lineFlips_quiet {s : State} (h : s.flips = []) (line : Nat) : (s.lineFlips line).all (· = 0) = true := by
  simp [State.lineFlips, h]

/-- A read repairs nothing and loses nothing where no line holds an upset. -/
theorem State.touch_quiet {s : State} (h : Quiet s) (c : Option Nat) (line : Nat) : s.touch c line = s := by
  obtain ⟨h1, h2⟩ := h
  simp [State.touch, State.lineFlips, h1, h2]

/-- A device that has counted unmapped accesses and logged them. -/
def Device.Counted (d e : Device) : Prop := ∃ k l o m, e = { d with unmapped := k, log := l, logOverflows := o, msix := m }

theorem Device.Counted.refl (d : Device) : d.Counted d := ⟨_, _, _, _, rfl⟩

theorem Device.Counted.trans {d e f : Device} (h : d.Counted e) (k : e.Counted f) : d.Counted f := by
  obtain ⟨_, _, _, _, rfl⟩ := h
  obtain ⟨a, b, c, m, rfl⟩ := k
  exact ⟨a, b, c, m, rfl⟩

/-- An unmapped access changes the device's counts and log alone. -/
theorem State.countUnmapped_counted (s : State) (c : Option Nat) (pa : Nat) :
    ∃ d, s.dev.Counted d ∧ s.countUnmapped c pa = { s with dev := d } := ⟨_, ⟨_, _, _, _, rfl⟩, rfl⟩

/-- The reads of a walk repair nothing where no line holds an upset: they only count tables that are not fitted. -/
theorem State.touchWalk_quiet {s : State} (h : Quiet s) (c va : Nat) (n level table : Nat) :
    ∃ d, s.dev.Counted d ∧ s.touchWalk c va n level table = { s with dev := d } := by
  induction n generalizing s level table with
  | zero => exact ⟨s.dev, .refl _, rfl⟩
  | succ n ih =>
    rw [State.touchWalk, State.touch_quiet h]
    split
    · split
      · exact ih h _ _
      · exact ⟨s.dev, .refl _, rfl⟩
    · obtain ⟨d, hd, he⟩ := s.countUnmapped_counted (some c) (table + 8 * levelIndex level va)
      rw [he]
      have hq : Quiet { s with dev := d } := h
      split
      · obtain ⟨e, hc, hw⟩ := ih hq (level + 1)
          (field (BitVec.ofNat 64 (State.peek { s with dev := d } (table + 8 * levelIndex level va) 8)) 14 40 * 2 ^ 14)
        exact ⟨e, hd.trans hc, hw⟩
      · exact ⟨d, hd, rfl⟩

/-- The device's own walk, likewise. -/
theorem State.deviceWalk_quiet {s : State} (h : Quiet s) (c va : Nat) :
    ∃ d, s.dev.Counted d ∧ s.deviceWalk c va = { s with dev := d } := State.touchWalk_quiet h _ _ _ _ _

/-- What a translation by tile t may change where no line holds an upset: the tile's cached translations, the number of free values
drawn, and the count and log of unmapped accesses. -/
def Translated (s : State) (t : Nat) (u : State) : Prop :=
  ∃ a b l n d, s.dev.Counted d ∧ (u = State.setTile { s with fresh := n, dev := d } t { s.tile t with tlbMain := a, tlbMove := b, tlb := l } ∨
    u = { s with fresh := n, dev := d })

/-- A tile that keeps a translation changes nothing else. -/
theorem State.keepEntry_translated (s : State) (t n : Nat) {d : Device} (h : s.dev.Counted d) (who : TlbUser) (e : TlbEntry) :
    Translated s t (State.setTile { s with fresh := n, dev := d } t ((s.tile t).keepEntry who e)) := by
  unfold Tile.keepEntry
  cases who with
  | hart m => cases m <;> exact ⟨_, _, _, n, d, h, .inl rfl⟩
  | engine q seq chunk => exact ⟨_, _, _, n, d, h, .inl rfl⟩

theorem State.walkFor_quiet {s : State} (h : Quiet s) (t : Nat) (who : TlbUser) (c va n : Nat) :
    Translated s t (State.walkFor { s with fresh := n } t who c va).1 := by
  have hq : Quiet { s with fresh := n } := h
  obtain ⟨d, hd, hw⟩ := State.deviceWalk_quiet hq c va
  unfold State.walkFor
  dsimp only
  rw [hw]
  split
  · exact s.keepEntry_translated t n hd who _
  · exact ⟨[], [], [], n, d, hd, .inr rfl⟩

/-- A translation changes only the tile's cached translations, what is drawn and what is noted of unmapped accesses. -/
theorem State.translate_quiet {s : State} (h : Quiet s) (t : Nat) (who : TlbUser) (c va : Nat) :
    Translated s t (s.translate t who c va).1 := by
  have hf : ∃ n, (s.usesOld t who va).2 = { s with fresh := n } := by cases who <;> exact ⟨_, rfl⟩
  obtain ⟨n, hn⟩ := hf
  unfold State.translate
  split
  · exact s.walkFor_quiet h t who c va s.fresh
  · dsimp only
    rw [hn]
    cases s.walk c va <;> dsimp only <;> split
    all_goals first
      | exact s.keepEntry_translated t s.fresh (.refl _) who _
      | (split
         · exact ⟨[], [], [], n, s.dev, .refl _, .inr rfl⟩
         · exact s.walkFor_quiet h t who c va n)

/-! ## The fabric -/

/-- What is lost on its way changes the agenda alone. -/
theorem State.loseSent_frame (s : State) (w : Sent) : ∃ a, s.loseSent w = { s with agenda := a } := by
  unfold State.loseSent; split
  · exact ⟨_, rfl⟩
  · exact ⟨s.agenda, rfl⟩

/-- What is handed to the fabric is in it, or lost on its way: only what is in the fabric, the agenda and the device's count of what is
dropped change. -/
theorem State.depart_frame (s : State) (serial : Word) (cls tile chan : Nat) (w : Sent) :
    ∃ a b d, s.depart serial cls tile chan w = { s with sent := a, agenda := b, dev := d } := by
  unfold State.depart; dsimp only; split
  · exact ⟨_, s.agenda, s.dev, rfl⟩
  · split
    · exact ⟨_, s.agenda, s.dev, rfl⟩
    · split
      · obtain ⟨a, ha⟩ := s.loseSent_frame w
        exact ⟨s.sent, a, s.dev, ha⟩
      · obtain ⟨a, ha⟩ := (s.countDropped tile).loseSent_frame w
        exact ⟨s.sent, a, _, ha⟩

@[simp] theorem State.losePacket_mem (s : State) (p : Packet) : (s.losePacket p).mem = s.mem := by
  unfold State.losePacket; dsimp only
  split
  · split <;> rfl
  · split
    · rfl
    · split
      · rfl
      all_goals repeat' split
      all_goals rfl

/-- A packet on its way changes no memory. -/
@[simp] theorem State.routePacket_mem (s : State) (p : Packet) : (s.routePacket p).mem = s.mem := by
  have h : ((s.leaveLinks p).keep p).mem = s.mem := by
    unfold State.keep; dsimp only; split <;> rfl
  rw [← h]
  unfold State.routePacket; dsimp only
  generalize (s.leaveLinks p).keep p = u
  split
  · rfl
  · split
    · simp [State.countDropped]
    · split
      · rw [State.losePacket_mem]; split <;> rfl
      · split
        · rfl
        · split
          · rfl
          · rw [State.losePacket_mem]; split <;> rfl

/-! ## Signatures -/

/-- Only a key and a signature of the lengths of ML-DSA-87 verify. -/
theorem signatureOk_lengths {key signature : List Byte} {digest : BitVec 512} (h : signatureOk key digest signature = true) :
    key.length = 2592 ∧ signature.length = 4627 := by
  unfold signatureOk at h; dsimp only at h
  split at h
  · cases h
  · simp only [Bool.and_eq_true, decide_eq_true_eq] at h
    exact ⟨h.1.1.1, h.1.1.2⟩

end Sys2Proof.Machine
end

