-- ==== Sys2Proof/Laws/Canonical.lean ====
section
/-! SUPPORT. The shared operations keep memory canonical: each operation that writes, and the bodies built of them. -/

namespace Sys2Proof.Machine

open Sys2Proof.Claims

/-! ## Folds and bodies -/

theorem memoryOk_foldl {α : Type} {f : State → α → State} {l : List α} {s : State}
    (hf : ∀ s a, memoryOk s → memoryOk (f s a)) (h : memoryOk s) : memoryOk (l.foldl f s) := by
  induction l generalizing s with
  | nil => exact h
  | cons a l ih => exact ih (hf s a h)

/-- A body leaves memory canonical however it ends. -/
def Keeps {α : Type} (m : M α) : Prop :=
  ∀ s, memoryOk s → match m s with | .ok _ t => memoryOk t | .error _ t => memoryOk t

section Bodies
variable {α β : Type}

theorem Keeps.pure (a : α) : Keeps (pure a : M α) := fun _ h => h
theorem Keeps.get : Keeps (get : M State) := fun _ h => h
theorem Keeps.throw (e : Exc) : Keeps (throw e : M α) := fun _ h => h
theorem Keeps.need (b : Bool) (e : Exc) : Keeps (need b e) := by
  cases b <;> exact fun _ h => h
theorem Keeps.upd {f : State → State} (hf : ∀ s, memoryOk s → memoryOk (f s)) : Keeps (upd f) := fun s h => hf s h
theorem Keeps.modifyGet {f : State → α × State} (hf : ∀ s, memoryOk s → memoryOk (f s).2) :
    Keeps (modifyGet f : M α) := fun s h => hf s h

theorem Keeps.bind {m : M α} {f : α → M β} (hm : Keeps m) (hf : ∀ a, Keeps (f a)) : Keeps (m >>= f) := by
  intro s h
  rw [M.bind_run]
  have := hm s h
  cases hr : m s with
  | ok a t => rw [hr] at this; exact hf a t this
  | error e t => rw [hr] at this; exact this

theorem Keeps.map {m : M α} {f : α → β} (hm : Keeps m) : Keeps (f <$> m) := by
  intro s h
  rw [M.map_run]
  have := hm s h
  cases hr : m s <;> rw [hr] at this <;> exact this

theorem Keeps.forM {l : List α} {f : α → M PUnit} (hf : ∀ a, Keeps (f a)) : Keeps (l.forM f) := by
  induction l with
  | nil => exact Keeps.pure _
  | cons a l ih => exact Keeps.bind (hf a) (fun _ => ih)

end Bodies

/-! ## Reads and writes at a home -/

section Home
variable {s : State}

theorem State.wf_bank {b : Nat} {x : Bank} (h : memoryOk s) : memoryOk (s.setBank b x) := h
theorem State.wf_retireBank {b : Nat} (h : memoryOk s) : memoryOk (s.retireBank b) := by
  refine memoryOk_of_mem h ?_
  unfold State.retireBank; dsimp only; split <;> split <;> simp
theorem State.wf_countCorrected {b : Nat} (h : memoryOk s) : memoryOk (s.countCorrected b) := by
  unfold State.countCorrected; dsimp only; split
  · exact State.wf_retireBank h
  · exact h
theorem State.wf_foldFlips {line : Nat} {fl : List Nat} (h : memoryOk s) : memoryOk (s.foldFlips line fl) := by
  refine memoryOk_foldl (fun s j hs => ?_) h
  dsimp only; split
  · exact hs
  · split <;> exact State.wf_rawWrite hs
theorem State.wf_ungate {t : Nat} (h : memoryOk s) : memoryOk (s.ungate t) := by
  unfold State.ungate; split <;> exact h
theorem State.wf_fireWatches {pa : Nat} (h : memoryOk s) : memoryOk (s.fireWatches pa) :=
  memoryOk_foldl (fun _ _ hs => State.wf_ungate hs) h
theorem State.wf_countLostInstall {pa : Nat} (h : memoryOk s) : memoryOk (s.countLostInstall pa) := by
  unfold State.countLostInstall; split
  · exact memoryOk_foldl (fun _ _ hs => hs) h
  · exact h
theorem State.wf_retire {h : HartId} {pc : Word} (k : memoryOk s) : memoryOk (s.retire h pc) := memoryOk_of_mem k (s.retire_mem h pc)
theorem State.wf_writeX {h : HartId} {r : Reg} {v : Word} (k : memoryOk s) : memoryOk (s.writeX h r v) := memoryOk_of_mem k (s.writeX_mem h r v)
theorem State.wf_discard {t : Nat} {p : Nat → Bool} (k : memoryOk s) : memoryOk (s.discard t p) := memoryOk_of_mem k rfl
theorem State.wf_acquireLatch {t : Nat} {va : Word} (k : memoryOk s) : memoryOk (s.acquireLatch t va) := memoryOk_of_mem k rfl
theorem State.wf_serve {r : Held} (h : memoryOk s) : memoryOk (s.serve r) := by
  have h1 : memoryOk ((s.unhold r.tile r.move).ungate r.tile) := State.wf_ungate h
  unfold State.serve; dsimp only
  generalize (s.unhold r.tile r.move).ungate r.tile = u at h1 ⊢
  split
  · exact State.wf_acquireLatch (State.wf_retire (State.wf_writeX h1))
  · exact State.wf_acquireLatch (State.wf_retire (State.wf_writeX (State.wf_setFull h1)))
  all_goals exact State.wf_retire (State.wf_discard (State.wf_fireWatches (State.wf_setFull (State.wf_rawWrite (State.wf_countLostInstall h1)))))
theorem State.wf_scan {pa n : Nat} (h : memoryOk s) : memoryOk (s.scan pa n) := by
  induction n generalizing s with
  | zero => exact h
  | succ n ih =>
    rw [State.scan]; split
    · exact ih (State.wf_serve h)
    · exact h
theorem State.wf_homeScan {pa : Nat} (h : memoryOk s) : memoryOk (s.homeScan pa) := State.wf_scan h
theorem State.wf_loseLine {c : Option Nat} {line b : Nat} (h : memoryOk s) : memoryOk (s.loseLine c line b) := by
  unfold State.loseLine; dsimp only
  refine memoryOk_foldl (fun s i hs => State.wf_homeScan (State.wf_fireWatches hs)) ?_
  have h1 : memoryOk ((List.range 8).foldl (fun (s : State) i =>
      (s.rawWrite (line * 64 + 8 * i) 8 0).setFull (line * 64 + 8 * i) true) (s.clearFlips line)) :=
    memoryOk_foldl (fun _ _ hs => State.wf_setFull (State.wf_rawWrite hs)) h
  generalize (List.range 8).foldl (fun (s : State) i =>
      (s.rawWrite (line * 64 + 8 * i) 8 0).setFull (line * 64 + 8 * i) true) (s.clearFlips line) = u at h1 ⊢
  generalize c.orElse (fun _ => s.ownerOf line) = o
  cases o with
  | none => exact memoryOk_of_mem h1 rfl
  | some c => exact memoryOk_of_mem h1 rfl
theorem State.wf_loseFarLine {c : Option Nat} {line : Nat} (h : memoryOk s) : memoryOk (s.loseFarLine c line) := by
  have h1 : memoryOk ((List.range 8).foldl (fun (s : State) i => s.rawWrite (line * 64 + 8 * i) 8 0) (s.clearFlips line)) :=
    memoryOk_foldl (fun _ _ hs => State.wf_rawWrite hs) h
  unfold State.loseFarLine; dsimp only
  generalize c.orElse (fun _ => s.ownerOf line) = o
  cases o <;> exact memoryOk_of_mem h1 (by simp)
theorem State.wf_touch {c : Option Nat} {line : Nat} (h : memoryOk s) : memoryOk (s.touch c line) := by
  unfold State.touch; dsimp only
  split
  · split
    · exact h
    · exact State.wf_loseFarLine h
  · split
    · exact h
    · split
      · exact State.wf_loseLine h
      · split
        · exact State.wf_countCorrected (State.wf_foldFlips h)
        · exact State.wf_foldFlips h
theorem State.wf_homeWrite {c : Option Nat} {pa n v : Nat} {mark : Option Bool} (h : memoryOk s) :
    memoryOk (s.homeWrite c pa n v mark) := by
  unfold State.homeWrite
  split
  · have h1 := State.wf_rawWrite (pa := pa) (n := n) (v := v)
      (State.wf_countLostInstall (pa := pa) (State.wf_touch (c := c) (line := pa / 64) h))
    cases mark <;> exact State.wf_homeScan (State.wf_fireWatches h1)
  · exact h
  · split
    · exact State.wf_rawWrite (State.wf_touch h)
    · exact h
theorem State.wf_stage {pa : Nat} (h : memoryOk s) : memoryOk (s.stage pa) := by
  unfold State.stage; dsimp only; split <;> exact h
theorem State.wf_homeRead {c : Option Nat} {pa n : Nat} (h : memoryOk s) : memoryOk (s.homeRead c pa n).1 := by
  unfold State.homeRead
  split
  · exact State.wf_touch h
  · split
    · exact State.wf_stage h
    · exact h
  · split
    · exact State.wf_touch h
    · exact h
theorem State.wf_takeLoss {t c : Nat} {write : Bool} {l : Leaf} {u : State} (h : memoryOk s)
    (hu : s.takeLoss t c write l = some u) : memoryOk u := by
  have hm : u.mem = s.mem := by
    cases write <;> simp only [State.takeLoss, if_true, if_false, Bool.false_eq_true] at hu <;> split at hu <;>
      first | cases hu; simp | cases hu
  exact memoryOk_of_mem h hm
theorem State.wf_cachedRead {t c n : Nat} {l : Leaf} (h : memoryOk s) : memoryOk (s.cachedRead t c l n).1 := by
  unfold State.cachedRead
  dsimp only
  split
  · exact State.wf_homeRead (s := s.countAccess c l) h
  · split
    · split
      · exact State.wf_takeLoss h ‹_›
      · exact State.wf_homeRead h
    · split
      · exact h
      · split
        · exact State.wf_takeLoss h ‹_›
        · exact State.wf_homeRead (s := s.countAccess c l) h
theorem State.wf_directRead {c n : Nat} {l : Leaf} (h : memoryOk s) : memoryOk (s.directRead c l n).1 := by
  unfold State.directRead
  split
  · exact State.wf_homeRead (s := s.countAccess c l) h
  · exact State.wf_homeRead h
theorem State.wf_bypassRead {t c n : Nat} {l : Leaf} {copy : Bool} (h : memoryOk s) :
    memoryOk (s.bypassRead t c l n copy).1 := by
  unfold State.bypassRead
  split
  · exact State.wf_takeLoss h ‹_›
  · split
    · exact State.wf_directRead (s := s.countAccess c l) h
    · exact State.wf_directRead h
theorem State.wf_tileWrite {t c n v : Nat} {l : Leaf} {mark : Option Bool} (h : memoryOk s) :
    memoryOk (s.tileWrite t c l n v mark) := State.wf_homeWrite (s := s) h
theorem State.wf_plainWrite {t c n v : Nat} {l : Leaf} (h : memoryOk s) : memoryOk (s.plainWrite t c l n v) := by
  unfold State.plainWrite
  split
  · rename_i u hu
    have h1 := State.wf_takeLoss h hu
    exact h1
  · exact State.wf_tileWrite h
/-- A lost access of the receive engine or of an install changes its context alone. -/
theorem State.wf_engineLoss {c : Nat} {write : Bool} {u : State} (h : memoryOk s) (hu : s.engineLoss c write = some u) :
    memoryOk u := by
  unfold State.engineLoss at hu; dsimp only at hu
  generalize (if write = true then (s.ctx c).lostWrites else (s.ctx c).lostReads) = n at hu
  split at hu
  · cases hu
  · cases hu; exact h
theorem State.wf_engineWrite {c pa n v : Nat} (h : memoryOk s) : memoryOk (s.engineWrite c pa n v) := by
  unfold State.engineWrite; split
  · exact State.wf_engineLoss h ‹_›
  · exact State.wf_homeWrite h
theorem State.wf_atomic {t c n : Nat} {l : Leaf} {f : Nat → Nat} (h : memoryOk s) : memoryOk (s.atomic t c l n f).1 :=
  State.wf_tileWrite (State.wf_directRead h)
theorem State.wf_touchWalk {c va n level table : Nat} (h : memoryOk s) : memoryOk (s.touchWalk c va n level table) := by
  induction n generalizing s level table with
  | zero => exact h
  | succ n ih =>
    have h1 : memoryOk (if s.fitted (table + 8 * levelIndex level va) then
        s.touch (some c) ((table + 8 * levelIndex level va) / 64) else s.countUnmapped (some c) (table + 8 * levelIndex level va)) := by
      split
      · exact State.wf_touch h
      · exact h
    rw [State.touchWalk]
    generalize (if s.fitted (table + 8 * levelIndex level va) then
        s.touch (some c) ((table + 8 * levelIndex level va) / 64) else s.countUnmapped (some c) (table + 8 * levelIndex level va)) = u at h1 ⊢
    split
    · exact ih h1
    · exact h1
theorem State.wf_deviceWalk {c va : Nat} (h : memoryOk s) : memoryOk (s.deviceWalk c va) := State.wf_touchWalk h
theorem State.wf_walkSpan {c k va n : Nat} (h : memoryOk s) : memoryOk (s.walkSpan c k va n) := by
  induction k generalizing s va n with
  | zero => exact h
  | succ k ih =>
    rw [State.walkSpan]; split
    · exact h
    · exact ih (State.wf_deviceWalk h)
theorem State.wf_walkFor {t c va : Nat} {who : TlbUser} (h : memoryOk s) : memoryOk (s.walkFor t who c va).1 := by
  have h1 : memoryOk (s.deviceWalk c va) := State.wf_deviceWalk h
  unfold State.walkFor; dsimp only
  split <;> exact h1
theorem State.wf_translate {t c va : Nat} {who : TlbUser} (h : memoryOk s) : memoryOk (s.translate t who c va).1 := by
  have hf : memoryOk (s.usesOld t who va).2 := by cases who <;> exact h
  unfold State.translate
  split
  · exact State.wf_walkFor h
  · dsimp only
    cases s.walk c va <;> (try dsimp only) <;> split
    all_goals first
      | exact h
      | (split
         · exact hf
         · exact State.wf_walkFor hf)
theorem State.wf_touchRange {c pa n : Nat} (h : memoryOk s) : memoryOk (s.touchRange c pa n) := by
  unfold State.touchRange; split
  · exact h
  · exact memoryOk_foldl (fun _ _ hs => State.wf_touch hs) h
theorem State.wf_zeroUnits {c : Nat} {l : List Nat} (h : memoryOk s) : memoryOk (s.zeroUnits c l) := by
  have h1 : memoryOk (l.foldl (fun (s : State) u =>
      (List.range 256).foldl (fun (s : State) i => s.touch (some c) (256 * u + i)) s) s) :=
    memoryOk_foldl (fun _ _ hs => memoryOk_foldl (fun _ _ hu => State.wf_touch hu) hs) h
  exact memoryOk_foldl (fun _ _ hs => State.wf_homeScan (State.wf_fireWatches hs)) (SMap.wf_filter _ _ _ h1)

end Home

/-! ## Completions, copies and faults of a context -/

section Shared
variable {s : State}

theorem State.wf_writeBytes {c : Option Nat} {pa : Nat} {l : List Byte} (h : memoryOk s) :
    memoryOk (s.writeBytes c pa l) := by
  induction l generalizing s pa with
  | nil => exact h
  | cons b l ih => exact ih (State.wf_homeWrite h)
theorem State.wf_complete {n op status : Nat} {tag : BitVec 32} {result : Word} (h : memoryOk s) :
    memoryOk (s.complete n op tag status result) := by
  unfold State.complete; dsimp only
  unfold memoryOk
  simp only [State.raiseMsix, State.modDev_mem, State.setRing_mem]
  exact State.wf_rawWrite (State.wf_rawWrite h)
theorem State.wf_completeAll {op status : Nat} {l : List (Nat × BitVec 32)} (h : memoryOk s) :
    memoryOk (s.completeAll op l status) := memoryOk_foldl (fun _ _ hs => State.wf_complete hs) h
theorem State.wf_setTlerrAll {c x : Nat} (h : memoryOk s) : memoryOk (s.setTlerrAll c x) :=
  memoryOk_foldl (f := fun (s : State) t => s.modTc t (fun k => k.setTlerr x)) (fun _ _ hs => hs) h
theorem State.wf_endLease {t : Nat} (h : memoryOk s) : memoryOk (s.endLease t) := by
  unfold State.endLease; dsimp only; split <;> exact h
theorem State.wf_requestLease {t n : Nat} (h : memoryOk s) : memoryOk (s.requestLease t n) := by
  unfold State.requestLease; dsimp only; split <;> exact h
theorem State.wf_dropLeaseRequest {t : Nat} (h : memoryOk s) : memoryOk (s.dropLeaseRequest t) := by
  unfold State.dropLeaseRequest; dsimp only; split <;> exact h
theorem State.wf_holdCommand {r : Run} {why : Nat} (h : memoryOk s) : memoryOk (s.holdCommand r why) := by
  unfold State.holdCommand; dsimp only; split
  · exact State.wf_requestLease (s := s.modEntry _ _ _ _) h
  · exact h
theorem State.wf_leaseUsed {t : Nat} (h : memoryOk s) : memoryOk (s.leaseUsed t) := by
  unfold State.leaseUsed; dsimp only; split
  · split
    · exact State.wf_endLease (s := s.setAnvil _ _) h
    · exact h
  · exact h
theorem State.wf_abandon {h : HartId} (hs : memoryOk s) : memoryOk (s.abandon h) := by
  unfold State.abandon; dsimp only; split <;> exact hs
theorem State.wf_scrambleCopy {t lo : Nat} {e : Entry} (h : memoryOk s) : memoryOk (s.scrambleCopy t e lo) := by
  unfold State.scrambleCopy; dsimp only; split
  · exact h
  · refine memoryOk_foldl (fun s i hs => ?_) h
    split
    · exact hs
    · split
      · exact hs
      · split
        · exact hs
        · exact State.wf_tileWrite (s := s.free.2) hs
theorem State.wf_stopLease {t : Nat} (h : memoryOk s) : memoryOk (s.stopLease t) := by
  unfold State.stopLease; dsimp only; split
  · exact h
  · exact State.wf_endLease h
theorem State.wf_stopTile {t : Nat} (h : memoryOk s) : memoryOk (s.stopTile t) :=
  State.wf_dropLeaseRequest (State.wf_stopLease (memoryOk_foldl (fun _ _ hs => State.wf_scrambleCopy hs)
    (State.wf_abandon (State.wf_abandon h))))
theorem State.wf_stopWork {c : Nat} (h : memoryOk s) : memoryOk (s.stopWork c) :=
  memoryOk_foldl (f := fun (s : State) t => s.stopTile t) (fun _ _ hs => State.wf_stopTile hs) h
theorem State.wf_contextFault {c : Nat} {record : BitVec 256} (h : memoryOk s) : memoryOk (s.contextFault c record) := by
  unfold State.contextFault; dsimp only; split
  · exact State.wf_completeAll (State.wf_stopWork h)
  · exact h
theorem State.wf_takeTrap {h : HartId} {async : Bool} {code detail : Nat} {v : Word} (hs : memoryOk s) :
    memoryOk (s.takeTrap h async code detail v) := by
  unfold State.takeTrap; dsimp only; split
  · exact hs
  · split
    · exact State.wf_contextFault hs
    · exact hs
theorem State.wf_keepFresh {t : State} {c : Option Nat} (h : memoryOk s) : memoryOk (s.keepFresh t c) :=
  memoryOk_foldl (fun _ _ hs => State.wf_touch hs) (memoryOk_foldl (fun _ _ hs => hs) h)

end Shared

/-- A read of a command keeps memory canonical where the access that it makes does, whether or not it has read the word before. -/
theorem wordGet_keeps {r : Run} {get : Nat → Nat → M Nat} (hg : ∀ a n, Keeps (get a n)) (va n : Nat) : Keeps (wordGet r get va n) := by
  unfold wordGet; split
  · exact hg va n
  · split
    · exact Keeps.pure _
    · exact hg va n
    · exact Keeps.bind (hg _ _) (fun _ => Keeps.bind (Keeps.upd (fun _ hs => hs)) (fun _ => Keeps.pure _))

/-! ## Instructions, commands and requests -/

/-- The outcome of an instruction whose body keeps memory canonical. -/
theorem hartEnd_keeps {h : HartId} {body : M Unit} {s t : State} (hb : Keeps body) (hs : memoryOk s)
    (ht : hartEnd h body s = .next t) : memoryOk t := by
  have := hb s hs
  unfold hartEnd at ht
  cases hr : body s with
  | ok a u => rw [hr] at ht this; injection ht with ht; subst ht; exact this
  | error e u =>
    rw [hr] at ht this
    cases e <;> injection ht with ht <;> subst ht
    · exact State.wf_takeTrap this
    · exact this
    all_goals exact hs

theorem hartStep_keeps {h : HartId} {body : M Unit} {s t : State} (hb : Keeps body) (hs : memoryOk s)
    (ht : hartStep h body s = .next t) : memoryOk t := by
  have hr : Keeps (upd (fun u => u.retire h ((s.hart h).pc + 4))) := Keeps.upd (fun _ hu => hu)
  unfold hartStep at ht
  exact hartEnd_keeps (Keeps.bind hb (fun _ => hr)) hs ht

theorem hartJump_keeps {h : HartId} {body : M Word} {s t : State} (hb : Keeps body) (hs : memoryOk s)
    (ht : hartJump h body s = .next t) : memoryOk t := by
  have hr : ∀ pc, Keeps (upd (fun u => u.retire h pc)) := fun _ => Keeps.upd (fun _ hu => hu)
  unfold hartJump at ht
  exact hartEnd_keeps (Keeps.bind hb hr) hs ht

/-- So does a step that writes one word of a command. -/
theorem runWord_keeps {body : Run → M Bool} {r : Run} {s : State} (hb : Keeps (body r)) (hs : memoryOk s) :
    memoryOk (runWord body r s) := by
  have := hb s hs
  unfold runWord
  cases hr : body r s with
  | ok a u => exact State.wf_keepFresh hs
  | error e u =>
    rw [hr] at this
    cases e <;> first | exact this | exact State.wf_keepFresh hs

/-- The outcome of a command whose body keeps memory canonical. -/
theorem runCommand_keeps {op : Nat} {c : Cmd} {body : Run → M Bool} {s t : State} (hb : ∀ r, Keeps (body r))
    (hs : memoryOk s) (ht : runCommand op c body s = .next t) : memoryOk t := by
  have h0 : memoryOk { s with pick := none } := hs
  unfold runCommand at ht
  dsimp only at ht
  generalize { s with pick := none } = s0 at h0 ht
  cases hro : s.runOf op c with
  | none => rw [hro] at ht; injection ht with ht; subst ht; exact h0
  | some r =>
    rw [hro] at ht
    dsimp only at ht
    split at ht
    · injection ht with ht; subst ht; exact h0
    split at ht
    · injection ht with ht; subst ht; exact runWord_keeps (hb r) h0
    · split at ht
      · injection ht with ht; subst ht; exact State.wf_holdCommand h0
      · have := hb r s0 h0
        cases hr : body r s0 with
        | ok a u => rw [hr] at ht this; injection ht with ht; subst ht; exact this
        | error e u =>
          rw [hr] at ht this
          cases e <;> injection ht with ht <;> subst ht
          · exact h0
          · exact h0
          · split
            · exact State.wf_leaseUsed (s := u.modTc _ _) this
            · exact this
          · exact State.wf_holdCommand (State.wf_keepFresh h0)
          · exact this

theorem State.wf_ungateContext {s : State} {c : Nat} (h : memoryOk s) : memoryOk (s.ungateContext c) :=
  memoryOk_foldl (fun _ _ hs => State.wf_ungate hs) h

/-- The outcome of a request whose effect keeps memory canonical. -/
theorem runRequest_keeps {op : Nat} {r : Request} {body : Nat → State → Answer} {s t : State}
    (hb : ∀ n s, memoryOk s → memoryOk (body n s).1) (hs : memoryOk s) (ht : runRequest op r body s = .next t) :
    memoryOk t := by
  unfold runRequest at ht
  dsimp only at ht
  split at ht
  · injection ht with ht; subst ht; exact State.wf_complete (s := s.takeRequest _) hs
  · have h1 := hb s.ringNumber (s.takeRequest s.ringNumber) hs
    split at ht <;> rename_i hr <;> rw [hr] at h1 <;> injection ht with ht <;> subst ht
    · exact State.wf_complete h1
    · exact h1

theorem runOnContext_keeps {op : Nat} {r : Request} {ok : Context → Bool} {body : Nat → State → Answer} {s t : State}
    (hb : ∀ n s, memoryOk s → memoryOk (body n s).1) (hs : memoryOk s)
    (ht : runOnContext op r ok body s = .next t) : memoryOk t := by
  refine runRequest_keeps (fun n s h => ?_) hs ht
  split
  · exact h
  · split
    · exact h
    · exact hb n _ (State.wf_ungateContext h)

end Sys2Proof.Machine
end

