-- ==== Sys2Proof/Laws/Dispatch.lean ====
section
/-! SUPPORT. Which meaning `exec` calls for each constructor: one equation each, so that no proof unfolds `exec`. -/

namespace Sys2Proof.Machine

theorem exec_fimmS (rd : Reg) (imm : BitVec 20) (s : State) : exec (.fimmS rd imm) s = execFimmS rd imm s := rfl
theorem exec_flitS (rd : Reg) (lit : Word32) (s : State) : exec (.flitS rd lit) s = execFlitS rd lit s := rfl
theorem exec_fconstS (rd : Reg) (k : BitVec 8) (s : State) : exec (.fconstS rd k) s = execFconstS rd k s := rfl
theorem exec_cset (c : BitVec 4) (rs1 : Reg) (imm : BitVec 12) (s : State) : exec (.cset c rs1 imm) s = execCset c rs1 imm s := rfl
theorem exec_hld (h : BitVec 4) (rs1 : Reg) (imm : BitVec 12) (s : State) : exec (.hld h rs1 imm) s = execHld h rs1 imm s := rfl
theorem exec_qput (rd : Reg) (q : BitVec 2) (rs1 rs2 : Reg) (s : State) : exec (.qput rd q rs1 rs2) s = execQput rd q rs1 rs2 s := rfl
theorem exec_qstatQ (rd : Reg) (q : BitVec 2) (s : State) : exec (.qstatQ rd q) s = execQstatQ rd q s := rfl
theorem exec_qstatDq (rd : Reg) (q : BitVec 3) (s : State) : exec (.qstatDq rd q) s = execQstatDq rd q s := rfl
theorem exec_qsync (q : BitVec 2) (s : State) : exec (.qsync q) s = execQsync q s := rfl
theorem exec_qsyncReturn (s : State) : exec (.qsyncReturn) s = execQsyncReturn s := rfl
theorem exec_ldf (rd rs1 : Reg) (imm : BitVec 12) (s : State) : exec (.ldf rd rs1 imm) s = execLdf rd rs1 imm s := rfl
theorem exec_ldt (rd rs1 : Reg) (imm : BitVec 12) (s : State) : exec (.ldt rd rs1 imm) s = execLdt rd rs1 imm s := rfl
theorem exec_stf (rs1 rs2 : Reg) (imm : BitVec 12) (s : State) : exec (.stf rs1 rs2 imm) s = execStf rs1 rs2 imm s := rfl
theorem exec_ste (rs1 rs2 : Reg) (imm : BitVec 12) (s : State) : exec (.ste rs1 rs2 imm) s = execSte rs1 rs2 imm s := rfl
theorem exec_taggedRequestServed (word : Nat) (s : State) : exec (.taggedRequestServed word) s = execTaggedRequestServed word s := rfl
theorem exec_ldU (rd rs1 : Reg) (imm : BitVec 12) (s : State) : exec (.ldU rd rs1 imm) s = execLdU rd rs1 imm s := rfl
theorem exec_sdU (rs1 rs2 : Reg) (imm : BitVec 12) (s : State) : exec (.sdU rs1 rs2 imm) s = execSdU rs1 rs2 imm s := rfl
theorem exec_maAdd (rd rs1 rs2 : Reg) (s : State) : exec (.maAdd rd rs1 rs2) s = execMaAdd rd rs1 rs2 s := rfl
theorem exec_maMin (rd rs1 rs2 : Reg) (s : State) : exec (.maMin rd rs1 rs2) s = execMaMin rd rs1 rs2 s := rfl
theorem exec_maMax (rd rs1 rs2 : Reg) (s : State) : exec (.maMax rd rs1 rs2) s = execMaMax rd rs1 rs2 s := rfl
theorem exec_maAnd (rd rs1 rs2 : Reg) (s : State) : exec (.maAnd rd rs1 rs2) s = execMaAnd rd rs1 rs2 s := rfl
theorem exec_maOr (rd rs1 rs2 : Reg) (s : State) : exec (.maOr rd rs1 rs2) s = execMaOr rd rs1 rs2 s := rfl
theorem exec_maXor (rd rs1 rs2 : Reg) (s : State) : exec (.maXor rd rs1 rs2) s = execMaXor rd rs1 rs2 s := rfl
theorem exec_maSwap (rd rs1 rs2 : Reg) (s : State) : exec (.maSwap rd rs1 rs2) s = execMaSwap rd rs1 rs2 s := rfl
theorem exec_maCas (rd rs1 rs2 : Reg) (s : State) : exec (.maCas rd rs1 rs2) s = execMaCas rd rs1 rs2 s := rfl
theorem exec_maIncw (rd rs1 rs2 : Reg) (s : State) : exec (.maIncw rd rs1 rs2) s = execMaIncw rd rs1 rs2 s := rfl
theorem exec_maFaddS (rd rs1 rs2 : Reg) (s : State) : exec (.maFaddS rd rs1 rs2) s = execMaFaddS rd rs1 rs2 s := rfl
theorem exec_maFmaxabsS (rd rs1 rs2 : Reg) (s : State) : exec (.maFmaxabsS rd rs1 rs2) s = execMaFmaxabsS rd rs1 rs2 s := rfl
theorem exec_maAddb (rd rs1 rs2 rs3 : Reg) (s : State) : exec (.maAddb rd rs1 rs2 rs3) s = execMaAddb rd rs1 rs2 rs3 s := rfl
theorem exec_tkGive (t : BitVec 4) (rs1 : Reg) (s : State) : exec (.tkGive t rs1) s = execTkGive t rs1 s := rfl
theorem exec_tkTake (t : BitVec 4) (rs1 : Reg) (s : State) : exec (.tkTake t rs1) s = execTkTake t rs1 s := rfl
theorem exec_tkTakeServed (s : State) : exec (.tkTakeServed) s = execTkTakeServed s := rfl
theorem exec_tlWait (x : BitVec 3) (rs1 : Reg) (s : State) : exec (.tlWait x rs1) s = execTlWait x rs1 s := rfl
theorem exec_tlWaitReturn (s : State) : exec (.tlWaitReturn) s = execTlWaitReturn s := rfl
theorem exec_tlRead (rd : Reg) (x : BitVec 3) (s : State) : exec (.tlRead rd x) s = execTlRead rd x s := rfl
theorem exec_fenceG (n : BitVec 5) (s : State) : exec (.fenceG n) s = execFenceG n s := rfl
theorem exec_warm (k : BitVec 2) (rs1 : Reg) (s : State) : exec (.warm k rs1) s = execWarm k rs1 s := rfl
theorem exec_wsleep (rd : Reg) (s : State) : exec (.wsleep rd) s = execWsleep rd s := rfl
theorem exec_wsleepWake (s : State) : exec (.wsleepWake) s = execWsleepWake s := rfl
theorem exec_barrArrive (rd rs1 : Reg) (s : State) : exec (.barrArrive rd rs1) s = execBarrArrive rd rs1 s := rfl
theorem exec_barrWait (rd rs1 rs2 : Reg) (s : State) : exec (.barrWait rd rs1 rs2) s = execBarrWait rd rs1 rs2 s := rfl
theorem exec_barrWaitWake (s : State) : exec (.barrWaitWake) s = execBarrWaitWake s := rfl
theorem exec_spawn (rd rs1 rs2 : Reg) (s : State) : exec (.spawn rd rs1 rs2) s = execSpawn rd rs1 rs2 s := rfl
theorem exec_spawnPlaced (s : State) : exec (.spawnPlaced) s = execSpawnPlaced s := rfl
theorem exec_stgTake (rd : Reg) (s : State) : exec (.stgTake rd) s = execStgTake rd s := rfl
theorem exec_stgTakeServed (s : State) : exec (.stgTakeServed) s = execStgTakeServed s := rfl
theorem exec_stgDone (rs1 : Reg) (s : State) : exec (.stgDone rs1) s = execStgDone rs1 s := rfl
theorem exec_kexit (s : State) : exec (.kexit) s = execKexit s := rfl
theorem exec_kexitRelease (tile : Nat) (s : State) : exec (.kexitRelease tile) s = execKexitRelease tile s := rfl
theorem exec_tret (s : State) : exec (.tret) s = execTret s := rfl
theorem exec_ctxYield (s : State) : exec (.ctxYield) s = execCtxYield s := rfl
theorem exec_accrd (rd : Reg) (a : BitVec 1) (rs1 : Reg) (s : State) : exec (.accrd rd a rs1) s = execAccrd rd a rs1 s := rfl
theorem exec_vread (rd : Reg) (vt : BitVec 2) (s : State) : exec (.vread rd vt) s = execVread rd vt s := rfl
theorem exec_vreadReturn (s : State) : exec (.vreadReturn) s = execVreadReturn s := rfl
theorem exec_cpcancel (rd rs1 : Reg) (s : State) : exec (.cpcancel rd rs1) s = execCpcancel rd rs1 s := rfl
theorem exec_rxProbe (rd rs1 : Reg) (s : State) : exec (.rxProbe rd rs1) s = execRxProbe rd rs1 s := rfl
theorem exec_baseInstruction (b : Base) (s : State) : exec (.baseInstruction b) s = execBaseInstruction b s := rfl
theorem exec_plainLoad (op : LoadOp) (rd rs1 : Reg) (imm : BitVec 12) (s : State) : exec (.plainLoad op rd rs1 imm) s = execPlainLoad op rd rs1 imm s := rfl
theorem exec_plainStore (op : StoreOp) (rs1 rs2 : Reg) (imm : BitVec 12) (s : State) : exec (.plainStore op rs1 rs2 imm) s = execPlainStore op rs1 rs2 imm s := rfl
theorem exec_fence (s : State) : exec (.fence) s = execFence s := rfl
theorem exec_fenceI (s : State) : exec (.fenceI) s = execFenceI s := rfl
theorem exec_wfi (s : State) : exec (.wfi) s = execWfi s := rfl
theorem exec_ebreak (s : State) : exec (.ebreak) s = execEbreak s := rfl
theorem exec_ecallFirmwareVersion (s : State) : exec (.ecallFirmwareVersion) s = execEcallFirmwareVersion s := rfl
theorem exec_ecallPostToHost (s : State) : exec (.ecallPostToHost) s = execEcallPostToHost s := rfl
theorem exec_ecallAbort (s : State) : exec (.ecallAbort) s = execEcallAbort s := rfl
theorem exec_ecallUnknown (s : State) : exec (.ecallUnknown) s = execEcallUnknown s := rfl
theorem exec_csrWrite (c : CsrOp) (s : State) : exec (.csrWrite c) s = execCsrWrite c s := rfl
theorem exec_rndtileWrite (c : CsrOp) (s : State) : exec (.rndtileWrite c) s = execRndtileWrite c s := rfl
theorem exec_qrecSkip (s : State) : exec (.qrecSkip) s = execQrecSkip s := rfl
theorem exec_qrecFlush (s : State) : exec (.qrecFlush) s = execQrecFlush s := rfl
theorem exec_commandFaultTrap (s : State) : exec (.commandFaultTrap) s = execCommandFaultTrap s := rfl
theorem exec_qputResume (s : State) : exec (.qputResume) s = execQputResume s := rfl
theorem exec_slicerTake (s : State) : exec (.slicerTake) s = execSlicerTake s := rfl
theorem exec_cnop (c : Cmd) (s : State) : exec (.cnop c) s = execCnop c s := rfl
theorem exec_cbump (c : Cmd) (s : State) : exec (.cbump c) s = execCbump c s := rfl
theorem exec_cmark (c : Cmd) (s : State) : exec (.cmark c) s = execCmark c s := rfl
theorem exec_fdRow (c : Cmd) (s : State) : exec (.fdRow c) s = execFdRow c s := rfl
theorem exec_fdRowCrd (c : Cmd) (s : State) : exec (.fdRowCrd c) s = execFdRowCrd c s := rfl
theorem exec_fdGather (c : Cmd) (s : State) : exec (.fdGather c) s = execFdGather c s := rfl
theorem exec_fdBcast (c : Cmd) (s : State) : exec (.fdBcast c) s = execFdBcast c s := rfl
theorem exec_fdBcastSplat (c : Cmd) (s : State) : exec (.fdBcastSplat c) s = execFdBcastSplat c s := rfl
theorem exec_fdSkip (c : Cmd) (s : State) : exec (.fdSkip c) s = execFdSkip c s := rfl
theorem exec_fdStore (c : Cmd) (s : State) : exec (.fdStore c) s = execFdStore c s := rfl
theorem exec_srtCodes (c : Cmd) (s : State) : exec (.srtCodes c) s = execSrtCodes c s := rfl
theorem exec_bkClear (c : Cmd) (s : State) : exec (.bkClear c) s = execBkClear c s := rfl
theorem exec_bkSum (c : Cmd) (s : State) : exec (.bkSum c) s = execBkSum c s := rfl
theorem exec_bkFin (c : Cmd) (s : State) : exec (.bkFin c) s = execBkFin c s := rfl
theorem exec_anLease (c : Cmd) (s : State) : exec (.anLease c) s = execAnLease c s := rfl
theorem exec_anLdw (c : Cmd) (s : State) : exec (.anLdw c) s = execAnLdw c s := rfl
theorem exec_anSwap (c : Cmd) (s : State) : exec (.anSwap c) s = execAnSwap c s := rfl
theorem exec_anMul (c : Cmd) (s : State) : exec (.anMul c) s = execAnMul c s := rfl
theorem exec_anGmul (c : Cmd) (s : State) : exec (.anGmul c) s = execAnGmul c s := rfl
theorem exec_anClose (c : Cmd) (s : State) : exec (.anClose c) s = execAnClose c s := rfl
theorem exec_anDrain (c : Cmd) (s : State) : exec (.anDrain c) s = execAnDrain c s := rfl
theorem exec_anFree (c : Cmd) (s : State) : exec (.anFree c) s = execAnFree c s := rfl
theorem exec_anZero (c : Cmd) (s : State) : exec (.anZero c) s = execAnZero c s := rfl
theorem exec_leaseGrant (cluster : Nat) (s : State) : exec (.leaseGrant cluster) s = execLeaseGrant cluster s := rfl
theorem exec_leaseIdleExpiry (cluster : Nat) (s : State) : exec (.leaseIdleExpiry cluster) s = execLeaseIdleExpiry cluster s := rfl
theorem exec_cpNd (c : Cmd) (s : State) : exec (.cpNd c) s = execCpNd c s := rfl
theorem exec_cpGather (c : Cmd) (s : State) : exec (.cpGather c) s = execCpGather c s := rfl
theorem exec_cpScatter (c : Cmd) (s : State) : exec (.cpScatter c) s = execCpScatter c s := rfl
theorem exec_cpDec (c : Cmd) (s : State) : exec (.cpDec c) s = execCpDec c s := rfl
theorem exec_cpRed (c : Cmd) (s : State) : exec (.cpRed c) s = execCpRed c s := rfl
theorem exec_cpFill (c : Cmd) (s : State) : exec (.cpFill c) s = execCpFill c s := rfl
theorem exec_cpPref (c : Cmd) (s : State) : exec (.cpPref c) s = execCpPref c s := rfl
theorem exec_ringUnitTake (s : State) : exec (.ringUnitTake) s = execRingUnitTake s := rfl
theorem exec_decoderWatchdog (s : State) : exec (.decoderWatchdog) s = execDecoderWatchdog s := rfl
theorem exec_copyChunkComplete (s : State) : exec (.copyChunkComplete) s = execCopyChunkComplete s := rfl
theorem exec_copyRemoteElement (reply : RemoteReply) (s : State) : exec (.copyRemoteElement reply) s = execCopyRemoteElement reply s := rfl
theorem exec_copySuspend (s : State) : exec (.copySuspend) s = execCopySuspend s := rfl
theorem exec_commandComplete (tile : Nat) (q : BitVec 2) (seq : Nat) (s : State) : exec (.commandComplete tile q seq) s = execCommandComplete tile q seq s := rfl
theorem exec_vadd (c : Cmd) (s : State) : exec (.vadd c) s = execVadd c s := rfl
theorem exec_vsub (c : Cmd) (s : State) : exec (.vsub c) s = execVsub c s := rfl
theorem exec_vmul (c : Cmd) (s : State) : exec (.vmul c) s = execVmul c s := rfl
theorem exec_vmulh (c : Cmd) (s : State) : exec (.vmulh c) s = execVmulh c s := rfl
theorem exec_vmin (c : Cmd) (s : State) : exec (.vmin c) s = execVmin c s := rfl
theorem exec_vmax (c : Cmd) (s : State) : exec (.vmax c) s = execVmax c s := rfl
theorem exec_vabs (c : Cmd) (s : State) : exec (.vabs c) s = execVabs c s := rfl
theorem exec_vneg (c : Cmd) (s : State) : exec (.vneg c) s = execVneg c s := rfl
theorem exec_vand (c : Cmd) (s : State) : exec (.vand c) s = execVand c s := rfl
theorem exec_vor (c : Cmd) (s : State) : exec (.vor c) s = execVor c s := rfl
theorem exec_vxor (c : Cmd) (s : State) : exec (.vxor c) s = execVxor c s := rfl
theorem exec_vnot (c : Cmd) (s : State) : exec (.vnot c) s = execVnot c s := rfl
theorem exec_vandn (c : Cmd) (s : State) : exec (.vandn c) s = execVandn c s := rfl
theorem exec_vsll (c : Cmd) (s : State) : exec (.vsll c) s = execVsll c s := rfl
theorem exec_vsrl (c : Cmd) (s : State) : exec (.vsrl c) s = execVsrl c s := rfl
theorem exec_vsra (c : Cmd) (s : State) : exec (.vsra c) s = execVsra c s := rfl
theorem exec_vfsh (c : Cmd) (s : State) : exec (.vfsh c) s = execVfsh c s := rfl
theorem exec_vbfx (c : Cmd) (s : State) : exec (.vbfx c) s = execVbfx c s := rfl
theorem exec_vbfi (c : Cmd) (s : State) : exec (.vbfi c) s = execVbfi c s := rfl
theorem exec_vpopc (c : Cmd) (s : State) : exec (.vpopc c) s = execVpopc c s := rfl
theorem exec_vclz (c : Cmd) (s : State) : exec (.vclz c) s = execVclz c s := rfl
theorem exec_vcmpEq (c : Cmd) (s : State) : exec (.vcmpEq c) s = execVcmpEq c s := rfl
theorem exec_vcmpNe (c : Cmd) (s : State) : exec (.vcmpNe c) s = execVcmpNe c s := rfl
theorem exec_vcmpLt (c : Cmd) (s : State) : exec (.vcmpLt c) s = execVcmpLt c s := rfl
theorem exec_vcmpLe (c : Cmd) (s : State) : exec (.vcmpLe c) s = execVcmpLe c s := rfl
theorem exec_vcmpGt (c : Cmd) (s : State) : exec (.vcmpGt c) s = execVcmpGt c s := rfl
theorem exec_vcmpGe (c : Cmd) (s : State) : exec (.vcmpGe c) s = execVcmpGe c s := rfl
theorem exec_vpand (c : Cmd) (s : State) : exec (.vpand c) s = execVpand c s := rfl
theorem exec_vpor (c : Cmd) (s : State) : exec (.vpor c) s = execVpor c s := rfl
theorem exec_vpxor (c : Cmd) (s : State) : exec (.vpxor c) s = execVpxor c s := rfl
theorem exec_vpnot (c : Cmd) (s : State) : exec (.vpnot c) s = execVpnot c s := rfl
theorem exec_vpset (c : Cmd) (s : State) : exec (.vpset c) s = execVpset c s := rfl
theorem exec_vsel (c : Cmd) (s : State) : exec (.vsel c) s = execVsel c s := rfl
theorem exec_vfadd (c : Cmd) (s : State) : exec (.vfadd c) s = execVfadd c s := rfl
theorem exec_vfsub (c : Cmd) (s : State) : exec (.vfsub c) s = execVfsub c s := rfl
theorem exec_vfmul (c : Cmd) (s : State) : exec (.vfmul c) s = execVfmul c s := rfl
theorem exec_vfma (c : Cmd) (s : State) : exec (.vfma c) s = execVfma c s := rfl
theorem exec_vfms (c : Cmd) (s : State) : exec (.vfms c) s = execVfms c s := rfl
theorem exec_vfmin (c : Cmd) (s : State) : exec (.vfmin c) s = execVfmin c s := rfl
theorem exec_vfmax (c : Cmd) (s : State) : exec (.vfmax c) s = execVfmax c s := rfl
theorem exec_vfabs (c : Cmd) (s : State) : exec (.vfabs c) s = execVfabs c s := rfl
theorem exec_vfneg (c : Cmd) (s : State) : exec (.vfneg c) s = execVfneg c s := rfl
theorem exec_vqm8 (c : Cmd) (s : State) : exec (.vqm8 c) s = execVqm8 c s := rfl
theorem exec_vqi8 (c : Cmd) (s : State) : exec (.vqi8 c) s = execVqi8 c s := rfl
theorem exec_vdqm8 (c : Cmd) (s : State) : exec (.vdqm8 c) s = execVdqm8 c s := rfl
theorem exec_vdqi8 (c : Cmd) (s : State) : exec (.vdqi8 c) s = execVdqi8 c s := rfl
theorem exec_vcvt (c : Cmd) (s : State) : exec (.vcvt c) s = execVcvt c s := rfl
theorem exec_vredsum (c : Cmd) (s : State) : exec (.vredsum c) s = execVredsum c s := rfl
theorem exec_vredmax (c : Cmd) (s : State) : exec (.vredmax c) s = execVredmax c s := rfl
theorem exec_vredmin (c : Cmd) (s : State) : exec (.vredmin c) s = execVredmin c s := rfl
theorem exec_vredmaxabs (c : Cmd) (s : State) : exec (.vredmaxabs c) s = execVredmaxabs c s := rfl
theorem exec_vdot (c : Cmd) (s : State) : exec (.vdot c) s = execVdot c s := rfl
theorem exec_vperm (c : Cmd) (s : State) : exec (.vperm c) s = execVperm c s := rfl
theorem exec_vrot (c : Cmd) (s : State) : exec (.vrot c) s = execVrot c s := rfl
theorem exec_vsplat (c : Cmd) (s : State) : exec (.vsplat c) s = execVsplat c s := rfl
theorem exec_vld (c : Cmd) (s : State) : exec (.vld c) s = execVld c s := rfl
theorem exec_vgather (c : Cmd) (s : State) : exec (.vgather c) s = execVgather c s := rfl
theorem exec_vst (c : Cmd) (s : State) : exec (.vst c) s = execVst c s := rfl
theorem exec_vscatter (c : Cmd) (s : State) : exec (.vscatter c) s = execVscatter c s := rfl
theorem exec_vscatterAdd (c : Cmd) (s : State) : exec (.vscatterAdd c) s = execVscatterAdd c s := rfl
theorem exec_vscatterMin (c : Cmd) (s : State) : exec (.vscatterMin c) s = execVscatterMin c s := rfl
theorem exec_vscatterMax (c : Cmd) (s : State) : exec (.vscatterMax c) s = execVscatterMax c s := rfl
theorem exec_vscatterFadd (c : Cmd) (s : State) : exec (.vscatterFadd c) s = execVscatterFadd c s := rfl
theorem exec_vscatterFmaxabs (c : Cmd) (s : State) : exec (.vscatterFmaxabs c) s = execVscatterFmaxabs c s := rfl
theorem exec_vmovReg (c : Cmd) (s : State) : exec (.vmovReg c) s = execVmovReg c s := rfl
theorem exec_vmovFromDq (c : Cmd) (s : State) : exec (.vmovFromDq c) s = execVmovFromDq c s := rfl
theorem exec_vmovToDq (c : Cmd) (s : State) : exec (.vmovToDq c) s = execVmovToDq c s := rfl
theorem exec_vmovi (c : Cmd) (s : State) : exec (.vmovi c) s = execVmovi c s := rfl
theorem exec_viota (c : Cmd) (s : State) : exec (.viota c) s = execViota c s := rfl
theorem exec_vany (c : Cmd) (s : State) : exec (.vany c) s = execVany c s := rfl
theorem exec_vall (c : Cmd) (s : State) : exec (.vall c) s = execVall c s := rfl
theorem exec_txSend (c : Cmd) (s : State) : exec (.txSend c) s = execTxSend c s := rfl
theorem exec_txPut (c : Cmd) (s : State) : exec (.txPut c) s = execTxPut c s := rfl
theorem exec_txPutArrive (c : Cmd) (s : State) : exec (.txPutArrive c) s = execTxPutArrive c s := rfl
theorem exec_txGet (c : Cmd) (s : State) : exec (.txGet c) s = execTxGet c s := rfl
theorem exec_rxPost (c : Cmd) (s : State) : exec (.rxPost c) s = execRxPost c s := rfl
theorem exec_rxCancel (c : Cmd) (s : State) : exec (.rxCancel c) s = execRxCancel c s := rfl
theorem exec_messageArrival (m : Message) (s : State) : exec (.messageArrival m) s = execMessageArrival m s := rfl
theorem exec_landingComplete (ctx : Nat) (s : State) : exec (.landingComplete ctx) s = execLandingComplete ctx s := rfl
theorem exec_remoteArrival (a : RemoteSignal) (s : State) : exec (.remoteArrival a) s = execRemoteArrival a s := rfl
theorem exec_remotePutWrite (p : RemotePut) (s : State) : exec (.remotePutWrite p) s = execRemotePutWrite p s := rfl
theorem exec_remoteGetRead (g : RemoteGet) (s : State) : exec (.remoteGetRead g) s = execRemoteGetRead g s := rfl
theorem exec_getReply (r : GetReply) (s : State) : exec (.getReply r) s = execGetReply r s := rfl
theorem exec_messageAck (a : MsgAck) (s : State) : exec (.messageAck a) s = execMessageAck a s := rfl
theorem exec_packetArrival (p : Packet) (s : State) : exec (.packetArrival p) s = execPacketArrival p s := rfl
theorem exec_protectedResend (source : Nat) (s : State) : exec (.protectedResend source) s = execProtectedResend source s := rfl
theorem exec_flitCrcFail (flit : Flit) (s : State) : exec (.flitCrcFail flit) s = execFlitCrcFail flit s := rfl
theorem exec_jecenLaneLost (port : Nat) (s : State) : exec (.jecenLaneLost port) s = execJecenLaneLost port s := rfl
theorem exec_trainingComplete (link : Link) (lanes : Nat) (s : State) : exec (.trainingComplete link lanes) s = execTrainingComplete link lanes s := rfl
theorem exec_linkDrainComplete (link : Link) (s : State) : exec (.linkDrainComplete link) s = execLinkDrainComplete link s := rfl
theorem exec_linkDrainTimeout (link : Link) (s : State) : exec (.linkDrainTimeout link) s = execLinkDrainTimeout link s := rfl
theorem exec_routeTableUpdate (node dest : Nat) (via : List Link) (s : State) : exec (.routeTableUpdate node dest via) s = execRouteTableUpdate node dest via s := rfl
theorem exec_patrolScrub (tile layer row : Nat) (s : State) : exec (.patrolScrub tile layer row) s = execPatrolScrub tile layer row s := rfl
theorem exec_rebuildStep (bank : Nat) (s : State) : exec (.rebuildStep bank) s = execRebuildStep bank s := rfl
theorem exec_rebuildComplete (bank : Nat) (s : State) : exec (.rebuildComplete bank) s = execRebuildComplete bank s := rfl
theorem exec_tileGate (tile : Nat) (s : State) : exec (.tileGate tile) s = execTileGate tile s := rfl
theorem exec_tileUngate (tile : Nat) (s : State) : exec (.tileUngate tile) s = execTileUngate tile s := rfl
theorem exec_stageSchedulerEpoch (ctx : Nat) (s : State) : exec (.stageSchedulerEpoch ctx) s = execStageSchedulerEpoch ctx s := rfl
theorem exec_kernelLoad (ctx : Nat) (s : State) : exec (.kernelLoad ctx) s = execKernelLoad ctx s := rfl
theorem exec_kernelLoadComplete (ctx : Nat) (s : State) : exec (.kernelLoadComplete ctx) s = execKernelLoadComplete ctx s := rfl
theorem exec_kernelRetire (ctx : Nat) (s : State) : exec (.kernelRetire ctx) s = execKernelRetire ctx s := rfl
theorem exec_softPreemptGraceExpiry (ctx : Nat) (s : State) : exec (.softPreemptGraceExpiry ctx) s = execSoftPreemptGraceExpiry ctx s := rfl
theorem exec_saveComplete (ctx : Nat) (s : State) : exec (.saveComplete ctx) s = execSaveComplete ctx s := rfl
theorem exec_rqtailDoorbell (ring : Nat) (tail : Nat) (s : State) : exec (.rqtailDoorbell ring tail) s = execRqtailDoorbell ring tail s := rfl
theorem exec_hostBarAccess (a : BarAccess) (s : State) : exec (.hostBarAccess a) s = execHostBarAccess a s := rfl
theorem exec_create (r : Request) (s : State) : exec (.create r) s = execCreate r s := rfl
theorem exec_writeRecord (r : Request) (s : State) : exec (.writeRecord r) s = execWriteRecord r s := rfl
theorem exec_commit (r : Request) (s : State) : exec (.commit r) s = execCommit r s := rfl
theorem exec_launch (r : Request) (s : State) : exec (.launch r) s = execLaunch r s := rfl
theorem exec_preemptSoft (r : Request) (s : State) : exec (.preemptSoft r) s = execPreemptSoft r s := rfl
theorem exec_preemptHard (r : Request) (s : State) : exec (.preemptHard r) s = execPreemptHard r s := rfl
theorem exec_saveOut (r : Request) (s : State) : exec (.saveOut r) s = execSaveOut r s := rfl
theorem exec_restore (r : Request) (s : State) : exec (.restore r) s = execRestore r s := rfl
theorem exec_teardown (r : Request) (s : State) : exec (.teardown r) s = execTeardown r s := rfl
theorem exec_releaseComplete (ctx : Nat) (s : State) : exec (.releaseComplete ctx) s = execReleaseComplete ctx s := rfl
theorem exec_declareFault (r : Request) (s : State) : exec (.declareFault r) s = execDeclareFault r s := rfl
theorem exec_invalidate (r : Request) (s : State) : exec (.invalidate r) s = execInvalidate r s := rfl
theorem exec_movePage (r : Request) (s : State) : exec (.movePage r) s = execMovePage r s := rfl
theorem exec_barrowEpoch (ctx : Nat) (s : State) : exec (.barrowEpoch ctx) s = execBarrowEpoch ctx s := rfl
theorem exec_movePinWaitTimeout (ctx : Nat) (s : State) : exec (.movePinWaitTimeout ctx) s = execMovePinWaitTimeout ctx s := rfl
theorem exec_moveStart (ctx : Nat) (s : State) : exec (.moveStart ctx) s = execMoveStart ctx s := rfl
theorem exec_moveCommit (ctx : Nat) (s : State) : exec (.moveCommit ctx) s = execMoveCommit ctx s := rfl
theorem exec_installTakeMailbox (ctx : Nat) (s : State) : exec (.installTakeMailbox ctx) s = execInstallTakeMailbox ctx s := rfl
theorem exec_installComplete (ctx : Nat) (r : InstallEnd) (s : State) : exec (.installComplete ctx r) s = execInstallComplete ctx r s := rfl
theorem exec_registerDomain (r : Request) (s : State) : exec (.registerDomain r) s = execRegisterDomain r s := rfl
theorem exec_withdrawDomain (r : Request) (s : State) : exec (.withdrawDomain r) s = execWithdrawDomain r s := rfl
theorem exec_closeQueue (r : Request) (s : State) : exec (.closeQueue r) s = execCloseQueue r s := rfl
theorem exec_hostRead (r : Request) (s : State) : exec (.hostRead r) s = execHostRead r s := rfl
theorem exec_linkEnable (r : Request) (s : State) : exec (.linkEnable r) s = execLinkEnable r s := rfl
theorem exec_linkRetire (r : Request) (s : State) : exec (.linkRetire r) s = execLinkRetire r s := rfl
theorem exec_linkRetrain (r : Request) (s : State) : exec (.linkRetrain r) s = execLinkRetrain r s := rfl
theorem exec_power (r : Request) (s : State) : exec (.power r) s = execPower r s := rfl
theorem exec_attest (r : Request) (s : State) : exec (.attest r) s = execAttest r s := rfl
theorem exec_installRecord (r : Request) (s : State) : exec (.installRecord r) s = execInstallRecord r s := rfl
theorem exec_installWeights (r : Request) (s : State) : exec (.installWeights r) s = execInstallWeights r s := rfl
theorem exec_boot (b : BootFindings) (s : State) : exec (.boot b) s = execBoot b s := rfl
theorem exec_deviceReset (s : State) : exec (.deviceReset) s = execDeviceReset s := rfl
theorem exec_powerLoss (s : State) : exec (.powerLoss) s = execPowerLoss s := rfl
theorem exec_d3hotTransition (s : State) : exec (.d3hotTransition) s = execD3hotTransition s := rfl
theorem exec_cxlExpanderRemoval (base : Nat) (s : State) : exec (.cxlExpanderRemoval base) s = execCxlExpanderRemoval base s := rfl
theorem exec_illegalInstruction (w : Word32) (s : State) : exec (.illegalInstruction w) s = execIllegalInstruction w s := rfl
theorem exec_deviceRegisterWrite (offset : Nat) (v : Word) (s : State) : exec (.deviceRegisterWrite offset v) s = execDeviceRegisterWrite offset v s := rfl
theorem exec_jecenLaneRestored (port : Nat) (s : State) : exec (.jecenLaneRestored port) s = execJecenLaneRestored port s := rfl

end Sys2Proof.Machine
end

