-- ==== Sys2Proof/Tests/Slice0.lean ====
section
/-! SUPPORT. Tests of the model: terms that well-formedness refuses, words written out from the encoding tables of the
manual, small results taken from the manual's own examples, and for each statement with premises a state that meets them. -/

namespace Sys2Proof.Tests

set_option Elab.async false

open Sys2Proof.Machine Sys2Proof.Claims

/-! ## Well-formedness -/

/-- A command of a variant, format, modifiers and operand bits, with nothing else set. -/
def cmd (sub fmt md opnd patch : Nat) : Cmd :=
  { a := false, u := false, t := false, sub := BitVec.ofNat 8 sub, fmt := BitVec.ofNat 4 fmt, md := BitVec.ofNat 4 md,
    hmask := 0, cmask := 0, opnd := BitVec.ofNat 128 opnd, patch := BitVec.ofNat 64 patch }

/-- A request of a context and its first argument words. -/
def req (ctx w1 w2 : Nat) : Request :=
  { ctx := BitVec.ofNat 8 ctx, rsv := 0, tag := 77, args := BitVec.ofNat 448 (w1 + w2 * 2 ^ 64) }

/-- The command constructors but the vector ones, with one command. -/
def commandsA (c : Cmd) : List Instr :=
  [.cnop c, .cbump c, .cmark c, .fdRow c, .fdRowCrd c, .fdGather c, .fdBcast c, .fdBcastSplat c, .fdSkip c, .fdStore c,
   .srtCodes c, .bkClear c, .bkSum c, .bkFin c, .anLease c, .anLdw c, .anSwap c, .anMul c, .anGmul c, .anClose c,
   .anDrain c, .anFree c, .anZero c, .cpNd c, .cpGather c, .cpScatter c, .cpDec c, .cpRed c, .cpFill c, .cpPref c,
   .txSend c, .txPut c, .txPutArrive c, .txGet c, .rxPost c, .rxCancel c]

/-- The register-form vector constructors with elementwise results. -/
def commandsB (c : Cmd) : List Instr :=
  [.vadd c, .vsub c, .vmul c, .vmulh c, .vmin c, .vmax c, .vabs c, .vneg c, .vand c, .vor c, .vxor c, .vnot c, .vandn c,
   .vsll c, .vsrl c, .vsra c, .vfsh c, .vbfx c, .vbfi c, .vpopc c, .vclz c, .vcmpEq c, .vcmpNe c, .vcmpLt c, .vcmpLe c,
   .vcmpGt c, .vcmpGe c, .vpand c, .vpor c, .vpxor c, .vpnot c, .vpset c, .vsel c, .vfadd c, .vfsub c, .vfmul c, .vfma c,
   .vfms c, .vfmin c, .vfmax c, .vfabs c, .vfneg c, .vqm8 c, .vqi8 c, .vdqm8 c, .vdqi8 c, .vcvt c]

/-- The other vector constructors. -/
def commandsC (c : Cmd) : List Instr :=
  [.vredsum c, .vredmax c, .vredmin c, .vredmaxabs c, .vdot c, .vperm c, .vrot c, .vsplat c, .vld c, .vst c, .vgather c,
   .vscatter c, .vscatterAdd c, .vscatterMin c, .vscatterMax c, .vscatterFadd c, .vscatterFmaxabs c, .viota c, .vany c,
   .vall c, .vmovReg c, .vmovFromDq c, .vmovToDq c, .vmovi c]

/-- A variant that no command has is refused for each command constructor. -/
theorem test_wf_variants : [commandsA, commandsB, commandsC].all (fun f => (f (cmd 255 0 0 0 0)).all (fun i => !variantOk i)) = true := by decide +kernel

/-- `vmov` constructors with the mode of another one are refused (R283). -/
theorem test_wf_vmov_modes :
    (variantOk (.vmovReg (cmd 0 3 0 (2 ^ 80) 0)), variantOk (.vmovFromDq (cmd 0 3 0 0 0)),
      variantOk (.vmovToDq (cmd 0 3 0 (2 ^ 80) 0))) = (false, false, false) := by decide +kernel

/-- A header that fails a check of R66 is refused: the class 7, an unassigned OP, MOD bits, a format. -/
theorem test_wf_headers :
    ((cmd 0 0 0 0 0).wf 0xE0, (cmd 0 0 0 0 0).wf 0x03, (cmd 0 0 1 0 0).wf 0x00, (cmd 0 11 0 0 0).wf 0x60,
      (cmd 0 0 4 0 0).wf 0x60, (cmd 0 0 0 0 0).wf 0x6C, (cmd 0 3 0 0 0).wf 0x60) =
    (false, false, false, false, false, false, true) := by decide +kernel

/-- Hart instructions whose fields no instruction has. -/
def illFormed : List Instr :=
  [.qput 1 3 2 4, .qstatQ 1 3, .qsync 3, .tlWait 7 1, .tlRead 1 7,
   .baseInstruction (.farith .fadd 1 2 3 5), .baseInstruction (.fma .fmadd 1 2 3 4 6), .baseInstruction (.fsqrt 1 2 5),
   .baseInstruction (.fcvtToInt .w 1 2 6), .baseInstruction (.fcvtFromInt .l 1 2 5),
   .baseInstruction (.csrRead ⟨.rw, false, 1, 2, 0x8C8⟩),
   .csrWrite ⟨.rs, false, 1, 0, 0x8C8⟩, .csrWrite ⟨.rw, false, 1, 2, 0x8C0⟩,
   .rndtileWrite ⟨.rs, false, 1, 0, 0x8C0⟩, .rndtileWrite ⟨.rw, false, 1, 2, 0x8C8⟩,
   .illegalInstruction 0x00C58533]

/-- Requests and events whose fields none has. -/
def illFormedEvents : List Instr :=
  [.preemptSoft (req 0 1 0), .preemptHard (req 0 0 0), .linkEnable (req 0 0 1), .linkRetire (req 0 0 2),
   .linkRetrain (req 0 0 0), .kexitRelease 512, .tileGate 512, .tileUngate 512, .commandComplete 512 0 0,
   .patrolScrub 512 0 0, .leaseGrant 128, .leaseIdleExpiry 128, .landingComplete 64, .stageSchedulerEpoch 64,
   .kernelLoad 64, .kernelLoadComplete 64, .kernelRetire 64, .softPreemptGraceExpiry 64, .saveComplete 64,
   .releaseComplete 64, .barrowEpoch 64, .movePinWaitTimeout 64, .moveStart 64, .moveCommit 64, .installTakeMailbox 64,
   .installComplete 64 ⟨0, false, false, true⟩, .jecenLaneLost 144, .jecenLaneRestored 144, .rqtailDoorbell 16 0]

theorem test_wf_fields : [illFormed, illFormedEvents].all (fun l => l.all (fun i => !i.wf)) = true := by decide +kernel

/-! ## Words written out from the encoding tables -/

/-- Hart words of the manual's printed examples (R57, R58, R62, R115, R131, R152, R199, R200, R203, R209). -/
theorem test_decode_printed_words :
    [decodeHart 0x3FC000DB 0, decodeHart 0x0000117B 0x3DCCCCCD, decodeHart 0x0000328B 0, decodeHart 0x1600328B 0,
     decodeHart 0x000542FB 0, decodeHart 0x0255437B 0, decodeHart 0x060022FB 0, decodeHart 0x040033FB 0,
     decodeHart 0x0800507B 0] =
    [.fimmS 1 0x3FC00, .flitS 2 0x3DCCCCCD, .qstatQ 5 0, .qstatDq 5 3, .barrArrive 5 10, .barrWait 6 10 5, .tlRead 5 0,
     .wsleep 7, .tret] := by decide +kernel

/-- Hart words built field by field from R53 to R56: funct7 or immediate, rs2, rs1, funct3, rd, opcode. -/
theorem test_decode_hart_fields :
    [decodeHart (0b0000001#7 ++ 12#5 ++ 11#5 ++ 0b000#3 ++ 10#5 ++ 0b0001011#7) 0,
     decodeHart (0xFFF#12 ++ 7#5 ++ 0b001#3 ++ 15#5 ++ 0b0001011#7) 0,
     decodeHart (0x080#12 ++ 7#5 ++ 0b010#3 ++ 3#5 ++ 0b0001011#7) 0,
     decodeHart (0x010#12 ++ 7#5 ++ 0b001#3 ++ 9#5 ++ 0b0101011#7) 0,
     decodeHart (0b0000001#7 ++ 9#5 ++ 7#5 ++ 0b011#3 ++ 0b00100#5 ++ 0b0101011#7) 0,
     decodeHart (0x07#7 ++ 12#5 ++ 11#5 ++ 0b110#3 ++ 10#5 ++ 0b0101011#7) 0,
     decodeHart (13#5 ++ 0#2 ++ 12#5 ++ 11#5 ++ 0b111#3 ++ 10#5 ++ 0b0101011#7) 0,
     decodeHart (0x01#7 ++ 0#5 ++ 11#5 ++ 0b010#3 ++ 4#5 ++ 0b1111011#7) 0,
     decodeHart (0x00#7 ++ 31#5 ++ 0#5 ++ 0b011#3 ++ 0#5 ++ 0b1111011#7) 0,
     decodeHart (0x00#7 ++ 1#5 ++ 11#5 ++ 0b110#3 ++ 10#5 ++ 0b1111011#7) 0] =
    [.qput 10 1 11 12, .cset 15 7 0xFFF, .hld 3 7 0x080, .ldt 9 7 0x010, .ste 7 9 0x024, .maCas 10 11 12,
     .maAddb 10 11 12 13, .tkTake 4 11, .fenceG 31, .accrd 10 1 11] := by decide +kernel

/-- Standard words written out from RV64IMF: add, jal −4, sd, fadd.s, csrrw, ecall, ebreak, mret. -/
theorem test_decode_standard_words :
    [decodeHart 0x00C58533 0, decodeHart 0xFFDFF06F 0, decodeHart 0x00C5B823 0, decodeHart 0x00C5F553 0,
     decodeHart 0x8C859573 0, decodeHart 0x00000073 0, decodeHart 0x00100073 0, decodeHart 0x30200073 0] =
    [.baseInstruction (.alu .add 10 11 12), .baseInstruction (.jal 0 0xFFFFE), .plainStore .sd 11 12 16,
     .baseInstruction (.farith .fadd 10 11 12 7), .csrWrite ⟨.rw, false, 10, 11, 0x8C8⟩, .baseInstruction .ecall, .ebreak,
     .baseInstruction .mret] := by decide +kernel

/-- Reserved words are illegal: an unassigned funct3, a selector, a register index, a field that is not zero (R54). -/
theorem test_decode_reserved_words :
    [decodeHart 0x0000700B 0, decodeHart 0x0600328B 0, decodeHart 0x0000190B 0, decodeHart 0x080050FB 0,
     decodeHart 0x00000000 0].all (fun i => match i with | .illegalInstruction _ => true | _ => false) = true := by
  decide +kernel

/-- A command word built field by field: PATCH, OPND, CMASK, HMASK, MOD, FMT, SUB, reserved, T, U, A, OP (R59). -/
def word (op : BitVec 8) (atu : BitVec 3) (sub : BitVec 8) (fmt md : BitVec 4) : CmdBits :=
  (5#64) ++ (6#128) ++ (0#16) ++ (0#16) ++ md ++ fmt ++ sub ++ (0#5) ++ atu ++ op

/-- One command word of each family, from R62 and R63; bit 8 is A, bit 10 is T. -/
theorem test_decode_command_words :
    let c : Cmd := cmd 0 0 0 6 5
    [decodeCommand (word 0x00 0 0 0 0), decodeCommand (word 0x02 0b100 0 0 0), decodeCommand (word 0x21 1 0 9 0),
     decodeCommand (word 0x40 0 0 5 0), decodeCommand (word 0x4A 0 2 8 0), decodeCommand (word 0x60 0 1 3 1),
     decodeCommand (word 0x64 0 5 10 0), decodeCommand (word 0x69 0 3 8 0), decodeCommand (word 0x6F 0 4 8 0),
     decodeCommand (word 0x83 0b100 0 10 0), decodeCommand (word 0xA4 0 7 4 0), decodeCommand (word 0xC1 0 1 0 0)] =
    [some (.cnop c), some (.cmark { c with t := true }), some (.fdGather { c with a := true, fmt := 9 }),
     some (.srtCodes { c with fmt := 5 }), some (.bkFin { c with sub := 2, fmt := 8 }),
     some (.vsub { c with sub := 1, fmt := 3, md := 1 }), some (.vcmpGe { c with sub := 5, fmt := 10 }),
     some (.vredmaxabs { c with sub := 3, fmt := 8 }), some (.vscatterFadd { c with sub := 4, fmt := 8 }),
     some (.anMul { c with t := true, fmt := 10 }), some (.cpRed { c with sub := 7, fmt := 4 }),
     some (.txPutArrive { c with sub := 1 })] := by decide +kernel

/-- A request built field by field: arguments, tag, reserved, context, op (R377, R379). -/
theorem test_decode_request_words :
    let r : Request := { ctx := 3, rsv := 0, tag := 9, args := 1 }
    [decodeRequest ((1#448) ++ (9#32) ++ (0#16) ++ (3#8) ++ (0x04#8)), decodeRequest ((1#448) ++ (9#32) ++ (0#16) ++ (3#8) ++ (0x05#8)),
     decodeRequest ((1#448) ++ (9#32) ++ (0#16) ++ (3#8) ++ (0x10#8)), decodeRequest ((1#448) ++ (9#32) ++ (0#16) ++ (3#8) ++ (0x15#8))] =
    [some (.launch r), some (.preemptHard r), some (.linkEnable r), none] := by decide +kernel

/-! ## A small state

Context 0 runs on cluster 0. Its page table maps three pages of 2 MiB: 0x200000 read and write and 0x400000 read-only in
tier S at the same physical address, 0x600000 read and write at the base of tier D. -/

/-- The page table of the small state, in tier S (R329, R330). -/
def tables : List Host.Cell :=
  (((((State.reset).rawWrite 0x4000 8 (2 ^ 63 + 0x8000)).rawWrite 0x8000 8 (2 ^ 63 + 0xC000)).rawWrite
    0xC008 8 (2 ^ 63 + 2 ^ 62 + 2 ^ 57 + 2 ^ 56 + 0x200000)).rawWrite
    0xC010 8 (2 ^ 63 + 2 ^ 62 + 2 ^ 57 + 0x400000)).rawWrite
    0xC018 8 (2 ^ 63 + 2 ^ 62 + 2 ^ 59 + 2 ^ 57 + 2 ^ 56 + 0x10000000000) |>.mem

/-- A hart that runs with registers, traps enabled and its handler at 0x100. -/
def hartWith (x : SMap Word) : Hart := { run := .running, pc := 0x20, x := x, ctxvec := 0x101 }

/-- The small state with one tile's contents, acting as an agent. -/
def labWith (a : Agent) (k : TileCtx) : State :=
  { State.reset with
    cur := a
    mem := tables
    tiles := [(0, { owner := some (0, 0), imem := [(8, 0x00C58533)], textLen := 0x40000, ctx := k })]
    ctxs := [(0, { st := .running, cfg := { ptroot := 0x4000 }, clusters := [0] })] }

/-- The small state with a running main hart. -/
def lab (x : SMap Word) : State := labWith (.main 0) { main := hartWith x, move := hartWith [] }
/-- The small state with a running movement hart. -/
def labMove (x : SMap Word) : State := labWith (.move 0) { main := hartWith [], move := hartWith x }

def h0 : HartId := ⟨0, false⟩
def h1 : HartId := ⟨0, true⟩

/-- Whether an outcome is a next state with a property. -/
def nextIs (o : Host.Outcome State Fault Refusal) (p : State → Bool) : Bool :=
  match o with
  | .next t => p t
  | _ => false

/-- Whether a part of an instruction has its effect, with a property of its result and state. -/
def okIs {α : Type} (r : EStateM.Result Exc State α) (p : α → State → Bool) : Bool :=
  match r with
  | .ok a t => p a t
  | _ => false

theorem next_of {o : Host.Outcome State Fault Refusal} {p : State → Bool} (h : nextIs o p = true) :
    ∃ t, o = .next t ∧ p t = true := by
  cases o with
  | next t => exact ⟨t, rfl, h⟩
  | fault _ => cases h
  | refused _ => cases h

theorem ok_of {α : Type} {r : EStateM.Result Exc State α} {p : α → State → Bool} (h : okIs r p = true) :
    ∃ a t, r = .ok a t ∧ p a t = true := by
  cases r with
  | ok a t => exact ⟨a, t, rfl, h⟩
  | error _ _ => cases h

/-- Whether a translation has an effect that a hart may use, with a property of its result and state. -/
def readIs (s : State) (h : HartId) (n : Nat) (va : Word) (p : Leaf → State → Bool) : Bool :=
  decide (va.toNat % n = 0) && decide (va.toNat < 2 ^ 52) &&
    match s.translate h.tile (.hart h.move) (s.ctxOf h.tile) va.toNat with
    | (t, .ok l) => !l.compressed && p l t
    | _ => false

theorem readable_of {s : State} {h : HartId} {n : Nat} {va : Word} {p : Leaf → State → Bool}
    (e : readIs s h n va p = true) : ∃ l t, Readable s h n va l t ∧ p l t = true := by
  unfold readIs at e
  simp only [Bool.and_eq_true, decide_eq_true_eq] at e
  obtain ⟨⟨a, b⟩, c⟩ := e
  split at c
  next t l he =>
    simp only [Bool.and_eq_true, Bool.not_eq_true'] at c
    exact ⟨l, t, ⟨a, b, he, c.1⟩, c.2⟩
  next => cases c

/-- Whether a translation serves a store or an atomic, on a line that no command holds. -/
def writes (s : State) (h : HartId) (n : Nat) (va : Word) (p : Leaf → State → Bool) : Bool :=
  readIs s h n va (fun l t => l.writable && decide ((t.ctx (t.ctxOf h.tile)).moving va.toNat = false) &&
    !(l.tier = 0 && (t.tc h.tile).lineHeld (l.pa / 64) true) && p l t)

theorem writable_of {s : State} {h : HartId} {n : Nat} {va : Word} {p : Leaf → State → Bool}
    (e : writes s h n va p = true) : ∃ l t, Writable s h n va l t ∧ LineFree t h l true ∧ p l t = true := by
  obtain ⟨l, t, r, q⟩ := readable_of e
  simp only [Bool.and_eq_true, decide_eq_true_eq, Bool.not_eq_true', LineFree] at *
  exact ⟨l, t, ⟨r, q.1.1.1, q.1.1.2⟩, q.1.2, q.2⟩

theorem lab_quiet (a : Agent) (k : TileCtx) : Quiet (labWith a k) := by
  constructor
  · rfl
  · intro line
    have : ∀ b, (labWith a k).bank b = {} := fun b => rfl
    simp [State.erasedBanks, this]

/-! ## The step and the invariants -/

/-- Witness of DecodeOfEncode: an instruction that meets its premises. -/
theorem witness_DecodeOfEncode : (Instr.cset 15 31 0xFFF).wf = true ∧ encode (.cset 15 31 0xFFF) = some (32, 0xFFFF978B) := by
  decide +kernel

/-- Witness of StepRunsTheDecodedInstruction: a main hart at the last word of instruction memory and a movement hart. -/
theorem witness_StepRuns_harts :
    let s := (lab []).modHart h0 (fun h => { h with pc := 0x3FFFC })
    let t := { s with agenda := [.run (.move 0)] }
    Acts s (.main 0) s ∧ (s.tile 0).owner.isSome = true ∧ (s.hart h0).run = .running ∧ (s.ctx (s.ctxOf 0)).st = .running ∧
      (s.hart h0).trapReady = false ∧ (s.hart h0).pc.toNat < Config.imemBytes ∧ Acts t (.move 0) { s with cur := .move 0 } ∧
      ((State.hart { s with cur := .move 0 } h1).run = .running) := by
  refine ⟨.inl ⟨rfl, rfl, rfl⟩, by decide +kernel, by decide +kernel, by decide +kernel, by decide +kernel, by decide +kernel,
    .inr ⟨[], rfl, rfl⟩, by decide +kernel⟩

/-- A step of the small state runs `add x10, x11, x12`, the word at its pc. -/
theorem test_step_add : nextIs (step (lab [(11, 40), (12, 2)])) (fun t =>
    t.readX h0 10 = 42 && (t.hart h0).pc = 0x24 && (t.hart h0).instret = 1) = true := by decide +kernel

/-- Witness of StepKeepsMemoryCanonical: the small state's memory is canonical and its step answers. -/
theorem witness_StepKeepsMemoryCanonical : memoryOk (lab []) ∧ ∃ t, step (lab []) = .next t :=
  ⟨by unfold memoryOk; decide +kernel, (next_of (p := fun _ => true) (by decide +kernel)).imp fun _ h => h.1⟩

/-! ## Constants and the standard subset -/

/-- `fimm.s` 1.5, `flit.s` 0.1 and `cset` with a negative constant (R209's table, R212). -/
theorem test_constants :
    (nextIs (exec (.fimmS 1 0x3FC00) (lab [])) (fun t => (t.hart h0).readF 1 = 0x3FC00000) &&
     nextIs (exec (.flitS 2 0x3DCCCCCD) (lab [])) (fun t => (t.hart h0).readF 2 = 0x3DCCCCCD && (t.hart h0).pc = 0x28) &&
     nextIs (exec (.cset 3 0 0x800) (lab [])) (fun t => SMap.get 0 (t.hart h0).c 3 = 0xFFFFFFFFFFFFF800)) = true := by
  decide +kernel

/-- Witness of ConstantResults: `flit.s` before the last word, and `hld` from the end of a page. -/
theorem witness_ConstantResults : ∃ w t, plainWords h0 (addressOf (lab [(5, 0x3FFF80)]) h0 5 0) 16 (lab [(5, 0x3FFF80)]) = .ok w t ∧
      (decide ((addressOf (lab [(5, 0x3FFF80)]) h0 5 0).toNat % 128 = 0) &&
        decide ((0x3FFF8 : Word).toNat + 4 < Config.imemBytes)) = true := ok_of (by decide +kernel)

/-- Division by zero and the overflow of `div`, W forms sign-extended, `mulhu` (RV64IM). -/
theorem test_integer :
    (aluValue .div 7 0 = 0xFFFFFFFFFFFFFFFF ∧ aluValue .rem 7 0 = 7 ∧
     aluValue .div 0x8000000000000000 0xFFFFFFFFFFFFFFFF = 0x8000000000000000 ∧
     aluValue .rem 0x8000000000000000 0xFFFFFFFFFFFFFFFF = 0 ∧
     aluWValue .addw 0x7FFFFFFF 1 = 0xFFFFFFFF80000000 ∧
     aluValue .mulhu 0xFFFFFFFFFFFFFFFF 0xFFFFFFFFFFFFFFFF = 0xFFFFFFFFFFFFFFFE) := by decide +kernel

/-- Witness of StandardSubsetResults: valid and invalid rounding modes, a branch taken and not, to a good and a bad target. -/
theorem witness_StandardSubsetResults :
    rmodeOf 7 4 = some .rmm ∧ rmodeOf 7 5 = none ∧ rmodeOf 5 0 = none ∧
    branchTaken .bltu 0xFFFFFFFFFFFFFFFF 0 = false ∧ branchTaken .blt 0xFFFFFFFFFFFFFFFF 0 = true ∧
    ((0x20 : Word) + ((0x002 : BitVec 12) ++ (0#1)).signExtend 64).toNat % 4 = 0 ∧
    ((0x20 : Word) + ((0x001 : BitVec 12) ++ (0#1)).signExtend 64).toNat % 4 ≠ 0 := by decide +kernel

/-- Witness of the CSR clauses of StandardSubsetResults, of its divisions and of its jumps. -/
theorem witness_StandardSubset_csr :
    (readCsr (lab []) h0 0xC00).isSome = true ∧ readCsr (lab []) h0 0x300 = none ∧ (5 : Word) ≠ 0 ∧
    ((0xFFFFFFFF00000000 : Word).setWidth 32 : Word32) = 0 ∧
    (((lab [(5, 0x103)]).readX h0 5 + (0 : BitVec 12).signExtend 64) &&& ~~~1 : Word).toNat % 4 ≠ 0 := by decide +kernel

/-- A taken branch to a target that is no multiple of 4 traps with code 0 and writes nothing (R51, R130). -/
theorem test_branch_misaligned : nextIs (exec (.baseInstruction (.branch .beq 0 0 1)) (lab [])) (fun t =>
    (t.hart h0).pc = 0x100 && (t.hart h0).ctxepc = 0x20 && (t.hart h0).ctxval = 0x22 && (t.hart h0).inHandler) = true := by
  decide +kernel

/-- 1.5 + 2.25 and 1 / 3 rounded to nearest even, with the inexact flag (R29, R50). -/
theorem test_float : farithValue .fadd .rne 0x3FC00000 0x40100000 = (0x40700000, 0) ∧
    farithValue .fdiv .rne 0x3F800000 0x40400000 = (0x3EAAAAAB, 1) := by decide +kernel

/-! ## Loads and stores -/

/-- Witness of PlainLoadResults and of LoadFrame: a byte at the end of a page that only permits reading. -/
theorem witness_PlainLoad : ∃ l t, Readable (lab [(5, 0x5FFFFF)]) h0 (loadSize .lbu) (addressOf (lab [(5, 0x5FFFFF)]) h0 5 0) l t ∧
    ((!(l.tier = 0 && (t.tc 0).lineHeld (l.pa / 64) false)) &&
      nextIs (exec (.plainLoad .lbu 6 5 0) (lab [(5, 0x5FFFFF)])) (fun _ => true)) = true := readable_of (by decide +kernel)

/-- Witness of the remote clauses of PlainLoadResults: a line of tier D that is not cached, and one that is. -/
theorem witness_PlainLoad_remote :
    (∃ l t, Readable (lab []) h0 8 0x600000 l t ∧ (leavesTile 0 l && decide (l.tier ≠ 2) && ((t.tile 0).cache.find? (fun x =>
      x.line = l.pa / 64)).isNone && (t.takeLoss 0 0 false l).isNone) = true) ∧
    (∃ l t, Readable ((lab []).setTile 0 { (lab []).tile 0 with cache := [⟨0x10000000000 / 64, 7⟩] }) h0 8 0x600000 l t ∧
      (leavesTile 0 l && ((t.tile 0).cache.find? (fun x => x.line = l.pa / 64)).isSome) = true) :=
  ⟨readable_of (by decide +kernel), readable_of (by decide +kernel)⟩

/-- Witness of the traps of PlainLoadResults: a misaligned address, the first past the virtual space, and an unmapped one. -/
theorem witness_PlainLoadTraps :
    (0x200004 : Word).toNat % loadSize .ld ≠ 0 ∧ (2 ^ 52 ≤ (0x10000000000000 : Word).toNat ∧
      (0x10000000000000 : Word).toNat % loadSize .ld = 0) ∧
    ((lab []).translate 0 (.hart false) 0 0x1FFFF8).2 = .error 1 := by decide +kernel

/-- A store of a word and the loads of it: sign and zero extension, little-endian bytes (R50). -/
theorem test_store_load : nextIs (exec (.plainStore .sw 5 6 4) (lab [(5, 0x200000), (6, 0xFFFFFFFF89ABCDEF)])) (fun s =>
    s.byte 0x200004 = 0xEF && s.byte 0x200007 = 0x89 && s.byte 0x200008 = 0 &&
    nextIs (exec (.plainLoad .lw 7 5 4) s) (fun t => t.readX h0 7 = 0xFFFFFFFF89ABCDEF) &&
    nextIs (exec (.plainLoad .lhu 7 5 6) s) (fun t => t.readX h0 7 = 0x89AB)) = true := by decide +kernel

/-- A store to a page without W traps with code 15 and kind 3 (R130, R348). -/
theorem test_store_read_only : nextIs (exec (.plainStore .sd 5 6 0) (lab [(5, 0x400000)])) (fun t =>
    (t.hart h0).ctxcause.toNat % 256 = 15 && (t.hart h0).ctxval = 0x400000 && (t.hart h0).pc = 0x100) = true := by
  decide +kernel

/-- Witness of StoreResults and of StoreFrame: the last doubleword of a writable page; `ld.u` reads it too. -/
theorem witness_Store :
    ∃ l t, Writable (lab [(5, 0x3FFFF8)]) h0 (storeSize .sd) (addressOf (lab [(5, 0x3FFFF8)]) h0 5 0) l t ∧ LineFree t h0 l true ∧
      (decide (l.tier ≠ 2) && decide ((lab [(5, 0x3FFFF8)]).held = []) &&
        nextIs (exec (.plainStore .sd 5 6 0) (lab [(5, 0x3FFFF8)])) (fun _ => true) &&
        nextIs (exec (.sdU 5 6 0) (lab [(5, 0x3FFFF8)])) (fun _ => true) &&
        nextIs (exec (.ldU 6 5 0) (lab [(5, 0x3FFFF8)])) (fun _ => true)) = true := writable_of (by decide +kernel)

/-- Witness of the clauses of StoreResults, AtomicResults and BarrierResults on what is stored: a writable word whose place is there, on
which no request is held, in a state with no upset. -/
theorem witness_Stored : Quiet (lab []) ∧ ∃ l t, Writable (lab []) h0 8 0x200000 l t ∧ LineFree t h0 l true ∧
    (t.fitted l.pa && decide (tierOf l.pa ≠ some 2) && t.held.all (fun r => r.pa / 8 ≠ l.pa / 8) &&
      (t.takeLoss 0 0 true l).isNone && (t.takeLoss 0 0 false l).isNone) = true :=
  ⟨lab_quiet _ _, writable_of (by decide +kernel)⟩

/-- Witness of RegisterFrame: one of its instructions answers a next state. -/
theorem witness_RegisterFrame : ∃ t, exec (.qstatDq 5 7) (lab []) = .next t :=
  (next_of (p := fun _ => true) (by decide +kernel)).imp fun _ h => h.1

/-! ## Atomics, tagged words -/

/-- Witness of AtomicResults: a doubleword of tier S, one of tier D, and four bytes at a page's end. -/
theorem witness_AtomicResults :
    (∃ l t, Writable (lab []) h0 8 0x200000 l t ∧ LineFree t h0 l true ∧ decide (l.tier = 0) = true) ∧
    (∃ l t, Writable (lab []) h0 8 0x600000 l t ∧ LineFree t h0 l true ∧ decide (l.tier = 1) = true) ∧
    (∃ l t, Writable (lab []) h0 4 0x3FFFFC l t ∧ LineFree t h0 l true ∧ decide (l.tier ≤ 1) = true) :=
  ⟨writable_of (by decide +kernel), writable_of (by decide +kernel), writable_of (by decide +kernel)⟩

/-- `ma.incw` wraps at its bound, `ma.addb` refuses past its bound with bit 63, `ma.cas` compares with xd (R221, R222). -/
theorem test_atomics :
    let s := (lab [(5, 0x200000), (6, 3), (7, 9), (8, 3)]).rawWrite 0x200000 8 3
    (nextIs (exec (.maIncw 9 5 6) s) (fun t => t.readX h0 9 = 3 && t.rawRead 0x200000 8 = 0) &&
     nextIs (exec (.maAddb 9 5 7 6) s) (fun t => t.readX h0 9 = 0x8000000000000003 && t.rawRead 0x200000 8 = 3) &&
     nextIs (exec (.maCas 8 5 7) s) (fun t => t.readX h0 8 = 3 && t.rawRead 0x200000 8 = 9)) = true := by decide +kernel

/-- `ma.fmaxabs.s` of −3 and 2 (R221). -/
theorem test_fmaxabs : nextIs (exec (.maFmaxabsS 9 5 6)
    ((lab [(5, 0x200000), (6, 0x40000000)]).rawWrite 0x200000 4 0xC0400000)) (fun t =>
    t.readX h0 9 = 0xC0400000 && t.rawRead 0x200000 4 = 0x40400000) = true := by decide +kernel

/-- Witness of the sending clauses of TaggedResults. -/
theorem witness_TaggedSent :
    (∃ l t, Readable (lab []) h0 8 0x5FFFF8 l t ∧ (decide (l.tier = 0) && !(t.tc 0).lineHeld (l.pa / 64) false) = true) ∧
    (∃ l t, Writable (lab []) h0 8 0x200000 l t ∧ LineFree t h0 l true ∧ decide (l.tier = 0) = true) :=
  ⟨readable_of (by decide +kernel), writable_of (by decide +kernel)⟩

/-- A tagged request of each form at a word. -/
def heldAs (k : TaggedKind) : Held := { pa := 0x200000, tile := 0, move := false, kind := k, rd := 9, value := 5 }

/-- Witness of the service clauses of TaggedResults: no request that can be served, and one that can. -/
theorem witness_TaggedService :
    ((lab []).heldReady (heldAs .ldt) = false ∧ (lab []).heldReady (heldAs .ste) = true) ∧
      (heldAs .ldt).pa % 8 = 0 ∧ (heldAs .ldt).kind = .ldt ∧ (heldAs .ldf).kind = .ldf ∧ (heldAs .ste).kind = .ste ∧
      (heldAs .stf).kind = .stf ∧
      (lab []).isFull 0x200000 = false ∧ (((lab []).setFull 0x200000 true)).isFull 0x200000 = true ∧
      State.heldReady { lab [] with held := [heldAs .stf] } (heldAs .stf) = true := by decide +kernel

/-- `stf` fills a word that an `ldt` then reads and empties (R217); an `ldf` of an empty word waits. -/
theorem test_tagged : nextIs (exec (.stf 5 6 0) (lab [(5, 0x200000), (6, 77)])) (fun s =>
    s.isFull 0x200000 && nextIs (exec (.ldt 7 5 0) s) (fun t =>
      t.readX h0 7 = 77 && !t.isFull 0x200000 && t.rawRead 0x200000 8 = 77 && decide ((t.hart h0).pc = 0x28) &&
      nextIs (exec (.ldf 7 5 0) t) (fun u => decide ((u.hart h0).run = .waiting (.tagged 0x200000))))) = true := by
  decide +kernel

/-! ## Tokens, timelines, wake slots, barriers -/

/-- The small state with a token counter. -/
def labToken (x : SMap Word) (k : Token) : State :=
  labWith (.main 0) { main := hartWith x, move := hartWith [], tokens := [(3, k)] }

/-- Witness of TokenResults: counts at both ends of the range, with units, without, and out of range. -/
theorem witness_TokenResults :
    let s := labToken [(5, 65535), (6, 1), (7, 65536)] { count := 65535 }
    let k := (s.tc 0).token 3
    (s.readX h0 5 ≠ 0 ∧ (s.readX h0 5).toNat ≤ 65535 ∧ k.waiters = [] ∧ (s.readX h0 5).toNat ≤ k.count) ∧
    (s.readX h0 6).toNat ≤ k.count ∧ 65535 < (s.readX h0 7).toNat ∧ s.readX h0 0 = 0 ∧
    ((labToken [(5, 65535)] { count := 65534 }).readX h0 5).toNat > ((labToken [] { count := 65534 }).tc 0 |>.token 3).count ∧
    (let w := (labToken [] { count := 2, waiters := [.hart false 2] }).setWait h0 (.tk 3 2)
     (w.hart h0).run = .waiting (.tk 3 2) ∧ ((w.tc 0).token 3).waiters.head? = some (.hart false 2)) := by decide +kernel

/-- A give clamps at 2^32 − 1 (R215). -/
theorem test_give_clamps : nextIs (exec (.tkGive 3 5) (labToken [(5, 10)] { count := 0xFFFFFFFA })) (fun t =>
    ((t.tc 0).token 3).count = 0xFFFFFFFF) = true := by decide +kernel

/-- Witness of TimelineAndFenceResults: a count reached, one that a command still out will reach, one that none will. -/
theorem witness_TimelineResults :
    let s := labWith (.main 0) { main := hartWith [(5, 3), (6, 4)], move := hartWith [], tlk := 3, targetK := 4 }
    beyondTarget s h0 2 (s.readX h0 5).toNat = false ∧ (s.readX h0 5).toNat ≤ s.timeline 0 2 ∧
    beyondTarget s h0 2 (s.readX h0 6).toNat = false ∧ s.timeline 0 2 < (s.readX h0 6).toNat ∧
    beyondTarget s h0 2 5 = true ∧
    ((s.setWait h0 (.tl 2 3)).hart h0).run = .waiting (.tl 2 3) ∧
    (beyondTarget ((lab [(5, 1)]).modCtx 0 (fun c => { c with tlr := 1 })) h0 4 1 = false ∧
      1 ≤ ((lab [(5, 1)]).modCtx 0 (fun c => { c with tlr := 1 })).timeline 0 4) := by decide +kernel

/-- Witness of the fence clauses: an entry that is bound with tile reach, one that is not. -/
theorem witness_FenceResults :
    let s := (lab []).modCtx 0 (fun c => { c with scopes := [(31, 2 ^ 63)] })
    ((s.hart h0).run ≠ .waiting .fence ∧ (s.ctx 0).scopeBound 0 = false) ∧
      ((s.ctx 0).scopeBound 31 = true → (SMap.get 0 (s.ctx 0).scopes 31).getLsbD 8 = false) := by decide +kernel

/-- Witness of WakeResults: a word of tier S, no slot in use, a slot armed and not fired, a slot fired. -/
theorem witness_WakeResults :
    (∃ l t, Readable (lab []) h0 8 0x200000 l t ∧ decide (l.tier = 0) = true) ∧
    ((lab []).hart h0).slots = [] ∧
    (let s := (lab []).modHart h0 (fun h => { h with slots := [(3, .armed 0x200000)] })
     (s.hart h0).slots ≠ [] ∧ (s.hart h0).fired = []) ∧
    (let s := ((lab []).modHart h0 (fun h => { h with slots := [(1, .fired), (3, .fired)] })).setWait h0 (.wsleep 7)
     (s.hart h0).slots ≠ [] ∧ (s.hart h0).fired ≠ [] ∧ (s.hart h0).run = .waiting (.wsleep 7)) :=
  ⟨readable_of (by decide +kernel), by decide +kernel, by decide +kernel, by decide +kernel⟩

/-- `wsleep` with slots 1 and 3 fired gives 0xA01 (R203). -/
theorem test_wsleep : nextIs (exec (.wsleep 7) ((lab []).modHart h0 (fun h => { h with slots := [(1, .fired), (3, .fired)] })))
    (fun t => t.readX h0 7 = 0xA01 && (t.hart h0).slots = []) = true := by decide +kernel

/-- Witness of BarrierArrivalRule: the cases meet at a party count one above the arrivals, and at party count zero. -/
theorem witness_BarrierArrivalRule :
    arrival 0 0 = none ∧ arrival 0 (2 ^ 40) = none ∧ arrival 0 2 = some (1, 0) ∧ arrival 1 2 = some (2 ^ 40, 2 ^ 63) ∧
      arrival 0 1 = some (2 ^ 40, 2 ^ 63) ∧ arrival ((2 ^ 24 - 1) * 2 ^ 40) 1 = some (0, 2 ^ 63 + (2 ^ 24 - 1)) := by
  decide +kernel

/-- Witness of BarrierResults: a barrier of two parties, arrived at and waited on. -/
theorem witness_BarrierResults :
    let s := (lab [(5, 0x200010)]).rawWrite 0x200018 8 2
    (∃ l t, Writable s h0 8 (s.readX h0 5) l t ∧ LineFree t h0 l true ∧
      (decide (l.tier = 0) && (s.readX h0 5).toNat % 16 = 0 && decide (arrival 0 2 = some (1, 0)) &&
        nextIs (exec (.barrArrive 6 5) s) (fun t => t.rawRead 0x200010 8 = 1 && t.isFull 0x200010) &&
        nextIs (exec (.barrWait 6 5 0) s) (fun t => decide ((t.hart h0).run = .waiting (.barr 0x200010 0x200010 0 6))) &&
        nextIs (exec (.barrWait 6 5 5) s) (fun t => decide ((t.hart h0).run = .running))) = true) :=
  writable_of (by decide +kernel)

/-! ## Commands of the small state -/

/-- An entry that its stream may start, with captured handles and coordinates. -/
def entryOf (op : Nat) (c : Cmd) (h : SMap Record) (x : SMap Word) : Entry :=
  { seq := 1, w := bitsOfCmd (BitVec.ofNat 8 op) c, st := .taken, h := h, c := x }

/-- The small state's tile with an entry in a queue. -/
def holding (q : Nat) (e : Entry) (k : TileCtx) : TileCtx :=
  { k with main := hartWith [], move := hartWith [] }.setQueue q { entries := [e], pushed := 2, done := 1 }

/-- The small state with one command at the head of queue q, seen by its engine. -/
def labCmd (a : Agent) (q : Nat) (e : Entry) (k : TileCtx) : State := labWith a (holding q e k)

/-- Whether the head of queue q has made its effect. -/
def madeEffect (q : Nat) (t : State) : Bool := ((t.queue 0 q).find 1).any (fun e => decide (e.st = .done))

/-- A command with the A bit and captures. -/
def capt (c : Cmd) (a : Bool) (h x : Nat) : Cmd :=
  { c with a := a, hmask := BitVec.ofNat 16 h, cmask := BitVec.ofNat 16 x }

/-- A dense record of base, format and dimensions (extent, stride) (R227). -/
def dense (base fmt : Nat) (dims : List (Nat × Nat)) : Record :=
  BitVec.ofNat 1024 (base + fmt * 2 ^ 56 + dims.length * 2 ^ 60 +
    ((dims.zip (List.range 12)).map (fun p => (p.1.1 + p.1.2 * 2 ^ 29) * 2 ^ (64 * (4 + p.2)))).sum)

/-! ## Engine reads -/

/-- Witness of EngineReadResults: the last element with and without an owner of the accumulators, a vote out and in. -/
theorem witness_EngineReadResults :
    let s := lab [(5, 4095)]
    let mul := labWith (.main 0) (holding 0 (entryOf 0x83 (cmd 0 10 0 0 0) [] []) {})
    let any := labWith (.main 0) (holding 0 (entryOf 0x71 (cmd 0 0 0 (3 * 2 ^ 40) 0) [] []) {})
    (s.me.move = false ∧ (s.readX h0 5).toNat < 4096 ∧ (s.tc 0).q0.entries.find? (fun x => ownsAcc x.w) = none) ∧
    ((mul.tc 0).q0.entries.find? (fun x => ownsAcc x.w)).isSome = true ∧
    (s.tc 0).votePending 3 = false ∧ (any.tc 0).votePending 3 = true ∧
    ((s.setWait h0 (.vread 6 3)).hart h0).run = .waiting (.vread 6 3) := by decide +kernel

/-- `accrd` while `an.mul` is out traps with code 27 (R223); the status of an empty queue is idle (R152). -/
theorem test_engine_reads :
    (nextIs (exec (.accrd 6 0 0) (labWith (.main 0) (holding 0 (entryOf 0x83 (cmd 0 10 0 0 0) [] []) {})))
      (fun t => (t.hart h0).ctxcause.toNat % 256 = 27) &&
     nextIs (exec (.qstatQ 6 0) (lab [])) (fun t => (t.readX h0 6).toNat / 2 ^ 61 = 0)) = true := by decide +kernel

/-! ## Traps, services, control registers -/

/-- Witness of TrapEntry, of TrapInHandlerFaultsTheContext and of the premises of TrapInstructions. -/
theorem witness_Traps :
    (let x := (lab []).hart h0
     x.inHandler = false ∧ x.trapsEnabled = true ∧ x.machine = false) ∧
    (let s := (lab []).modHart h0 (fun h => { h with ctxstat := 0x70 })
     (s.hart h0).inHandler = true ∧ (s.ctx (s.ctxOf 0)).st = .running ∧ (s.ctx (s.ctxOf 0)).hasFault = false) ∧
    (let s := (lab []).modHart h0 (fun h => { h with ctxvec := 0x100, machine := true })
     (s.hart h0).trapsEnabled = false ∧ (s.hart h0).machine = true) ∧
    ((lab []).modHart h0 (fun h => { h with ctxstat := 0x60 }) |>.hart h0).trapReady = true ∧
    ((0 : Reg) ≠ 0 ∨ (0 : Reg) ≠ 0 ∨ (31 : Reg) ≠ 0) := by decide +kernel

/-- Taking a trap saves pc, cause and value and sets H; `tret` goes back and clears it (R129, R131). -/
theorem test_trap_and_return : nextIs (exec .ebreak (lab [])) (fun s =>
    (s.hart h0).pc = 0x100 && (s.hart h0).ctxepc = 0x20 && (s.hart h0).ctxcause.toNat % 256 = 3 && (s.hart h0).inHandler &&
    nextIs (exec .tret s) (fun t => (t.hart h0).pc = 0x20 && !(t.hart h0).inHandler)) = true := by decide +kernel

/-- A second trap in the handler is a context fault of reason 2 (R129, R132). -/
theorem test_trap_in_handler :
    nextIs (exec .ebreak ((lab []).modHart h0 (fun h => { h with ctxstat := 0x30 }))) (fun s =>
      decide ((s.ctx 0).st = .faulted) && (s.ctx 0).hasFault) = true := by decide +kernel

/-- Witness of ServiceResults: a mailbox of 15 entries and one of 16, a context that runs without a fault. -/
theorem witness_ServiceResults :
    (((lab []).modCtx 0 (fun c => { c with mailbox := List.replicate 15 7 })).ctx 0).mailbox.length < 16 ∧
    16 ≤ (((lab []).modCtx 0 (fun c => { c with mailbox := List.replicate 16 7 })).ctx 0).mailbox.length ∧
    ((lab []).ctx 0).st = .running ∧ ((lab []).ctx 0).hasFault = false ∧ ((lab []).hart h0).machine = false ∧
    (((lab []).modHart h0 (fun h => { h with machine := true })).hart h0).machine = true := by decide +kernel

/-- Witness of CsrResults: a running hart, the movement hart, a main hart with q0 empty and a write. -/
theorem witness_CsrResults :
    ((lab []).hart h0).run = .running ∧ (labMove []).me.move = true ∧ (lab []).me.move = false ∧ CsrKind.rw ≠ .rc ∧
      ((lab []).tc 0).q0.entries = [] ∧
      ((labWith (.main 0) { q0 := { faulted := true } }).queue 0 0).faulted = true ∧ ((lab []).queue 0 0).faulted = false ∧
      (lab []).me.move = decide ((0 : BitVec 2) ≠ 0) ∧ (lab []).me.move = decide ((1 : BitVec 2) = 0) := by decide +kernel

/-- `csrrs` of the scratch register sets bits and gives the old value; a vector keeps its reserved bits zero (R140, R403). -/
theorem test_csr :
    (nextIs (exec (.csrWrite ⟨.rs, false, 6, 5, 0x8C8⟩) ((lab [(5, 0xF0)]).modHart h0 (fun h => { h with ctxscr := 0x0F })))
      (fun t => t.readX h0 6 = 0x0F && (t.hart h0).ctxscr = 0xFF) &&
     nextIs (exec (.csrWrite ⟨.rw, false, 0, 5, 0x8C4⟩) (lab [(5, 0xFFFFFFFFFFFFFFFF)]))
      (fun t => (t.hart h0).ctxvec = 0x3FFFD)) = true := by decide +kernel

/-! ## Command queues -/

/-- A template of `cnop` with T set at 0x200000, one of `fd.row` in a queue that does not take it. -/
def labPush (x : SMap Word) (k : TileCtx) : State :=
  (labWith (.main 0) { k with main := hartWith x, move := hartWith [] }).rawWrite 0x200000 8 0x400

/-- A queue of waiting entries. -/
def full (n : Nat) : CmdQueue := { entries := (List.range n).map (fun i => { seq := i, w := 0 }), pushed := n }

/-- Witness of PushResults: a template, room for the last entry and for none, and a header of class 7. -/
theorem witness_PushResults :
    okIs (readTemplate h0 0x200000 0 (labPush [] {})) (fun w t =>
      headerCheck (bits w 0 32) 0 false = 0 && headerCheck (bits w 0 32 ||| 0xE0) 0 false = 1 &&
      decide (t.rangeOf ⟨0, 0, t.entryFor h0 0 w, false, none⟩ = none) &&
      decide (((full 63).entries.filter (·.waiting)).length < Config.queueCap 0) &&
      !decide (((full 64).entries.filter (·.waiting)).length < Config.queueCap 0)) = true := by decide +kernel

/-- A push appends with the next number and gives the timeline value; into a full queue it stalls (R65, R146). -/
theorem test_push :
    (nextIs (exec (.qput 6 0 5 0) (labPush [(5, 0x200000)] { q0 := full 63 })) (fun t =>
      (t.queue 0 0).entries.length = 64 && t.readX h0 6 = 1) &&
     nextIs (exec (.qput 6 0 5 0) (labPush [(5, 0x200000)] { q0 := full 64 })) (fun t =>
      (t.queue 0 0).entries.length = 64 && decide ((t.hart h0).run ≠ .running))) = true := by decide +kernel

/-- Witness of QueueProgress: a faulted queue, one with an entry that waits, and a command that is done. -/
theorem witness_QueueProgress_slicer :
    let s := labWith (.slicer 0) { q0 := full 1 }
    (labWith (.slicer 0) { q0 := { faulted := true } } |>.queue 0 0).faulted = true ∧
    ((s.queue 0 0).faulted = false ∧ (s.ctx (s.ctxOf 0)).st = .running ∧
      ((s.queue 0 0).entries.find? (fun e => e.st = .queued)).isSome = true) ∧
    (let e := { entryOf 0x00 (cmd 0 0 0 0 0) [] [] with st := .done }
     let t := labCmd (.compute 0) 0 e {}
     (t.queue 0 0).find 1 = some e ∧ field e.w 5 3 ≠ 5 ∧ (t.ctx (t.ctxOf 0)).st = .running) := by decide +kernel

/-- Witness of the other clauses of StepRunsTheDecodedInstruction: a hart that waits, a trap that is ready, an event, the slicer, an engine with a
finished command and with one to run or to start, and a ring that can start a request. -/
theorem witness_StepRuns_engines :
    let s := (lab []).setWait h0 (.tl 2 3)
    let p := (lab []).modHart h0 (fun h => { h with ctxstat := 0x60 })
    let e := entryOf 0x00 (cmd 0 0 0 0 0) [] []
    let go := labCmd (.compute 0) 0 e {}
    let done := labCmd (.compute 0) 0 { e with st := .done } {}
    let on := labCmd (.compute 0) 0 { e with st := .running } {}
    let host := { (lab []) with cur := .ring 0, rings := [(2, { rqsize := 4, rqtail := 1 })], dev := { (lab []).dev with ready := true } }
    ((s.hart h0).run = .waiting (.tl 2 3) ∧ (s.hart h0).trapReady = false ∧ (Wait.tl 2 3).row.isSome = true) ∧
    ((p.hart h0).run = .running ∧ (p.hart h0).trapReady = true) ∧ ((p.setWait h0 .kexit).hart h0).trapReady = true ∧
    ((done.queue 0 0).finished 0 false).isSome = true ∧
    ((go.queue 0 0).finished 0 false = none ∧ (go.queue 0 0).head 0 false = some e ∧ (decodeCommand e.w).isSome = true) ∧
    ((go.queue 0 0).working 0 false (some { seq := 0, only := true }) = some e ∧ ((on.queue 0 0).working 0 false (some { seq := 1 })).isSome = true ∧
      ((on.queue 0 0).working 0 false (some { seq := 1, word := some (0x200000 / 8) })).isSome = true) ∧
    (((List.range 16).map (fun i => (host.dev.turn + 1 + i) % 16)).find? host.ringReady = some 2 ∧
      (decodeRequest ((host.rawWrite (hostPa 0) 8 (0x04 + 3 * 2 ^ 8)).ringWord 2)).isSome = true) := by decide +kernel

/-- Witness of the copy clause of QueueProgress: a copy that is done with status 0 and a token, and one that is not. -/
theorem witness_QueueProgress_copy :
    let c := cmd 0 0 0 (5 * 2 ^ 112) 0
    let e := { entryOf 0xA0 c [] [] with st := .done }
    let bad := { e with prog := { lost := true, miss := 3 } }
    let s := labCmd (.copy 0) 1 e {}
    (s.tc 0).q1.find 1 = some e ∧ field e.w 5 3 = 5 ∧ (s.ctx (s.ctxOf 0)).st = .running ∧ copyKind 0xA0 ≠ .pref ∧
      cpTkn (cmdOfBits e.w) ≠ 0 ∧ e.prog.status = 0 ∧ bad.prog.status ≠ 0 := by decide +kernel

/-- The control commands with a word of the small state. -/
def control (op : Nat) : Cmd := if op = 2 then cmd 0 0 0 0x200008 9 else cmd 0 0 0 0 9
def labControl (op : Nat) : State := labCmd (.compute 0) 0 (entryOf op (control op) [] []) {}

/-- Witness of the control clauses of QueueProgress: each command meets its premises, and has its effect. -/
theorem witness_QueueProgress_control :
    [0, 1, 2].all (fun op =>
      let s := labControl op; let c := control op; let r : Run := ⟨0, 0, entryOf op c [] [], false, none⟩
      s.pick.isNone && decide (s.runOf op c = some r) && decide ((s.ctx (s.ctxOf r.t)).st = .running) &&
      !(s.queue r.t r.q).unitBusy r.e && !s.earlierLeft r && !(s.tc r.t).rangeHeld r.q r.e.seq &&
      okIs (checkReserved c [if op = 2 then (128, 64) else (64, 128)] s) (fun _ _ => true) &&
      (op ≠ 2 || okIs (fillWord r (markAddr c) 9 s) (fun _ t => t.isFull 0x200008 && t.rawRead 0x200008 8 = 9)) &&
      nextIs (match op with | 0 => exec (.cnop c) s | 1 => exec (.cbump c) s | _ => exec (.cmark c) s) (madeEffect 0)) = true := by
  decide +kernel

/-- Witness of SyncAndRecovery: all commands done, some not, another hart's queue, recoveries with and without a started
command. -/
theorem witness_SyncAndRecovery :
    let q : CmdQueue := full 1
    let s := labWith (.main 0) { main := hartWith [], q0 := { q with done := 1 } }
    let t := labWith (.main 0) { main := hartWith [], q0 := q }
    ((0 : BitVec 2) ≠ 3 ∧ s.me.move = decide ((0 : BitVec 2) ≠ 0) ∧ (s.queue 0 0).pushed ≤ (s.queue 0 0).done) ∧
    (t.queue 0 0).done < (t.queue 0 0).pushed ∧ s.me.move = decide ((1 : BitVec 2) = 0) ∧
    ((s.setWait h0 (.qsync 0)).hart h0).run = .waiting (.qsync 0) ∧
    ((t.setWait h0 (.qrec 0 true)).hart h0).run = .waiting (.qrec 0 true) ∧
    (t.queue 0 0).entries.any (fun e => e.st = .running || e.st = .done) = false ∧
    ((labCmd (.main 0) 0 { entryOf 0 (cmd 0 0 0 0 0) [] [] with st := .running } {}).queue 0 0).entries.any
      (fun e => e.st = .running || e.st = .done) = true := by decide +kernel

/-- A flush empties a faulted queue and makes it usable (R159). -/
theorem test_flush :
    let e : Entry := { entryOf 0 (cmd 0 0 0 0 0) [] [] with st := .faulted }
    let q : CmdQueue := { entries := [e, { e with seq := 2, st := .queued }], faulted := true, pushed := 3, done := 1 }
    nextIs (exec .qrecFlush ((labWith (.main 0) { main := hartWith [], q0 := q }).setWait h0 (.qrec 0 true))) (fun t =>
      (t.queue 0 0).entries.isEmpty && !(t.queue 0 0).faulted && (t.queue 0 0).done = 3 && decide ((t.hart h0).run = .running)) =
    true := by decide +kernel

/-! ## Stage queues and kernels -/

/-- A stage queue of 4 items of 8 bytes at 0x200100 that holds two items. -/
def sq : StageQueue :=
  { base := 0x200100, depth := 4, item := 1, rsv := 1, hi := 3, lo := 1, ovf := 0, ovfn := 0, isOpen := true, init := 0,
    ring := [0, 1] }

/-- A kernel of one stage whose input is its one queue, with tile 0 bound to it. -/
def kernel1 (q : StageQueue) : Kernel :=
  { st := .running, record := 0x200000, text := 0x200800, textLen := 64, tables := 0, ep := 0, arg := 0,
    stages := [{ main := 0, move := 0, tmin := 1, tmax := 4, inq := 0, outs := [0], factor := 1, minchunk := 1 }],
    queues := [q], bound := [(0, { stage := 0, born := 0 })], nextSeq := 2 }

/-- The small state with that kernel. -/
def labKernel (a : Agent) (x : SMap Word) (k : Kernel) : State :=
  (labWith a { main := hartWith x, move := hartWith [] }).modCtx 0 (fun c => { c with kernel := some k })

/-- Witness of StageQueueResults: no kernel, a chunk that is not and one that is outstanding, a take that is served, a spawn
that finds a place, and a spawn to a drained queue. -/
theorem witness_StageQueueResults :
    let c : Chunk := { ctile := 0, first := 0, count := 1, va := 0x200100 }
    let s := labKernel (.main 0) [(5, 0x200100), (6, 0x10000), (7, 0x200000)] (kernel1 { sq with chunks := [c] })
    let hit (x : Chunk) : Bool := field (s.readX h0 5) 62 2 = 0 && x.ctile = s.ctileOf 0 && !x.retired &&
      x.va = field (s.readX h0 5) 0 52
    let t := s.tend 0 0
    (((lab []).ctx 0).kernel = none ∧ hit c = true ∧ hit { c with va := 0x200108 } = false) ∧
    (((labKernel (.main 0) [] (kernel1 sq)).tend 0 0).ctx 0).kernel.any (fun k => (k.serve 0).any (fun p => p.2.isSome)) = true ∧
    ((t.ctx 0).kernel.any (fun k => decide ((k.queueAt 0).bind (fun q => q.plan 1 (decide (k.oldest = some 0))) = some (0, 0, 1)))
      && !t.spanMoving 0 0x200100 32) = true ∧
    field (s.readX h0 6) 32 32 = 0 ∧ field (s.readX h0 6) 4 12 = 0 ∧ field (s.readX h0 6) 16 16 = 1 ∧
    okIs (plainWords h0 (s.readX h0 7) 1 s) (fun _ _ => true) = true := by decide +kernel

/-- Witness of StageQueueResults, the cases of a take (a mark, four chunks outstanding, a drained queue, an empty queue with a chunk
outstanding and with none, another tile's turn) and of a spawn that has no place; a take and a spawn that wait. -/
theorem witness_StageQueue_cases :
    let c (n : Nat) : Chunk := { ctile := n, first := 0, count := 1, va := 0x200100 }
    let s (q : StageQueue) : State := labKernel (.main 0) [] (kernel1 q)
    let at0 (q : StageQueue) (p : Kernel → StageQueue → Bool) : Bool :=
      (((s q).tend 0 0).ctx 0).kernel.any (fun k => (k.queueAt 0).any (p k))
    let four : List Chunk := (List.range 4).map (fun _ => c 0)
    (({ stage := 0, born := 0, mark := some 5 } : Binding).mark = some 5 ∧ ({ stage := 0, born := 0 } : Binding).mark = none) ∧
    (at0 { sq with chunks := four, depth := 8 } (fun k q => k.outstanding 0 = 4 && !q.drained && !q.ring.isEmpty) &&
      at0 { sq with chunks := four.drop 1, depth := 8 } (fun k q => k.outstanding 0 = 3 && !q.ring.isEmpty && q.waiters.headD 0 = 0) &&
      at0 { sq with ring := [], drained := true } (fun k q => k.outstanding 0 = 0 && q.drained) &&
      at0 { sq with ring := [], chunks := [c 0] } (fun k q => k.outstanding 0 = 1 && !q.drained && q.ring.isEmpty) &&
      at0 { sq with ring := [] } (fun k q => k.outstanding 0 = 0 && !q.drained && q.ring.isEmpty) &&
      at0 { sq with waiters := [3] } (fun k q => k.outstanding 0 = 0 && !q.drained && q.waiters.headD 0 ≠ 0)) = true ∧
    ({ sq with ring := [0, 1, 2, 3] } : StageQueue).plan 1 true = none ∧ ({ sq with ring := [0, 1, 2] } : StageQueue).plan 1 false = none ∧
    sq.plan 1 false = some (1, 0, 0) ∧ ({ sq with ovfn := 2, ring := [0, 1, 2] } : StageQueue).plan 2 false = some (0, 2, 0) ∧
    (((s sq).setWait h0 (.stgTake 6)).hart h0).run = .waiting (.stgTake 6) ∧
    (((s sq).setWait h0 (.spawn 6 0 1 [7])).hart h0).run = .waiting (.spawn 6 0 1 [7]) := by decide +kernel

/-- A take gives the size and the address of the chunk, ⌈2 / 1⌉ = 2 items here (R170, R171). -/
theorem test_take : nextIs (exec (.stgTake 6) (labKernel (.main 0) [] (kernel1 sq))) (fun t =>
    t.readX h0 6 = (0x200100 : Word) + 2 * 2 ^ 52) = true := by decide +kernel

/-- Witness of KernelExit: a command out and none, a tile whose harts have exited, a yield requested and not. -/
theorem witness_KernelExit :
    let b : Binding := { stage := 0, born := 0, mainStopped := true, moveStopped := true }
    let k := { kernel1 sq with stages := [], bound := [(0, b)] }
    (labWith (.main 0) { main := hartWith [], q0 := full 1 }).pushesOut h0 = true ∧
    ((lab []).pushesOut h0 = false ∧
      ∀ q ∈ ({ lab [] with held := [{ pa := 0, tile := 1, move := false, kind := .ldf }] } : State).held, q.tile ≠ 0 ∨ q.move ≠ false) ∧
    ((labKernel (.main 0) [] k).binding 0 = some b ∧ ({ k with bound := SMap.del k.bound 0 } : Kernel).nextStage b = none) ∧
    ((lab []).hart h0).yieldRequested = false ∧
    (((lab []).modHart h0 (fun h => { h with ctxstat := 0x80 })).hart h0).yieldRequested = true := by decide +kernel

/-- Witness of KernelLife: a kernel to load, one to refuse, one to run, one whose work is done, and an epoch's end. -/
theorem witness_KernelLife :
    let k := { kernel1 { sq with ring := [] } with st := .loaded, bound := [] }
    let bad := { k with queues := [{ sq with base := 0x200101 }] }
    let s := labKernel (.main 0) [] k
    ((((lab []).modCtx 0 (fun c => { c with waiting := [k] })).ctx 0).waiting = [k] ∧ ((lab []).ctx 0).kernel = none) ∧
    (s.walkKernel 0 bad).loadReason 0 bad ≠ 0 ∧ (s.walkKernel 0 k).loadReason 0 k = 0 ∧ k.bound = [] ∧ (s.ctx 0).tiles.Nodup ∧
    ((initialStages k.stages (s.ctx 0).tiles.length)[3]? = some 0 ∧ (s.ctx 0).tiles[3]? = some 9 ∧ k.stages[0]?.isSome = true) ∧
    s.workDone 0 { k with stages := k.stages.map (fun x => { x with ended := true }) } = true ∧
    k.since + 2 ^ (k.ep + 10) ≤ 1024 ∧ (((s.modCtx 0 (fun c => { c with st := .preempting })).ctx 0).st ≠ .running) := by
  decide +kernel

/-! ## Commands that start -/

/-- Whether a command can start, with no conflicting range-table entry. -/
def starts (op : Nat) (c : Cmd) (s : State) (r : Run) : Bool :=
  s.pick.isNone && decide (s.runOf op c = some r) && decide ((s.ctx (s.ctxOf r.t)).st = .running) && !(s.queue r.t r.q).unitBusy r.e &&
    !(s.tc r.t).rangeHeld r.q r.e.seq

theorem starts_spec {op : Nat} {c : Cmd} {s : State} {r : Run} (h : starts op c s r = true) :
    CanStart op c s r ∧ RangeFree s r := by
  simp only [starts, Bool.and_eq_true, decide_eq_true_eq, Bool.not_eq_true', Option.isNone_iff_eq_none] at h
  exact ⟨⟨h.1.1.1.1, h.1.1.1.2, h.1.1.2, h.1.2⟩, h.2⟩

/-- The operand field at a place of the command word. -/
def fld (lo v : Nat) : Nat := v * 2 ^ (lo - 64)

/-- The run of a command of q0, and the small state that holds it: in the address stream where A is set. -/
def runQ0 (op : Nat) (c : Cmd) (h : SMap Record) : Run := ⟨0, 0, entryOf op c h [], false, none⟩
def labQ0 (op : Nat) (c : Cmd) (h : SMap Record) (k : TileCtx) : State :=
  labCmd (if c.a then .addr 0 else .compute 0) 0 (entryOf op c h []) k

/-! ## The address stream -/

/-- A feeder command of one slot of one element through handle 0, dimension 1 numbering the slots. -/
def feeder (sub fmt count : Nat) : Cmd :=
  capt (cmd sub fmt 0 (fld 108 1 + fld 120 1 + fld 128 count) 0) true 3 0

/-- An int8 tensor and an int32 index vector. -/
def tensor : Record := dense 0x200000 0 [(512, 1), (2, 512)]
def indices : Record := dense 0x200400 3 [(2, 1)]

/-- The premises of a filling feeder command, with the contents of its slots. -/
def feeds (kind : FeederKind) (op : Nat) (c : Cmd) (h : SMap Record) (fill : Run → Shape → M Unit) : Bool :=
  let s := labQ0 op c h {}; let r := runQ0 op c h
  starts op c s r && okIs (fdChecks kind r c s) (fun sh t => decide (t = s) &&
    okIs (fill r sh (reserved r (fdDq c) (fdNslot c) s)) (fun _ _ => true))

/-- Witness of FeederResults, `fd.row`. -/
theorem witness_Feeder_row :
    let c := feeder 0 0 1
    feeds .row 0x20 c [(0, tensor), (1, indices)] (fun r h => (List.range 1).forM (fun i => fillFrom r .row c h i (slotCoords r c i)))
      = true := by decide +kernel

/-- Witness of FeederResults, the splat and `fd.bcast`. -/
theorem witness_Feeder_bcast :
    let c := feeder 1 0 512; let b := feeder 0 0 1
    (feeds .splat 0x22 c [(0, tensor), (1, indices)] (fun r h => (List.range 1).forM (fun i => fillFrom r .splat c h i (slotCoords r c i)))
      && feeds .bcast 0x22 b [(0, tensor), (1, indices)] (fun r h => do
        let x ← slotContents r .bcast b h (slotCoords r b 0)
        (List.range 1).forM (fun k => fillSlot r 0 x.1 (fdSide b k x.2.1 x.2.2)))) = true := by decide +kernel

/-- Witness of FeederResults, `fd.gather`. -/
theorem witness_Feeder_gather :
    let c : Cmd := { feeder 0 0 1 with opnd := BitVec.ofNat 128 (fld 108 1 + fld 120 1 + fld 124 1 + fld 128 1) }
    feeds .gather 0x21 c [(0, tensor), (1, indices)] (fun r h => (List.range 1).forM (fun k => do
      let i ← indexAt (cachedGet r) (shapeOf (r.e.handle 1)) (cmdOffset c + k)
      fillFrom r .gather c h k (setNth (coordsOf r.e c 72 0) 1 i))) = true := by decide +kernel

/-- A compressed level over two rows, its segments at 0x200800 and its coordinates at 0x200C00. -/
def level : Record :=
  BitVec.ofNat 1024 (0x200000 + 1 * 2 ^ 52 + 3 * 2 ^ 56 + 2 * 2 ^ 60 + 1 * 2 ^ (64 + 58) + 0x200800 * 2 ^ 192 +
    (4 + 2 ^ 29) * 2 ^ 256 + (2 + 2 ^ 29) * 2 ^ 320 + 0x200C00 * 2 ^ 960)

/-- Witness of FeederResults, the coordinates form. -/
theorem witness_Feeder_crd :
    let c := feeder 1 3 1
    feeds .crd 0x20 c [(0, level), (1, indices)] (fun r h => (List.range 1).forM (fun i => fillFrom r .crd c h i (slotCoords r c i)))
      = true := by decide +kernel

/-- Witness of FeederResults, `fd.skip` of the most slots that a data queue holds, and it fills them. -/
theorem witness_Feeder_skip :
    let c := capt (cmd 0 0 0 (fld 108 16) 0) true 0 0
    (starts 0x23 c (labQ0 0x23 c [] {}) (runQ0 0x23 c []) && decide (reservedBit c (fdReserved .skip c) = none) &&
      nextIs (exec (.fdSkip c) (labQ0 0x23 c [] {})) (fun t =>
        madeEffect 0 t && ((t.tc 0).dqueue 0).slots.length = 16)) = true := by decide +kernel

/-- A full slot of a format and length, of two bytes 5 and 9. -/
def slotOf (fmt len : Nat) : Slot :=
  { st := .full, owner := 0, data := 0x0905, side := BitVec.ofNat 64 (127 + fmt * 2 ^ 8 + len * 2 ^ 16) }

/-- Witness of the second clause of FeederResults, and what `fd.store` writes: two bytes at the tensor's base. -/
theorem witness_Feeder_store :
    let c := { feeder 0 0 2 with hmask := 1 }; let h := [(0, tensor)]
    let s := labQ0 0x24 c h { dq := [(0, { slots := [slotOf 0 2], fills := 1 })] }; let r := runQ0 0x24 c h
    (starts 0x24 c s r && okIs (fdChecks .store r c s) (fun _ t => decide (t = s) &&
      decide ((((s.tc 0).dqueue 0).next 1).length = 1) && (((s.tc 0).dqueue 0).next 1).all (fun x => x.st = .full) &&
      (owned r 0 (claiming r 0 1 s)).all (fun x => !x.side.getLsbD 28 && field x.side 8 4 = 0)) &&
      nextIs (exec (.fdStore c) s) (fun t => madeEffect 0 t && t.byte 0x200000 = 5 && t.byte 0x200001 = 9 &&
        ((t.tc 0).dqueue 0).slots.isEmpty)) = true := by decide +kernel

/-! ## Sorting and buckets -/

/-- Witness of SortIsStable, with its answer: positions 1 and 3 hold code 0. -/
theorem witness_SortIsStable : ([1, 0, 3, 0] : List Nat).all (fun v => v < 2 ^ 2) = true ∧
    sortCodes [1, 0, 3, 0] 2 = [[1, 3], [0], [], [2]] := by decide +kernel

/-- A sorted-code handle of one row of k codes of b bits with bf16 codebook (R242), and its 2-bit code tensor. -/
def sortedRec (k b : Nat) : Record :=
  BitVec.ofNat 1024 (0x201000 + 3 * 2 ^ 52 + 9 * 2 ^ 56 + 1 * 2 ^ 60 + k * 2 ^ 64 + b * 2 ^ 80 + 1 * 2 ^ 256)
def codes : Record := dense 0x200000 6 [(64, 1)]

/-- Witness of BucketResults: `srt.codes` of one row of two codes, and `bk.clear` of the last lane. -/
theorem witness_Bucket_sort_clear :
    let h := [(0, dense 0x200000 6 [(64, 1)]), (1, sortedRec 2 2)]
    let c := capt (cmd 0 6 0 (fld 128 1 + fld 164 1) 0x200F00) false 3 0
    let s := labQ0 0x40 c h {}; let r := runQ0 0x40 c h
    let b := cmd 0 0 0 (fld 100 31 + fld 105 1) 0
    (starts 0x40 c s r && okIs (srChecks r c s) (fun _ t => decide (t = s)) &&
      starts 0x48 b (labQ0 0x48 b [] {}) (runQ0 0x48 b []) && decide (reservedBit b [(64, 36), (111, 81)] = none) &&
      nextIs (exec (.bkClear b) (labQ0 0x48 b [] { lanes := [(31, { used := true, ea := 9 })] })) (fun t =>
        madeEffect 0 t && !((t.tc 0).lane 31).used)) = true := by decide +kernel

/-- A record of one position of code 0 in memory at 0x201000: boundaries 0, 1, 1 and codebook 2.0, 3.0 (R243). -/
def labRecord (s : State) : State :=
  { s with mem := ((({ s with mem := s.mem } : State).rawWrite 0x201000 4 0x40404000).rawWrite 0x201016 4 0x00010001).mem }

/-- Witness of BucketResults, `bk.sum` of the last lane. -/
theorem witness_Bucket_sum :
    let h := [(0, sortedRec 1 1)]
    let c := capt (cmd 0 0 0 (fld 100 31 + fld 105 1) 0) false 1 0
    let s := labRecord (labQ0 0x49 c h { dq := [(0, { slots := [slotOf 0 2], fills := 1 })] }); let r := runQ0 0x49 c h
    (starts 0x49 c s r && okIs (bkChecks false false r c s) (fun _ t => decide (t = s)) &&
      okIs (bkRecords readForSum r c (claiming r 0 1 s)) (fun l _ => l.all (fun x => x.all (fun y => y.ok 1 1)) && l.length = 1) &&
      nextIs (exec (.bkSum c) s) (fun t => madeEffect 0 t && ((t.tc 0).lane 31).used &&
        decide (SMap.get 0 ((t.tc 0).lane 31).bucket 0 = 5))) = true := by decide +kernel

/-- Witness of BucketResults, `bk.fin` of that lane: 5 × 2.0 in register 3. -/
theorem witness_Bucket_fin :
    let h := [(0, sortedRec 1 1)]
    let c := capt (cmd 0 8 1 (fld 100 31 + fld 105 1 + fld 128 3) 0) false 1 0
    let k : TileCtx := { lanes := [(31, { used := true, ea := 127, bucket := [(0, 5)] })] }
    let s := (labRecord (labQ0 0x4A c h k)).rawWrite 0x201010 1 127; let r := runQ0 0x4A c h
    (starts 0x4A c s r && okIs (bkChecks true false r c s) (fun _ t => decide (t = s)) &&
      nextIs (exec (.bkFin c) s) (fun t => madeEffect 0 t && elemAt ((t.tc 0).vreg 3) 32 0 = 0x41200000 &&
        !((t.tc 0).lane 31).used)) = true := by decide +kernel

/-! ## The anvil -/

/-- The small state whose tile holds the lease of its cluster with a count, and a tagged active plane of weights 1.0 in bf16. -/
def leasing (n : Nat) (s : State) : State :=
  s.modAnvil 0 (fun a => { a with holder := some 0, count := n, active := { a.active with tag := 7, bf16 := true } })

/-- Witness of LeaseResults: requests that start, a waiting tile of the last position, an idle holder. -/
theorem witness_LeaseResults :
    let c := cmd 0 0 0 (fld 115 64) 0; let f := cmd 0 0 0 0 0; let w := cmd 0 0 0 (fld 176 1) 0
    (starts 0x80 c (labQ0 0x80 c [] {}) (runQ0 0x80 c []) && okIs (anChecks {} (runQ0 0x80 c []) c (lab [])) (fun _ _ => true) &&
      starts 0x87 f (labQ0 0x87 f [] {}) (runQ0 0x87 f []) &&
      okIs (anChecks { cnt := false } (runQ0 0x87 f []) f (lab [])) (fun _ _ => true) &&
      starts 0x82 w (labQ0 0x82 w [] {}) (runQ0 0x82 w []) && okIs (anChecks swapForm (runQ0 0x82 w []) w (lab [])) (fun _ _ => true)) = true ∧
    (runQ0 0x80 c []).e.st ≠ .running ∧
    (let s := (lab []).modAnvil 0 (fun a => { a with requests := [(3, 64)] })
     (s.anvil 0).holder = none ∧ nextLease (s.anvil 0) = some (3, 64) ∧ s.leaseFree 0 = true) ∧
    (let s := { leasing 1 (lab []) with clk := 4096 }
     (s.anvil 0).holder = some 0 ∧ s.leaseBusy (tileAt 0 0) = false ∧
      (s.queue (tileAt 0 0) 0).entries = [] ∧ (s.anvil 0).since + s.dev.settings.leaseIdle ≤ s.clk) := by decide +kernel

/-- Witness of LeaseResults: a grant over a holder that pre-emption has ended, after it in the order; a tile without the lease; the
holder of a lease that no leasing command uses. -/
theorem witness_Lease_order :
    (let s := ((leasing 1 (lab [])).modAnvil 0 (fun a => { a with requests := [(0, 9), (3, 64), (2, 8)], last := 2 })).modCtx 0
       (fun x => { x with st := .preempting })
     nextLease { s.anvil 0 with last := (s.anvil 0).holder.getD (s.anvil 0).last } = some (2, 8) ∧ s.leaseFree 0 = true) ∧
    ¬ HoldsLease (lab []) (runQ0 0x82 (cmd 0 0 0 0 0) []) ∧ HoldsLease (leasing 1 (lab [])) (runQ0 0x82 (cmd 0 0 0 0 0) []) ∧
    (leasing 1 (lab [])).leaseActive (tileAt 0 0) = false ∧ ((lab []).ctx ((lab []).ctxOf (tileAt 0 0))).st ≠ .preempting := by
  refine ⟨by decide +kernel, ?_, Or.inr (by decide +kernel), by decide +kernel, by decide +kernel⟩
  rintro (h | h)
  · exact absurd h (by decide +kernel)
  · exact absurd h.1 (by decide +kernel)

/-- Witness of LeaseResults: an.ldw, an.gmul and an.mul that can start on a tile without the lease. -/
theorem witness_Lease_asked :
    let h := [(0, dense 0x200000 9 [(256, 1), (64, 256)])]
    let l := capt (cmd 0 9 0 (fld 100 1 + fld 115 1 + fld 122 63) 0) false 1 0
    let g := capt (cmd 0 9 0 (fld 100 1 + fld 108 63 + fld 115 1 + fld 144 2047 + fld 176 7) 0) false 1 0
    let m := cmd 0 9 0 (fld 108 63 + fld 115 1 + fld 176 7) 0
    let s := labQ0 0x81 l h {}; let u := labQ0 0x84 g h {}
    let v := labQ0 0x83 m [] { dq := [(0, { slots := [{ slotOf 9 0 with data := 0 }], fills := 1 })] }
    (starts 0x81 l s (runQ0 0x81 l h) && okIs (anChecks ldwForm (runQ0 0x81 l h) l s) (fun _ t => decide (t = s)) &&
      starts 0x84 g u (runQ0 0x84 g h) && okIs (anChecks gmulForm (runQ0 0x84 g h) g u) (fun _ t => decide (t = u)) &&
      starts 0x83 m v (runQ0 0x83 m []) && okIs (anChecks mulForm (runQ0 0x83 m []) m v) (fun _ t => decide (t = v)) &&
      decide (anCnt m ≤ 16) && [s, u, v].all (fun x => decide ((x.anvil 0).holder = none))) = true := by decide +kernel

/-- An idle lease ends at `leaseidle` (R293). -/
theorem test_lease_idle : nextIs (exec (.leaseIdleExpiry 0) { leasing 1 (lab []) with clk := 4096 }) (fun t =>
    decide ((t.anvil 0).holder = none)) = true := by decide +kernel

/-- Witness of AnvilPlaneResults, `an.swap` and `an.mul` with a slot of bf16 zeros. -/
theorem witness_AnvilPlane_swap_mul :
    let w := cmd 0 0 0 (fld 176 7) 0; let m := cmd 0 9 0 (fld 108 63 + fld 115 1 + fld 176 7) 0
    let s := leasing 1 (labQ0 0x82 w [] {})
    let u := leasing 1 (labQ0 0x83 m [] { dq := [(0, { slots := [{ slotOf 9 0 with data := 0 }], fills := 1 })] })
    (starts 0x82 w s (runQ0 0x82 w []) && okIs (anChecks swapForm (runQ0 0x82 w []) w s) (fun _ t => decide (t = s)) &&
      starts 0x83 m u (runQ0 0x83 m []) && okIs (anChecks mulForm (runQ0 0x83 m []) m u) (fun _ t => decide (t = u)) &&
      decide (((u.anvil 0).active.tag = anWtag m) ∧ (u.anvil 0).active.bf16 = true ∧ (u.anvil 0).count ≠ 0) &&
      nextIs (exec (.anSwap w) s) (fun t => madeEffect 0 t && decide ((t.anvil 0).active.tag = 7 ∧ (t.anvil 0).count = 0))) = true := by
  decide +kernel

/-- Witness of AnvilPlaneResults, the checks of `an.ldw` and of `an.gmul` of one column and one row. -/
theorem witness_AnvilPlane_ldw_gmul :
    let h := [(0, dense 0x200000 9 [(256, 1), (64, 256)])]
    let l := capt (cmd 0 9 0 (fld 100 1 + fld 115 1 + fld 122 63) 0) false 1 0
    let g := capt (cmd 0 9 0 (fld 100 1 + fld 108 63 + fld 115 1 + fld 144 2047 + fld 176 7) 0) false 1 0
    let s := leasing 1 (labQ0 0x81 l h {}); let u := leasing 1 (labQ0 0x84 g h {})
    (starts 0x81 l s (runQ0 0x81 l h) && okIs (anChecks ldwForm (runQ0 0x81 l h) l s) (fun _ t => decide (t = s)) &&
      starts 0x84 g u (runQ0 0x84 g h) && okIs (anChecks gmulForm (runQ0 0x84 g h) g u) (fun _ t => decide (t = u))) = true := by
  decide +kernel

/-- Witness of AnvilDrainResults: `an.zero`, `an.close` and `an.drain` of the last row, closed, to a register. -/
theorem witness_AnvilDrainResults :
    let z := cmd 0 0 0 (fld 108 63 + fld 115 1) 0; let d := cmd 0 8 1 (fld 108 63 + fld 115 1) 0
    let s := labQ0 0x88 z [] {}; let u := labQ0 0x86 d [] {}
    (starts 0x88 z s (runQ0 0x88 z []) && okIs (anChecks rowsForm (runQ0 0x88 z []) z s) (fun _ t => decide (t = s)) &&
      starts 0x85 z (labQ0 0x85 z [] {}) (runQ0 0x85 z []) &&
      starts 0x86 d u (runQ0 0x86 d []) && okIs (anChecks (drainForm d) (runQ0 0x86 d []) d u) (fun _ t => decide (t = u)) &&
      !anD d && okIs ((List.range 1).forM (drainOut (runQ0 0x86 d []) d) u) (fun _ _ => true) &&
      (List.range 64).all (fun n => decide ((u.tc 0).chainOf true 63 n = none)) &&
      nextIs (exec (.anDrain d) u) (madeEffect 0)) = true := by decide +kernel

/-! ## The vector engine -/

/-- Whether a register-form command meets every premise of its statements. -/
def ready (op : Nat) (f : VForm) (c : Cmd) (s : State) (r : Run) : Bool :=
  starts op c s r && decide (reservedBit c (vReserved f) = none) &&
    decide (vVl c ≠ 0 ∧ vE0 c + vVl c ≤ 8192 / f.size) && f.named.all (fun p => p.1 ≤ p.2) && f.auxOk

theorem ready_spec {op : Nat} {f : VForm} {c : Cmd} {s : State} {r : Run} (h : ready op f c s r = true) :
    VectorReady op f c s r := by
  simp only [ready, Bool.and_eq_true, decide_eq_true_eq] at h
  exact ⟨(starts_spec h.1.1.1.1).1, h.1.1.1.2, h.1.1.2, h.1.2, h.2, (starts_spec h.1.1.1.1).2⟩

/-- A vector command on the last element of registers whose largest element has `size` bytes. -/
def vec (sub fmt md size extra : Nat) : Cmd := cmd sub fmt md (fld 178 1 + fld 162 (8192 / size - 1) + extra) 1

/-- Whether a command is ready in the small state. -/
def readyHere (op : Nat) (f : Cmd → VForm) (c : Cmd) : Bool := ready op (f c) c (labQ0 op c [] {}) (runQ0 op c [])

/-- Witness of VectorWriteRule: ranges that end at the end of a register. -/
theorem witness_VectorWriteRule : 0 < 8 ∧ 8 * (vE0 (vec 0 0 0 1 0) + vVl (vec 0 0 0 1 0)) ≤ 65536 ∧
    64 * (vE0 (vec 0 4 0 8 0) + vVl (vec 0 4 0 8 0)) = 65536 := by decide +kernel

/-- Witness of VectorIntegerResults and of VectorFrame. -/
theorem witness_VectorInteger :
    (readyHere 0x60 binForm (vec 0 4 0 8 0) && readyHere 0x60 binForm (vec 4 0 2 1 0) && readyHere 0x60 unForm (vec 6 1 0 2 0) &&
     readyHere 0x61 binForm (vec 0 2 0 2 0) && readyHere 0x61 unForm (vec 3 2 0 2 0) && readyHere 0x62 binForm (vec 0 3 0 4 0) &&
     readyHere 0x62 (fun c => { binForm c with s2 := true, s3 := !vX c }) (vec 3 3 0 4 0) &&
     readyHere 0x63 fieldForm (vec 0 3 0 4 (fld 144 32)) && readyHere 0x63 fieldForm (vec 1 3 0 4 (fld 144 1)) &&
     readyHere 0x63 unForm (vec 2 0 0 1 0)) = true := by decide +kernel

/-- Witness of VectorPredicateResults. -/
theorem witness_VectorPredicate :
    let form (n : Nat) (ok : Cmd → Bool) (c : Cmd) : VForm :=
      { s1 := 1 ≤ n, s2 := 2 ≤ n, gov := .none, size := 1, auxOk := ok c, named := [(vVd c, 15), (vVs1 c, 15), (vVs2 c, 15)] }
    (readyHere 0x64 (fun c => { binForm c with named := [(vVd c, 15)] }) (vec 0 8 0 4 (fld 104 15)) &&
     readyHere 0x65 (form 2 (fun c => vAux c = 0)) (vec 0 0 0 1 (fld 104 15 + fld 112 15 + fld 120 15)) &&
     readyHere 0x65 (form 1 (fun c => vAux c = 0)) (vec 3 0 0 1 (fld 104 15 + fld 112 15)) &&
     readyHere 0x65 (form 0 (fun c => vAux c ≤ 1)) (vec 4 0 0 1 (fld 104 15 + fld 144 1)) &&
     readyHere 0x66 (fun c => { binForm c with gov := .selector }) (vec 0 10 0 1 (fld 136 15)) &&
     readyHere 0x71 (fun c => { s2 := false, size := 1, auxOk := vAux c = 0, named := [(vVd c, 3), (vVs1 c, 15)] })
      (vec 1 0 0 1 (fld 104 3 + fld 112 15))) = true := by decide +kernel

/-- Witness of VectorFloatResults. -/
theorem witness_VectorFloat :
    (readyHere 0x67 binForm (vec 0 8 0 4 0) && readyHere 0x67 (fun c => { binForm c with s3 := true }) (vec 3 9 0 2 0) &&
     readyHere 0x67 unForm (vec 7 8 0 4 0) &&
     readyHere 0x68 (fun c => quantForm c 11 (vS c)) (vec 0 10 1 4 (fld 144 5 + fld 152 11 + fld 104 1)) &&
     readyHere 0x68 (fun c => quantForm c 6 (vS c)) (vec 1 0 0 4 (fld 152 6)) &&
     readyHere 0x68 (fun c => quantForm c 0 false) (vec 2 8 0 4 (fld 144 1)) &&
     readyHere 0x68 (fun c => { unForm c with size := max (elemSize (cmdFormat c)) (elemSize (vAux c)), auxOk := true })
      (vec 4 8 0 4 (fld 144 10)) && decide (¬(vS (vec 0 10 1 4 (fld 104 1)) = true ∧ 1 = vVs2 (vec 0 10 1 4 (fld 104 1))))) = true := by
  decide +kernel

/-- Witness of VectorReduceResults: integer and floating-point sums and dots, and the permuting commands. -/
theorem witness_VectorReduce :
    (readyHere 0x69 (fun c => redForm c false (sumFormat c)) (vec 0 4 0 8 (fld 144 1023)) &&
     readyHere 0x69 (fun c => redForm c false (sumFormat c)) (vec 0 8 0 4 0) &&
     readyHere 0x69 (fun c => redForm c false (cmdFormat c)) (vec 1 10 0 1 0) &&
     readyHere 0x6A (fun c => redForm c true (sumFormat c)) (vec 0 0 0 8 0) &&
     readyHere 0x6A (fun c => redForm c true (sumFormat c)) (vec 0 9 0 4 0) &&
     readyHere 0x6B (fun c => { binForm c with s2 := true, size := max 2 (elemSize (cmdFormat c)) }) (vec 0 0 0 2 0) &&
     readyHere 0x6B unForm (vec 1 0 0 1 0) &&
     readyHere 0x6B (fun c => { unForm c with s1 := !vX c, auxOk := if vX c then vAux c = 0 else vAux c < 8192 / elemSize (cmdFormat c) })
      (vec 2 0 0 1 (fld 144 8191)) &&
     readyHere 0x72 (fun c => { unForm c with auxOk := movAuxOk c }) (vec 0 3 0 4 0) &&
     readyHere 0x72 (fun c => { unForm c with s1 := false }) (vec 1 3 0 4 0) &&
     readyHere 0x70 (fun c => { unForm c with named := [(vVs1 c, 15)] }) (vec 0 3 0 4 (fld 112 15)) &&
     isInt 4 && !isInt 8) = true := by decide +kernel

/-- Witness of VectorMemoryResults: `vld`, `vgather`, `vst` and `vscatter` of one element. -/
theorem witness_VectorMemory :
    let h : SMap Record := [(0, dense 0x200000 3 [(16, 1)]), (1, dense 0x200400 3 [(2, 1)])]
    let c (a : Bool) (e : Nat) : Cmd := capt (cmd 0 3 0 (fld 178 1 + fld 162 e) 0) a 3 0
    let g : Cmd := capt (cmd 0 3 0 (fld 178 1 + fld 124 1) 0) true 3 0
    let k : TileCtx := { v := [(0, BitVec.ofNat 65536 (9 * 2 ^ (32 * 2047)))] }
    (starts 0x6C (c true 0) (labQ0 0x6C (c true 0) h {}) (runQ0 0x6C (c true 0) h) &&
     okIs (vmChecks .ld (runQ0 0x6C (c true 0) h) (c true 0) (lab [])) (fun _ _ => true) &&
     nextIs (exec (.vld (c true 0)) (labQ0 0x6C (c true 0) h {})) (fun t => madeEffect 0 t && ((t.tc 0).dqueue 0).slots.length = 1) &&
     nextIs (exec (.vgather g) (labQ0 0x6E g h {})) (madeEffect 0) &&
     nextIs (exec (.vst (c false 2047)) (labQ0 0x6D (c false 2047) h k)) (fun t => madeEffect 0 t && t.rawRead 0x200000 4 = 9)) = true := by
  decide +kernel

/-- Witness of VectorMemoryResults, the scatters: one element added at its home; fp32 likewise. -/
theorem witness_VectorScatter :
    let h (fmt : Nat) : SMap Record := [(0, dense 0x200000 fmt [(16, 1)])]
    let c (sub fmt : Nat) : Cmd := capt (cmd sub fmt 0 (fld 178 1) 0) false 1 0
    let k (n : Nat) : TileCtx := { v := [(0, BitVec.ofNat 65536 n)] }
    (nextIs (exec (.vscatter (c 0 3)) (labQ0 0x6F (c 0 3) (h 3) (k 0))) (madeEffect 0) &&
     [Instr.vscatterAdd (c 1 3), .vscatterMin (c 2 3), .vscatterMax (c 3 3)].all (fun i =>
       nextIs (exec i ((labQ0 0x6F ((commandOf i).map (·.2)|>.getD (c 1 3)) (h 3) (k 0)).rawWrite 0x200000 4 7)) (fun t =>
         madeEffect 0 t && t.rawRead 0x200000 4 = (if i = .vscatterMin (c 2 3) then 0 else 7))) &&
     [Instr.vscatterFadd (c 4 8), .vscatterFmaxabs (c 5 8)].all (fun i =>
       nextIs (exec i (labQ0 0x6F ((commandOf i).map (·.2)|>.getD (c 4 8)) (h 8) (k 0))) (madeEffect 0))) = true := by decide +kernel

/-- Witness of VectorMemoryResults, `vmov` of a slot to a register and of a register to a slot. -/
theorem witness_VectorMove :
    let f : Cmd := cmd 0 0 0 (fld 178 512 + fld 144 1 + fld 104 5) 0
    let q : Cmd := cmd 0 0 0 (fld 178 512 + fld 144 2) 0
    let s := labQ0 0x72 f [] { dq := [(0, { slots := [slotOf 0 2], fills := 1 })] }
    (starts 0x72 f s (runQ0 0x72 f []) && nextIs (exec (.vmovFromDq f) s) (fun t =>
       madeEffect 0 t && elemAt ((t.tc 0).vreg 5) 8 0 = 5 && elemAt ((t.tc 0).vreg 5) 8 1 = 9) &&
     nextIs (exec (.vmovToDq q) (labQ0 0x72 q [] {})) (fun t => madeEffect 0 t && ((t.tc 0).dqueue 0).slots.length = 1)) = true := by
  decide +kernel

/-- A word of the manual's examples as a command, with its captures empty. -/
def words (w0 w1 w2 w3 : Nat) : CmdBits := BitVec.ofNat 256 (w0 + w1 * 2 ^ 64 + w2 * 2 ^ 128 + w3 * 2 ^ 192)

/-- The manual's example of `vqm8` (chapter "Vector Engine Commands"): the bytes, the derived scale and the generator. -/
theorem test_vqm8_example :
    let c := cmdOfBits (words 0x1A000068 0x0201040000000000 0x0014000004012100 0)
    let v1 := 0x42C80000 + 0xC0533333 * 2 ^ 32 + 0x3A83126F * 2 ^ 64 + 0x3A400000 * 2 ^ 96 + 0x35800000 * 2 ^ 128
    let k : TileCtx := { v := [(1, BitVec.ofNat 65536 v1), (4, 0x5555555555)], p := [(1, 15)], gen1 := 1 }
    nextIs (exec (.vqm8 c) (labQ0 0x68 c [] k)) (fun t =>
      madeEffect 0 t && decide ((t.tc 0).vreg 4 = 0x550101BA72) && decide ((t.tc 0).vreg 2 = 0x81) &&
        decide ((t.tc 0).gen1 = 0x40822041)) = true := by decide +kernel

/-- Saturating and wrapping addition of int8 (R27, R266). -/
theorem test_vadd :
    let c (md : Nat) : Cmd := cmd 0 0 md (fld 178 2 + fld 104 1 + fld 112 2 + fld 120 3) 0
    let k : TileCtx := { v := [(2, 0x8064), (3, 0xFF64)] }
    (nextIs (exec (.vadd (c 1)) (labQ0 0x60 (c 1) [] k)) (fun t => decide ((t.tc 0).vreg 1 = 0x807F)) &&
     nextIs (exec (.vadd (c 0)) (labQ0 0x60 (c 0) [] k)) (fun t => decide ((t.tc 0).vreg 1 = 0x7FC8))) = true := by decide +kernel

/-! ## The manual's examples of the sort engine, the buckets and the anvil -/

/-- The handles of the example of chapter "Sort and Bucket Commands". -/
def exampleCodes : Record := BitVec.ofNat 1024 (0x1600000000200000 + 0x20000008 * 2 ^ 256)
def exampleSorted : Record := BitVec.ofNat 1024 (0x1A30000000200100 + 0x20008 * 2 ^ 64 + 0x20000001 * 2 ^ 256)

/-- `srt.codes` of the example writes the record that the manual prints. -/
theorem test_srt_example :
    let c := cmdOfBits (words 0x0001000C06000440 0x12 0x0000001000000013 0x200020)
    let e := entryOf 0x40 c [(2, exampleCodes), (3, exampleSorted)] []
    let s := (((labCmd (.compute 0) 0 e {}).rawWrite 0x200000 8 0x4618).rawWrite 0x200020 8 0x4830B0C8).rawWrite 0x200030 8 0x7E
    nextIs (exec (.srtCodes c) s) (fun t => madeEffect 0 t && t.rawRead 0x200100 8 = 0x4830B0C8 &&
      t.rawRead 0x200110 8 = 0x000300000000007E && t.rawRead 0x200118 8 = 0x0000000800080006 &&
      t.rawRead 0x200140 8 = 0x0002000600030000 && t.rawRead 0x200148 8 = 0x0004000100070005) = true := by decide +kernel

/-- `bk.fin` of the example: −1.546875 (R48). -/
theorem test_bkfin_example :
    let c := cmdOfBits (words 0x000100081800044A 0x0000020000000013 0x5 0)
    let e := entryOf 0x4A c [(3, exampleSorted)] []
    let k : TileCtx := { lanes := [(0, { used := true, ea := 0x7B, bucket := [(0, 37), (1, 0xFFFFFFFFFFF4)] })] }
    let s := (((labCmd (.compute 0) 0 e k).rawWrite 0x200100 8 0x4830B0C8).rawWrite 0x200110 8 0x000300000000007E).rawWrite
      0x200118 8 0x0000000800080006
    nextIs (exec (.bkFin c) s) (fun t => madeEffect 0 t && elemAt ((t.tc 0).vreg 5) 32 0 = 0xBFC60000) = true := by decide +kernel

/-- `an.mul` of the example of chapter "The Anvil": the two chains of columns 0 and 1. -/
theorem test_anmul_example :
    let c := cmdOfBits (words 0x0A000083 0x0008000000000000 0x0005000000000000 0)
    let sl : Slot := { st := .full, owner := 0, data := 0x5830D048, side := 0x04040A7E }
    let p : Plane := { w := [(0, 0x20E04050), (1, 0x40404040)], tag := 5 }
    let s := (labCmd (.compute 0) 0 (entryOf 0x83 c [] []) { dq := [(0, { slots := [sl], fills := 1 })] }).modAnvil 0
      (fun a => { a with holder := some 0, count := 6, active := p })
    nextIs (exec (.anMul c) s) (fun t => madeEffect 0 t && decide ((t.anvil 0).count = 5) &&
      decide ((t.tc 0).chainOf false 0 0 = some 0x3F000000 ∧ (t.tc 0).chainOf true 0 0 = some 0xBF200000 ∧
        (t.tc 0).chainOf false 0 1 = some 0x3F800000 ∧ (t.tc 0).chainOf true 0 1 = some 0x3F000000)) = true := by decide +kernel

/-! ## The copy engine -/

/-- Copies of four bytes from 0x200400 to 0x200200 through handles 1 and 2, with an index vector in handle 3. -/
def copyCmd (sub fmt extra patch : Nat) : Cmd := capt (cmd sub fmt 0 (fld 64 1 + fld 160 2 + extra) patch) false 14 0
def copyHandles (fmt : Nat) : SMap Record :=
  [(1, dense 0x200400 fmt [(4, 1)]), (2, dense 0x200200 fmt [(4, 1)]), (3, dense 0x200600 3 [(4, 1)])]

/-- The small state with a copy at the head of q1. -/
def labCopy (op : Nat) (c : Cmd) (h : SMap Record) : State := labCmd (.copy 0) 1 (entryOf op c h []) {}
def runCopy (op : Nat) (c : Cmd) (h : SMap Record) : Run := ⟨0, 1, entryOf op c h [], false, none⟩

/-- The premises of CopyChunkResults for one copy. -/
def copies (op : Nat) (k : CopyKind) (c : Cmd) (h : SMap Record) : Bool :=
  let s := labCopy op c h; let r := runCopy op c h
  starts op c s r && !r.e.prog.written && r.e.prog.wait.isEmpty && !r.e.prog.cancelled && !r.e.prog.started &&
    okIs (cpStart k r c s) (fun _ t => okIs (cpChunk k r c t) (fun _ _ => true))

/-- Witness of CopyChunkResults: the contiguous copy. -/
theorem witness_CopyChunk_nd : copies 0xA0 .nd (copyCmd 0 0 0 0) (copyHandles 0) = true := by decide +kernel
/-- Witness of CopyChunkResults: the gather. -/
theorem witness_CopyChunk_gather : copies 0xA1 .gather (copyCmd 0 0 (fld 164 3) 0) (copyHandles 0) = true := by decide +kernel
/-- Witness of CopyChunkResults: the scatter. -/
theorem witness_CopyChunk_scatter : copies 0xA2 .scatter (copyCmd 0 0 (fld 164 3) 0) (copyHandles 0) = true := by decide +kernel
/-- Witness of CopyChunkResults: the reduction. -/
theorem witness_CopyChunk_red : copies 0xA4 .red (copyCmd 0 3 0 0) (copyHandles 3) = true := by decide +kernel
/-- Witness of CopyChunkResults: the fill and the prefetch. -/
theorem witness_CopyChunk_fill :
    (copies 0xA5 .fill (capt (cmd 0 0 0 (fld 160 2) 0x7F) false 14 0) (copyHandles 0) &&
     copies 0xA6 .pref (capt (cmd 0 0 0 (fld 64 1) 0) false 14 0) (copyHandles 0)) = true := by decide +kernel

/-- The premises of CopyChunkResults on the bytes that one copy stores: no remote element, values that are read, no overlap, no upset. -/
def stores (op : Nat) (k : CopyKind) (c : Cmd) (h : SMap Record) : Bool :=
  let r := runCopy op c h
  !cpRemote k c && okIs (cpStart k r c (labCopy op c h)) (fun _ t => t.flips.isEmpty && t.held.isEmpty && decide ((t.tile 0).lostWrites = 0) &&
    okIs ((cpElems k r c 0).mapM (cpValue k r c) t) (fun vs w => vs.length = 4 && (cpElems k r c 0).all (fun n => !w.overlapped k r c n)))

/-- Witness of CopyChunkResults: what copies between places of this context store; a gather of remote elements. -/
theorem witness_CopyChunk_stores :
    (stores 0xA0 .nd (copyCmd 0 0 0 0) (copyHandles 0) && stores 0xA1 .gather (copyCmd 0 0 (fld 164 3) 0) (copyHandles 0) &&
     stores 0xA2 .scatter (copyCmd 0 0 (fld 164 3) 0) (copyHandles 0) && stores 0xA4 .red (copyCmd 0 3 0 0) (copyHandles 3) &&
     stores 0xA5 .fill (capt (cmd 0 0 0 (fld 160 2) 0x7F) false 14 0) (copyHandles 0) &&
     cpRemote .gather (copyCmd 1 0 (fld 164 3) 0)) = true := by decide +kernel

/-- The check value of CRC-32C. -/
theorem test_crc : crc32c [0x31, 0x32, 0x33, 0x34, 0x35, 0x36, 0x37, 0x38, 0x39] = 0xE3069283 := by decide +kernel

/-- The canonical codes of the example "one Huffman block" (R321): a has length 1, b and c have length 2. -/
theorem test_canonical_codes : let t := BitVec.ofNat 1024 (0x2210 * 2 ^ (8 * 0x30))
    (decide (symbolsOf t 1 = [0x61]) && decide (symbolsOf t 2 = [0x62, 0x63]) && firstCode t 2 = 2) = true := by decide +kernel

/-- A `cp.dec` of one stored block of one byte, "a", with its CRC-32C (R320). -/
def decCmd : Cmd := cmdOfBits (words 0x00000006010004A3 1 0x3001000200000000 0x200200)
def decHandles : SMap Record :=
  [(1, BitVec.ofNat 1024 (0x1100000000201000 + 0x20000011 * 2 ^ 256)), (2, BitVec.ofNat 1024 (0x1100000000200000 + 0x20000004 * 2 ^ 256))]
def decState : State :=
  (((labCmd (.copy 0) 1 (entryOf 0xA3 decCmd decHandles []) {}).rawWrite 0x201000 8 0x0001000100005A4B).rawWrite 0x201008 8
    ((crc32c [0x61]).toNat * 2 ^ 32 + 0x4000)).rawWrite 0x201010 1 0x61

/-- Witness of the first clause of DecoderResults. -/
theorem witness_Decoder :
    let r := runCopy 0xA3 decCmd decHandles
    (starts 0xA3 decCmd decState r && !((decState.tc 0).token (cpTkr decCmd)).waiters.contains .copy &&
      okIs (cpStart .dec r decCmd decState) (fun _ t => okIs (decHeader r decCmd {} t) (fun d u =>
        okIs (decRun r decCmd 513 d u) (fun x _ => !x.2 && x.1.out = 1)))) = true := by decide +kernel

/-- `cp.dec` writes the stored byte. -/
theorem test_decoder : nextIs (exec (.cpDec decCmd) decState) (fun t => t.rawRead 0x200000 1 = 0x61) = true := by decide +kernel

/-- An entry of q1 in progress. -/
def going (op : Nat) (c : Cmd) (h : SMap Record) (p : Progress) : Entry :=
  { entryOf op c h [] with st := .running, num := some 5, prog := p }

/-- Witness of DecoderResults, the unit and the watchdog: a unit in the ring, a block at its cycle bound. -/
theorem witness_Decoder_unit_watchdog :
    let c := copyCmd 0 1 0 0
    let e := going 0xA3 c (copyHandles 1) { started := true, dec := { inBlock := true, cycles := 64, header := BitVec.ofNat 128 (64 * 2 ^ 72) } }
    let s := labCmd (.copy 0) 1 e { tokens := [(0, { count := 1, waiters := [.copy] })] }
    s.copyRun = some ⟨0, 1, e, false, none⟩ ∧ ((s.tc 0).take (cpTkr (cmdOfBits e.w)) 1 .copy).isSome = true ∧ field e.w 0 8 = 0xA3 ∧
      e.prog.dec.inBlock = true ∧ hCyc e.prog.dec.header ≤ e.prog.dec.cycles := by decide +kernel

/-- Witness of CopyProgressResults: a last reply of a gather whose values are then written, a number that no copy has, a faulted copy. -/
theorem witness_CopyProgress_more :
    let g := going 0xA1 (copyCmd 1 0 (fld 164 3) 0) (copyHandles 0) { started := true, written := true, got := [(0, 7), (3, 9)] }
    let f := { going 0xA0 (copyCmd 0 0 0 0) (copyHandles 0) {} with st := .faulted }
    let m := labCmd (.move 0) 1 f { targetC := 5 }
    okIs (writeGathered .gather ⟨0, 1, g, false, none⟩ (cmdOfBits g.w) (labCmd (.copy 0) 1 g {})) (fun _ _ => true) = true ∧
    (m.tc 0).q1.entries.find? (fun e => e.num = some 5) = some f ∧ f.st = .faulted ∧ f.prog.wait = [] ∧ field f.w 5 3 = 5 ∧
    (m.tc 0).targetC < 6 ∧ (m.tc 0).q1.entries.find? (fun e => e.num = some 6) = none ∧ (m.tc 0).controls.contains 4 = false := by
  decide +kernel

/-- A remote gather whose values have come writes one word of its chunk before the rest (R100). -/
theorem test_gather_word :
    let g := going 0xA1 (copyCmd 1 3 (fld 164 3) 0) (copyHandles 3) { started := true, written := true, got := [(0, 7), (2, 9)] }
    nextIs (step { labCmd (.copy 0) 1 g {} with agenda := [.writeWord (.copy 0) 1 0x200208] })
      (fun t => t.rawRead 0x200200 8 = 0 && t.rawRead 0x200208 8 = 9 &&
        ((t.queue 0 1).find 1).any (fun e => e.prog.written && decide (e.prog.puts = [0x200208 / 8]))) = true := by decide +kernel

/-- Witness of CopyProgressResults: a last chunk with a bit and a token, remote elements that answer and fail, a copy that can
suspend, and what `cpcancel` finds. -/
theorem witness_CopyProgress :
    let c := copyCmd 0 0 (fld 176 1) 0x200700
    let e := going 0xA0 c (copyHandles 0) { started := true, written := true }
    let g := going 0xA1 (copyCmd 1 0 (fld 164 3) 0) (copyHandles 0) { started := true, wait := [3] }
    let s := labCmd (.copy 0) 1 e {}; let u := labCmd (.copy 0) 1 g {}
    let p := (labCmd (.copy 0) 1 { e with prog := { started := true } } {}).modCtx 0 (fun x => { x with st := .preempting })
    let m := labCmd (.move 0) 1 e { targetC := 5 }
    s.copyRun = some ⟨0, 1, e, false, none⟩ ∧ okIs (setChunkBit ⟨0, 1, e, false, none⟩ (cpBits .nd c) 0 s) (fun _ _ => true) = true ∧
    e.prog.next + 1 = cpChunks .nd ⟨0, 1, e, false, none⟩ c ∧
    (let m : RemoteReply := ⟨0, 1, 3, .delivered, 0⟩
     u.sent.any (fun d => answersElement m d.what) = false ∧
      { u with sent := [{ port := none, cls := 1, passed := true, what := .element 7 0 false 0 4 3 0 0 1 }] }.sent.any (fun d =>
        answersElement m d.what) = true) ∧
    (u.copyRun = some ⟨0, 1, g, false, none⟩ ∧ g.prog.wait.contains 3 = true ∧
      okIs (cpPut .gather ⟨0, 1, g, false, none⟩ (cmdOfBits g.w) 3 7 u) (fun l t => okIs (putAll ⟨0, 1, g, false, none⟩ true l t) (fun _ _ => true)) = true) ∧
    ((p.ctx (p.ctxOf 0)).st = .preempting ∧ (p.copyRun.any (fun r => !r.e.prog.written && r.e.prog.wait.isEmpty && !r.e.midChunk)) = true) ∧
    m.me.move = true ∧ (m.tc 0).q1.entries.find? (fun e => e.num = some 5) = some e ∧ field e.w 5 3 = 5 ∧
    (m.tc 0).q1.entries.find? (fun e => e.num = some 4) = none ∧ 4 ≤ (m.tc 0).targetC := by decide +kernel

/-- Witness of CopyProgressResults: a remote scatter with an element out, cancelled, and an entry that is no copy. -/
theorem witness_CopyProgress_cancel :
    let e := going 0xA2 (copyCmd 1 0 (fld 164 3) 0) (copyHandles 0) { started := true, wait := [3], cancelled := true }
    let n := going 0x02 (control 2) [] {}
    let s := labCmd (.move 0) 1 e { targetC := 5 }; let u := labCmd (.move 0) 1 n { targetC := 5 }
    (copyKind (field e.w 0 8) = .scatter ∧ e.prog.wait.contains 3 = true ∧ e.st ≠ .faulted ∧ field e.w 5 3 = 5 ∧
      (s.tc 0).q1.entries.find? (fun e => e.num = some 5) = some e ∧
      (s.queue 0 1).entries.find? (fun y => y.copying && y.seq = 1) = some e) ∧
    (u.tc 0).q1.entries.find? (fun e => e.num = some 5) = some n ∧ field n.w 5 3 ≠ 5 := by decide +kernel

/-! ## Messages -/

/-- The small state with a domain of this chip and context 0, bound by scope entry 1. -/
def domain : Domain := { id := 9, members := [(0, 0)] }
def joined (s : State) : State :=
  s.modCtx 0 (fun x => { x with scopes := [(1, BitVec.ofNat 64 (2 ^ 63 + 2 ^ 8 + 9 * 2 ^ 16))], domains := [domain] })

/-- A message command through scope entry 1 and handle 1, with its word. -/
def msgCmd (sub fmt member word : Nat) (hasH : Bool) : Cmd :=
  capt (cmd sub fmt 0 ((if hasH then fld 64 1 else 0) + fld 103 1 + fld 108 member + fld 140 word) 0) false (if hasH then 2 else 0) 0

/-- The small state with a message command at the head of q2. -/
def labMsg (op : Nat) (c : Cmd) : State := joined (labCmd (.msg 0) 2 (entryOf op c (copyHandles 0) []) {})
def runMsg (op : Nat) (c : Cmd) : Run := ⟨0, 2, entryOf op c (copyHandles 0) [], false, none⟩

/-- The premises of a message command's statements: its domain, with the member and without. -/
def sends (k : MsgKind) (op : Nat) (c : Cmd) : Bool :=
  starts op c (labMsg op c) (runMsg op c) && okIs (msChecks k (runMsg op c) c (labMsg op c)) (fun d t =>
    decide (d = domain) && decide (d.members[msMember c]? = (if msMember c = 0 then some (0, 0) else none)) &&
    (!k.hasH || okIs (readPayload (runMsg op c) c t) (fun p _ => p.length = 4)))

/-- Witness of SendResults: each command to the last member and to the number above it. -/
theorem witness_SendResults :
    [0, 1].all (fun m => sends .send 0xC0 (msgCmd 0 0 m 0x200008 true) && sends .put 0xC1 (msgCmd 0 0 m 0 true) &&
      sends .arrive 0xC1 (msgCmd 1 0 m 0 false) && sends .get 0xC2 (msgCmd 0 0 m 0x200008 true)) = true := by decide +kernel

/-- `tx.send` to this chip hands the message to its own receive engine (R365). -/
theorem test_send : let c := msgCmd 0 0 0 0x200008 true
    nextIs (exec (.txSend c) (labMsg 0xC0 c)) (fun t => madeEffect 2 t && t.agenda.length = 1 && t.sent.isEmpty &&
      (t.tc 0).unacked.length = 1) = true := by decide +kernel

/-- A posted receive and a message that it matches. -/
def post1 : Posted := { domain := 9, src := 0, smask := 0, tag := 0, tmask := 0, word := 0x200010, handle := dense 0x200200 0 [(4, 1)], coords := [] }
def msg1 : Message :=
  { ctx := 0, domain := 9, src := 0, chan := 0, cls := 3, tag := 0, payload := [1, 2, 3, 4], cut := none, sender := ⟨0, 0, 0, 1⟩ }

/-- Witness of ReceiveResults: a post with room for the last receive, with and without a parked match; a cancel that finds a
receive and one that finds none. -/
theorem witness_ReceiveResults :
    let c := msgCmd 0 0 0 0x200010 true; let x := capt (cmd 0 0 0 (fld 140 0x200010) 0) false 0 0
    let s := labMsg 0xC8 c
    (starts 0xC8 c s (runMsg 0xC8 c) && okIs (msChecks .post (runMsg 0xC8 c) c s) (fun d t =>
      decide (d = domain) && t.ctxOf 0 = 0 && decide ((t.ctx 0).posted.length < 1024) && (t.ctx 0).parked.isEmpty) &&
     post1.matches msg1 && starts 0xC9 x (labMsg 0xC9 x) (runMsg 0xC9 x) &&
     okIs (msChecks .cancel (runMsg 0xC9 x) x (labMsg 0xC9 x)) (fun _ t => t.ctxOf 0 = 0 && (t.ctx 0).posted.isEmpty) &&
     decide (post1.word = msWord x)) = true := by decide +kernel

/-- Witness of the probe clauses of ReceiveResults: a key of a bound domain, and a match that is parked. -/
theorem witness_Probe :
    let s := (joined (lab [(5, 0x200000)])).rawWrite 0x200008 8 0x0000000000000101
    (okIs (probeLeaf h0 0x200000 s) (fun l a => okIs (plainRead h0 8 0x200000 a) (fun _ b => okIs (plainRead h0 8 0x200008 b)
      (fun k t => decide (((t.ctx 0).fabricDomain (field (BitVec.ofNat 64 k) 8 5)) = some domain) && decide (k &&& 0xFFFF00000000E0FE = 0) &&
        decide ((t.ctx 0).fabricDomain 0 = none) && !(l.tier = 0 && (t.tc 0).lineHeld (l.pa / 64) true)))) &&
     nextIs (exec (.rxProbe 6 5) (s.modCtx 0 (fun x => { x with parked := [(0, msg1)] }))) (fun t => t.readX h0 6 = 1)) = true := by
  decide +kernel

/-- Witness of the probe clauses of ReceiveResults: a reserved bit of the key, a record that is misaligned, beyond the space, on a page
that cannot be written and on one of tier D. -/
theorem witness_Probe_traps :
    let s := joined (lab [])
    (okIs (plainRead h0 8 0x200008 (s.rawWrite 0x200008 8 0x0103)) (fun k t =>
        decide ((t.ctx 0).fabricDomain (field (BitVec.ofNat 64 k) 8 5) = some domain) &&
        decide (BitVec.ofNat 64 k &&& 0xFFFF00000000E0FE ≠ 0)) &&
      okIs (hartLeaf h0 false 32 0x400000 s) (fun l _ => l.tier = 0 && !l.writable) &&
      okIs (hartLeaf h0 false 32 0x600000 s) (fun l _ => l.tier = 1)) = true ∧
    (0x200010 : Word).toNat % 32 ≠ 0 ∧ (0x10000000000000 : Word).toNat % 32 = 0 ∧ 2 ^ 52 ≤ (0x10000000000000 : Word).toNat := by
  decide +kernel

/-- Witness of MessageArrivalResults: a context that takes none, a posted match, a queue with room for one entry of the
message's length and with none, a landing whose writes have ended, and an answer that is awaited. -/
theorem witness_MessageArrival :
    let l : Landing := { p := post1, m := msg1, n := 4, ended := true }
    let u : Unacked := { seq := 1, op := 0xC0, word := 0x200010 }
    let x := (lab []).ctx 0
    let room := { x with cfg := { x.cfg with uqn := 1, uqlog := 2 } }
    let sent (s : State) : State := s.answered (fun x => match x with
      | .send _ m => m.sender.seq = 1
      | _ => false)
    (((lab []).ctx 1).receives = false ∧ msg1.cut = none) ∧ (x.receives = true ∧ post1.matches msg1 = true) ∧
    room.parks msg1 = some 0 ∧ { room with uqUsed := 1 }.parks msg1 = none ∧ { room with cfg := { room.cfg with uqlog := 1 } }.parks msg1 = none ∧
    (((lab []).modCtx 0 (fun x => { x with landings := [l] })).ctx 0).landings = [l] ∧ (lab []).wordMoving 0 l.p.word = false ∧
    (let y := (lab []).land 0 { l with n := 0, ended := false }
     y.2.ended = true ∧ y.1.wordMoving 0 y.2.p.word = false) ∧
    (let m := (lab []).modCtx 0 (fun x => { x with moves := [{ pages := [(0x200000, 1, some 0x600000, 0)], started := true }] })
     (m.land 0 { l with n := 0, ended := false }).2.ended = false ∧ m.wordMoving 0 l.p.word = true) ∧
    ((sent (labWith (.msg 0) { unacked := [u] })).tcAt 0 0).unacked.find? (fun u => u.seq = 1) = some u := by decide +kernel

/-- A get of four bytes and a reply of four, for the first command of tile 0. -/
def get1 : RemoteGet := { ctx := 0, va := 0x3FFFFC, len := 4, cls := 3, sender := ⟨0, 0, 0, 1⟩ }
def reply1 : GetReply := { ctx := 0, ctile := 0, seq := 1, off := 0, bytes := [1, 2, 3, 4], last := true, status := 0 }

/-- Witness of RemoteAccessResults: a put that can be written and one that cannot, a get, an arrival, and a last reply. -/
theorem witness_RemoteAccess :
    let s := (lab []).rawWrite 0x200018 8 1
    let c := msgCmd 0 0 0 0 true
    let e : Entry := { entryOf 0xC2 c (copyHandles 0) [] with st := .running, prog := { started := true } }
    let g := joined (labCmd (.msg 0) 2 e {})
    ((s.ctx 0).receives = true ∧ s.spanMoving 0 0x3FFFFC 4 = false ∧ s.wordMoving 0 0 = false) ∧
    (s.putBytes false 0 0x3FFFF8 (boxPieces 8 4 4 [1, 2, 3, 4])).isSome = true ∧
    (s.putBytes false 0 0x400000 (boxPieces 8 4 0 [1, 2, 3, 4])).isNone = true ∧
    (s.getBytes false (s.seenFor get1) 0 0x3FFFF8 (boxPieces 8 4 4 (List.replicate 4 0))).isSome = true ∧
    (s.getBytes false [] 0 0x800000 (boxPieces 8 4 0 (List.replicate 4 0))).isNone = true ∧ ((lab []).ctx 1).receives = false ∧
    (let w := s.deviceWalk 0 0x200010
     (w.leafAt 0 0x200010).any (fun l => l.tier = 0 && l.writable &&
      decide (arrival (w.homeRead (some 0) l.pa 8).2 ((w.homeRead (some 0) l.pa 8).1.homeRead (some 0) (l.pa + 8) 8).2 =
        some (2 ^ 40, 2 ^ 63)))) = true ∧
    (s.putBytes false 0 0x200100 (boxPieces 8 4 0 [1, 2, 3, 4])).any (fun t =>
      ((t.deviceWalk 0 0x200010).leafAt 0 0x200010).any (fun l => l.tier = 0 && l.writable)) = true ∧ s.heldPuts = [] ∧
    (g.homeOf 0 0 = some 0 ∧ (g.queue 0 2).find 1 = some e ∧ field e.w 0 8 = 0xC2) ∧
    okIs (landReply (Run.whole ⟨0, 2, e, false, none⟩) (cmdOfBits e.w) (replyLeft ⟨0, 2, e, false, none⟩ (cmdOfBits e.w) reply1) g)
      (fun _ _ => true) = true := by decide +kernel

/-- Witness of RemoteAccessResults: a put behind another of its order, and one that is the first. -/
theorem witness_RemoteAccess_order :
    let p : RemotePut := { ctx := 0, va := 0x200000, payload := [1], word := 0, cls := 3, cut := none, sender := ⟨0, 0, 0, 1⟩ }
    let q := { p with va := 0x200008 }
    let s := { lab [] with heldPuts := [q] }
    s.putFirst p ≠ some p ∧ s.heldPuts.find? (RemotePut.sameOrder p) = some q ∧ s.putFirst q = some q ∧ q.cut = none ∧
      ({ p with cut := some 0 } : RemotePut).cut.isSome = true := by decide +kernel

/-- One word of a put on its way is written before the others (R100). -/
theorem test_put_word :
    let p : RemotePut := { ctx := 0, va := 0x200004, payload := [1, 2, 3, 4, 5], word := 0, cls := 3, cut := none, sender := ⟨0, 0, 0, 1⟩ }
    nextIs (step { lab [] with agenda := [.putWord p 0x200008, .event (.remotePutWrite p)] }) (fun t => t.rawRead 0x200000 8 = 0 &&
      t.rawRead 0x200008 8 = 5 && nextIs (step t) (fun u => u.rawRead 0x200000 8 = 0x0403020100000000 && u.putWords = [])) = true := by
  decide +kernel

/-! ## Links -/

/-- A packet of a read at a node, toward a destination. -/
def packet (node dest hops : Nat) : Packet :=
  { node := node, dest := dest, hops := hops, protect := false, kind := .read, source := node, seq := 0, cls := 1, chan := 0, ctx := 0 }

/-- A state with one link in a state, which the table of node 3 names toward node 4. -/
def linked (st : LinkState) (x : LinkRec) : State :=
  { State.reset.setLink ⟨.mesh, 3⟩ { x with st := st } with routes := [(3 * Config.nDests + 4, ⟨.mesh, 3⟩)] }

/-- Witness of LinkResults: a packet that enters, one that a link holds, which comes to the node that the link leads to and to no other;
where it then goes. -/
theorem witness_LinkPackets :
    let l : Link := ⟨.mesh, 3⟩
    let p := packet 3 4 0
    let s := linked .up { inside := [p] }
    let u (st : LinkState) (g : Packet) : State := ((linked st {}).leaveLinks g).keep g
    (State.reset.holder p = none ∧ State.reset.stalled = [] ∧ State.reset.entersAt p = true ∧ State.reset.entersAt { p with node := 4 } = false ∧
      (State.reset.received p).any (fun g => g.cls = 3) = true) ∧
    (let d := { p with source := Config.controlDie, node := Config.elevatorBase }
     State.reset.entersAt d = true ∧ State.reset.entersAt { d with node := Config.chipBase } = false ∧
      State.reset.entersAt { d with node := Config.chipBase - 1 } = true) ∧
    (let w := { State.reset with stalled := [p] }
     w.holder p = none ∧ w.stalled.find? (fun y => y.source = p.source && y.seq = p.seq) = some p) ∧
    (linkLeads ⟨.chiplet, 0⟩ 0 Config.chipletBase = true ∧ linkLeads ⟨.chiplet, 3⟩ (Config.chipletBase + 3) 511 = true ∧
      linkLeads ⟨.chiplet, 3⟩ 504 511 = false) ∧
    ((let r := { p with reply := true, dest := 5 }; requester r = 5 ∧ requester p = 3 ∧
      protectedPacket { r with kind := .write } = false ∧ Config.nTiles ≤ requester { r with dest := Config.chipNode })) ∧
    (s.holder { p with node := 4 } = some (l, p) ∧ linkLeads l 3 4 = true ∧ linkLeads l 3 5 = false ∧
      (s.received { p with node := 4 }).any (fun g => g.node = g.dest) = true ∧ s.received { p with node := 5 } = none) ∧
    (p.node ≠ p.dest ∧ (packet 3 4 64).hops ≤ 64 ∧ 64 < (packet 3 4 65).hops) ∧
    (u .up p).nextLink p = some l ∧ [LinkState.up, .degraded, .draining, .retired, .failed, .down, .training].all (fun st =>
      ((u st p).link l).st = st) = true ∧ (u .up (packet 3 Config.chipBase 0)).nextLink (packet 3 Config.chipBase 0) = none ∧
    (protectedPacket { p with protect := true } = true ∧ protectedPacket p = false ∧ onChip p.source = true ∧ onChip p.dest = true ∧
      onChip Config.chipBase = false ∧ p.source < Config.nTiles ∧ Config.nTiles ≤ Config.chipNode) := by decide +kernel

/-- Witness of LinkResults: the states of a link that its events need, at their bounds. -/
theorem witness_LinkResults :
    let w (st : LinkState) (x : LinkRec) : LinkRec := (linked st x).link ⟨.mesh, 3⟩
    let old : LinkRec := { replays := 5, flitFails := [(9, 7)], replayTimes := 5 :: List.replicate 1024 0 }
    let j : Link := ⟨.jecen, 143⟩
    let sent (passed : Bool) : State := { State.reset.setLink j { st := .draining } with
      sent := [{ port := some 143, cls := 1, passed := passed, what := .arrive 7 ⟨0, 0, 1, ⟨0, 0, 0, 1⟩⟩ }] }
    ((w .up old).st = .up ∧ SMap.get 0 (w .up old).flitFails 9 + 1 = 8 ∧
      SMap.get 0 (w .up { old with flitFails := [(9, 8)] }).flitFails 9 + 1 = 9 ∧
      LinkRec.worn { old with replayTimes := (1250000000 :: List.replicate 1025 0).take 1025 } 1250000000 = true ∧
      LinkRec.worn { old with replayTimes := (1250000001 :: List.replicate 1025 0).take 1025 } 1250000001 = false) ∧
    ((State.reset.setLink j { st := .up }).link j).lanes = 2 ∧ (w .degraded {}).st = .degraded ∧
    (w .training { trainFails := 2 }).st = .training ∧ 2 ≤ (w .training { trainFails := 2 }).trainFails ∧
    ((linked .draining {}).linkHolds ⟨.mesh, 3⟩ = false ∧ (linked .draining { inside := [packet 3 4 0] }).linkHolds ⟨.mesh, 3⟩ = true ∧
      (sent false).linkHolds j = true ∧ (sent true).linkHolds j = false) := by decide +kernel

/-- Witness of LinkResults: a route and an elevator that an update names, and the links that requests name. -/
theorem witness_LinkUpdates :
    let q := req 0 (4 * 2 ^ 12 + 143) 0; let e := req 0 (2 * 2 ^ 12 + 127) 0; let d := req 0 0 0
    let s := ((State.reset.setLink ⟨.elevator, 127⟩ { st := .up }).setLink ⟨.jecen, 143⟩ { st := .failed }).setLink ⟨.mesh, 927⟩ { st := .up }
    (511 < Config.chipNode ∧ linkJoins ⟨.mesh, 927⟩ 511 = true ∧ (s.link ⟨.mesh, 927⟩).st = .up ∧ 510 < Config.chipBase) ∧
    (511 < Config.nTiles ∧ 127 / 32 = 511 / 128 ∧ (s.link ⟨.elevator, 127⟩).st = .up) ∧
    (linkOf (q.word 1) = some ⟨.jecen, 143⟩ ∧ q.rsv = 0 ∧ ((taken s).link ⟨.jecen, 143⟩).st = .failed ∧
      ((taken s).link ⟨.jecen, 143⟩).retrains = []) ∧
    (linkOf (e.word 1) = some ⟨.elevator, 127⟩ ∧ ((taken s).link ⟨.elevator, 127⟩).st = .up) ∧
    (linkOf (d.word 1) = some ⟨.mesh, 0⟩ ∧ ((taken s).link ⟨.mesh, 0⟩).st = .down) := by decide +kernel

/-- Witness of LinkResults: a link that every table avoids, as the tables of the mesh avoid a stem. -/
theorem witness_LinkAvoided : (State.reset.setLink ⟨.stem, 0⟩ { st := .draining }).avoided ⟨.stem, 0⟩ = true := by
  have h : ∀ n d, (State.reset.setLink ⟨.stem, 0⟩ { st := .draining }).route n d ≠ ⟨.stem, 0⟩ := by
    intro n d e
    have r : (State.reset.setLink ⟨.stem, 0⟩ { st := .draining }).routes = [] := rfl
    rw [State.route, r] at e
    simp only [SMap.find?] at e
    cases g : (linksAt n)[Config.defaultRoute n d % (linksAt n).length]? with
    | none => rw [g] at e; exact absurd e (by decide)
    | some l =>
      rw [g] at e
      have m := List.mem_of_getElem? g
      simp only [linksAt, List.mem_filter] at m
      simp only [Option.getD_some] at e
      subst e
      simp at m
  simp [State.avoided, h]

/-- A link that drains empty and that every table avoids is retired: all entries of the tables name another link. -/
theorem test_link_drain : nextIs (exec (.linkDrainTimeout ⟨.mesh, 0⟩)
    { State.reset.setLink ⟨.mesh, 0⟩ { st := .draining, inside := [packet 0 1 0] } with clk := 12500 })
    (fun t => decide ((t.link ⟨.mesh, 0⟩).st = .failed)) = true := by decide +kernel

/-! ## The host's requests -/

/-- A ring's turn in the small state, with host words at host address 0x1000. -/
def labRing (l : List (Nat × Nat)) : State :=
  l.foldl (fun (s : State) p => s.rawWrite (hostPa (0x1000 + p.1)) 8 p.2) (labWith (.ring 0) {})

/-- The test of `Accepts`. -/
def accepts (q : Request) (ok : Context → Bool) (s : State) : Bool :=
  q.rsv = 0 && decide (q.ctx.toNat < Config.nContexts) && ok ((taken s).ctx q.ctx.toNat)

theorem accepts_of {q : Request} {ok : Context → Bool} {s : State} (h : accepts q ok s = true) : Accepts q ok s := by
  simpa [accepts, Accepts, and_assoc] using h

/-- The first free id of a device, none where all are taken. -/
def firstFree (s : State) : Option Nat := (List.range Config.nContexts).find? (fun c => (s.ctx c).st = .free)

/-- Witness of ContextSetupResults: creation with a free id and with none; a record whose words are zero but the page table. -/
theorem witness_ContextSetup_create :
    (firstFree (taken (labRing [])) = some 1 ∧
     firstFree (taken { labRing [] with ctxs := (List.range 64).map (fun i => (i, { st := .resident })) }) = none) ∧
    (let s := (labRing [(0, 0x4000)]).setCtx 1 { st := .assembling }
     accepts (req 1 0x1000 0) (fun x => x.st = .assembling || x.st = .resident) s = true ∧
       (recordOf ((taken s).hostWord ((req 1 0x1000 0).word 1))).isSome = true) := by decide +kernel

/-- Witness of ContextSetupResults: a commit of cluster 1, free and held by another context. -/
theorem witness_ContextSetup_commit :
    let q := req 1 0x1000 1
    let s := (labRing [(0, 1)]).setCtx 1 { st := .assembling }
    let u := s.setCtx 2 { st := .resident, clusters := [1] }
    accepts q (fun x => x.st = .assembling) s = true ∧ (taken s).clusterList q = some [1] ∧
      (taken s).clustersTaken 1 [1] = false ∧ ((taken s).ctx 1).cfg.fits 4 = true ∧
      accepts q (fun x => x.st = .assembling) u = true ∧ (taken u).clusterList q = some [1] ∧
      (taken u).clustersTaken 1 [1] = true ∧ u.commitWaits q = false ∧ s.commitWaits q = false ∧
    (let e := s.setCtx 2 { st := .tornDown, clusters := [1] }
     (e.ctx 1).st = .assembling ∧ e.clusterList q = some [1] ∧ e.clustersTaken 1 [1] = false ∧ e.clustersEnding [1] = true) ∧
    (let r := s.setCtx 2 { st := .swappedOut, restoring := some (2, 9), coming := [1] }
     1 ∈ (r.ctx 2).coming ∧ (taken r).clustersTaken 1 [1] = true) ∧
    ((u.setCtx 2 { st := .running, clusters := [1] }).ctx 2).st = .running := by decide +kernel

/-- Witness of ContextSetupResults: a launch record that is malformed, and a live kernel with a queue to close. -/
theorem witness_ContextSetup_kernel :
    let s := labRing []
    let v := (taken s).takeRecord 0
    let u := s.modCtx 0 (fun c => { c with kernel := some (kernel1 sq) })
    (accepts (req 0 0x200000 0) (fun x => x.st = .resident || x.st = .running) s = true ∧ (v.ctx 0).waiting.length < 5 ∧
      (match v.readLaunch 0 0x200000 with | .error n => n = 1 | .ok _ => false) = true) ∧
    (accepts (req 0 0 0) Context.live u = true ∧ ((taken u).ctx 0).kernel = some (kernel1 sq) ∧ (kernel1 sq).alive = true ∧
      0 < (kernel1 sq).queues.length) ∧ ({ kernel1 sq with st := .loaded } : Kernel).alive = true := by decide +kernel

/-- Witness of ContextEndResults: a running context, and a context torn down with nothing left. -/
theorem witness_ContextEnd :
    let s := labRing []
    let u := s.setCtx 0 { st := .tornDown, cfg := { ptroot := 0x4000 } }
    accepts (req 0 0 0) (fun x => x.st = .running || x.st = .preempting) s = true ∧
    accepts (req 0 0 0) (fun x => x.st ≠ .free && x.st ≠ .tornDown) s = true ∧
    accepts (req 0 0 0) (fun x => x.st ≠ .free && x.st ≠ .tornDown) (s.setCtx 0 { st := .swappedOut, restoring := some (2, 9) }) = true ∧
    ((u.ctx 0).st = .tornDown ∧ (u.ctx 0).installs = [] ∧ (u.ctx 0).moves = [] ∧ (u.ctx 0).yieldRequests = [] ∧
      (u.ctx 0).tearRequests = [] ∧ ∀ p ∈ u.ctxs, p.1 ≠ 0 → p.2.st = .free) := by decide +kernel

/-- Witness of PreemptionResults: a running context; one at the end of its grace time; one that is pre-empted and quiet; one
that is swapped out, with the clusters for a restore. -/
theorem witness_Preemption :
    let s := labRing []
    let g := { s.modCtx 0 (fun x => { x with graceFrom := some 0 }) with clk := 1250000 }
    let p := s.setCtx 0 { st := .preempting }
    let o := (labRing [(0, 1)]).setCtx 0 { st := .swappedOut, width := 1 }
    accepts (req 0 0 0) (fun x => x.st = .resident || x.st = .running) s = true ∧
    accepts (req 0 0 0) (fun x => x.st = .resident || x.st = .running || x.st = .preempting) s = true ∧
    ((g.ctx 0).graceFrom = some 0 ∧ (g.ctx 0).st = .running ∧ 0 + g.dev.settings.grace ≤ g.clk) ∧
    ((p.ctx 0).st = .preempting ∧ (p.ctx 0).tiles.all (p.restHarts 0).tileQuiet = true ∧ (p.ctx 0).saveLost = false ∧
      (p.ctx 0).yieldRequests = []) ∧
    (accepts (req 0 0x1000 1) (fun x => x.st = .swappedOut) o = true ∧ (taken o).clusterList (req 0 0x1000 1) = some [1] ∧
      ((taken o).ctx 0).width = 1 ∧ (taken o).clustersTaken 0 [1] = false ∧ (taken o).savedLost ((taken o).ctx 0) = false ∧
      (o.ctx 0).restoring = none ∧ (taken o).clusterList (req 0 0x1000 0) = none ∧
      ((taken (o.modCtx 0 (fun x => { x with width := 2 }))).ctx 0).width = 2 ∧
      (taken (o.setCtx 2 { st := .resident, clusters := [1] })).clustersTaken 0 [1] = true) ∧
    (let r := o.modCtx 0 (fun x => { x with restoring := some (2, 9), coming := [1] })
     (r.ctx 0).restoring = some (2, 9) ∧ r.clustersEnding (r.ctx 0).coming = false ∧ r.savedLost (r.ctx 0) = false ∧
      (r.setCtx 2 { st := .tornDown, clusters := [1] }).clustersEnding (r.ctx 0).coming = true) ∧ ((taken o).ctx 0).cfg.save = 0 := by
  decide +kernel

/-- A move of the page at 0x200000 to another frame of tier S, and as it is once started. -/
def move1 : PageMove := { pages := [(0x200000, 1, some 0x600000, 0)] }
def move2 : PageMove := { move1 with started := true, old := [([0xC008], BitVec.ofNat 64 (2 ^ 63 + 2 ^ 62 + 2 ^ 57 + 2 ^ 56 + 0x200000))] }

/-- A state in which a copy holds a chunk's translation of the page that moves. -/
def inChunk : State :=
  (labCmd (.copy 0) 1 { entryOf 0xA3 (copyCmd 0 0 0 0) [] [] with st := .running, prog := { started := true, xlat :=
    [(0x200000 / 16384, BitVec.ofNat 64 (2 ^ 63 + 2 ^ 62 + 2 ^ 57 + 2 ^ 56 + 0x200000))] } } {}).modCtx 0 (fun x => { x with moves := [move2] })

/-- Witness of PageResults: an address at the end of the space, a page to move, a move that is withdrawn, one that can start, one that
waited too long, one that has started. -/
theorem witness_Pages :
    let s := labRing []
    let q := req 0 0x200008 0x600000
    let t := takenFor q s
    let w := t.deviceWalk 0 0x200008
    let withMove (m : PageMove) : State := s.modCtx 0 (fun x => { x with moves := [m] })
    let r := withMove move1
    let o := (withMove { move1 with barrow := true }).modCtx 0 (fun x => { x with tagged := [(0x200000 / 16384, true)] })
    let pinned := { r.modCtx 0 (fun x => { x with installs := [⟨0, 0, 0, [(0x200000, 0x200000)], 0x400000, [], none, none, 0⟩] }) with clk := 125000 }
    accepts (req 0 (2 ^ 52 - 1) 3) Context.live s = true ∧
    (accepts q Context.live s = true ∧
      (w.pageLeaf 0 0x200008).any (fun l => l.tier ≠ 2 && l.size = 21 && !l.compressed) = true ∧
      (w.ctx 0).inMove 0x200000 = false ∧ (q.word 2).getLsbD 7 = false ∧
      anySet (q.word 2) [(0, 14), (54, 7)] = false ∧
      w.frameOk (field (q.word 2) 61 3) (field (q.word 2) 14 40 * 2 ^ 14) (2 ^ 21) false = true) ∧
    (!move1.started && o.taggedSince 0 { move1 with barrow := true }) = true ∧
    (!move1.started && r.taggedSince 0 move1) = false ∧
    (!move1.started && decide (r.clk ≤ move1.since + (r.ctx 0).cfg.mvwait) && r.movable 0 move1) = true ∧
    (!move1.started && decide (move1.since + (pinned.ctx 0).cfg.mvwait ≤ pinned.clk) && !pinned.movable 0 move1) = true ∧
    (!move1.started && decide (move1.since + (r.ctx 0).cfg.mvwait < 125001)) = true ∧
    (((withMove move2).ctx 0).moves.find? (·.started) = some move2 ∧ move2.dest = none ∧ s.held = [] ∧
      (withMove move2).moveHeldUp 0 move2.shifts = false) ∧
    (inChunk.moveHeldUp 0 move2.shifts = true ∧ (inChunk.ctx 0).moves.find? (·.started) = some move2 ∧
      inChunk.targetInUse 0x200000 = true) := by decide +kernel

/-- A commit copies a page's bytes to the new frame and names it in the entry (R337). -/
theorem test_move_commit : nextIs (exec (.moveCommit 0) (((labRing []).modCtx 0 (fun x => { x with moves := [move2] })).rawWrite 0x200010 1 7))
    (fun t => t.byte 0x600010 = 7 && t.rawRead 0xC008 8 = 2 ^ 63 + 2 ^ 62 + 2 ^ 57 + 2 ^ 56 + 0x600000 && (t.ctx 0).tlm = 1) = true := by
  decide +kernel

/-- Witness of PageResults: frames that are fitted, at the ends of tier S and tier D. -/
theorem witness_Frames : ((0x4000 : Nat) < 2 ^ 54 ∧ 0x4000 % 2 ^ 14 = 0 ∧ 7 < 8) ∧ (lab []).fitted 0x3FFE00000 = true ∧ (lab []).fitted 0x10000000000 = true ∧
    memoryOk (lab []) ∧ Quiet (lab []) :=
  ⟨by decide +kernel, by decide +kernel, by decide +kernel, by unfold memoryOk; decide +kernel, lab_quiet _ _⟩

/-- Witness of PageResults: the barrow's epoch, a mailbox that is full, an install at its end, in the last unit of a stack, and one that
was not accepted. -/
theorem witness_Pages_installs :
    let i : Install := ⟨0x200000, 0x600000, 0x200040, [(0x200000, 0x200000)], Config.tierFBase, [], none, none, 1⟩
    let s := { labRing [] with clk := 2 ^ 20 }
    let m := ((labRing []).modCtx 0 (fun x => { x with cfg := { x.cfg with wfmbox := 0x200000 } })).setFull 0x200000 true
    let d := (labRing []).modCtx 0 (fun x => { x with installs := [i] })
    let gone := ((labRing []).modCtx 0 (fun x => { x with installs := [{ i with frames := [] }] })).modDev (fun d => { d with pe := [(8191, 7)] })
    let q := req 0 0x200000 0
    ((s.ctx 0).live = true ∧ (s.ctx 0).barrowAt < s.clk / 2 ^ 20) ∧
    (let b := m.deviceWalk 0 0x200000
     (b.leafAt 0 0x200000).any (fun l => l.tier = 0 && b.isFull l.pa && !b.wordMoving 0 0x200000) = true ∧ (m.ctx 0).live = true ∧
      (m.ctx 0).cfg.wfmbox ≠ 0 ∧ (m.ctx 0).accepted < 4) ∧
    (accepts q Context.live m = true ∧ ((takenFor q m).ctx 0).accepted < 4) ∧
    ((d.ctx 0).installs = [i] ∧ d.wordMoving 0 i.done = false ∧ d.codeLines i.frames = [] ∧
      (d.targetInUse i.dstPa || d.installBefore 0 i) = false ∧ SMap.get 0 d.dev.pe 8191 < 4500 ∧ i.code = none ∧
      d.dev.takesSlot (i.dstPa / 0x200000 - Config.tierFBase / 0x200000) 8191 = true ∧
      d.dev.takesSlot (i.dstPa / 0x200000 - Config.tierFBase / 0x200000) 8192 = false ∧
      4500 ≤ SMap.get 0 { d.dev with pe := [(8191, 4500)] }.pe 8191 ∧ d.fitted i.dstPa = true ∧
      i.frames = [] ++ (0x200000, 0x200000) :: [] ∧ (i.frames.map (·.2)).sum = 0x200000 ∧
      (d.ctx 0).lostReads = 0 ∧ i.image = d.framesImage 0 i.frames ∧ ({ i with code := some 6 } : Install).code = some 6 ∧ { i with done := 0 }.done = 0) ∧
    ((gone.ctx 0).installs = [{ i with frames := [] }] ∧ gone.wordMoving 0 i.done = false ∧ SMap.get 0 gone.dev.pe 8191 ≠ 0) ∧
    (let j := { i with stamp := 2 }
     (d.setCtx 1 { st := .running, installs := [j] }).installBefore 1 j = true) ∧
    (let upset := { d with flips := [(0x8000 * 18, 1), (0x8000 * 18 + 1, 1), (0x8000 * 18 + 2, 1)] }
     (upset.ctx 0).installs = [i] ∧ upset.wordMoving 0 i.done = false ∧ (upset.targetInUse i.dstPa || upset.installBefore 0 i) = false ∧
      upset.dev.takesSlot (i.dstPa / 0x200000 - Config.tierFBase / 0x200000) 8191 = true ∧
      (((upset.modCtx 0 (fun x => { x with installs := [] })).modDev (fun d => d.program 8191)).readSource 0 i.frames).1 = true) := by
  decide +kernel

/-- An install whose source has left the chip programs nothing: its completion word reports the count 0 with code 6 (R346). -/
theorem test_install_gone : nextIs (exec (.installComplete 0 ⟨8191, false, false, true⟩)
    (((labRing []).modCtx 0 (fun x => { x with installs := [⟨0x200000, 0x600000, 0x200040, [], Config.tierFBase, [], none, none, 1⟩] })).modDev
      (fun d => { d with pe := [(8191, 7)] })))
    (fun t => t.rawRead 0x200040 8 = 2 ^ 8 + 6 && t.dev.usedSlots = [] && SMap.get 0 t.dev.pe 8191 = 7) = true := by decide +kernel

/-! ## The device -/

/-- Witness of ManagementResults: a domain of this chip alone, and the words of the other requests at their bounds. -/
theorem witness_Management :
    let s := labRing [(0, 1)]
    let q := req 0 9 0x1000
    let f := takenFor q s
    let l : List (Word × Nat) := [(f.dev.serial, 0)]
    let p (cap st : Nat) : Word := (req 0 (st + cap * 2 ^ 32) 0).word 1
    (accepts q Context.live s = true ∧ f.memberList (q.word 2) = some l ∧ l.filter (fun p => p.1 = f.dev.serial) = l ∧
      (l.map (·.1)).eraseDups = l.map (·.1) ∧
      (l.map (·.1)).any (fun x => x ≠ f.dev.serial && !f.dev.chips.any (fun p => p.1 = x && !p.2.isEmpty)) = false ∧
      (f.ctx 0).domains.any (fun x => x.id.toNat = 9) = false) ∧
    [(0, 0), (0, 1), (1200, 0), (1200, 1), ((taken s).dev.settings.powerCap, 1)].all (fun x =>
      !anySet (p x.1 x.2) [(48, 16), (2, 30)] && decide (field (p x.1 x.2) 0 2 = x.2) && decide (field (p x.1 x.2) 32 16 = x.1)) = true ∧
    (0 < field (p 1199 1) 32 16 ∧ field (p 1199 1) 32 16 < 1200 ∧ 2 ≤ field (p 0 2) 0 2 ∧
      (taken s).dev.settings.powerCap < field (p 2751 1) 32 16) ∧
    ((req 0 0 0).rsv = 0 ∧ ((taken s).ctx 0).live = true ∧ { req 0 0 0 with rsv := 1 }.rsv ≠ 0) ∧
    (recordIds.contains 1 = true ∧ payloadOk s.dev.module 1 [] = true ∧ SMap.find? s.dev.store 1 = none) := by decide +kernel

/-- Witness of DeviceResults: the windows at their last byte, registers of the last ring with and without requests left, a device at
reset and each finding of a boot, an install that a loss of power has cut off, contexts that are out and not, an expander. -/
theorem witness_Device :
    let s := State.reset
    let r := (s.modDev (fun d => { d with ready := true, expanders := [(5, 6)] })).setRing 15 { rqsize := 64, rqtail := 1 }
    let b : BootFindings := { slots := [], serial := 2, fittedD := 0, fittedF := 0, expanders := [],
                              grantH := [], peers := [], optics := [], chips := [], training := [], channels := [], flashStacks := [], badRecords := [] }
    (s.dev.power ≠ .recovery ∧ s.windowAddress ⟨.bar2, 0x3FFFFFFF8, 8, some [1, 2, 3, 4, 5, 6, 7, 8]⟩ = some 0x3FFFFFFF8 ∧
      s.windowAddress ⟨.bar4, 2 ^ 32 - 8, 8, none⟩ = some (2 ^ 32 - 8) ∧ s.held = [] ∧
      (List.range 8).all (fun i => s.takesWrite (0x3FFFFFFF8 + i) && s.givesRead (2 ^ 32 - 8 + i)) = true) ∧
    (s.readRegister 0x13E8 = some 0 ∧ 0x13E8 % 8 = 0 ∧ (s.readRegister 0x10).isSome = true) ∧
    ((s.modDev (fun d => { d with power := .recovery })).dev.power = .recovery) ∧
    ((r.ring 15).rqhead ≠ (r.ring 15).rqtail ∧ (s.ring 15).rqhead = (s.ring 15).rqtail ∧ r.dev.expanders.any (fun e => e.1 = 5) = true) ∧
    (s.dev.ready = false ∧ (∀ x ∈ b.slots, imagePasses x = false) ∧ r.dev.ready = true ∧ s.dev.store = [] ∧ s.dev.log = [] ∧
      (s.modDev (fun d => { d with interrupted := [(3, 4)] })).dev.interrupted = [(3, 4)]) ∧
    (∀ c ∈ s.ctxs, c.2.st = .free ∨ c.2.st = .swappedOut) ∧ ¬ (∀ c ∈ (lab []).ctxs, c.2.st = .free ∨ c.2.st = .swappedOut) := by
  decide +kernel

/-- Witness of UpkeepResults: the last row and the end of a rebuild, and a tile that is idle. -/
theorem witness_Upkeep :
    let s := State.reset
    ((s.setBank 3 { rebuild := some 16383 }).bank 3).rebuild = some 16383 ∧
    ((s.setBank 3 { rebuild := some 16384 }).bank 3).rebuild = some 16384 ∧
    s.dev.settings.gate ≠ 0 ∧ s.tileIdle (Config.nTiles - 1) = true := by decide +kernel

/-! ## A launch record that is taken -/

/-- A launch record at 0x200000 with one stage and one queue at 0x200100 and a table block of zeros at 0x400000, in pages of tier D. -/
def labLaunch : State :=
  [(0x10000200000, 0x524C4B56 + 2 ^ 32 + 2 ^ 40 + 2 ^ 45), (0x10000200008, 4), (0x10000200010, 0x200800), (0x10000200018, 0x400000),
    (0x10000200020, 0x200100), (0x10000200100, 2 ^ 48), (0x10000200108, 1 + 2 ^ 40 + 2 ^ 48), (0x10000200120, 0x200200),
    (0x10000200128, 4 + 2 ^ 16 + 2 ^ 32), (0x10000200130, 3 + 2 ^ 16),
    (0xC008, 2 ^ 63 + 2 ^ 62 + 2 ^ 59 + 2 ^ 57 + 2 ^ 56 + 0x10000200000),
    (0xC010, 2 ^ 63 + 2 ^ 62 + 2 ^ 59 + 2 ^ 57 + 0x10000400000)].foldl (fun (s : State) p => s.rawWrite p.1 8 p.2) (labRing [])

theorem get_below (m : SMap Byte) (n a : Nat) (h : m.all (fun p => decide (p.1 < n)) = true) (ha : n ≤ a) :
    SMap.get unlisted m a = unlisted := by
  have : SMap.find? m a = none := by
    induction m with
    | nil => rfl
    | cons p m ih =>
      simp only [List.all_cons, Bool.and_eq_true, decide_eq_true_eq] at h
      rw [SMap.find?, if_neg (by omega), ih h.2]
  simp [SMap.get, this]

theorem rawRead_zero (s : State) (n : Nat) : ∀ pa, (∀ b, pa ≤ b → s.byte b = 0) → s.rawRead pa n = 0 := by
  induction n with
  | zero => intros; rfl
  | succ n ih => intro pa h; simp [State.rawRead, h pa (le_refl _), ih (pa + 1) (fun b hb => h b (by omega))]

/-- The state in which the device reads that record: the request is taken, its context's tiles are ungated. -/
def launching : State := (takenFor (req 0 0x200000 0) labLaunch).takeRecord 0

theorem launch_byte (a : Nat) (h : 0x10000400000 ≤ a) : launching.byte a = 0 :=
  get_below _ 0x10000400000 a (by decide +kernel) h

theorem launching_quiet : Quiet launching := by
  refine ⟨rfl, fun line => ?_⟩
  have : ∀ b, launching.bank b = {} := fun b => rfl
  simp [State.erasedBanks, this]

theorem tierOf_d (a : Nat) (h : 0x10000000000 ≤ a) (h' : a < 0x10000408000) : tierOf a = some 1 := by
  have h1 : ¬ a < Config.tierSEnd := Nat.not_lt.mpr (Nat.le_trans (by decide) h)
  have h2 : a < Config.tierDEnd := Nat.lt_trans h' (by decide)
  simp [tierOf, h1, h2, show Config.tierDBase ≤ a from h]

theorem launch_fitted (a : Nat) (h : 0x10000000000 ≤ a) (h' : a < 0x10000408000) : launching.fitted a = true := by
  rw [State.fitted, tierOf_d a h h']
  exact decide_eq_true (Nat.lt_of_lt_of_le h' (by decide +kernel))

theorem launch_peek (a : Nat) (h : 0x10000400000 ≤ a) (h' : a < 0x10000408000) : launching.peek a 8 = 0 := by
  simp [State.peek, tierOf_d a (by omega) h', launch_fitted a (by omega) h', State.lineFlips_quiet (s := launching) launching_quiet.1,
    rawRead_zero launching 8 a (fun b hb => launch_byte b (by omega))]

theorem leafAt_of {s : State} {c va : Nat} {l : Leaf} (h : s.walk c va = .ok l) (hv : va < 2 ^ 52) (hc : l.compressed = false) :
    s.leafAt c va = some l := by
  rw [State.leafAt, if_neg (by omega), h]; simp [hc]

theorem launch_leaf (a : Nat) (h : 0x400000 ≤ a) (h' : a < 0x408000) :
    ∃ l, launching.leafAt 0 a = some l ∧ l.pa = 0x10000000000 + a ∧ l.tier = 1 := by
  have k : 0x10000400000 + a % 2 ^ 21 = 0x10000000000 + a := by omega
  have a52 : a < 2 ^ 52 := by omega
  have e0 : levelIndex 0 a = 0 := by simp only [levelIndex]; omega
  have e1 : levelIndex (0 + 1) a = 0 := by simp only [levelIndex]; omega
  have e2 : levelIndex (0 + 1 + 1) a = 2 := by simp only [levelIndex]; omega
  have p0 : launching.peek (0x4000 + 8 * 0) 8 = 2 ^ 63 + 0x8000 := by decide +kernel
  have p1 : launching.peek (0x8000 + 8 * 0) 8 = 2 ^ 63 + 0xC000 := by decide +kernel
  have p2 : launching.peek (0xC000 + 8 * 2) 8 = 2 ^ 63 + 2 ^ 62 + 2 ^ 59 + 2 ^ 57 + 0x10000400000 := by decide +kernel
  have f1 : field (BitVec.ofNat 64 (2 ^ 63 + 0x8000)) 14 40 * 2 ^ 14 = 0x8000 := by decide +kernel
  have f2 : field (BitVec.ofNat 64 (2 ^ 63 + 0xC000)) 14 40 * 2 ^ 14 = 0xC000 := by decide +kernel
  have m0 : launching.malformedEntry 0 (BitVec.ofNat 64 (2 ^ 63 + 0x8000)) = false := by decide +kernel
  have m1 : launching.malformedEntry (0 + 1) (BitVec.ofNat 64 (2 ^ 63 + 0xC000)) = false := by decide +kernel
  have m2 : launching.malformedEntry (0 + 1 + 1) (BitVec.ofNat 64 (2 ^ 63 + 2 ^ 62 + 2 ^ 59 + 2 ^ 57 + 0x10000400000)) = false := by
    decide +kernel
  have v0 : (BitVec.ofNat 64 (2 ^ 63 + 0x8000)).getLsbD 63 = true ∧ (BitVec.ofNat 64 (2 ^ 63 + 0x8000)).getLsbD 62 = false := by
    decide +kernel
  have v1 : (BitVec.ofNat 64 (2 ^ 63 + 0xC000)).getLsbD 63 = true ∧ (BitVec.ofNat 64 (2 ^ 63 + 0xC000)).getLsbD 62 = false := by
    decide +kernel
  have v2 : (BitVec.ofNat 64 (2 ^ 63 + 2 ^ 62 + 2 ^ 59 + 2 ^ 57 + 0x10000400000)).getLsbD 63 = true ∧
      (BitVec.ofNat 64 (2 ^ 63 + 2 ^ 62 + 2 ^ 59 + 2 ^ 57 + 0x10000400000)).getLsbD 62 = true := by decide +kernel
  have r : (launching.ctx 0).cfg.ptroot = 0x4000 := by decide +kernel
  have w : launching.walk 0 a = leafOf a (0xC000 + 8 * 2) (BitVec.ofNat 64 (2 ^ 63 + 2 ^ 62 + 2 ^ 59 + 2 ^ 57 + 0x10000400000)) := by
    rw [State.walk, r, State.walkFrom, e0, p0]
    rw [m0, v0.1, v0.2, f1, State.walkFrom, e1, p1]
    rw [m1, v1.1, v1.2, f2, State.walkFrom, e2, p2]
    rw [m2, v2.1, v2.2]
    rfl
  have f : field (BitVec.ofNat 64 (2 ^ 63 + 2 ^ 62 + 2 ^ 59 + 2 ^ 57 + 0x10000400000)) 14 40 * 2 ^ 14 = 0x10000400000 := by decide +kernel
  have d : field (BitVec.ofNat 64 (2 ^ 63 + 2 ^ 62 + 2 ^ 59 + 2 ^ 57 + 0x10000400000)) 59 3 = 1 := by decide +kernel
  have n : pageBits (field (BitVec.ofNat 64 (2 ^ 63 + 2 ^ 62 + 2 ^ 59 + 2 ^ 57 + 0x10000400000)) 57 2) = 21 := by decide +kernel
  have b : (BitVec.ofNat 64 (2 ^ 63 + 2 ^ 62 + 2 ^ 59 + 2 ^ 57 + 0x10000400000)).getLsbD 13 = false ∧
      (BitVec.ofNat 64 (2 ^ 63 + 2 ^ 62 + 2 ^ 59 + 2 ^ 57 + 0x10000400000)).getLsbD 55 = false := by decide +kernel
  generalize BitVec.ofNat 64 (2 ^ 63 + 2 ^ 62 + 2 ^ 59 + 2 ^ 57 + 0x10000400000) = e at w f n b d
  unfold leafOf at w
  simp only [f, n, b] at w
  exact ⟨_, leafAt_of w a52 rfl, k, d⟩

theorem launch_words (n : Nat) : ∀ a, 0x400000 ≤ a → a + 8 * n ≤ 0x408000 →
    launching.virtWords 0 a n = List.replicate n (some 0) := by
  induction n with
  | zero => intros; rfl
  | succ n ih =>
    intro a h h'
    obtain ⟨l, e, p, -⟩ := launch_leaf a h (by omega)
    simp only [State.virtWords, e, ih (a + 8) (by omega) (by omega), p, launch_peek (0x10000000000 + a) (by omega) (by omega), Option.map_some,
      List.replicate_succ]

theorem join_zeros (n : Nat) : joinWords (List.replicate n 0) = 0 := by
  induction n with
  | zero => rfl
  | succ n ih => simp [List.replicate_succ, joinWords, ih]

theorem nth_zeros (n i : Nat) : nth 0 (List.replicate n 0) i = 0 := by
  simp only [nth, List.getElem?_replicate]; split <;> rfl

theorem zero_tables : badTables (List.replicate 3232 (some 0)) 4 = false := by
  have z (d : Nat) : (List.replicate 3232 (some 0)).map (fun x : Option Nat => x.getD d) = List.replicate 3232 0 := by
    rw [List.map_replicate]; rfl
  have k (w q : Nat) (f : Nat → Nat) (n m : Nat) :
      (List.range m).map (fun g => BitVec.ofNat w (blockField (List.replicate n 0) (f g) q)) = List.replicate m 0 := by
    simp [blockField, join_zeros, List.map_const']
  have k' (f : Nat → Nat) (n m : Nat) :
      (List.range m).map (fun g => BitVec.ofNat 64 (nth 0 (List.replicate n 0) (f g))) = List.replicate m 0 := by
    simp [nth_zeros, List.map_const']
  have g : (tablesOf (List.replicate 3232 0)).groups = List.replicate 256 0 := k 512 8 (8 * ·) 3232 256
  have s : (tablesOf (List.replicate 3232 0)).scopes = List.replicate 32 0 := k' (2048 + ·) 3232 32
  have b : (tablesOf (List.replicate 3232 0)).binds = List.replicate 256 0 := k 256 4 (2080 + 4 * ·) 3232 256
  have bs (l : List (BitVec 512)) : badScope l 0 = false := by simp [badScope]
  have bb : badBind 0 = false := by decide +kernel
  have anyz {α : Type} (x : α) (n : Nat) (p : α × Nat → Bool) (h : ∀ i, p (x, i) = false) :
      ((List.replicate n x).zip (List.range n)).any p = false := by
    rw [List.any_eq_false]
    rintro ⟨y, i⟩ hy
    have := (List.of_mem_zip hy).1
    rw [List.eq_of_mem_replicate this, h i]; simp
  rw [badTables]
  simp only [z, s, b, g]
  rw [anyz, anyz]
  · decide +kernel
  · intro i; exact (congrArg _ bb).trans (Bool.and_false _)
  · intro i; exact (congrArg _ (bs _)).trans (Bool.and_false _)

/-- The words of the record and of its two entries. -/
def launchWords : List Nat := [0x524C4B56 + 2 ^ 32 + 2 ^ 40 + 2 ^ 45, 4, 0x200800, 0x400000, 0x200100, 0, 0, 0]
def entryWords : List Nat := [2 ^ 48, 1 + 2 ^ 40 + 2 ^ 48, 0, 0, 0x200200, 4 + 2 ^ 16 + 2 ^ 32, 3 + 2 ^ 16, 0]

def launchHeader : BitVec 512 := BitVec.ofNat 512 (joinWords launchWords)

theorem launchParts_of {s : State} {c a : Nat} {hw : List Nat} (e : allThere (s.virtWords c a 8) = some hw) (ns nq x y : Nat)
    (k1 : field (BitVec.ofNat 512 (joinWords hw)) 40 5 = ns) (k2 : field (BitVec.ofNat 512 (joinWords hw)) 45 5 = nq)
    (k3 : field (BitVec.ofNat 512 (joinWords hw)) 256 52 = x) (k4 : field (BitVec.ofNat 512 (joinWords hw)) 192 52 = y) :
    s.launchParts c a = some
      { h := BitVec.ofNat 512 (joinWords hw), stages := (entriesRead (s.virtWords c x (4 * (ns + nq))) 4 (ns + nq)).take ns,
        queues := (entriesRead (s.virtWords c x (4 * (ns + nq))) 4 (ns + nq)).drop ns, tables := s.virtWords c y 3232 } := by
  subst k1 k2 k3 k4
  rw [State.launchParts, e]; rfl

theorem launch_parts : ∃ p, launching.launchParts 0 0x200000 = some p ∧ p.tables = List.replicate 3232 (some 0) ∧
    p.h = launchHeader ∧ p.stages.length = 1 ∧ p.queues.length = 1 ∧
    p.stages = (entriesRead (entryWords.map some) 4 2).take 1 ∧ p.queues = (entriesRead (entryWords.map some) 4 2).drop 1 := by
  have d : launching.virtWords 0 0x200100 8 = entryWords.map some := by decide +kernel
  have p := launchParts_of (s := launching) (c := 0) (a := 0x200000) (hw := launchWords) (by decide +kernel) 1 1 0x200100 0x400000
    (by decide +kernel) (by decide +kernel) (by decide +kernel) (by decide +kernel)
  rw [show 4 * (1 + 1) = 8 from rfl, d] at p
  exact ⟨_, p, launch_words 3232 0x400000 (by decide) (by decide), rfl, by decide +kernel, by decide +kernel, rfl, rfl⟩

/-- A walk reads the same entries for two addresses with the same indices. -/
theorem touchWalk_congr (c a b : Nat) (n : Nat) : ∀ (s : State) (level table : Nat),
    (∀ i, level ≤ i → i < level + n → levelIndex i a = levelIndex i b) →
    s.touchWalk c a n level table = s.touchWalk c b n level table := by
  induction n with
  | zero => intros; rfl
  | succ n ih =>
    intro s level table h
    simp only [State.touchWalk, h level (le_refl _) (by omega)]
    rw [ih _ _ _ (fun i hi hj => h i (by omega) (by omega))]

theorem touchVirt_same (s : State) (c va n : Nat)
    (w : ∀ i, i < (va % 64 + n + 63) / 64 → s.deviceWalk c (va / 64 * 64 + 64 * i) = s)
    (h : ∀ i, i < (va % 64 + n + 63) / 64 → ∀ l, s.leafAt c (va / 64 * 64 + 64 * i) = some l → (s.directRead c l 1).1 = s) :
    s.touchVirt c va n = s := by
  unfold State.touchVirt
  have : ∀ (l : List Nat), (∀ i ∈ l, i < (va % 64 + n + 63) / 64) → l.foldl (fun (u : State) i =>
      let u := u.deviceWalk c (va / 64 * 64 + 64 * i)
      match u.leafAt c (va / 64 * 64 + 64 * i) with
      | some l => (u.directRead c l 1).1
      | none => u) s = s := by
    intro l
    induction l with
    | nil => intro _; rfl
    | cons i l ih =>
      intro hl
      rw [List.foldl_cons]
      dsimp only
      rw [w i (hl i (by simp))]
      have e : (match s.leafAt c (va / 64 * 64 + 64 * i) with
          | some l => (s.directRead c l 1).1
          | none => s) = s := by
        cases hh : s.leafAt c (va / 64 * 64 + 64 * i) with
        | none => rfl
        | some x => exact h i (hl i (by simp)) x hh
      rw [e]; exact ih (fun j hj => hl j (by simp [hj]))
  exact this _ (fun i hi => List.mem_range.mp hi)

theorem launch_walk (a b : Nat) (h : ∀ i, i < 4 → levelIndex i a = levelIndex i b) (hb : launching.deviceWalk 0 b = launching) :
    launching.deviceWalk 0 a = launching := by
  rw [State.deviceWalk, touchWalk_congr 0 a b 4 _ _ _ (fun i _ hi => h i (by omega))]; exact hb

theorem launch_walk_tables (a : Nat) (h : 0x400000 ≤ a) (h' : a < 0x408000) : launching.deviceWalk 0 a = launching := by
  have e (b : Nat) (hb : b = 0x400000 ∨ b = 0x404000) (g : b ≤ a) (g' : a < b + 0x4000) : ∀ i, i < 4 → levelIndex i a = levelIndex i b := by
    intro i hi
    obtain rfl | rfl | rfl | rfl : i = 0 ∨ i = 1 ∨ i = 2 ∨ i = 3 := by omega
    all_goals simp only [levelIndex]; omega
  by_cases g : a < 0x404000
  · exact launch_walk a _ (e 0x400000 (.inl rfl) h g) (by decide +kernel)
  · exact launch_walk a _ (e 0x404000 (.inr rfl) (by omega) (by omega)) (by decide +kernel)

theorem launch_read (l : Leaf) (t : l.tier = 1) (h : 0x10000000000 ≤ l.pa) (h' : l.pa < 0x10000408000) :
    (launching.directRead 0 l 1).1 = launching := by
  have t' : tierOf (l.pa / 64 * 64) = some 1 := tierOf_d _ (by omega) (by omega)
  simp [State.directRead, t, State.homeRead, tierOf_d l.pa h h', launch_fitted l.pa h h', State.touch, t',
    State.lineFlips_quiet (s := launching) launching_quiet.1]

theorem launch_touch : launching.touchLaunch 0 0x200000 = launching := by
  obtain ⟨p, hp, -, hh, hs, hq, -⟩ := launch_parts
  have e : field p.h 256 52 = 0x200100 := by rw [hh]; decide +kernel
  have f : field p.h 192 52 = 0x400000 := by rw [hh]; decide +kernel
  have t1 : launching.touchVirt 0 0x200000 64 = launching := touchVirt_same _ _ _ _ (by
    intro i hi
    have : i = 0 := by omega
    subst this; decide +kernel) (by
    intro i hi l hl
    have : i = 0 := by omega
    subst this
    have k : (launching.leafAt 0 0x200000).any (fun l =>
      decide (l.tier = 1 ∧ 0x10000000000 ≤ l.pa ∧ l.pa < 0x10000408000)) = true := by decide +kernel
    rw [show 0x200000 / 64 * 64 + 64 * 0 = 0x200000 from rfl] at hl
    rw [hl] at k
    simp only [Option.any_some, decide_eq_true_eq] at k
    exact launch_read _ k.1 k.2.1 k.2.2)
  have t2 : launching.touchVirt 0 0x200100 (32 * (1 + 1)) = launching := touchVirt_same _ _ _ _ (by
    intro i hi
    have : i = 0 := by omega
    subst this; decide +kernel) (by
    intro i hi l hl
    have : i = 0 := by omega
    subst this
    have k : (launching.leafAt 0 0x200100).any (fun l =>
      decide (l.tier = 1 ∧ 0x10000000000 ≤ l.pa ∧ l.pa < 0x10000408000)) = true := by decide +kernel
    rw [show 0x200100 / 64 * 64 + 64 * 0 = 0x200100 from rfl] at hl
    rw [hl] at k
    simp only [Option.any_some, decide_eq_true_eq] at k
    exact launch_read _ k.1 k.2.1 k.2.2)
  have t3 : launching.touchVirt 0 0x400000 0x6500 = launching := touchVirt_same _ _ _ _ (by
    intro i hi
    have hi : i < 404 := by simpa using hi
    exact launch_walk_tables _ (by omega) (by omega)) (by
    intro i hi l hl
    have hi : i < 404 := by simpa using hi
    have h' : 0x400000 / 64 * 64 + 64 * i < 0x408000 := by omega
    obtain ⟨x, hx, hpa, ht⟩ := launch_leaf (0x400000 / 64 * 64 + 64 * i) (by omega) h'
    rw [hx] at hl
    cases hl
    exact launch_read _ ht (by omega) (by omega))
  rw [State.touchLaunch, if_neg (by decide)]
  simp only [t1, hp, e, f, hs, hq, t2, t3]

/-- Witness of ContextSetupResults: a launch record that is taken. -/
theorem witness_ContextSetup_launch :
    Accepts (req 0 0x200000 0) (fun x => x.st = .resident || x.st = .running) labLaunch ∧
      (launching.ctx 0).waiting.length < 4 ∧ ∃ k, (launching.touchLaunch 0 0x200000).readLaunch 0 0x200000 = .ok k := by
  refine ⟨accepts_of (by decide +kernel), by decide +kernel, ?_⟩
  obtain ⟨p, hp, ht, hh, -, -, hs, hq⟩ := launch_parts
  have n : 4 * (launching.ctx 0).clusters.length = 4 := by decide +kernel
  have c : ∀ n, (List.replicate n (some 0)).contains (none : Option Nat) = false := by
    intro n; simp [List.contains_eq_mem, List.mem_replicate]
  have hb : badTables p.tables 4 = false := by rw [ht]; exact zero_tables
  have hc : p.tables.contains none = false := by rw [ht]; exact c _
  have w : p.reason 4 = 0 := by
    unfold LaunchParts.reason
    rw [hb, hc, hs, hq, hh]
    decide +kernel
  refine ⟨p.kernel 0x200000, ?_⟩
  rw [launch_touch, State.readLaunch, if_neg (by decide), hp]
  simp [n, w]

/-! ## Traps and command faults -/

/-- The small state with two pages more: 0x800000 in tier F, and 0xA00000 compressed in tier D. -/
def wide (s : State) : State :=
  (s.rawWrite 0xC020 8 (2 ^ 63 + 2 ^ 62 + 2 * 2 ^ 59 + 2 ^ 57 + Config.tierFBase)).rawWrite 0xC028 8
    (2 ^ 63 + 2 ^ 62 + 2 ^ 59 + 2 ^ 57 + 2 ^ 55 + 0x10000200000)

theorem quiet_of {s : State} (f : s.flips = []) (b : s.banks = []) : Quiet s := by
  refine ⟨f, fun line => ?_⟩
  have h : ∀ n, s.bank n = {} := fun n => by simp [State.bank, b]
  simp [State.erasedBanks, h]

/-- Witness of the traps of PlainLoadResults, StoreResults, AtomicResults, TaggedResults, WakeResults, BarrierResults and ConstantResults:
misaligned addresses of each size, the first past the space, one that no entry maps, a compressed page, a page of tier D and one of tier
F, and pages that are not writable. -/
theorem witness_TrapClauses :
    let s := wide (lab [])
    let leaf (va : Nat) (p : Leaf → Bool) : Bool := match (s.translate 0 (.hart false) 0 va).2 with | .ok l => p l | .error _ => false
    [1, 3, 7].all (fun n => (0x200004 + n) % 2 ≠ 0) = true ∧ (0x200004 % 8 ≠ 0 ∧ 0x200008 % 16 ≠ 0 ∧ 0x200040 % 128 ≠ 0) ∧
    ((0x10000000000000 : Word).toNat % 128 = 0 ∧ 2 ^ 52 ≤ (0x10000000000000 : Word).toNat) ∧
    (s.translate 0 (.hart false) 0 0x1FFF80).2 = .error 1 ∧ (s.hart s.me).tmpl = [] ∧
    (leaf 0xA00000 (fun l => l.compressed) && leaf 0x600000 (fun l => !l.compressed && l.tier = 1 && l.writable) &&
      leaf 0x800000 (fun l => !l.compressed && l.tier = 2 && !l.writable) &&
      leaf 0x400000 (fun l => !l.compressed && l.tier = 0 && !l.writable)) = true ∧
    (match plainWords h0 0x1FFF80 16 s with | .error (.trap 13 1 va) _ => va = 0x1FFF80 | _ => false) = true := by decide +kernel

/-- An atomic in tier F traps with code 7, `hld` at no multiple of 128 with code 4, and a load of a compressed page with code 13 (R130, R348). -/
theorem test_traps :
    let cause (i : Instr) (x : SMap Word) : Nat := match exec i (wide (lab x)) with
      | .next t => (t.hart h0).ctxcause.toNat % 256
      | _ => 0
    (cause (.maAdd 6 5 7) [(5, 0x800000)], cause (.hld 3 5 8) [(5, 0x200000)], cause (.plainLoad .ld 6 5 0) [(5, 0xA00000)],
      cause (.ldf 6 5 0) [(5, 0x600000)], cause (.barrArrive 6 5) [(5, 0x200008)], cause (.sdU 5 6 0) [(5, 0x800000)]) =
    (7, 4, 13, 5, 6, 15) := by decide +kernel

/-- Whether a part of a command ends in a command fault. -/
def faultIs {α : Type} (x : EStateM.Result Exc State α) (p : Nat → Bool) : Bool :=
  match x with
  | .error (.fault code _ _) _ => p code
  | _ => false

/-- Whether a command of q0 meets the premises of a fault: it can start, and a part of it ends in one. -/
def fails {α : Type} (op : Nat) (c : Cmd) (h : SMap Record) (k : TileCtx) (m : Run → M α) (p : Nat → Bool) : Bool :=
  starts op c (labQ0 op c h k) (runQ0 op c h) && faultIs (m (runQ0 op c h) (labQ0 op c h k)) p

/-- A command with every operand bit set. -/
def allOnes (a : Bool) (fmt : Nat) : Cmd := { cmd 0 fmt 0 (2 ^ 128 - 1) (2 ^ 64 - 1) with a := a }

/-- Witness of SyncAndRecovery: a command of each form of q0 but the anvil's and the vector engine's that has a reserved bit set. -/
theorem witness_Faults_checks :
    let c := allOnes false 0; let a := allOnes true 0
    let one (n : Nat) : Bool := n = 1
    ([(0x00, [(64, 128)]), (0x01, [(64, 128)]), (0x02, [(128, 64)]), (0x48, [(64, 36), (111, 81)])].all (fun p =>
        decide ((reservedBit c p.2).isSome) && fails p.1 c [] {} (fun _ => checkReserved c p.2) one) &&
      fails 0x23 a [] {} (fun _ => checkReserved a (fdReserved .skip a)) one &&
      [(0x20, FeederKind.row), (0x20, .crd), (0x21, .gather), (0x22, .bcast), (0x22, .splat)].all (fun p =>
        fails p.1 a [] {} (fun r => fdChecks p.2 r a) one) && fails 0x24 c [] {} (fun r => fdChecks .store r c) one &&
      fails 0x40 c [] {} (fun r => srChecks r c) one && fails 0x49 c [] {} (fun r => bkChecks false false r c) one &&
      fails 0x4A c [] {} (fun r => bkChecks true (c.sub.getLsbD 0) r c) one) = true := by decide +kernel

/-- Witness of SyncAndRecovery: the vector commands with a reserved bit set or out of range, and the anvil's. -/
theorem witness_Faults_vector :
    let c := allOnes false 3; let a := allOnes true 3
    ((vectorForms c ++ predicateForms c ++ voteForms c).all (fun p => fails p.2.1 c [] {} (fun _ => vChecks p.2.2 c) (fun _ => true)) &&
      fails 0x6C a [] {} (fun r => vmChecks .ld r a) (fun _ => true) && fails 0x6D c [] {} (fun r => vmChecks .st r c) (fun _ => true) &&
      fails 0x6E a [] {} (fun r => vmChecks .gather r a) (fun _ => true) &&
      fails 0x6F c [] {} (fun r => vmChecks .scatter r c) (fun _ => true) &&
      ([(0x87, { cnt := false }), (0x81, ldwForm), (0x82, swapForm), (0x83, mulForm), (0x84, gmulForm), (0x85, rowsForm),
        (0x86, drainForm c), (0x88, rowsForm), (0x80, {})] : List (Nat × AnForm)).all (fun p =>
          fails p.1 c [] {} (fun r => anChecks p.2 r c) (fun _ => true)) && decide ((runQ0 0x80 c []).e.st ≠ .running)) = true := by
  decide +kernel

/-- Witness of SyncAndRecovery: copies and message commands whose checks fail, and copies that fault at work, at a place that no page maps. -/
theorem witness_Faults_copy :
    let c := allOnes false 0
    let far (fmt : Nat) : SMap Record :=
      [(1, dense 0x1000000 fmt [(4, 1)]), (2, dense 0x1000000 fmt [(4, 1)]), (3, dense 0x200600 3 [(4, 1)])]
    let bad (op : Nat) (k : CopyKind) : Bool :=
      starts op c (labCopy op c []) (runCopy op c []) && faultIs (cpStart k (runCopy op c []) c (labCopy op c [])) (fun _ => true)
    let lost (op : Nat) (k : CopyKind) (x : Cmd) (h : SMap Record) : Bool :=
      starts op x (labCopy op x h) (runCopy op x h) && okIs (cpStart k (runCopy op x h) x (labCopy op x h)) (fun _ t =>
        faultIs (cpChunk k (runCopy op x h) x t) (· = 6))
    let msg (op : Nat) (k : MsgKind) : Bool :=
      starts op c (labMsg op c) (runMsg op c) && faultIs (msChecks k (runMsg op c) c (labMsg op c)) (· = 1)
    (bad 0xA0 .nd && bad 0xA1 .gather && bad 0xA2 .scatter && bad 0xA4 .red && bad 0xA5 .fill && bad 0xA6 .pref &&
      lost 0xA0 .nd (copyCmd 0 0 0 0) (far 0) && lost 0xA1 .gather (copyCmd 0 0 (fld 164 3) 0) (far 0) &&
      lost 0xA2 .scatter (copyCmd 0 0 (fld 164 3) 0) (far 0) && lost 0xA4 .red (copyCmd 0 3 0 0) (far 3) &&
      lost 0xA5 .fill (capt (cmd 0 0 0 (fld 160 2) 0x7F) false 14 0) (far 0) &&
      msg 0xC0 .send && msg 0xC1 .put && msg 0xC1 .arrive && msg 0xC8 .post && msg 0xC9 .cancel && msg 0xC2 .get) = true := by
  decide +kernel

/-- Witness of SyncAndRecovery: a fill, an `fd.store` and a `vst` that fault at their data: a page that is not mapped, and a slot of another
format. -/
theorem witness_Faults_data :
    let far : SMap Record := [(0, dense 0x1000000 0 [(512, 1), (2, 512)]), (1, indices)]
    let f := feeder 0 0 1; let c := { feeder 0 0 2 with hmask := 1, a := false }
    let store (h : SMap Record) (x : Slot) (p : Nat → Bool) : Bool :=
      let s := labQ0 0x24 c h { dq := [(0, { slots := [x], fills := 1 })] }; let r := runQ0 0x24 c h
      let v := claiming r 0 1 s
      let l := owned r 0 v
      starts 0x24 c s r && okIs (fdChecks .store r c s) (fun y t => decide (t = s) && decide ((((s.tc 0).dqueue 0).next 1).length = 1) &&
        (((s.tc 0).dqueue 0).next 1).all (fun x => x.st = .full) && (faultIs (checkSlots 0 (some 0) l v) p ||
        (l.all (fun x => !x.side.getLsbD 28 && field x.side 8 4 = 0) &&
          faultIs (storeAll r false ((l.zip (List.range l.length)).flatMap (fun p => slotPuts r c y p.2 p.1)) [] v) p)))
    let w := capt (cmd 0 3 0 (fld 178 1) 0) false 1 0
    let vh : SMap Record := [(0, dense 0x1000000 3 [(16, 1)])]
    let vs := labQ0 0x6D w vh {}; let vr := runQ0 0x6D w vh
    (fdDq c = 0 ∧ fdNslot c = 1) ∧
    (fails 0x20 f far {} (fun r => do
        let h ← fdChecks .row r f
        set (reserved r (fdDq f) (fdNslot f) (← get))
        (List.range 1).forM (fun i => fillFrom r .row f h i (slotCoords r f i))) (· = 6) &&
      store far (slotOf 0 2) (· = 6) && store [(0, tensor)] (slotOf 1 1) (· = 9) &&
      starts 0x6D w vs vr && okIs (vmChecks .st vr w vs) (fun h _ => faultIs (storeAll vr false (((vs.tc 0).actives w).map (fun i =>
        vPut vr h (vCoords vr w (i - vE0 w)) (elemAt ((vs.tc 0).vreg (vmVs1 w)) (vBits w) i))) [] vs) (· = 6))) = true := by
  decide +kernel

/-- Witness of SyncAndRecovery: queues without and with a fault, a later fault of the same clk, of an earlier and of a later command. -/
theorem witness_Faults_record :
    let e : Entry := { entryOf 0 (cmd 0 0 0 0 0) [] [] with seq := 3 }
    let k : TileCtx := { q1 := { faulted := true, record := { clk := 9, seq := 5 } } }
    (k.queue 0).faulted = false ∧ ((k.queue 1).faulted = true ∧ (k.queue 1).record.clk = 9 ∧ e.seq < (k.queue 1).record.seq ∧
      ¬ ({ e with seq := 5 } : Entry).seq < (k.queue 1).record.seq) ∧ reservedBit (allOnes false 0) [(64, 36)] = some 0 ∧
      ((k.queue (3 - 2)).faulted = true ∧ (k.queue (3 - 1)).faulted = false) := by decide +kernel

/-- A command fault in an empty queue sets CP on its hart and records code, detail and return value; the queue is faulted (R155, R157). -/
theorem test_fault : let c := allOnes false 0
    nextIs (exec (.cnop c) (labQ0 0x00 c [] {})) (fun t => (t.queue 0 0).faulted && (t.queue 0 0).record.code = 1 &&
      (t.queue 0 0).record.detail = 0 && (t.hart h0).faultPending && !(t.hart h1).faultPending) = true := by decide +kernel

/-! ## Waits and ends -/

/-- Witness of TimelineAndFenceResults: waits on tlr for 0 and for a count reached and not reached, a fence of fabric reach of the movement
hart with a command out and with none, and one that waits. -/
theorem witness_Timeline_fabric :
    let s := ((lab [(5, 1)]).modCtx 0 (fun c => { c with tlr := 1 }))
    let q := (labCmd (.move 0) 2 (entryOf 0xC0 (cmd 0 0 0 0 0) [] []) {}).modCtx 0 (fun c =>
      { c with scopes := [(31, BitVec.ofNat 64 (2 ^ 63 + 2 ^ 8 + 9 * 2 ^ 16))], domains := [⟨9, [(0, 0)]⟩] })
    ((4 : BitVec 3).toNat = 4 ∧ s.readX h0 0 = 0 ∧ (s.readX h0 5).toNat ≤ s.timeline 0 4 ∧ s.timeline 0 4 < 2 ∧
      ((s.setWait h0 (.tl 4 1)).hart h0).run = .waiting (.tl 4 1) ∧ (1 : Word) ≠ 0) ∧
    (q.me.move = true ∧ (q.tc 0).fencePending = true ∧ (q.ctx 0).scopeBound 31 = true ∧
      (SMap.get 0 (q.ctx 0).scopes 31).getLsbD 8 = true ∧ (q.hart h1).run ≠ .waiting .fence) ∧
    (((q.setWait h1 .fence).hart h1).run = .waiting .fence ∧ ((lab []).tc 0).fencePending = false) := by decide +kernel

/-- Witness of KernelExit: rebindings by the mark and by the lowest stage that lacks tiles, of a tile of the context; a tile that stays
unbound. -/
theorem witness_KernelExit_rebinds :
    let st : Stage := { main := 0x40, move := 0x80, tmin := 1, tmax := 4, inq := 0, outs := [0], factor := 1, minchunk := 1 }
    let b : Binding := { stage := 0, born := 0, mainStopped := true, moveStopped := true, mark := some 1 }
    let k : Kernel := { kernel1 sq with stages := [st, st], bound := [(0, b)] }
    let s := labKernel (.main 0) [] k
    ((s.ctx 0).kernel = some k ∧ s.binding 0 = some b ∧ (s.tilesOf 0)[0]? = some 0 ∧ b.mark = some 1 ∧ k.hasEnded 1 = false ∧ k.hasEnded 2 = true) ∧
    (let free : Kernel := { k with bound := SMap.del k.bound 0 }
     k.stage 0 = some st ∧ st.ended = false ∧ free.tiles 0 < st.tmin ∧
     ({ k with bound := SMap.del k.bound 0, stages := [{ st with ended := true }] } : Kernel).hasEnded 0 = true) := by decide +kernel

/-- Witness of KernelLife: a kernel whose work is done while a put of a tile is not acknowledged, and while none is. -/
theorem witness_KernelLife_puts :
    let k0 := kernel1 { sq with ring := [] }
    let k := { k0 with bound := [], stages := k0.stages.map (fun x => { x with ended := true }) }
    let s := labKernel (.main 0) [] k
    let p := s.modTc 0 (fun m => { m with unacked := [{ seq := 1, op := 0xC1, word := 0 }] })
    s.workDone 0 k = true ∧ s.putsOut 0 = false ∧ p.workDone 0 k = true ∧ p.putsOut 0 = true := by decide +kernel

/-- Witness of LinkResults: a packet on a Jecen port, which only its destination on another chip takes; a port with one lane left; an
element that is out by a port; a protected packet that has not been acknowledged. -/
theorem witness_LinkEnds :
    let j : Link := ⟨.jecen, 0⟩
    let p := { packet 3 Config.chipBase 0 with protect := true }
    let d : Departure := { port := some 0, cls := 1, what := .element 7 0 false 0 4 3 0 0 1 }
    let s := { State.reset.setLink j { st := .degraded, lanes := 1 } with kept := [(3, [p])], resend := [(3, Config.chipBase)], sent := [d] }
    takenAt p Config.chipBase = true ∧ takenAt p (Config.chipBase + 1) = false ∧ takenAt p Config.chipNode = true ∧
    ((s.link j).st = .degraded ∧ (s.link j).lanes ≤ 1 ∧ (s.link j).dropped < 2 ^ 64) ∧
    (p ∈ SMap.get [] s.kept 3 ∧ (3, p.dest) ∈ s.resend) ∧ (d ∈ s.sent ∧ d.port = some 0) ∧
    ((linked .up {}).nextLink (packet 3 4 0)) = some ⟨.mesh, 3⟩ := by decide +kernel

/-- One word of a landing is written before the others (R100, R369). -/
theorem test_land_word :
    let l : Landing := { p := { post1 with coords := [0] }, m := msg1, n := 0, ended := false }
    nextIs (step { (lab []).modCtx 0 (fun x => { x with landings := [{ l with n := 4 }, l] }) with agenda := [.landWord 0 1] }) (fun t =>
      t.rawRead 0x200200 8 = 0x04030201 && (t.ctx 0).landings.map (·.n) = [4, 4] && t.agenda = []) = true := by decide +kernel

/-! ## Pages that leave, installs that are accepted -/

/-- Witness of PageResults: an invalidation at a ring whose context is inside a chunk; pages that are not mapped, in tier F, in a move, and
moves to a member that is none, this chip and another chip. -/
theorem witness_Pages_away :
    let host (s : State) : State := { s with rings := [(2, { rqsize := 4, rqtail := 1 })] }
    let busy := host (inChunk.rawWrite (hostPa 0) 8 0x0A)
    let s := wide (labRing [])
    let w (q : Request) (s : State) : State := (takenFor q s).deviceWalk 0 (q.word 1).toNat
    let f := req 0 0x800000 0; let none' := req 0 0x1000000 0; let q := req 0 0x200008 0x80
    let dom (serial : Word) : State := s.modCtx 0 (fun x =>
      { x with scopes := [(1, BitVec.ofNat 64 (2 ^ 63 + 2 ^ 8 + 9 * 2 ^ 16))], domains := [⟨9, [(serial, 3)]⟩] })
    let member (s : State) := ((w q s).ctx 0).primaryDomain.bind (fun d => d.members[0]?)
    (s.midChunk 0 = false ∧ field (busy.ringWord 2) 0 8 = 0x0A ∧ busy.midChunk (field (busy.ringWord 2) 8 8) = true) ∧
    (accepts none' Context.live s = true ∧ (w none' s).pageLeaf 0 0x1000000 = none) ∧
    (accepts f Context.live s = true ∧ ((w f s).pageLeaf 0 0x800000).any (fun l => l.tier = 2) = true) ∧
    (let m := s.modCtx 0 (fun x => { x with moves := [move1] })
     ((w q m).ctx 0).inMove 0x200000 = true ∧ accepts q Context.live m = true) ∧
    ((q.word 2).getLsbD 7 = true ∧ anySet (q.word 2) [(8, 56)] = false ∧ anySet ((req 0 0 0x180).word 2) [(8, 56)] = true ∧
      member s = none ∧ member (dom 0) = some (0, 3) ∧ (w q (dom 0)).dev.serial = 0 ∧ member (dom 5) = some (5, 3) ∧
      field (q.word 2) 0 7 = 0) := by decide +kernel

/-- Witness of PageResults: a move to another chip at its commit, and what the barrow has to choose from. -/
theorem witness_Pages_barrow :
    let old : Word := BitVec.ofNat 64 (2 ^ 63 + 2 ^ 62 + 2 ^ 57 + 2 ^ 56 + 0x200000)
    let m : PageMove := { pages := [(0x200000, 1, none, 0)], started := true, dest := some (5, 3), old := [([0xC008], old)] }
    let s := (labRing []).modCtx 0 (fun x => { x with moves := [m] })
    let p : BarrowPage := ⟨0x600000, 1, 0x10000000000, 5000⟩; let y : BarrowPage := ⟨0x200000, 1, 0x200000, 3⟩
    ((s.ctx 0).moves.find? (·.started) = some m ∧ s.moveHeldUp 0 m.shifts = false ∧ s.held = [] ∧ s.flips = [] ∧ s.banks = [] ∧
      s.fitted (frameOf old).1 = true) ∧
    [0x4000, 0x600000].find? (fun f => poolSize f = p.code) = some 0x600000 ∧ ([0x4000].all (fun f => poolSize f ≠ p.code) = true ∧
      y ∈ [y] ∧ y.code = p.code) := by
  decide +kernel

/-- A descriptor at 0x200000: 2 MiB of tier D to tier F, with a completion word. -/
def described : State :=
  (((wide (labRing [])).rawWrite 0x200000 8 0x600000).rawWrite 0x200008 8 0x800000).rawWrite 0x200010 8 0x200040

/-- Witness of PageResults: a descriptor that is well formed, with a budget and with none, and one that is not. -/
theorem witness_Pages_accept :
    (described.descriptor 0 0x200000).isSome = true ∧ (described.ctx 0).cfg.wfbudget = 0 ∧ described.descriptor 0 0x200020 = none ∧
    0 < ((described.modCtx 0 (fun x => { x with cfg := { x.cfg with wfbudget := 1 } })).ctx 0).cfg.wfbudget ∧
    Quiet described ∧ described.held = [] ∧ (∀ b, described.wordMoving 0 b = false) :=
  ⟨by decide +kernel, by decide +kernel, by decide +kernel, by decide +kernel, quiet_of rfl rfl, rfl, fun b => by
    have h : (described.ctx 0).moves = [] := rfl
    simp [State.wordMoving, State.spanMoving, h]⟩

/-- An install that is accepted lowers the budget; with no budget left its completion word reports code 1 (R345, R346). -/
theorem test_accept :
    (((described.modCtx 0 (fun x => { x with cfg := { x.cfg with wfbudget := 3 } })).acceptInstall 0 0x200000 none).ctx 0).cfg.wfbudget = 2 ∧
    (described.acceptInstall 0 0x200000 none).rawRead 0x200040 8 = 2 ^ 8 + 1 := by decide +kernel

/-! ## Coded blocks -/

/-- The table of the example "one Huffman block": a has length 1, b and c have length 2. -/
def huffman : BitVec 1024 := BitVec.ofNat 1024 (0x2210 * 2 ^ (8 * 0x30))

/-- A state whose source stream is one coded block of the bytes of `crc`, with the body bits `body`, and the handles of its `cp.dec`. -/
def codedHandles (n : Nat) : SMap Record :=
  [(1, BitVec.ofNat 1024 (0x1100000000201000 + (0x20000000 + n) * 2 ^ 256)), (2, BitVec.ofNat 1024 (0x1100000000200000 + 0x20000004 * 2 ^ 256))]
def coded (n : Nat) (magic crc body : Nat) : State :=
  ((((labCmd (.copy 0) 1 (entryOf 0xA3 decCmd (codedHandles n) []) {}).rawWrite 0x201000 8 (0x0001000101000000 + magic)).rawWrite 0x201008 8
    (crc * 2 ^ 32 + 0x4000)).rawWrite (0x201010 + 0x30) 8 0x2210).rawWrite 0x201090 1 body

/-- Witness of DecoderResults: a coded block, its header, its next symbol and its bytes. -/
theorem witness_Decoder_coded :
    let c := decCmd; let r := runCopy 0xA3 c (codedHandles 145); let s := coded 145 0x5A4B (crc32c [0x63]).toNat 3
    tableOk huffman = true ∧ (symbolsOf huffman 2)[1]? = some 0x63 ∧ firstCode huffman 2 + 1 = 3 ∧
    (starts 0xA3 c s r && okIs (cpStart .dec r c s) (fun _ t => okIs (decHeader r c {} t) (fun d t =>
      !malformedBlock d.header d.table && decide (d.table = huffman) &&
      okIs (bodyByte r c d 144 t) (fun b u => b = 3 && okIs (bodyByte r c d 144 u) (fun b _ => b = 3)) &&
      okIs (nextSymbol r c d t) (fun s _ => s.1 = 0x63 && decide (s.2 = { d with bit := 2 }))))) = true := by decide +kernel

/-- Witness of DecoderResults: a header with a wrong magic, a checksum that differs, a source that ends in the header. -/
theorem witness_Decoder_bad :
    let c := decCmd; let r := runCopy 0xA3 c decHandles; let q := runCopy 0xA3 c (codedHandles 15)
    let magic := decState.rawWrite 0x201000 1 0x4A; let crc := decState.rawWrite 0x20100C 1 0
    (okIs (cpStart .dec r c magic) (fun _ t => okIs (decBytes r c {} 0 16 t) (fun h _ => malformedBlock (BitVec.ofNat 128 h) 0) &&
        faultIs (decHeader r c {} t) (· = 0x19)) &&
      okIs (cpStart .dec r c crc) (fun _ t => okIs (decHeader r c {} t) (fun d u => d.n < hRlen d.header && okIs (nextSymbol r c d u)
        (fun x v => x.1 = 0x61 && decide (x.2 = d) && okIs (decWrite r c 0 x.1 v) (fun _ _ => true)) &&
        faultIs (decRun r c 513 d u) (· = 0x11))) &&
      okIs (cpStart .dec q c (coded 15 0x5A4B 0 3)) (fun _ t => faultIs (decBytes q c {} 0 16 t) (· = 0x12))) = true := by decide +kernel

/-- Witness of DecoderResults: the decoder at the end of a block by its bound and by its checksum, at a destination that is full, where it
needs a ring unit, at the end of its body, and at bits that form no code. -/
theorem witness_Decoder_ends :
    let c := decCmd; let r := runCopy 0xA3 c (codedHandles 145); let s := coded 145 0x5A4B 0 3
    let h : BitVec 128 := BitVec.ofNat 128 (0x40000001000101005A4B)
    let d : DecState := { header := h, table := huffman, inBlock := true, out := 4, crc := 1 }
    let one : BitVec 1024 := BitVec.ofNat 1024 (0xC * 2 ^ (4 * 0x61))
    (hKind h = 1 ∧ hRlen h = 1 ∧ hPlen h = 1 ∧ hCyc h = 64) ∧
    ({ d with n := 1, cycles := 64 } : DecState).n = hRlen h ∧ hCyc h ≤ ({ d with n := 1, cycles := 64 } : DecState).cycles ∧
    ~~~d.crc ≠ bits h 96 32 ∧ ((cpDest r c).count * cpSize c = 4 ∧ (cpSource r c).count = 145) ∧
    okIs (nextSymbol r c d s) (fun _ _ => true) = true ∧
    (cpRg (capt (cmd 0 0 1 0 0) false 0 0) = true ∨ cpRg (capt (cmd 0 0 2 0 0) false 0 0) = true ∨ cpRg (capt (cmd 1 0 0 0 0) false 0 0) = true) ∧
    512 * hPlen (h - BitVec.ofNat 128 (2 ^ 24)) ≤ 16 + 496 ∧ hKind (h - BitVec.ofNat 128 (2 ^ 24)) = 0 ∧
    (tableOk one = true ∧ (symbolsOf one 12).length = 1 ∧ faultIs (nextSymbol r c { d with table := one } (s.rawWrite 0x201090 2 0xFFFF)) (· = 0x12) = true) ∧
    faultIs (cpStart .dec (runCopy 0xA3 (allOnes false 0) []) (allOnes false 0) (labCopy 0xA3 (allOnes false 0) [])) (· = 1) = true := by
  decide +kernel

end Sys2Proof.Tests
end

section
/-! The bytes of numbers, and what a home does with them where no line holds an upset. -/

namespace Sys2Proof.Machine

open Sys2Proof.Claims

/-! ## Bytes and their values -/

@[simp] theorem bytesOf_length (v n : Nat) : (bytesOf v n).length = n := by
  induction n generalizing v with
  | zero => rfl
  | succ n ih => simp [bytesOf, ih]

theorem bytesValue_bytesOf (v n : Nat) : bytesValue (bytesOf v n) = v % 256 ^ n := by
  induction n generalizing v with
  | zero => simp [bytesOf, bytesValue, Nat.mod_one]
  | succ n ih =>
    rw [bytesOf, bytesValue, ih, BitVec.toNat_ofNat, show 256 ^ (n + 1) = 256 * 256 ^ n from Nat.pow_succ', Nat.mod_mul]

/-- A word is the value of its eight bytes. -/
theorem ofNat_bytesValue_bytesOf (w : Word) : BitVec.ofNat 64 (bytesValue (bytesOf w.toNat 8)) = w := by
  rw [bytesValue_bytesOf, Nat.mod_eq_of_lt (by simpa using w.isLt), BitVec.ofNat_toNat, BitVec.setWidth_eq]

/-- A write of the value of a list of bytes leaves them at its addresses, in order. -/
theorem State.byte_rawWrite_bytesValue (s : State) (pa : Nat) (l : List Byte) (x : Nat) :
    (s.rawWrite pa l.length (bytesValue l)).byte x = if pa ≤ x ∧ x < pa + l.length then nth 0 l (x - pa) else s.byte x := by
  induction l generalizing s pa with
  | nil => rw [if_neg (by simp)]; rfl
  | cons b l ih =>
    have hb : BitVec.ofNat 8 (b.toNat + 256 * bytesValue l) = b := by
      apply BitVec.eq_of_toNat_eq; rw [BitVec.toNat_ofNat]; have := b.isLt; omega
    have hv : (b.toNat + 256 * bytesValue l) / 256 = bytesValue l := by have := b.isLt; omega
    rw [bytesValue, List.length_cons, State.rawWrite, hb, hv, ih, State.byte_setByte]
    by_cases hx : x = pa
    · subst hx; simp [nth]
    · by_cases h1 : pa ≤ x ∧ x < pa + (l.length + 1)
      · rw [if_pos h1, if_pos (by omega), show x - pa = (x - (pa + 1)) + 1 by omega]; rfl
      · rw [if_neg h1, if_neg (by omega), if_neg hx]

/-- The bytes of a number that was read are those of memory. -/
theorem State.bytesOf_rawRead (s : State) (pa n : Nat) :
    bytesOf (s.rawRead pa n) n = (List.range n).map (fun i => s.byte (pa + i)) := by
  induction n generalizing pa with
  | zero => rfl
  | succ n ih =>
    have hb : BitVec.ofNat 8 ((s.byte pa).toNat + 256 * s.rawRead (pa + 1) n) = s.byte pa := by
      apply BitVec.eq_of_toNat_eq; rw [BitVec.toNat_ofNat]; have := (s.byte pa).isLt; omega
    have hv : ((s.byte pa).toNat + 256 * s.rawRead (pa + 1) n) / 256 = s.rawRead (pa + 1) n := by
      have := (s.byte pa).isLt; omega
    rw [State.rawRead, bytesOf, hb, hv, ih, List.range_succ_eq_map, List.map_cons, List.map_map]
    congr 1
    exact List.map_congr_left (fun i _ => by simp only [Function.comp]; congr 1; omega)

/-! ## What accesses at a home leave alone -/

/-- The upsets, the banks, the held requests and what is fitted are the same. -/
structure HomeFrame (s u : State) : Prop where
  flips : u.flips = s.flips
  banks : u.banks = s.banks
  held : u.held = s.held
  fittedD : u.dev.fittedD = s.dev.fittedD
  fitted : ∀ pa, u.fitted pa = s.fitted pa

theorem HomeFrame.refl (s : State) : HomeFrame s s := ⟨rfl, rfl, rfl, rfl, fun _ => rfl⟩

theorem HomeFrame.trans {s t u : State} (h : HomeFrame s t) (k : HomeFrame t u) : HomeFrame s u :=
  ⟨k.flips.trans h.flips, k.banks.trans h.banks, k.held.trans h.held, k.fittedD.trans h.fittedD,
    fun pa => (k.fitted pa).trans (h.fitted pa)⟩

theorem HomeFrame.foldl {α : Type} {f : State → α → State} (hf : ∀ s a, HomeFrame s (f s a)) (l : List α) (s : State) :
    HomeFrame s (l.foldl f s) := by
  induction l generalizing s with
  | nil => exact .refl s
  | cons a l ih => exact (hf s a).trans (ih _)

theorem HomeFrame.quiet {s u : State} (h : HomeFrame s u) (hq : Quiet s) : Quiet u := by
  obtain ⟨hf, he⟩ := hq
  have hb : ∀ i, u.bank i = s.bank i := fun i => by unfold State.bank; rw [h.banks]
  refine ⟨h.flips.trans hf, fun line => ?_⟩
  have : u.erasedBanks line = s.erasedBanks line := by simp only [State.erasedBanks, hb]
  rw [this]; exact he line

theorem HomeFrame.takesWrite {s u : State} (h : HomeFrame s u) (pa : Nat) : u.takesWrite pa = s.takesWrite pa := by
  simp [State.takesWrite, h.fitted]

theorem HomeFrame.givesRead {s u : State} (h : HomeFrame s u) (pa : Nat) : u.givesRead pa = s.givesRead pa := by
  simp [State.givesRead, h.fitted, h.fittedD]

/-- A fold of steps that leave memory alone leaves it alone. -/
theorem State.foldl_mem {α : Type} {f : State → α → State} (hf : ∀ s a, (f s a).mem = s.mem) (l : List α) (s : State) :
    (l.foldl f s).mem = s.mem := by
  induction l generalizing s with
  | nil => rfl
  | cons a l ih => exact (ih _).trans (hf s a)

theorem State.byte_congr {s u : State} (h : u.mem = s.mem) (x : Nat) : u.byte x = s.byte x := by
  unfold State.byte; rw [h]

/-- Bytes that agree before a write agree after it. -/
theorem State.byte_rawWrite_congr {s u : State} (h : u.mem = s.mem) (pa n v x : Nat) :
    (u.rawWrite pa n v).byte x = (s.rawWrite pa n v).byte x := by
  induction n generalizing s u pa v with
  | zero => exact State.byte_congr h x
  | succ n ih => exact ih (by unfold State.setByte; rw [h]) _ _

theorem State.rawWrite_frame (s : State) (pa n v : Nat) : HomeFrame s (s.rawWrite pa n v) := by
  obtain ⟨m, h⟩ := s.rawWrite_eq pa n v
  rw [h]; exact ⟨rfl, rfl, rfl, rfl, fun _ => rfl⟩

theorem State.countLostInstall_frame (s : State) (pa : Nat) : HomeFrame s (s.countLostInstall pa) := by
  unfold State.countLostInstall; split
  · refine HomeFrame.foldl (fun s c => ?_) _ s
    exact ⟨rfl, rfl, rfl, rfl, fun _ => rfl⟩
  · exact .refl s

theorem State.countLostInstall_mem (s : State) (pa : Nat) : (s.countLostInstall pa).mem = s.mem := by
  unfold State.countLostInstall; split
  · refine State.foldl_mem (fun s c => ?_) _ s
    rfl
  · rfl

theorem State.ungate_frame (s : State) (t : Nat) : HomeFrame s (s.ungate t) := by
  unfold State.ungate; split
  · exact ⟨rfl, rfl, rfl, rfl, fun _ => rfl⟩
  · exact .refl s

theorem State.ungate_mem (s : State) (t : Nat) : (s.ungate t).mem = s.mem := by
  unfold State.ungate; split <;> rfl

theorem State.fireWatches_frame (s : State) (pa : Nat) : HomeFrame s (s.fireWatches pa) :=
  HomeFrame.trans (t := { s.ungateAt pa with watches := s.watches.filter (fun w => w.pa / 8 ≠ pa / 8) })
    ⟨rfl, rfl, rfl, rfl, fun _ => rfl⟩
    (HomeFrame.foldl (fun s (w : Watch) =>
      HomeFrame.trans (t := s.modHart ⟨w.tile, w.move⟩ (fun h => { h with slots := SMap.set .disarmed h.slots w.slot .fired }))
        ⟨rfl, rfl, rfl, rfl, fun _ => rfl⟩ (State.ungate_frame _ _)) _ _)

theorem State.fireWatches_mem (s : State) (pa : Nat) : (s.fireWatches pa).mem = s.mem := by
  refine (State.foldl_mem (fun s (w : Watch) => ?_) _ _).trans (rfl : (s.ungateAt pa).mem = s.mem)
  exact State.ungate_mem _ w.tile

/-- Where no request is held a home has nothing to serve. -/
theorem State.homeScan_none {s : State} (h : s.held = []) (pa : Nat) : s.homeScan pa = s := by
  unfold State.homeScan; rw [h]; rfl

/-! ## Accesses at a home -/

/-- A write that reaches memory writes its bytes and leaves the rest of memory, where no line holds an upset and no request is held. -/
theorem State.homeWrite_quiet {s : State} (hq : Quiet s) (hh : s.held = []) (c : Option Nat) {pa : Nat} (n v : Nat)
    (ht : s.takesWrite pa = true) :
    HomeFrame s (s.homeWrite c pa n v none) ∧ ∀ x, (s.homeWrite c pa n v none).byte x = (s.rawWrite pa n v).byte x := by
  simp only [State.takesWrite, Bool.and_eq_true, decide_eq_true_eq] at ht
  obtain ⟨hf, h2⟩ := ht
  unfold State.homeWrite
  split
  · rw [State.touch_quiet hq]
    have hl := (s.countLostInstall_frame pa).trans (State.rawWrite_frame _ pa n v)
    have hw := hl.trans (State.fireWatches_frame _ pa)
    dsimp only
    rw [State.homeScan_none (hw.held.trans hh)]
    exact ⟨hw, fun x => (State.byte_congr (State.fireWatches_mem _ pa) x).trans
      (State.byte_rawWrite_congr (s.countLostInstall_mem pa) pa n v x)⟩
  · exact absurd ‹_› h2
  · rw [if_pos hf, State.touch_quiet hq]
    exact ⟨s.rawWrite_frame pa n v, fun _ => rfl⟩

theorem State.stage_frame (s : State) (pa : Nat) : HomeFrame s (s.stage pa) := by
  unfold State.stage; dsimp only; split
  · exact .refl s
  · exact ⟨rfl, rfl, rfl, rfl, fun _ => rfl⟩

theorem State.stage_mem (s : State) (pa : Nat) : (s.stage pa).mem = s.mem := by
  unfold State.stage; dsimp only; split <;> rfl

/-- A read that reaches memory gives its bytes and changes none, where no line holds an upset. -/
theorem State.homeRead_quiet {s : State} (hq : Quiet s) (c : Option Nat) {pa : Nat} (n : Nat) (hg : s.givesRead pa = true) :
    HomeFrame s (s.homeRead c pa n).1 ∧ (s.homeRead c pa n).1.mem = s.mem ∧ (s.homeRead c pa n).2 = s.rawRead pa n := by
  simp only [State.givesRead, Bool.and_eq_true, Bool.not_eq_true', Bool.and_eq_false_iff, decide_eq_false_iff_not] at hg
  obtain ⟨hf, hd⟩ := hg
  unfold State.homeRead
  split
  · rw [State.touch_quiet hq]; exact ⟨.refl s, rfl, rfl⟩
  · rw [if_pos (by simpa [hf, ‹tierOf pa = some 2›] using hd)]
    exact ⟨s.stage_frame pa, s.stage_mem pa, rfl⟩
  · rw [if_pos hf, State.touch_quiet hq]; exact ⟨.refl s, rfl, rfl⟩

end Sys2Proof.Machine
end

section
/-! The host's windows and the registers of BAR 0 (R376, R377). -/

namespace Sys2Proof.Machine

open Sys2Proof.Claims

/-! ## A host access goes to memory word by word -/

/-- One part of a host write: what `State.hostWrite` does for each. -/
def State.hostWritePart (pa : Nat) (l : List Byte) (s : State) (p : Nat × Nat) : State :=
  if s.takesWrite p.1 then s.homeWrite none p.1 p.2 (bytesValue ((l.drop (p.1 - pa)).take p.2)) none else s

/-- One part of a host read: what `State.hostFetch` does for each. -/
def hostFetchPart (acc : State × List Byte) (p : Nat × Nat) : State × List Byte :=
  if acc.1.givesRead p.1 then ((acc.1.homeRead none p.1 p.2).1, acc.2 ++ bytesOf (acc.1.homeRead none p.1 p.2).2 p.2)
  else (acc.1, acc.2 ++ bytesOf 0 p.2)

/-- Every part of an access lies within it. -/
theorem mem_wordParts {k a n : Nat} {p : Nat × Nat} (h : p ∈ wordParts k a n) : a ≤ p.1 ∧ p.1 < a + n := by
  induction k generalizing a n with
  | zero => simp [wordParts] at h
  | succ k ih =>
    rw [wordParts] at h
    split at h
    · simp at h
    · rcases List.mem_cons.1 h with rfl | h
      · dsimp only; omega
      · have := ih h; omega

theorem all_wordParts {f : Nat → Bool} {k a n : Nat} (h : ∀ i, i < n → f (a + i) = true) :
    (wordParts k a n).all (fun p => f p.1) = true := by
  refine List.all_eq_true.2 fun p hp => ?_
  obtain ⟨h1, h2⟩ := mem_wordParts hp
  have := h (p.1 - a) (by omega)
  rwa [show a + (p.1 - a) = p.1 by omega] at this

theorem State.hostWrite_eq_foldl {s : State} {pa : Nat} {l : List Byte} (h : ∀ i, i < l.length → s.takesWrite (pa + i) = true) :
    s.hostWrite pa l = (wordParts (l.length + 1) pa l.length).foldl (State.hostWritePart pa l) s := by
  have := all_wordParts (k := l.length + 1) h
  unfold State.hostWrite; dsimp only
  rw [if_pos this]; rfl

theorem State.hostFetch_eq_foldl {s : State} {pa n : Nat} (h : ∀ i, i < n → s.givesRead (pa + i) = true) :
    s.hostFetch pa n = (wordParts (n + 1) pa n).foldl hostFetchPart (s, []) := by
  have := all_wordParts (k := n + 1) h
  unfold State.hostFetch; dsimp only
  rw [if_pos this]; rfl

/-- The parts from an address to the end of an access write the bytes from there on. -/
theorem State.byte_foldl_hostWritePart {s : State} {pa a n k : Nat} {l : List Byte} (hk : n < k) (ha : pa ≤ a)
    (he : a + n = pa + l.length) (hq : Quiet s) (hh : s.held = []) (ht : ∀ i, i < n → s.takesWrite (a + i) = true) (x : Nat) :
    ((wordParts k a n).foldl (State.hostWritePart pa l) s).byte x =
      if a ≤ x ∧ x < a + n then nth 0 l (x - pa) else s.byte x := by
  induction k generalizing s a n with
  | zero => omega
  | succ k ih =>
    rw [wordParts]
    by_cases hn : n = 0
    · rw [if_pos hn, if_neg (by omega)]; rfl
    · rw [if_neg hn]
      dsimp only
      generalize hm : min n (8 - a % 8) = m
      have hm0 : 0 < m := by omega
      have hlen : ((l.drop (a - pa)).take m).length = m := by rw [List.length_take, List.length_drop]; omega
      have ht0 : s.takesWrite a = true := ht 0 (by omega)
      have hpart : State.hostWritePart pa l s (a, m) = s.homeWrite none a m (bytesValue ((l.drop (a - pa)).take m)) none :=
        if_pos ht0
      obtain ⟨hfr, hby⟩ := State.homeWrite_quiet hq hh none m (bytesValue ((l.drop (a - pa)).take m)) ht0
      have hval := s.byte_rawWrite_bytesValue a ((l.drop (a - pa)).take m) x
      rw [hlen] at hval
      rw [List.foldl_cons, hpart, ih (by omega) (by omega) (by omega) (hfr.quiet hq) (hfr.held.trans hh)
        (fun i hi => by rw [hfr.takesWrite, Nat.add_assoc]; exact ht _ (by omega)), hby, hval]
      by_cases h1 : a ≤ x ∧ x < a + m
      · rw [if_neg (by omega), if_pos h1, if_pos (by omega)]
        unfold nth
        rw [List.getElem?_take_of_lt (by omega), List.getElem?_drop, show a - pa + (x - a) = x - pa by omega]
      · rw [if_neg h1]
        by_cases h2 : a + m ≤ x ∧ x < a + n
        · rw [if_pos (by omega), if_pos (by omega)]
        · rw [if_neg (by omega), if_neg (by omega)]

/-- What the host writes to memory reads back, and the rest of memory stays. -/
theorem State.byte_hostWrite {s : State} {pa : Nat} {l : List Byte} (hq : Quiet s) (hh : s.held = [])
    (ht : ∀ i, i < l.length → s.takesWrite (pa + i) = true) (x : Nat) :
    (s.hostWrite pa l).byte x = if pa ≤ x ∧ x < pa + l.length then nth 0 l (x - pa) else s.byte x := by
  rw [State.hostWrite_eq_foldl ht]
  exact State.byte_foldl_hostWritePart (Nat.lt_succ_self _) (Nat.le_refl _) rfl hq hh ht x

theorem foldl_hostFetchPart {acc : State × List Byte} {a n k : Nat} (hk : n < k) (hq : Quiet acc.1)
    (hg : ∀ i, i < n → acc.1.givesRead (a + i) = true) :
    ((wordParts k a n).foldl hostFetchPart acc).2 = acc.2 ++ (List.range n).map (fun i => acc.1.byte (a + i)) := by
  induction k generalizing acc a n with
  | zero => omega
  | succ k ih =>
    rw [wordParts]
    by_cases hn : n = 0
    · rw [if_pos hn, hn]; simp
    · rw [if_neg hn]
      dsimp only
      generalize hm : min n (8 - a % 8) = m
      obtain ⟨r, rfl⟩ : ∃ r, n = m + r := ⟨n - m, by omega⟩
      have hg0 : acc.1.givesRead a = true := hg 0 (by omega)
      obtain ⟨hfr, hmem, hval⟩ := State.homeRead_quiet hq none m hg0
      rw [List.foldl_cons, hostFetchPart, if_pos hg0, Nat.add_sub_cancel_left,
        ih (by omega) (hfr.quiet hq) (fun i hi => by rw [hfr.givesRead, Nat.add_assoc]; exact hg _ (by omega)),
        hval, State.bytesOf_rawRead, List.range_add, List.map_append, List.map_map, List.append_assoc]
      congr 2
      exact List.map_congr_left fun i _ => by rw [State.byte_congr hmem, Nat.add_assoc]; rfl

/-- What the host reads of memory are its bytes. -/
theorem State.hostFetch_bytes {s : State} {pa n : Nat} (hq : Quiet s) (hg : ∀ i, i < n → s.givesRead (pa + i) = true) :
    (s.hostFetch pa n).2 = (List.range n).map (fun i => s.byte (pa + i)) := by
  rw [State.hostFetch_eq_foldl hg, foldl_hostFetchPart (Nat.lt_succ_self _) hq hg]; rfl

/-- A host write through BAR 2 or BAR 4. -/
theorem exec_hostBarAccess_write {s : State} {a : BarAccess} {pa : Nat} {l : List Byte} (hp : s.dev.power ≠ .recovery)
    (hb : a.bar ≠ .bar0) (hw : s.windowAddress a = some pa) (hd : a.data = some l) :
    exec (.hostBarAccess a) s = .next (s.hostWrite pa (l.take a.len)) := by
  rw [exec_hostBarAccess]; unfold execHostBarAccess
  cases h : s.dev.power <;> simp_all

/-- A host read through BAR 2 or BAR 4. -/
theorem exec_hostBarAccess_read {s : State} {a : BarAccess} {pa : Nat} (hp : s.dev.power ≠ .recovery)
    (hb : a.bar ≠ .bar0) (hw : s.windowAddress a = some pa) (hd : a.data = none) :
    exec (.hostBarAccess a) s =
      .next ((s.hostFetch pa a.len).1.modDev (fun d => { d with barData := (s.hostFetch pa a.len).2 })) := by
  rw [exec_hostBarAccess]; unfold execHostBarAccess
  cases h : s.dev.power <;> simp_all

/-! ## Registers of BAR 0 -/

/-- An aligned access of a register is one part. -/
theorem wordParts_register {off : Nat} (h : off % 8 = 0) : wordParts 9 off 8 = [(off, 8)] := by
  simp [wordParts, h]

theorem State.fetchBar0_register {s : State} {off : Nat} {v : Word} (hp : s.dev.power ≠ .recovery)
    (hr : s.readRegister off = some v) (h8 : off % 8 = 0) : s.fetchBar0 off 8 = (s, bytesOf v.toNat 8) := by
  have h1 : off / 8 * 8 = off := by omega
  have hf : s.fetchRegister off = (s, v) := by simp [State.fetchRegister, hp, hr]
  have hl := List.take_of_length_le (Nat.le_of_eq (bytesOf_length v.toNat 8))
  simp [State.fetchBar0, h8, h1, hf, hl]

theorem State.writeBar0_register {s : State} {off : Nat} {v : Word} (w : Word) (hr : s.readRegister off = some v)
    (h8 : off % 8 = 0) : s.writeBar0 off (bytesOf w.toNat 8) = s.writeRegister off w := by
  have h1 : off / 8 * 8 = off := by omega
  have hl := List.take_of_length_le (Nat.le_of_eq (bytesOf_length w.toNat 8))
  have hd := List.drop_of_length_le (Nat.le_of_eq (bytesOf_length v.toNat 8))
  simp [State.writeBar0, wordParts_register h8, h1, hr, hl, hd, ofNat_bytesValue_bytesOf]

theorem exec_hostBarAccess_readRegister {s : State} {off : Nat} {v : Word} (hp : s.dev.power ≠ .recovery)
    (hr : s.readRegister off = some v) (h8 : off % 8 = 0) (he : off + 8 ≤ 2 ^ 20) :
    exec (.hostBarAccess { bar := .bar0, off := off, len := 8, data := none }) s =
      .next (s.modDev (fun d => { d with barData := bytesOf v.toNat 8 })) := by
  rw [exec_hostBarAccess]; unfold execHostBarAccess
  dsimp only
  rw [if_pos rfl, if_neg (by omega), State.fetchBar0_register hp hr h8]

theorem exec_hostBarAccess_writeRegister {s : State} {off : Nat} {v : Word} (w : Word) (hp : s.dev.power ≠ .recovery)
    (hr : s.readRegister off = some v) (h8 : off % 8 = 0) (he : off + 8 ≤ 2 ^ 20) :
    exec (.hostBarAccess { bar := .bar0, off := off, len := 8, data := some (bytesOf w.toNat 8) }) s =
      .next (s.writeRegister off w) := by
  rw [exec_hostBarAccess]; unfold execHostBarAccess
  dsimp only
  rw [if_pos rfl, if_neg (by omega), if_neg hp, List.take_of_length_le (Nat.le_of_eq (bytesOf_length _ 8)),
    State.writeBar0_register w hr h8]

theorem ringOffset_ring {ring off : Nat} (hn : ring < 16) (ho : off < 0x40) :
    ringOffset (0x1000 + 0x40 * ring + off) = some (ring, off) := by
  have h1 : (0x1000 + 0x40 * ring + off - 0x1000) / 0x40 = ring := by omega
  have h2 : (0x1000 + 0x40 * ring + off - 0x1000) % 0x40 = off := by omega
  rw [ringOffset, if_pos (by simp; omega), h1, h2]

/-- A register of a ring is read in its ring. -/
theorem State.readRegister_ring (s : State) {ring off : Nat} (hn : ring < 16) (ho : off < 0x40) :
    s.readRegister (0x1000 + 0x40 * ring + off) = (s.ring ring).read off := by
  unfold State.readRegister
  rw [if_neg (by omega), if_neg (by omega), ringOffset_ring hn ho]

/-- A register of a ring is written in its ring. -/
theorem State.writeRegister_ring (s : State) {ring off : Nat} (w : Word) (hn : ring < 16) (ho : off < 0x40) :
    s.writeRegister (0x1000 + 0x40 * ring + off) w = s.setRing ring ((s.ring ring).write off w) := by
  unfold State.writeRegister
  rw [if_neg (by omega), ringOffset_ring hn ho]

/-- A register of a ring after a write to it. -/
theorem State.readRegister_writeRegister_ring (s : State) {ring off : Nat} (w : Word) (hn : ring < 16) (ho : off < 0x40) :
    (s.writeRegister (0x1000 + 0x40 * ring + off) w).readRegister (0x1000 + 0x40 * ring + off) =
      ((s.ring ring).write off w).read off := by
  rw [State.writeRegister_ring s w hn ho, State.readRegister_ring _ hn ho, State.ring_setRing_self]

/-- The tail and the vector of a ring keep what is written to them. -/
theorem Ring.read_write_plain (r : Ring) {off : Nat} (w : Word) (h : off = 0x10 ∨ off = 0x28) : (r.write off w).read off = some w := by
  rcases h with rfl | rfl <;> rfl

/-- The head of a ring is read-only. -/
theorem Ring.write_rqhead (r : Ring) (w : Word) : r.write 0x18 w = r := rfl

/-- The base, the size and the completion base of a ring keep what is written to them where no request is left. -/
theorem Ring.read_write_idle {r : Ring} {off : Nat} (w : Word) (h : off = 0x00 ∨ off = 0x08 ∨ off = 0x20) (hi : r.rqhead = r.rqtail) :
    (r.write off w).read off = some w := by
  rcases h with rfl | rfl | rfl <;> simp [Ring.write, Ring.read, hi]

/-- They keep their values while requests are left. -/
theorem Ring.write_busy {r : Ring} {off : Nat} (w : Word) (h : off = 0x00 ∨ off = 0x08 ∨ off = 0x20) (hi : r.rqhead ≠ r.rqtail) :
    r.write off w = r := by
  rcases h with rfl | rfl | rfl <;> simp [Ring.write, hi]

theorem exec_deviceRegisterWrite_on {s : State} (off : Nat) (w : Word) (hp : s.dev.power ≠ .recovery) :
    exec (.deviceRegisterWrite off w) s = .next (s.writeRegister off w) := by
  rw [exec_deviceRegisterWrite]; unfold execDeviceRegisterWrite; rw [if_neg hp]

theorem exec_rqtailDoorbell_on {s : State} {ring : Nat} (tail : Nat) (hp : s.dev.power ≠ .recovery) (hn : ring < 16) :
    exec (.rqtailDoorbell ring tail) s = .next (s.setRing ring { s.ring ring with rqtail := BitVec.ofNat 64 tail }) := by
  rw [exec_rqtailDoorbell]; unfold execRqtailDoorbell
  rw [if_neg (by simp [hp, hn])]; rfl

end Sys2Proof.Machine
end

section
/-! Boot, reset and power (R84, R346, R352, R384, R385, R389): what the training of links changes of the device, and what a restart keeps. -/

namespace Sys2Proof.Machine

open Sys2Proof.Claims

@[simp] theorem State.dev_modDev (s : State) (f : Device → Device) : (s.modDev f).dev = f s.dev := rfl

/-! ## The error log -/

/-- An event is in the log once it is logged: only the oldest entry leaves. -/
theorem State.mem_log_logEvent (s : State) (k : LogCode) (c : Option Nat) (p : Nat) :
    { clk := s.clk, code := k, ctx := c, place := p } ∈ (s.logEvent k c p).dev.log := by
  simp only [State.logEvent, State.dev_modDev]
  split
  · rename_i hfull
    cases h : s.dev.log with
    | nil => simp [h] at hfull
    | cons e l => simp
  · simp

/-- The first event to be logged is the log. -/
theorem State.log_logEvent_nil {s : State} (h : s.dev.log = []) (k : LogCode) (c : Option Nat) (p : Nat) :
    (s.logEvent k c p).dev.log = [{ clk := s.clk, code := k, ctx := c, place := p }] := by
  simp [State.logEvent, State.modDev, h]

/-! ## What the fabric changes of the device -/

/-- A device that has changed in its error log, its count of dropped packets and its Jecen route table alone. -/
def Device.FabricChanged (d e : Device) : Prop :=
  ∃ p l o m c, e = { d with packetsDropped := p, log := l, logOverflows := o, msix := m, chips := c }

theorem Device.FabricChanged.refl (d : Device) : d.FabricChanged d := ⟨_, _, _, _, _, rfl⟩

theorem Device.FabricChanged.trans {d e f : Device} (h : d.FabricChanged e) (k : e.FabricChanged f) : d.FabricChanged f := by
  obtain ⟨_, _, _, _, _, rfl⟩ := h
  obtain ⟨p, l, o, m, c, rfl⟩ := k
  exact ⟨p, l, o, m, c, rfl⟩

theorem Device.FabricChanged.foldl {α : Type} {f : State → α → State} (hf : ∀ (s : State) a, s.dev.FabricChanged (f s a).dev) (l : List α)
    (s : State) : s.dev.FabricChanged (l.foldl f s).dev := by
  induction l generalizing s with
  | nil => exact .refl _
  | cons a l ih => exact (hf s a).trans (ih _)

theorem State.logEvent_fabric (s : State) (k : LogCode) (c : Option Nat) (p : Nat) :
    s.dev.FabricChanged (s.logEvent k c p).dev := ⟨_, _, _, _, _, rfl⟩

theorem State.countDropped_fabric (s : State) (node : Nat) : s.dev.FabricChanged (s.countDropped node).dev := ⟨_, _, _, _, _, rfl⟩

theorem State.dropAt_fabric (s : State) (l : Link) : s.dev.FabricChanged (s.dropAt l).dev := ⟨_, _, _, _, _, rfl⟩

theorem State.loseSent_dev (s : State) (w : Sent) : (s.loseSent w).dev = s.dev := by
  obtain ⟨a, h⟩ := s.loseSent_frame w
  rw [h]

theorem State.depart_fabric (s : State) (serial : Word) (cls tile chan : Nat) (w : Sent) :
    s.dev.FabricChanged (s.depart serial cls tile chan w).dev := by
  unfold State.depart; dsimp only
  split
  · exact .refl _
  · split
    · exact .refl _
    · rw [State.loseSent_dev]
      split
      · exact .refl _
      · exact s.countDropped_fabric tile

theorem State.redepart_fabric (s : State) (d : Departure) : s.dev.FabricChanged (s.redepart d).dev := s.depart_fabric _ _ _ _ _

theorem State.caught_fabric (s : State) (q : Nat) (d : Departure) : s.dev.FabricChanged (s.caught q d).dev := by
  unfold State.caught
  split
  · exact s.redepart_fabric d
  · rw [State.loseSent_dev]; exact s.dropAt_fabric _

theorem State.sendWaiting_fabric (s : State) : s.dev.FabricChanged s.sendWaiting.dev :=
  Device.FabricChanged.foldl State.redepart_fabric _ { s with sent := s.sent.filter (fun d => d.port.isSome) }

theorem State.failPort_fabric (s : State) (q : Nat) : s.dev.FabricChanged (s.failPort q).dev := by
  unfold State.failPort; dsimp only
  refine Device.FabricChanged.trans ?_ (State.sendWaiting_fabric _)
  refine Device.FabricChanged.trans ?_ (Device.FabricChanged.foldl (fun s d => s.caught_fabric q d) _ _)
  exact ⟨_, _, _, _, _, rfl⟩

theorem State.losePacket_dev (s : State) (p : Packet) : (s.losePacket p).dev = s.dev := by
  unfold State.losePacket; dsimp only
  split
  · split <;> rfl
  · split
    · rfl
    · cases p.kind with
      | other => rfl
      | read => dsimp only; split <;> rfl
      | write => dsimp only; split <;> [rfl; split <;> rfl]

theorem State.replaceElevator_fabric (s : State) (e : Nat) : s.dev.FabricChanged (s.replaceElevator e).dev := by
  unfold State.replaceElevator
  split
  · exact .refl _
  · refine Device.FabricChanged.foldl (fun s t => ?_) _ s
    exact .refl _

theorem State.failLink_fabric (s : State) (l : Link) : s.dev.FabricChanged (s.failLink l).dev := by
  have hdrop : ∀ (s : State) (p : Packet),
      s.dev.FabricChanged ((if protectedPacket p then s else s.dropAt l).losePacket p).dev := by
    intro s p
    rw [State.losePacket_dev]
    split
    · exact .refl _
    · exact s.dropAt_fabric l
  unfold State.failLink; dsimp only
  refine Device.FabricChanged.trans ?_ (State.logEvent_fabric _ _ _ _)
  have hin := Device.FabricChanged.foldl hdrop (s.link l).inside
    (s.setLink l { s.link l with st := .failed, inside := [], flitFails := [] })
  cases l.kind with
  | jecen => exact hin.trans (State.failPort_fabric _ _)
  | elevator => exact hin.trans (State.replaceElevator_fabric _ _)
  | mesh => exact hin
  | stem => exact hin
  | chiplet => exact hin

theorem State.trainEnd_fabric (s : State) (l : Link) (lanes : Nat) : s.dev.FabricChanged (s.trainEnd l lanes).dev := by
  unfold State.trainEnd; dsimp only
  split
  · exact .refl _
  · split
    · split
      · exact State.failLink_fabric (s.setLink l { s.link l with trainFails := (s.link l).trainFails + 1 }) l
      · exact .refl _
    · exact .refl _

theorem State.trainLink_fabric (s : State) (found : List (Link × List Nat)) (l : Link) :
    s.dev.FabricChanged (s.trainLink found l).dev := by
  unfold State.trainLink; dsimp only
  split
  · exact .refl _
  · exact Device.FabricChanged.foldl (fun s n => s.trainEnd_fabric l n) _ (s.enableLink l)

/-! ## Links that train with every lane -/

theorem State.link_setLink (s : State) (l m : Link) (x : LinkRec) :
    (s.setLink l x).link m = if linkNumber m = linkNumber l then x else s.link m := SMap.get_put _ _ _ _ _

/-- A link that is down and of which boot finds nothing else comes up. -/
theorem State.trainLink_nil (s : State) (l : Link) :
    s.trainLink [] l = if (s.link l).st = .down then
      s.setLink l { s.link l with st := .up, trainFails := 0, flitFails := [], lanes := 2 } else s := by
  unfold State.trainLink
  by_cases h : (s.link l).st = .down
  · rw [if_neg (not_not.2 h), if_pos h]
    simp [State.enableLink, State.modLink, State.trainEnd, State.setLink, State.link]
  · simp [h]

/-- Links that train at a boot without findings: what else the device holds stays. -/
theorem State.foldl_trainLink_nil (ls : List Link) (s : State) :
    ∃ x, ls.foldl (fun s l => s.trainLink [] l) s = { s with links := x } := by
  induction ls generalizing s with
  | nil => exact ⟨s.links, rfl⟩
  | cons l ls ih =>
    have hl : ∃ x, s.trainLink [] l = { s with links := x } := by
      rw [State.trainLink_nil]; split <;> exact ⟨_, rfl⟩
    obtain ⟨x, hx⟩ := hl
    rw [List.foldl_cons, hx]
    exact ih { s with links := x }

/-- A link that is up stays so while others train, and one that trains comes up. -/
theorem State.trainLink_nil_st (s : State) (l m : Link) :
    ((s.trainLink [] l).link m).st =
      if linkNumber m = linkNumber l ∧ (s.link m).st = .down then .up else (s.link m).st := by
  rw [State.trainLink_nil]
  by_cases hn : linkNumber m = linkNumber l
  · have hm : s.link m = s.link l := by unfold State.link; rw [hn]
    by_cases hd : (s.link l).st = .down <;> simp [hd, hm, hn, State.link_setLink]
  · by_cases hd : (s.link l).st = .down <;> simp [hd, hn, State.link_setLink]

theorem State.foldl_trainLink_nil_up {m : Link} {s : State} (ls : List Link) (h : (s.link m).st = .up) :
    ((ls.foldl (fun s l => s.trainLink [] l) s).link m).st = .up := by
  induction ls generalizing s with
  | nil => exact h
  | cons l ls ih => exact ih (by rw [State.trainLink_nil_st, h]; simp)

/-- Every link that is down and trains at a boot without findings comes up. -/
theorem State.foldl_trainLink_nil_down {m : Link} {s : State} {ls : List Link} (hm : m ∈ ls) (h : (s.link m).st = .down) :
    ((ls.foldl (fun s l => s.trainLink [] l) s).link m).st = .up := by
  induction ls generalizing s with
  | nil => cases hm
  | cons l ls ih =>
    rw [List.foldl_cons]
    by_cases hn : linkNumber m = linkNumber l
    · exact State.foldl_trainLink_nil_up ls (by rw [State.trainLink_nil_st, if_pos ⟨hn, h⟩])
    · rcases List.mem_cons.1 hm with rfl | hm
      · exact absurd rfl hn
      · exact ih hm (by rw [State.trainLink_nil_st, if_neg (fun k => hn k.1), h])

/-! ## Boot -/

/-- The device as the running image finds it: the inventory and the settings in force. -/
def State.started (s : State) (b : BootFindings) (x : ImageSlot) : State :=
  s.modDev (fun d =>
    let set := d.settingsFrom b.badRecords
    { d.inventory b with firmware := x.version, image := sha3 x.image, settings := set, cap := set.powerCap,
                         power := if set.powerCap < (if d.module then 2750 else 2400) then .capped else .active })

/-- Boot logs the records that do not pass, then the installs that a loss of power cut off. -/
def State.bootLogged (s : State) (b : BootFindings) (x : ImageSlot) : State :=
  let u := (s.dev.store.filter (fun p => !s.dev.recordPasses b.badRecords p.1 p.2)).foldl
    (fun (s : State) p => s.logEvent .recordIgnored none p.1) (s.started b x)
  u.dev.interrupted.foldl (fun (s : State) p => s.logEvent (.install 4) (some p.1) p.2) u

/-- The links that boot enables. -/
def State.bootLinks (s : State) : List Link := allLinks.filter (fun l => l.kind ≠ .jecen || s.dev.peers.any (fun p => p.1 = l.idx))

/-- Boot has trained the links. -/
def State.bootTrained (s : State) (b : BootFindings) (x : ImageSlot) : State :=
  (s.bootLogged b x).bootLinks.foldl (fun (s : State) l => s.trainLink b.training l) (s.bootLogged b x)

/-- The state after a boot whose image runs. -/
def State.booted (s : State) (b : BootFindings) (x : ImageSlot) : State :=
  (s.bootTrained b x).modDev (fun d => { d with ready := true, interrupted := [], peers := (s.bootTrained b x).trainedPeers })

theorem exec_boot_ready {s : State} (b : BootFindings) (h : s.dev.ready = true) : exec (.boot b) s = .next s := by
  rw [exec_boot, execBoot, if_pos h]

theorem exec_boot_image {s : State} {b : BootFindings} {x : ImageSlot} (h : s.dev.ready = false) (hx : bootImage b = some x) :
    exec (.boot b) s = .next (s.booted b x) := by
  rw [exec_boot, execBoot, if_neg (by simp [h]), hx]; rfl

theorem exec_boot_recovery {s : State} {b : BootFindings} (h : s.dev.ready = false) (hx : bootImage b = none) :
    exec (.boot b) s = .next (s.modDev (fun d => { d with power := .recovery })) := by
  rw [exec_boot, execBoot, if_neg (by simp [h]), hx]

/-- The image that runs is a slot's, its key has the digest of the vendor key and its signature verifies. -/
theorem bootImage_some {b : BootFindings} {x : ImageSlot} (h : bootImage b = some x) :
    x ∈ b.slots ∧ sha3 x.key = sha3 Config.vendorKey ∧ signatureOk x.key (sha3 x.image) x.signature = true := by
  have hp := List.find?_some h
  simp only [imagePasses, Bool.and_eq_true, decide_eq_true_eq] at hp
  exact ⟨List.mem_of_mem_take (List.mem_of_find?_eq_some h), hp.1, hp.2⟩

theorem bootImage_none {b : BootFindings} (h : ∀ x ∈ b.slots, imagePasses x = false) : bootImage b = none :=
  List.find?_eq_none.2 fun x hx => by simp [h x (List.mem_of_mem_take hx)]

/-- Events that are logged one after another change the device's log alone. -/
theorem State.bootLogged_fabric (s : State) (b : BootFindings) (x : ImageSlot) :
    (s.started b x).dev.FabricChanged (s.bootLogged b x).dev :=
  (Device.FabricChanged.foldl (fun s (p : Nat × Stored) => s.logEvent_fabric .recordIgnored none p.1) _ _).trans
    (Device.FabricChanged.foldl (fun s (p : Nat × Nat) => s.logEvent_fabric (.install 4) (some p.1) p.2) _ _)

theorem State.bootTrained_fabric (s : State) (b : BootFindings) (x : ImageSlot) :
    (s.started b x).dev.FabricChanged (s.bootTrained b x).dev :=
  (s.bootLogged_fabric b x).trans (Device.FabricChanged.foldl (fun s l => s.trainLink_fabric b.training l) _ _)

/-- What boot leaves in the device: the serial number and the parts of the inventory, what runs, and the peers with which a port has
trained. -/
theorem State.booted_parts (s : State) (b : BootFindings) (x : ImageSlot) :
    let t := s.booted b x
    let found := s.dev.inventory b
    t.dev.ready = true ∧ t.dev.serial = b.serial ∧ t.dev.firmware = x.version ∧ t.dev.image = sha3 x.image ∧ t.dev.interrupted = [] ∧
      t.dev.optics = found.optics ∧ t.dev.channels = found.channels ∧ t.dev.flashStacks = found.flashStacks ∧
      t.dev.peers = found.peers.filter (fun p => (t.link ⟨.jecen, p.1⟩).st.carries) := by
  obtain ⟨_, _, _, _, _, h⟩ := s.bootTrained_fabric b x
  dsimp only [State.booted, State.dev_modDev, State.link_modDev, State.trainedPeers]
  rw [h]
  exact ⟨rfl, rfl, rfl, rfl, rfl, rfl, rfl, rfl, rfl⟩

/-- The inventory names no part that boot did not find, and none without a place on a chiplet (R22, R384). -/
theorem Device.inventory_found (d : Device) (b : BootFindings) :
    (∀ p ∈ (d.inventory b).peers, p ∈ b.peers) ∧ (∀ i ∈ (d.inventory b).optics, i ∈ b.optics ∨ i ∈ b.peers.map (·.1)) ∧
      (∀ i ∈ (d.inventory b).channels, i ∈ b.channels ∧ i < 128) ∧
      (∀ i ∈ (d.inventory b).flashStacks, i ∈ b.flashStacks ∧ i < 8) := by
  have hplace : ∀ k n i : Nat, 0 < k → (if i / k < 4 then some (i / k) else none : Option Nat).isSome = true → n = 4 * k → i < n := by
    intro k n i hk h hn
    split at h
    · rw [hn]; exact (Nat.div_lt_iff_lt_mul hk).1 ‹_›
    · cases h
  refine ⟨fun p hp => List.mem_of_mem_filter hp, fun i hi => ?_, fun i hi => ?_, fun i hi => ?_⟩
  · have := List.mem_of_mem_filter hi
    rwa [List.mem_eraseDups, List.mem_append] at this
  · obtain ⟨h1, h2⟩ := List.mem_filter.1 hi
    rw [Bool.and_eq_true, Interface.node, Option.isSome_map] at h2
    exact ⟨h1, hplace 32 128 i (by decide) h2.1 rfl⟩
  · obtain ⟨h1, h2⟩ := List.mem_filter.1 hi
    rw [Bool.and_eq_true, Interface.node, Option.isSome_map] at h2
    exact ⟨h1, hplace 2 8 i (by decide) h2.1 rfl⟩

/-- Logging touches neither memory nor links. -/
theorem State.foldl_logEvent_eq {α : Type} (l : List α) (k : α → LogCode) (c : α → Option Nat) (p : α → Nat) (s : State) :
    ∃ d, l.foldl (fun s a => s.logEvent (k a) (c a) (p a)) s = { s with dev := d } := by
  induction l generalizing s with
  | nil => exact ⟨s.dev, rfl⟩
  | cons a l ih => exact ih (s.logEvent (k a) (c a) (p a))

theorem State.bootLogged_eq (s : State) (b : BootFindings) (x : ImageSlot) : ∃ d, s.bootLogged b x = { s with dev := d } := by
  unfold State.bootLogged; dsimp only
  obtain ⟨d, hd⟩ := State.foldl_logEvent_eq (s.dev.store.filter (fun p => !s.dev.recordPasses b.badRecords p.1 p.2))
    (fun _ => .recordIgnored) (fun _ => none) (·.1) (s.started b x)
  rw [hd]
  exact State.foldl_logEvent_eq _ (fun _ => .install 4) (fun (p : Nat × Nat) => some p.1) (·.2) { s with dev := d }

/-- A boot without findings about trainings leaves memory, and every link on chip that was down comes up. -/
theorem State.booted_untroubled {s : State} {b : BootFindings} (x : ImageSlot) (h : b.training = []) :
    (s.booted b x).mem = s.mem ∧
      ∀ l ∈ allLinks, l.kind ≠ .jecen → (s.link l).st = .down → ((s.booted b x).link l).st = .up := by
  obtain ⟨d, hd⟩ := s.bootLogged_eq b x
  have htr : s.bootTrained b x = (s.bootLogged b x).bootLinks.foldl (fun (s : State) l => s.trainLink [] l) (s.bootLogged b x) := by
    unfold State.bootTrained; rw [h]
  constructor
  · obtain ⟨y, hy⟩ := State.foldl_trainLink_nil (s.bootLogged b x).bootLinks (s.bootLogged b x)
    rw [State.booted, State.modDev_mem, htr, hy, hd]
  · intro l hl hk hdown
    have hin : l ∈ (s.bootLogged b x).bootLinks := List.mem_filter.2 ⟨hl, by simp [hk]⟩
    rw [State.booted, State.link_modDev, htr]
    exact State.foldl_trainLink_nil_down hin (by rw [hd]; exact hdown)

/-- A boot without findings and without stored records logs an install that was cut off. -/
theorem State.booted_log {s : State} {b : BootFindings} (x : ImageSlot) {c pa : Nat} (hs : s.dev.store = []) (ht : b.training = [])
    (hl : s.dev.log = []) (hi : s.dev.interrupted = [(c, pa)]) :
    (s.booted b x).dev.log = [{ clk := s.clk, code := .install 4, ctx := some c, place := pa }] := by
  have hlogged : s.bootLogged b x = (s.started b x).logEvent (.install 4) (some c) pa := by
    have hint : (s.started b x).dev.interrupted = [(c, pa)] := hi
    simp only [State.bootLogged, hs, List.filter_nil, List.foldl_nil, hint, List.foldl_cons]
  obtain ⟨y, hy⟩ := State.foldl_trainLink_nil (s.bootLogged b x).bootLinks (s.bootLogged b x)
  rw [State.booted, State.dev_modDev, State.bootTrained, ht, hy, hlogged]
  exact State.log_logEvent_nil (s := s.started b x) hl _ _ _

/-! ## Device reset and loss of power -/

/-- A restart keeps the bytes that its test keeps; every other byte is zero. -/
theorem State.byte_restart (s : State) (keep : Nat → Bool) (pa : Nat) :
    (s.restart keep).byte pa = if keep pa then s.byte pa else 0 := SMap.get_filter_key _ _ _ _

/-- After a restart every context is free, every ring is reset, no word of tier S is full, the device is not ready and every link is
down; the configuration store stays. -/
theorem State.restart_gone (s : State) (keep : Nat → Bool) :
    let t := s.restart keep
    (∀ c, t.ctx c = {}) ∧ (∀ n, t.ring n = {}) ∧ t.full = [] ∧ t.dev.ready = false ∧ (∀ l, (t.link l).st = .down) ∧
      t.dev.store = s.dev.store :=
  ⟨fun _ => rfl, fun _ => rfl, rfl, rfl, fun _ => rfl, rfl⟩

/-- The installs that have been accepted and have not ended, by context and physical target: a loss of power cuts them off. -/
def State.cutInstalls (s : State) : List (Nat × Nat) :=
  s.ctxs.flatMap (fun p => p.2.installs.filterMap (fun i => if i.code.isNone then some (p.1, i.dstPa) else none))

/-- The state after a loss of power. -/
def State.unpowered (s : State) : State :=
  (s.modDev (fun d => { d with interrupted := d.interrupted ++ s.cutInstalls })).restart
    (fun pa => tierOf pa ≠ some 0 && tierOf pa ≠ some 1)

theorem exec_powerLoss_eq (s : State) : exec .powerLoss s = .next s.unpowered := exec_powerLoss s

theorem exec_deviceReset_eq (s : State) : exec .deviceReset s = .next (s.restart (fun pa => tierOf pa ≠ some 0)) :=
  exec_deviceReset s

theorem State.mem_cutInstalls {s : State} {p : Nat × Context} {i : Install} (hp : p ∈ s.ctxs) (hi : i ∈ p.2.installs)
    (hc : i.code = none) : (p.1, i.dstPa) ∈ s.cutInstalls :=
  List.mem_flatMap.2 ⟨p, hp, List.mem_filterMap.2 ⟨i, hi, by simp [hc]⟩⟩

/-! ## Power management and expanders -/

theorem exec_d3hot_recovery {s : State} (h : s.dev.power = .recovery) : exec .d3hotTransition s = .next s := by
  rw [exec_d3hotTransition, execD3hotTransition, if_pos h]

/-- Outside recovery D3hot is entered where every context is free or swapped out. -/
theorem exec_d3hot_out {s : State} (h : s.dev.power ≠ .recovery) (ho : ∀ c ∈ s.ctxs, c.2.st = .free ∨ c.2.st = .swappedOut) :
    exec .d3hotTransition s = .next (s.modDev (fun d => { d with power := .d3hot, pmStatus := 0 })) := by
  have hall : s.ctxs.all (fun p => p.2.st = .free || p.2.st = .swappedOut) = true := by simpa using ho
  rw [exec_d3hotTransition, execD3hotTransition, if_neg h]
  simp only [hall, if_true]

/-- It is refused with status 2 where a context is neither. -/
theorem exec_d3hot_busy {s : State} (h : s.dev.power ≠ .recovery) (ho : ¬ ∀ c ∈ s.ctxs, c.2.st = .free ∨ c.2.st = .swappedOut) :
    exec .d3hotTransition s = .next (s.modDev (fun d => { d with pmStatus := 2 })) := by
  have hall : s.ctxs.all (fun p => p.2.st = .free || p.2.st = .swappedOut) = false := by
    rw [← Bool.not_eq_true]; simpa using ho
  rw [exec_d3hotTransition, execD3hotTransition, if_neg h]
  simp only [hall, Bool.false_eq_true, if_false]

theorem exec_cxlExpanderRemoval_fitted {s : State} {base : Nat} (h : s.dev.expanders.any (fun e => e.1 = base) = true) :
    exec (.cxlExpanderRemoval base) s =
      .next ((s.modDev (fun d => { d with expanders := d.expanders.filter (fun e => e.1 ≠ base) })).logEvent .expanderLost none base) := by
  rw [exec_cxlExpanderRemoval, execCxlExpanderRemoval, if_pos h]

end Sys2Proof.Machine
end

section
/-! The statement about the host's accesses, boot, reset and power, put together from the facts about each. -/

namespace Sys2Proof.Machine

open Sys2Proof.Claims

/-- Settles O59: each clause by the fact about its step. The place of a lost expander and the code of an install that was cut off are log
entry 142. -/
theorem deviceResults : Obligations.DeviceResults := by
  unfold Obligations.DeviceResults
  intro s a pa off ring tail base w v l b
  dsimp only
  refine ⟨fun hp hb hw hd => ⟨exec_hostBarAccess_write hp hb hw hd, fun hq hh hl ht x => ?_⟩,
    fun hp hb hw hd => ⟨exec_hostBarAccess_read hp hb hw hd, State.hostFetch_bytes⟩,
    fun hp hr h8 he => ⟨exec_hostBarAccess_readRegister hp hr h8 he, exec_hostBarAccess_writeRegister w hp hr h8 he⟩,
    rfl, rfl, fun hn => ⟨fun ho => ?_, fun ho => ?_, fun ho => ⟨fun hi => ?_, fun hi => ?_⟩⟩,
    exec_deviceRegisterWrite_on off w, exec_rqtailDoorbell_on tail, exec_boot_ready b, fun x hr hx => ?_,
    fun hr hx => exec_boot_recovery hr (bootImage_none hx), ?_, ?_, exec_d3hot_recovery, exec_d3hot_out, exec_d3hot_busy,
    fun h => ⟨_, exec_cxlExpanderRemoval_fitted h, rfl, State.mem_log_logEvent _ _ _ _⟩⟩
  · rw [State.byte_hostWrite hq hh (hl ▸ ht), hl]
  · rw [State.readRegister_writeRegister_ring s w hn (by omega), Ring.read_write_plain _ w ho]
  · subst ho
    rw [State.readRegister_writeRegister_ring s w hn (by omega), Ring.write_rqhead, State.readRegister_ring s hn (by omega)]
    exact ⟨rfl, rfl⟩
  · rw [State.readRegister_writeRegister_ring s w hn (by omega), Ring.read_write_idle w ho hi]
  · rw [State.readRegister_writeRegister_ring s w hn (by omega), Ring.write_busy w ho hi, State.readRegister_ring s hn (by omega)]
  · obtain ⟨hready, hserial, hfirmware, himage, hcut, hoptics, hchannels, hstacks, hpeers⟩ := s.booted_parts b x
    obtain ⟨hp, ho, hc, hf⟩ := s.dev.inventory_found b
    refine ⟨_, exec_boot_image hr hx, hready, bootImage_some hx, hserial, hfirmware, himage, hcut, fun p h => ?_,
      by rwa [hoptics], by rwa [hchannels], by rwa [hstacks], State.booted_untroubled x,
      fun hs ht hl c y hi => State.booted_log x hs ht hl hi⟩
    rw [hpeers] at h
    obtain ⟨h1, h2⟩ := List.mem_filter.1 h
    exact ⟨hp p h1, h2⟩
  · refine ⟨_, exec_deviceReset_eq s, s.restart_gone _, fun pa h => ?_, fun pa h => ?_⟩
    · rw [State.byte_restart, if_neg (by simp [h])]
    · rw [State.byte_restart, if_pos (by simp [h])]
  · refine ⟨_, exec_powerLoss_eq s, State.restart_gone _ _, fun pa h => ?_, fun pa h1 h2 => ?_, fun p hp i hi hc => ?_⟩
    · rw [State.unpowered, State.byte_restart, if_neg (by rcases h with h | h <;> simp [h])]
    · rw [State.unpowered, State.byte_restart, if_pos (by simp [h1, h2])]; rfl
    · exact List.mem_append_right _ (State.mem_cutInstalls hp hi hc)

end Sys2Proof.Machine
end

section
/-! A step of the acting agent (R18, R20, R51, R129, R226, R377, R378): what its turn runs. -/

namespace Sys2Proof.Machine

open Sys2Proof.Claims

/-- What a turn makes of the device. -/
def Turn.outcome : Turn → Host.Outcome State Fault Refusal
  | .run i s => exec i s
  | .rest s => .next s
  | .stuck f => .fault f

theorem step_eq_outcome_turn (s : State) : step s = s.turn.outcome := by
  unfold step
  cases s.turn <;> rfl

/-- A step in which an agent acts is its turn. -/
theorem step_of_acts {s s0 : State} {a : Agent} (h : Acts s a s0) : s0.cur = a ∧ step s = (agentTurn s0).outcome := by
  rw [step_eq_outcome_turn, State.turn]
  rcases h with ⟨hagenda, hcur, rfl⟩ | ⟨r, hagenda, rfl⟩
  · rw [hagenda]; exact ⟨hcur, rfl⟩
  · rw [hagenda]; exact ⟨rfl, rfl⟩

/-! ## Harts -/

/-- The agent that a hart acts as. -/
def HartId.agent (h : HartId) : Agent := if h.move then .move h.tile else .main h.tile

theorem agentTurn_hart {s : State} {h : HartId} (hcur : s.cur = h.agent) : agentTurn s = hartTurn s h := by
  obtain ⟨t, move⟩ := h
  unfold agentTurn
  cases move <;> rw [hcur] <;> rfl

section
variable {s : State} {h : HartId} (hown : (s.tile h.tile).owner.isSome = true) (hctx : (s.ctx (s.ctxOf h.tile)).st = .running)
include hown hctx

theorem hartTurn_running (hrun : (s.hart h).run = .running) (htrap : (s.hart h).trapReady = false) :
    hartTurn s h = fetchHart s h := by
  simp [hartTurn, Option.isNone_eq_false_iff.2 hown, hctx, hrun, htrap]

theorem hartTurn_waiting {w : Wait} (hrun : (s.hart h).run = .waiting w) : hartTurn s h = waitTurn s h w := by
  simp [hartTurn, Option.isNone_eq_false_iff.2 hown, hctx, hrun]

/-- A pending command-fault trap comes before the next instruction and before what ends a wait that has not begun. -/
theorem hartTurn_trapReady (hrun : (s.hart h).run = .running ∨ ∃ w, (s.hart h).run = .waiting w ∧ w.begun = false)
    (htrap : (s.hart h).trapReady = true) : hartTurn s h = .run .commandFaultTrap s := by
  rcases hrun with hrun | ⟨w, hrun, hbegun⟩
  · simp [hartTurn, Option.isNone_eq_false_iff.2 hown, hctx, hrun, htrap]
  · rw [hartTurn_waiting hown hctx hrun, waitTurn, htrap, hbegun]; rfl

end

theorem fetchHart_inside {s : State} {h : HartId} (hpc : (s.hart h).pc.toNat < Config.imemBytes) :
    fetchHart s h = .run (refine s h (s.fetchWord h) (decodeHart (s.fetchWord h)
      ((s.modHart h (fun x => { x with pc := x.pc + 4 })).fetchWord h))) s := by
  rw [fetchHart, if_neg (Nat.not_le.2 hpc)]

theorem waitTurn_row {s : State} {h : HartId} {w : Wait} {i : Instr} (htrap : (s.hart h).trapReady = false) (hrow : w.row = some i) :
    waitTurn s h w = .run i s := by
  simp [waitTurn, htrap, hrow]

/-! ## Engines -/

/-- The engines of a tile, each with its queue and whether it serves the address stream. -/
def enginesOf (t : Nat) : List (Agent × Nat × Bool) :=
  [(.addr t, 0, true), (.compute t, 0, false), (.copy t, 1, false), (.msg t, 2, false)]

section
variable {s : State} {t q : Nat} {a : Bool} {e : Entry} {i : Instr}

theorem runEntry_decodes (row : Instr → Instr) (hdec : decodeCommand e.w = some i) : runEntry s e row = .run (row i) s := by
  simp [runEntry, hdec]

theorem engineTurn_finished (hfin : (s.queue t q).finished q a = some e) :
    engineTurn s t q a = .run (.commandComplete t (BitVec.ofNat 2 q) e.seq) s := by
  simp [engineTurn, hfin]

theorem engineTurn_head (hfin : (s.queue t q).finished q a = none) (hhead : (s.queue t q).head q a = some e)
    (hdec : decodeCommand e.w = some i) : engineTurn s t q a = .run (if q = 1 then copyRow s t e i else i) s := by
  simp [engineTurn, hfin, hhead, runEntry_decodes _ hdec]

variable {g : Agent} (hg : (g, q, a) ∈ enginesOf t) (hcur : s.cur = g)
include hg hcur

theorem agentTurn_engine : agentTurn s = engineTurn s t q a := by
  simp only [enginesOf, List.mem_cons, Prod.mk.injEq, List.not_mem_nil, or_false] at hg
  unfold agentTurn
  obtain ⟨rfl, rfl, rfl⟩ | ⟨rfl, rfl, rfl⟩ | ⟨rfl, rfl, rfl⟩ | ⟨rfl, rfl, rfl⟩ := hg <;> rw [hcur]

theorem pickedTurn_engine (pick : Pick) : pickedTurn s pick = pickTurn s t q a pick := by
  simp only [enginesOf, List.mem_cons, Prod.mk.injEq, List.not_mem_nil, or_false] at hg
  unfold pickedTurn
  obtain ⟨rfl, rfl, rfl⟩ | ⟨rfl, rfl, rfl⟩ | ⟨rfl, rfl, rfl⟩ | ⟨rfl, rfl, rfl⟩ := hg <;> rw [hcur]

/-- An engine that picks a command runs it; the copy engine, where it goes on with the whole of one, takes that copy's next step. -/
theorem pickedTurn_outcome {pick : Pick} (hwork : (s.queue t q).working q a (some pick) = some e) (hdec : decodeCommand e.w = some i) :
    (pickedTurn s pick).outcome =
      if q = 1 ∧ pick.only = false ∧ pick.word = none then exec (copyRow s t e i) s else exec i { s with pick := some pick } := by
  rw [pickedTurn_engine hg hcur, pickTurn, hwork]
  by_cases hwhole : q = 1 ∧ pick.only = false ∧ pick.word = none
  · simp only [hwhole, runEntry_decodes _ hdec]; rfl
  · simp only [if_neg hwhole, runEntry_decodes _ hdec]
    rw [if_neg (by simpa [and_assoc] using hwhole)]; rfl

end

/-! ## Rings -/

/-- The word at the head of a ring depends on memory and on the ring alone. -/
theorem State.ringWord_congr {s u : State} {n : Nat} (hmem : u.mem = s.mem) (hring : u.ring n = s.ring n) :
    u.ringWord n = s.ringWord n := by
  rw [State.ringWord, State.ringWord, hring, State.rawRead_congr (fun b _ _ => State.byte_congr hmem b)]

theorem State.ringWord_turn (s : State) (a : Agent) (m n : Nat) :
    ({ s with cur := a, dev := { s.dev with turn := m } } : State).ringWord n = s.ringWord n :=
  State.ringWord_congr rfl rfl

theorem ringTurn_starts {s : State} {n : Nat} {i : Instr} (hready : s.dev.ready = true) (hpower : s.dev.power ≠ .d3hot)
    (hnext : ((List.range 16).map (fun i => (s.dev.turn + 1 + i) % 16)).find? s.ringReady = some n)
    (hdec : decodeRequest (s.ringWord n) = some i) :
    ringTurn s = .run i { s with cur := .ring n, dev := { s.dev with turn := n } } := by
  rw [ringTurn, if_neg (by simp [hready, hpower]), hnext]
  dsimp only
  rw [State.ringWord_turn, hdec]

/-- Settles O3, agent by agent: each clause is the turn of its agent, or of the move that the agenda names. -/
theorem stepRunsTheDecodedInstruction : Obligations.StepRunsTheDecodedInstruction := by
  unfold Obligations.StepRunsTheDecodedInstruction
  refine ⟨fun s s0 h hacts hown hctx => ?_, fun s i r hagenda => ?_, fun s s0 t hacts => ?_, fun s s0 g t q a e i hg hacts => ?_,
    fun s r g t q seq va a e i hg => ?_, fun s r c n va p g y => ?_, fun s s0 m n i hacts hready hpower hnext hdec => ?_⟩
  · obtain ⟨hcur, hstep⟩ := step_of_acts (a := h.agent) hacts
    rw [hstep, agentTurn_hart hcur]
    refine ⟨fun hrun htrap hpc => ?_, fun w i hrun htrap hrow => ?_, fun hrun htrap => ?_⟩
    · rw [hartTurn_running hown hctx hrun htrap, fetchHart_inside hpc]; rfl
    · rw [hartTurn_waiting hown hctx hrun, waitTurn_row htrap hrow]; rfl
    · rw [hartTurn_trapReady hown hctx hrun htrap]; rfl
  · rw [step_eq_outcome_turn, State.turn, hagenda]; rfl
  · obtain ⟨hcur, hstep⟩ := step_of_acts hacts
    rw [hstep, agentTurn, hcur]; rfl
  · obtain ⟨hcur, hstep⟩ := step_of_acts hacts
    rw [hstep, agentTurn_engine hg hcur]
    refine ⟨fun hfin => ?_, fun hfin hhead hdec => ?_⟩
    · rw [engineTurn_finished hfin]; rfl
    · rw [engineTurn_head hfin hhead hdec]; rfl
  · have hpicked := fun pick => pickedTurn_outcome (s := { s with agenda := r, cur := g }) (pick := pick) (e := e) (i := i) hg rfl
    rw [step_eq_outcome_turn, State.turn]
    refine ⟨fun hagenda hwork hdec => ?_, fun hagenda hwork hdec => ?_, fun hagenda hwork hdec => ?_, fun hagenda => ?_⟩ <;>
      rw [hagenda]
    · exact (hpicked _ hwork hdec).trans (if_neg (by simp))
    · exact (hpicked _ hwork hdec).trans (if_congr (by simp : _ ↔ q = 1) rfl rfl)
    · exact (hpicked _ hwork hdec).trans (if_neg (by simp))
    · rfl
  · rw [step_eq_outcome_turn, State.turn]
    refine ⟨fun hagenda => ?_, fun hagenda => ?_, fun hagenda => ?_, fun hagenda => ?_⟩ <;> rw [hagenda] <;> rfl
  · obtain ⟨hcur, hstep⟩ := step_of_acts hacts
    rw [hstep, agentTurn, hcur]
    simp only [ringTurn_starts hready hpower hnext hdec]; rfl

end Sys2Proof.Machine
end

section
/-! How commands leave their queues (R19, R113, R151, R155, R226, R317, R318): the slicer, completion and the control commands. -/

namespace Sys2Proof.Machine

open Sys2Proof.Claims

/-! ## An entry leaves its queue -/

/-- A tile after an entry has left its queue, before its timeline is brought up to date. -/
def TileCtx.without (c : TileCtx) (q : Nat) (e : Entry) : TileCtx :=
  (c.setQueue q { c.queue q with entries := (c.queue q).entries.filter (fun x => x.seq ≠ e.seq), done := (c.queue q).done + 1 }).dropRange
    q e.seq

theorem TileCtx.without_eq (c : TileCtx) (q : Nat) (e : Entry) : ∃ q0 q1 q2, c.without q e =
    { c with q0 := q0, q1 := q1, q2 := q2, ranges := c.ranges.filter (fun r => !(r.q = q && r.seq = e.seq)) } := by
  unfold TileCtx.without TileCtx.setQueue TileCtx.dropRange
  split <;> [skip; split] <;> exact ⟨_, _, _, rfl⟩

theorem TileCtx.tokens_without (c : TileCtx) (q : Nat) (e : Entry) : (c.without q e).tokens = c.tokens := by
  obtain ⟨_, _, _, h⟩ := c.without_eq q e; rw [h]

theorem TileCtx.cpstat_without (c : TileCtx) (q : Nat) (e : Entry) : (c.without q e).cpstat = c.cpstat := by
  obtain ⟨_, _, _, h⟩ := c.without_eq q e; rw [h]

theorem TileCtx.tlerr_without (c : TileCtx) (q : Nat) (e : Entry) : (c.without q e).tlerr = c.tlerr := by
  obtain ⟨_, _, _, h⟩ := c.without_eq q e; rw [h]

theorem TileCtx.ranges_without (c : TileCtx) (q : Nat) (e : Entry) :
    (c.without q e).ranges = c.ranges.filter (fun r => !(r.q = q && r.seq = e.seq)) := by
  obtain ⟨_, _, _, h⟩ := c.without_eq q e; rw [h]

theorem TileCtx.queue_without (c : TileCtx) (q : Nat) (e : Entry) : (c.without q e).queue q =
    { c.queue q with entries := (c.queue q).entries.filter (fun x => x.seq ≠ e.seq), done := (c.queue q).done + 1 } :=
  TileCtx.queue_setQueue_self c q _

/-- A timeline alone changes where it is set. -/
theorem TileCtx.setTimeline_eq (c : TileCtx) (x v : Nat) :
    ∃ tlc tlf tlk tla, c.setTimeline x v = { c with tlc := tlc, tlf := tlf, tlk := tlk, tla := tla } := by
  unfold TileCtx.setTimeline
  split <;> [skip; split <;> [skip; split]] <;> exact ⟨_, _, _, _, rfl⟩

theorem TileCtx.refresh_eq (c : TileCtx) (q x : Nat) :
    ∃ tlc tlf tlk tla, c.refresh q x = { c with tlc := tlc, tlf := tlf, tlk := tlk, tla := tla } := by
  unfold TileCtx.refresh; dsimp only
  split <;> exact TileCtx.setTimeline_eq c x _

/-- A copy that leaves its queue leaves behind how many chunks it completed. -/
def TileCtx.recordChunks (c : TileCtx) (q : Nat) (e : Entry) : TileCtx :=
  match e.num with
  | some n => if q = 1 then { c with chunks := SMap.set 0 c.chunks n e.prog.bits } else c
  | none => c

theorem TileCtx.recordChunks_eq (c : TileCtx) (q : Nat) (e : Entry) : ∃ chunks, c.recordChunks q e = { c with chunks := chunks } := by
  unfold TileCtx.recordChunks
  split <;> [split; skip] <;> exact ⟨_, rfl⟩

theorem TileCtx.retireEntry_none {q : Nat} {e : Entry} (h : engineOf e.w q = none) (c : TileCtx) (err : Bool) :
    c.retireEntry q e err = (c.without q e).recordChunks q e := by
  unfold TileCtx.retireEntry; dsimp only; rw [h]; rfl

theorem TileCtx.retireEntry_some {q x : Nat} {e : Entry} (h : engineOf e.w q = some x) (c : TileCtx) (err : Bool) :
    c.retireEntry q e err = if err && e.num.isSome then (((c.without q e).recordChunks q e).refresh q x).setTlerr x
      else ((c.without q e).recordChunks q e).refresh q x := by
  unfold TileCtx.retireEntry; dsimp only; rw [h]; rfl

/-- Besides its queue and its range-table entry, an entry that leaves changes the chunk counts, the timelines and, with an error,
`tlerr`. -/
theorem TileCtx.retireEntry_eq (c : TileCtx) (q : Nat) (e : Entry) (err : Bool) :
    ∃ chunks tlc tlf tlk tla tlerr, (err = false → tlerr = c.tlerr) ∧ c.retireEntry q e err =
      { c.without q e with chunks := chunks, tlc := tlc, tlf := tlf, tlk := tlk, tla := tla, tlerr := tlerr } := by
  have htlerr := c.tlerr_without q e
  obtain ⟨chunks, hchunks⟩ := (c.without q e).recordChunks_eq q e
  cases h : engineOf e.w q with
  | none =>
    rw [TileCtx.retireEntry_none h, hchunks]
    exact ⟨_, _, _, _, _, _, fun _ => htlerr, rfl⟩
  | some x =>
    rw [TileCtx.retireEntry_some h]
    obtain ⟨tlc, tlf, tlk, tla, hrefresh⟩ := ((c.without q e).recordChunks q e).refresh_eq q x
    rw [hrefresh, hchunks]
    split
    · rename_i herr
      exact ⟨_, _, _, _, _, _, fun h => by simp [h] at herr, rfl⟩
    · exact ⟨_, _, _, _, _, _, fun _ => htlerr, rfl⟩

@[simp] theorem TileCtx.queue_retireEntry (c : TileCtx) (q : Nat) (e : Entry) (err : Bool) : (c.retireEntry q e err).queue q =
    { c.queue q with entries := (c.queue q).entries.filter (fun x => x.seq ≠ e.seq), done := (c.queue q).done + 1 } := by
  obtain ⟨_, _, _, _, _, _, _, h⟩ := c.retireEntry_eq q e err
  rw [h]; exact c.queue_without q e

@[simp] theorem TileCtx.ranges_retireEntry (c : TileCtx) (q : Nat) (e : Entry) (err : Bool) :
    (c.retireEntry q e err).ranges = c.ranges.filter (fun r => !(r.q = q && r.seq = e.seq)) := by
  obtain ⟨_, _, _, _, _, _, _, h⟩ := c.retireEntry_eq q e err
  rw [h]; exact c.ranges_without q e

@[simp] theorem TileCtx.tokens_retireEntry (c : TileCtx) (q : Nat) (e : Entry) (err : Bool) :
    (c.retireEntry q e err).tokens = c.tokens := by
  obtain ⟨_, _, _, _, _, _, _, h⟩ := c.retireEntry_eq q e err
  rw [h]; exact c.tokens_without q e

@[simp] theorem TileCtx.cpstat_retireEntry (c : TileCtx) (q : Nat) (e : Entry) (err : Bool) :
    (c.retireEntry q e err).cpstat = c.cpstat := by
  obtain ⟨_, _, _, _, _, _, _, h⟩ := c.retireEntry_eq q e err
  rw [h]; exact c.cpstat_without q e

@[simp] theorem TileCtx.tlerr_retireEntry (c : TileCtx) (q : Nat) (e : Entry) : (c.retireEntry q e false).tlerr = c.tlerr := by
  obtain ⟨_, _, _, _, _, _, ht, h⟩ := c.retireEntry_eq q e false
  rw [h]; exact ht rfl

/-- The range-table entry of a command goes with it. -/
theorem TileCtx.ranges_retireEntry_gone (c : TileCtx) (q : Nat) (e : Entry) (err : Bool) :
    ∀ r ∈ (c.retireEntry q e err).ranges, ¬ (r.q = q ∧ r.seq = e.seq) := by
  intro r hr
  simp only [TileCtx.ranges_retireEntry, List.mem_filter] at hr
  simpa [← not_and_or] using hr.2

/-! ## Completion -/

theorem State.leaseUsed_eq (s : State) (t : Nat) : ∃ a, s.leaseUsed t = { s with anvils := a } := by
  unfold State.leaseUsed State.endLease; dsimp only
  split <;> [split <;> [split; skip]; skip] <;> exact ⟨_, rfl⟩

/-- The states of a context in which its engines go on to complete what they have done. -/
def Completes (st : CtxState) : Prop := st = .running ∨ st = .preempting ∨ st = .faulted ∨ st = .tornDown

section
variable {s : State} {t seq : Nat} {q : BitVec 2} {e : Entry} (hfind : (s.queue t q.toNat).find seq = some e) (hdone : e.st = .done)
  (hctx : Completes (s.ctx (s.ctxOf t)).st)
include hfind hdone hctx

theorem exec_commandComplete_engine (hop : field e.w 5 3 ≠ 5) :
    ∃ a, exec (.commandComplete t q seq) s = .next { s.modTc t (fun c => c.retireEntry q.toNat e false) with anvils := a } := by
  rw [exec_commandComplete, execCommandComplete, hfind]
  dsimp only
  rw [if_neg (by rcases hctx with h | h | h | h <;> simp [hdone, h]), if_neg hop]
  split
  · obtain ⟨a, h⟩ := (s.modTc t (fun c => c.retireEntry q.toNat e false)).leaseUsed_eq t
    exact ⟨a, by rw [h]⟩
  · exact ⟨_, rfl⟩

theorem exec_commandComplete_copy (hop : field e.w 5 3 = 5) :
    exec (.commandComplete t q seq) s = .next (s.modTc t (fun c => c.completeCopy e)) := by
  rw [exec_commandComplete, execCommandComplete, hfind]
  dsimp only
  rw [if_neg (by rcases hctx with h | h | h | h <;> simp [hdone, h]), if_pos hop]

end

theorem CmdQueue.seq_of_find {x : CmdQueue} {seq : Nat} {e : Entry} (h : x.find seq = some e) : e.seq = seq := by
  simpa using List.find?_some h

/-! ## The completion actions of a copy -/

/-- The tile after the completion token of a copy has been given, where it has one. -/
def TileCtx.giveCompletion (c : TileCtx) (e : Entry) : TileCtx :=
  if copyKind (field e.w 0 8) ≠ .pref && cpTkn (cmdOfBits e.w) ≠ 0 then
    c.give (cpTkc (cmdOfBits e.w)) (cpTkn (cmdOfBits e.w)) (.command 1 e.seq)
  else c

theorem TileCtx.give_eq (c : TileCtx) (n k : Nat) (g : Giver) : ∃ v, c.give n k g = { c with
    tokens := SMap.put c.tokens n { c.token n with
      count := (c.token n).count + min k (2 ^ 32 - 1 - (c.token n).count)
      supply := if min k (2 ^ 32 - 1 - (c.token n).count) = 0 then (c.token n).supply
        else (c.token n).supply ++ [(g, min k (2 ^ 32 - 1 - (c.token n).count))] }
    tkov := v } := by
  unfold TileCtx.give; dsimp only
  split <;> exact ⟨_, rfl⟩

theorem TileCtx.giveCompletion_frame (c : TileCtx) (e : Entry) :
    ∃ m v, c.giveCompletion e = { c with tokens := m, tkov := v } := by
  unfold TileCtx.giveCompletion
  split
  · obtain ⟨v, h⟩ := c.give_eq (cpTkc (cmdOfBits e.w)) (cpTkn (cmdOfBits e.w)) (.command 1 e.seq)
    exact ⟨_, v, h⟩
  · exact ⟨_, _, rfl⟩

/-- Of the counters only the one of the completion token changes, by units up to 2^32 − 1. -/
theorem TileCtx.token_giveCompletion (c : TileCtx) (e : Entry) :
    let x := cmdOfBits e.w
    let gives : Prop := copyKind (field e.w 0 8) ≠ .pref ∧ cpTkn x ≠ 0
    (∀ n, (c.giveCompletion e).token n = c.token n ∨ gives ∧ n = cpTkc x) ∧
    (gives → ((c.giveCompletion e).token (cpTkc x)).count =
      (c.token (cpTkc x)).count + min (cpTkn x) (2 ^ 32 - 1 - (c.token (cpTkc x)).count)) := by
  intro x gives
  by_cases hg : gives
  · obtain ⟨v, h⟩ := c.give_eq (cpTkc x) (cpTkn x) (.command 1 e.seq)
    have hc : c.giveCompletion e = c.give (cpTkc x) (cpTkn x) (.command 1 e.seq) := if_pos (by simpa using hg)
    rw [hc, h]
    refine ⟨fun n => ?_, fun _ => by simp [TileCtx.token]⟩
    by_cases hn : n = cpTkc x
    · exact .inr ⟨hg, hn⟩
    · exact .inl (SMap.get_put_other _ _ _ _ _ hn)
  · have hc : c.giveCompletion e = c := if_neg (by rwa [Bool.and_eq_true, decide_eq_true_iff, decide_eq_true_iff])
    exact ⟨fun n => .inl (by rw [hc]), fun h => absurd h hg⟩

theorem TileCtx.completeCopy_ok {c : TileCtx} {e : Entry} (h : e.prog.status = 0) :
    c.completeCopy e = (c.giveCompletion e).retireEntry 1 e false := by
  simp only [TileCtx.completeCopy, h, ne_eq, not_true_eq_false, decide_false, if_false]; rfl

theorem TileCtx.completeCopy_status {c : TileCtx} {e : Entry} (h : e.prog.status ≠ 0) :
    c.completeCopy e = ((c.giveCompletion e).retireEntry 1 e true).setCopyStatus e e.prog.status e.prog.miss := by
  simp only [TileCtx.completeCopy, h, ne_eq, not_false_eq_true, decide_true, if_true]; rfl

/-- The completion actions of a copy, whatever its status (R113, R317). -/
theorem TileCtx.completeCopy_parts (c : TileCtx) (e : Entry) :
    (c.completeCopy e).queue 1 = (c.retireEntry 1 e false).queue 1 ∧ (c.completeCopy e).ranges = (c.retireEntry 1 e false).ranges ∧
      (c.completeCopy e).tokens = (c.giveCompletion e).tokens := by
  obtain ⟨m, v, hgive⟩ := c.giveCompletion_frame e
  have hqueue : (c.giveCompletion e).queue 1 = c.queue 1 := by rw [hgive]; rfl
  have hranges : (c.giveCompletion e).ranges = c.ranges := by rw [hgive]
  by_cases h : e.prog.status = 0
  · rw [TileCtx.completeCopy_ok h]
    simp [hqueue, hranges]
  · rw [TileCtx.completeCopy_status h]
    refine ⟨?_, ?_, ?_⟩
    · exact ((c.giveCompletion e).queue_retireEntry 1 e true).trans (by simp [hqueue])
    · exact ((c.giveCompletion e).ranges_retireEntry 1 e true).trans (by simp [hranges])
    · exact (c.giveCompletion e).tokens_retireEntry 1 e true

theorem TileCtx.token_completeCopy (c : TileCtx) (e : Entry) (n : Nat) : (c.completeCopy e).token n = (c.giveCompletion e).token n := by
  rw [TileCtx.token, TileCtx.token, (c.completeCopy_parts e).2.2]

/-- The status words of a copy (R318). -/
theorem TileCtx.completeCopy_result (c : TileCtx) (e : Entry) :
    (e.prog.status = 0 → (c.completeCopy e).cpstat = c.cpstat ∧ (c.completeCopy e).tlerr = c.tlerr) ∧
    (e.prog.status ≠ 0 → (c.completeCopy e).tlerr.getLsbD 0 = true ∧ (c.completeCopy e).cpstat =
      BitVec.ofNat 64 (e.prog.status * 2 ^ 60 + min e.prog.miss (2 ^ 28 - 1) * 2 ^ 32 + e.num.getD 0 % 2 ^ 32)) := by
  refine ⟨fun h => ?_, fun h => ?_⟩
  · obtain ⟨m, v, hgive⟩ := c.giveCompletion_frame e
    rw [TileCtx.completeCopy_ok h]
    simp [hgive]
  · rw [TileCtx.completeCopy_status h]
    exact ⟨by simp [TileCtx.setCopyStatus, TileCtx.setTlerr, putBit], rfl⟩

/-! ## The slicer -/

theorem exec_slicerTake_faulted {s : State} (h : (s.queue s.cur.tile 0).faulted = true) : exec .slicerTake s = .next s := by
  rw [exec_slicerTake, execSlicerTake]
  exact if_pos (by simp [h])

theorem exec_slicerTake_queued {s : State} {e : Entry} (h : (s.queue s.cur.tile 0).faulted = false)
    (hctx : (s.ctx (s.ctxOf s.cur.tile)).st = .running)
    (hfind : (s.queue s.cur.tile 0).entries.find? (fun e => e.st = .queued) = some e) :
    exec .slicerTake s = .next (s.modEntry s.cur.tile 0 e.seq (fun y => { y with st := .taken })) := by
  rw [exec_slicerTake, execSlicerTake]
  exact (if_neg (by simp [h, hctx])).trans (by rw [hfind])

/-! ## Control commands -/

theorem awaitEarlier_ok {r : Run} {s : State} (h : s.earlierLeft r = false) : awaitEarlier r s = .ok () s := by
  rw [awaitEarlier, M.bind_ok (M.get_run s), h]; rfl

section
variable {s : State} {c : Cmd} {r : Run}

theorem exec_cnop_ok (h : CanStart 0 c s r) (hres : checkReserved c [(64, 128)] s = .ok () s) :
    exec (.cnop c) s = .next (finished r s) := by
  rw [exec_cnop, execCnop, runCommand_ok h (fin := true) (t := s)]
  · rfl
  · rw [M.bind_ok hres]; rfl

theorem exec_cbump_ok (h : CanStart 1 c s r) (hres : checkReserved c [(64, 128)] s = .ok () s) (hleft : s.earlierLeft r = false) :
    exec (.cbump c) s = .next (finished r s) := by
  rw [exec_cbump, execCbump, runCommand_ok h (fin := true) (t := s)]
  · rfl
  · rw [M.bind_ok hres, M.bind_ok (awaitEarlier_ok hleft)]; rfl

theorem exec_cmark_ok {t : State} (h : CanStart 2 c s r) (hres : checkReserved c [(128, 64)] s = .ok () s)
    (hleft : s.earlierLeft r = false) (hrange : RangeFree s r) (hfill : fillWord r (markAddr c) c.patch.toNat s = .ok () t) :
    exec (.cmark c) s = .next (finished r t) := by
  rw [exec_cmark, execCmark, runCommand_ok h (fin := true) (t := t)]
  · rfl
  · rw [M.bind_ok hres, M.bind_ok (awaitEarlier_ok hleft), M.bind_ok (begin_none (only_of_canStart h) hrange), M.bind_ok hfill]; rfl

end

/-- Settles O28: the slicer, the two ways a command completes, and the three control commands. -/
theorem queueProgress : Obligations.QueueProgress := by
  unfold Obligations.QueueProgress
  refine ⟨fun s e => ⟨exec_slicerTake_faulted, exec_slicerTake_queued⟩, fun s t seq q e hfind hdone hop hctx _ => ?_,
    fun s t seq e => ?_,
    fun s t c r => ⟨exec_cnop_ok, exec_cbump_ok, exec_cmark_ok⟩⟩
  · obtain ⟨a, hexec⟩ := exec_commandComplete_engine hfind hdone hctx hop
    obtain rfl := CmdQueue.seq_of_find hfind
    refine ⟨_, hexec, ?_⟩
    have htc : ({ s.modTc t (fun c => c.retireEntry q.toNat e false) with anvils := a } : State).tc t =
        (s.tc t).retireEntry q.toNat e false := State.tc_modTc_self s t (fun c => c.retireEntry q.toNat e false)
    simp only [State.queue, htc, TileCtx.queue_retireEntry]
    exact ⟨trivial, trivial, TileCtx.ranges_retireEntry_gone _ _ _ _, rfl⟩
  · intro c x gives hfind hdone hop hctx
    obtain rfl := CmdQueue.seq_of_find hfind
    obtain ⟨hqueue, hranges, -⟩ := c.completeCopy_parts e
    obtain ⟨hother, hgiven⟩ := c.token_giveCompletion e
    have hq1 : (c.completeCopy e).q1 = (c.retireEntry 1 e false).queue 1 := hqueue
    refine ⟨_, exec_commandComplete_copy (q := 1) hfind hdone hctx hop, rfl, ?_⟩
    simp only [State.tc_modTc_self, TileCtx.token_completeCopy]
    rw [hq1, TileCtx.queue_retireEntry, hranges]
    exact ⟨rfl, rfl, c.ranges_retireEntry_gone 1 e false, hother, hgiven, c.completeCopy_result e⟩

end Sys2Proof.Machine
end

section
/-! Packets and the states of a link (R15, R324, R350 to R355, R383). -/

namespace Sys2Proof.Machine

open Sys2Proof.Claims

/-! ## States of links -/

theorem LinkState.carries_iff {x : LinkState} : x.carries = true ↔ x = .up ∨ x = .degraded := by
  cases x <;> simp [LinkState.carries]

theorem LinkState.passes_iff {x : LinkState} : x.passes = true ↔ x = .up ∨ x = .degraded ∨ x = .draining := by
  simp [LinkState.passes, LinkState.carries_iff, or_assoc]

/-! ## Where packets come to (R15) -/

section
variable {s : State} {p : Packet}

/-- A packet that neither a link nor a node holds comes only where it enters the fabric. -/
theorem State.received_entering (hholder : s.holder p = none)
    (hstalled : ∀ y ∈ s.stalled, ¬ (y.source = p.source ∧ y.seq = p.seq)) :
    s.received p = if s.entersAt p then some { p with cls := s.packetClass p, ctx := s.packetContext p } else none := by
  have hfind : s.stalled.find? (fun y => y.source = p.source && y.seq = p.seq) = none :=
    List.find?_eq_none.2 (fun y hy => by simpa using hstalled y hy)
  rw [State.received, hholder, hfind]

theorem State.received_stalled {y : Packet} (hholder : s.holder p = none)
    (hfind : s.stalled.find? (fun y => y.source = p.source && y.seq = p.seq) = some y) : s.received p = some y := by
  rw [State.received, hholder, hfind]

theorem State.received_held {l : Link} {y : Packet} (hholder : s.holder p = some (l, y)) :
    s.received p = if linkLeads l y.node p.node && takenAt y p.node then some { y with node := p.node, hops := y.hops + 1 }
      else none := by
  rw [State.received, hholder]

theorem takenAt_eq_false {y : Packet} {node : Nat} : takenAt y node = false ↔ Config.chipBase ≤ node ∧ node ≠ y.dest := by
  simp [takenAt]

/-- A packet from a router or a chiplet enters there. -/
theorem State.entersAt_router (h : p.source < Config.chipBase) : s.entersAt p = decide (p.node = p.source) := by
  have hdie : p.source ≠ Config.controlDie := by unfold Config.chipBase at h; unfold Config.controlDie; omega
  simp [State.entersAt, onChip, atSource, h, hdie]

/-- A packet from a control die enters at an elevator router. -/
theorem State.entersAt_controlDie (h : p.source = Config.controlDie) :
    s.entersAt p = (decide (Config.elevatorBase ≤ p.node) && decide (p.node < Config.chipBase)) := by
  simp [State.entersAt, onChip, atSource, h]

end

/-- The link of a bed to its chiplet leads to or from that chiplet. -/
theorem linkLeads_chiplet {l : Link} {a b : Nat} (hkind : l.kind = .chiplet) (hidx : l.idx < 4) (h : linkLeads l a b = true) :
    a = Config.chipletBase + l.idx ∨ b = Config.chipletBase + l.idx := by
  have hhub : linkHub l = some (Config.chipletBase + l.idx) := by rw [linkHub, hkind]; exact if_pos hidx
  simp only [linkLeads, hhub, hkind, Option.all_some, Bool.and_eq_true, Bool.or_eq_true, decide_eq_true_eq, reduceCtorEq, false_and,
    or_false] at h
  exact h.2.2

theorem State.linkJoins_nextLink {s : State} {p : Packet} {l : Link} (h : s.nextLink p = some l) : linkJoins l p.node = true :=
  (Option.filter_eq_some_iff.1 h).2

/-! ## What happens to a packet at a node (R353, R355) -/

theorem exec_packetArrival_none {s : State} {p : Packet} (h : s.received p = none) : exec (.packetArrival p) s = .next s := by
  rw [exec_packetArrival, execPacketArrival, h]

theorem exec_packetArrival_some {s : State} {p g : Packet} (h : s.received p = some g) :
    exec (.packetArrival p) s = .next (s.routePacket g) := by
  rw [exec_packetArrival, execPacketArrival, h]

/-- A node has taken a packet off the link or the place that held it, and its source keeps a protected one. -/
def State.arrived (s : State) (g : Packet) : State := (s.leaveLinks g).keep g

section
variable {s : State} {g : Packet} {l : Link}

theorem State.routePacket_dest (h : g.node = g.dest) : s.routePacket g = (s.arrived g).deliver g := if_pos h

theorem State.routePacket_far (h : g.node ≠ g.dest) (hhops : 64 < g.hops) :
    s.routePacket g = ((s.arrived g).countDropped g.node).losePacket g := (if_neg h).trans (if_pos hhops)

theorem State.deliver_duplicate (h : s.duplicate g = true) : (s.deliver g).delivered = s.delivered := by
  simp [State.deliver, h]

variable (h : g.node ≠ g.dest) (hhops : g.hops ≤ 64)
include h hhops

theorem State.routePacket_noRoute (hnext : (s.arrived g).nextLink g = none) :
    s.routePacket g = (if protectedPacket g then s.arrived g else (s.arrived g).countDropped g.node).losePacket g := by
  refine ((if_neg h).trans (if_neg (Nat.not_lt.2 hhops))).trans ?_
  rw [← State.arrived, hnext]

theorem State.routePacket_link (hnext : (s.arrived g).nextLink g = some l) : s.routePacket g =
    if ((s.arrived g).link l).st.carries then
      (s.arrived g).setLink l { (s.arrived g).link l with inside := ((s.arrived g).link l).inside ++ [g] }
    else if ((s.arrived g).link l).st = .draining then
      State.later { s.arrived g with stalled := (s.arrived g).stalled ++ [g] } (.packetArrival g)
    else (if protectedPacket g then s.arrived g else (s.arrived g).dropAt l).losePacket g := by
  refine ((if_neg h).trans (if_neg (Nat.not_lt.2 hhops))).trans ?_
  rw [← State.arrived, hnext]

theorem State.routePacket_enters (hnext : (s.arrived g).nextLink g = some l)
    (hst : ((s.arrived g).link l).st = .up ∨ ((s.arrived g).link l).st = .degraded) : s.routePacket g =
      (s.arrived g).setLink l { (s.arrived g).link l with inside := ((s.arrived g).link l).inside ++ [g] } := by
  rw [State.routePacket_link h hhops hnext, if_pos (LinkState.carries_iff.2 hst)]

theorem State.routePacket_waits (hnext : (s.arrived g).nextLink g = some l) (hst : ((s.arrived g).link l).st = .draining) :
    s.routePacket g = State.later { s.arrived g with stalled := (s.arrived g).stalled ++ [g] } (.packetArrival g) := by
  rw [State.routePacket_link h hhops hnext, if_neg (by simp [hst, LinkState.carries]), if_pos hst]

theorem State.routePacket_refused (hnext : (s.arrived g).nextLink g = some l) (hst : ((s.arrived g).link l).st ≠ .up ∧
      ((s.arrived g).link l).st ≠ .degraded ∧ ((s.arrived g).link l).st ≠ .draining) :
    s.routePacket g = (if protectedPacket g then s.arrived g else (s.arrived g).dropAt l).losePacket g := by
  obtain ⟨hup, hdegraded, hdraining⟩ := hst
  rw [State.routePacket_link h hhops hnext, if_neg (by simp [LinkState.carries_iff, hup, hdegraded]), if_neg hdraining]

end

/-! ## Loss (R355, R375) -/

@[simp] theorem State.link_dropAt_self (s : State) (l : Link) :
    (s.dropAt l).link l = { s.link l with dropped := satAdd 64 (s.link l).dropped 1 } :=
  s.link_setLink_self l _

section
variable {s : State} {p : Packet}

theorem State.mem_resend_losePacket (h : protectedPacket p = true) : (p.source, p.dest) ∈ (s.losePacket p).resend := by
  rw [State.losePacket, if_pos h]
  split
  · rename_i hin
    exact List.contains_iff_mem.1 hin
  · exact List.mem_append_right _ (List.mem_singleton.2 rfl)

/-- An unprotected packet between nodes of the chip costs an access of its requester, or of a reply to a write counts at once. -/
theorem State.losePacket_unprotected (h : protectedPacket p = false) (hsource : onChip p.source = true) (hdest : onChip p.dest = true) :
    (requester p < Config.nTiles → p.kind = .read →
      ((s.losePacket p).tile (requester p)).lostReads = (s.tile (requester p)).lostReads + 1) ∧
    (p.source < Config.nTiles → p.reply = false → p.kind = .write →
      ((s.losePacket p).tile p.source).lostWrites = (s.tile p.source).lostWrites + 1) ∧
    (Config.nTiles ≤ requester p → p.kind = .read → ((s.losePacket p).ctx p.ctx).lostReads = (s.ctx p.ctx).lostReads + 1) ∧
    (Config.nTiles ≤ p.source → p.reply = false → p.kind = .write →
      ((s.losePacket p).ctx p.ctx).lostWrites = (s.ctx p.ctx).lostWrites + 1) ∧
    (p.reply = true → p.kind = .write → ((s.losePacket p).ctx p.ctx).lost = satAdd 64 (s.ctx p.ctx).lost 1) := by
  rw [State.losePacket, if_neg (by simp [h]), if_neg (by simp [hsource, hdest])]
  refine ⟨fun ht hk => ?_, fun ht hr hk => ?_, fun ht hk => ?_, fun ht hr hk => ?_, fun hr hk => ?_⟩ <;> simp only [hk]
  · simp [ht]
  · simp [ht, hr]
  · simp [Nat.not_lt.2 ht]
  · simp [Nat.not_lt.2 ht, hr]
  · simp [hr]

/-- What a source sends again, it sends from where it entered. -/
theorem exec_protectedResend_mem {n : Nat} {g : Packet} (hg : g ∈ SMap.get [] s.kept n) (hlost : (n, g.dest) ∈ s.resend) :
    .event (.packetArrival { g with hops := 0, protect := true }) ∈ s.agenda ++
      ((SMap.get [] s.kept n).filter (fun p => ((s.resend.filter (fun p => p.1 = n)).map (·.2)).contains p.dest)).map
        (fun p => Move.event (.packetArrival { p with hops := 0, protect := true })) := by
  refine List.mem_append_right _ (List.mem_map.2 ⟨g, List.mem_filter.2 ⟨hg, List.contains_iff_mem.2 ?_⟩, rfl⟩)
  exact List.mem_map.2 ⟨_, List.mem_filter.2 ⟨hlost, by simp⟩, rfl⟩

end

/-! ## What the fabric leaves alone -/

/-- The clock, the memory and the route tables are the same. -/
structure FabricFrame (s u : State) : Prop where
  clk : u.clk = s.clk
  mem : u.mem = s.mem
  routes : u.routes = s.routes

theorem FabricFrame.refl (s : State) : FabricFrame s s := ⟨rfl, rfl, rfl⟩

theorem FabricFrame.trans {s u v : State} (h : FabricFrame s u) (k : FabricFrame u v) : FabricFrame s v :=
  ⟨k.clk.trans h.clk, k.mem.trans h.mem, k.routes.trans h.routes⟩

theorem FabricFrame.foldl {α : Type} {f : State → α → State} (hf : ∀ s a, FabricFrame s (f s a)) (l : List α) (s : State) :
    FabricFrame s (l.foldl f s) := by
  induction l generalizing s with
  | nil => exact .refl s
  | cons a l ih => exact (hf s a).trans (ih _)

theorem State.losePacket_parts (s : State) (p : Packet) :
    ∃ r t c, s.losePacket p = { s with resend := r, tiles := t, ctxs := c } := by
  unfold State.losePacket; dsimp only
  split
  · split <;> exact ⟨_, _, _, rfl⟩
  · split
    · exact ⟨_, _, _, rfl⟩
    · cases p.kind with
      | other => exact ⟨_, _, _, rfl⟩
      | read => dsimp only; split <;> exact ⟨_, _, _, rfl⟩
      | write => dsimp only; split <;> [skip; split] <;> exact ⟨_, _, _, rfl⟩

@[simp] theorem State.link_losePacket (s : State) (p : Packet) (l : Link) : (s.losePacket p).link l = s.link l := by
  obtain ⟨_, _, _, h⟩ := s.losePacket_parts p
  rw [h]; rfl

@[simp] theorem State.link_loseSent (s : State) (w : Sent) (l : Link) : (s.loseSent w).link l = s.link l := by
  obtain ⟨_, h⟩ := s.loseSent_frame w
  rw [h]; rfl

@[simp] theorem State.link_redepart (s : State) (d : Departure) (l : Link) : (s.redepart d).link l = s.link l := by
  obtain ⟨_, _, _, h⟩ := s.depart_frame d.what.serial d.cls d.tile d.chan d.what
  rw [State.redepart, h]; rfl

/-- What every step of a run through a list keeps, the run keeps. -/
theorem State.foldl_keeps {α β : Type} (g : State → β) {f : State → α → State} (hf : ∀ s a, g (f s a) = g s) (as : List α)
    (s : State) : g (as.foldl f s) = g s := by
  induction as generalizing s with
  | nil => rfl
  | cons a as ih => rw [List.foldl_cons, ih, hf]

@[simp] theorem State.link_replaceElevator (s : State) (e : Nat) (l : Link) : (s.replaceElevator e).link l = s.link l := by
  unfold State.replaceElevator
  split
  · rfl
  · refine State.foldl_keeps (·.link l) (fun s t => ?_) _ s
    rfl

@[simp] theorem State.link_sendWaiting (s : State) (l : Link) : s.sendWaiting.link l = s.link l :=
  State.foldl_keeps (·.link l) (fun s d => s.link_redepart d l) _ _

theorem State.losePacket_fabricFrame (s : State) (p : Packet) : FabricFrame s (s.losePacket p) := by
  obtain ⟨_, _, _, h⟩ := s.losePacket_parts p
  rw [h]; exact ⟨rfl, rfl, rfl⟩

theorem State.loseSent_fabricFrame (s : State) (w : Sent) : FabricFrame s (s.loseSent w) := by
  obtain ⟨_, h⟩ := s.loseSent_frame w
  rw [h]; exact ⟨rfl, rfl, rfl⟩

theorem State.redepart_fabricFrame (s : State) (d : Departure) : FabricFrame s (s.redepart d) := by
  obtain ⟨_, _, _, h⟩ := s.depart_frame d.what.serial d.cls d.tile d.chan d.what
  rw [State.redepart, h]; exact ⟨rfl, rfl, rfl⟩

theorem State.replaceElevator_fabricFrame (s : State) (e : Nat) : FabricFrame s (s.replaceElevator e) := by
  unfold State.replaceElevator
  split
  · exact .refl s
  · refine FabricFrame.foldl (fun s t => ?_) _ s
    exact ⟨rfl, rfl, rfl⟩

theorem State.loseElements_fabricFrame (s : State) (q : Nat) : FabricFrame s (s.loseElements q) := by
  unfold State.loseElements; dsimp only
  refine .trans ?_ (FabricFrame.foldl (fun s (d : Departure) => s.loseSent_fabricFrame d.what) _ _)
  exact ⟨rfl, rfl, rfl⟩

theorem State.caught_fabricFrame (s : State) (q : Nat) (d : Departure) : FabricFrame s (s.caught q d) := by
  unfold State.caught
  split
  · exact s.redepart_fabricFrame d
  · refine .trans ?_ (State.loseSent_fabricFrame _ _)
    exact ⟨rfl, rfl, rfl⟩

theorem State.failPort_fabricFrame (s : State) (q : Nat) : FabricFrame s (s.failPort q) := by
  unfold State.failPort State.sendWaiting; dsimp only
  refine .trans ?_ (FabricFrame.foldl State.redepart_fabricFrame _ _)
  refine .trans (.trans ?_ (FabricFrame.foldl (fun s d => s.caught_fabricFrame q d) _ _)) ⟨rfl, rfl, rfl⟩
  exact ⟨rfl, rfl, rfl⟩

theorem State.drainLink_fabricFrame (s : State) (l : Link) : FabricFrame s (s.drainLink l) := by
  have hmod : FabricFrame s (s.modLink l (fun x => { x with st := .draining, drainFrom := s.clk })) := ⟨rfl, rfl, rfl⟩
  unfold State.drainLink; dsimp only
  split
  · exact hmod.trans (State.replaceElevator_fabricFrame _ _)
  · split
    · exact hmod.trans (State.loseElements_fabricFrame _ _)
    · exact hmod
  · exact hmod

/-! ## A link fails (R351, R354, R375, R388) -/

/-- A link after it has dropped n packets more. -/
def LinkRec.drops (x : LinkRec) (n : Nat) : LinkRec := if n = 0 then x else { x with dropped := satAdd 64 x.dropped n }

theorem LinkRec.drops_drops (x : LinkRec) (m n : Nat) : (x.drops m).drops n = x.drops (m + n) := by
  unfold LinkRec.drops
  by_cases hm : m = 0
  · simp [hm]
  · by_cases hn : n = 0
    · simp [hn]
    · simp only [if_neg hm, if_neg hn, if_neg (show m + n ≠ 0 by omega), satAdd, LinkRec.mk.injEq, true_and, and_true]
      omega

theorem LinkRec.drops_frame (x : LinkRec) (n : Nat) : (x.drops n).st = x.st ∧ (x.drops n).inside = x.inside := by
  unfold LinkRec.drops; split <;> exact ⟨rfl, rfl⟩

theorem LinkRec.dropped_drops {x : LinkRec} (h : x.dropped < 2 ^ 64) (n : Nat) : (x.drops n).dropped = satAdd 64 x.dropped n := by
  unfold LinkRec.drops satAdd
  split
  · omega
  · rfl

/-- A link drops as many packets as a run through a list finds. -/
theorem State.link_foldl_drops {α : Type} {f : State → α → State} {p : α → Bool} {l : Link}
    (hf : ∀ s a, (f s a).link l = if p a then { s.link l with dropped := satAdd 64 (s.link l).dropped 1 } else s.link l) (as : List α)
    (s : State) : (as.foldl f s).link l = (s.link l).drops (as.filter p).length := by
  induction as generalizing s with
  | nil => rfl
  | cons a as ih =>
    rw [List.foldl_cons, ih, hf]
    by_cases h : p a = true
    · have hone : { s.link l with dropped := satAdd 64 (s.link l).dropped 1 } = (s.link l).drops 1 := rfl
      rw [if_pos h, hone, LinkRec.drops_drops, List.filter_cons_of_pos h, List.length_cons, Nat.add_comm]
    · rw [if_neg h, List.filter_cons_of_neg h]

/-- Of what is caught on a port, only what neither goes out again nor waits is dropped there. -/
theorem State.link_caught (s : State) (q : Nat) (d : Departure) : (s.caught q d).link ⟨.jecen, q⟩ =
    if !(d.cls = 0 || d.what.waits) then { s.link ⟨.jecen, q⟩ with dropped := satAdd 64 (s.link ⟨.jecen, q⟩).dropped 1 }
    else s.link ⟨.jecen, q⟩ := by
  unfold State.caught
  by_cases h : (d.cls = 0 || d.what.waits) = true <;> simp [h]

theorem State.link_failPort (s : State) (q : Nat) : (s.failPort q).link ⟨.jecen, q⟩ = (s.link ⟨.jecen, q⟩).drops
    (s.sent.filter (fun d => d.caughtOn q && !(d.cls = 0 || d.what.waits))).length := by
  unfold State.failPort; dsimp only
  rw [State.link_sendWaiting, State.link_foldl_drops (fun s d => s.link_caught q d), List.filter_filter]
  simp only [Bool.and_comm]; rfl

/-- A link that has failed. -/
def LinkRec.failed (x : LinkRec) : LinkRec := { x with st := .failed, inside := [], flitFails := [] }

/-- A link has failed and lost the packets inside it. -/
def State.emptied (s : State) (l : Link) : State :=
  (s.link l).inside.foldl (fun (s : State) p => (if protectedPacket p then s else s.dropAt l).losePacket p)
    (s.setLink l (s.link l).failed)

theorem State.emptied_fabricFrame (s : State) (l : Link) : FabricFrame s (s.emptied l) := by
  unfold State.emptied
  refine .trans ?_ (FabricFrame.foldl (fun s p => ?_) _ _)
  · exact ⟨rfl, rfl, rfl⟩
  · refine .trans ?_ (State.losePacket_fabricFrame _ p)
    split <;> exact ⟨rfl, rfl, rfl⟩

theorem State.sent_emptied (s : State) (l : Link) : (s.emptied l).sent = s.sent := by
  refine State.foldl_keeps (·.sent) (fun s p => ?_) _ (s.setLink l _)
  obtain ⟨_, _, _, h⟩ := (if protectedPacket p then s else s.dropAt l).losePacket_parts p
  rw [h]
  split <;> rfl

theorem State.link_emptied (s : State) (l : Link) : (s.emptied l).link l =
    (s.link l).failed.drops
      ((s.link l).inside.filter (fun p => !protectedPacket p)).length := by
  unfold State.emptied
  rw [State.link_foldl_drops (p := fun p => !protectedPacket p), State.link_setLink_self]
  intro s p
  by_cases h : protectedPacket p = true <;> simp [h]

/-- How many packets and messages the failure of a link drops for good. -/
def State.failDrops (s : State) (l : Link) : Nat :=
  ((s.link l).inside.filter (fun p => !protectedPacket p)).length +
    if l.kind = .jecen then (s.sent.filter (fun d => d.caughtOn l.idx && !(d.cls = 0 || d.what.waits))).length else 0

/-- A link fails: its state, what it drops, and the entry of the error log. -/
theorem State.failLink_eq (s : State) (l : Link) : ∃ u, s.failLink l = u.logEvent .linkFailed none (linkNumber l) ∧
    FabricFrame s u ∧ u.link l = (s.link l).failed.drops (s.failDrops l) := by
  have hframe := s.emptied_fabricFrame l
  have hlink := s.link_emptied l
  obtain ⟨kind, i⟩ := l
  cases kind with
  | jecen =>
    refine ⟨(s.emptied ⟨.jecen, i⟩).failPort i, rfl, hframe.trans (State.failPort_fabricFrame _ i), ?_⟩
    rw [State.link_failPort, hlink, State.sent_emptied, LinkRec.drops_drops]; rfl
  | elevator =>
    refine ⟨(s.emptied ⟨.elevator, i⟩).replaceElevator i, rfl, hframe.trans (State.replaceElevator_fabricFrame _ i), ?_⟩
    rw [State.link_replaceElevator, hlink]; rfl
  | mesh => exact ⟨s.emptied ⟨.mesh, i⟩, rfl, hframe, hlink⟩
  | stem => exact ⟨s.emptied ⟨.stem, i⟩, rfl, hframe, hlink⟩
  | chiplet => exact ⟨s.emptied ⟨.chiplet, i⟩, rfl, hframe, hlink⟩

theorem State.failLink_result (s : State) (l : Link) : ((s.failLink l).link l).st = .failed ∧ ((s.failLink l).link l).inside = [] ∧
    ((s.link l).dropped < 2 ^ 64 → ((s.failLink l).link l).dropped = satAdd 64 (s.link l).dropped (s.failDrops l)) ∧
    { clk := s.clk, code := .linkFailed, ctx := none, place := linkNumber l } ∈ (s.failLink l).dev.log := by
  obtain ⟨u, h, hframe, hlink⟩ := s.failLink_eq l
  have hl : (s.failLink l).link l = _ := (congrArg (·.link l) h).trans hlink
  rw [hl, h, ← hframe.clk]
  obtain ⟨hst, hinside⟩ := (s.link l).failed.drops_frame (s.failDrops l)
  exact ⟨hst, hinside, fun hd => LinkRec.dropped_drops (x := (s.link l).failed) hd _, State.mem_log_logEvent _ _ _ _⟩

/-! ## Flits (R350, R352) -/

/-- A link after one more replay of a flit, at clk `now`. -/
def LinkRec.replayed (x : LinkRec) (now flit : Nat) : LinkRec :=
  { x with replays := satAdd 32 x.replays 1, flitFails := SMap.put x.flitFails flit (SMap.get 0 x.flitFails flit + 1),
           replayTimes := (now :: x.replayTimes).take 1025 }

section
variable {s : State} {l : Link} {flit : Nat} (h : (s.link l).st = .up ∨ (s.link l).st = .degraded ∨ (s.link l).st = .draining)
include h

theorem exec_flitCrcFail_passing : exec (.flitCrcFail ⟨l, flit⟩) s =
    if 8 < SMap.get 0 (s.link l).flitFails flit + 1 then .next (s.failLink l)
    else if (s.link l).st = .up && l.kind ≠ .jecen && ((s.link l).replayed s.clk flit).worn s.clk then
      .next (s.setLink l { (s.link l).replayed s.clk flit with st := .degraded })
    else .next (s.setLink l ((s.link l).replayed s.clk flit)) := by
  rw [exec_flitCrcFail, execFlitCrcFail]
  exact if_neg (by simp [LinkState.passes_iff.2 h])

theorem exec_flitCrcFail_replayed (hfails : SMap.get 0 (s.link l).flitFails flit + 1 ≤ 8)
    (hst : (s.link l).st ≠ .up ∨ l.kind = .jecen ∨ ((s.link l).replayed s.clk flit).worn s.clk = false) :
    exec (.flitCrcFail ⟨l, flit⟩) s = .next (s.setLink l ((s.link l).replayed s.clk flit)) := by
  rw [exec_flitCrcFail_passing h, if_neg (Nat.not_lt.2 hfails), if_neg]
  rcases hst with hst | hst | hst <;> simp [hst]

theorem exec_flitCrcFail_worn (hfails : SMap.get 0 (s.link l).flitFails flit + 1 ≤ 8) (hup : (s.link l).st = .up)
    (hkind : l.kind ≠ .jecen) (hworn : ((s.link l).replayed s.clk flit).worn s.clk = true) :
    exec (.flitCrcFail ⟨l, flit⟩) s = .next (s.setLink l { (s.link l).replayed s.clk flit with st := .degraded }) := by
  rw [exec_flitCrcFail_passing h, if_neg (Nat.not_lt.2 hfails), if_pos (by simp [hup, hkind, hworn])]

/-- The failure of its eighth replay in a row fails the link. -/
theorem exec_flitCrcFail_eighth (hfails : 8 < SMap.get 0 (s.link l).flitFails flit + 1) :
    exec (.flitCrcFail ⟨l, flit⟩) s = .next (s.failLink l) := by
  rw [exec_flitCrcFail_passing h, if_pos hfails]

end

/-! ## Lanes and training (R324, R352) -/

/-- Whether a thing handed to the fabric is a remote element of a copy that is out by a port. -/
def Departure.elementBy (d : Departure) (q : Nat) : Bool :=
  d.port = some q && (match d.what with | .element _ _ _ _ _ _ _ _ _ => true | _ => false)

theorem State.loseElements_eq (s : State) (q : Nat) : s.loseElements q = (s.sent.filter (·.elementBy q)).foldl
    (fun (s : State) d => s.loseSent d.what) { s with sent := s.sent.filter (fun d => !d.elementBy q) } := rfl

theorem State.agenda_loseSent (s : State) (w : Sent) : (s.loseSent w).agenda = s.agenda ++ (w.lost.map Move.event).toList := by
  unfold State.loseSent
  cases w.lost with
  | none => exact (List.append_nil _).symm
  | some i => rfl

/-- What is lost is told by an event each. -/
theorem State.agenda_foldl_loseSent (ds : List Departure) (s : State) : (ds.foldl (fun (s : State) d => s.loseSent d.what) s).agenda =
    s.agenda ++ ds.flatMap (fun d => (d.what.lost.map Move.event).toList) := by
  induction ds generalizing s with
  | nil => exact (List.append_nil _).symm
  | cons d ds ih => rw [List.foldl_cons, ih, State.agenda_loseSent, List.append_assoc]; rfl

theorem State.sent_loseElements (s : State) (q : Nat) : (s.loseElements q).sent = s.sent.filter (fun d => !d.elementBy q) := by
  rw [State.loseElements_eq]
  refine State.foldl_keeps (·.sent) (fun s d => ?_) _ _
  obtain ⟨_, h⟩ := s.loseSent_frame d.what
  rw [h]

section
variable {s : State} {q : Nat} {d : Departure} {serial va data : Word} {ctx size elem tile seq : Nat} {write : Bool}

theorem Departure.elementBy_of_element (hwhat : d.what = .element serial ctx write va size elem data tile seq) :
    d.elementBy q = decide (d.port = some q) := by
  simp [Departure.elementBy, hwhat]

/-- No remote element is out any longer by a port that has left the state up. -/
theorem State.port_of_mem_loseElements (hd : d ∈ (s.loseElements q).sent)
    (hwhat : d.what = .element serial ctx write va size elem data tile seq) : d.port ≠ some q := by
  rw [State.sent_loseElements, List.mem_filter, Departure.elementBy_of_element hwhat] at hd
  simpa using hd.2

/-- The copy of each that was out by it learns of the loss. -/
theorem State.mem_agenda_loseElements (hd : d ∈ s.sent) (hport : d.port = some q)
    (hwhat : d.what = .element serial ctx write va size elem data tile seq) :
    .event (.copyRemoteElement { tile := tile, seq := seq, elem := elem, outcome := .lost, data := 0 }) ∈ (s.loseElements q).agenda := by
  rw [State.loseElements_eq, State.agenda_foldl_loseSent]
  refine List.mem_append_right _ (List.mem_flatMap.2 ⟨d, List.mem_filter.2 ⟨hd, ?_⟩, ?_⟩)
  · rw [Departure.elementBy_of_element hwhat, decide_eq_true hport]
  · simp [hwhat, Sent.lost]

end

section
variable {s : State}

theorem exec_jecenLaneLost_one {port : Nat} (hup : (s.link ⟨.jecen, port⟩).st = .up) (hlanes : (s.link ⟨.jecen, port⟩).lanes = 2) :
    exec (.jecenLaneLost port) s = .next ((s.setLink ⟨.jecen, port⟩
      { s.link ⟨.jecen, port⟩ with lanes := 1, st := .degraded }).loseElements port) := by
  rw [exec_jecenLaneLost, execJecenLaneLost]
  simp [hup, hlanes, LinkState.passes, LinkState.carries]

theorem exec_jecenLaneLost_last {l : Link} (hst : (s.link l).st = .up ∨ (s.link l).st = .degraded ∨ (s.link l).st = .draining)
    (hkind : l.kind = .jecen) (hlanes : (s.link l).lanes ≤ 1) :
    exec (.jecenLaneLost l.idx) s = .next ((s.setLink l { s.link l with lanes := 0 }).failLink l) := by
  obtain ⟨kind, i⟩ := l
  obtain rfl : kind = .jecen := hkind
  have hzero : (s.link ⟨.jecen, i⟩).lanes - 1 = 0 := by omega
  rw [exec_jecenLaneLost, execJecenLaneLost]
  simp [LinkState.passes_iff.2 hst, hzero]

theorem exec_jecenLaneRestored_degraded {port : Nat} (h : (s.link ⟨.jecen, port⟩).st = .degraded) :
    exec (.jecenLaneRestored port) s = .next (s.setLink ⟨.jecen, port⟩ { s.link ⟨.jecen, port⟩ with st := .up, lanes := 2 }) := by
  rw [exec_jecenLaneRestored, execJecenLaneRestored]
  exact congrArg _ (if_pos h)

variable {l : Link}

theorem exec_trainingComplete_trained {lanes : Nat} (h : (s.link l).st = .training) (hlanes : lanes ≠ 0) :
    exec (.trainingComplete l lanes) s = .next (s.setLink l
      { s.link l with trainFails := 0, flitFails := [], lanes := min lanes 2,
                      st := if l.kind = .jecen && lanes = 1 then .degraded else .up }) := by
  rw [exec_trainingComplete, execTrainingComplete, State.trainEnd]
  exact congrArg _ ((if_neg (not_not.2 h)).trans (if_neg hlanes))

theorem exec_trainingComplete_third (h : (s.link l).st = .training) (hfails : 2 ≤ (s.link l).trainFails) :
    exec (.trainingComplete l 0) s =
      .next ((s.setLink l { s.link l with trainFails := (s.link l).trainFails + 1 }).failLink l) := by
  rw [exec_trainingComplete, execTrainingComplete, State.trainEnd]
  exact congrArg _ (((if_neg (not_not.2 h)).trans (if_pos rfl)).trans (if_pos (Nat.succ_le_succ hfails)))

/-! ## Drains (R351, R354) -/

theorem State.linkHolds_iff : s.linkHolds l = true ↔
    (s.link l).inside ≠ [] ∨ l.kind = .jecen ∧ ∃ d ∈ s.sent, d.port = some l.idx ∧ d.passed = false := by
  simp [State.linkHolds]

theorem exec_linkDrainComplete_empty (h : (s.link l).st = .draining) (hholds : s.linkHolds l = false) (havoided : s.avoided l = true) :
    exec (.linkDrainComplete l) s = .next (s.setLink l { s.link l with st := .retired }) := by
  rw [exec_linkDrainComplete, execLinkDrainComplete]
  exact congrArg _ (if_pos (by simp [h, hholds, havoided]))

theorem exec_linkDrainTimeout_late (h : (s.link l).st = .draining) (hholds : s.linkHolds l = true)
    (hlate : (s.link l).drainFrom + 12500 ≤ s.clk) : exec (.linkDrainTimeout l) s = .next (s.failLink l) := by
  rw [exec_linkDrainTimeout, execLinkDrainTimeout]
  exact congrArg _ (if_pos (by simp [h, hholds, hlate]))

/-! ## Tables (R353) -/

theorem State.setRoute_fabric (s : State) (n dest : Nat) (via : Link) : (s.setRoute n dest via).mem = s.mem ∧
    (s.setRoute n dest via).routes = SMap.put s.routes (n * Config.nDests + dest) via := by
  unfold State.setRoute; dsimp only
  split
  · exact ⟨(State.drainLink_fabricFrame _ _).mem, (State.drainLink_fabricFrame _ _).routes⟩
  · exact ⟨rfl, rfl⟩

/-- A node's table names the link that was put there. -/
theorem State.route_of_put {n dest : Nat} {via : Link} {m : SMap Link} (h : s.routes = SMap.put m (n * Config.nDests + dest) via) :
    s.route n dest = via := by
  rw [State.route, h, SMap.find?_put_self]

theorem exec_routeTableUpdate_route {n dest : Nat} {via : Link} (hn : n < Config.chipNode) (hdest : dest < Config.chipBase)
    (hdie : dest ≠ Config.controlDie) (hjoins : linkJoins via n = true) (hstem : via.kind ≠ .stem) (hjecen : via.kind ≠ .jecen)
    (hst : (s.link via).st = .up ∨ (s.link via).st = .degraded) :
    exec (.routeTableUpdate n dest [via]) s = .next (s.setRoute n dest via).retireFailed := by
  rw [exec_routeTableUpdate, execRouteTableUpdate, if_neg (Nat.ne_of_lt hn)]
  simp [Nat.not_lt.2 (Nat.le_of_lt hn), State.usable, LinkState.carries_iff.2 hst, hdie, hdest, hjoins, hstem, hjecen]

theorem exec_routeTableUpdate_elevator {n : Nat} {via : Link} (hn : n < Config.nTiles) (hkind : via.kind = .elevator)
    (hbed : via.idx / 32 = n / 128) (hup : (s.link via).st = .up) :
    exec (.routeTableUpdate n Config.controlDie [via]) s =
      .next (State.retireFailed { s with elevators := SMap.put s.elevators n via.idx }) := by
  have hnode : n < Config.chipNode := by unfold Config.nTiles at hn; unfold Config.chipNode; omega
  rw [exec_routeTableUpdate, execRouteTableUpdate, if_neg (Nat.ne_of_lt hnode)]
  simp [Nat.not_lt.2 (Nat.le_of_lt hnode), State.usable, LinkState.carries_iff.2 (.inl hup), hn, hkind, hbed]

end

/-! ## What the host asks of a link (R352 to R354, R383) -/

section
variable {s : State} {q : Request} {l : Link}

theorem State.manage_enable (h : (s.link l).allows s.clk l 0 = true) : s.manage l 0 = s.enableLink l := if_neg (by simp [h])

theorem State.manage_retire (h : (s.link l).allows s.clk l 1 = true) : s.manage l 1 = s.drainLink l := if_neg (by simp [h])

theorem State.manage_retrain (h : (s.link l).allows s.clk l 2 = true) : s.manage l 2 = s.retrainLink l := if_neg (by simp [h])

variable (hrsv : q.rsv = 0) (hlink : linkOf (q.word 1) = some l)
include hrsv hlink

theorem linkRequest_allowed {act : Nat} (hport : act ≠ 2 ∨ l.kind = .jecen)
    (h : ((taken s).link l).allows (taken s).clk l act = true) :
    linkRequest q act s = .next (answered s 0x10 q 0 0 ((taken s).manage l act)) := by
  refine runRequest_answer hrsv ?_
  simp only [hlink]
  rw [if_neg (by rcases hport with h | h <;> simp [h]), if_pos h]; rfl

theorem exec_linkEnable_down (h : ((taken s).link l).st = .down) : exec (.linkEnable q) s =
    .next (answered s 0x10 q 0 0 ((taken s).modLink l (fun x => { x with st := .training, trainFails := 0 }))) := by
  have hallows : ((taken s).link l).allows (taken s).clk l 0 = true := by simp [LinkRec.allows, h]
  rw [exec_linkEnable, execLinkEnable, linkRequest_allowed hrsv hlink (.inl (by decide)) hallows, State.manage_enable hallows]; rfl

theorem exec_linkRetire_carrying (h : ((taken s).link l).st = .up ∨ ((taken s).link l).st = .degraded) : exec (.linkRetire q) s =
    .next (answered s 0x10 q 0 0 ((taken s).drainLink l)) := by
  have hallows : ((taken s).link l).allows (taken s).clk l 1 = true := by simpa [LinkRec.allows] using h
  rw [exec_linkRetire, execLinkRetire, linkRequest_allowed hrsv hlink (.inl (by decide)) hallows, State.manage_retire hallows]

theorem exec_linkRetrain_first (hkind : l.kind = .jecen) (h : ((taken s).link l).st = .failed)
    (hretrains : ((taken s).link l).retrains = []) : exec (.linkRetrain q) s =
      .next (answered s 0x10 q 0 0 ((taken s).modLink l (fun x =>
        { x with st := .training, trainFails := 0, retrains := [(taken s).clk] }))) := by
  have hrecent : ((taken s).link l).recent (taken s).clk = [] := by simp [LinkRec.recent, hretrains]
  have hallows : ((taken s).link l).allows (taken s).clk l 2 = true := by simp [LinkRec.allows, hkind, h, hrecent]
  rw [exec_linkRetrain, execLinkRetrain, linkRequest_allowed hrsv hlink (.inr hkind) hallows, State.manage_retrain hallows]
  simp only [State.retrainLink, State.modLink, hrecent, List.nil_append]

end

/-- A link that starts to drain; a port that leaves the state up loses the remote elements that are out by it. -/
theorem State.drainLink_other {s : State} {l : Link} (h : l.kind ≠ .elevator) : s.drainLink l =
    if l.kind = .jecen ∧ (s.link l).st = .up then
      (s.modLink l (fun x => { x with st := .draining, drainFrom := s.clk })).loseElements l.idx
    else s.modLink l (fun x => { x with st := .draining, drainFrom := s.clk }) := by
  unfold State.drainLink; dsimp only
  cases hkind : l.kind with
  | elevator => exact absurd hkind h
  | jecen => simp
  | mesh => simp
  | stem => simp
  | chiplet => simp

theorem State.drainLink_elevator {s : State} {l : Link} (h : l.kind = .elevator) : s.drainLink l =
    (s.modLink l (fun x => { x with st := .draining, drainFrom := s.clk })).replaceElevator l.idx := by
  unfold State.drainLink; dsimp only
  rw [h]

/-- Settles O53, in the order of its clauses: where a packet comes to, what becomes of it at a node, what a loss costs, the events of a
link, the updates of the tables, and the host's requests. -/
theorem linkResults : Obligations.LinkResults := by
  unfold Obligations.LinkResults
  intro s p l via port n dest lanes flit q x j y lost fails w passes b z
  refine ⟨State.received_entering, State.entersAt_router, State.entersAt_controlDie, fun y => State.received_stalled,
    fun a => linkLeads_chiplet, fun y hheld => ⟨fun hleads htaken => ?_, fun hnot => ?_⟩, State.linkJoins_nextLink,
    exec_packetArrival_none, fun g hg => ?_, ⟨rfl, State.mem_log_logEvent _ _ _ _⟩,
    ⟨s.link_dropAt_self l, State.mem_log_logEvent _ _ _ _⟩, State.mem_resend_losePacket, State.losePacket_unprotected,
    ⟨_, rfl, ?_, rfl, fun g => exec_protectedResend_mem⟩, exec_flitCrcFail_replayed, exec_flitCrcFail_worn,
    exec_flitCrcFail_eighth, s.failLink_result l, ⟨?_, ?_⟩, exec_jecenLaneLost_one, exec_jecenLaneLost_last,
    exec_jecenLaneRestored_degraded, exec_trainingComplete_trained, exec_trainingComplete_third, State.linkHolds_iff, exec_linkDrainComplete_empty,
    exec_linkDrainTimeout_late, ?_, ?_, exec_linkEnable_down, ?_, ?_, exec_linkRetrain_first⟩
  · rw [State.received_held hheld, if_pos (by simp [hleads, htaken])]
  · rw [State.received_held hheld, if_neg]
    rcases hnot with hleads | htaken
    · simp [hleads]
    · simp [takenAt_eq_false.2 htaken]
  · rw [exec_packetArrival_some hg]
    refine ⟨fun h => ⟨congrArg _ (State.routePacket_dest h), State.deliver_duplicate⟩,
      fun h hfar => congrArg _ (State.routePacket_far h hfar),
      fun h hhops => ⟨fun hnext hp => ?_, fun hnext hp => ?_, fun hnext hst => congrArg _ (State.routePacket_enters h hhops hnext hst),
        fun hnext hst => congrArg _ (State.routePacket_waits h hhops hnext hst), fun hnext hst hp => ?_, fun hnext hst hp => ?_⟩⟩
    · rw [State.routePacket_noRoute h hhops hnext, if_pos hp]; rfl
    · rw [State.routePacket_noRoute h hhops hnext, if_neg (by simp [hp])]; rfl
    · rw [State.routePacket_refused h hhops hnext hst, if_pos hp]; rfl
    · rw [State.routePacket_refused h hhops hnext hst, if_neg (by simp [hp])]; rfl
  · exact fun k hk => by simpa using (List.mem_filter.1 hk).2
  · exact fun d hd a b c e f g i k m hwhat => State.port_of_mem_loseElements hd hwhat
  · exact fun d hd a b c e f elem i tile seq hport hwhat => State.mem_agenda_loseElements hd hport hwhat
  · intro hn hdest hdie hjoins hstem hjecen hst
    obtain ⟨hmem, hroutes⟩ := s.setRoute_fabric n dest via
    exact ⟨_, exec_routeTableUpdate_route hn hdest hdie hjoins hstem hjecen hst, State.route_of_put hroutes, hmem⟩
  · exact fun hn hkind hbed hup => ⟨_, exec_routeTableUpdate_elevator hn hkind hbed hup, SMap.get_put_self _ _ _ _, rfl⟩
  · exact fun hrsv hlink hst hkind => (exec_linkRetire_carrying hrsv hlink hst).trans (by rw [State.drainLink_other hkind])
  · exact fun hrsv hlink hst hkind => (exec_linkRetire_carrying hrsv hlink hst).trans (by rw [State.drainLink_elevator hkind])

end Sys2Proof.Machine
end

section
/-! The vector commands that compute with numbers (R264, R265, R272 to R275): what each writes where its conditions hold. -/

namespace Sys2Proof.Machine

open Sys2Proof.Claims

section
variable {op : Nat} {c : Cmd} {s : State} {r : Run}

/-- The checks of a register-form command pass where its conditions hold (R264). -/
theorem vChecks_ok {f : VForm} (h : VectorReady op f c s r) : vChecks f c s = .ok () s := by
  obtain ⟨_, hreserved, ⟨hvl, hend⟩, hnamed, haux, _⟩ := h
  have hrange : vRangeBad f.size c = false := by simpa [vRangeBad, hvl] using hend
  simp [vChecks, M.bind_run, need_run, checkReserved_ok hreserved, hrange, hnamed, haux]

/-- A command whose body has its whole effect is finished. -/
theorem runCommand_whole {body : Run → M Bool} {t : State} (h : CanStart op c s r) (hb : body r s = .ok true t) :
    runCommand op c body s = .next (finished r t) := by
  rw [runCommand_ok h hb, if_pos rfl]

theorem vBinary_ok {f : Nat → Nat → Nat} (h : VectorReady op (binForm c) c s r) : vBinary op c f s =
    .next (finished r (s.modTc r.t (fun k => k.putV c (vBits c) (fun i => f (srcA k c i) (srcB k c i))))) :=
  runVector_ok h

theorem vUnary_ok {f : Nat → Nat} (h : VectorReady op (unForm c) c s r) : vUnary op c f s =
    .next (finished r (s.modTc r.t (fun k => k.putV c (vBits c) (fun i => f (srcA k c i))))) :=
  runVector_ok h

theorem vFloat_ok {f : Fl → Fl → Fl} (h : VectorReady 0x67 (binForm c) c s r) : vFloat c f s =
    .next (finished r (s.modTc r.t (fun k => k.putV c (vBits c) (fun i => roundReal (cmdFormat c)
      (f (ofElem (cmdFormat c) (srcA k c i)) (ofElem (cmdFormat c) (srcB k c i))))))) :=
  vBinary_ok h

theorem vFused_ok {minus : Bool} (h : VectorReady 0x67 { binForm c with s3 := true } c s r) : vFused c minus s =
    .next (finished r (s.modTc r.t (fun k => k.putV c (vBits c) (fun i => roundReal (cmdFormat c)
      (((ofElem (cmdFormat c) (srcA k c i)).mul (ofElem (cmdFormat c) (srcB k c i))).add false
        (if minus then (ofElem (cmdFormat c) (srcC k c i)).neg else ofElem (cmdFormat c) (srcC k c i))))))) :=
  runVector_ok h

theorem vDequant_ok {fmt : Nat} (h : VectorReady 0x68 (quantForm c 0 false) c s r) : vDequant c fmt s =
    .next (finished r (s.modTc r.t (fun k => k.putV c 32 (fun i =>
      product (ofElem fmt (elemAt (k.vreg (vVs1 c)) 8 i)) (.fin false 1 0) (scaleExp (qScale k c i)))))) :=
  runVector_ok h

/-- A quantising command converts with the scales that it derives, unless they would stand in its destination (R264, R274). -/
theorem vQuant_ok {tmax : Nat} {g : Nat → TileCtx → TileCtx → TileCtx} (h : VectorReady 0x68 (quantForm c tmax (vS c)) c s r)
    (hapart : ¬ (vS c = true ∧ vVd c = vVs2 c)) : vQuant c tmax g s =
      .next (finished r (s.modTc r.t (fun k => g r.e.seq k (k.deriveScales c)))) := by
  have hneed : (!(vS c && decide (vVd c = vVs2 c))) = true := by simpa [not_and_or, -not_and] using hapart
  have ⟨hstart, _, _, _, _, hfree⟩ := h
  refine runCommand_whole hstart ?_
  rw [M.bind_ok (vChecks_ok h), hneed, M.bind_ok (need_run true _ s), M.bind_ok (begin_none (only_of_canStart hstart) hfree)]
  rfl

/-- `vcvt` from a format of R273's list: the size limit counts it at its size (R265). -/
theorem execVcvt_ok (hlist : vAux c ∈ [0, 1, 2, 3, 4, 8, 9, 10])
    (h : VectorReady 0x68 { unForm c with size := max (elemSize (cmdFormat c)) (elemSize (vAux c)), auxOk := true } c s r) :
    execVcvt c s = .next (finished r (s.modTc r.t (fun k => k.putDrawn c r.e.seq (vBits c) (fun i g =>
      convertElem (vAux c) (cmdFormat c) (vW c) (elemAt (k.vreg (vVs1 c)) (8 * elemSize (vAux c)) i) g)))) := by
  have hok : [0, 1, 2, 3, 4, 8, 9, 10].contains (vAux c) = true := List.contains_iff_mem.2 hlist
  simp only [execVcvt, hok, if_true]
  exact runCommand_whole h.1 (vBody_ok h)

end

/-- Settles O42, family by family: each command by the fact about the form that it shares. -/
theorem vectorFloatResults : Obligations.VectorFloatResults := by
  unfold Obligations.VectorFloatResults
  intro s c r fmt v put two fused dequant formats sf
  exact ⟨
    fun h => ⟨(exec_vfadd c s).trans (vFloat_ok h), (exec_vfsub c s).trans (vFloat_ok h), (exec_vfmul c s).trans (vFloat_ok h),
      (exec_vfmin c s).trans (vFloat_ok h), (exec_vfmax c s).trans (vFloat_ok h)⟩,
    fun h => ⟨(exec_vfma c s).trans (vFused_ok h), (exec_vfms c s).trans (vFused_ok h)⟩,
    fun h => ⟨(exec_vfabs c s).trans (vUnary_ok h), (exec_vfneg c s).trans (vUnary_ok h)⟩,
    fun h hapart => (exec_vqm8 c s).trans (vQuant_ok h hapart),
    fun h hapart => (exec_vqi8 c s).trans (vQuant_ok h hapart),
    fun h => ⟨(exec_vdqm8 c s).trans (vDequant_ok h), (exec_vdqi8 c s).trans (vDequant_ok h)⟩,
    fun hlist h => (exec_vcvt c s).trans (execVcvt_ok hlist h)⟩

end Sys2Proof.Machine
end

section
/-! Fields of words, and that the decoder gives back what was encoded (R51 to R65, R379). -/

namespace Sys2Proof

/-! ## Fields of joined words -/

theorem field_eq_bits {m : Nat} (w : BitVec m) (lo n : Nat) : field w lo n = (bits w lo n).toNat := by
  simp [field, bits]

@[simp] theorem bits_all {m : Nat} (a : BitVec m) : bits a 0 m = a := BitVec.extractLsb'_eq_self

theorem bits_append_low {m k : Nat} (a : BitVec m) (b : BitVec k) (lo n : Nat) (h : lo + n ≤ k) :
    bits (a ++ b) lo n = bits b lo n := BitVec.extractLsb'_append_eq_of_add_le h

theorem bits_append_high {m k : Nat} (a : BitVec m) (b : BitVec k) (lo n : Nat) (h : k ≤ lo) :
    bits (a ++ b) lo n = bits a (lo - k) n := BitVec.extractLsb'_append_eq_of_le h

/-- Two fields side by side are one field. -/
theorem bits_append_bits {m : Nat} (a : BitVec m) (lo n k j : Nat) (h : j = lo + n) :
    bits a j k ++ bits a lo n = bits a lo (k + n) := by
  subst h
  refine BitVec.eq_of_getLsbD_eq fun i hi => ?_
  simp only [bits, BitVec.getLsbD_append, BitVec.getLsbD_extractLsb']
  by_cases hn : i < n
  · simp [hn, hi]
  · rw [if_neg hn, show lo + n + (i - n) = lo + i by omega]
    simp [hi, show i - n < k by omega]

/-- A queue is q0, q1 or q2 (R55). -/
theorem toNat_queue_le {q : BitVec 2} (h : q ≠ 3) : q.toNat ≤ 2 := by
  have := q.isLt
  have : q.toNat ≠ 3 := fun e => h (BitVec.eq_of_toNat_eq e)
  omega

theorem eight_or_toNat (q : BitVec 3) : 8 ||| q.toNat = 8 + q.toNat := by revert q; decide

/-- There are seven timelines (R113). -/
theorem toNat_timeline_lt {x : BitVec 3} (h : x ≠ 7) : x.toNat < 7 := by
  have := x.isLt
  have : x.toNat ≠ 7 := fun e => h (BitVec.eq_of_toNat_eq e)
  omega

/-! ## The layouts of hart words (R53) -/

section
variable (f7 : BitVec 7) (imm : BitVec 12) (imm20 : BitVec 20) (rs3 rs2 rs1 rd : Reg) (f2 : BitVec 2) (f3 : BitVec 3) (opc : BitVec 7)

/-- R layout: its fields, and the low parts of rd and rs2. -/
@[simp] theorem bits_encR :
    bits (encR f7 rs2 rs1 f3 rd opc) 0 7 = opc ∧ bits (encR f7 rs2 rs1 f3 rd opc) 12 3 = f3 ∧
    bits (encR f7 rs2 rs1 f3 rd opc) 15 5 = rs1 ∧
    (∀ n, n ≤ 5 → bits (encR f7 rs2 rs1 f3 rd opc) 7 n = bits rd 0 n) ∧
    (∀ n, n ≤ 5 → bits (encR f7 rs2 rs1 f3 rd opc) 20 n = bits rs2 0 n) ∧
    (∀ lo n, 25 ≤ lo → bits (encR f7 rs2 rs1 f3 rd opc) lo n = bits f7 (lo - 25) n) := by
  unfold encR
  refine ⟨?_, ?_, ?_, fun n h => ?_, fun n h => ?_, fun lo n h => ?_⟩
  case refine_6 => simp (disch := omega) [bits_append_high, -Nat.reduceAdd]; rfl
  all_goals simp (disch := omega) [bits_append_low, bits_append_high, -Nat.reduceAdd]

/-- I layout: its fields, and the low parts of rd and parts of the immediate. -/
@[simp] theorem bits_encI :
    bits (encI imm rs1 f3 rd opc) 0 7 = opc ∧ bits (encI imm rs1 f3 rd opc) 12 3 = f3 ∧
    bits (encI imm rs1 f3 rd opc) 15 5 = rs1 ∧
    (∀ n, n ≤ 5 → bits (encI imm rs1 f3 rd opc) 7 n = bits rd 0 n) ∧
    (∀ lo n, 20 ≤ lo → bits (encI imm rs1 f3 rd opc) lo n = bits imm (lo - 20) n) := by
  unfold encI
  refine ⟨?_, ?_, ?_, fun n h => ?_, fun lo n h => ?_⟩
  case refine_5 => simp (disch := omega) [bits_append_high, -Nat.reduceAdd]; rfl
  all_goals simp (disch := omega) [bits_append_low, bits_append_high, -Nat.reduceAdd]

/-- S layout: its fields, and the immediate that the two of them make. -/
@[simp] theorem bits_encS :
    bits (encS imm rs2 rs1 f3 opc) 0 7 = opc ∧ bits (encS imm rs2 rs1 f3 opc) 12 3 = f3 ∧
    bits (encS imm rs2 rs1 f3 opc) 15 5 = rs1 ∧ bits (encS imm rs2 rs1 f3 opc) 20 5 = rs2 ∧
    immS (encS imm rs2 rs1 f3 opc) = imm := by
  unfold encS immS
  refine ⟨?_, ?_, ?_, ?_, ?_⟩ <;>
    simp (disch := omega) [bits_append_low, bits_append_high, bits_append_bits, -Nat.reduceAdd]

/-- U layout. -/
@[simp] theorem bits_encU :
    bits (encU imm20 rd opc) 0 7 = opc ∧ bits (encU imm20 rd opc) 7 5 = rd ∧ bits (encU imm20 rd opc) 12 20 = imm20 := by
  unfold encU
  refine ⟨?_, ?_, ?_⟩ <;> simp (disch := omega) [bits_append_low, bits_append_high, -Nat.reduceAdd]

/-- RS3 layout. -/
@[simp] theorem bits_encRS3 :
    bits (encRS3 rs3 f2 rs2 rs1 f3 rd opc) 0 7 = opc ∧ bits (encRS3 rs3 f2 rs2 rs1 f3 rd opc) 7 5 = rd ∧
    bits (encRS3 rs3 f2 rs2 rs1 f3 rd opc) 12 3 = f3 ∧ bits (encRS3 rs3 f2 rs2 rs1 f3 rd opc) 15 5 = rs1 ∧
    bits (encRS3 rs3 f2 rs2 rs1 f3 rd opc) 20 5 = rs2 ∧ bits (encRS3 rs3 f2 rs2 rs1 f3 rd opc) 25 2 = f2 ∧
    bits (encRS3 rs3 f2 rs2 rs1 f3 rd opc) 27 5 = rs3 := by
  unfold encRS3
  refine ⟨?_, ?_, ?_, ?_, ?_, ?_, ?_⟩ <;> simp (disch := omega) [bits_append_low, bits_append_high, -Nat.reduceAdd]

/-- The word of `jal`. -/
theorem bits_encodeBase_jal :
    bits (encodeBase (.jal rd imm20)) 0 7 = 0x6F ∧ bits (encodeBase (.jal rd imm20)) 7 5 = rd ∧
    immJ (encodeBase (.jal rd imm20)) = imm20 := by
  unfold encodeBase immJ
  refine ⟨?_, ?_, ?_⟩ <;> simp (disch := omega) [bits_append_low, bits_append_high, bits_append_bits, -Nat.reduceAdd]

/-- The word of a branch. -/
theorem bits_encodeBase_branch (op : BranchOp) :
    let w := encodeBase (.branch op rs1 rs2 imm)
    bits w 0 7 = 0x63 ∧ bits w 12 3 = encBranch op ∧ bits w 15 5 = rs1 ∧ bits w 20 5 = rs2 ∧ immB w = imm := by
  intro w
  simp only [w]
  unfold encodeBase immB
  refine ⟨?_, ?_, ?_, ?_, ?_⟩ <;>
    simp (disch := omega) [bits_append_low, bits_append_high, bits_append_bits, -Nat.reduceAdd]

/-- The word of a 64-bit shift by an immediate. -/
theorem bits_encodeBase_shiftImm (op : ShiftOp) (sh : BitVec 6) :
    let w := encodeBase (.shiftImm op rd rs1 sh)
    bits w 0 7 = 0x13 ∧ bits w 7 5 = rd ∧ bits w 12 3 = (encShift op).1 ∧ bits w 15 5 = rs1 ∧ bits w 20 6 = sh ∧
      bits w 26 6 = bits (encShift op).2 1 6 := by
  intro w
  simp only [w]
  unfold encodeBase
  refine ⟨?_, ?_, ?_, ?_, ?_, ?_⟩ <;>
    simp (disch := omega) [bits_append_low, bits_append_high, -Nat.reduceAdd]

end

/-! ## The hart decoder -/

theorem csrOf_encCsr (c : CsrOp) : csrOf (encCsr c) = some c := by
  obtain ⟨kind, imm, rd, src, csr⟩ := c
  cases kind <;> cases imm <;> simp [csrOf, encCsr, field_eq_bits]

theorem decodeWord_encCsr (c : CsrOp) (lit : Word32) : decodeWord (encCsr c) lit = some (
    if c.writes then (if c.csr = 0x8C0#12 then .rndtileWrite c else .csrWrite c) else .baseInstruction (.csrRead c)) := by
  have hop : field (encCsr c) 0 7 = 0x73 := by simp [encCsr, field_eq_bits]
  have hf3 : field (encCsr c) 12 3 ≠ 0 := by
    obtain ⟨kind, imm, rd, src, csr⟩ := c
    cases kind <;> cases imm <;> simp [encCsr, field_eq_bits]
  simp [decodeWord, hop, systemOf, hf3, csrOf_encCsr]

/-- The standard subset. -/
theorem decodeWord_encodeBase (b : Base) (hb : b.wf = true) (lit : Word32) :
    decodeWord (encodeBase b) lit = some (.baseInstruction b) := by
  cases b with
  | lui rd imm => simp [encodeBase, decodeWord, field_eq_bits]
  | auipc rd imm => simp [encodeBase, decodeWord, field_eq_bits]
  | jal rd off => simp [decodeWord, field_eq_bits, bits_encodeBase_jal]
  | jalr rd rs1 imm => simp [encodeBase, decodeWord, field_eq_bits]
  | branch op rs1 rs2 off => cases op <;> simp [decodeWord, field_eq_bits, bits_encodeBase_branch, encBranch, branchOf]
  | opImm op rd rs1 imm => cases op <;> simp [encodeBase, decodeWord, field_eq_bits, opImmOf, encImmOp]
  | shiftImm op rd rs1 sh =>
    have hlogical : bits 0#7 1 6 = 0#6 := rfl
    have harithmetic : bits 32#7 1 6 = 16#6 := rfl
    cases op <;> simp [decodeWord, field_eq_bits, opImmOf, bits_encodeBase_shiftImm, encShift, hlogical, harithmetic]
  | addiw rd rs1 imm => simp [encodeBase, decodeWord, field_eq_bits, opImmWOf]
  | shiftImmW op rd rs1 sh => cases op <;> simp [encodeBase, decodeWord, field_eq_bits, opImmWOf, encShift]
  | alu op rd rs1 rs2 => cases op <;> simp [encodeBase, decodeWord, field_eq_bits, encAlu, aluOf]
  | aluW op rd rs1 rs2 => cases op <;> simp [encodeBase, decodeWord, field_eq_bits, encAluW, aluWOf]
  | fma op rd rs1 rs2 rs3 rm =>
    have hrm : rmOk rm = true := hb
    cases op <;> simp [encodeBase, decodeWord, field_eq_bits, encFma, fmaOf, hrm]
  | farith op rd rs1 rs2 rm =>
    have hrm : rmOk rm = true := hb
    cases op <;> simp [encodeBase, decodeWord, field_eq_bits, encFArith, fpOf, hrm]
  | fsqrt rd rs1 rm =>
    have hrm : rmOk rm = true := hb
    simp [encodeBase, decodeWord, field_eq_bits, fpOf, hrm]
  | fsgn op rd rs1 rs2 => cases op <;> simp [encodeBase, decodeWord, field_eq_bits, encFSgn, fpOf]
  | fminmax max rd rs1 rs2 => cases max <;> simp [encodeBase, decodeWord, field_eq_bits, fpOf]
  | fcmp op rd rs1 rs2 => cases op <;> simp [encodeBase, decodeWord, field_eq_bits, encFCmp, fpOf]
  | fcvtToInt it rd rs1 rm =>
    have hrm : rmOk rm = true := hb
    cases it <;> simp [encodeBase, decodeWord, field_eq_bits, encFInt, fpOf, fintOf, hrm]
  | fcvtFromInt it rd rs1 rm =>
    have hrm : rmOk rm = true := hb
    cases it <;> simp [encodeBase, decodeWord, field_eq_bits, encFInt, fpOf, fintOf, hrm]
  | fmvXW rd rs1 => simp [encodeBase, decodeWord, field_eq_bits, fpOf]
  | fmvWX rd rs1 => simp [encodeBase, decodeWord, field_eq_bits, fpOf]
  | fclass rd rs1 => simp [encodeBase, decodeWord, field_eq_bits, fpOf]
  | csrRead c =>
    have hread : c.writes = false := by simpa [Base.wf] using hb
    rw [encodeBase, decodeWord_encCsr, hread]
    rfl
  | ecall => rfl
  | mret => rfl

/-- Every hart instruction; only `flit.s` takes the word after it. -/
theorem decodeWord_encodeHart {i : Instr} {w lit : Word32} (hi : fieldsOk i = true) (hw : encodeHart i = some w)
    (hlit : ∀ rd l, i = .flitS rd l → l = lit) (hill : ∀ x, i ≠ .illegalInstruction x) : decodeWord w lit = some i := by
  cases i with
  | fimmS rd imm => cases hw; simp [decodeWord, field_eq_bits]
  | flitS rd l => cases hw; cases hlit _ _ rfl; simp [decodeWord, custom3, field_eq_bits]
  | fconstS rd k => cases hw; simp [decodeWord, custom3, field_eq_bits, bits_append_low, bits_append_high, -Nat.reduceAdd]
  | cset c rs1 imm => cases hw; simpa [decodeWord, custom0, field_eq_bits, bits_append_low, -Nat.reduceAdd] using c.isLt
  | hld h rs1 imm => cases hw; simpa [decodeWord, custom0, field_eq_bits, bits_append_low, -Nat.reduceAdd] using h.isLt
  | qput rd q rs1 rs2 =>
    have hq := toNat_queue_le (by simpa [fieldsOk] using hi)
    cases hw; simpa [decodeWord, custom0, field_eq_bits, bits_append_low, -Nat.reduceAdd] using hq
  | qstatQ rd q =>
    have hq := toNat_queue_le (by simpa [fieldsOk] using hi)
    cases hw; simp [decodeWord, custom0, field_eq_bits, bits_append_low, -Nat.reduceAdd, hq]
  | qstatDq rd q =>
    have hlt := q.isLt
    cases hw; simp [decodeWord, custom0, field_eq_bits, bits_append_low, -Nat.reduceAdd, eight_or_toNat]
    rw [if_neg (by omega), if_pos (by omega)]
  | qsync q =>
    have hq := toNat_queue_le (by simpa [fieldsOk] using hi)
    cases hw; simpa [decodeWord, custom0, field_eq_bits, bits_append_low, -Nat.reduceAdd] using hq
  | ldf rd rs1 imm => cases hw; simp [decodeWord, custom1, field_eq_bits]
  | ldt rd rs1 imm => cases hw; simp [decodeWord, custom1, field_eq_bits]
  | stf rs1 rs2 imm => cases hw; simp [decodeWord, custom1, field_eq_bits]
  | ste rs1 rs2 imm => cases hw; simp [decodeWord, custom1, field_eq_bits]
  | ldU rd rs1 imm => cases hw; simp [decodeWord, custom1, field_eq_bits]
  | sdU rs1 rs2 imm => cases hw; simp [decodeWord, custom1, field_eq_bits]
  | maAdd rd rs1 rs2 => cases hw; simp [decodeWord, encMa, custom1, field_eq_bits]
  | maMin rd rs1 rs2 => cases hw; simp [decodeWord, encMa, custom1, field_eq_bits]
  | maMax rd rs1 rs2 => cases hw; simp [decodeWord, encMa, custom1, field_eq_bits]
  | maAnd rd rs1 rs2 => cases hw; simp [decodeWord, encMa, custom1, field_eq_bits]
  | maOr rd rs1 rs2 => cases hw; simp [decodeWord, encMa, custom1, field_eq_bits]
  | maXor rd rs1 rs2 => cases hw; simp [decodeWord, encMa, custom1, field_eq_bits]
  | maSwap rd rs1 rs2 => cases hw; simp [decodeWord, encMa, custom1, field_eq_bits]
  | maCas rd rs1 rs2 => cases hw; simp [decodeWord, encMa, custom1, field_eq_bits]
  | maIncw rd rs1 rs2 => cases hw; simp [decodeWord, encMa, custom1, field_eq_bits]
  | maFaddS rd rs1 rs2 => cases hw; simp [decodeWord, encMa, custom1, field_eq_bits]
  | maFmaxabsS rd rs1 rs2 => cases hw; simp [decodeWord, encMa, custom1, field_eq_bits]
  | maAddb rd rs1 rs2 rs3 => cases hw; simp [decodeWord, custom1, field_eq_bits]
  | tkGive t rs1 => cases hw; simpa [decodeWord, custom3, field_eq_bits, bits_append_low, -Nat.reduceAdd] using t.isLt
  | tkTake t rs1 => cases hw; simpa [decodeWord, custom3, field_eq_bits, bits_append_low, -Nat.reduceAdd] using t.isLt
  | tlWait x rs1 =>
    have hx := toNat_timeline_lt (by simpa [fieldsOk] using hi)
    cases hw; simpa [decodeWord, custom3, field_eq_bits, bits_append_low, -Nat.reduceAdd] using hx
  | tlRead rd x =>
    have hx := toNat_timeline_lt (by simpa [fieldsOk] using hi)
    cases hw; simpa [decodeWord, custom3, field_eq_bits, bits_append_low, -Nat.reduceAdd] using hx
  | fenceG n => cases hw; simp [decodeWord, custom3, field_eq_bits]
  | warm k rs1 => cases hw; simpa [decodeWord, custom3, field_eq_bits, bits_append_low, -Nat.reduceAdd] using k.isLt
  | wsleep rd => cases hw; simp [decodeWord, custom3, field_eq_bits]
  | barrArrive rd rs1 => cases hw; simp [decodeWord, custom3, field_eq_bits]
  | barrWait rd rs1 rs2 => cases hw; simp [decodeWord, custom3, field_eq_bits]
  | spawn rd rs1 rs2 => cases hw; simp [decodeWord, custom3, field_eq_bits]
  | stgTake rd => cases hw; simp [decodeWord, custom3, field_eq_bits]
  | stgDone rs1 => cases hw; simp [decodeWord, custom3, field_eq_bits]
  | kexit => cases hw; rfl
  | tret => cases hw; rfl
  | ctxYield => cases hw; rfl
  | accrd rd a rs1 => cases hw; simpa [decodeWord, custom3, field_eq_bits, bits_append_low, -Nat.reduceAdd] using a.isLt
  | vread rd vt => cases hw; simpa [decodeWord, custom3, field_eq_bits, bits_append_low, -Nat.reduceAdd] using vt.isLt
  | cpcancel rd rs1 => cases hw; simp [decodeWord, custom3, field_eq_bits]
  | rxProbe rd rs1 => cases hw; simp [decodeWord, custom3, field_eq_bits]
  | baseInstruction b => cases hw; exact decodeWord_encodeBase b hi lit
  | plainLoad op rd rs1 imm => cases hw; cases op <;> simp [decodeWord, encLoad, loadOf, field_eq_bits]
  | plainStore op rs1 rs2 imm => cases hw; cases op <;> simp [decodeWord, encStore, storeOf, field_eq_bits]
  | fence => cases hw; rfl
  | fenceI => cases hw; rfl
  | wfi => cases hw; rfl
  | ebreak => cases hw; rfl
  | csrWrite c =>
    simp only [fieldsOk, Bool.and_eq_true, decide_eq_true_eq] at hi
    cases hw; rw [decodeWord_encCsr, if_pos hi.1, if_neg hi.2]
  | rndtileWrite c =>
    simp only [fieldsOk, Bool.and_eq_true, decide_eq_true_eq] at hi
    cases hw; rw [decodeWord_encCsr, if_pos hi.1, if_pos hi.2]
  | illegalInstruction x => exact absurd rfl (hill x)
  | _ => cases hw

/-! ## Tile commands -/

theorem getLsbD_eq_bits {m : Nat} (w : BitVec m) (i : Nat) : w.getLsbD i = (bits w i 1).getLsbD 0 := by simp [bits]

/-- A field of a word's low part is one of the word. -/
theorem bits_bits {m : Nat} (w : BitVec m) (lo n k : Nat) (h : lo + n ≤ k) : bits (bits w 0 k) lo n = bits w lo n := by
  refine BitVec.eq_of_getLsbD_eq fun i hi => ?_
  simp only [bits, BitVec.getLsbD_extractLsb', Nat.zero_add, show lo + i < k by omega, decide_true, Bool.true_and]

/-- The operation and the variant of a command word. -/
theorem bits_bitsOfCmd (op : BitVec 8) (c : Cmd) : bits (bitsOfCmd op c) 0 8 = op ∧ bits (bitsOfCmd op c) 16 8 = c.sub := by
  unfold bitsOfCmd
  constructor <;> simp (disch := omega) [bits_append_low, bits_append_high, -Nat.reduceAdd]

theorem cmdOfBits_bitsOfCmd (op : BitVec 8) (c : Cmd) : cmdOfBits (bitsOfCmd op c) = c := by
  obtain ⟨a, u, t, sub, fmt, md, hmask, cmask, opnd, patch⟩ := c
  rw [cmdOfBits, getLsbD_eq_bits _ 8, getLsbD_eq_bits _ 9, getLsbD_eq_bits _ 10, bitsOfCmd]
  simp (disch := omega) [bits_append_low, bits_append_high, -Nat.reduceAdd]

/-- A command that passes the header's checks decodes by its operation and variant. -/
theorem decodeCommand_bitsOfCmd {op : BitVec 8} {c : Cmd} (h : c.wf op = true) :
    decodeCommand (bitsOfCmd op c) = commandInstr op.toNat c.sub.toNat c := by
  obtain ⟨hop, hsub⟩ := bits_bitsOfCmd op c
  simp only [Cmd.wf, Bool.and_eq_true, decide_eq_true_eq] at h
  obtain ⟨hshape, hform⟩ := h
  rw [decodeCommand, hshape, hform, field_eq_bits, field_eq_bits, bits_bits _ _ _ _ (by omega), bits_bits _ _ _ _ (by omega), hop, hsub,
    cmdOfBits_bitsOfCmd]
  rfl

/-- The mode of `vmov` tells its three rows apart (R283). -/
theorem commandInstr_vmov (c : Cmd) : commandInstr 0x72 0 c =
    if field c.opnd 80 2 = 1 then some (.vmovFromDq c) else if field c.opnd 80 2 = 2 then some (.vmovToDq c)
    else some (.vmovReg c) := by
  show (match field c.opnd 80 2 with | 1 => some (Instr.vmovFromDq c) | 2 => some (.vmovToDq c) | _ => some (.vmovReg c)) = _
  split <;> simp_all

/-- The operation and the variant of a command tell its constructor; of `vmov` the mode does. -/
theorem commandInstr_commandOf {i : Instr} {op : BitVec 8} {c : Cmd} (hv : variantOk i = true) (h : commandOf i = some (op, c)) :
    commandInstr op.toNat c.sub.toNat c = some i := by
  cases i with
  | vmovReg c =>
    cases h
    simp only [variantOk, Bool.and_eq_true, decide_eq_true_eq] at hv
    obtain ⟨⟨hsub, h1⟩, h2⟩ := hv
    rw [hsub]
    exact (commandInstr_vmov c).trans (by rw [if_neg h1, if_neg h2])
  | vmovFromDq c =>
    cases h
    simp only [variantOk, Bool.and_eq_true, decide_eq_true_eq] at hv
    obtain ⟨hsub, h1⟩ := hv
    rw [hsub]
    exact (commandInstr_vmov c).trans (if_pos h1)
  | vmovToDq c =>
    cases h
    simp only [variantOk, Bool.and_eq_true, decide_eq_true_eq] at hv
    obtain ⟨hsub, h2⟩ := hv
    rw [hsub]
    exact (commandInstr_vmov c).trans (by rw [h2]; rfl)
  | bkSum c | bkFin c | anDrain c | cpGather c | cpScatter c | cpRed c => cases h; rfl
  | _ =>
    cases h <;>
    · have hsub := of_decide_eq_true hv
      rw [hsub]; rfl

/-! ## Host requests -/

theorem bits_bitsOfRequest (op : BitVec 8) (r : Request) : bits (bitsOfRequest op r) 0 8 = op := by
  unfold bitsOfRequest
  simp (disch := omega) [bits_append_low, -Nat.reduceAdd]

theorem requestOfBits_bitsOfRequest (op : BitVec 8) (r : Request) : requestOfBits (bitsOfRequest op r) = r := by
  unfold requestOfBits bitsOfRequest
  simp (disch := omega) [bits_append_low, bits_append_high, -Nat.reduceAdd]

theorem decodeRequest_bitsOfRequest {i : Instr} {op : BitVec 8} {r : Request} (hi : fieldsOk i = true)
    (h : requestOf i = some (op, r)) : decodeRequest (bitsOfRequest op r) = some i := by
  unfold decodeRequest
  rw [field_eq_bits, bits_bitsOfRequest, requestOfBits_bitsOfRequest]
  cases i with
  | preemptSoft r | linkEnable r => cases h; exact if_pos (of_decide_eq_true hi)
  | preemptHard r | linkRetire r =>
    cases h
    have h1 := of_decide_eq_true hi
    exact (if_neg (by rw [h1]; decide)).trans (if_pos h1)
  | linkRetrain r =>
    cases h
    have h2 := of_decide_eq_true hi
    exact (if_neg (by rw [h2]; decide)).trans ((if_neg (by rw [h2]; decide)).trans (if_pos h2))
  | _ => cases h <;> rfl

/-! ## Words as numbers -/

theorem decodeTableWord_command (w : CmdBits) : decodeTableWord 256 w.toNat = decodeCommand w := by
  rw [decodeTableWord, if_neg (by decide), if_pos rfl, BitVec.ofNat_toNat, BitVec.setWidth_eq]

theorem decodeTableWord_request (w : BitVec 512) : decodeTableWord 512 w.toNat = decodeRequest w := by
  rw [decodeTableWord, if_pos rfl, BitVec.ofNat_toNat, BitVec.setWidth_eq]

/-- A hart word given alone has a zero literal word. -/
theorem decodeTableWord_hart (w : Word32) : decodeTableWord 32 w.toNat = some (decodeHart w 0) := by
  rw [decodeTableWord, if_neg (by decide), if_neg (by decide), BitVec.ofNat_toNat, BitVec.setWidth_eq,
    Nat.div_eq_of_lt w.isLt]
  rfl

theorem decodeTableWord_pair (w lit : Word32) : decodeTableWord 64 (lit ++ w : BitVec 64).toNat = some (decodeHart w lit) := by
  have hw : BitVec.ofNat 32 (lit ++ w : BitVec 64).toNat = w :=
    (bits_append_low lit w 0 32 (by omega)).trans (bits_all w)
  have hl : BitVec.ofNat 32 ((lit ++ w : BitVec 64).toNat / 2 ^ 32) = lit := by
    rw [← Nat.shiftRight_eq_div_pow]
    exact (bits_append_high lit w 32 32 (by omega)).trans (bits_all lit)
  rw [decodeTableWord, if_neg (by decide), if_neg (by decide), hw, hl]

theorem decodeHart_of_some {w lit : Word32} {i : Instr} (h : decodeWord w lit = some i) : decodeHart w lit = i := by
  rw [decodeHart, h]; rfl

/-- A step that is neither a command nor a request is encoded as a hart word, `flit.s` as two. -/
theorem encode_hart {i : Instr} (hc : commandOf i = none) (hr : requestOf i = none) (hflit : ∀ rd lit, i ≠ .flitS rd lit) :
    encode i = (encodeHart i).map (fun w => (32, w.toNat)) := by
  unfold encode
  rw [hc, hr]
  cases i with
  | flitS rd lit => exact absurd rfl (hflit rd lit)
  | _ => rfl

/-- Settles O1: commands by the header that carries their operation and variant, requests by their op field, hart instructions by the
fields of their layouts. -/
theorem decodeOfEncode : Obligations.DecodeOfEncode := by
  unfold Obligations.DecodeOfEncode
  intro i n w hwf henc
  simp only [Instr.wf, Bool.and_eq_true] at hwf
  obtain ⟨⟨hfields, hvariant⟩, hcommand⟩ := hwf
  cases hc : commandOf i with
  | some p =>
    obtain ⟨op, c⟩ := p
    rw [hc] at hcommand
    simp only [encode, hc, Option.some.injEq, Prod.mk.injEq] at henc
    obtain ⟨rfl, rfl⟩ := henc
    rw [decodeTableWord_command, decodeCommand_bitsOfCmd hcommand, commandInstr_commandOf hvariant hc]
  | none =>
    cases hr : requestOf i with
    | some p =>
      obtain ⟨op, r⟩ := p
      simp only [encode, hc, hr, Option.some.injEq, Prod.mk.injEq] at henc
      obtain ⟨rfl, rfl⟩ := henc
      rw [decodeTableWord_request, decodeRequest_bitsOfRequest hfields hr]
    | none =>
      by_cases hflit : ∃ rd lit, i = .flitS rd lit
      · obtain ⟨rd, lit, rfl⟩ := hflit
        cases henc
        rw [decodeTableWord_pair, decodeHart_of_some (decodeWord_encodeHart hfields rfl ?_ ?_)]
        · rintro _ _ ⟨⟩; rfl
        · rintro _ ⟨⟩
      · rw [encode_hart hc hr (fun rd lit h => hflit ⟨rd, lit, h⟩), Option.map_eq_some_iff] at henc
        obtain ⟨x, hx, hpair⟩ := henc
        cases hpair
        rw [decodeTableWord_hart]
        by_cases hill : ∃ y, i = .illegalInstruction y
        · obtain ⟨y, rfl⟩ := hill
          cases hx
          rw [decodeHart, Option.isNone_iff_eq_none.1 hfields]; rfl
        · rw [decodeHart_of_some (decodeWord_encodeHart hfields hx (fun rd l h => absurd ⟨rd, l, h⟩ hflit)
            (fun y h => hill ⟨y, h⟩))]

/-- Settles O2: each word is the encoding of the well-formed instruction that it stands for. -/
theorem decodeWords : Obligations.DecodeWords := by
  unfold Obligations.DecodeWords
  exact ⟨decodeOfEncode (.qstatQ 5 0) _ _ rfl rfl, decodeOfEncode (.qstatDq 5 3) _ _ rfl rfl,
    decodeOfEncode (.barrArrive 5 10) _ _ rfl rfl, decodeOfEncode (.tlRead 5 0) _ _ rfl rfl,
    decodeOfEncode (.tlWait 0 12) _ _ rfl rfl, decodeOfEncode .tret _ _ rfl rfl,
    decodeOfEncode (.baseInstruction .ecall) _ _ rfl rfl, decodeOfEncode .ebreak _ _ rfl rfl,
    decodeOfEncode (.baseInstruction (.alu .add 10 11 12)) _ _ rfl rfl, decodeOfEncode (.fimmS 1 0x3FC00) _ _ rfl rfl,
    decodeOfEncode (.flitS 2 0x3DCCCCCD) _ _ rfl rfl, decodeOfEncode (.qput 10 1 11 12) _ _ rfl rfl,
    decodeOfEncode (.maAddb 10 11 12 13) _ _ rfl rfl, decodeOfEncode (.fdGather _) _ _ rfl rfl,
    decodeOfEncode (.launch { ctx := 3, rsv := 0, tag := 9, args := 1 }) _ _ rfl (by decide +kernel)⟩

end Sys2Proof
end

section
/-! The standard subset (R29, R50, R51, R130): the values of its integer instructions, and how its instructions end. -/

namespace Sys2Proof.Machine

open Sys2Proof.Claims

/-! ## Integer values -/

section
variable {n : Nat} {a b : BitVec n}

theorem sdivW_zero (a : BitVec n) : sdivW a 0 = BitVec.allOnes n := if_pos rfl
theorem udivW_zero (a : BitVec n) : udivW a 0 = BitVec.allOnes n := if_pos rfl
theorem sremW_zero (a : BitVec n) : sremW a 0 = a := if_pos rfl
theorem uremW_zero (a : BitVec n) : uremW a 0 = a := if_pos rfl

/-- A signed division truncates toward zero. -/
theorem sdivW_of_ne (h : b ≠ 0) : sdivW a b = BitVec.ofInt n (a.toInt.tdiv b.toInt) := by
  rw [sdivW, if_neg h]
  exact BitVec.eq_of_toInt_eq (by rw [BitVec.toInt_sdiv, BitVec.toInt_ofInt])

theorem sremW_of_ne (h : b ≠ 0) : sremW a b = BitVec.ofInt n (a.toInt.tmod b.toInt) := by
  rw [sremW, if_neg h, ← BitVec.toInt_srem, BitVec.ofInt_toInt]

theorem udivW_of_ne (h : b ≠ 0) : udivW a b = BitVec.ofNat n (a.toNat / b.toNat) := by
  rw [udivW, if_neg h, ← BitVec.toNat_udiv, BitVec.ofNat_toNat, BitVec.setWidth_eq]; rfl

theorem uremW_of_ne (h : b ≠ 0) : uremW a b = BitVec.ofNat n (a.toNat % b.toNat) := by
  rw [uremW, if_neg h, ← BitVec.toNat_umod, BitVec.ofNat_toNat, BitVec.setWidth_eq]; rfl

end

theorem boolWord_slt (a b : Word) : boolWord (a.slt b) = if a.toInt < b.toInt then 1 else 0 := by
  simp [boolWord, BitVec.slt]

theorem boolWord_ult (a b : Word) : boolWord (a.ult b) = if a.toNat < b.toNat then 1 else 0 := by
  simp [boolWord, BitVec.ult]

/-- Extending all ones and widths. -/
theorem signExtend_allOnes : (BitVec.allOnes 32).signExtend 64 = BitVec.allOnes 64 := by decide

/-- The W shifts take the low five bits. -/
theorem toNat_setWidth_mod (b : Word) : (b.setWidth 32).toNat % 32 = b.toNat % 32 := by
  rw [BitVec.toNat_setWidth]; omega

theorem branchTaken_iff (a b : Word) :
    (branchTaken .beq a b = true ↔ a = b) ∧ (branchTaken .bne a b = true ↔ a ≠ b) ∧
    (branchTaken .blt a b = true ↔ a.toInt < b.toInt) ∧ (branchTaken .bge a b = true ↔ b.toInt ≤ a.toInt) ∧
    (branchTaken .bltu a b = true ↔ a.toNat < b.toNat) ∧ (branchTaken .bgeu a b = true ↔ b.toNat ≤ a.toNat) := by
  simp [branchTaken, BitVec.slt, BitVec.ult]

/-! ## CSRs that are read -/

theorem exec_csrRead_some {s : State} {k : CsrOp} {v : Word} (h : readCsr s s.me k.csr.toNat = some v) :
    exec (.baseInstruction (.csrRead k)) s = .next (s.result s.me k.rd v) := by
  show Host.Outcome.next (csrReadStep s s.me k) = _
  rw [csrReadStep, h]; rfl

theorem exec_csrRead_none {s : State} {k : CsrOp} (h : readCsr s s.me k.csr.toNat = none) :
    exec (.baseInstruction (.csrRead k)) s = .next (s.takeTrap s.me false 2 0 ((s.fetchWord s.me).setWidth 64)) := by
  show Host.Outcome.next (csrReadStep s s.me k) = _
  rw [csrReadStep, h]; rfl

/-! ## Floating point -/

section
variable {s : State} {h : HartId} {rm : BitVec 3}

theorem useMode_some {m : RMode} (hm : rmodeOf rm (s.hart h).frm = some m) : useMode h rm s = .ok m s := by
  simp [useMode, M.bind_run, hm]

theorem useMode_none (hm : rmodeOf rm (s.hart h).frm = none) :
    useMode h rm s = .error (.trap 2 0 ((s.fetchWord h).setWidth 64)) s := by
  simp [useMode, M.bind_run, hm, illegal, M.map_run]

/-- A body that takes a rounding mode and has one goes on with it. -/
theorem hartStep_useMode_some {m : RMode} {f : RMode → M Unit} (hm : rmodeOf rm (s.hart h).frm = some m) :
    hartStep h (useMode h rm >>= f) s = hartStep h (f m) s := by
  simp [hartStep, hartEnd, M.bind_run, useMode_some hm]

/-- With a mode that is none it is an illegal instruction (R50). -/
theorem hartStep_useMode_none {f : RMode → M Unit} (hm : rmodeOf rm (s.hart h).frm = none) :
    hartStep h (useMode h rm >>= f) s = .next (s.takeTrap h false 2 0 ((s.fetchWord h).setWidth 64)) :=
  hartStep_trap (M.bind_error (useMode_none hm))

/-- What a floating-point instruction leaves that writes an f register. -/
theorem hartStep_putF (rd : Reg) (r : Nat × FFlags) : hartStep h (putF h rd r) s =
    .next ((s.modHart h (fun x => (x.writeF rd (BitVec.ofNat 32 r.1)).accrue r.2)).retire h ((s.hart h).pc + 4)) :=
  hartStep_ok rfl

theorem hartStep_putX (rd : Reg) (v : Word) (fl : FFlags) : hartStep h (putX h rd v fl) s =
    .next ((s.modHart h (fun x => (x.writeX rd v).accrue fl)).retire h ((s.hart h).pc + 4)) :=
  hartStep_ok rfl

end

/-! ## Branches and jumps -/

section
variable {s : State} {h : HartId} {v link : Word} {rd : Reg}

/-- A jump that writes its link register. -/
theorem hartJump_link (hv : v.toNat % 4 = 0) :
    hartJump h (do let t ← jumpTo v; upd (fun s => s.writeX h rd link); pure t) s = .next ((s.writeX h rd link).retire h v) :=
  hartJump_ok (M.bind_ok (jumpTo_ok hv))

theorem hartJump_link_trap (hv : v.toNat % 4 ≠ 0) :
    hartJump h (do let t ← jumpTo v; upd (fun s => s.writeX h rd link); pure t) s = .next (s.takeTrap h false 0 0 v) :=
  hartJump_trap (M.bind_error (jumpTo_trap hv))

variable {op : BranchOp} {rs1 rs2 : Reg} {off : BitVec 12}

theorem exec_branch_not_taken (hb : branchTaken op ((s.hart s.me).readX rs1) ((s.hart s.me).readX rs2) = false) :
    exec (.baseInstruction (.branch op rs1 rs2 off)) s = .next (s.retire s.me ((s.hart s.me).pc + 4)) := by
  refine hartJump_ok ?_
  rw [if_neg (by simp [hb])]; rfl

theorem exec_branch_taken (hb : branchTaken op ((s.hart s.me).readX rs1) ((s.hart s.me).readX rs2) = true)
    (hv : ((s.hart s.me).pc + (off ++ (0#1)).signExtend 64).toNat % 4 = 0) :
    exec (.baseInstruction (.branch op rs1 rs2 off)) s =
      .next (s.retire s.me ((s.hart s.me).pc + (off ++ (0#1)).signExtend 64)) := by
  refine hartJump_ok ?_
  rw [if_pos hb, jumpTo_ok hv]

theorem exec_branch_misaligned (hb : branchTaken op ((s.hart s.me).readX rs1) ((s.hart s.me).readX rs2) = true)
    (hv : ((s.hart s.me).pc + (off ++ (0#1)).signExtend 64).toNat % 4 ≠ 0) :
    exec (.baseInstruction (.branch op rs1 rs2 off)) s =
      .next (s.takeTrap s.me false 0 0 ((s.hart s.me).pc + (off ++ (0#1)).signExtend 64)) := by
  refine hartJump_trap ?_
  rw [if_pos hb, jumpTo_trap hv]

end

/-- Settles O8: the integer instructions by their values, the floating-point ones by whether they have a rounding mode, branches and
jumps by their target. -/
theorem standardSubsetResults : Obligations.StandardSubsetResults := by
  unfold Obligations.StandardSubsetResults
  refine ⟨fun s rd rs1 rs2 op ow io os imm u sh shw k => ?_, fun a b i sh => ?_, fun m a b c => ?_,
    fun s rd rs1 rs2 rs3 rm oa om og oc it mx => ?_, fun s rd rs1 rs2 op off far imm => ?_⟩
  · exact ⟨rfl, rfl, rfl, rfl, rfl, rfl, rfl, rfl, fun q => State.readX_result _ _ _ _ _, fun v => exec_csrRead_some,
      exec_csrRead_none⟩
  · dsimp only
    refine ⟨⟨rfl, rfl, rfl, rfl, rfl, rfl, rfl, rfl, boolWord_slt a b, boolWord_ult a b, rfl, rfl, rfl, rfl⟩, ?_, ?_, ?_, ?_, ?_,
      ⟨rfl, rfl, rfl, rfl, boolWord_slt _ _, boolWord_ult _ _⟩, ⟨rfl, rfl, rfl, rfl, rfl, rfl⟩, branchTaken_iff a b⟩
    · rintro rfl
      exact ⟨sdivW_zero a, udivW_zero a, sremW_zero a, uremW_zero a⟩
    · exact fun hb => ⟨sdivW_of_ne hb, sremW_of_ne hb, udivW_of_ne hb, uremW_of_ne hb⟩
    · rw [← toNat_setWidth_mod b]
      exact ⟨rfl, rfl, rfl, rfl, rfl, rfl⟩
    · intro hb
      simp only [aluWValue, hb, sdivW_zero, udivW_zero, sremW_zero, uremW_zero, sext32, signExtend_allOnes, and_self]
    · intro hb
      simp only [aluWValue, sdivW_of_ne hb, sremW_of_ne hb, udivW_of_ne hb, uremW_of_ne hb, sext32, and_self]
  · exact ⟨rfl, rfl, rfl, rfl, rfl, rfl, rfl⟩
  · intro h x a b next toF toX
    refine ⟨fun m hm => ⟨?_, ?_, ?_, ?_, ?_⟩, fun hm i hi => ?_, hartStep_putF _ _, hartStep_putF _ _, hartStep_putX _ _ _,
      hartStep_putX _ _ _, hartStep_putF _ _, hartStep_putX _ _ _⟩
    · exact (hartStep_useMode_some hm).trans (hartStep_putF _ _)
    · exact (hartStep_useMode_some hm).trans (hartStep_putF _ _)
    · exact (hartStep_useMode_some hm).trans (hartStep_putF _ _)
    · exact (hartStep_useMode_some hm).trans (hartStep_putX _ _ _)
    · exact (hartStep_useMode_some hm).trans (hartStep_putF _ _)
    · simp only [List.mem_cons, List.not_mem_nil, or_false] at hi
      obtain rfl | rfl | rfl | rfl | rfl := hi <;> exact hartStep_useMode_none hm
  · exact ⟨exec_branch_not_taken, exec_branch_taken, exec_branch_misaligned, hartJump_link, hartJump_link_trap, hartJump_link,
      hartJump_link_trap⟩

end Sys2Proof.Machine
end


section
/-! Traps and returns from them (R54, R128 to R131). -/

namespace Sys2Proof.Machine

open Sys2Proof.Claims

/-! ## Words that are no instruction -/

/-- In the place of `tret` every register field is zero (R131). -/
theorem decodeHart_tretWord {rd rs1 rs2 : Reg} (h : rd ≠ 0 ∨ rs1 ≠ 0 ∨ rs2 ≠ 0) (lit : Word32) :
    decodeHart (encR 4 rs2 rs1 5 rd 0x7B) lit = .illegalInstruction (encR 4 rs2 rs1 5 rd 0x7B) := by
  have hnone : decodeWord (encR 4 rs2 rs1 5 rd 0x7B) lit = none := by
    have hz : ∀ r : Reg, (r.toNat = 0) = (r = 0) := fun r => propext (BitVec.toNat_eq (x := r) (y := 0)).symm
    simp only [decodeWord, custom3, field_eq_bits, bits_encR]
    simp [hz]
    tauto
  rw [decodeHart, hnone]; rfl

/-! ## Returns -/

@[simp] theorem Hart.machineReturn_x (x : Hart) : x.machineReturn.x = x.x := rfl

theorem Hart.inHandler_setH (x : Hart) (b : Bool) : (x.setH b).inHandler = b := by
  cases b <;> simp [Hart.setH, Hart.inHandler, putBit]

theorem Hart.faultPending_setCP (x : Hart) (b : Bool) : (x.setCP b).faultPending = b := by
  cases b <;> simp [Hart.setCP, Hart.faultPending, putBit]

/-- A hart that returns from its handler. -/
theorem State.hart_returnFromTrap (s : State) (h : HartId) : (s.returnFromTrap h).hart h =
    { s.hart h with pc := (s.hart h).ctxepc &&& pcMask, instret := (s.hart h).instret + 1, run := .running }.setH false := by
  simp [State.returnFromTrap]

theorem State.readX_of_x {s t : State} {h : HartId} (hx : (t.hart h).x = (s.hart h).x) (r : Reg) : t.readX h r = s.readX h r := by
  simp [State.readX, Hart.readX, hx]

section
variable {s : State}

theorem exec_tret_handler (hh : (s.hart s.me).inHandler = true) : exec .tret s = .next (s.returnFromTrap s.me) := by
  rw [exec_tret, execTret, if_pos hh]

theorem exec_tret_outside (hh : (s.hart s.me).inHandler = false) : exec .tret s = .next (s.illegalAt s.me) := by
  rw [exec_tret, execTret, if_neg (by simp [hh])]

theorem exec_wfi_machine (hm : (s.hart s.me).machine = true) : exec .wfi s = .next s.skip := by
  rw [exec_wfi, execWfi, if_pos hm]

theorem exec_wfi_user (hm : (s.hart s.me).machine = false) : exec .wfi s = .next (s.illegalAt s.me) := by
  rw [exec_wfi, execWfi, if_neg (by simp [hm])]

theorem exec_mret (s : State) : exec (.baseInstruction .mret) s =
    .next (if (s.hart s.me).machine then s.setHart s.me (s.hart s.me).machineReturn else s.illegalAt s.me) := rfl

theorem exec_mret_machine (hm : (s.hart s.me).machine = true) :
    exec (.baseInstruction .mret) s = .next (s.setHart s.me (s.hart s.me).machineReturn) := by
  rw [exec_mret, if_pos hm]

theorem exec_mret_user (hm : (s.hart s.me).machine = false) :
    exec (.baseInstruction .mret) s = .next (s.illegalAt s.me) := by
  rw [exec_mret, if_neg (by simp [hm])]

theorem exec_commandFaultTrap_ready (hr : (s.hart s.me).trapReady = true) : exec .commandFaultTrap s =
    .next (((s.abandon s.me).modHart s.me (fun x => x.setCP false)).takeTrap s.me true 16
      ((s.tc s.me.tile).faultedQueue s.me.move) 0) := by
  rw [exec_commandFaultTrap, execCommandFaultTrap]
  exact if_pos hr

end

/-- With CP clear no command-fault trap is ready. -/
theorem State.trapReady_setCP (s : State) (h : HartId) : ((s.modHart h (fun x => x.setCP false)).hart h).trapReady = false := by
  simp [Hart.trapReady, Hart.faultPending_setCP]

/-- Settles O24: the instructions by the cases of their meanings, the returns by the state they make. -/
theorem trapInstructions : Obligations.TrapInstructions := by
  unfold Obligations.TrapInstructions
  refine ⟨fun s w rd rs1 rs2 => ⟨rfl, fun h => decodeHart_tretWord h w, rfl, rfl, exec_wfi_user, exec_wfi_machine, exec_tret_outside,
    fun hh => ⟨_, exec_tret_handler hh, ?_, ?_, ?_, ?_, ?_⟩, exec_mret_user, fun hm => ⟨_, exec_mret_machine hm, ?_, ?_, ?_⟩⟩,
    fun s hr => ⟨exec_commandFaultTrap_ready hr, State.trapReady_setCP _ _⟩⟩
  · rw [State.hart_returnFromTrap]; rfl
  · rw [State.hart_returnFromTrap, Hart.inHandler_setH]
  · rw [State.hart_returnFromTrap]; rfl
  · exact State.readX_of_x (by rw [State.hart_returnFromTrap]; rfl)
  · rfl
  · simp [Hart.machineReturn]
  · exact State.readX_of_x (by simp)
  · rfl

end Sys2Proof.Machine
end


section
/-! Plain loads and stores, `ld.u` and `sd.u`: what they do and where they trap (R50, R82, R83, R93, R241, R348). -/

namespace Sys2Proof.Machine

open Sys2Proof.Claims

/-! ## Where an access traps -/

theorem hartLeaf_compressed {s t : State} {h : HartId} {n : Nat} {store : Bool} {va : Word} {l : Leaf} (h1 : va.toNat % n = 0)
    (h2 : va.toNat < 2 ^ 52) (h3 : s.translate h.tile (.hart h.move) (s.ctxOf h.tile) va.toNat = (t, .ok l))
    (h4 : l.compressed = true) : hartLeaf h store n va s = .error (.trap (13 + if store then 2 else 0) 4 va) t := by
  replace h2 : va.toNat < 4503599627370496 := h2
  simp [hartLeaf, M.bind_run, M.map_run, need_run, h1, h2, h3, h4]

/-- An instruction that translates an address first traps as the translation does, and as what follows refuses the leaf (R130, R348). -/
theorem traps_of_hartLeaf {i : Instr} {s : State} {store : Bool} {n : Nat} {va : Word} {tierOk : Nat → Bool} {pageOk : Leaf → Bool}
    {k : Leaf → M Unit} (hi : exec i s = hartStep s.me (hartLeaf s.me store n va >>= k) s)
    (htier : ∀ t l, tierOk l.tier = false → k l t = .error (.trap (5 + if store then 2 else 0) 0 va) t)
    (hpage : ∀ t l, tierOk l.tier = true → pageOk l = false → k l t = .error (.trap (13 + if store then 2 else 0) 3 va) t) :
    Traps i s (if store then 2 else 0) n va tierOk pageOk := by
  have herr : ∀ {t : State} {code detail : Nat}, hartLeaf s.me store n va s = .error (.trap code detail va) t →
      exec i s = .next (t.takeTrap s.me false code detail va) :=
    fun h => hi.trans (hartStep_trap (M.bind_error h))
  have hok : ∀ {t : State} {l : Leaf} {code detail : Nat}, hartLeaf s.me store n va s = .ok l t →
      k l t = .error (.trap code detail va) t → exec i s = .next (t.takeTrap s.me false code detail va) :=
    fun h hk => hi.trans (hartStep_trap ((M.bind_ok h).trans hk))
  refine ⟨fun h1 => herr (hartLeaf_misaligned h1), fun h1 h2 => herr (hartLeaf_beyond h1 h2), fun h1 h2 =>
    ⟨fun t kind h3 => herr (hartLeaf_unmapped h1 h2 h3), fun t l h3 => ⟨fun h4 => herr (hartLeaf_compressed h1 h2 h3 h4), ?_, ?_⟩⟩⟩
  · exact fun h4 h5 => hok (hartLeaf_ok ⟨h1, h2, h3, h4⟩) (htier t l h5)
  · exact fun h4 h5 h6 => hok (hartLeaf_ok ⟨h1, h2, h3, h4⟩) (hpage t l h5 h6)

/-- A load refuses no leaf. -/
theorem traps_of_loadLeaf {i : Instr} {s : State} {n : Nat} {va : Word} {k : Leaf → M Unit}
    (hi : exec i s = hartStep s.me (loadLeaf s.me n va >>= k) s) : Traps i s 0 n va (fun _ => true) (fun _ => true) :=
  traps_of_hartLeaf (store := false) hi (fun _ _ h => nomatch h) (fun _ _ _ h => nomatch h)

/-- A store refuses tier F and a page with W = 0. -/
theorem traps_of_storeLeaf {i : Instr} {s : State} {n : Nat} {va : Word} {k : Leaf → M Unit}
    (hi : exec i s = hartStep s.me (storeLeaf s.me n va >>= k) s) :
    Traps i s 2 n va (fun _ => true) (fun l => l.tier ≠ 2 && l.writable) := by
  rw [storeLeaf, bind_assoc] at hi
  refine traps_of_hartLeaf (store := true) hi (fun _ _ h => nomatch h) (fun t l _ h => M.bind_error (M.bind_error ?_))
  rw [need_run, Bool.and_comm, if_neg (by simpa using h)]
  rfl

/-! ## Plain loads -/

section
variable {s t : State} {op : LoadOp} {rd rs1 : Reg} {imm : BitVec 12} {l : Leaf}

/-- A load has read the value `r.2` and left the state `r.1`: what is left once it has retired. -/
def State.loaded (op : LoadOp) (h : HartId) (rd : Reg) (pc : Word) (r : State × Nat) : State :=
  (match op with
    | .flw => r.1.modHart h (fun x => x.writeF rd (BitVec.ofNat 32 r.2))
    | _ => r.1.writeX h rd (loadExtend op r.2)).retire h pc

theorem exec_plainLoad_ok (hr : Readable s s.me (loadSize op) (addressOf s s.me rs1 imm) l t) (hf : LineFree t s.me l false) :
    exec (.plainLoad op rd rs1 imm) s = .next (State.loaded op s.me rd ((s.hart s.me).pc + 4)
      (t.cachedRead s.me.tile (t.ctxOf s.me.tile) l (loadSize op))) := by
  rw [exec_plainLoad, execPlainLoad]
  refine hartStep_ok ?_
  rw [M.bind_ok (plainRead_ok hr hf)]
  rfl

theorem traps_plainLoad : Traps (.plainLoad op rd rs1 imm) s 0 (loadSize op) (addressOf s s.me rs1 imm) (fun _ => true)
    (fun _ => true) :=
  traps_of_loadLeaf (by rw [exec_plainLoad, execPlainLoad, plainRead, bind_assoc])

end

/-! ## What a read through the remote-read cache gives (R82) -/

section
variable {t : State} {k c n : Nat} {l : Leaf}

theorem cachedRead_own (h : leavesTile k l = false) : t.cachedRead k c l n = (t.countAccess c l).homeRead (some c) l.pa n := by
  simp [State.cachedRead, h]

theorem cachedRead_hit {x : CacheLine} (h : leavesTile k l = true) (hf : l.tier ≠ 2)
    (hx : (t.tile k).cache.find? (fun x => x.line = l.pa / 64) = some x) :
    (t.cachedRead k c l n).2 = x.data.toNat / 2 ^ (8 * (l.pa % 64)) % 2 ^ (8 * n) := by
  simp [State.cachedRead, h, hf, hx]

theorem cachedRead_miss (h : leavesTile k l = true) (hf : l.tier ≠ 2)
    (hx : (t.tile k).cache.find? (fun x => x.line = l.pa / 64) = none) (hl : t.takeLoss k c false l = none) :
    let r := (t.countAccess c l).homeRead (some c) (l.pa / 64 * 64) 64
    t.cachedRead k c l n = (r.1.setTile k { r.1.tile k with cache := cacheInsert (r.1.tile k).cache ⟨l.pa / 64, BitVec.ofNat 512 r.2⟩ },
      r.2 / 2 ^ (8 * (l.pa % 64)) % 2 ^ (8 * n)) := by
  simp [State.cachedRead, h, hf, hx, hl]

/-- A line that is placed in the cache is in it. -/
theorem mem_cacheInsert (cache : List CacheLine) (x : CacheLine) : x ∈ cacheInsert cache x := List.mem_cons_self

end

/-- Settles O9, by the cases of a read through the cache. -/
theorem plainLoadResults : Obligations.PlainLoadResults := by
  unfold Obligations.PlainLoadResults
  dsimp only
  refine ⟨fun s t op rd rs1 imm l hr hf => ⟨exec_plainLoad_ok hr hf, cachedRead_own, fun x => cachedRead_hit, fun hl ht hx hk => ?_⟩,
    fun s op rd rs1 imm => traps_plainLoad⟩
  rw [cachedRead_miss hl ht hx hk]
  exact ⟨rfl, _, by rw [State.tile_setTile_self]; exact mem_cacheInsert _ _, rfl, rfl⟩

end Sys2Proof.Machine
end


section
/-! What a plain store, `ld.u` and `sd.u` do (R50, R83, R93, R241, R355). -/

namespace Sys2Proof.Machine

open Sys2Proof.Claims

/-! ## Requests that are held -/

/-- Every request that u holds is held in s. -/
def HeldWithin (s u : State) : Prop := ∀ r ∈ u.held, r ∈ s.held

theorem HeldWithin.of_eq {s u : State} (h : u.held = s.held) : HeldWithin s u := fun r hr => by rwa [h] at hr

theorem HeldWithin.trans {s t u : State} (h : HeldWithin s t) (k : HeldWithin t u) : HeldWithin s u := fun r hr => h r (k r hr)

theorem HeldWithin.foldl {α : Type} {f : State → α → State} (hf : ∀ s a, HeldWithin s (f s a)) (l : List α) (s : State) :
    HeldWithin s (l.foldl f s) := by
  induction l generalizing s with
  | nil => exact .of_eq rfl
  | cons a l ih => exact (hf s a).trans (ih _)

theorem State.unhold_heldWithin (s : State) (t : Nat) (mv : Bool) : HeldWithin s (s.unhold t mv) :=
  fun _ hr => (List.mem_filter.1 hr).1

theorem State.serve_heldWithin (s : State) (r : Held) : HeldWithin s (s.serve r) := by
  have hfree : HeldWithin s ((s.unhold r.tile r.move).ungate r.tile) :=
    (s.unhold_heldWithin _ _).trans (.of_eq (State.ungate_frame _ _).held)
  refine hfree.trans (.of_eq ?_)
  generalize hu : (s.unhold r.tile r.move).ungate r.tile = u
  unfold State.serve
  dsimp only
  rw [hu]
  split
  · rfl
  · rfl
  all_goals
    show (State.fireWatches _ _).held = _
    rw [(State.fireWatches_frame _ _).held]
    show (State.rawWrite _ _ _ _).held = _
    rw [State.rawWrite_held, (State.countLostInstall_frame _ _).held]

theorem State.scan_heldWithin (s : State) (pa n : Nat) : HeldWithin s (s.scan pa n) := by
  induction n generalizing s with
  | zero => exact .of_eq rfl
  | succ n ih =>
    rw [State.scan]
    split
    · exact (s.serve_heldWithin _).trans (ih _)
    · exact .of_eq rfl

/-- A word at which no request is held has nothing to serve. -/
theorem State.homeScan_of_not_held {s : State} {pa : Nat} (h : ∀ r ∈ s.held, r.pa / 8 ≠ pa / 8) : s.homeScan pa = s := by
  have hnone : s.held.find? (fun r => r.pa / 8 = pa / 8 && s.heldReady r) = none :=
    List.find?_eq_none.2 fun r hr => by simp [h r hr]
  unfold State.homeScan
  cases s.held.length with
  | zero => rfl
  | succ n => rw [State.scan, hnone]

theorem State.held_foldFlips (s : State) (line : Nat) (fl : List Nat) : (s.foldFlips line fl).held = s.held := by
  unfold State.foldFlips
  refine State.foldl_keeps (·.held) (fun s j => ?_) _ s
  dsimp only
  split
  · rfl
  · split
    · exact s.rawWrite_held _ _ _
    · exact s.rawWrite_held _ _ _

theorem State.held_retireBank (s : State) (b : Nat) : (s.retireBank b).held = s.held := by
  unfold State.retireBank
  dsimp only
  split <;> split <;> simp

theorem State.held_countCorrected (s : State) (b : Nat) : (s.countCorrected b).held = s.held := by
  unfold State.countCorrected
  dsimp only
  split
  · exact State.held_retireBank _ _
  · rfl

theorem State.held_loseFarLine (s : State) (who : Option Nat) (line : Nat) : (s.loseFarLine who line).held = s.held := by
  have hzero : ((List.range 8).foldl (fun (s : State) i => s.rawWrite (line * 64 + 8 * i) 8 0) (s.clearFlips line)).held = s.held := by
    rw [State.foldl_keeps (·.held) (fun s _ => s.rawWrite_held _ _ _)]; rfl
  have hcount : ∀ (c : Option Nat) (u : State), ((match c with
      | some c => u.modCtx c (fun x => { x with ecc := satAdd 64 x.ecc 1 })
      | none => u).logEvent .uncorrectable c (line * 64)).held = u.held := fun c u => by cases c <;> rfl
  exact (hcount _ _).trans hzero

/-- Where a lost line is counted. -/
theorem State.held_countLost (s : State) (c : Option Nat) (line b : Nat) :
    let v := match c with
      | some c => s.modCtx c (fun x => { x with ecc := satAdd 64 x.ecc 1 })
      | none => s
    ((v.setBank b { v.bank b with uncorrectable := satAdd 32 (v.bank b).uncorrectable 1 }).logEvent .uncorrectable c
      (line * 64)).held = s.held := by
  cases c <;> rfl

theorem State.loseLine_heldWithin (s : State) (who : Option Nat) (line b : Nat) : HeldWithin s (s.loseLine who line b) := by
  have hzero : ((List.range 8).foldl (fun (s : State) i =>
      (s.rawWrite (line * 64 + 8 * i) 8 0).setFull (line * 64 + 8 * i) true) (s.clearFlips line)).held = s.held := by
    rw [State.foldl_keeps (·.held) (fun s _ => by simp)]; rfl
  have hwake : ∀ u : State, HeldWithin u ((List.range 8).foldl (fun (s : State) i =>
      (s.fireWatches (line * 64 + 8 * i)).homeScan (line * 64 + 8 * i)) u) :=
    HeldWithin.foldl (fun s _ => HeldWithin.trans (.of_eq (s.fireWatches_frame _).held) (State.scan_heldWithin _ _ _)) _
  unfold State.loseLine
  exact HeldWithin.trans (.of_eq ((State.held_countLost _ _ _ _).trans hzero)) (hwake _)

/-- What the symbol code does at a line serves requests at most. -/
theorem State.touch_heldWithin (s : State) (c : Option Nat) (line : Nat) : HeldWithin s (s.touch c line) := by
  unfold State.touch
  dsimp only
  split
  · split
    · exact .of_eq rfl
    · exact .of_eq (s.held_loseFarLine _ _)
  · split
    · exact .of_eq rfl
    · split
      · exact s.loseLine_heldWithin _ _ _
      · split
        · exact .of_eq ((State.held_countCorrected _ _).trans (State.held_foldFlips _ _ _))
        · exact .of_eq (State.held_foldFlips _ _ _)

/-! ## A write at its home -/

theorem State.rawRead_of_mem {s u : State} (h : u.mem = s.mem) (pa n : Nat) : u.rawRead pa n = s.rawRead pa n :=
  State.rawRead_congr fun b _ _ => State.byte_congr h b

section
variable {s : State} {c : Nat} {l : Leaf}

/-- The bytes that a write leaves at its place are those written. -/
theorem rawRead_homeWrite (h : Claims.Stored s l) (n v : Nat) :
    (s.homeWrite (some c) l.pa n v none).rawRead l.pa n = v % 256 ^ n := by
  obtain ⟨hfitted, hfar, hheld⟩ := h
  unfold State.homeWrite
  split
  · dsimp only
    rw [State.homeScan_of_not_held]
    · rw [State.rawRead_of_mem (State.fireWatches_mem _ _), State.rawRead_rawWrite]
    · intro r hr
      rw [(State.fireWatches_frame _ _).held, State.rawWrite_held, (State.countLostInstall_frame _ _).held] at hr
      exact hheld r (s.touch_heldWithin _ _ r hr)
  · rename_i h2
    exact absurd h2 hfar
  · rw [if_pos hfitted, State.rawRead_rawWrite]

end

/-! ## A write by a tile -/

section
variable {s : State} {t c n v : Nat} {l : Leaf}

theorem plainWrite_delivered (h : s.takeLoss t c true l = none) : s.plainWrite t c l n v = s.tileWrite t c l n v none := by
  rw [State.plainWrite, h]

theorem rawRead_plainWrite (h : s.takeLoss t c true l = none) (hs : Claims.Stored s l) :
    (s.plainWrite t c l n v).rawRead l.pa n = v % 256 ^ n := by
  rw [plainWrite_delivered h, ← rawRead_homeWrite (c := c) hs n v]
  exact State.rawRead_of_mem (by rfl) _ _

theorem mem_cache_discard {p : Nat → Bool} {x : CacheLine} (hx : x ∈ ((s.discard t p).tile t).cache) : p x.line = false := by
  rw [State.discard, State.tile_setTile_self] at hx
  simpa using (List.mem_filter.1 hx).2

/-- The tile keeps no copy of a line that it writes (R83). -/
theorem line_ne_of_mem_plainWrite {x : CacheLine} (hx : x ∈ ((s.plainWrite t c l n v).tile t).cache) : x.line ≠ l.pa / 64 := by
  unfold State.plainWrite at hx
  split at hx
  · simpa using mem_cache_discard hx
  · simpa using mem_cache_discard hx

end

/-- A hart that retires leaves its tile's cache. -/
theorem State.cache_retire (s : State) (h : HartId) (pc : Word) (k : Nat) : ((s.retire h pc).tile k).cache = (s.tile k).cache := by
  show ((s.setTc h.tile _).tile k).cache = _
  rw [State.tile_setTc]
  split
  · subst_vars; rfl
  · rfl

/-! ## The instructions -/

section
variable {s t : State} {rd rs1 rs2 : Reg} {imm : BitVec 12} {l : Leaf}

theorem exec_plainStore_ok {op : StoreOp} (hw : Writable s s.me (storeSize op) (addressOf s s.me rs1 imm) l t) (ht : l.tier ≠ 2)
    (hf : LineFree t s.me l true) : exec (.plainStore op rs1 rs2 imm) s =
      .next ((t.plainWrite s.me.tile (s.ctxOf s.me.tile) l (storeSize op) (storeValue s s.me op rs2)).retire s.me
        ((s.hart s.me).pc + 4)) := by
  rw [exec_plainStore, execPlainStore]
  refine hartStep_ok ?_
  rw [M.bind_ok (storeLeaf_ok hw ht), M.bind_ok (accessWait_write hf hw.2.2)]
  rfl

theorem exec_ldU_ok (hr : Readable s s.me 8 (addressOf s s.me rs1 imm) l t) : exec (.ldU rd rs1 imm) s =
    .next (((t.bypassRead s.me.tile (s.ctxOf s.me.tile) l 8 false).1.writeX s.me rd
      (BitVec.ofNat 64 (t.bypassRead s.me.tile (s.ctxOf s.me.tile) l 8 false).2)).retire s.me ((s.hart s.me).pc + 4)) := by
  rw [exec_ldU, execLdU]
  refine hartStep_ok ?_
  rw [M.bind_ok (loadLeaf_ok hr)]
  rfl

theorem exec_sdU_ok (hw : Writable s s.me 8 (addressOf s s.me rs1 imm) l t) (ht : l.tier ≠ 2) : exec (.sdU rs1 rs2 imm) s =
    .next ((t.plainWrite s.me.tile (s.ctxOf s.me.tile) l 8 (s.readX s.me rs2).toNat).retire s.me ((s.hart s.me).pc + 4)) := by
  rw [exec_sdU, execSdU]
  refine hartStep_ok ?_
  rw [M.bind_ok (storeLeaf_ok hw ht), M.bind_ok (movingWait_ok hw.2.2)]
  rfl

end

theorem bypassRead_delivered {s : State} {t c n : Nat} {l : Leaf} (h : s.takeLoss t c false l = none) :
    s.bypassRead t c l n false = s.directRead c l n := by
  simp [State.bypassRead, h]

/-- Settles O10, from what a write at its home leaves and where the address checks trap. -/
theorem storeResults : Obligations.StoreResults := by
  unfold Obligations.StoreResults
  dsimp only
  refine ⟨fun s t op rs1 rs2 imm l hw ht hf => ⟨exec_plainStore_ok hw ht hf, fun hl hs => ?_, fun x hx => ?_⟩,
    fun s t rd rs1 rs2 imm l => ⟨fun hr => ⟨exec_ldU_ok hr, bypassRead_delivered⟩, fun hw ht => ⟨exec_sdU_ok hw ht, fun hl hs => ?_⟩⟩,
    fun s op rd rs1 rs2 imm => ⟨traps_of_storeLeaf (by rw [exec_plainStore, execPlainStore]),
      traps_of_storeLeaf (by rw [exec_sdU, execSdU]), traps_of_loadLeaf (by rw [exec_ldU, execLdU])⟩⟩
  · rw [State.rawRead_of_mem (State.retire_mem _ _ _), rawRead_plainWrite hl hs, Nat.pow_mul]
  · rw [State.cache_retire] at hx
    exact line_ne_of_mem_plainWrite hx
  · rw [State.rawRead_of_mem (State.retire_mem _ _ _), rawRead_plainWrite hl hs]
    exact Nat.mod_eq_of_lt (s.readX s.me rs2).isLt

end Sys2Proof.Machine
end


section
/-! The instructions that only write a register: nothing but their hart changes, and of it no other register. -/

namespace Sys2Proof.Machine

open Sys2Proof.Claims

/-! ## A step that changes one hart -/

/-- A hart that has retired an instruction. -/
def Hart.retired (x : Hart) (pc : Word) : Hart := { x with pc := pc, instret := x.instret + 1, run := .running, tmpl := [] }

theorem State.retire_setHart (s : State) (h : HartId) (x : Hart) (pc : Word) :
    (s.setHart h x).retire h pc = s.setHart h (x.retired pc) := by
  simp [State.retire, State.modHart, Hart.retired]

theorem State.tiles_setHart (s : State) (h : HartId) (x : Hart) : s.setHart h x = { s with tiles := (s.setHart h x).tiles } := rfl

theorem State.tile_setHart_other (s : State) (h : HartId) (x : Hart) {g : Nat} (hg : g ≠ h.tile) :
    (s.setHart h x).tile g = s.tile g := State.tile_setTile_other _ _ _ _ hg

theorem State.tile_setHart_self (s : State) (h : HartId) (x : Hart) :
    (s.setHart h x).tile h.tile = { s.tile h.tile with ctx := (s.tc h.tile).setHart h.move x } := State.tile_setTile_self _ _ _

/-- An instruction traps, waits, or changes its hart alone. -/
def Ends (s t : State) (h : HartId) (p : Hart → Prop) : Prop :=
  (∃ code detail val, t = s.takeTrap h false code detail val) ∨ (∃ z, t = s.setWait h z) ∨ ∃ y, p y ∧ t = s.setHart h y

/-! ## What a register-writing instruction makes of its hart -/

/-- A hart has written nothing but one x or f register. -/
structure RegisterWrite (rd : Reg) (x y : Hart) : Prop where
  eq : y = { x with x := y.x, f := y.f }
  reads : ∀ r, r ≠ rd → y.readX r = x.readX r ∧ y.readF r = x.readF r

theorem Hart.readF_writeF_other (x : Hart) {r q : Reg} (v : Word32) (h : q ≠ r) : (x.writeF r v).readF q = x.readF q :=
  SMap.get_set_other _ _ _ _ _ (fun e => h (BitVec.eq_of_toNat_eq e))

theorem Hart.readX_writeX_other (x : Hart) {r q : Reg} (v : Word) (h : q ≠ r) : (x.writeX r v).readX q = x.readX q := by
  rw [Hart.readX_writeX, if_neg h]
  split
  · rename_i h0; simp [Hart.readX, h0]
  · rfl

theorem Hart.writeX_eq (x : Hart) (r : Reg) (v : Word) : x.writeX r v = { x with x := (x.writeX r v).x } := by
  unfold Hart.writeX; split <;> rfl

theorem Hart.readF_writeX (x : Hart) (r q : Reg) (v : Word) : (x.writeX r v).readF q = x.readF q := by
  rw [Hart.writeX_eq]; rfl

/-- A hart that has written a coordinate register. -/
def Hart.writeC (x : Hart) (n : BitVec 4) (v : Word) : Hart := { x with c := SMap.set 0 x.c n.toNat v }

theorem Hart.coord_writeC_other (x : Hart) {n : BitVec 4} {m : Nat} (v : Word) (h : m ≠ n.toNat) :
    SMap.get 0 (x.writeC n v).c m = SMap.get 0 x.c m := SMap.get_set_other _ _ _ _ _ h

theorem registerWrite_writeX (rd : Reg) (x : Hart) (v : Word) : RegisterWrite rd x (x.writeX rd v) where
  eq := by rw [Hart.writeX_eq]
  reads _ hr := ⟨x.readX_writeX_other v hr, x.readF_writeX _ _ v⟩

theorem registerWrite_writeF (rd : Reg) (x : Hart) (v : Word32) : RegisterWrite rd x (x.writeF rd v) where
  eq := rfl
  reads _ hr := ⟨rfl, x.readF_writeF_other v hr⟩

/-- A hart has retired an instruction that writes only registers: where it goes on unless it jumps, that it accrues no flags unless it is a
floating-point instruction, and the coordinates that it keeps. -/
structure RegisterStep (rd : Reg) (jump float : Prop) (keeps : Nat → Prop) (next : Word) (x y : Hart) : Prop where
  eq : y = { x with x := y.x, f := y.f, c := y.c, fflags := y.fflags, pc := y.pc, instret := x.instret + 1, run := .running, tmpl := [] }
  pc : ¬ jump → y.pc = next
  flags : ¬ float → y.fflags = x.fflags
  coords : ∀ m, keeps m → SMap.get 0 y.c m = SMap.get 0 x.c m
  reads : ∀ r, r ≠ rd → y.readX r = x.readX r ∧ y.readF r = x.readF r

section
variable {rd : Reg} {jump float : Prop} {keeps : Nat → Prop} {next pc : Word} {x y : Hart}

theorem RegisterWrite.step (h : RegisterWrite rd x y) (hpc : ¬ jump → pc = next) :
    RegisterStep rd jump float keeps next x (y.retired pc) := by
  obtain ⟨heq, hreads⟩ := h
  refine ⟨?_, hpc, fun _ => ?_, fun m _ => ?_, hreads⟩
  all_goals rw [heq]; rfl

theorem RegisterWrite.accrued (h : RegisterWrite rd x y) (fl : FFlags) (hfloat : float) (hpc : ¬ jump → pc = next) :
    RegisterStep rd jump float keeps next x ((y.accrue fl).retired pc) := by
  obtain ⟨heq, hreads⟩ := h
  refine ⟨?_, hpc, absurd hfloat, fun m _ => ?_, hreads⟩
  all_goals rw [heq]; rfl

end

/-! ## How the instructions end -/

section
variable {s t : State} {h : HartId} {rd : Reg} {jump float : Prop} {keeps : Nat → Prop} {next : Word}

theorem ends_trap {p : Hart → Prop} {code detail : Nat} {v : Word}
    (he : (.next (s.takeTrap h false code detail v) : Host.Outcome State Fault Refusal) = .next t) : Ends s t h p :=
  .inl ⟨code, detail, v, (Host.Outcome.next.inj he).symm⟩

theorem ends_result {v : Word} (hpc : ¬ jump → (s.hart h).pc + 4 = next)
    (he : (.next (s.result h rd v) : Host.Outcome State Fault Refusal) = .next t) :
    Ends s t h (RegisterStep rd jump float keeps next (s.hart h)) :=
  .inr (.inr ⟨_, (registerWrite_writeX rd (s.hart h) v).step hpc, (Host.Outcome.next.inj he).symm.trans (State.retire_setHart _ _ _ _)⟩)

theorem ends_putConst {v : Word32} {pc : Word} (hpc : ¬ jump → pc = next)
    (he : (.next (s.putConst h rd v pc) : Host.Outcome State Fault Refusal) = .next t) :
    Ends s t h (RegisterStep rd jump float keeps next (s.hart h)) :=
  .inr (.inr ⟨_, (registerWrite_writeF rd (s.hart h) v).step hpc, (Host.Outcome.next.inj he).symm.trans (State.retire_setHart _ _ _ _)⟩)

theorem ends_putF {r : Nat × FFlags} (hfloat : float) (hpc : ¬ jump → (s.hart h).pc + 4 = next)
    (he : hartStep h (putF h rd r) s = .next t) : Ends s t h (RegisterStep rd jump float keeps next (s.hart h)) := by
  rw [hartStep_putF] at he
  exact .inr (.inr ⟨_, (registerWrite_writeF rd (s.hart h) _).accrued r.2 hfloat hpc,
    (Host.Outcome.next.inj he).symm.trans (State.retire_setHart _ _ _ _)⟩)

theorem ends_putX {v : Word} {fl : FFlags} (hfloat : float) (hpc : ¬ jump → (s.hart h).pc + 4 = next)
    (he : hartStep h (putX h rd v fl) s = .next t) : Ends s t h (RegisterStep rd jump float keeps next (s.hart h)) := by
  rw [hartStep_putX] at he
  exact .inr (.inr ⟨_, (registerWrite_writeX rd (s.hart h) v).accrued fl hfloat hpc,
    (Host.Outcome.next.inj he).symm.trans (State.retire_setHart _ _ _ _)⟩)

/-- An instruction with a rounding mode ends as its body does, or traps where the mode is none. -/
theorem ends_useMode {rm : BitVec 3} {f : RMode → M Unit} {p : Hart → Prop}
    (hf : ∀ m, hartStep h (f m) s = .next t → Ends s t h p) (he : hartStep h (useMode h rm >>= f) s = .next t) : Ends s t h p := by
  cases hm : rmodeOf rm (s.hart h).frm with
  | none => rw [hartStep_useMode_none hm] at he; exact ends_trap he
  | some m => rw [hartStep_useMode_some hm] at he; exact hf m he

/-- A jump links and goes to its target, or traps (R51, R130). -/
theorem ends_link {v w : Word} (hjump : jump)
    (he : hartJump h (do let t ← jumpTo v; upd (fun s => s.writeX h rd w); pure t) s = .next t) :
    Ends s t h (RegisterStep rd jump float keeps next (s.hart h)) := by
  by_cases hv : v.toNat % 4 = 0
  · rw [hartJump_link hv] at he
    exact .inr (.inr ⟨_, (registerWrite_writeX rd (s.hart h) w).step (absurd hjump),
      (Host.Outcome.next.inj he).symm.trans (State.retire_setHart _ _ _ _)⟩)
  · rw [hartJump_link_trap hv] at he
    exact ends_trap he

end

section
variable {s t : State} {rd rs1 : Reg} {jump float : Prop} {keeps : Nat → Prop} {next : Word}

theorem ends_csrRead {k : CsrOp} (hpc : ¬ jump → (s.hart s.me).pc + 4 = next)
    (he : exec (.baseInstruction (.csrRead k)) s = .next t) :
    Ends s t s.me (RegisterStep k.rd jump float keeps next (s.hart s.me)) := by
  cases hv : readCsr s s.me k.csr.toNat with
  | none => rw [exec_csrRead_none hv] at he; exact ends_trap he
  | some v => rw [exec_csrRead_some hv] at he; exact ends_result hpc he

theorem ends_flitS {lit : Word32} (hpc : ¬ jump → (s.hart s.me).pc + 8 = next) (he : exec (.flitS rd lit) s = .next t) :
    Ends s t s.me (RegisterStep rd jump float keeps next (s.hart s.me)) := by
  rw [exec_flitS, execFlitS] at he
  split at he
  · exact ends_trap he
  · exact ends_putConst hpc he

theorem ends_vread {v : BitVec 2} (hpc : ¬ jump → (s.hart s.me).pc + 4 = next) (he : exec (.vread rd v) s = .next t) :
    Ends s t s.me (RegisterStep rd jump float keeps next (s.hart s.me)) := by
  rw [exec_vread, execVread] at he
  split at he
  · exact ends_trap he
  · rw [State.returnVote] at he
    split at he
    · exact .inr (.inl ⟨_, (Host.Outcome.next.inj he).symm⟩)
    · exact ends_result hpc he

theorem ends_accrd {a : BitVec 1} (hpc : ¬ jump → (s.hart s.me).pc + 4 = next) (he : exec (.accrd rd a rs1) s = .next t) :
    Ends s t s.me (RegisterStep rd jump float keeps next (s.hart s.me)) := by
  rw [exec_accrd, execAccrd] at he
  dsimp only at he
  split at he
  · rw [hartStep_trap (M.bind_error (by rfl))] at he
    exact ends_trap he
  · cases hx : (s.tc s.me.tile).q0.entries.find? (fun x => ownsAcc x.w) with
    | some x =>
      rw [hartStep_trap (by rw [hx]; rfl)] at he
      exact ends_trap he
    | none =>
      rw [hartStep_ok (by rw [hx]; rfl)] at he
      exact ends_result hpc he

theorem ends_cset {n : BitVec 4} {imm : BitVec 12} (hpc : ¬ jump → (s.hart s.me).pc + 4 = next) (hkeep : ∀ m, keeps m → m ≠ n.toNat)
    (he : exec (.cset n rs1 imm) s = .next t) : Ends s t s.me (RegisterStep rd jump float keeps next (s.hart s.me)) := by
  exact .inr (.inr ⟨((s.hart s.me).writeC n (addressOf s s.me rs1 imm)).retired ((s.hart s.me).pc + 4),
    ⟨rfl, hpc, fun _ => rfl, fun m hm => Hart.coord_writeC_other _ _ (hkeep m hm), fun _ _ => ⟨rfl, rfl⟩⟩,
    (Host.Outcome.next.inj he).symm.trans (State.retire_setHart _ _ _ _)⟩)

end

/-- Settles O13: each instruction of the lists ends by a trap, a wait or a write of one register. -/
theorem registerFrame : Obligations.RegisterFrame := by
  unfold Obligations.RegisterFrame
  intro s t rd rs1 rs2 rs3 a b c d imm u sh shw k x q v n y lit w fa fm fs fc it mx i h plain jumps floats hi he
  have hends : Ends s t s.me (RegisterStep rd (i ∈ jumps) (i ∈ floats) (fun m => m ≠ n.toNat ∨ i ≠ .cset n rs1 imm)
      ((s.hart s.me).pc + if i = .flitS rd lit then 8 else 4) (s.hart s.me)) := by
    by_cases hl : i = .flitS rd lit
    · subst hl
      exact ends_flitS (fun _ => by rw [if_pos rfl]) he
    · rw [if_neg hl]
      have hpc : i ∉ jumps → (s.hart s.me).pc + 4 = (s.hart s.me).pc + 4 := fun _ => rfl
      rcases hi with hi | hi | hi | rfl | ⟨rfl, rfl⟩
      · simp only [plain, List.mem_cons, List.not_mem_nil, or_false] at hi
        rcases hi with rfl | rfl | rfl | rfl | rfl | rfl | rfl | rfl | rfl | rfl | rfl | rfl | rfl | rfl | rfl | rfl
        iterate 8 · exact ends_result hpc he
        · exact ends_putConst hpc he
        · exact absurd rfl hl
        · exact ends_putConst hpc he
        iterate 3 · exact ends_result hpc he
        · exact ends_accrd hpc he
        · exact ends_vread hpc he
      · have hj : i ∈ jumps := hi
        simp only [jumps, List.mem_cons, List.not_mem_nil, or_false] at hi
        rcases hi with rfl | rfl
        · exact ends_link hj he
        · exact ends_link hj he
      · have hf : i ∈ floats := hi
        simp only [floats, List.mem_cons, List.not_mem_nil, or_false] at hi
        rcases hi with rfl | rfl | rfl | rfl | rfl | rfl | rfl | rfl | rfl | rfl | rfl
        iterate 3 · exact ends_useMode (fun _ => ends_putF hf hpc) he
        iterate 2 · exact ends_putF hf hpc he
        · exact ends_putX hf hpc he
        · exact ends_useMode (fun _ => ends_putX hf hpc) he
        · exact ends_useMode (fun _ => ends_putF hf hpc) he
        · exact ends_putX hf hpc he
        · exact ends_putF hf hpc he
        · exact ends_putX hf hpc he
      · exact ends_cset hpc (fun m hm => hm.resolve_right (absurd rfl)) he
      · exact ends_csrRead hpc he
  rcases hends with htrap | hwait | ⟨z, ⟨heq, hnext, hflags, hcoords, hreads⟩, rfl⟩
  · exact .inl htrap
  · exact .inr (.inl hwait)
  · refine .inr (.inr ⟨s.tiles_setHart _ _, fun g hg => s.tile_setHart_other _ _ hg, ?_⟩)
    rw [State.readX, State.hart_setHart_self]
    exact ⟨s.tile_setHart_self _ _, heq, hnext, hflags, hcoords, fun r hr => by
      rw [State.readX, State.hart_setHart_self]; exact hreads r hr, rfl⟩

end Sys2Proof.Machine
end


section
/-! Pushes of commands (R65, R92, R146, R152). -/

namespace Sys2Proof.Machine

open Sys2Proof.Claims

section
variable {s t : State} {h : HartId} {rd rs1 rs2 : Reg} {q : BitVec 2} {w : CmdBits}

/-- A queue has room for one more entry (R146). -/
def State.hasRoom (s : State) (h : HartId) (q : BitVec 2) : Prop :=
  ((s.queue h.tile q.toNat).entries.filter (·.waiting)).length < Config.queueCap q.toNat

/-- The push that a word makes: the run of its entry. -/
def State.pushRun (s : State) (h : HartId) (q : BitVec 2) (w : CmdBits) : Run :=
  { t := h.tile, q := q.toNat, e := s.entryFor h q.toNat w }

/-- The range table has room for the entry of a push, if there is one (R92). -/
def State.fitsRange (s : State) (h : HartId) (q : BitVec 2) (w : CmdBits) : Prop :=
  s.rangeOf (s.pushRun h q w) = none ∨ (s.tc h.tile).ranges.length < Config.rangeEntries

/-- The state after a push, before its instruction retires. -/
def State.pushed (s : State) (h : HartId) (rd : Reg) (q : BitVec 2) (w : CmdBits) : State :=
  ((s.touchSpans (s.pushRun h q w)).modTc h.tile (fun c => c.append q.toNat (s.pushRun h q w).e (s.rangeOf (s.pushRun h q w)))).writeX
    h rd (s.pushRun h q w).e.ret

/-- A body goes on where its condition holds, and stops where it does not. -/
theorem need_bind {α : Type} {b : Bool} {e : Exc} {f : Unit → M α} (hb : b = true) : (need b e >>= f) s = f () s := by
  rw [hb, M.bind_ok (need_true e s)]

theorem need_bind_not {α : Type} {b : Bool} {e : Exc} {f : Unit → M α} (hb : b = false) : (need b e >>= f) s = .error e s := by
  rw [hb, M.bind_error (need_false e s)]

theorem pushWord_ok (hroom : s.hasRoom h q) (hfits : s.fitsRange h q w) : pushWord h rd q w s = .ok () (s.pushed h rd q w) := by
  have hrange : ((s.rangeOf (s.pushRun h q w)).isNone || decide ((s.tc h.tile).ranges.length < Config.rangeEntries)) = true := by
    simpa [State.fitsRange] using hfits
  rw [pushWord, M.bind_ok (M.get_run s)]
  refine (need_bind ?_).trans ((need_bind ?_).trans (upd_run _ s))
  · exact decide_eq_true hroom
  · exact hrange

theorem pushWord_full (hroom : ¬ s.hasRoom h q) : pushWord h rd q w s = .error (.wait (.qput rd q w)) s := by
  rw [pushWord, M.bind_ok (M.get_run s)]
  exact need_bind_not (decide_eq_false hroom)

/-- The reason for which a push refuses a header, in the trap value (R152). -/
def headerValue (h : HartId) (q : BitVec 2) (w : CmdBits) : Word :=
  BitVec.ofNat 64 (headerCheck (bits w 0 32) q.toNat h.move * 2 ^ 32 + field w 0 32)

/-- A push whose header passes ends as the push of its word does. -/
theorem qput_body_ok {r : EStateM.Result Exc State Unit} (hread : readTemplate h (s.readX h rs1) rs2 s = .ok w t)
    (hcheck : headerCheck (bits w 0 32) q.toNat h.move = 0) (hpush : pushWord h rd q w t = r) :
    (do
      let w ← readTemplate h (s.readX h rs1) rs2
      need (headerCheck (bits w 0 32) q.toNat h.move = 0) (.trap 24 0 (headerValue h q w))
      pushWord h rd q w) s = r := by
  rw [M.bind_ok hread, need_bind (decide_eq_true hcheck), hpush]

theorem qput_body_trap (hread : readTemplate h (s.readX h rs1) rs2 s = .ok w t)
    (hcheck : headerCheck (bits w 0 32) q.toNat h.move ≠ 0) :
    (do
      let w ← readTemplate h (s.readX h rs1) rs2
      need (headerCheck (bits w 0 32) q.toNat h.move = 0) (.trap 24 0 (headerValue h q w))
      pushWord h rd q w) s = .error (.trap 24 0 (headerValue h q w)) t := by
  rw [M.bind_ok hread, need_bind_not (decide_eq_false hcheck)]

end

section
variable {s t : State} {rd rs1 rs2 : Reg} {q : BitVec 2} {w : CmdBits}

theorem exec_qputResume_waiting (hwait : (s.hart s.me).run = .waiting (.qput rd q w)) :
    exec .qputResume s = hartStep s.me (pushWord s.me rd q w) s := by
  rw [exec_qputResume, execQputResume, hwait]

/-- A hart that waits. -/
theorem State.run_setWait (s : State) (h : HartId) (z : Wait) : ((s.setWait h z).hart h).run = .waiting z := by
  simp [State.setWait]

end

/-- Settles O27: what is read of the template decides between the trap, the wait and the push. -/
theorem pushResults : Obligations.PushResults := by
  unfold Obligations.PushResults
  intro s t rd rs1 rs2 q w h next room pushed fits
  refine ⟨fun hread hcheck => ⟨fun hroom hfits => ?_, fun hroom => ⟨t.setWait h (.qput rd q w), ?_, t.run_setWait _ _⟩⟩,
    fun hread hcheck => ?_, fun hwait hroom hfits => ?_⟩
  · exact hartStep_ok (qput_body_ok hread hcheck (pushWord_ok hroom hfits))
  · exact hartStep_wait (qput_body_ok hread hcheck (pushWord_full hroom))
  · exact hartStep_trap (qput_body_trap hread hcheck)
  · rw [exec_qputResume_waiting hwait]
    exact hartStep_ok (pushWord_ok hroom hfits)

end Sys2Proof.Machine
end


section
/-! Why the frame of the atomics fails: an atomic on tier S counts an access of its page. -/

namespace Sys2Proof.Machine

open Sys2Proof.Claims

/-- Context 0 runs on tile 0, whose main hart holds 0x200000 in x2. Its page table is one table at address 0: entry 0 points to the table
itself, and entry 1 maps the page at 0x200000, read and write, to the first 2 MiB of tier S (R329, R330). -/
def atomicState : State :=
  { State.reset with
    cur := .main 0
    mem := [(7, 0x80), (15, 0xC3)]
    tiles := [(0, { owner := some (0, 0), ctx := { main := { run := .running, x := [(2, 0x200000)] } } })]
    ctxs := [(0, { st := .running })] }

/-- The leaf of that page for its first byte. -/
def atomicLeafAt : Leaf :=
  { pa := 0, base := 0, size := 21, tier := 0, writable := true, compressed := false, entryPa := 8, entry := 0xC300000000000000 }

theorem atomicState_quiet : Quiet atomicState :=
  ⟨rfl, fun line => by
    have hbank : ∀ b, atomicState.bank b = {} := fun b => rfl
    simp [State.erasedBanks, hbank]⟩

/-- What an outcome leaves of the access counts of context 0. -/
def hotOf (o : Host.Outcome State Fault Refusal) : Option (SMap Nat) :=
  match o with
  | .next t => some (t.ctx 0).hot
  | _ => none

theorem next_of_hotOf {o : Host.Outcome State Fault Refusal} {m : SMap Nat} (h : hotOf o = some m) :
    ∃ t, o = .next t ∧ (t.ctx 0).hot = m := by
  cases o with
  | next t => exact ⟨t, rfl, Option.some.inj h⟩
  | fault _ => cases h
  | refused _ => cases h

/-- The state after the translation of the page's first byte. -/
def atomicTranslated : State := (atomicState.translate 0 (.hart false) 0 0x200000).1

theorem atomicState_translate : atomicState.translate 0 (.hart false) 0 0x200000 = (atomicTranslated, .ok atomicLeafAt) := by
  have hleaf : (atomicState.translate 0 (.hart false) 0 0x200000).2.toOption = some atomicLeafAt := by decide +kernel
  refine Prod.ext rfl ?_
  cases hr : (atomicState.translate 0 (.hart false) 0 0x200000).2 with
  | error k => rw [hr] at hleaf; cases hleaf
  | ok l => rw [hr] at hleaf; exact congrArg Except.ok (Option.some.inj hleaf)

theorem atomicState_writable : Writable atomicState ⟨0, false⟩ 8 0x200000 atomicLeafAt atomicTranslated :=
  ⟨⟨rfl, by decide, atomicState_translate, rfl⟩, rfl, by decide +kernel⟩

theorem atomicState_lineFree : LineFree atomicTranslated ⟨0, false⟩ atomicLeafAt true := by
  unfold LineFree; decide +kernel

/-- The atomic counts one access of its page. -/
theorem hotOf_maAdd : hotOf (exec (.maAdd 1 2 0) atomicState) = some [(0, 1)] := by decide +kernel

/-- Refutes O12: `ma.add` on a page of tier S adds one to the count of that page's accesses, which the frame has unchanged. -/
theorem not_storeFrame : ¬ Obligations.StoreFrame := by
  unfold Obligations.StoreFrame
  intro hframe
  obtain ⟨t, hexec, hhot⟩ := next_of_hotOf hotOf_maAdd
  obtain ⟨-, -, -, -, -, hctx, -⟩ := hframe atomicState t atomicTranslated 1 2 0 0 0 atomicLeafAt .sd (.maAdd 1 2 0) 8 0x200000
    atomicState_quiet (.inr (.inr (.inl ⟨List.mem_cons_self, rfl, by decide +kernel, by decide⟩))) atomicState_writable atomicState_lineFree
    (fun r hr => nomatch hr) hexec
  have hsame : (t.ctx 0).hot = (atomicState.ctx 0).hot := (congrArg Context.hot (hctx 0)).trans rfl
  rw [hhot] at hsame
  exact absurd hsame (by decide)

end Sys2Proof.Machine
end


section
/-! What loads leave unchanged where no line holds an upset (R50, R82, R89, R355). -/

namespace Sys2Proof.Machine

open Sys2Proof.Claims

/-! ## What a read leaves -/

/-- What a read by a tile leaves of a state: all but caches, counts, the log and what is drawn. -/
structure ReadFrame (s u : State) : Prop where
  mem : u.mem = s.mem
  full : u.full = s.full
  flips : u.flips = s.flips
  banks : u.banks = s.banks
  anvils : u.anvils = s.anvils
  rings : u.rings = s.rings
  watches : u.watches = s.watches
  held : u.held = s.held
  ctx : ∀ c, u.ctx c = { s.ctx c with hot := (u.ctx c).hot, lost := (u.ctx c).lost }
  tc : ∀ k, u.tc k = s.tc k

theorem ReadFrame.refl (s : State) : ReadFrame s s := ⟨rfl, rfl, rfl, rfl, rfl, rfl, rfl, rfl, fun _ => rfl, fun _ => rfl⟩

theorem ReadFrame.trans {s t u : State} (h : ReadFrame s t) (k : ReadFrame t u) : ReadFrame s u where
  mem := k.mem.trans h.mem
  full := k.full.trans h.full
  flips := k.flips.trans h.flips
  banks := k.banks.trans h.banks
  anvils := k.anvils.trans h.anvils
  rings := k.rings.trans h.rings
  watches := k.watches.trans h.watches
  held := k.held.trans h.held
  ctx c := (k.ctx c).trans (by rw [h.ctx c])
  tc n := (k.tc n).trans (h.tc n)

theorem ReadFrame.quiet {s u : State} (h : ReadFrame s u) (hq : Quiet s) : Quiet u := by
  obtain ⟨hf, he⟩ := hq
  have hbank : ∀ i, u.bank i = s.bank i := fun i => by unfold State.bank; rw [h.banks]
  refine ⟨h.flips.trans hf, fun line => ?_⟩
  have : u.erasedBanks line = s.erasedBanks line := by simp only [State.erasedBanks, hbank]
  rw [this]; exact he line

theorem ReadFrame.hart {s u : State} (h : ReadFrame s u) (g : HartId) : u.hart g = s.hart g := by
  rw [State.hart, h.tc, State.hart]

/-! ## The parts of a read -/

/-- A change of a tile outside the context's part, of the device and of what is drawn. -/
theorem readFrame_setTile (s : State) (n : Nat) (d : Device) {k : Nat} {x : Tile} (hx : x.ctx = (s.tile k).ctx) :
    ReadFrame s (State.setTile { s with fresh := n, dev := d } k x) where
  mem := rfl
  full := rfl
  flips := rfl
  banks := rfl
  anvils := rfl
  rings := rfl
  watches := rfl
  held := rfl
  ctx _ := rfl
  tc m := by
    rw [State.tc, State.tile_setTile]
    split
    · subst_vars; exact hx
    · rfl

theorem readFrame_dev (s : State) (n : Nat) (d : Device) : ReadFrame s { s with fresh := n, dev := d } :=
  ⟨rfl, rfl, rfl, rfl, rfl, rfl, rfl, rfl, fun _ => rfl, fun _ => rfl⟩

theorem Translated.readFrame {s u : State} {k : Nat} (h : Translated s k u) : ReadFrame s u := by
  obtain ⟨a, b, l, n, d, -, rfl | rfl⟩ := h
  · exact readFrame_setTile s n d rfl
  · exact readFrame_dev s n d

/-- A context that only counts. -/
theorem readFrame_modCtx (s : State) (c : Nat) {f : Context → Context}
    (hf : ∀ x, f x = { x with hot := (f x).hot, lost := (f x).lost }) : ReadFrame s (s.modCtx c f) where
  mem := rfl
  full := rfl
  flips := rfl
  banks := rfl
  anvils := rfl
  rings := rfl
  watches := rfl
  held := rfl
  ctx d := by
    rw [State.ctx_modCtx]
    split
    · subst_vars; exact hf _
    · rfl
  tc _ := rfl

theorem countAccess_readFrame (s : State) (c : Nat) (l : Leaf) : ReadFrame s (s.countAccess c l) :=
  readFrame_modCtx s c fun _ => rfl

theorem takeLoss_readFrame {s u : State} {k c : Nat} {write : Bool} {l : Leaf} (h : s.takeLoss k c write l = some u) :
    ReadFrame s u := by
  unfold State.takeLoss at h
  obtain ⟨-, h⟩ := Option.ite_none_right_eq_some.1 h
  obtain rfl := Option.some.inj h
  refine .trans (readFrame_setTile s s.fresh s.dev ?_) (readFrame_modCtx _ c fun _ => rfl)
  split <;> rfl

theorem stage_readFrame (s : State) (pa : Nat) : ReadFrame s (s.stage pa) := by
  unfold State.stage
  dsimp only
  split
  · exact .refl s
  · exact readFrame_dev s s.fresh _

theorem countUnmapped_readFrame (s : State) (c : Option Nat) (pa : Nat) : ReadFrame s (s.countUnmapped c pa) :=
  readFrame_dev s s.fresh _

section
variable {s : State} (hq : Quiet s)
include hq

theorem homeRead_readFrame (c : Option Nat) (pa n : Nat) : ReadFrame s (s.homeRead c pa n).1 := by
  unfold State.homeRead
  split
  · rw [State.touch_quiet hq]; exact .refl s
  · split
    · exact stage_readFrame s pa
    · exact countUnmapped_readFrame s c pa
  · split
    · rw [State.touch_quiet hq]; exact .refl s
    · exact countUnmapped_readFrame s c pa

theorem countedRead_readFrame (c d pa n : Nat) (l : Leaf) : ReadFrame s ((s.countAccess c l).homeRead (some d) pa n).1 :=
  have hcount := countAccess_readFrame s c l
  hcount.trans (homeRead_readFrame (hcount.quiet hq) _ _ _)

theorem cachedRead_readFrame (k c n : Nat) (l : Leaf) : ReadFrame s (s.cachedRead k c l n).1 := by
  unfold State.cachedRead
  dsimp only
  split
  · exact countedRead_readFrame hq _ _ _ _ _
  · split
    · split
      · exact takeLoss_readFrame ‹_›
      · exact homeRead_readFrame hq _ _ _
    · split
      · exact readFrame_setTile s s.fresh s.dev rfl
      · split
        · exact takeLoss_readFrame ‹_›
        · refine (countedRead_readFrame hq c c (l.pa / 64 * 64) 64 l).trans ?_
          exact readFrame_setTile _ (State.fresh _) (State.dev _) rfl

theorem bypassRead_readFrame (k c n : Nat) (l : Leaf) : ReadFrame s (s.bypassRead k c l n false).1 := by
  unfold State.bypassRead
  split
  · exact takeLoss_readFrame ‹_›
  · rw [Bool.false_and, if_neg (by decide), State.directRead]
    split
    · exact countedRead_readFrame hq _ _ _ _ _
    · exact homeRead_readFrame hq _ _ _

theorem readable_readFrame {h : HartId} {n : Nat} {va : Word} {l : Leaf} {u : State} (hr : Readable s h n va l u) : ReadFrame s u := by
  obtain ⟨-, -, htranslate, -⟩ := hr
  have := (State.translate_quiet hq h.tile (.hart h.move) (s.ctxOf h.tile) va.toNat).readFrame
  rwa [htranslate] at this

end

/-! ## What a load leaves -/

/-- A load writes one register and retires. -/
theorem loaded_eq (op : LoadOp) (h : HartId) (rd : Reg) (pc : Word) (r : State × Nat) :
    ∃ z, RegisterWrite rd (r.1.hart h) z ∧ State.loaded op h rd pc r = r.1.setHart h (z.retired pc) := by
  cases op
  case flw => exact ⟨_, registerWrite_writeF rd _ _, State.retire_setHart _ _ _ _⟩
  all_goals exact ⟨_, registerWrite_writeX rd _ _, State.retire_setHart _ _ _ _⟩

/-- A load has read in some state that a read leaves, and has written one register of its hart. -/
theorem load_shape {s u t : State} {rd rs1 : Reg} {imm : BitVec 12} {l : Leaf} {op : LoadOp} {i : Instr} {n : Nat} (hq : Quiet s)
    (hi : i = .plainLoad op rd rs1 imm ∨ i = .ldU rd rs1 imm) (hr : Readable s s.me n (addressOf s s.me rs1 imm) l u)
    (hn : n = if i = .ldU rd rs1 imm then 8 else loadSize op) (hf : LineFree u s.me l false) (he : exec i s = .next t) :
    ∃ w z, ReadFrame s w ∧ RegisterWrite rd (s.hart s.me) z ∧ t = w.setHart s.me (z.retired ((s.hart s.me).pc + 4)) := by
  have hu := readable_readFrame hq hr
  rcases hi with rfl | rfl
  · obtain rfl : n = loadSize op := hn.trans (if_neg nofun)
    rw [exec_plainLoad_ok hr hf] at he
    have hw := hu.trans (cachedRead_readFrame (hu.quiet hq) s.me.tile (u.ctxOf s.me.tile) (loadSize op) l)
    obtain ⟨z, hz, heq⟩ := loaded_eq op s.me rd ((s.hart s.me).pc + 4) (u.cachedRead s.me.tile (u.ctxOf s.me.tile) l (loadSize op))
    rw [hw.hart] at hz
    exact ⟨_, z, hw, hz, (Host.Outcome.next.inj he).symm.trans heq⟩
  · obtain rfl : n = 8 := hn.trans (if_pos rfl)
    rw [exec_ldU_ok hr] at he
    have hw := hu.trans (bypassRead_readFrame (hu.quiet hq) s.me.tile (s.ctxOf s.me.tile) 8 l)
    refine ⟨_, _, hw, ?_, (Host.Outcome.next.inj he).symm.trans (State.retire_setHart _ _ _ _)⟩
    rw [hw.hart]
    exact registerWrite_writeX rd _ _

/-- Settles O11: a load is a read, which only counts and caches, and a write of one register. -/
theorem loadFrame : Obligations.LoadFrame := by
  unfold Obligations.LoadFrame
  intro s t rd rs1 imm l op i h hq hi ⟨u, n, hr, hn, hf⟩ he
  obtain ⟨w, z, hw, ⟨hz, hreads⟩, rfl⟩ := load_shape hq hi hr hn hf he
  have hhart := w.hart_setHart_self h (z.retired ((s.hart h).pc + 4))
  have htc : (w.setHart h (z.retired ((s.hart h).pc + 4))).tc h.tile = (w.tc h.tile).setHart h.move (z.retired ((s.hart h).pc + 4)) :=
    State.tc_modTc_self _ _ _
  refine ⟨fun a => State.byte_congr hw.mem a, hw.full, hw.anvils, hw.rings, hw.watches, hw.held, hw.ctx, fun k hk => ?_, ?_, ?_,
    fun q hq => ?_, fun q hq => ?_⟩
  · exact ((State.tc_modTc _ _ _ _).trans (if_neg hk)).trans (hw.tc k)
  · rw [hhart, htc, hw.tc]
  · rw [hhart, hz]; rfl
  · rw [State.readX, State.readX, hhart]; exact (hreads q hq).1
  · rw [hhart]; exact (hreads q hq).2

end Sys2Proof.Machine
end

section
/-! What a device reset leaves (R84, R121, R351, R377, R385). -/

namespace Sys2Proof.Machine

open Sys2Proof.Claims

/-- Settles O5: no byte is listed. -/
theorem resetMemoryCanonical : Obligations.ResetMemoryCanonical := by
  unfold Obligations.ResetMemoryCanonical memoryOk
  rfl

/-- Settles O6: every map of the state is empty, so that each lookup gives its default. -/
theorem resetState : Obligations.ResetState := by
  unfold Obligations.ResetState
  exact ⟨fun _ _ => ⟨rfl, rfl⟩, fun _ => rfl, fun _ => rfl, fun _ => rfl, rfl⟩

end Sys2Proof.Machine
end

section
/-! Scrubbing, rebuilding and gating (R89, R91, R204). -/

namespace Sys2Proof.Machine

open Sys2Proof.Claims

section
variable {s : State} {tile layer row bank r : Nat}

theorem exec_patrolScrub_row (ht : tile < Config.nTiles) (hl : layer < 4) (hr : row < 16384) :
    exec (.patrolScrub tile layer row) s = .next ((rowLines tile layer row).foldl (fun (x : State) n => x.touch none n) s) := by
  rw [exec_patrolScrub, execPatrolScrub, if_neg (by simp [ht, hl, hr])]

/-- A step of a rebuild goes on to the next row. -/
theorem exec_rebuildStep_row (hb : (s.bank bank).rebuild = some r) (hr : r < 16384) :
    ∃ t, exec (.rebuildStep bank) s = .next t ∧ (t.bank bank).rebuild = some (r + 1) := by
  rw [exec_rebuildStep, execRebuildStep, hb]
  dsimp only
  rw [if_neg (Nat.not_le.mpr hr)]
  exact ⟨_, rfl, by simp⟩

theorem exec_rebuildComplete_last (hb : (s.bank bank).rebuild = some r) (hr : 16384 ≤ r) :
    exec (.rebuildComplete bank) s = .next (s.setBank bank { s.bank bank with erased := false, rebuild := none, times := [] }) := by
  rw [exec_rebuildComplete, execRebuildComplete, hb]
  dsimp only
  rw [if_neg (Nat.not_lt.mpr hr)]

theorem exec_tileGate_idle (ht : tile < Config.nTiles) (hg : s.dev.settings.gate ≠ 0) (hi : s.tileIdle tile = true) :
    exec (.tileGate tile) s = .next (s.setTile tile { s.tile tile with gated := true }) := by
  rw [exec_tileGate, execTileGate, if_neg (by simp [ht, hg, hi])]

end

/-- Settles O60: the scrubber, the two steps of a rebuild, and the two of gating. -/
theorem upkeepResults : Obligations.UpkeepResults := by
  unfold Obligations.UpkeepResults
  exact fun _ tile _ _ _ _ => ⟨exec_patrolScrub_row, exec_rebuildStep_row, exec_rebuildComplete_last, exec_tileGate_idle,
    exec_tileUngate tile _⟩

end Sys2Proof.Machine
end

section
/-! How memory in its canonical form is carried from a state to the next: by outcomes, by the bodies of instructions, and by the updates
that leave memory. -/

namespace Sys2Proof.Machine

open Sys2Proof.Claims

/-- The next state that an outcome answers, if it answers one, has the canonical form of memory. -/
structure Canonical (o : Host.Outcome State Fault Refusal) : Prop where
  next : ∀ {t}, o = .next t → memoryOk t

theorem Canonical.of {t : State} (h : memoryOk t) : Canonical (.next t) := ⟨fun ht => Host.Outcome.next.inj ht ▸ h⟩

/-- A body leaves memory canonical, where it has its effect and where it stops. (`Keeps` as a structure: elaboration does not
unfold the body of a structure's parameter.) -/
structure Sound {α : Type} (m : M α) : Prop where
  keeps : Keeps m

/-- A body does so when it starts in a certain state. -/
structure SoundAt {α : Type} (m : M α) (s : State) : Prop where
  keeps : match m s with | .ok _ t => memoryOk t | .error _ t => memoryOk t

section
variable {α β : Type} {s t : State}

theorem Sound.pure (a : α) : Sound (pure a : M α) := ⟨Keeps.pure a⟩
theorem Sound.get : Sound (get : M State) := ⟨Keeps.get⟩
theorem Sound.throw (e : Exc) : Sound (throw e : M α) := ⟨Keeps.throw e⟩
theorem Sound.need (b : Bool) (e : Exc) : Sound (need b e) := ⟨Keeps.need b e⟩
theorem Sound.upd {f : State → State} (hf : ∀ s, memoryOk s → memoryOk (f s)) : Sound (upd f) := ⟨Keeps.upd hf⟩
theorem Sound.modifyGet {f : State → α × State} (hf : ∀ s, memoryOk s → memoryOk (f s).2) : Sound (modifyGet f : M α) :=
  ⟨Keeps.modifyGet hf⟩
theorem Sound.bind {m : M α} {f : α → M β} (hm : Sound m) (hf : ∀ a, Sound (f a)) : Sound (m >>= f) :=
  ⟨Keeps.bind hm.keeps fun a => (hf a).keeps⟩
theorem Sound.forM {l : List α} {f : α → M PUnit} (hf : ∀ a, Sound (f a)) : Sound (l.forM f) := ⟨Keeps.forM fun a => (hf a).keeps⟩

theorem Sound.mapM {l : List α} {f : α → M β} (hf : ∀ a, Sound (f a)) : Sound (l.mapM f) := by
  induction l with
  | nil => exact Sound.pure _
  | cons a l ih =>
    rw [List.mapM_cons]
    exact Sound.bind (hf a) fun _ => Sound.bind ih fun _ => Sound.pure _

theorem Sound.foldlM {l : List α} {f : β → α → M β} (hf : ∀ b a, Sound (f b a)) {b : β} : Sound (l.foldlM f b) := by
  induction l generalizing b with
  | nil => exact Sound.pure _
  | cons a l ih => exact Sound.bind (hf b a) fun _ => ih

theorem Sound.ok {m : M α} {a : α} (hm : Sound m) (h : memoryOk s) (hr : m s = .ok a t) : memoryOk t := by
  have := hm.keeps s h; rwa [hr] at this

theorem Sound.error {m : M α} {e : Exc} (hm : Sound m) (h : memoryOk s) (hr : m s = .error e t) : memoryOk t := by
  have := hm.keeps s h; rwa [hr] at this

theorem Sound.at {m : M α} (hm : Sound m) (h : memoryOk s) : SoundAt m s := ⟨hm.keeps s h⟩

/-- A body that reads the state goes on in the state that it has read. -/
theorem Sound.getBind {f : State → M α} (hf : ∀ s, memoryOk s → SoundAt (f s) s) : Sound (MonadState.get >>= f) :=
  ⟨fun s h => (hf s h).keeps⟩

theorem SoundAt.setBind {k : M α} (ht : memoryOk t) (hk : Sound k) : SoundAt (set t >>= fun _ => k) s := ⟨hk.keeps t ht⟩

theorem memoryOk_fst {x : State × α} {a : α} (hx : x = (t, a)) (h : memoryOk x.1) : memoryOk t := by
  subst hx; exact h

theorem wordGet_sound {r : Run} {get : Nat → Nat → M Nat} (hg : ∀ a n, Sound (get a n)) {va n : Nat} : Sound (wordGet r get va n) :=
  ⟨wordGet_keeps (fun a n => (hg a n).keeps) va n⟩

end

section
variable {s : State}

theorem hartStep_canonical {h : HartId} {body : M Unit} (hs : memoryOk s) (hb : Sound body) : Canonical (hartStep h body s) :=
  ⟨hartStep_keeps hb.keeps hs⟩

theorem hartJump_canonical {h : HartId} {body : M Word} (hs : memoryOk s) (hb : Sound body) : Canonical (hartJump h body s) :=
  ⟨hartJump_keeps hb.keeps hs⟩

theorem runCommand_canonical {op : Nat} {c : Cmd} {body : Run → M Bool} (hs : memoryOk s) (hb : ∀ r, Sound (body r)) :
    Canonical (runCommand op c body s) :=
  ⟨runCommand_keeps (fun r => (hb r).keeps) hs⟩

theorem runRequest_canonical {op : Nat} {r : Request} {body : Nat → State → Answer} (hs : memoryOk s)
    (hb : ∀ n s, memoryOk s → memoryOk (body n s).1) : Canonical (runRequest op r body s) :=
  ⟨runRequest_keeps hb hs⟩

theorem runOnContext_canonical {op : Nat} {r : Request} {ok : Context → Bool} {body : Nat → State → Answer} (hs : memoryOk s)
    (hb : ∀ n s, memoryOk s → memoryOk (body n s).1) : Canonical (runOnContext op r ok body s) :=
  ⟨runOnContext_keeps hb hs⟩

end

/-! ## Updates that leave memory -/

section
variable {s : State}
theorem State.wf_setTile {t : Nat} {x : Tile} (h : memoryOk s) : memoryOk (s.setTile t x) := h
theorem State.wf_modTc {t : Nat} {f : TileCtx → TileCtx} (h : memoryOk s) : memoryOk (s.modTc t f) := h
theorem State.wf_modHart {g : HartId} {f : Hart → Hart} (h : memoryOk s) : memoryOk (s.modHart g f) := h
theorem State.wf_modCtx {c : Nat} {f : Context → Context} (h : memoryOk s) : memoryOk (s.modCtx c f) := h
theorem State.wf_modDev {f : Device → Device} (h : memoryOk s) : memoryOk (s.modDev f) := h
theorem State.wf_modEntry {t q seq : Nat} {f : Entry → Entry} (h : memoryOk s) : memoryOk (s.modEntry t q seq f) := h
theorem State.wf_logEvent {code : LogCode} {c : Option Nat} {pa : Nat} (h : memoryOk s) : memoryOk (s.logEvent code c pa) := h
theorem State.wf_later {i : Instr} (h : memoryOk s) : memoryOk (s.later i) := h
theorem State.wf_setRing {n : Nat} {x : Ring} (h : memoryOk s) : memoryOk (s.setRing n x) := h
theorem State.wf_countUnmapped {c : Option Nat} {pa : Nat} (h : memoryOk s) : memoryOk (s.countUnmapped c pa) := h
theorem State.wf_markTagged {c : Nat} {l : Leaf} (h : memoryOk s) : memoryOk (s.markTagged c l) := h
theorem State.wf_setWait {g : HartId} {w : Wait} (h : memoryOk s) : memoryOk (s.setWait g w) := h
theorem State.wf_result {g : HartId} {r : Reg} {v : Word} (h : memoryOk s) : memoryOk (s.result g r v) :=
  State.wf_retire (State.wf_writeX h)
end

theorem Sound.ite {α : Type} {p : Prop} [Decidable p] {a b : M α} (ha : Sound a) (hb : Sound b) : Sound (if p then a else b) := by
  split
  · exact ha
  · exact hb

theorem Canonical.ite {p : Prop} [Decidable p] {a b : Host.Outcome State Fault Refusal} (ha : Canonical a) (hb : Canonical b) :
    Canonical (if p then a else b) := by
  split
  · exact ha
  · exact hb

theorem memoryOk_ite {p : Prop} [Decidable p] {s t : State} (hs : memoryOk s) (ht : memoryOk t) : memoryOk (if p then s else t) := by
  split
  · exact hs
  · exact ht

theorem memoryOk_answerIte {p : Prop} [Decidable p] {a b : Answer} (ha : memoryOk a.1) (hb : memoryOk b.1) :
    memoryOk (if p then a else b).1 := by
  split
  · exact ha
  · exact hb

end Sys2Proof.Machine
end

section
/-! The shared bodies of harts and engines keep memory canonical. -/

namespace Sys2Proof.Machine

open Sys2Proof.Claims

theorem hartLeaf_sound {h : HartId} {store : Bool} {size : Nat} {va : Word} : Sound (hartLeaf h store size va) := by
  unfold hartLeaf
  refine Sound.bind (Sound.need _ _) fun _ => Sound.bind (Sound.need _ _) fun _ => Sound.getBind fun s hs =>
    SoundAt.setBind (State.wf_translate hs) ?_
  split
  · exact Sound.throw _
  · exact Sound.bind (Sound.need _ _) fun _ => Sound.pure _

theorem engineTranslate_sound {r : Run} {va : Nat} : Sound (engineTranslate r va) := by
  unfold engineTranslate
  refine Sound.getBind fun s hs => ?_
  split
  · exact Sound.at (Sound.pure _) hs
  · refine SoundAt.setBind (State.wf_translate hs) ?_
    split
    · split
      · exact Sound.bind (Sound.upd fun _ hs => hs) fun _ => Sound.pure _
      · exact Sound.pure _
    · exact Sound.pure _

theorem checkSlots_sound {d : Nat} {f : Option Nat} {l : List Slot} : Sound (checkSlots d f l) := by
  induction l with
  | nil => exact Sound.pure _
  | cons x l ih => exact Sound.bind (Sound.need _ _) fun _ => Sound.bind (Sound.need _ _) fun _ => ih

/-! ## Bodies of harts and engines -/

theorem illegal_sound {h : HartId} : Sound (illegal h) :=
  Sound.bind Sound.get fun _ => Sound.throw _

theorem rangeWait_sound {h : HartId} {va : Word} {l : Leaf} {write : Bool} : Sound (rangeWait h va l write) :=
  Sound.bind Sound.get fun _ => Sound.need _ _

theorem movingWait_sound {h : HartId} {va : Word} : Sound (movingWait h va) :=
  Sound.bind Sound.get fun _ => Sound.need _ _

theorem accessWait_sound {h : HartId} {va : Word} {l : Leaf} {write : Bool} : Sound (accessWait h va l write) := by
  unfold accessWait
  refine Sound.bind rangeWait_sound fun _ => ?_
  split
  · exact movingWait_sound
  · exact Sound.pure _

theorem loadLeaf_sound {h : HartId} {size : Nat} {va : Word} : Sound (loadLeaf h size va) :=
  hartLeaf_sound

theorem storeLeaf_sound {h : HartId} {size : Nat} {va : Word} : Sound (storeLeaf h size va) :=
  Sound.bind hartLeaf_sound fun _ => Sound.bind (Sound.need _ _) fun _ => Sound.pure _

theorem taggedLeaf_sound {h : HartId} {store writes : Bool} {va : Word} : Sound (taggedLeaf h store writes va) :=
  Sound.bind hartLeaf_sound fun _ => Sound.bind (Sound.need _ _) fun _ => Sound.bind (Sound.need _ _) fun _ => Sound.pure _

theorem atomicLeaf_sound {h : HartId} {size : Nat} {va : Word} : Sound (atomicLeaf h size va) :=
  Sound.bind hartLeaf_sound fun _ => Sound.bind (Sound.need _ _) fun _ => Sound.bind (Sound.need _ _) fun _ => Sound.pure _

theorem plainRead_sound {h : HartId} {size : Nat} {va : Word} : Sound (plainRead h size va) :=
  Sound.bind loadLeaf_sound fun _ => Sound.bind rangeWait_sound fun _ => Sound.modifyGet fun _ hs => State.wf_cachedRead hs

theorem recordWord_sound {h : HartId} {va : Word} {i : Nat} : Sound (recordWord h va i) := by
  unfold recordWord
  refine Sound.bind Sound.get fun _ => ?_
  split
  · exact Sound.pure _
  · exact Sound.bind plainRead_sound fun _ => Sound.bind (Sound.upd fun _ hs => hs) fun _ => Sound.pure _

theorem plainWords_sound {h : HartId} {va : Word} {n : Nat} : Sound (plainWords h va n) :=
  Sound.mapM fun _ => recordWord_sound

theorem demandChecks_sound {fill : Option (Nat × Nat)} {pops : List (Nat × Nat)} : Sound (demandChecks fill pops) := by
  unfold demandChecks
  dsimp only
  split
  · refine Sound.bind (Sound.need _ _) fun _ => Sound.bind (Sound.need _ _) fun _ => ?_
    split
    · exact Sound.throw _
    · exact Sound.pure _
  · split
    · exact Sound.throw _
    · exact Sound.pure _

theorem takeSlots_sound {r : Run} {fill : Option (Nat × Nat)} {pops : List (Nat × Nat)} : Sound (takeSlots r fill pops) := by
  unfold takeSlots
  refine Sound.bind Sound.get fun _ => Sound.bind (Sound.need _ _) fun _ => ?_
  dsimp only
  split
  · exact Sound.bind (Sound.need _ _) fun _ => Sound.bind (Sound.need _ _) fun _ => Sound.bind (Sound.upd fun _ hs => hs) fun _ =>
      Sound.forM fun _ => Sound.upd fun _ hs => hs
  · exact Sound.bind (Sound.need _ _) fun _ => Sound.forM fun _ => Sound.upd fun _ hs => hs

theorem begin_sound {r : Run} {fill : Option (Nat × Nat)} {pops : List (Nat × Nat)} : Sound (begin r fill pops) := by
  unfold begin
  split
  · exact Sound.pure _
  · exact Sound.bind demandChecks_sound fun _ => Sound.bind takeSlots_sound fun _ => Sound.need _ _

theorem claimed_sound {r : Run} {d : Nat} : Sound (claimed r d) :=
  Sound.bind Sound.get fun _ => Sound.pure _

theorem fillSlot_sound {r : Run} {d : Nat} {data : Row} {side : Word} : Sound (fillSlot r d data side) :=
  Sound.upd fun _ hs => hs

theorem releaseClaims_sound {r : Run} : Sound (releaseClaims r) :=
  Sound.upd fun _ hs => hs

theorem engineLeafIn_sound {tierOk : Nat → Bool} {r : Run} {write copy : Bool} {va : Nat} :
    Sound (engineLeafIn tierOk r write copy va) := by
  unfold engineLeafIn
  refine Sound.bind (Sound.need _ _) fun _ => Sound.bind engineTranslate_sound fun _ => ?_
  split
  · exact Sound.throw _
  · exact Sound.bind (Sound.need _ _) fun _ => Sound.bind (Sound.need _ _) fun _ => Sound.bind (Sound.need _ _) fun _ =>
      Sound.bind Sound.get fun _ => Sound.bind (Sound.need _ _) fun _ => Sound.pure _

theorem engineLeaf_sound {r : Run} {write copy : Bool} {va : Nat} : Sound (engineLeaf r write copy va) :=
  engineLeafIn_sound

theorem cachedLoad_sound {r : Run} {va n : Nat} : Sound (cachedLoad r va n) :=
  Sound.bind engineLeaf_sound fun _ => Sound.modifyGet fun _ hs => State.wf_cachedRead hs

theorem cachedGet_sound {r : Run} {va n : Nat} : Sound (cachedGet r va n) :=
  wordGet_sound fun _ _ => cachedLoad_sound

theorem directLoad_sound {r : Run} {copy : Bool} {va n : Nat} : Sound (directLoad r copy va n) :=
  Sound.bind engineLeaf_sound fun _ => Sound.modifyGet fun _ hs => State.wf_bypassRead hs

theorem directGet_sound {r : Run} {copy : Bool} {va n : Nat} : Sound (directGet r copy va n) :=
  wordGet_sound fun _ _ => directLoad_sound

theorem enginePut_sound {r : Run} {copy : Bool} {va n v : Nat} : Sound (enginePut r copy va n v) := by
  unfold enginePut
  split
  · exact Sound.bind engineLeaf_sound fun _ => Sound.upd fun _ hs => State.wf_plainWrite hs
  · exact Sound.pure _

theorem endWord_sound {r : Run} : Sound (endWord r) := by
  unfold endWord
  dsimp only
  split
  · exact Sound.pure _
  · exact Sound.bind (Sound.upd fun _ hs => hs) fun _ => Sound.throw _

theorem State.wf_scramble {s : State} {r : Run} {copy : Bool} {l : List Put} (h : memoryOk s) : memoryOk (s.scramble r copy l) := by
  unfold State.scramble
  refine memoryOk_foldl (fun _ _ hs => ?_) h
  dsimp only
  split
  · rename_i u hx
    exact State.wf_tileWrite (show memoryOk u from Sound.ok engineLeaf_sound hs hx)
  · exact hs

theorem fillWord_sound {r : Run} {va v : Nat} : Sound (fillWord r va v) :=
  Sound.bind (Sound.need _ _) fun _ => Sound.bind (Sound.need _ _) fun _ => Sound.bind engineLeafIn_sound fun _ => Sound.upd fun _ hs =>
    State.wf_markTagged (State.wf_tileWrite hs)

theorem State.wf_loseSent {s : State} {what : Sent} (h : memoryOk s) : memoryOk (s.loseSent what) := by
  unfold State.loseSent
  split <;> exact h

theorem State.wf_depart {s : State} {serial : Word} {cls tile chan : Nat} {what : Sent} (h : memoryOk s) :
    memoryOk (s.depart serial cls tile chan what) := by
  unfold State.depart
  dsimp only
  split
  · exact h
  · split
    · exact h
    · refine State.wf_loseSent ?_
      split <;> exact h

/-- A body that makes the destination of a fault unpredictable keeps memory canonical. -/
theorem putAll_sound {r : Run} {copy : Bool} {l : List Put} : Sound (putAll r copy l) := by
  refine ⟨fun s hs => ?_⟩
  have hput : Sound (l.forM fun p => enginePut r copy p.va p.n p.v) := Sound.forM fun _ => enginePut_sound
  unfold putAll
  cases hr : (l.forM fun p => enginePut r copy p.va p.n p.v) s with
  | ok a t => exact hput.ok hs hr
  | error e t =>
    have ht := hput.error hs hr
    cases e with
    | fault => exact State.wf_scramble ht
    | _ => exact ht

theorem State.wf_readTablesFrom {c n level table : Nat} {s : State} (h : memoryOk s) :
    memoryOk (State.readTablesFrom c n level table s) := by
  induction n generalizing level table s with
  | zero => exact h
  | succ n ih =>
    rw [State.readTablesFrom]
    split
    · exact State.wf_countUnmapped h
    · refine memoryOk_foldl (fun _ _ hs => ?_) (State.wf_touchRange h)
      dsimp only
      split
      · exact hs
      · exact ih hs

theorem State.wf_readTables {s : State} {c : Nat} (h : memoryOk s) : memoryOk (s.readTables c) := State.wf_readTablesFrom h

end Sys2Proof.Machine
end

section
/-! So do the operands of commands, the slicer and the feeder. -/

namespace Sys2Proof.Machine

open Sys2Proof.Claims

theorem spanGet_sound {c va n : Nat} : Sound (spanGet c va n) := by
  refine ⟨fun s h => ?_⟩
  have hw : memoryOk (s.deviceWalk c va) := State.wf_deviceWalk h
  unfold spanGet
  dsimp only
  split <;> rename_i he
  · split at he
    · injection he with _ ht
      subst ht; exact State.wf_directRead hw
    · injection he with _ ht
      subst ht; exact hw
  · split at he <;> cases he

section
variable {rd : Reader} {h : Shape} (hrd : ∀ a n, Sound (rd a n))
include hrd

theorem popWords_sound {b x n : Nat} : Sound (popWords rd b x n) := by
  induction n with
  | zero => exact Sound.pure _
  | succ n ih => exact Sound.bind ih fun _ => Sound.bind (hrd _ _) fun _ => Sound.pure _

theorem positionRange_sound {n : Nat} : Sound (positionRange rd h n) := by
  induction n with
  | zero => exact Sound.pure _
  | succ n ih =>
    refine Sound.bind ih fun _ => Sound.bind (hrd _ _) fun _ => Sound.bind (hrd _ _) fun _ => ?_
    dsimp only
    split
    · exact Sound.pure _
    · exact Sound.bind (popWords_sound hrd) fun _ => Sound.pure _

end

/-- A list of parts of a command each of which leaves memory canonical. -/
def AllSound {α : Type} (l : List (M α)) : Prop := ∀ m ∈ l, Sound m

section
variable {α β : Type}

theorem AllSound.append {k l : List (M α)} (hk : AllSound k) (hl : AllSound l) : AllSound (k ++ l) :=
  fun m hm => (List.mem_append.1 hm).elim (hk m) (hl m)

theorem AllSound.map {l : List β} {f : β → M α} (hf : ∀ b, Sound (f b)) : AllSound (l.map f) := by
  intro m hm
  obtain ⟨b, -, rfl⟩ := List.mem_map.1 hm
  exact hf b

theorem AllSound.flatMap {l : List β} {f : β → List (M α)} (hf : ∀ b, AllSound (f b)) : AllSound (l.flatMap f) := by
  intro m hm
  obtain ⟨b, -, hb⟩ := List.mem_flatMap.1 hm
  exact hf b m hb

theorem AllSound.single {m : M α} (hm : Sound m) : AllSound [m] := fun _ hn => List.mem_singleton.1 hn ▸ hm

end

theorem performAll_sound {put : Put → M Unit} {r : Run} {copy : Bool} {l : List (M (List Put))} {acc : List Put}
    (hput : ∀ p, Sound (put p)) (hl : AllSound l) : Sound (performAll put r copy l acc) := by
  induction l generalizing acc with
  | nil => exact Sound.pure _
  | cons item rest ih =>
    have hitem : Sound item := hl item (by simp)
    have hrest : ∀ acc, Sound (performAll put r copy rest acc) := fun _ => ih fun m hm => hl m (by simp [hm])
    refine ⟨fun s hs => ?_⟩
    unfold performAll
    cases hi : item s with
    | error e t =>
      have ht := hitem.error hs hi
      cases e with
      | fault => exact State.wf_scramble ht
      | _ => exact ht
    | ok ps t =>
      have ht := hitem.ok hs hi
      have hputs : Sound (ps.forM put) := Sound.forM hput
      dsimp only
      cases hp : ps.forM put t with
      | ok a u => exact (hrest _).keeps u (hputs.ok ht hp)
      | error e u =>
        have hu := hputs.error ht hp
        cases e with
        | fault => exact State.wf_scramble hu
        | _ => exact hu

theorem storeAll_sound {r : Run} {copy : Bool} {l : List (M (List Put))} {acc : List Put} (hl : AllSound l) :
    Sound (storeAll r copy l acc) :=
  performAll_sound (fun _ => enginePut_sound) hl

theorem guardPuts_sound {r : Run} {copy : Bool} {l : List Put} {body : M Unit} (hb : Sound body) :
    Sound (guardPuts r copy l body) := by
  refine ⟨fun s hs => ?_⟩
  unfold guardPuts
  cases hr : body s with
  | ok a t => exact hb.ok hs hr
  | error e t =>
    have ht := hb.error hs hr
    cases e with
    | fault => exact State.wf_scramble ht
    | _ => exact ht

theorem checkReserved_sound {c : Cmd} {l : List (Nat × Nat)} : Sound (checkReserved c l) := by
  unfold checkReserved
  split
  · exact Sound.pure _
  · exact Sound.throw _

theorem checkCapture_sound {c : Cmd} {l : List Named} : Sound (checkCapture c l) := by
  unfold checkCapture
  split
  · exact Sound.pure _
  · exact Sound.throw _
  · exact Sound.throw _

theorem checkShape_sound {e : Entry} {i : Nat} : Sound (checkShape e i) := by
  unfold checkShape
  split
  · exact Sound.pure _
  · exact Sound.throw _

theorem levelPos_sound {rd : Reader} {h : Shape} {xs : List Nat} (hrd : ∀ a n, Sound (rd a n)) : Sound (levelPos rd h xs) := by
  unfold levelPos
  refine Sound.bind (hrd _ _) fun _ => Sound.bind (hrd _ _) fun _ => ?_
  dsimp only
  split
  · exact Sound.pure _
  · refine Sound.bind (hrd _ _) fun _ => ?_
    split
    · exact Sound.pure _
    · exact Sound.bind (popWords_sound hrd) fun _ => Sound.pure _

theorem elemPlace_sound {rd : Reader} {h : Shape} {x : List Int} (hrd : ∀ a n, Sound (rd a n)) : Sound (elemPlace rd h x) := by
  unfold elemPlace
  dsimp only
  split
  · exact Sound.pure _
  · split
    · exact Sound.pure _
    · refine Sound.bind (levelPos_sound hrd) fun _ => ?_
      split <;> exact Sound.pure _

theorem crdPlace_sound {rd : Reader} {h : Shape} {x : List Int} (hrd : ∀ a n, Sound (rd a n)) : Sound (crdPlace rd h x) := by
  unfold crdPlace
  split
  · exact Sound.pure _
  · refine Sound.bind (levelPos_sound hrd) fun _ => ?_
    split <;> exact Sound.pure _

theorem formed_sound {a : Int} : Sound (formed a) := by
  unfold formed
  split
  · exact Sound.pure _
  · exact Sound.throw _

theorem elemAddr_sound {rd : Reader} {h : Shape} {x : List Int} (hrd : ∀ a n, Sound (rd a n)) : Sound (elemAddr rd h x) := by
  unfold elemAddr
  refine Sound.bind (elemPlace_sound hrd) fun _ => ?_
  split
  · exact Sound.pure _
  · exact Sound.bind formed_sound fun _ => Sound.pure _

theorem readElem_sound {rd : Reader} {h : Shape} {x : List Int} (hrd : ∀ a n, Sound (rd a n)) : Sound (readElem rd h x) := by
  unfold readElem
  refine Sound.bind (elemAddr_sound hrd) fun _ => ?_
  split
  · exact Sound.pure _
  · split <;> exact Sound.bind (hrd _ _) fun _ => Sound.pure _

theorem countClip_sound {r : Run} {n : Nat} : Sound (countClip r n) := by
  unfold countClip
  refine Sound.upd fun _ hs => ?_
  split <;> exact hs

theorem elemPut_sound {rd : Reader} {h : Shape} {x : List Int} {v : Nat} (hrd : ∀ a n, Sound (rd a n)) : Sound (elemPut rd h x v) := by
  unfold elemPut
  refine Sound.bind (elemAddr_sound hrd) fun _ => ?_
  split <;> exact Sound.pure _

theorem elemsSpan_sound {rd : Reader} {h : Shape} {walk : List (List Int)} (hrd : ∀ a n, Sound (rd a n)) :
    Sound (elemsSpan rd h walk) := by
  unfold elemsSpan
  refine Sound.bind (Sound.foldlM fun _ _ => Sound.bind (elemPlace_sound hrd) fun _ => ?_) fun _ => Sound.pure _
  split
  · exact Sound.pure _
  · split <;> exact Sound.pure _

theorem tensorSpan_sound {rd : Reader} {h : Shape} (hrd : ∀ a n, Sound (rd a n)) : Sound (tensorSpan rd h) := by
  unfold tensorSpan
  dsimp only
  split
  · exact Sound.pure _
  · refine Sound.bind (positionRange_sound hrd) fun _ => ?_
    split
    · exact Sound.pure _
    · split <;> exact Sound.pure _

theorem crdSpan_sound {rd : Reader} {h : Shape} {walk : List (List Int)} (hrd : ∀ a n, Sound (rd a n)) : Sound (crdSpan rd h walk) := by
  unfold crdSpan
  refine Sound.bind (Sound.foldlM fun _ _ => Sound.bind (crdPlace_sound hrd) fun _ => ?_) fun _ => Sound.pure _
  split <;> exact Sound.pure _

theorem execSlicerTake_canonical {s : State} (h : memoryOk s) : Canonical (execSlicerTake s) := by
  unfold execSlicerTake
  dsimp only
  split
  · exact .of h
  · split <;> exact .of h

theorem fdChecks_sound {k : FeederKind} {r : Run} {c : Cmd} : Sound (fdChecks k r c) := by
  unfold fdChecks
  refine Sound.bind checkReserved_sound fun _ => Sound.bind checkCapture_sound fun _ => Sound.bind checkShape_sound fun _ => ?_
  dsimp only
  split
  · refine Sound.bind checkShape_sound fun _ => Sound.bind (Sound.need _ _) fun _ => Sound.bind (Sound.need _ _) fun _ =>
      Sound.bind (Sound.need _ _) fun _ => ?_
    split
    · exact Sound.throw _
    · exact Sound.pure _
  · refine Sound.bind (Sound.need _ _) fun _ => Sound.bind (Sound.need _ _) fun _ => ?_
    split
    · exact Sound.throw _
    · exact Sound.pure _

theorem slotElement_sound {rd : Reader} {k : FeederKind} {h : Shape} {x : List Int} (hrd : ∀ a n, Sound (rd a n)) :
    Sound (slotElement rd k h x) := by
  unfold slotElement
  split
  · refine Sound.bind (crdPlace_sound hrd) fun _ => ?_
    split
    · exact Sound.pure _
    · exact Sound.bind formed_sound fun _ => Sound.bind (hrd _ _) fun _ => Sound.pure _
  · split
    · refine Sound.bind (elemAddr_sound hrd) fun _ => ?_
      split
      · exact Sound.pure _
      · exact Sound.bind (hrd _ _) fun _ => Sound.pure _
    · exact readElem_sound hrd

theorem slotScale_sound {rd : Reader} {h : Shape} {l : List (List Int)} {clipped : List Bool} (hrd : ∀ a n, Sound (rd a n)) :
    Sound (slotScale rd h l clipped) := by
  unfold slotScale
  split
  · exact Sound.pure _
  · split
    · exact Sound.pure _
    · exact hrd _ _

theorem slotContents_sound {r : Run} {k : FeederKind} {c : Cmd} {h : Shape} {x : List Int} : Sound (slotContents r k c h x) :=
  Sound.bind (Sound.mapM fun _ => slotElement_sound fun _ _ => cachedGet_sound) fun _ => Sound.bind (slotScale_sound fun _ _ =>
    cachedGet_sound) fun _ => Sound.pure _

theorem fillFrom_sound {r : Run} {kind : FeederKind} {c : Cmd} {h : Shape} {k : Nat} {x : List Int} : Sound (fillFrom r kind c h k x) :=
  Sound.bind slotContents_sound fun _ => fillSlot_sound

theorem rowBody_sound {kind : FeederKind} {c : Cmd} {r : Run} : Sound (rowBody kind c r) :=
  Sound.bind fdChecks_sound fun _ => Sound.bind begin_sound fun _ => Sound.bind (Sound.forM fun _ => fillFrom_sound) fun _ => Sound.pure _

theorem indexAt_sound {rd : Reader} {x : Shape} {pos : Int} (hrd : ∀ a n, Sound (rd a n)) : Sound (indexAt rd x pos) :=
  Sound.bind (readElem_sound hrd) fun _ => Sound.pure _

theorem gatherBody_sound {c : Cmd} {r : Run} : Sound (gatherBody c r) :=
  Sound.bind fdChecks_sound fun _ => Sound.bind begin_sound fun _ => Sound.bind (Sound.forM fun _ => Sound.bind (indexAt_sound fun _ _ =>
    cachedGet_sound) fun _ => fillFrom_sound) fun _ => Sound.pure _

theorem bcastBody_sound {c : Cmd} {r : Run} : Sound (bcastBody c r) :=
  Sound.bind fdChecks_sound fun _ => Sound.bind begin_sound fun _ => Sound.bind slotContents_sound fun _ =>
    Sound.bind (Sound.forM fun _ => fillSlot_sound) fun _ => Sound.pure _

theorem skipBody_sound {c : Cmd} {r : Run} : Sound (skipBody c r) :=
  Sound.bind checkReserved_sound fun _ => Sound.bind (Sound.need _ _) fun _ => Sound.bind begin_sound fun _ =>
    Sound.bind (Sound.forM fun _ => fillSlot_sound) fun _ => Sound.pure _

theorem slotPuts_sound {r : Run} {c : Cmd} {h : Shape} {k : Nat} {sl : Slot} : AllSound (slotPuts r c h k sl) := by
  unfold slotPuts
  dsimp only
  split
  · refine AllSound.append (AllSound.map fun _ => Sound.bind (elemPut_sound fun _ _ => cachedGet_sound) fun _ => ?_) (AllSound.single ?_)
    · split
      · exact Sound.bind countClip_sound fun _ => Sound.pure _
      · exact Sound.pure _
    · split
      · exact Sound.pure _
      · refine Sound.bind (elemPlace_sound fun _ _ => cachedGet_sound) fun _ => ?_
        split <;> exact Sound.pure _
  · refine AllSound.map fun _ => Sound.bind (elemPut_sound fun _ _ => cachedGet_sound) fun _ => ?_
    split
    · exact Sound.bind countClip_sound fun _ => Sound.pure _
    · exact Sound.pure _

theorem storeBody_sound {c : Cmd} {r : Run} : Sound (storeBody c r) :=
  Sound.bind fdChecks_sound fun _ => Sound.bind begin_sound fun _ => Sound.bind claimed_sound fun _ =>
    Sound.bind checkSlots_sound fun _ => Sound.bind (storeAll_sound (AllSound.flatMap fun _ => slotPuts_sound)) fun _ =>
    Sound.bind endWord_sound fun _ => Sound.bind releaseClaims_sound fun _ => Sound.pure _

theorem fdSpans_sound {kind : FeederKind} {r : Run} {rd : Reader} {c : Cmd} (hrd : ∀ a n, Sound (rd a n)) :
    Sound (fdSpans kind r rd c) := by
  unfold fdSpans
  refine Sound.bind fdChecks_sound fun _ => ?_
  dsimp only
  split
  · exact Sound.pure _
  · exact Sound.bind (elemsSpan_sound hrd) fun _ => Sound.bind (tensorSpan_sound hrd) fun _ => Sound.pure _
  · exact Sound.bind (elemsSpan_sound hrd) fun _ => Sound.bind (crdSpan_sound hrd) fun _ => Sound.pure _
  · exact Sound.bind (elemsSpan_sound hrd) fun _ => Sound.pure _
  · exact Sound.bind (elemsSpan_sound hrd) fun _ => Sound.pure _

end Sys2Proof.Machine
end

section
/-! So do vector commands and those of the anvil. -/

namespace Sys2Proof.Machine

open Sys2Proof.Claims

theorem vChecks_sound {f : VForm} {c : Cmd} : Sound (vChecks f c) :=
  Sound.bind checkReserved_sound fun _ => Sound.bind (Sound.need _ _) fun _ => Sound.bind (Sound.need _ _) fun _ => Sound.need _ _

theorem vBody_sound {f : VForm} {c : Cmd} {g : TileCtx → TileCtx} {r : Run} : Sound (vBody f c g r) :=
  Sound.bind vChecks_sound fun _ => Sound.bind begin_sound fun _ => Sound.bind (Sound.upd fun _ hs => hs) fun _ => Sound.pure _

theorem vBinary_canonical {op : Nat} {c : Cmd} {f : Nat → Nat → Nat} {s : State} (h : memoryOk s) : Canonical (vBinary op c f s) :=
  runCommand_canonical h fun _ => vBody_sound

theorem vUnary_canonical {op : Nat} {c : Cmd} {f : Nat → Nat} {s : State} (h : memoryOk s) : Canonical (vUnary op c f s) :=
  runCommand_canonical h fun _ => vBody_sound

theorem vInt_canonical {op : Nat} {c : Cmd} {f : Int → Int → Int} {s : State} (h : memoryOk s) : Canonical (vInt op c f s) :=
  vBinary_canonical h

theorem vCompare_canonical {c : Cmd} {un : Bool} {p : Int → Bool} {s : State} (h : memoryOk s) : Canonical (vCompare c un p s) :=
  runCommand_canonical h fun _ => vBody_sound

theorem vPred_canonical {c : Cmd} {n : Nat} {auxOk : Bool} {f : Bool → Bool → Bool} {s : State} (h : memoryOk s) :
    Canonical (vPred c n auxOk f s) :=
  runCommand_canonical h fun _ => vBody_sound

theorem vFloat_canonical {c : Cmd} {f : Fl → Fl → Fl} {s : State} (h : memoryOk s) : Canonical (vFloat c f s) :=
  vBinary_canonical h

theorem vFused_canonical {c : Cmd} {minus : Bool} {s : State} (h : memoryOk s) : Canonical (vFused c minus s) :=
  runCommand_canonical h fun _ => vBody_sound

theorem vQuant_canonical {c : Cmd} {tmax : Nat} {g : Nat → TileCtx → TileCtx → TileCtx} {s : State} (h : memoryOk s) :
    Canonical (vQuant c tmax g s) :=
  runCommand_canonical h fun _ => Sound.bind vChecks_sound fun _ => Sound.bind (Sound.need _ _) fun _ => Sound.bind begin_sound fun _ =>
    Sound.bind (Sound.upd fun _ hs => hs) fun _ => Sound.pure _

theorem vDequant_canonical {c : Cmd} {fmt : Nat} {s : State} (h : memoryOk s) : Canonical (vDequant c fmt s) :=
  runCommand_canonical h fun _ => vBody_sound

theorem execVcvt_canonical {c : Cmd} {s : State} (h : memoryOk s) : Canonical (execVcvt c s) := by
  unfold execVcvt
  exact runCommand_canonical h fun _ => vBody_sound

theorem vReduce_canonical {op : Nat} {c : Cmd} {two : Bool} {res : Nat} {f : TileCtx → List Nat → Nat} {s : State} (h : memoryOk s) :
    Canonical (vReduce op c two res f s) :=
  runCommand_canonical h fun _ => vBody_sound

theorem execVdot_canonical {c : Cmd} {s : State} (h : memoryOk s) : Canonical (execVdot c s) := by
  unfold execVdot
  exact vReduce_canonical h

theorem vmChecks_sound {m : VMem} {r : Run} {c : Cmd} : Sound (vmChecks m r c) := by
  unfold vmChecks
  refine Sound.bind checkReserved_sound fun _ => Sound.bind checkCapture_sound fun _ => Sound.bind checkShape_sound fun _ => ?_
  dsimp only
  split
  · refine Sound.bind checkShape_sound fun _ => Sound.bind (Sound.need _ _) fun _ => Sound.bind (Sound.need _ _) fun _ =>
      Sound.bind (Sound.need _ _) fun _ => ?_
    split
    · exact Sound.throw _
    · exact Sound.pure _
  · refine Sound.bind (Sound.need _ _) fun _ => Sound.bind (Sound.need _ _) fun _ => ?_
    split
    · exact Sound.throw _
    · exact Sound.pure _

theorem vFillSlot_sound {r : Run} {c : Cmd} {h : Shape} {k : Nat} {l : List (List Int)} : Sound (vFillSlot r c h k l) :=
  Sound.bind (Sound.mapM fun _ => readElem_sound fun _ _ => cachedGet_sound) fun _ => Sound.bind (slotScale_sound fun _ _ =>
    cachedGet_sound) fun _ => fillSlot_sound

theorem execVld_canonical {c : Cmd} {s : State} (h : memoryOk s) : Canonical (execVld c s) :=
  runCommand_canonical h fun _ => Sound.bind vmChecks_sound fun _ => Sound.bind begin_sound fun _ => Sound.bind (Sound.forM fun _ =>
    vFillSlot_sound) fun _ => Sound.pure _

theorem gatherCoords_sound {r : Run} {rd : Reader} {c : Cmd} {j : Nat} (hrd : ∀ a n, Sound (rd a n)) :
    Sound (gatherCoords r rd c j) :=
  Sound.bind (indexAt_sound hrd) fun _ => Sound.pure _

theorem execVgather_canonical {c : Cmd} {s : State} (h : memoryOk s) : Canonical (execVgather c s) :=
  runCommand_canonical h fun _ => Sound.bind vmChecks_sound fun _ => Sound.bind begin_sound fun _ => Sound.bind (Sound.forM fun _ =>
    Sound.bind (Sound.mapM fun _ => gatherCoords_sound fun _ _ => cachedGet_sound) fun _ => vFillSlot_sound) fun _ => Sound.pure _

theorem vPut_sound {r : Run} {h : Shape} {x : List Int} {v : Nat} : Sound (vPut r h x v) := by
  unfold vPut
  refine Sound.bind (elemPut_sound fun _ _ => cachedGet_sound) fun _ => ?_
  dsimp only
  split
  · exact Sound.bind countClip_sound fun _ => Sound.pure _
  · exact Sound.pure _

theorem execVst_canonical {c : Cmd} {s : State} (h : memoryOk s) : Canonical (execVst c s) :=
  runCommand_canonical h fun _ => Sound.bind vmChecks_sound fun _ => Sound.bind begin_sound fun _ => Sound.bind Sound.get fun _ =>
    Sound.bind (storeAll_sound (AllSound.map fun _ => vPut_sound)) fun _ => Sound.bind endWord_sound fun _ => Sound.pure _

theorem atomicPut_sound {r : Run} {copy : Bool} {f : Nat → Nat → Nat} {p : Put} : Sound (atomicPut r copy f p) := by
  unfold atomicPut
  split
  · exact Sound.bind engineLeafIn_sound fun _ => Sound.upd fun _ hs => State.wf_atomic hs
  · exact Sound.pure _

theorem execVmovFromDq_canonical {c : Cmd} {s : State} (h : memoryOk s) : Canonical (execVmovFromDq c s) :=
  runCommand_canonical h fun _ => Sound.bind vChecks_sound fun _ => Sound.bind begin_sound fun _ => Sound.bind claimed_sound fun _ =>
    Sound.bind checkSlots_sound fun _ => Sound.bind (Sound.upd fun _ hs => hs) fun _ => Sound.bind releaseClaims_sound fun _ =>
    Sound.pure _

theorem execVmovToDq_canonical {c : Cmd} {s : State} (h : memoryOk s) : Canonical (execVmovToDq c s) :=
  runCommand_canonical h fun _ => Sound.bind vChecks_sound fun _ => Sound.bind begin_sound fun _ => Sound.bind Sound.get fun _ =>
    Sound.bind (Sound.forM fun _ => fillSlot_sound) fun _ => Sound.pure _

theorem vVote_canonical {c : Cmd} {res : Nat → Nat → Bool} {s : State} (h : memoryOk s) : Canonical (vVote c res s) :=
  runCommand_canonical h fun _ => vBody_sound

theorem vSpans_sound {m : VMem} {r : Run} {rd : Reader} {c : Cmd} (hrd : ∀ a n, Sound (rd a n)) : Sound (vSpans m r rd c) := by
  unfold vSpans
  refine Sound.bind vmChecks_sound fun _ => ?_
  dsimp only
  split
  · exact Sound.bind (elemsSpan_sound hrd) fun _ => Sound.pure _
  · exact Sound.bind (elemsSpan_sound hrd) fun _ => Sound.bind (tensorSpan_sound hrd) fun _ => Sound.pure _
  · exact Sound.bind (elemsSpan_sound hrd) fun _ => Sound.pure _
  · exact Sound.bind (tensorSpan_sound hrd) fun _ => Sound.pure _

theorem anChecks_sound {f : AnForm} {r : Run} {c : Cmd} : Sound (anChecks f r c) := by
  unfold anChecks
  refine Sound.bind checkReserved_sound fun _ => ?_
  dsimp only
  split
  · refine Sound.bind checkCapture_sound fun _ => Sound.bind checkShape_sound fun _ => Sound.bind (Sound.need _ _) fun _ =>
      Sound.bind (Sound.need _ _) fun _ => ?_
    split
    · exact Sound.throw _
    · exact Sound.pure _
  · split
    · exact Sound.throw _
    · exact Sound.pure _

theorem anStart_sound {r : Run} {pops : List (Nat × Nat)} : Sound (anStart r pops) := by
  unfold anStart
  dsimp only
  split
  · exact Sound.pure _
  · exact Sound.bind demandChecks_sound fun _ => Sound.bind Sound.get fun _ => Sound.bind (Sound.need _ _) fun _ =>
      Sound.bind takeSlots_sound fun _ => Sound.bind (Sound.upd fun _ hs => hs) fun _ => Sound.need _ _

theorem execAnLease_canonical {c : Cmd} {s : State} (h : memoryOk s) : Canonical (execAnLease c s) :=
  runCommand_canonical h fun _ => Sound.bind (Sound.need _ _) fun _ => Sound.bind anChecks_sound fun _ =>
    Sound.bind (Sound.upd fun _ hs => State.wf_requestLease (State.wf_dropLeaseRequest (State.wf_modTc (State.wf_endLease hs)))) fun _ =>
    Sound.pure _

theorem execAnFree_canonical {c : Cmd} {s : State} (h : memoryOk s) : Canonical (execAnFree c s) :=
  runCommand_canonical h fun _ => Sound.bind anChecks_sound fun _ => Sound.bind begin_sound fun _ => Sound.bind (Sound.upd fun _ hs =>
    State.wf_endLease hs) fun _ => Sound.pure _

theorem execLeaseGrant_canonical {k : Nat} {s : State} (h : memoryOk s) : Canonical (execLeaseGrant k s) := by
  unfold execLeaseGrant
  dsimp only
  split
  · exact .of h
  · split <;> exact .of h

theorem execLeaseIdleExpiry_canonical {k : Nat} {s : State} (h : memoryOk s) : Canonical (execLeaseIdleExpiry k s) := by
  unfold execLeaseIdleExpiry
  dsimp only
  split
  · exact .of h
  · split
    · exact .of (State.wf_endLease h)
    · exact .of h

theorem elemScale_sound {rd : Reader} {h : Shape} {x : List Int} (hrd : ∀ a n, Sound (rd a n)) : Sound (elemScale rd h x) := by
  unfold elemScale
  refine Sound.bind (elemAddr_sound hrd) fun _ => ?_
  split
  · split
    · exact Sound.pure _
    · exact hrd _ _
  · exact Sound.pure _

theorem ldwColumn_sound {r : Run} {c : Cmd} {h : Shape} {j : Nat} : Sound (ldwColumn r c h j) := by
  unfold ldwColumn
  refine Sound.bind (Sound.mapM fun _ => Sound.bind (readElem_sound fun _ _ => cachedGet_sound) fun _ => Sound.pure _) fun _ =>
    Sound.bind (Sound.mapM fun _ => ?_) fun _ => Sound.pure _
  split
  · exact Sound.pure _
  · exact elemScale_sound fun _ _ => cachedGet_sound

theorem State.wf_scrambleColumns {s : State} {k : Nat} {c : Cmd} (h : memoryOk s) : memoryOk (s.scrambleColumns k c) :=
  memoryOk_foldl (fun _ _ hs => hs) h

theorem execAnSwap_canonical {c : Cmd} {s : State} (h : memoryOk s) : Canonical (execAnSwap c s) :=
  runCommand_canonical h fun _ => Sound.bind anChecks_sound fun _ => Sound.bind anStart_sound fun _ => Sound.bind (Sound.upd fun _ hs =>
    hs) fun _ => Sound.pure _

theorem addRows_sound {r : Run} {c : Cmd} {rows : List (List Act)} : Sound (addRows r c rows) :=
  Sound.upd fun _ hs => hs

theorem planeChecks_sound {r : Run} {c : Cmd} : Sound (planeChecks r c) :=
  Sound.bind Sound.get fun _ => Sound.bind (Sound.need _ _) fun _ => Sound.need _ _

theorem execAnMul_canonical {c : Cmd} {s : State} (h : memoryOk s) : Canonical (execAnMul c s) :=
  runCommand_canonical h fun _ => Sound.bind anChecks_sound fun _ => Sound.bind anStart_sound fun _ => Sound.bind claimed_sound fun _ =>
    Sound.bind checkSlots_sound fun _ => Sound.bind planeChecks_sound fun _ => Sound.bind addRows_sound fun _ =>
    Sound.bind releaseClaims_sound fun _ => Sound.pure _

theorem readAct_sound {rd : Reader} {h : Shape} {x : List Int} (hrd : ∀ a n, Sound (rd a n)) : Sound (readAct rd h x) := by
  unfold readAct
  refine Sound.bind (elemAddr_sound hrd) fun _ => ?_
  split
  · exact Sound.pure _
  · exact Sound.bind (hrd _ _) fun _ => Sound.bind (elemScale_sound hrd) fun _ => Sound.pure _

theorem execAnGmul_canonical {c : Cmd} {s : State} (h : memoryOk s) : Canonical (execAnGmul c s) :=
  runCommand_canonical h fun _ => Sound.bind anChecks_sound fun _ => Sound.bind anStart_sound fun _ =>
    Sound.bind planeChecks_sound fun _ => Sound.bind Sound.get fun _ => Sound.bind (Sound.mapM fun _ => Sound.mapM fun _ =>
    readAct_sound fun _ _ => cachedGet_sound) fun _ => Sound.bind addRows_sound fun _ => Sound.pure _

theorem execAnZero_canonical {c : Cmd} {s : State} (h : memoryOk s) : Canonical (execAnZero c s) :=
  runCommand_canonical h fun _ => Sound.bind anChecks_sound fun _ => Sound.bind begin_sound fun _ => Sound.bind (Sound.upd fun _ hs =>
    hs) fun _ => Sound.pure _

theorem execAnClose_canonical {c : Cmd} {s : State} (h : memoryOk s) : Canonical (execAnClose c s) :=
  runCommand_canonical h fun _ => Sound.bind anChecks_sound fun _ => Sound.bind begin_sound fun _ => Sound.bind (Sound.upd fun _ hs =>
    hs) fun _ => Sound.pure _

theorem drainOut_sound {r : Run} {c : Cmd} {i : Nat} : Sound (drainOut r c i) := by
  unfold drainOut
  refine Sound.bind Sound.get fun _ => Sound.bind (Sound.upd fun _ hs => hs) fun _ => ?_
  dsimp only
  split
  · exact fillSlot_sound
  · exact Sound.upd fun _ hs => hs

theorem execAnDrain_canonical {c : Cmd} {s : State} (h : memoryOk s) : Canonical (execAnDrain c s) := by
  unfold execAnDrain
  refine runCommand_canonical h fun _ => Sound.bind anChecks_sound fun _ => Sound.bind begin_sound fun _ => Sound.bind Sound.get fun _ =>
    Sound.bind (Sound.forM fun _ => Sound.need _ _) fun _ => ?_
  dsimp only
  split
  · refine Sound.bind (Sound.upd fun _ hs => hs) fun _ => Sound.bind (Sound.forM fun _ => drainOut_sound) fun _ => ?_
    split
    · exact Sound.bind (Sound.upd fun _ hs => hs) fun _ => Sound.pure _
    · exact Sound.pure _
  · refine Sound.bind (Sound.forM fun _ => drainOut_sound) fun _ => ?_
    split
    · exact Sound.bind (Sound.upd fun _ hs => hs) fun _ => Sound.pure _
    · exact Sound.pure _

theorem ldwSpans_sound {r : Run} {rd : Reader} {c : Cmd} (hrd : ∀ a n, Sound (rd a n)) : Sound (ldwSpans r rd c) :=
  Sound.bind anChecks_sound fun _ => Sound.bind (elemsSpan_sound hrd) fun _ => Sound.pure _

theorem gmulSpans_sound {r : Run} {rd : Reader} {c : Cmd} (hrd : ∀ a n, Sound (rd a n)) : Sound (gmulSpans r rd c) :=
  Sound.bind anChecks_sound fun _ => Sound.bind (tensorSpan_sound hrd) fun _ => Sound.pure _

theorem atomicAll_sound {r : Run} {copy : Bool} {f : Nat → Nat → Nat} {l : List (M (List Put))} {acc : List Put} (hl : AllSound l) :
    Sound (atomicAll r copy f l acc) :=
  performAll_sound (fun _ => atomicPut_sound) hl

theorem vScatter_canonical {c : Cmd} {f : Option (Nat → Nat → Nat)} {s : State} (h : memoryOk s) : Canonical (vScatter c f s) := by
  unfold vScatter
  have hitem : ∀ (r : Run) (h : Shape) (k : TileCtx), AllSound ((k.actives c).map fun i =>
      vPut r h (scatterCoords r c k i) (elemAt (k.vreg (vmVs1 c)) (vBits c) i)) := fun _ _ _ => AllSound.map fun _ => vPut_sound
  refine runCommand_canonical h fun r => Sound.bind vmChecks_sound fun h => Sound.bind begin_sound fun _ => Sound.bind Sound.get fun s => ?_
  dsimp only
  split
  · exact Sound.bind (storeAll_sound (hitem r h _)) fun _ => Sound.bind endWord_sound fun _ => Sound.pure _
  · exact Sound.bind (atomicAll_sound (hitem r h _)) fun _ => Sound.bind endWord_sound fun _ => Sound.pure _

/-- A body that changes the state only where it faults. -/
theorem Sound.onFault {m : M Unit} {f : State → State} (hm : Sound m) (hf : ∀ s, memoryOk s → memoryOk (f s)) :
    Sound (fun s => match m s with
      | .ok _ s' => .ok true s'
      | .error (.fault code detail addr) s' => .error (.fault code detail addr) (f s')
      | .error e s' => .error e s' : M Bool) := by
  refine ⟨fun s hs => ?_⟩
  cases hr : m s with
  | ok a t => exact hm.ok hs hr
  | error e t =>
    have ht := hm.error hs hr
    cases e with
    | fault => exact hf _ ht
    | _ => exact ht

theorem execAnLdw_canonical {c : Cmd} {s : State} (h : memoryOk s) : Canonical (execAnLdw c s) := by
  unfold execAnLdw
  refine runCommand_canonical h fun r => Sound.bind anChecks_sound fun _ => Sound.bind anStart_sound fun _ =>
    Sound.bind (Sound.upd fun _ hs => hs) fun _ => ?_
  exact Sound.onFault (Sound.forM fun _ => Sound.bind ldwColumn_sound fun _ => Sound.upd fun _ hs => hs)
    fun _ => State.wf_scrambleColumns

end Sys2Proof.Machine
end

section
/-! So do the instructions of the base set, control and status registers and the services. -/

namespace Sys2Proof.Machine

open Sys2Proof.Claims

theorem hartEnd_canonical {h : HartId} {body : M Unit} {s : State} (hs : memoryOk s) (hb : Sound body) : Canonical (hartEnd h body s) :=
  ⟨hartEnd_keeps hb.keeps hs⟩

theorem writeCsr_keeps {s u : State} {h : HartId} {k : CsrKind} {csr : Nat} {v : Word} (hs : memoryOk s)
    (hu : writeCsr s h k csr v = some u) : memoryOk u := by
  have hmap : ∀ {m : Hart → Option Hart}, (m (s.hart h)).map (s.setHart h) = some u → memoryOk u := by
    intro m hm
    obtain ⟨x, -, rfl⟩ := Option.map_eq_some_iff.1 hm
    exact hs
  unfold writeCsr at hu
  split at hu <;> dsimp only at hu
  case h_11 =>
    split at hu
    · cases hu; exact hs
    · split at hu
      · split at hu <;> cases hu <;> exact hs
      · cases hu
  case h_15 =>
    split at hu
    · exact hmap (m := fun x => x.writeMachine k csr v) hu
    · cases hu
  case h_4 => split at hu <;> cases hu; exact hs
  all_goals cases hu; exact hs

theorem State.wf_retireCsr {s : State} {h : HartId} {csr : Nat} {pc : Word} (hs : memoryOk s) : memoryOk (s.retireCsr h csr pc) := by
  unfold State.retireCsr
  dsimp only
  have hr : memoryOk (s.retire h pc) := State.wf_retire hs
  split <;> exact hr

theorem csrWriteStep_keeps {s : State} {h : HartId} {c : CsrOp} (hs : memoryOk s) : memoryOk (csrWriteStep s h c) := by
  unfold csrWriteStep
  dsimp only
  split
  · rename_i old u _ hu
    have hw : memoryOk (u.writeX h c.rd old) := State.wf_writeX (writeCsr_keeps hs hu)
    split
    · exact hw
    · exact State.wf_retireCsr hw
  · exact State.wf_takeTrap hs

theorem State.wf_post {s u : State} {c : Nat} {v : Word} (h : memoryOk s) (hu : s.post c v = some u) : memoryOk u := by
  unfold State.post at hu
  split at hu <;> cases hu
  exact h

theorem servicePost_keeps {s : State} {h : HartId} (hs : memoryOk s) : memoryOk (servicePost s h) := by
  unfold servicePost
  split
  · exact State.wf_retire (State.wf_writeX (State.wf_post hs ‹_›))
  · exact State.wf_result hs

theorem State.wf_callService {s : State} {h : HartId} {f : State → HartId → State} (hs : memoryOk s)
    (hf : memoryOk (f s h)) : memoryOk (s.callService h f) := by
  unfold State.callService
  split
  · exact State.wf_takeTrap hs
  · exact hf

theorem State.wf_illegalAt {s : State} {h : HartId} (hs : memoryOk s) : memoryOk (s.illegalAt h) :=
  State.wf_takeTrap hs

theorem csrReadStep_keeps {s : State} {h : HartId} {c : CsrOp} (hs : memoryOk s) : memoryOk (csrReadStep s h c) := by
  unfold csrReadStep
  split
  · exact State.wf_illegalAt hs
  · exact hs

theorem jumpTo_sound {target : Word} : Sound (jumpTo target) :=
  Sound.bind (Sound.need _ _) fun _ => Sound.pure _

theorem useMode_sound {h : HartId} {rm : BitVec 3} : Sound (useMode h rm) := by
  unfold useMode
  refine Sound.bind Sound.get fun _ => ?_
  split
  · exact Sound.pure _
  · exact Sound.bind illegal_sound fun _ => Sound.pure _

theorem putF_sound {h : HartId} {rd : Reg} {r : Nat × FFlags} : Sound (putF h rd r) :=
  Sound.upd fun _ hs => hs

theorem putX_sound {h : HartId} {rd : Reg} {v : Word} {fl : FFlags} : Sound (putX h rd v fl) :=
  Sound.upd fun _ hs => hs

theorem serviceAbort_keeps {s : State} {h : HartId} (hs : memoryOk s) : memoryOk (serviceAbort s h) :=
  State.wf_contextFault hs

theorem service_keeps {s : State} {h : HartId} (hs : memoryOk s) : memoryOk (service s h) := by
  unfold service
  split
  · exact show memoryOk ((s.writeX h 10 (BitVec.setWidth 64 s.dev.firmware)).retire h ((s.hart h).pc + 4)) from hs
  · exact servicePost_keeps hs
  · exact serviceAbort_keeps hs
  · exact show memoryOk ((s.writeX h 10 (BitVec.allOnes 64)).retire h ((s.hart h).pc + 4)) from hs

theorem floatBody_sound {h : HartId} {x : Hart} {b : Base} : Sound (floatBody h x b) := by
  unfold floatBody
  dsimp only
  split
  · exact Sound.bind useMode_sound fun _ => putF_sound
  · exact Sound.bind useMode_sound fun _ => putF_sound
  · exact Sound.bind useMode_sound fun _ => putF_sound
  · exact putF_sound
  · exact putF_sound
  · exact putX_sound
  · exact Sound.bind useMode_sound fun _ => putX_sound
  · exact Sound.bind useMode_sound fun _ => putF_sound
  · exact putX_sound
  · exact putF_sound
  · exact putX_sound
  · exact Sound.pure _

theorem baseStep_canonical {b : Base} {s : State} (hs : memoryOk s) : Canonical (baseStep b s) := by
  have hjump : ∀ {h : HartId} {t v : Word} {rd : Reg}, Sound (jumpTo t >>= fun t => upd (fun s => s.writeX h rd v) >>= fun _ => pure t) :=
    Sound.bind jumpTo_sound fun _ => Sound.bind (Sound.upd fun _ hs => State.wf_writeX hs) fun _ => Sound.pure _
  cases b with
  | lui | auipc | opImm | shiftImm | addiw | shiftImmW | alu | aluW => exact .of (State.wf_result hs)
  | jal | jalr => exact hartJump_canonical hs hjump
  | branch =>
    refine hartJump_canonical hs ?_
    split
    · exact jumpTo_sound
    · exact Sound.pure _
  | csrRead => exact .of (csrReadStep_keeps hs)
  | ecall => exact .of (State.wf_callService hs (service_keeps hs))
  | mret =>
    refine .of ?_
    split
    · exact hs
    · exact State.wf_illegalAt hs
  | _ => exact hartStep_canonical hs floatBody_sound

end Sys2Proof.Machine
end

section
/-! So do stores, tagged words, tokens, barriers, sorting and buckets. -/

namespace Sys2Proof.Machine

open Sys2Proof.Claims

theorem putLoad_sound {h : HartId} {op : LoadOp} {rd : Reg} {v : Nat} : Sound (putLoad h op rd v) := by
  unfold putLoad
  refine Sound.upd fun _ hs => ?_
  split <;> exact hs

theorem execPlainStore_canonical {op : StoreOp} {rs1 rs2 : Reg} {imm : BitVec 12} {s : State} (h : memoryOk s) :
    Canonical (execPlainStore op rs1 rs2 imm s) :=
  hartStep_canonical h (Sound.bind storeLeaf_sound fun _ => Sound.bind accessWait_sound fun _ => Sound.upd fun _ hs =>
    State.wf_plainWrite hs)

theorem execLdU_canonical {rd rs1 : Reg} {imm : BitVec 12} {s : State} (h : memoryOk s) : Canonical (execLdU rd rs1 imm s) :=
  hartStep_canonical h (Sound.bind loadLeaf_sound fun _ => Sound.bind (Sound.modifyGet fun _ hs => State.wf_bypassRead hs) fun _ =>
    Sound.upd fun _ hs => hs)

theorem execSdU_canonical {rs1 rs2 : Reg} {imm : BitVec 12} {s : State} (h : memoryOk s) : Canonical (execSdU rs1 rs2 imm s) :=
  hartStep_canonical h (Sound.bind storeLeaf_sound fun _ => Sound.bind movingWait_sound fun _ => Sound.upd fun _ hs =>
    State.wf_plainWrite hs)

theorem execRndtileWrite_canonical {c : CsrOp} {s : State} (h : memoryOk s) : Canonical (execRndtileWrite c s) := by
  unfold execRndtileWrite
  dsimp only
  split
  · exact .of (State.wf_illegalAt h)
  · refine .of (State.wf_result ?_)
    split <;> exact h

theorem execFlitS_canonical {rd : Reg} {lit : Word32} {s : State} (h : memoryOk s) : Canonical (execFlitS rd lit s) := by
  unfold execFlitS
  dsimp only
  split
  · exact .of (State.wf_takeTrap h)
  · exact .of h

theorem execWfi_canonical {s : State} (h : memoryOk s) : Canonical (execWfi s) := by
  unfold execWfi
  refine .of ?_
  split
  · exact h
  · exact State.wf_illegalAt h

theorem execEcallFirmwareVersion_canonical {s : State} (h : memoryOk s) : Canonical (execEcallFirmwareVersion s) :=
  .of (State.wf_callService h (show memoryOk ((s.writeX s.me 10 (BitVec.setWidth 64 s.dev.firmware)).retire s.me ((s.hart s.me).pc + 4))
    from h))

theorem execEcallUnknown_canonical {s : State} (h : memoryOk s) : Canonical (execEcallUnknown s) :=
  .of (State.wf_callService h (show memoryOk ((s.writeX s.me 10 (BitVec.allOnes 64)).retire s.me ((s.hart s.me).pc + 4)) from h))

theorem execTret_canonical {s : State} (h : memoryOk s) : Canonical (execTret s) := by
  unfold execTret
  split
  · exact .of h
  · exact .of (State.wf_illegalAt h)

theorem execCommandFaultTrap_canonical {s : State} (h : memoryOk s) : Canonical (execCommandFaultTrap s) := by
  unfold execCommandFaultTrap
  dsimp only
  split
  · exact .of (State.wf_takeTrap (State.wf_modHart (State.wf_abandon h)))
  · exact .of h

theorem recAddr_sound {r : Record} {y : List Int} : Sound (recAddr r y) := by
  unfold recAddr
  split
  · exact Sound.pure _
  · exact Sound.bind formed_sound fun _ => Sound.pure _

theorem readList_sound {rd : Reader} {a n count : Nat} (hrd : ∀ a n, Sound (rd a n)) : Sound (readList rd a n count) :=
  Sound.mapM fun _ => hrd _ _

theorem readForSum_sound {rd : Reader} {h : Record} {a : Nat} (hrd : ∀ a n, Sound (rd a n)) : Sound (readForSum rd h a) :=
  Sound.bind (readList_sound hrd) fun _ => Sound.bind (readList_sound hrd) fun _ => Sound.pure _

theorem readForFin_sound {rd : Reader} {h : Record} {a : Nat} (hrd : ∀ a n, Sound (rd a n)) : Sound (readForFin rd h a) :=
  Sound.bind (readList_sound hrd) fun _ => Sound.bind (hrd _ _) fun _ => Sound.bind (readList_sound hrd) fun _ => Sound.pure _

theorem srChecks_sound {r : Run} {c : Cmd} : Sound (srChecks r c) := by
  unfold srChecks
  refine Sound.bind checkReserved_sound fun _ => Sound.bind checkCapture_sound fun _ => Sound.bind checkShape_sound fun _ =>
    Sound.bind checkShape_sound fun _ => Sound.bind (Sound.need _ _) fun _ => Sound.bind (Sound.need _ _) fun _ =>
    Sound.bind (Sound.need _ _) fun _ => Sound.bind (Sound.need _ _) fun _ => ?_
  split
  · exact Sound.throw _
  · exact Sound.pure _

theorem sortImage_sound {r : Run} {c : Cmd} {i : Nat} : Sound (sortImage r c i) := by
  unfold sortImage
  refine Sound.bind (Sound.mapM fun _ => Sound.bind (readElem_sound fun _ _ => cachedGet_sound) fun _ => Sound.pure _) fun _ =>
    Sound.bind (readList_sound fun _ _ => cachedGet_sound) fun _ => Sound.bind cachedGet_sound fun _ => Sound.bind recAddr_sound fun _ =>
    ?_
  split <;> exact Sound.pure _

theorem sortLoad_sound {r : Run} {c : Cmd} {i : Nat} : Sound (sortLoad r c i) := by
  unfold sortLoad
  refine guardPuts_sound (Sound.bind sortImage_sound fun _ => ?_)
  dsimp only
  split
  · exact Sound.bind countClip_sound fun _ => Sound.upd fun _ hs => hs
  · exact Sound.upd fun _ hs => hs

theorem sortWrite_sound {r : Run} {c : Cmd} {i : Nat} {now later : SMap Word} : Sound (sortWrite r c i now later) :=
  guardPuts_sound (Sound.bind putAll_sound fun _ => Sound.upd fun _ hs => hs)

theorem sortRow_sound {r : Run} {c : Cmd} {i : Nat} : Sound (sortRow r c i) := by
  unfold sortRow
  refine Sound.bind Sound.get fun _ => ?_
  dsimp only
  split
  · refine Sound.bind Sound.get fun _ => ?_
    split
    · refine Sound.bind sortLoad_sound fun _ => Sound.bind Sound.get fun _ => ?_
      split
      · exact sortWrite_sound
      · exact Sound.pure _
    · refine Sound.bind Sound.get fun _ => ?_
      split
      · exact sortWrite_sound
      · exact Sound.pure _
  · exact Sound.pure _

theorem State.wf_sortPart {s : State} {t n : Nat} (h : memoryOk s) : memoryOk (s.sortPart t n) := by
  unfold State.sortPart
  dsimp only
  split
  · exact h
  · split
    · exact h
    · split
      · rename_i hx2
        refine Sound.ok ?_ h hx2
        split
        · exact sortLoad_sound
        · exact sortWrite_sound
      · exact h

theorem sortBody_sound {c : Cmd} {r : Run} : Sound (sortBody c r) :=
  Sound.bind srChecks_sound fun _ => Sound.bind begin_sound fun _ => Sound.bind (Sound.forM fun _ => sortRow_sound) fun _ => Sound.pure _

theorem bkChecks_sound {fin toDq : Bool} {r : Run} {c : Cmd} : Sound (bkChecks fin toDq r c) := by
  unfold bkChecks
  refine Sound.bind checkReserved_sound fun _ => Sound.bind checkCapture_sound fun _ => Sound.bind checkShape_sound fun _ =>
    Sound.bind (Sound.need _ _) fun _ => ?_
  split
  · exact Sound.throw _
  · exact Sound.pure _

theorem bkWellFormed_sound {h : Record} {l : List (Option SortedRec)} {n : Nat} : Sound (bkWellFormed h l n) := by
  unfold bkWellFormed
  split
  · exact Sound.pure _
  · exact bkWellFormed_sound
  · exact Sound.bind (Sound.need _ _) fun _ => bkWellFormed_sound

theorem bkScales_sound {c : TileCtx} {l0 : Nat} {slot : Nat → Slot} {l : List (Option SortedRec)} {n : Nat} :
    Sound (bkScales c l0 slot l n) := by
  unfold bkScales
  dsimp only
  split
  · exact Sound.pure _
  · exact bkScales_sound
  · exact Sound.bind (Sound.need _ _) fun _ => bkScales_sound

theorem clearBody_sound {c : Cmd} {r : Run} : Sound (clearBody c r) :=
  Sound.bind checkReserved_sound fun _ => Sound.bind (Sound.need _ _) fun _ => Sound.bind begin_sound fun _ =>
    Sound.bind (Sound.upd fun _ hs => hs) fun _ => Sound.pure _

theorem recSpans_sound {h : Record} {ys : List (List Int)} : Sound (recSpans h ys) :=
  Sound.bind (Sound.mapM fun _ => recAddr_sound) fun _ => Sound.pure _

theorem srSpans_sound {r : Run} {rd : Reader} {c : Cmd} (hrd : ∀ a n, Sound (rd a n)) : Sound (srSpans r rd c) :=
  Sound.bind srChecks_sound fun _ => Sound.bind (elemsSpan_sound hrd) fun _ => Sound.bind recSpans_sound fun _ => Sound.pure _

theorem bkSpans_sound {fin : Bool} {r : Run} {c : Cmd} : Sound (bkSpans fin r c) :=
  Sound.bind bkChecks_sound fun _ => Sound.bind recSpans_sound fun _ => Sound.pure _

theorem execHld_canonical {r : BitVec 4} {rs1 : Reg} {imm : BitVec 12} {s : State} (h : memoryOk s) :
    Canonical (execHld r rs1 imm s) :=
  hartStep_canonical h (Sound.bind (Sound.need _ _) fun _ => Sound.bind plainWords_sound fun _ => Sound.upd fun _ hs => hs)

theorem tokenUnits_sound {h : HartId} {v : Word} : Sound (tokenUnits h v) := by
  unfold tokenUnits
  dsimp only
  split
  · exact Sound.bind illegal_sound fun _ => Sound.pure _
  · exact Sound.pure _

theorem State.wf_tryTake {s : State} {h : HartId} {t : BitVec 4} {n : Nat} (hs : memoryOk s) : memoryOk (s.tryTake h t n) := by
  unfold State.tryTake
  split <;> exact hs

theorem execTkTake_canonical {t : BitVec 4} {rs1 : Reg} {s : State} (h : memoryOk s) : Canonical (execTkTake t rs1 s) :=
  hartEnd_canonical h (Sound.bind tokenUnits_sound fun _ => Sound.upd fun _ hs => State.wf_tryTake hs)

theorem execTkTakeServed_canonical {s : State} (h : memoryOk s) : Canonical (execTkTakeServed s) := by
  unfold execTkTakeServed
  split
  · exact .of (State.wf_tryTake h)
  · exact .of h

theorem sendTagged_sound {h : HartId} {kind : TaggedKind} {rd : Reg} {value va : Word} : Sound (sendTagged h kind rd value va) := by
  unfold sendTagged
  refine Sound.bind taggedLeaf_sound fun l => Sound.bind accessWait_sound fun x => Sound.upd fun s hs =>
    State.wf_homeScan (State.wf_setWait ?_)
  show memoryOk (if (decide (kind = TaggedKind.stf) || decide (kind = TaggedKind.ste)) = true then (((if (decide (kind = TaggedKind.stf)
    || decide (kind = TaggedKind.ste)) = true then s else s.countAccess (s.ctxOf h.tile) l).touch (some (s.ctxOf h.tile)) (l.pa /
    64)).markTagged (s.ctxOf h.tile) l).discard h.tile fun x => decide (x = l.pa / 64) else ((if (decide (kind = TaggedKind.stf) || decide
    (kind = TaggedKind.ste)) = true then s else s.countAccess (s.ctxOf h.tile) l).touch (some (s.ctxOf h.tile)) (l.pa / 64)).markTagged
    (s.ctxOf h.tile) l)
  split
  · exact State.wf_discard (State.wf_markTagged (State.wf_touch hs))
  · exact State.wf_markTagged (State.wf_touch hs)

theorem atomicOp_canonical {h : HartId} {size : Nat} {rd rs1 : Reg} {f : Nat → Nat} {res : Nat → Word} {s : State} (hs : memoryOk s) :
    Canonical (atomicOp h size rd rs1 f res s) :=
  hartStep_canonical hs (Sound.bind atomicLeaf_sound fun _ => Sound.bind accessWait_sound fun _ =>
    Sound.bind (Sound.modifyGet fun _ hs1 => State.wf_atomic hs1) fun _ => Sound.upd fun _ hs1 => hs1)

theorem atomic64_canonical {rd rs1 : Reg} {f : Word → Word} {s : State} (h : memoryOk s) : Canonical (atomic64 rd rs1 f s) :=
  atomicOp_canonical h

theorem atomic32_canonical {rd rs1 : Reg} {f : Nat → Nat} {s : State} (h : memoryOk s) : Canonical (atomic32 rd rs1 f s) :=
  atomicOp_canonical h

theorem State.wf_returnTl {s : State} {h : HartId} {x n : Nat} (hs : memoryOk s) : memoryOk (s.returnTl h x n) := by
  unfold State.returnTl
  refine State.wf_retire ?_
  split <;> exact hs

theorem execTlWait_canonical {x : BitVec 3} {rs1 : Reg} {s : State} (h : memoryOk s) : Canonical (execTlWait x rs1 s) := by
  unfold execTlWait
  dsimp only
  split
  · exact .of (State.wf_takeTrap h)
  · split
    · exact .of (State.wf_returnTl h)
    · exact .of h

theorem execTlWaitReturn_canonical {s : State} (h : memoryOk s) : Canonical (execTlWaitReturn s) := by
  unfold execTlWaitReturn
  split
  · refine .of ?_
    split
    · exact State.wf_returnTl h
    · exact h
  · exact .of h

theorem execFenceG_canonical {n : BitVec 5} {s : State} (h : memoryOk s) : Canonical (execFenceG n s) := by
  unfold execFenceG
  dsimp only
  split
  · exact .of (State.wf_takeTrap h)
  · split <;> exact .of h

theorem State.wf_wake {s : State} {h : HartId} {rd : Reg} (hs : memoryOk s) : memoryOk (s.wake h rd) :=
  State.wf_result hs

theorem execWsleep_canonical {rd : Reg} {s : State} (h : memoryOk s) : Canonical (execWsleep rd s) := by
  unfold execWsleep
  dsimp only
  split
  · exact .of (State.wf_result h)
  · split
    · exact .of h
    · exact .of (State.wf_wake h)

theorem execWsleepWake_canonical {s : State} (h : memoryOk s) : Canonical (execWsleepWake s) := by
  unfold execWsleepWake
  split
  · refine .of ?_
    split
    · exact h
    · exact State.wf_wake h
  · exact .of h

theorem execBarrArrive_canonical {rd rs1 : Reg} {s : State} (h : memoryOk s) : Canonical (execBarrArrive rd rs1 s) := by
  unfold execBarrArrive
  refine hartStep_canonical h (Sound.bind (Sound.need _ _) fun _ => Sound.bind taggedLeaf_sound fun _ =>
    Sound.bind accessWait_sound fun _ => Sound.bind (Sound.modifyGet fun _ hs => State.wf_homeRead hs) fun _ =>
    Sound.bind (Sound.modifyGet fun _ hs => State.wf_homeRead hs) fun _ => ?_)
  split
  · exact Sound.throw _
  · exact Sound.upd fun _ hs => State.wf_writeX (State.wf_markTagged (State.wf_tileWrite hs))

theorem barrBody_sound {h : HartId} {a : Word} {token : BitVec 24} {rd : Reg} : Sound (barrBody h a token rd) := by
  unfold barrBody
  refine Sound.bind (Sound.need _ _) fun _ => Sound.bind taggedLeaf_sound fun _ => Sound.bind accessWait_sound fun _ =>
    Sound.bind Sound.get fun _ => Sound.bind (Sound.modifyGet fun _ hs => State.wf_homeRead hs) fun _ => Sound.bind (Sound.upd fun _ hs =>
    hs) fun _ => ?_
  split
  · exact Sound.throw _
  · exact Sound.upd fun _ hs => hs

theorem execBarrWaitWake_canonical {s : State} (h : memoryOk s) : Canonical (execBarrWaitWake s) := by
  unfold execBarrWaitWake
  split
  · exact hartStep_canonical h barrBody_sound
  · exact .of h

theorem execAccrd_canonical {rd : Reg} {a : BitVec 1} {rs1 : Reg} {s : State} (h : memoryOk s) : Canonical (execAccrd rd a rs1 s) := by
  unfold execAccrd
  refine hartStep_canonical h ?_
  dsimp only
  split
  · refine Sound.bind illegal_sound fun _ => ?_
    split
    · exact Sound.throw _
    · exact Sound.upd fun _ hs => hs
  · split
    · exact Sound.throw _
    · exact Sound.upd fun _ hs => hs

theorem State.wf_returnVote {s : State} {h : HartId} {rd : Reg} {vt : BitVec 2} (hs : memoryOk s) :
    memoryOk (s.returnVote h rd vt) := by
  unfold State.returnVote
  split
  · exact hs
  · exact State.wf_result hs

theorem execVread_canonical {rd : Reg} {vt : BitVec 2} {s : State} (h : memoryOk s) : Canonical (execVread rd vt s) := by
  unfold execVread
  split
  · exact .of (State.wf_illegalAt h)
  · exact .of (State.wf_returnVote h)

theorem execVreadReturn_canonical {s : State} (h : memoryOk s) : Canonical (execVreadReturn s) := by
  unfold execVreadReturn
  split
  · exact .of (State.wf_returnVote h)
  · exact .of h

end Sys2Proof.Machine
end

section
/-! So do messages: what a command sends, what arrives, and what is answered. -/

namespace Sys2Proof.Machine

open Sys2Proof.Claims

theorem msChecks_sound {k : MsgKind} {r : Run} {c : Cmd} : Sound (msChecks k r c) := by
  unfold msChecks
  refine Sound.bind checkReserved_sound fun _ => ?_
  extract_lets w word domain
  have hword : ∀ d, Sound (word d) := fun _ => Sound.bind (Sound.need _ _) fun _ =>
    Sound.ite (Sound.bind engineLeafIn_sound fun _ => Sound.pure _) (Sound.pure _)
  have hdomain : ∀ x, Sound (domain x) := by
    refine fun _ => Sound.bind Sound.get fun s => Sound.ite (Sound.bind (Sound.pure _) hword) ?_
    split
    · exact Sound.bind (Sound.pure _) hword
    · exact Sound.bind (Sound.throw _) hword
  exact Sound.ite (Sound.bind checkCapture_sound fun _ => Sound.bind checkShape_sound fun _ => Sound.bind (Sound.need _ _) fun _ =>
    Sound.bind (Sound.need _ _) fun _ => Sound.bind (Sound.need _ _) fun _ => Sound.bind (Sound.need _ _) hdomain) (hdomain ())

theorem State.wf_modTcAt {s : State} {c ct : Nat} {f : TileCtx → TileCtx} (h : memoryOk s) : memoryOk (s.modTcAt c ct f) := by
  unfold State.modTcAt
  split <;> exact h

theorem State.wf_fillAt {s : State} {c va v : Nat} (h : memoryOk s) : memoryOk (s.fillAt c va v) := by
  unfold State.fillAt
  dsimp only
  split
  · split
    · exact State.wf_markTagged (State.wf_homeWrite (State.wf_deviceWalk h))
    · exact State.wf_deviceWalk h
  · exact State.wf_deviceWalk h

theorem State.wf_outcome {s : State} {c ct : Nat} {op : BitVec 8} {word bytes status : Nat} (h : memoryOk s) :
    memoryOk (s.outcome c ct op word bytes status) := by
  unfold State.outcome
  dsimp only
  split
  · split
    · exact h
    · split
      · exact State.wf_discard (State.wf_fillAt h)
      · exact State.wf_fillAt h
  · refine State.wf_modTcAt ?_
    split
    · exact h
    · split
      · exact State.wf_discard (State.wf_fillAt h)
      · exact State.wf_fillAt h

theorem State.wf_handOver {s : State} {serial : Word} {cls tile chan : Nat} {here : Instr} {out : Sent} (h : memoryOk s) :
    memoryOk (s.handOver serial cls tile chan here out) := by
  unfold State.handOver
  split
  · exact h
  · exact State.wf_depart h

theorem readPayload_sound {r : Run} {c : Cmd} : Sound (readPayload r c) :=
  Sound.bind (Sound.mapM fun _ => Sound.bind (readElem_sound fun _ _ => directGet_sound) fun _ => Sound.pure _) fun _ => Sound.pure _

theorem awaitAck_sound {r : Run} {op : BitVec 8} {word : Nat} : Sound (awaitAck r op word) :=
  Sound.upd fun _ hs => hs

theorem localOutcome_sound {r : Run} {op : BitVec 8} {word bytes status : Nat} : Sound (localOutcome r op word bytes status) :=
  Sound.upd fun _ hs => State.wf_outcome hs

theorem sendOut_sound {r : Run} {c : Cmd} {serial : Word} {chan : Nat} {here : Instr} {out : Sent} :
    Sound (sendOut r c serial chan here out) :=
  Sound.upd fun _ hs => State.wf_handOver hs

theorem execTxSend_canonical {c : Cmd} {s : State} (h : memoryOk s) : Canonical (execTxSend c s) := by
  unfold execTxSend
  refine runCommand_canonical h fun _ => Sound.bind msChecks_sound fun _ => Sound.bind (Sound.need _ _) fun _ => ?_
  dsimp only
  split
  · exact Sound.bind localOutcome_sound fun _ => Sound.pure _
  · exact Sound.bind readPayload_sound fun _ => Sound.bind Sound.get fun _ => Sound.bind awaitAck_sound fun _ =>
      Sound.bind sendOut_sound fun _ => Sound.pure _

theorem execTxPut_canonical {c : Cmd} {s : State} (h : memoryOk s) : Canonical (execTxPut c s) := by
  unfold execTxPut
  refine runCommand_canonical h fun _ => Sound.bind msChecks_sound fun _ => Sound.bind (Sound.need _ _) fun _ => ?_
  dsimp only
  split
  · exact Sound.bind localOutcome_sound fun _ => Sound.pure _
  · exact Sound.bind readPayload_sound fun _ => Sound.bind Sound.get fun _ => Sound.bind awaitAck_sound fun _ =>
      Sound.bind sendOut_sound fun _ => Sound.pure _

theorem execTxPutArrive_canonical {c : Cmd} {s : State} (h : memoryOk s) : Canonical (execTxPutArrive c s) := by
  unfold execTxPutArrive
  refine runCommand_canonical h fun _ => Sound.bind msChecks_sound fun _ => ?_
  dsimp only
  split
  · exact Sound.bind localOutcome_sound fun _ => Sound.pure _
  · exact Sound.bind Sound.get fun _ => Sound.bind awaitAck_sound fun _ => Sound.bind sendOut_sound fun _ => Sound.pure _

theorem execTxGet_canonical {c : Cmd} {s : State} (h : memoryOk s) : Canonical (execTxGet c s) := by
  unfold execTxGet
  refine runCommand_canonical h fun _ => Sound.bind (Sound.need _ _) fun _ => Sound.bind msChecks_sound fun _ => ?_
  dsimp only
  split
  · exact Sound.bind localOutcome_sound fun _ => Sound.pure _
  · exact Sound.bind Sound.get fun _ => Sound.bind sendOut_sound fun _ => Sound.bind (Sound.upd fun _ hs => hs) fun _ => Sound.pure _

theorem State.wf_landPieces {s : State} {c : Nat} {h : Shape} {x : List Int} {l : List (Nat × Nat × List Byte)} {n : Nat}
    (hs : memoryOk s) :
    memoryOk (s.landPieces c h x l n).1 := by
  unfold State.landPieces
  dsimp only
  split
  · exact hs
  · split
    · exact State.wf_landPieces hs
    · split
      · exact hs
      · split
        · exact State.wf_deviceWalk hs
        · split
          · exact State.wf_deviceWalk hs
          · split
            · exact State.wf_deviceWalk hs
            · exact State.wf_landPieces (State.wf_engineWrite (State.wf_deviceWalk hs))

theorem State.wf_landSome {s : State} {c : Nat} {l : Landing} {k : Nat} (h : memoryOk s) : memoryOk (s.landSome c l k).1 :=
  State.wf_landPieces h

theorem State.wf_land {s : State} {c : Nat} {l : Landing} (h : memoryOk s) : memoryOk (s.land c l).1 :=
  State.wf_landSome h

theorem State.wf_landNext {s : State} {c n : Nat} (h : memoryOk s) : memoryOk (s.landNext c n) := by
  unfold State.landNext
  dsimp only
  split
  · exact h
  · refine State.wf_modCtx ?_
    split
    · exact h
    · exact State.wf_landSome h

theorem State.wf_fillReceive {s : State} {c word : Nat} {tag : BitVec 32} {src : BitVec 16} {chan : BitVec 4} {n status : Nat}
    (h : memoryOk s) :
    memoryOk (s.fillReceive c word tag src chan n status) := by
  unfold State.fillReceive
  dsimp only
  split
  · refine State.wf_modCtx (State.wf_fillAt ?_)
    split
    · split
      · exact State.wf_homeWrite (State.wf_deviceWalk h)
      · exact State.wf_deviceWalk h
    · exact State.wf_deviceWalk h
  · refine State.wf_setTlerrAll (State.wf_modCtx (State.wf_fillAt ?_))
    split
    · split
      · exact State.wf_homeWrite (State.wf_deviceWalk h)
      · exact State.wf_deviceWalk h
    · exact State.wf_deviceWalk h

theorem State.wf_ack {s : State} {dst : MsgRef} {cls bytes status : Nat} (h : memoryOk s) : memoryOk (s.ack dst cls bytes status) :=
  State.wf_handOver h

theorem State.wf_storeWords {s : State} {c pa : Nat} {l : List Byte} (h : memoryOk s) : memoryOk (s.storeWords c pa l) :=
  memoryOk_foldl (fun _ _ hs => State.wf_engineWrite hs) h

theorem State.wf_park {s : State} {i : Nat} {m : Message} (h : memoryOk s) : memoryOk (s.park i m) :=
  State.wf_modCtx (State.wf_storeWords (memoryOk_foldl (fun _ _ hs => State.wf_homeWrite hs) h))

theorem execLandingComplete_canonical {c : Nat} {s : State} (h : memoryOk s) : Canonical (execLandingComplete c s) := by
  unfold execLandingComplete
  split
  · exact .of h
  · extract_lets x t l u v
    have ht : memoryOk t := by
      unfold t x
      split
      · exact h
      · exact State.wf_land h
    have hv : memoryOk v := State.wf_fillReceive ht
    refine Canonical.ite (.of (State.wf_later (State.wf_modCtx ht))) ?_
    split
    · exact .of (State.wf_modCtx hv)
    · exact .of (memoryOk_ite hv (State.wf_ack hv))

theorem State.wf_dropSignal {s : State} {c : Nat} {dst : MsgRef} {cls : Nat} (h : memoryOk s) : memoryOk (s.dropSignal c dst cls) :=
  State.wf_ack h

theorem execMessageArrival_canonical {m : Message} {s : State} (h : memoryOk s) : Canonical (execMessageArrival m s) := by
  unfold execMessageArrival
  dsimp only
  split
  · refine .of ?_
    split
    · exact h
    · exact State.wf_dropSignal h
  · split
    · exact .of h
    · split
      · exact .of h
      · split
        · exact .of (State.wf_ack (State.wf_park h))
        · exact .of (State.wf_ack h)

theorem execRxCancel_canonical {c : Cmd} {s : State} (h : memoryOk s) : Canonical (execRxCancel c s) := by
  unfold execRxCancel
  refine runCommand_canonical h fun _ => Sound.bind msChecks_sound fun _ => Sound.bind Sound.get fun _ => ?_
  dsimp only
  split
  · exact Sound.pure _
  · exact Sound.bind (Sound.upd fun _ hs => State.wf_fillReceive hs) fun _ => Sound.pure _

theorem probeLeaf_sound {h : HartId} {a : Word} : Sound (probeLeaf h a) :=
  Sound.bind (Sound.need _ _) fun _ => Sound.bind (Sound.need _ _) fun _ => Sound.bind hartLeaf_sound fun _ =>
    Sound.bind (Sound.need _ _) fun _ => Sound.bind (Sound.need _ _) fun _ => Sound.pure _

theorem execRxProbe_canonical {rd rs1 : Reg} {s : State} (h : memoryOk s) : Canonical (execRxProbe rd rs1 s) := by
  unfold execRxProbe
  refine hartStep_canonical h (Sound.bind probeLeaf_sound fun _ => Sound.bind plainRead_sound fun _ => Sound.bind plainRead_sound fun _ =>
    Sound.bind Sound.get fun _ => ?_)
  dsimp only
  split
  · exact Sound.upd fun _ hs => hs
  · split
    · exact Sound.upd fun _ hs => hs
    · split
      · exact Sound.upd fun _ hs => hs
      · exact Sound.bind accessWait_sound fun _ => Sound.bind (Sound.upd fun _ hs =>
          State.wf_plainWrite (State.wf_plainWrite hs)) fun _ => Sound.upd fun _ hs => hs

theorem State.wf_scrambleBytes {copy : Bool} {s : State} {c a : Nat} {l : List (Nat × Nat × List Byte)} (h : memoryOk s) :
    memoryOk (s.scrambleBytes copy c a l) := by
  unfold State.scrambleBytes
  dsimp only
  split
  · exact h
  · split
    · exact State.wf_scrambleBytes h
    · split
      · exact State.wf_scrambleBytes h
      · exact State.wf_scrambleBytes (State.wf_homeWrite h)

theorem State.wf_holdPut {s : State} {p : RemotePut} (h : memoryOk s) : memoryOk (s.holdPut p) := by
  unfold State.holdPut
  refine State.wf_later ?_
  split <;> exact h

theorem execRemoteArrival_canonical {a : RemoteSignal} {s : State} (h : memoryOk s) : Canonical (execRemoteArrival a s) := by
  unfold execRemoteArrival
  dsimp only
  split
  · exact .of (State.wf_dropSignal h)
  · split
    · exact .of h
    · split
      · exact .of (State.wf_ack (State.wf_deviceWalk h))
      · split
        · exact .of (State.wf_ack (State.wf_deviceWalk h))
        · split
          · exact .of (State.wf_ack (State.wf_homeRead (State.wf_homeRead (State.wf_deviceWalk h))))
          · exact .of (State.wf_ack (State.wf_markTagged (State.wf_homeWrite (State.wf_homeRead (State.wf_homeRead (State.wf_deviceWalk
              h))))))

theorem landReply_sound {r : Run} {c : Cmd} {a : List (Nat × Nat × List Byte)} : Sound (landReply r c a) := by
  unfold landReply
  dsimp only
  split
  · exact Sound.pure _
  · split
    · exact Sound.bind countClip_sound fun _ => landReply_sound
    · exact Sound.bind formed_sound fun _ => Sound.bind enginePut_sound fun _ => landReply_sound

theorem State.wf_scrambleBox {s : State} {r : Run} {c : Cmd} {lo : Nat} (h : memoryOk s) : memoryOk (s.scrambleBox r c lo) :=
  State.wf_scramble h

theorem State.wf_replyWord {s : State} {g : GetReply} {va : Nat} (h : memoryOk s) : memoryOk (s.replyWord g va) := by
  unfold State.replyWord
  dsimp only
  split
  · exact h
  · split
    · exact h
    · split
      · rename_i hx2
        exact State.wf_modEntry (Sound.ok landReply_sound h hx2)
      · exact State.wf_keepFresh h

theorem execMessageAck_canonical {a : MsgAck} {s : State} (h : memoryOk s) : Canonical (execMessageAck a s) := by
  unfold execMessageAck
  dsimp only
  split
  · exact .of h
  · split
    · exact .of h
    · refine .of (State.wf_outcome ?_)
      split
      · exact State.wf_modCtx (State.wf_modTcAt h)
      · exact State.wf_modTcAt h

theorem bkRecords_sound {read : Reader → Record → Nat → M SortedRec} {r : Run} {c : Cmd}
    (hread : ∀ {rd : Reader} {h : Record} {a : Nat}, (∀ a n, Sound (rd a n)) → Sound (read rd h a)) : Sound (bkRecords read r c) := by
  unfold bkRecords
  refine Sound.mapM fun _ => Sound.bind recAddr_sound fun _ => ?_
  split
  · exact Sound.pure _
  · exact Sound.bind (hread fun _ _ => cachedGet_sound) fun _ => Sound.pure _

/-- A fold that carries a value beside the state. -/
theorem memoryOk_foldl_fst {α β : Type} {f : State × α → β → State × α} {l : List β} {x : State × α}
    (hf : ∀ x b, memoryOk x.1 → memoryOk (f x b).1) (h : memoryOk x.1) : memoryOk (l.foldl f x).1 := by
  induction l generalizing x with
  | nil => exact h
  | cons b l ih => exact ih (hf x b h)

theorem State.wf_loadLines {s : State} {c pa n : Nat} (h : memoryOk s) : memoryOk (s.loadLines c pa n).1 := by
  unfold State.loadLines
  refine memoryOk_foldl_fst (fun x i hs => ?_) h
  dsimp only
  split
  · exact State.wf_engineLoss hs ‹_›
  · exact State.wf_homeRead hs

theorem State.wf_putBytes {copy : Bool} {s u : State} {c base : Nat} {l : List (Nat × Nat × List Byte)} (h : memoryOk s)
    (hu : State.putBytes copy s c base l = some u) : memoryOk u := by
  induction l generalizing s with
  | nil => cases hu; exact h
  | cons x l ih =>
    obtain ⟨j, o, b⟩ := x
    rw [State.putBytes] at hu
    split at hu
    · cases hu
    · split at hu
      · cases hu
      · exact ih (State.wf_engineWrite (State.wf_deviceWalk h)) hu

theorem State.wf_getBytes {copy : Bool} {seen : List (Nat × Word)} {s : State} {c base : Nat} {l : List (Nat × Nat × List Byte)}
    {r : State × List Byte} (h : memoryOk s) (hr : State.getBytes copy seen s c base l = some r) : memoryOk r.1 := by
  induction l generalizing s r with
  | nil => cases hr; exact h
  | cons x l ih =>
    obtain ⟨j, o, b⟩ := x
    rw [State.getBytes] at hr
    split at hr
    · obtain ⟨y, hy, rfl⟩ := Option.map_eq_some_iff.1 hr
      show memoryOk y.1
      exact ih h hy
    · dsimp only at hr
      split at hr
      · cases hr
      · obtain ⟨y, hy, rfl⟩ := Option.map_eq_some_iff.1 hr
        show memoryOk y.1
        refine ih ?_ hy
        split
        · exact State.wf_engineLoss (State.wf_deviceWalk h) ‹_›
        · exact State.wf_directRead (State.wf_deviceWalk h)

theorem State.wf_getWord {s : State} {g : RemoteGet} {va : Nat} (h : memoryOk s) : memoryOk (s.getWord g va) := by
  unfold State.getWord
  dsimp only
  split
  · exact h
  · split
    · exact h
    · exact State.wf_getBytes h ‹_›

theorem execRemoteGetRead_canonical {g : RemoteGet} {s : State} (h : memoryOk s) : Canonical (execRemoteGetRead g s) := by
  unfold execRemoteGetRead
  dsimp only
  split
  · exact .of (State.wf_handOver h)
  · split
    · exact .of (State.wf_handOver h)
    · rename_i hr
      refine .of (State.wf_handOver (State.wf_getBytes ?_ hr))
      exact h

/-- A body whose end, whose fault and whose other stops each go on in a state of their own. -/
theorem landed_canonical {m : M Unit} {s : State} {f : State → Nat → Nat → Nat → State} {g : State → State} (hm : Sound m)
    (h : memoryOk s)
    (hf : ∀ s a b c, memoryOk s → memoryOk (f s a b c)) (hg : ∀ s, memoryOk s → memoryOk (g s)) :
    Canonical (match m s with
      | .ok _ s' => .next s'
      | .error (.fault code detail addr) s' => .next (f s' code detail addr)
      | .error _ s' => .next (g s')) := by
  cases hr : m s with
  | ok a t => exact .of (hm.ok h hr)
  | error e t =>
    have ht := hm.error h hr
    cases e with
    | fault => exact .of (hf _ _ _ _ ht)
    | _ => exact .of (hg _ ht)

theorem sumBody_sound {c : Cmd} {r : Run} : Sound (sumBody c r) := by
  unfold sumBody
  refine Sound.bind bkChecks_sound fun _ => Sound.bind begin_sound fun _ => Sound.bind (bkRecords_sound readForSum_sound) fun _ =>
    Sound.bind claimed_sound fun _ => Sound.bind checkSlots_sound fun _ =>
    Sound.bind bkWellFormed_sound fun _ => Sound.bind Sound.get fun _ => Sound.bind bkScales_sound fun _ =>
    Sound.bind (Sound.forM fun _ => ?_) fun _ => Sound.bind releaseClaims_sound fun _ => Sound.pure _
  dsimp only
  split
  · exact Sound.pure _
  · exact Sound.upd fun _ hs => hs

theorem finBody_sound {c : Cmd} {r : Run} : Sound (finBody c r) := by
  unfold finBody
  refine Sound.bind bkChecks_sound fun _ => Sound.bind begin_sound fun _ => Sound.bind (bkRecords_sound readForFin_sound) fun _ =>
    Sound.bind bkWellFormed_sound fun _ => Sound.bind Sound.get fun _ => ?_
  have hclear : ∀ {b : Bool} {f : TileCtx → TileCtx}, Sound (do
      if b then upd (fun s => s.modTc r.t f)
      pure true : M Bool) := by
    intro b f
    cases b
    · exact Sound.pure _
    · exact Sound.bind (Sound.upd fun _ hs => hs) fun _ => Sound.pure _
  dsimp only
  split
  · exact Sound.bind fillSlot_sound fun _ => hclear
  · exact Sound.bind (Sound.upd fun _ hs => hs) fun _ => hclear

theorem State.wf_unpark {s : State} {i : Nat} {m : Message} (h : memoryOk s) : memoryOk (s.unpark i m).1 :=
  State.wf_modCtx (State.wf_loadLines h)

theorem State.wf_startLanding {s : State} {c : Nat} {p : Posted} {m : Message} {i : Option Nat} (h : memoryOk s) :
    memoryOk (s.startLanding c p m i) := h

theorem execRxPost_canonical {c : Cmd} {s : State} (h : memoryOk s) : Canonical (execRxPost c s) := by
  unfold execRxPost
  refine runCommand_canonical h fun r => Sound.bind msChecks_sound fun d => Sound.bind Sound.get fun s =>
    Sound.bind (Sound.need _ _) fun x => ?_
  dsimp only
  split
  · exact Sound.bind (Sound.upd fun _ hs => State.wf_startLanding (State.wf_unpark hs)) fun _ => Sound.pure _
  · exact Sound.bind (Sound.upd fun _ hs => hs) fun _ => Sound.pure _

theorem State.wf_putWord {s : State} {p : RemotePut} {va : Nat} (h : memoryOk s) : memoryOk (s.putWord p va) := by
  unfold State.putWord
  dsimp only
  split
  · exact h
  · split
    · exact h
    · rename_i u hu
      have hp : memoryOk u := State.wf_putBytes h hu
      exact hp

theorem execRemotePutWrite_canonical {p : RemotePut} {s : State} (h : memoryOk s) : Canonical (execRemotePutWrite p s) := by
  have he : memoryOk (s.endPut p) := h
  unfold execRemotePutWrite
  refine Canonical.ite (.of ?_) (Canonical.ite (.of (State.wf_holdPut h)) (Canonical.ite (.of (State.wf_scrambleBytes he)) ?_))
  · split
    · exact he
    · exact State.wf_dropSignal he
  · split
    · exact .of (State.wf_ack (State.wf_scrambleBytes he))
    · rename_i u hu
      have hp : memoryOk u := State.wf_putBytes he hu
      refine Canonical.ite (.of (State.wf_ack hp)) ?_
      dsimp only
      split
      · exact Canonical.ite (.of (State.wf_ack (State.wf_fillAt (State.wf_deviceWalk hp)))) (.of (State.wf_ack (State.wf_deviceWalk hp)))
      · exact .of (State.wf_ack (State.wf_deviceWalk hp))

theorem State.wf_answered {s : State} {f : Sent → Bool} (h : memoryOk s) : memoryOk (s.answered f) := h

theorem execGetReply_canonical {g : GetReply} {s : State} (h : memoryOk s) : Canonical (execGetReply g s) := by
  unfold execGetReply
  extract_lets u
  have hu : memoryOk u := by
    dsimp only [u]
    split
    · exact State.wf_answered h
    · exact h
  split
  · exact .of hu
  · refine landed_canonical (Sound.bind landReply_sound fun _ => Sound.bind (Sound.upd fun _ hs => hs) fun _ => ?_) hu
      (fun _ _ _ _ hs => State.wf_modTc (State.wf_scrambleBox hs)) (fun _ _ => State.wf_later (State.wf_keepFresh hu))
    have hend : ∀ {r : Run} {w : Nat} {c : Nat} {a b d : Nat}, Sound (do
        let s ← get
        need (!s.wordMoving c w) (.hold 0)
        localOutcome r a w b d
        upd fun s => s.modEntry r.t 2 r.e.seq fun e => { e with st := .done }) :=
      Sound.bind Sound.get fun _ => Sound.bind (Sound.need _ _) fun _ => Sound.bind localOutcome_sound fun _ => Sound.upd fun _ hs => hs
    split
    · dsimp only
      split
      · exact Sound.bind (Sound.upd fun _ hs => State.wf_scrambleBox hs) fun _ => hend
      · exact hend
    · exact Sound.pure _

end Sys2Proof.Machine
end

section
/-! So do copies, the decoder and the command queues. -/

namespace Sys2Proof.Machine

open Sys2Proof.Claims

theorem drawFree_sound : Sound drawFree := Sound.modifyGet fun _ hs => hs

/-- A body whose faults are given another address. -/
theorem Sound.atAddress {m : M Leaf} {a : Nat} (hm : Sound m) :
    Sound (fun s => match m s with
      | .ok _ s' => .ok () s'
      | .error (.fault code detail _) s' => .error (.fault code detail a) s'
      | .error e s' => .error e s' : M Unit) := by
  refine ⟨fun s hs => ?_⟩
  cases hr : m s with
  | ok _ t => exact hm.ok hs hr
  | error e t =>
    have ht := hm.error hs hr
    cases e <;> exact ht

theorem checkBitmap_sound {k : CopyKind} {r : Run} {c : Cmd} : Sound (checkBitmap k r c) := by
  unfold checkBitmap
  dsimp only
  split
  · exact Sound.bind (Sound.need _ _) fun _ => Sound.forM fun _ => Sound.atAddress engineLeafIn_sound
  · exact Sound.pure _

theorem State.wf_memberElement {s : State} {k : CopyKind} {r : Run} {c : Cmd} {ctx a n v : Nat} {x : State × Nat} (h : memoryOk s)
    (hx : s.memberElement k r c ctx a n v = some x) : memoryOk x.1 := by
  unfold State.memberElement at hx
  dsimp only at hx
  split at hx
  · cases hx
  · split at hx
    · cases hx
      refine State.wf_directRead ?_
      split <;> exact h
    · split at hx
      · cases hx
      · split at hx
        · cases hx
          exact State.wf_tileWrite h
        · cases hx
          exact State.wf_tileWrite h

theorem cpChecks_sound {k : CopyKind} {r : Run} {c : Cmd} : Sound (cpChecks k r c) := by
  unfold cpChecks
  refine Sound.bind checkReserved_sound fun _ => Sound.bind checkCapture_sound fun _ => ?_
  extract_lets hs hd hx limits indexed placed
  have hlimits : ∀ x, Sound (limits x) := by
    refine fun _ => Sound.bind (Sound.need _ _) fun _ => Sound.bind (Sound.need _ _) fun _ => Sound.bind (Sound.need _ _) fun _ =>
      Sound.bind (Sound.need _ _) fun _ => Sound.bind (Sound.need _ _) fun _ => ?_
    split
    · exact Sound.throw _
    · exact Sound.pure _
  have hindexed : ∀ x, Sound (indexed x) := fun _ => Sound.ite (Sound.bind checkShape_sound hlimits) (hlimits ())
  have hplaced : ∀ x, Sound (placed x) := fun _ => Sound.ite (Sound.bind checkShape_sound hindexed) (hindexed ())
  exact Sound.ite (Sound.bind checkShape_sound hplaced) (hplaced ())

theorem setProgress_sound {r : Run} {f : Progress → Progress} : Sound (setProgress r f) :=
  Sound.upd fun _ hs => hs

theorem cpIdx_sound {r : Run} {c : Cmd} {k : Int} : Sound (cpIdx r c k) :=
  indexAt_sound fun _ _ => directGet_sound

theorem cpSrcCoords_sound {k : CopyKind} {r : Run} {c : Cmd} {n : Nat} : Sound (cpSrcCoords k r c n) := by
  unfold cpSrcCoords
  dsimp only
  split
  · exact Sound.bind cpIdx_sound fun _ => Sound.pure _
  · exact Sound.pure _

theorem cpDstCoords_sound {k : CopyKind} {r : Run} {c : Cmd} {n : Nat} : Sound (cpDstCoords k r c n) := by
  unfold cpDstCoords
  dsimp only
  split
  · exact Sound.bind cpIdx_sound fun _ => Sound.pure _
  · exact Sound.pure _

theorem cpPut_sound {k : CopyKind} {r : Run} {c : Cmd} {n v : Nat} : Sound (cpPut k r c n v) := by
  unfold cpPut
  refine Sound.bind cpDstCoords_sound fun _ => Sound.bind (elemPut_sound fun _ _ => directGet_sound) fun _ => ?_
  dsimp only
  split
  · exact Sound.bind countClip_sound fun _ => Sound.pure _
  · exact Sound.pure _

theorem cpValue_sound {k : CopyKind} {r : Run} {c : Cmd} {n : Nat} : Sound (cpValue k r c n) := by
  unfold cpValue
  dsimp only
  split
  · exact Sound.pure _
  · exact Sound.bind cpSrcCoords_sound fun _ => Sound.bind (readElem_sound fun _ _ => directGet_sound) fun _ => Sound.pure _

theorem freePuts_sound {l : List Put} : Sound (freePuts l) :=
  Sound.mapM fun _ => Sound.bind drawFree_sound fun _ => Sound.pure _

theorem cpItems_sound {k : CopyKind} {r : Run} {c : Cmd} {s : State} {l : List (Nat × Nat)} :
    AllSound (cpItems k r c s l) := by
  unfold cpItems
  refine AllSound.map fun _ => Sound.bind cpPut_sound fun _ => ?_
  split
  · exact Sound.pure _
  · refine Sound.bind freePuts_sound fun _ => ?_
    split
    · exact Sound.bind (Sound.forM fun _ => atomicPut_sound) fun _ => Sound.pure _
    · exact Sound.pure _

theorem keepGathered_sound {r : Run} {n v : Nat} : Sound (keepGathered r n v) :=
  setProgress_sound

theorem refuseElement_sound {r : Run} : Sound (refuseElement r) :=
  Sound.bind (Sound.need _ _) fun _ => setProgress_sound

theorem State.wf_cancelNow {s : State} {t : Nat} {e : Entry} (h : memoryOk s) : memoryOk (s.cancelNow t e) := by
  unfold State.cancelNow
  refine State.wf_modTc ?_
  split
  · exact State.wf_scrambleCopy h
  · exact h

theorem State.wf_endCancel {s : State} {t seq : Nat} (h : memoryOk s) : memoryOk (s.endCancel t seq) := by
  unfold State.endCancel
  split
  · split
    · exact State.wf_cancelNow h
    · exact h
  · exact h

theorem cpStart_sound {k : CopyKind} {r : Run} {c : Cmd} : Sound (cpStart k r c) := by
  unfold cpStart
  split
  · exact Sound.pure _
  · exact Sound.bind cpChecks_sound fun _ => Sound.bind takeSlots_sound fun _ => Sound.bind checkBitmap_sound fun _ =>
      Sound.bind setProgress_sound fun _ => Sound.need _ _

theorem cpReady_sound {r : Run} : Sound (cpReady r) :=
  Sound.bind Sound.get fun _ => Sound.bind (Sound.need _ _) fun _ => Sound.need _ _

theorem endCopyWord_sound {k : CopyKind} {r : Run} {c : Cmd} : Sound (endCopyWord k r c) := by
  unfold endCopyWord
  split
  · exact Sound.need _ _
  · exact endWord_sound

theorem decFault_sound {r : Run} {c : Cmd} {code : Nat} {d : DecState} : Sound (decFault r c code d) :=
  Sound.bind Sound.get fun _ => Sound.throw _

theorem decSource_sound {r : Run} {c : Cmd} {d : DecState} {n : Nat} : Sound (decSource r c d n) := by
  unfold decSource
  dsimp only
  split
  · exact Sound.bind decFault_sound fun _ => Sound.bind (readElem_sound fun _ _ => directGet_sound) fun _ => Sound.pure _
  · exact Sound.bind (readElem_sound fun _ _ => directGet_sound) fun _ => Sound.pure _

theorem decBytes_sound {r : Run} {c : Cmd} {d : DecState} {a n : Nat} : Sound (decBytes r c d a n) :=
  Sound.bind (Sound.mapM fun _ => decSource_sound) fun _ => Sound.pure _

theorem bodyByte_sound {r : Run} {c : Cmd} {d : DecState} {off : Nat} : Sound (bodyByte r c d off) := by
  unfold bodyByte
  dsimp only
  split
  · exact Sound.bind decFault_sound fun _ => decSource_sound
  · exact decSource_sound

theorem decWrite_sound {r : Run} {c : Cmd} {out v : Nat} : Sound (decWrite r c out v) := by
  unfold decWrite
  refine Sound.bind (elemAddr_sound fun _ _ => directGet_sound) fun _ => ?_
  dsimp only
  split
  · split
    · exact countClip_sound
    · exact Sound.pure _
  · refine Sound.bind engineLeafIn_sound fun _ => Sound.bind (Sound.need _ _) fun _ => Sound.bind Sound.get fun _ => ?_
    split
    · exact Sound.bind drawFree_sound fun _ => Sound.bind (Sound.pure _) fun _ => Sound.bind (Sound.modifyGet fun _ hs =>
        State.wf_homeRead hs) fun _ => Sound.bind setProgress_sound fun _ => Sound.upd fun _ hs => State.wf_tileWrite hs
    · exact Sound.bind (Sound.pure _) fun _ => Sound.bind (Sound.modifyGet fun _ hs => State.wf_homeRead hs) fun _ =>
        Sound.bind setProgress_sound fun _ => Sound.upd fun _ hs => State.wf_tileWrite hs

theorem decHeader_sound {r : Run} {c : Cmd} {d : DecState} : Sound (decHeader r c d) := by
  unfold decHeader
  refine Sound.bind decBytes_sound fun _ => ?_
  dsimp only
  split
  · refine Sound.bind decBytes_sound fun _ => Sound.bind setProgress_sound fun _ => ?_
    split
    · exact Sound.bind decFault_sound fun _ => Sound.pure _
    · exact Sound.pure _
  · refine Sound.bind (Sound.pure _) fun _ => Sound.bind setProgress_sound fun _ => ?_
    split
    · exact Sound.bind decFault_sound fun _ => Sound.pure _
    · exact Sound.pure _

theorem decEnd_sound {r : Run} {c : Cmd} {d : DecState} : Sound (decEnd r c d) := by
  unfold decEnd
  dsimp only
  split
  · refine Sound.bind decFault_sound fun _ => ?_
    split
    · exact Sound.bind decFault_sound fun _ => Sound.pure _
    · exact Sound.pure _
  · split
    · exact Sound.bind decFault_sound fun _ => Sound.pure _
    · exact Sound.pure _

theorem execRingUnitTake_canonical {s : State} (h : memoryOk s) : Canonical (execRingUnitTake s) := by
  unfold execRingUnitTake
  dsimp only
  split
  · exact .of h
  · split <;> exact .of h

theorem setChunkBit_sound {r : Run} {bitmap i : Nat} : Sound (setChunkBit r bitmap i) :=
  Sound.bind engineLeafIn_sound fun _ => Sound.upd fun _ hs => State.wf_markTagged (State.wf_tileWrite (State.wf_directRead hs))

theorem execCopySuspend_canonical {s : State} (h : memoryOk s) : Canonical (execCopySuspend s) := by
  unfold execCopySuspend
  dsimp only
  split
  · exact .of h
  · split <;> exact .of h

theorem execCpcancel_canonical {rd rs1 : Reg} {s : State} (h : memoryOk s) : Canonical (execCpcancel rd rs1 s) := by
  unfold execCpcancel
  dsimp only
  split
  · exact .of (State.wf_illegalAt h)
  · split
    · split <;> exact .of (State.wf_result h)
    · split
      · exact .of (State.wf_result h)
      · split
        · exact .of (State.wf_result h)
        · split
          · exact .of h
          · exact .of (State.wf_result (State.wf_cancelNow h))

theorem cpSpans_sound {k : CopyKind} {r : Run} {rd : Reader} {c : Cmd} (hrd : ∀ a n, Sound (rd a n)) : Sound (cpSpans k r rd c) := by
  have helems : ∀ h l, Sound (elemsSpan rd h l) := fun _ _ => elemsSpan_sound hrd
  have htensor : ∀ h, Sound (tensorSpan rd h) := fun _ => tensorSpan_sound hrd
  unfold cpSpans
  refine Sound.bind cpChecks_sound fun _ => ?_
  extract_lets hs hd box places src spans
  have hspans : ∀ ix, Sound (spans ix) := by
    intro ix
    unfold spans
    extract_lets writes
    have hwrites : ∀ rs, Sound (writes rs) := by
      intro rs
      unfold writes
      extract_lets both
      have hboth : ∀ ws, Sound (both ws) := fun _ => Sound.pure _
      split
      · exact Sound.ite (Sound.bind (Sound.pure _) hboth) (Sound.bind (htensor _) hboth)
      · exact Sound.bind (Sound.pure _) hboth
      · exact Sound.bind (helems _ _) hboth
    have hall : Sound (tensorSpan rd hs >>= writes) := Sound.bind (htensor _) hwrites
    have hnone : Sound (pure [] >>= writes) := Sound.bind (Sound.pure _) hwrites
    split
    · exact Sound.bind (helems _ _) hwrites
    · exact Sound.bind (helems _ _) hwrites
    · exact Sound.bind (helems _ _) hwrites
    · exact Sound.ite hnone hall
    · exact Sound.ite hnone hall
    · exact hnone
  exact Sound.ite (Sound.bind (helems _ _) hspans) (Sound.bind (Sound.pure _) hspans)

theorem awaitEarlier_sound {r : Run} : Sound (awaitEarlier r) :=
  Sound.bind Sound.get fun _ => Sound.need _ _

theorem execCbump_canonical {c : Cmd} {s : State} (h : memoryOk s) : Canonical (execCbump c s) :=
  runCommand_canonical h fun _ => Sound.bind checkReserved_sound fun _ => Sound.bind awaitEarlier_sound fun _ => Sound.pure _

theorem execCmark_canonical {c : Cmd} {s : State} (h : memoryOk s) : Canonical (execCmark c s) :=
  runCommand_canonical h fun _ => Sound.bind checkReserved_sound fun _ => Sound.bind awaitEarlier_sound fun _ =>
    Sound.bind begin_sound fun _ => Sound.bind fillWord_sound fun _ => Sound.pure _

theorem spansOf_sound {r : Run} {rd : Reader} (hrd : ∀ a n, Sound (rd a n)) : Sound (spansOf r rd) := by
  unfold spansOf
  dsimp only
  split
  · exact Sound.bind checkReserved_sound fun _ => Sound.bind formed_sound fun _ => Sound.pure _
  · exact fdSpans_sound hrd
  · exact fdSpans_sound hrd
  · exact fdSpans_sound hrd
  · exact fdSpans_sound hrd
  · exact srSpans_sound hrd
  · exact bkSpans_sound
  · exact bkSpans_sound
  · exact vSpans_sound hrd
  · exact vSpans_sound hrd
  · exact vSpans_sound hrd
  · exact vSpans_sound hrd
  · exact ldwSpans_sound hrd
  · exact gmulSpans_sound hrd
  · exact cpSpans_sound hrd
  · exact cpSpans_sound hrd
  · exact cpSpans_sound hrd
  · exact cpSpans_sound hrd
  · exact cpSpans_sound hrd
  · exact cpSpans_sound hrd
  · exact Sound.pure _

theorem State.wf_touchSpans {s : State} {r : Run} (h : memoryOk s) : memoryOk (s.touchSpans r) := by
  unfold State.touchSpans
  dsimp only
  split
  · exact h
  · split
    · rename_i hx1
      exact Sound.error (spansOf_sound fun _ _ => spanGet_sound) h hx1
    · rename_i hx1
      exact memoryOk_foldl (fun _ _ hs => State.wf_walkSpan hs) (Sound.ok (spansOf_sound fun _ _ => spanGet_sound) h hx1)

theorem pushWord_sound {h : HartId} {rd : Reg} {q : BitVec 2} {w : CmdBits} : Sound (pushWord h rd q w) :=
  Sound.bind Sound.get fun _ => Sound.bind (Sound.need _ _) fun _ => Sound.bind (Sound.need _ _) fun _ => Sound.upd fun _ hs =>
    State.wf_writeX (State.wf_modTc (State.wf_touchSpans hs))

theorem readTemplate_sound {h : HartId} {a : Word} {rs2 : Reg} : Sound (readTemplate h a rs2) :=
  Sound.bind (Sound.need _ _) fun _ => Sound.bind plainWords_sound fun _ => Sound.bind Sound.get fun _ => Sound.pure _

theorem State.wf_readPart {s : State} {h : HartId} {i : Instr} {n : Nat} (hs : memoryOk s) : memoryOk (s.readPart h i n) := by
  unfold State.readPart
  split
  · exact hs
  · split
    · exact hs
    · split
      · rename_i hx2
        exact Sound.ok recordWord_sound hs hx2
      · exact hs

theorem execQput_canonical {rd : Reg} {q : BitVec 2} {rs1 rs2 : Reg} {s : State} (h : memoryOk s) :
    Canonical (execQput rd q rs1 rs2 s) :=
  hartStep_canonical h (Sound.bind readTemplate_sound fun _ => Sound.bind (Sound.need _ _) fun _ => pushWord_sound)

theorem execQputResume_canonical {s : State} (h : memoryOk s) : Canonical (execQputResume s) := by
  unfold execQputResume
  split
  · exact hartStep_canonical h pushWord_sound
  · exact .of h

theorem State.wf_syncQueue {s : State} {h : HartId} {q : BitVec 2} (hs : memoryOk s) : memoryOk (s.syncQueue h q) := by
  unfold State.syncQueue
  dsimp only
  split <;> exact hs

theorem execQsync_canonical {q : BitVec 2} {s : State} (h : memoryOk s) : Canonical (execQsync q s) := by
  unfold execQsync
  dsimp only
  split
  · exact .of (State.wf_illegalAt h)
  · exact .of (State.wf_syncQueue h)

theorem execQsyncReturn_canonical {s : State} (h : memoryOk s) : Canonical (execQsyncReturn s) := by
  unfold execQsyncReturn
  split
  · exact .of (State.wf_syncQueue h)
  · exact .of h

theorem execCommandComplete_canonical {t : Nat} {q : BitVec 2} {seq : Nat} {s : State} (h : memoryOk s) :
    Canonical (execCommandComplete t q seq s) := by
  unfold execCommandComplete
  dsimp only
  split
  · exact .of h
  · split
    · exact .of h
    · split
      · exact .of h
      · refine .of ?_
        split
        · exact State.wf_leaseUsed h
        · exact h

theorem State.wf_recoverQueue {s : State} {h : HartId} {q : BitVec 2} {flush : Bool} (hs : memoryOk s) :
    memoryOk (s.recoverQueue h q flush) := by
  unfold State.recoverQueue
  dsimp only
  split
  · exact hs
  · refine State.wf_retire ?_
    split
    · split
      · exact State.wf_leaseUsed (State.wf_dropLeaseRequest hs)
      · exact State.wf_dropLeaseRequest hs
    · split
      · exact State.wf_leaseUsed hs
      · exact hs

theorem execQrecSkip_canonical {s : State} (h : memoryOk s) : Canonical (execQrecSkip s) := by
  unfold execQrecSkip
  split
  · exact .of (State.wf_recoverQueue h)
  · exact .of h

theorem execQrecFlush_canonical {s : State} (h : memoryOk s) : Canonical (execQrecFlush s) := by
  unfold execQrecFlush
  split
  · exact .of (State.wf_recoverQueue h)
  · exact .of h

theorem State.wf_freezeHart {s : State} {h : HartId} (hs : memoryOk s) : memoryOk (s.freezeHart h) := by
  unfold State.freezeHart
  split
  · split
    · exact hs
    · exact State.wf_modHart (State.wf_abandon hs)
  · exact hs
  · exact hs

theorem State.wf_restHart {s : State} {h : HartId} (hs : memoryOk s) : memoryOk (s.restHart h) := by
  unfold State.restHart
  split
  · exact State.wf_freezeHart hs
  · exact State.wf_modHart (State.wf_abandon hs)

theorem cpWrite_sound {k : CopyKind} {r : Run} {c : Cmd} {ns vs : List Nat} : Sound (cpWrite k r c ns vs) := by
  unfold cpWrite
  refine Sound.bind Sound.get fun _ => ?_
  dsimp only
  split
  · exact atomicAll_sound cpItems_sound
  · exact storeAll_sound cpItems_sound

theorem writeGathered_sound {k : CopyKind} {r : Run} {c : Cmd} : Sound (writeGathered k r c) :=
  Sound.bind Sound.get fun _ => cpWrite_sound

theorem remoteElement_sound {k : CopyKind} {r : Run} {c : Cmd} {n : Nat} : Sound (remoteElement k r c n) := by
  unfold remoteElement
  refine Sound.bind Sound.get fun s => ?_
  extract_lets h place
  have hplace : ∀ x, Sound (place x) := by
    intro x
    unfold place
    extract_lets serve
    have hserve : ∀ v, Sound (serve v) := by
      refine fun v => Sound.bind (elemAddr_sound fun _ _ => directGet_sound) fun _ => ?_
      split
      · exact Sound.ite (Sound.pure _) (Sound.ite keepGathered_sound countClip_sound)
      · split
        · exact refuseElement_sound
        · refine Sound.ite (Sound.pure _) (Sound.ite ?_ ?_)
          · refine Sound.bind (Sound.need _ _) fun _ => Sound.bind (Sound.upd fun _ hs => State.wf_deviceWalk hs) fun _ =>
              Sound.getBind fun u hu => ?_
            split
            · exact Sound.at refuseElement_sound hu
            · exact SoundAt.setBind (State.wf_memberElement hu ‹_›) (Sound.ite keepGathered_sound (Sound.pure _))
          · exact Sound.bind (Sound.need _ _) fun _ => Sound.bind (Sound.upd fun _ hs => State.wf_depart hs) fun _ => setProgress_sound
    exact Sound.ite (Sound.bind cpValue_sound hserve) (Sound.bind (Sound.pure _) hserve)
  exact Sound.ite (Sound.bind cpSrcCoords_sound hplace) (Sound.bind cpDstCoords_sound hplace)

theorem State.wf_spoilBytes {s : State} {r : Run} {d : DecState} {mismatch : Bool} {lo n : Nat} (h : memoryOk s) :
    memoryOk (s.spoilBytes r d mismatch lo n) := by
  induction n generalizing lo with
  | zero => exact h
  | succ n ih =>
    rw [State.spoilBytes]
    have hu : memoryOk (s.spoilBytes r d mismatch (lo + 1) n) := ih
    generalize s.spoilBytes r d mismatch (lo + 1) n = u at hu ⊢
    dsimp only
    split
    · exact hu
    · split
      · exact hu
      · split
        · exact hu
        · split
          · exact State.wf_tileWrite hu
          · split
            · exact hu
            · split
              · exact State.wf_tileWrite hu
              · exact hu

theorem State.wf_spoil {s : State} {r : Run} {code : Nat} (h : memoryOk s) : memoryOk (s.spoil r code) := by
  unfold State.spoil
  dsimp only
  split
  · split
    · exact State.wf_spoilBytes h
    · exact h
  · exact State.wf_scrambleCopy h

theorem copyStep_canonical {r : Run} {body : M Unit} {s : State} (h : memoryOk s) (hb : Sound body) : Canonical (copyStep r body s) := by
  unfold copyStep
  cases hr : body s with
  | ok a t => exact .of (hb.ok h hr)
  | error e t =>
    have ht := hb.error h hr
    cases e with
    | fault => exact .of (State.wf_modTc (State.wf_spoil ht))
    | hold => exact .of (State.wf_holdCommand (State.wf_keepFresh h))
    | _ => exact .of (State.wf_keepFresh h)

theorem guardCopy_sound {r : Run} {body : M Unit} (hb : Sound body) : Sound (guardCopy r body) := by
  refine ⟨fun s hs => ?_⟩
  unfold guardCopy
  cases hr : body s with
  | ok a t => exact hb.ok hs hr
  | error e t =>
    have ht := hb.error hs hr
    cases e with
    | fault => exact State.wf_spoil ht
    | _ => exact ht

theorem execCopyRemoteElement_canonical {m : RemoteReply} {s : State} (h : memoryOk s) : Canonical (execCopyRemoteElement m s) := by
  unfold execCopyRemoteElement
  refine Canonical.ite (.of h) ?_
  extract_lets u
  have hu : memoryOk u := State.wf_answered h
  split
  · exact .of hu
  · extract_lets r k done
    refine Canonical.ite (.of hu) (copyStep_canonical hu ?_)
    have hdone : ∀ x, Sound (done x) := fun _ => Sound.bind setProgress_sound fun _ => Sound.upd fun _ hs => State.wf_endCancel hs
    refine Sound.ite ?_ ?_
    · exact Sound.ite (Sound.bind keepGathered_sound hdone) (hdone ())
    · refine Sound.bind setProgress_sound fun _ => Sound.getBind fun v hv => ?_
      split
      · exact SoundAt.setBind (State.wf_modCtx hv) (hdone ())
      · exact Sound.at (hdone ()) hv

theorem cpChunk_sound {k : CopyKind} {r : Run} {c : Cmd} : Sound (cpChunk k r c) := by
  unfold cpChunk
  refine Sound.bind Sound.get fun _ => Sound.bind (Sound.need _ _) fun _ => Sound.bind Sound.get fun _ => ?_
  dsimp only
  split
  · exact Sound.forM fun _ => remoteElement_sound
  · split
    · refine Sound.forM fun _ => Sound.bind cpSrcCoords_sound fun _ => Sound.bind (elemAddr_sound fun _ _ => directGet_sound) fun _ => ?_
      split
      · exact Sound.pure _
      · exact Sound.bind directGet_sound fun _ => Sound.pure _
    · exact Sound.bind (Sound.mapM fun _ => cpValue_sound) fun _ => cpWrite_sound

theorem gatherWord_sound {k : CopyKind} {r : Run} {c : Cmd} : Sound (gatherWord k r c) :=
  Sound.bind (Sound.need _ _) fun _ => Sound.bind writeGathered_sound fun _ => endWord_sound

theorem copyBody_sound {k : CopyKind} {c : Cmd} {r : Run} : Sound (copyBody k c r) := by
  unfold copyBody
  dsimp only
  split
  · refine Sound.bind gatherWord_sound fun _ => Sound.bind cpReady_sound fun _ => ?_
    split
    · exact Sound.bind cpStart_sound fun _ => Sound.bind (guardCopy_sound cpChunk_sound) fun _ => Sound.bind endCopyWord_sound fun _ =>
        Sound.bind setProgress_sound fun _ => Sound.pure _
    · exact Sound.bind (guardCopy_sound cpChunk_sound) fun _ => Sound.bind endCopyWord_sound fun _ =>
        Sound.bind setProgress_sound fun _ => Sound.pure _
  · refine Sound.bind cpReady_sound fun _ => ?_
    split
    · exact Sound.bind cpStart_sound fun _ => Sound.bind (guardCopy_sound cpChunk_sound) fun _ => Sound.bind endCopyWord_sound fun _ =>
        Sound.bind setProgress_sound fun _ => Sound.pure _
    · exact Sound.bind (guardCopy_sound cpChunk_sound) fun _ => Sound.bind endCopyWord_sound fun _ =>
        Sound.bind setProgress_sound fun _ => Sound.pure _

theorem execDecoderWatchdog_canonical {s : State} (h : memoryOk s) : Canonical (execDecoderWatchdog s) := by
  unfold execDecoderWatchdog
  dsimp only
  split
  · exact .of h
  · split
    · exact copyStep_canonical h decFault_sound
    · exact .of h

theorem execCopyChunkComplete_canonical {s : State} (h : memoryOk s) : Canonical (execCopyChunkComplete s) := by
  unfold execCopyChunkComplete
  split
  · exact .of h
  · refine Canonical.ite (.of h) ?_
    extract_lets c k p q b next last given
    have hlast : ∀ x, Sound (last x) := fun _ =>
      Sound.bind setProgress_sound fun _ => Sound.ite (Sound.upd fun _ hs => hs) (Sound.pure _)
    have hgiven : ∀ x, Sound (given x) := fun _ => Sound.ite (Sound.bind (Sound.upd fun _ hs => hs) hlast) (hlast ())
    exact copyStep_canonical h (Sound.bind writeGathered_sound fun _ =>
      Sound.ite (Sound.ite (Sound.bind setChunkBit_sound hgiven) (hgiven ())) (hlast ()))

theorem readCode_sound {r : Run} {c : Cmd} {d : DecState} {fuel code l : Nat} : Sound (readCode r c d fuel code l) := by
  induction fuel generalizing code l with
  | zero => exact Sound.bind decFault_sound fun _ => Sound.pure _
  | succ fuel ih => exact Sound.bind bodyByte_sound fun _ => Sound.ite (Sound.pure _) ih

theorem nextSymbol_sound {r : Run} {c : Cmd} {d : DecState} : Sound (nextSymbol r c d) :=
  Sound.ite (Sound.bind readCode_sound fun _ => Sound.pure _) (Sound.bind bodyByte_sound fun _ => Sound.pure _)

/-- A check of the decoder that faults or goes on. -/
theorem decCheck_sound {α : Type} {p : Prop} [Decidable p] {r : Run} {c : Cmd} {code : Nat} {d : DecState} {k : Unit → M α}
    (hk : ∀ x, Sound (k x)) : Sound (if p then decFault r c code d >>= k else k ()) :=
  Sound.ite (Sound.bind decFault_sound hk) (hk ())

theorem decRun_sound {r : Run} {c : Cmd} {fuel : Nat} {d : DecState} : Sound (decRun r c fuel d) := by
  induction fuel generalizing d with
  | zero => exact Sound.pure _
  | succ fuel ih =>
    have hend : ∀ {d}, Sound (decEnd r c d >>= fun d => Pure.pure (d, false)) := Sound.bind decEnd_sound fun _ => Sound.pure _
    refine Sound.ite hend (Sound.bind nextSymbol_sound fun _ => decCheck_sound fun _ => Sound.ite (Sound.pure _) ?_)
    exact Sound.bind decWrite_sound fun _ => Sound.ite hend (Sound.ite (Sound.pure _) ih)

theorem decBody_sound {c : Cmd} {r : Run} : Sound (decBody c r) := by
  unfold decBody
  refine Sound.bind Sound.get fun s => Sound.bind (Sound.need _ _) fun _ => Sound.bind (Sound.need _ _) fun _ =>
    Sound.bind (Sound.need _ _) fun _ => ?_
  extract_lets d run decode
  have hrun : ∀ d, Sound (run d) := fun _ => Sound.bind decRun_sound fun _ => Sound.bind setProgress_sound fun _ =>
    Sound.ite (Sound.upd fun _ hs => State.wf_modTc hs) (Sound.pure _)
  have hdecode : ∀ x, Sound (decode x) := fun _ =>
    Sound.bind (guardCopy_sound (Sound.ite (Sound.bind (Sound.pure _) hrun) (Sound.bind decHeader_sound hrun))) fun _ =>
    Sound.bind (Sound.need _ _) fun _ => Sound.pure _
  exact Sound.ite (Sound.bind cpStart_sound hdecode) (hdecode ())

end Sys2Proof.Machine
end

section
/-! So do stages, kernels and links. -/

namespace Sys2Proof.Machine

open Sys2Proof.Claims

theorem State.wf_takeRequest {s : State} {n : Nat} (h : memoryOk s) : memoryOk (s.takeRequest n) :=
  h

theorem State.wf_pass {s : State} {n : Nat} (h : memoryOk s) : memoryOk (s.pass n) :=
  h

theorem State.wf_flip {s : State} {line sym : Nat} {b : BitVec 33} (h : memoryOk s) : memoryOk (s.flip line sym b) :=
  h

theorem State.wf_answer {s : State} {status : Nat} (h : memoryOk s) : memoryOk (s.answer status).1 :=
  h

theorem State.wf_touchVirt {s : State} {c va n : Nat} (h : memoryOk s) : memoryOk (s.touchVirt c va n) := by
  unfold State.touchVirt
  refine memoryOk_foldl (fun _ _ hs => ?_) h
  dsimp only
  split
  · exact State.wf_directRead (State.wf_deviceWalk hs)
  · exact State.wf_deviceWalk hs

theorem State.wf_copyItem {s : State} {c src dst a : Nat} (h : memoryOk s) : memoryOk (s.copyItem c src dst a) := by
  unfold State.copyItem
  dsimp only
  split
  · exact h
  · refine State.wf_copyItem ?_
    split
    · exact State.wf_homeWrite (State.wf_directRead (State.wf_deviceWalk (State.wf_deviceWalk h)))
    · exact State.wf_deviceWalk (State.wf_deviceWalk h)

theorem State.wf_refill {s : State} {c j a : Nat} (h : memoryOk s) : memoryOk (s.refill c j a) := by
  unfold State.refill
  dsimp only
  split
  · exact h
  · split
    · exact h
    · split
      · exact h
      · split
        · exact h
        · exact State.wf_refill (State.wf_modCtx (State.wf_copyItem h))

theorem State.wf_tend {s : State} {c j : Nat} (h : memoryOk s) : memoryOk (s.tend c j) := by
  unfold State.tend
  dsimp only
  split
  · exact h
  · exact State.wf_refill h

theorem State.wf_discardAll {s : State} {t : Nat} (h : memoryOk s) : memoryOk (s.discardAll t) := h

theorem State.wf_take {s : State} {h : HartId} {rd : Reg} (hs : memoryOk s) : memoryOk (s.take h rd) := by
  unfold State.take
  extract_lets c ct u
  have hu : memoryOk u := by
    unfold u
    split
    · exact State.wf_tend hs
    · exact hs
  split
  · exact State.wf_result hu
  · split
    · exact State.wf_setWait (State.wf_modCtx hu)
    · exact State.wf_result (State.wf_modCtx hu)
    · exact State.wf_result (State.wf_discardAll (State.wf_modCtx hu))

theorem execStgTake_canonical {rd : Reg} {s : State} (h : memoryOk s) : Canonical (execStgTake rd s) := by
  unfold execStgTake
  split
  · exact .of (State.wf_illegalAt h)
  · exact .of (State.wf_take h)

theorem execStgTakeServed_canonical {s : State} (h : memoryOk s) : Canonical (execStgTakeServed s) := by
  unfold execStgTakeServed
  split
  · exact .of (State.wf_take h)
  · exact .of h

theorem State.wf_earlyRead {s : State} {seq va : Nat} (h : memoryOk s) : memoryOk (s.earlyRead seq va) := by
  unfold State.earlyRead
  extract_lets t q
  split
  · exact h
  · refine memoryOk_ite h ?_
    split
    · exact (Sound.ite cachedGet_sound directGet_sound).ok h ‹_›
    · exact State.wf_keepFresh h

theorem State.wf_retireChunks {s : State} {t : Nat} {p : Chunk → Bool} (h : memoryOk s) : memoryOk (s.retireChunks t p) :=
  memoryOk_foldl (fun _ _ hs => State.wf_tend hs) h

theorem execStgDone_canonical {rs1 : Reg} {s : State} (h : memoryOk s) : Canonical (execStgDone rs1 s) := by
  unfold execStgDone
  dsimp only
  split
  · exact .of (State.wf_illegalAt h)
  · refine .of (State.wf_retire ?_)
    split
    · exact h
    · split
      · exact State.wf_retireChunks h
      · exact h

theorem State.wf_putItem {s : State} {t c a : Nat} {l : List Word} (h : memoryOk s) : memoryOk (s.putItem t c a l) := by
  unfold State.putItem
  dsimp only
  split
  · exact h
  · refine State.wf_putItem ?_
    split
    · exact State.wf_tileWrite (State.wf_deviceWalk h)
    · exact State.wf_deviceWalk h

theorem State.wf_placeItems {s : State} {t c j : Nat} {q : StageQueue} {items : List Word} {p : Nat × Nat × Nat} (h : memoryOk s) :
    memoryOk (s.placeItems t c j q items p) :=
  State.wf_modCtx (memoryOk_foldl (fun _ _ hs => State.wf_putItem hs) h)

theorem spawnItems_sound {h : HartId} {rd : Reg} {j n : Nat} {items : List Word} : Sound (spawnItems h rd j n items) := by
  unfold spawnItems
  refine Sound.bind (Sound.upd fun _ hs => State.wf_tend hs) fun _ => Sound.bind Sound.get fun _ => ?_
  dsimp only
  split
  · split
    · exact Sound.bind (Sound.need _ _) fun _ => Sound.upd fun _ hs => State.wf_writeX (State.wf_placeItems hs)
    · exact Sound.throw _
  · exact illegal_sound

theorem execSpawn_canonical {rd rs1 rs2 : Reg} {s : State} (h : memoryOk s) : Canonical (execSpawn rd rs1 rs2 s) := by
  unfold execSpawn
  refine hartStep_canonical h ?_
  dsimp only
  split
  · split
    · refine Sound.bind illegal_sound fun _ => Sound.bind (Sound.need _ _) fun _ => Sound.bind plainWords_sound fun _ => ?_
      split
      · exact Sound.upd fun _ hs => hs
      · exact spawnItems_sound
    · refine Sound.bind (Sound.need _ _) fun _ => Sound.bind plainWords_sound fun _ => ?_
      split
      · exact Sound.upd fun _ hs => hs
      · exact spawnItems_sound
  · exact illegal_sound

theorem execSpawnPlaced_canonical {s : State} (h : memoryOk s) : Canonical (execSpawnPlaced s) := by
  unfold execSpawnPlaced
  split
  · exact hartStep_canonical h spawnItems_sound
  · exact .of h

theorem State.wf_bindTile {s : State} {c ct i : Nat} (h : memoryOk s) : memoryOk (s.bindTile c ct i) := by
  unfold State.bindTile
  dsimp only
  split
  · split
    · exact h
    · exact State.wf_modCtx (State.wf_ungate h)
  · exact h

theorem execKexit_canonical {s : State} (h : memoryOk s) : Canonical (execKexit s) := by
  unfold execKexit
  extract_lets g c ct u v
  have hu : memoryOk u := memoryOk_ite h (State.wf_endLease (State.wf_retireChunks h))
  have hv : memoryOk v := State.wf_modHart (State.wf_retire hu)
  refine Canonical.ite (.of h) ?_
  split
  · exact .of hv
  · exact .of (memoryOk_ite (State.wf_later (State.wf_modCtx hv)) (State.wf_modCtx hv))

theorem execKexitRelease_canonical {t : Nat} {s : State} (h : memoryOk s) : Canonical (execKexitRelease t s) := by
  unfold execKexitRelease
  dsimp only
  split
  · split
    · exact .of h
    · split
      · exact .of (State.wf_bindTile h)
      · exact .of h
  · exact .of h

theorem State.wf_setDrained {s : State} {c : Nat} {b : Bool} (h : memoryOk s) : memoryOk (s.setDrained c b) :=
  memoryOk_foldl (fun _ _ hs => hs) h

theorem State.wf_toResident {s : State} {c : Nat} (h : memoryOk s) : memoryOk (s.toResident c) :=
  State.wf_modCtx (State.wf_setDrained h)

theorem execKernelRetire_canonical {c : Nat} {s : State} (h : memoryOk s) : Canonical (execKernelRetire c s) := by
  unfold execKernelRetire
  dsimp only
  split
  · exact .of h
  · split
    · exact .of h
    · split
      · exact .of h
      · refine .of ?_
        split
        · refine State.wf_toResident (State.wf_modCtx (memoryOk_foldl (fun _ _ hs => ?_) h))
          split <;> exact hs
        · refine State.wf_later (State.wf_modCtx (memoryOk_foldl (fun _ _ hs => ?_) h))
          split <;> exact hs

theorem State.wf_touchLaunch {s : State} {c a : Nat} (h : memoryOk s) : memoryOk (s.touchLaunch c a) := by
  unfold State.touchLaunch
  dsimp only
  split
  · exact h
  · split
    · exact State.wf_touchVirt h
    · exact State.wf_touchVirt (State.wf_touchVirt (State.wf_touchVirt h))

theorem State.wf_takeRecord {s : State} {c : Nat} (h : memoryOk s) : memoryOk (s.takeRecord c) := by
  unfold State.takeRecord
  dsimp only
  split
  · exact h
  · exact State.wf_modCtx (memoryOk_foldl (fun _ _ hs => hs) h)

theorem State.wf_seedTiles {s : State} {c : Nat} (h : memoryOk s) : memoryOk (s.seedTiles c) := by
  unfold State.seedTiles
  dsimp only
  split
  · exact h
  · exact State.wf_modCtx (memoryOk_foldl (fun _ _ hs => hs) h)

theorem execLaunch_canonical {r : Request} {s : State} (h : memoryOk s) : Canonical (execLaunch r s) := by
  unfold execLaunch
  refine runOnContext_canonical h fun _ s hs => ?_
  extract_lets u x busy v w
  have hu : memoryOk u := State.wf_takeRecord hs
  have hv : memoryOk v := State.wf_touchLaunch hu
  have hw : memoryOk w := memoryOk_ite (State.wf_setDrained hv) hv
  refine memoryOk_answerIte (State.wf_answer hu) ?_
  split
  · exact hv
  · extract_lets d y z
    have hz : memoryOk z := State.wf_seedTiles (State.wf_modCtx hw)
    exact State.wf_answer (memoryOk_ite hz (State.wf_later hz))

theorem execKernelLoad_canonical {c : Nat} {s : State} (h : memoryOk s) : Canonical (execKernelLoad c s) := by
  unfold execKernelLoad
  dsimp only
  split
  · exact .of h
  · split <;> exact .of h

theorem State.wf_giveTiles {s : State} {c : Nat} {tiles old : List Nat} (h : memoryOk s) : memoryOk (s.giveTiles c tiles old).1 := by
  unfold State.giveTiles
  dsimp only
  split
  · exact h
  · split
    · exact h
    · split
      · exact State.wf_giveTiles (State.wf_bindTile h)
      · exact h

theorem execStageSchedulerEpoch_canonical {c : Nat} {s : State} (h : memoryOk s) : Canonical (execStageSchedulerEpoch c s) := by
  unfold execStageSchedulerEpoch
  dsimp only
  split
  · exact .of h
  · split
    · exact .of h
    · exact .of (State.wf_modCtx (State.wf_giveTiles h))

theorem execCloseQueue_canonical {r : Request} {s : State} (h : memoryOk s) : Canonical (execCloseQueue r s) := by
  unfold execCloseQueue
  refine runOnContext_canonical h fun _ _ hs => ?_
  dsimp only
  split
  · exact hs
  · split
    · exact hs
    · split <;> exact hs

theorem State.wf_losePacket {s : State} {p : Packet} (h : memoryOk s) : memoryOk (s.losePacket p) := by
  unfold State.losePacket
  dsimp only
  split
  · split <;> exact h
  · split
    · exact h
    · split
      · exact h
      · split <;> exact h
      · split
        · exact h
        · split <;> exact h

theorem State.wf_redepart {s : State} {d : Departure} (h : memoryOk s) : memoryOk (s.redepart d) :=
  State.wf_depart h

theorem State.wf_dropAt {s : State} {l : Link} (h : memoryOk s) : memoryOk (s.dropAt l) :=
  h

theorem State.wf_caught {s : State} {q : Nat} {d : Departure} (h : memoryOk s) : memoryOk (s.caught q d) := by
  unfold State.caught
  split
  · exact State.wf_redepart h
  · exact State.wf_loseSent h

theorem State.wf_loseElements {s : State} {q : Nat} (h : memoryOk s) : memoryOk (s.loseElements q) :=
  memoryOk_foldl (fun _ _ hs => State.wf_loseSent hs) h

theorem State.wf_sendWaiting {s : State} (h : memoryOk s) : memoryOk (s.sendWaiting) :=
  memoryOk_foldl (fun _ _ hs => State.wf_redepart hs) h

theorem State.wf_failPort {s : State} {q : Nat} (h : memoryOk s) : memoryOk (s.failPort q) :=
  State.wf_sendWaiting (memoryOk_foldl (fun _ _ hs => State.wf_caught hs) h)

theorem execJecenLaneRestored_canonical {port : Nat} {s : State} (h : memoryOk s) : Canonical (execJecenLaneRestored port s) := by
  unfold execJecenLaneRestored
  refine .of ?_
  split <;> exact h

theorem execLinkDrainComplete_canonical {l : Link} {s : State} (h : memoryOk s) : Canonical (execLinkDrainComplete l s) := by
  unfold execLinkDrainComplete
  refine .of ?_
  split <;> exact h

theorem State.wf_retireFailed {s : State} (h : memoryOk s) : memoryOk (s.retireFailed) :=
  h

theorem State.wf_hostWords {s : State} {a : Nat} {l : List Nat} (h : memoryOk s) : memoryOk (s.hostWords a l) := by
  induction l generalizing s a with
  | nil => exact h
  | cons v l ih =>
    rw [State.hostWords.eq_def]
    exact ih (State.wf_rawWrite h)

theorem State.wf_walkPages {s : State} {c va n k : Nat} (h : memoryOk s) : memoryOk (s.walkPages c va n k) := by
  induction k generalizing s va n with
  | zero => exact h
  | succ k ih =>
    rw [State.walkPages]
    split
    · exact h
    · exact ih (State.wf_deviceWalk h)

theorem State.wf_walkKernel {s : State} {c : Nat} {k : Kernel} (h : memoryOk s) : memoryOk (s.walkKernel c k) :=
  memoryOk_foldl (fun _ _ hs => State.wf_walkPages hs) h

theorem State.wf_replaceElevator {s : State} {e : Nat} (h : memoryOk s) : memoryOk (s.replaceElevator e) := by
  unfold State.replaceElevator
  split
  · exact h
  · exact memoryOk_foldl (fun _ _ hs => hs) h

theorem State.wf_failLink {s : State} {l : Link} (h : memoryOk s) : memoryOk (s.failLink l) := by
  have hin : ∀ {x : LinkRec} {ps : List Packet}, memoryOk (ps.foldl (fun (s : State) p =>
      (if protectedPacket p then s else s.dropAt l).losePacket p) (s.setLink l x)) := by
    refine memoryOk_foldl (fun u p hu => State.wf_losePacket ?_) h
    split
    · exact hu
    · exact State.wf_dropAt hu
  unfold State.failLink
  extract_lets x u v w
  have hw : memoryOk w := by
    unfold w
    split
    · exact State.wf_failPort hin
    · exact State.wf_replaceElevator hin
    · exact hin
  exact hw

theorem State.wf_routePacket {s : State} {p : Packet} (h : memoryOk s) : memoryOk (s.routePacket p) :=
  memoryOk_of_mem h (State.routePacket_mem s p)

theorem execKernelLoadComplete_canonical {c : Nat} {s : State} (h : memoryOk s) : Canonical (execKernelLoadComplete c s) := by
  unfold execKernelLoadComplete
  dsimp only
  split
  · exact .of h
  · split
    · exact .of h
    · split
      · refine .of ?_
        split
        · exact State.wf_toResident (State.wf_modCtx (State.wf_walkKernel h))
        · exact State.wf_later (State.wf_modCtx (State.wf_walkKernel h))
      · refine .of (memoryOk_foldl (fun _ _ hs => State.wf_bindTile hs) (State.wf_modCtx (memoryOk_foldl (fun _ _ hs => hs) ?_)))
        split
        · exact State.wf_modCtx (State.wf_touchVirt (State.wf_walkKernel h))
        · exact State.wf_touchVirt (State.wf_walkKernel h)

theorem execPacketArrival_canonical {p : Packet} {s : State} (h : memoryOk s) : Canonical (execPacketArrival p s) := by
  unfold execPacketArrival
  refine .of ?_
  split
  · exact State.wf_routePacket h
  · exact h

theorem execFlitCrcFail_canonical {f : Flit} {s : State} (h : memoryOk s) : Canonical (execFlitCrcFail f s) := by
  unfold execFlitCrcFail
  dsimp only
  split
  · exact .of h
  · split
    · exact .of (State.wf_failLink h)
    · split <;> exact .of h

theorem execJecenLaneLost_canonical {port : Nat} {s : State} (h : memoryOk s) : Canonical (execJecenLaneLost port s) := by
  unfold execJecenLaneLost
  dsimp only
  split
  · exact .of h
  · split
    · exact .of (State.wf_failLink h)
    · split
      · exact .of (State.wf_loseElements h)
      · exact .of h

theorem State.wf_trainEnd {s : State} {l : Link} {lanes : Nat} (h : memoryOk s) : memoryOk (s.trainEnd l lanes) := by
  unfold State.trainEnd
  dsimp only
  split
  · exact h
  · split
    · split
      · exact State.wf_failLink h
      · exact h
    · exact h

theorem State.wf_drainLink {s : State} {l : Link} (h : memoryOk s) : memoryOk (s.drainLink l) := by
  unfold State.drainLink
  dsimp only
  split
  · exact State.wf_replaceElevator h
  · split
    · exact State.wf_loseElements h
    · exact h
  · exact h

theorem State.wf_manage {s : State} {l : Link} {act : Nat} (h : memoryOk s) : memoryOk (s.manage l act) := by
  unfold State.manage
  split
  · exact h
  · split
    · exact h
    · exact State.wf_drainLink h
    · exact h

theorem execLinkDrainTimeout_canonical {l : Link} {s : State} (h : memoryOk s) : Canonical (execLinkDrainTimeout l s) := by
  unfold execLinkDrainTimeout
  refine .of ?_
  split
  · exact State.wf_failLink h
  · exact h

theorem State.wf_setRoute {s : State} {node dest : Nat} {l : Link} (h : memoryOk s) : memoryOk (s.setRoute node dest l) := by
  unfold State.setRoute
  dsimp only
  split
  · exact State.wf_drainLink h
  · exact h

theorem execRouteTableUpdate_canonical {node dest : Nat} {via : List Link} {s : State} (h : memoryOk s) :
    Canonical (execRouteTableUpdate node dest via s) := by
  unfold execRouteTableUpdate
  dsimp only
  split
  · split
    · split
      · exact .of h
      · exact .of (State.wf_retireFailed (State.wf_sendWaiting h))
    · exact .of h
  · split
    · split
      · exact .of h
      · split
        · split <;> exact .of h
        · split
          · exact .of (State.wf_retireFailed (State.wf_setRoute h))
          · exact .of h
    · exact .of h

end Sys2Proof.Machine
end

section
/-! So do the requests on contexts: creation, preemption, saving, restoring and teardown. -/

namespace Sys2Proof.Machine

open Sys2Proof.Claims

theorem linkRequest_canonical {r : Request} {act : Nat} {s : State} (h : memoryOk s) : Canonical (linkRequest r act s) := by
  unfold linkRequest
  refine runRequest_canonical h fun _ _ hs => ?_
  split
  · exact hs
  · split
    · exact hs
    · split
      · exact State.wf_answer (State.wf_manage hs)
      · exact hs

theorem execCreate_canonical {r : Request} {s : State} (h : memoryOk s) : Canonical (execCreate r s) := by
  unfold execCreate
  refine runRequest_canonical h fun _ _ hs => ?_
  split <;> exact hs

theorem execCommit_canonical {r : Request} {s : State} (h : memoryOk s) : Canonical (execCommit r s) := by
  unfold execCommit
  dsimp only
  split
  · exact .of h
  · refine runOnContext_canonical h fun _ _ hs => ?_
    split
    · exact hs
    · split
      · exact hs
      · split
        · exact hs
        · exact State.wf_answer (memoryOk_foldl (fun _ _ hs1 => hs1) (memoryOk_foldl (fun _ _ hs1 => hs1) hs))

theorem State.wf_freezeLease {s : State} {t : Nat} (h : memoryOk s) : memoryOk (s.freezeLease t) := by
  unfold State.freezeLease
  split
  · exact h
  · exact State.wf_dropLeaseRequest h

theorem State.wf_startPreempt {s : State} {c : Nat} (h : memoryOk s) : memoryOk (s.startPreempt c) :=
  State.wf_later (State.wf_modCtx (memoryOk_foldl (fun _ _ hs =>
    State.wf_ungate (State.wf_freezeLease (State.wf_freezeHart (State.wf_freezeHart hs)))) h))

theorem State.wf_setYield {s : State} {c : Nat} {b : Bool} (h : memoryOk s) : memoryOk (s.setYield c b) :=
  memoryOk_foldl (fun _ _ hs => hs) h

theorem execPreemptSoft_canonical {r : Request} {s : State} (h : memoryOk s) : Canonical (execPreemptSoft r s) := by
  unfold execPreemptSoft
  exact runOnContext_canonical h fun _ _ hs => State.wf_modCtx (State.wf_setYield hs)

theorem execPreemptHard_canonical {r : Request} {s : State} (h : memoryOk s) : Canonical (execPreemptHard r s) := by
  unfold execPreemptHard
  refine runOnContext_canonical h fun _ _ hs => ?_
  dsimp only
  split
  · exact hs
  · exact State.wf_startPreempt hs

theorem execCtxYield_canonical {s : State} (h : memoryOk s) : Canonical (execCtxYield s) := by
  unfold execCtxYield
  refine .of ?_
  split
  · exact State.wf_startPreempt h
  · exact h

theorem execSoftPreemptGraceExpiry_canonical {c : Nat} {s : State} (h : memoryOk s) : Canonical (execSoftPreemptGraceExpiry c s) := by
  unfold execSoftPreemptGraceExpiry
  dsimp only
  split
  · exact .of h
  · refine .of ?_
    split
    · exact State.wf_startPreempt h
    · exact h

theorem State.wf_lostSaveFault {s : State} {c : Nat} (h : memoryOk s) : memoryOk (s.lostSaveFault c) :=
  State.wf_contextFault h

theorem State.wf_restHarts {s : State} {c : Nat} (h : memoryOk s) : memoryOk (s.restHarts c) :=
  memoryOk_foldl (fun _ _ hs => State.wf_restHart (State.wf_restHart hs)) h

theorem execSaveComplete_canonical {c : Nat} {s : State} (h : memoryOk s) : Canonical (execSaveComplete c s) := by
  unfold execSaveComplete
  dsimp only
  split
  · exact .of h
  · split
    · split
      · exact .of (State.wf_later (State.wf_restHarts h))
      · split
        · exact .of (State.wf_lostSaveFault (State.wf_restHarts h))
        · exact .of (State.wf_completeAll (State.wf_modCtx (memoryOk_foldl (fun _ _ hs => hs) (memoryOk_foldl (fun _ _ hs =>
            hs) (State.wf_restHarts h)))))
    · split
      · exact .of h
      · split
        · exact .of (State.wf_lostSaveFault h)
        · exact .of (State.wf_completeAll (State.wf_modCtx (memoryOk_foldl (fun _ _ hs => hs) (memoryOk_foldl (fun _ _ hs => hs) h))))

theorem State.wf_savedTile {s : State} {c ct : Nat} (h : memoryOk s) : memoryOk (s.savedTile c ct).2 := by
  unfold State.savedTile
  dsimp only
  split <;> exact h

theorem State.wf_restoreTile {s : State} {c ct t : Nat} (h : memoryOk s) : memoryOk (s.restoreTile c ct t) :=
  State.wf_setTile (State.wf_savedTile h)

theorem State.wf_restoreAnvil {s : State} {k : Nat} {a : Anvil} (h : memoryOk s) : memoryOk (s.restoreAnvil k a) :=
  memoryOk_foldl (fun _ _ hs => hs) h

theorem State.wf_dropSaved {s : State} {c : Nat} (h : memoryOk s) : memoryOk (s.dropSaved c) :=
  h

theorem State.wf_restoreContext {s : State} {c : Nat} {l : List Nat} (h : memoryOk s) : memoryOk (s.restoreContext c l) := by
  unfold State.restoreContext
  dsimp only
  split
  · exact State.wf_lostSaveFault (State.wf_dropSaved (State.wf_modCtx (memoryOk_foldl (fun _ _ hs =>
      State.wf_restoreAnvil hs) (memoryOk_foldl (fun _ _ hs => State.wf_restoreTile hs) h))))
  · split
    · exact State.wf_later (State.wf_later (State.wf_later (memoryOk_foldl (fun _ _ hs =>
        hs) (State.wf_dropSaved (State.wf_modCtx (memoryOk_foldl (fun _ _ hs => State.wf_restoreAnvil hs) (memoryOk_foldl (fun _ _ hs =>
        State.wf_restoreTile hs) h)))))))
    · exact memoryOk_foldl (fun _ _ hs => hs) (State.wf_dropSaved (State.wf_modCtx (memoryOk_foldl (fun _ _ hs =>
        State.wf_restoreAnvil hs) (memoryOk_foldl (fun _ _ hs => State.wf_restoreTile hs) h))))

theorem State.wf_startRestore {s : State} {c n : Nat} {r : Request} (h : memoryOk s) : memoryOk (s.startRestore c n r).1 := by
  unfold State.startRestore
  split
  · exact h
  · split
    · exact h
    · split <;> exact h

theorem execRestore_canonical {r : Request} {s : State} (h : memoryOk s) : Canonical (execRestore r s) := by
  unfold execRestore
  dsimp only
  split
  · exact runOnContext_canonical h fun _ _ hs => State.wf_startRestore hs
  · split
    · exact .of h
    · exact .of (State.wf_complete (State.wf_modCtx (State.wf_restoreContext h)))

theorem State.wf_endRestore {s : State} {c : Nat} (h : memoryOk s) : memoryOk (s.endRestore c) := by
  unfold State.endRestore
  dsimp only
  split
  · exact h
  · exact State.wf_complete h

theorem execDeclareFault_canonical {r : Request} {s : State} (h : memoryOk s) : Canonical (execDeclareFault r s) := by
  unfold execDeclareFault
  exact runOnContext_canonical h fun _ _ hs => State.wf_answer (State.wf_contextFault hs)

theorem State.wf_freeClusters {s : State} {c : Nat} (h : memoryOk s) : memoryOk (s.freeClusters c) :=
  State.wf_modCtx (memoryOk_foldl (fun _ _ hs => hs) (memoryOk_foldl (fun _ _ hs => hs) h))

theorem State.wf_freeQuiet {s : State} {c : Nat} (h : memoryOk s) : memoryOk (s.freeQuiet c) := by
  unfold State.freeQuiet
  split
  · exact State.wf_freeClusters h
  · exact h

theorem execWriteRecord_canonical {r : Request} {s : State} (h : memoryOk s) : Canonical (execWriteRecord r s) := by
  unfold execWriteRecord
  refine runOnContext_canonical h fun _ u hu => ?_
  split
  · exact State.wf_answer hu
  · split
    · exact State.wf_answer hu
    · exact State.wf_answer (State.wf_modCtx hu)

theorem State.wf_fillSaveArea {s : State} {c draw ct : Nat} (h : memoryOk s) : memoryOk (s.fillSaveArea c draw ct) := by
  unfold State.fillSaveArea
  extract_lets a
  split
  · exact h
  · exact memoryOk_foldl (fun _ _ hs => State.wf_homeWrite hs) h

theorem execSaveOut_canonical {r : Request} {s : State} (h : memoryOk s) : Canonical (execSaveOut r s) := by
  unfold execSaveOut
  refine runOnContext_canonical h fun _ u hu => ?_
  exact memoryOk_foldl (f := fun (u : State) (p : Nat × _) => u.fillSaveArea _ _ p.1) (fun _ _ hs => State.wf_fillSaveArea hs) hu

theorem State.wf_tearDown {s : State} {c : Nat} (h : memoryOk s) : memoryOk (s.tearDown c) := by
  unfold State.tearDown
  extract_lets x u v w waiting y
  have hu : memoryOk u := by
    unfold u
    split
    · exact State.wf_stopWork h
    · exact h
  have hv : memoryOk v := State.wf_dropSaved hu
  have hw : memoryOk w := memoryOk_foldl (f := fun (s : State) t => s.modTc t TileCtx.drainQueues) (fun _ _ hs => hs) hv
  exact State.wf_completeAll (State.wf_freeQuiet (State.wf_modCtx hw))

theorem execTeardown_canonical {r : Request} {s : State} (h : memoryOk s) : Canonical (execTeardown r s) := by
  unfold execTeardown
  refine runOnContext_canonical h fun _ u hu => ?_
  exact State.wf_later (State.wf_modCtx (State.wf_tearDown (State.wf_endRestore hu)))

theorem execReleaseComplete_canonical {c : Nat} {s : State} (h : memoryOk s) : Canonical (execReleaseComplete c s) := by
  unfold execReleaseComplete
  have hq : memoryOk ((s.restHarts c).freeQuiet c) := State.wf_freeQuiet (State.wf_restHarts h)
  refine Canonical.ite (.of h) (Canonical.ite (.of hq) (.of ?_))
  exact State.wf_completeAll (State.wf_completeAll (State.wf_modCtx (State.wf_zeroUnits
    (memoryOk_foldl (fun _ _ hs => State.wf_readTables hs) hq))))

end Sys2Proof.Machine
end

section
/-! So do pages, installs and the device. -/

namespace Sys2Proof.Machine

open Sys2Proof.Claims

theorem State.wf_invalidateRange {s : State} {c va n : Nat} (h : memoryOk s) : memoryOk (s.invalidateRange c va n) :=
  memoryOk_foldl (fun _ _ hs => hs) h

theorem execInvalidate_canonical {r : Request} {s : State} (h : memoryOk s) : Canonical (execInvalidate r s) := by
  unfold execInvalidate
  refine runOnContext_canonical h fun _ _ hs => ?_
  dsimp only
  split
  · exact hs
  · exact State.wf_answer (State.wf_invalidateRange hs)

theorem State.wf_addMove {s : State} {c : Nat} {m : PageMove} (h : memoryOk s) : memoryOk (s.addMove c m) :=
  h

theorem execMovePage_canonical {r : Request} {s : State} (h : memoryOk s) : Canonical (execMovePage r s) := by
  unfold execMovePage
  refine runOnContext_canonical h fun _ _ hs => ?_
  dsimp only
  split
  · exact State.wf_answer (State.wf_deviceWalk hs)
  · split
    · exact State.wf_answer (State.wf_deviceWalk hs)
    · split
      · exact State.wf_answer (State.wf_deviceWalk hs)
      · split
        · exact State.wf_answer (State.wf_deviceWalk hs)
        · split
          · split
            · exact State.wf_answer (State.wf_deviceWalk hs)
            · split
              · exact State.wf_answer (State.wf_deviceWalk hs)
              · split
                · exact State.wf_answer (State.wf_deviceWalk hs)
                · exact State.wf_addMove (State.wf_deviceWalk hs)
          · split
            · exact State.wf_answer (State.wf_deviceWalk hs)
            · exact State.wf_addMove (State.wf_deviceWalk hs)

theorem State.wf_endMove {s : State} {c : Nat} {m : PageMove} {status : Nat} (h : memoryOk s) : memoryOk (s.endMove c m status) := by
  unfold State.endMove
  refine State.wf_completeAll ?_
  split
  · exact h
  · exact State.wf_setTlerrAll h

theorem execMoveStart_canonical {c : Nat} {s : State} (h : memoryOk s) : Canonical (execMoveStart c s) := by
  unfold execMoveStart
  dsimp only
  split
  · exact .of h
  · split
    · exact .of (State.wf_later (State.wf_modCtx (memoryOk_foldl (fun _ _ hs => State.wf_deviceWalk hs) h)))
    · exact .of h

theorem execMovePinWaitTimeout_canonical {c : Nat} {s : State} (h : memoryOk s) : Canonical (execMovePinWaitTimeout c s) := by
  unfold execMovePinWaitTimeout
  dsimp only
  split
  · exact .of h
  · exact .of (State.wf_endMove h)

theorem State.wf_lostCommit {s : State} {c : Nat} (h : memoryOk s) : memoryOk (s.lostCommit c) := by
  unfold State.lostCommit
  split
  · exact h
  · exact State.wf_endMove h

theorem State.wf_setFulls {s : State} {pa n : Nat} {l : SMap Bool} (h : memoryOk s) : memoryOk (s.setFulls pa n l) :=
  h

theorem State.wf_readFrames {s : State} {c : Nat} {l : List Shift} (h : memoryOk s) : memoryOk (s.readFrames c l) := by
  unfold State.readFrames
  refine memoryOk_foldl (fun _ _ hs => ?_) h
  split
  · exact State.wf_touchRange hs
  · exact hs

theorem State.wf_wroteFrame {s : State} {l : List Shift} {pa n : Nat} (h : memoryOk s) : memoryOk (s.wroteFrame l pa n) :=
  memoryOk_foldl (fun _ _ hs => State.wf_homeScan (State.wf_fireWatches hs)) h

theorem State.wf_copyFrames {s : State} {c : Nat} {l : List Shift} (h : memoryOk s) : memoryOk (s.copyFrames c l) := by
  unfold State.copyFrames
  refine memoryOk_foldl (fun _ _ hs => ?_) h
  dsimp only
  split
  · exact hs
  · split
    · exact hs
    · split
      · exact State.wf_wroteFrame (State.wf_setFulls (memoryOk_of_mem (State.wf_setCells (State.wf_touchRange hs)) rfl))
      · exact State.wf_setCells (State.wf_touchRange hs)

theorem State.wf_moveWatches {s : State} {l : List Shift} (h : memoryOk s) : memoryOk (s.moveWatches l) := by
  unfold State.moveWatches
  refine memoryOk_foldl (fun _ _ hs => ?_) h
  split
  · exact hs
  · exact State.wf_ungate hs

theorem State.wf_moveHeld {s : State} {l : List Shift} (h : memoryOk s) : memoryOk (s.moveHeld l) :=
  memoryOk_foldl (fun _ _ hs => State.wf_takeTrap hs) h

theorem State.wf_moveWaits {s : State} {l : List Shift} (h : memoryOk s) : memoryOk (s.moveWaits l) :=
  h

theorem State.wf_moveTagged {s : State} {c : Nat} {l : List Shift} (h : memoryOk s) : memoryOk (s.moveTagged c l) :=
  h

theorem State.wf_commitEntry {s : State} {p : Nat × Nat × Option Nat × Nat} {old : List Nat × Word} (h : memoryOk s) :
    memoryOk (s.commitEntry p old) := by
  unfold State.commitEntry
  refine memoryOk_foldl (fun _ _ hs => ?_) h
  dsimp only
  split
  · exact State.wf_homeWrite hs
  · split
    · exact State.wf_homeWrite hs
    · exact hs

theorem State.wf_pool {s : State} {c pa : Nat} (h : memoryOk s) : memoryOk (s.pool c pa).1 :=
  memoryOk_foldl_fst (fun _ _ hs => State.wf_homeRead hs) (State.wf_homeRead h)

theorem State.wf_setPool {s : State} {c pa : Nat} {l : List Nat} (h : memoryOk s) : memoryOk (s.setPool c pa l) :=
  memoryOk_foldl (fun _ _ hs => State.wf_homeWrite hs) (State.wf_homeWrite h)

theorem State.wf_swapPools {s : State} {c take give f old : Nat} (h : memoryOk s) : memoryOk (s.swapPools c take give f old) :=
  State.wf_setPool (State.wf_pool (State.wf_setPool (State.wf_pool h)))

theorem State.wf_settlePools {s : State} {c : Nat} {m : PageMove} {l : List Shift} (h : memoryOk s) :
    memoryOk (s.settlePools c m l) := by
  unfold State.settlePools
  dsimp only
  split
  · split
    · split <;> exact State.wf_swapPools h
    · exact h
  · exact h

theorem State.wf_freeFrames {s : State} {c pa : Nat} (h : memoryOk s) : memoryOk (s.freeFrames c pa).1 :=
  State.wf_pool h

theorem State.wf_endInstall {s : State} {c pe code src dst done : Nat} {request : Option (Nat × BitVec 32)} (h : memoryOk s) :
    memoryOk (s.endInstall c pe code src dst done request) := by
  unfold State.endInstall
  refine memoryOk_foldl (fun _ _ hs => State.wf_complete hs) ?_
  split
  · refine State.wf_modCtx ?_
    split
    · exact h
    · exact State.wf_fillAt h
  · refine State.wf_setTlerrAll (State.wf_modCtx ?_)
    split
    · exact h
    · exact State.wf_fillAt h

theorem State.wf_refuseInstall {s : State} {c : Nat} {i : Install} {code : Nat} (h : memoryOk s) :
    memoryOk (s.refuseInstall c i code) := by
  unfold State.refuseInstall
  split
  · exact h
  · exact State.wf_endInstall h

theorem State.wf_acceptInstall {s : State} {c va : Nat} {request : Option (Nat × BitVec 32)} (h : memoryOk s) :
    memoryOk (s.acceptInstall c va request) := by
  unfold State.acceptInstall
  extract_lets s1 w s2 src s3
  have h1 : memoryOk s1 := memoryOk_ite (State.wf_touchVirt h) h
  have h2 : memoryOk s2 := memoryOk_ite (memoryOk_foldl (fun _ _ hs => State.wf_deviceWalk hs) h1) h1
  have h3 : memoryOk s3 := by
    unfold s3
    split
    · exact memoryOk_ite (State.wf_walkSpan h2) h2
    · exact h2
  split
  · exact State.wf_refuseInstall h3
  · exact memoryOk_ite (State.wf_refuseInstall h3) (State.wf_modCtx h3)

theorem execInstallTakeMailbox_canonical {c : Nat} {s : State} (h : memoryOk s) : Canonical (execInstallTakeMailbox c s) := by
  unfold execInstallTakeMailbox
  dsimp only
  split
  · refine .of ?_
    split
    · exact State.wf_deviceWalk h
    · exact h
  · split
    · split
      · exact .of (State.wf_deviceWalk h)
      · exact .of (State.wf_acceptInstall (State.wf_markTagged (State.wf_homeScan (State.wf_setFull (State.wf_directRead
          (State.wf_deviceWalk h))))))
    · split
      · exact .of h
      · exact .of (State.wf_acceptInstall (State.wf_markTagged (State.wf_homeScan (State.wf_setFull (State.wf_directRead h)))))

theorem execInstallWeights_canonical {r : Request} {s : State} (h : memoryOk s) : Canonical (execInstallWeights r s) := by
  unfold execInstallWeights
  refine runOnContext_canonical h fun _ _ hs => ?_
  split
  · exact hs
  · split
    · exact State.wf_endInstall hs
    · exact State.wf_acceptInstall hs

theorem State.wf_dropLines {s : State} {c : Nat} {img : SMap Byte} (h : memoryOk s) : memoryOk (s.dropLines c img).1 := by
  unfold State.dropLines
  refine memoryOk_foldl_fst (fun _ _ hs => ?_) h
  dsimp only
  split
  · exact hs
  · rename_i u _
    exact show memoryOk u from State.wf_engineLoss hs ‹_›

theorem State.wf_readSource {s : State} {c : Nat} {frames : List (Nat × Nat)} (h : memoryOk s) :
    memoryOk (s.readSource c frames).2 :=
  memoryOk_foldl (fun _ _ hs => State.wf_touch hs) h

theorem State.wf_hostWrite {s : State} {pa : Nat} {l : List Byte} (h : memoryOk s) : memoryOk (s.hostWrite pa l) := by
  unfold State.hostWrite
  refine memoryOk_foldl (fun _ _ hs => ?_) ?_
  · split
    · exact State.wf_homeWrite hs
    · exact hs
  · split <;> exact h

theorem State.wf_hostFetch {s : State} {pa n : Nat} (h : memoryOk s) : memoryOk (s.hostFetch pa n).1 := by
  unfold State.hostFetch
  refine memoryOk_foldl_fst (fun _ _ hs => ?_) ?_
  · dsimp only
    split
    · exact State.wf_homeRead hs
    · exact hs
  · dsimp only
    split <;> exact h

theorem execRqtailDoorbell_canonical {ring tail : Nat} {s : State} (h : memoryOk s) : Canonical (execRqtailDoorbell ring tail s) := by
  unfold execRqtailDoorbell
  refine .of ?_
  split <;> exact h

theorem State.wf_fetchRegister {s : State} {off : Nat} (h : memoryOk s) : memoryOk (s.fetchRegister off).1 := by
  unfold State.fetchRegister
  split <;> exact h

theorem State.wf_fetchBar0 {s : State} {off n : Nat} (h : memoryOk s) : memoryOk (s.fetchBar0 off n).1 :=
  memoryOk_foldl_fst (fun _ _ hs => State.wf_fetchRegister hs) h

theorem execRegisterDomain_canonical {r : Request} {s : State} (h : memoryOk s) : Canonical (execRegisterDomain r s) := by
  unfold execRegisterDomain
  refine runOnContext_canonical h fun _ _ hs => ?_
  dsimp only
  split
  · exact hs
  · split
    · exact hs
    · split
      · exact hs
      · split <;> exact hs

theorem execWithdrawDomain_canonical {r : Request} {s : State} (h : memoryOk s) : Canonical (execWithdrawDomain r s) := by
  unfold execWithdrawDomain
  refine runOnContext_canonical h fun _ _ hs => ?_
  dsimp only
  split <;> exact hs

theorem State.wf_hostBytes {s : State} {a : Nat} {l : List Byte} (h : memoryOk s) : memoryOk (s.hostBytes a l) := by
  unfold State.hostBytes
  split
  · exact h
  · exact State.wf_hostBytes (State.wf_rawWrite h)

theorem State.wf_writeInventory {s : State} {a : Nat} (h : memoryOk s) : memoryOk (s.writeInventory a) :=
  State.wf_hostBytes (State.wf_rawWrite h)

theorem State.wf_writeItem {s : State} {c sel a : Nat} (h : memoryOk s) : memoryOk (s.writeItem c sel a) := by
  unfold State.writeItem
  dsimp only
  split
  · exact State.wf_writeInventory h
  · split
    · exact State.wf_modCtx (State.wf_hostWords h)
    · exact State.wf_hostWords h

theorem execHostRead_canonical {r : Request} {s : State} (h : memoryOk s) : Canonical (execHostRead r s) := by
  unfold execHostRead
  dsimp only
  split
  · refine runRequest_canonical h fun _ _ hs => ?_
    split
    · exact hs
    · exact State.wf_answer (State.wf_writeItem hs)
  · refine runOnContext_canonical h fun _ _ hs => ?_
    split
    · exact hs
    · exact State.wf_answer (State.wf_writeItem hs)

theorem execPower_canonical {r : Request} {s : State} (h : memoryOk s) : Canonical (execPower r s) := by
  unfold execPower
  refine runRequest_canonical h fun _ _ hs => ?_
  dsimp only
  split
  · exact hs
  · split <;> exact hs

theorem execD3hotTransition_canonical {s : State} (h : memoryOk s) : Canonical (execD3hotTransition s) := by
  unfold execD3hotTransition
  refine .of ?_
  split <;> exact h

theorem State.wf_storeRecord {s : State} {a : Word} (h : memoryOk s) : memoryOk (s.storeRecord a).1 :=
  memoryOk_answerIte h (memoryOk_answerIte h (memoryOk_answerIte h (memoryOk_answerIte h h)))

theorem execAttest_canonical {r : Request} {s : State} (h : memoryOk s) : Canonical (execAttest r s) := by
  unfold execAttest
  refine runRequest_canonical h fun _ s hs => ?_
  dsimp only
  split
  · exact hs
  · split
    · exact hs
    · refine State.wf_answer (State.wf_hostBytes ?_)
      show memoryOk (if BitVec.toNat (r.word 2) = 255 then s else s.ungateContext (BitVec.toNat (r.word 2)))
      split
      · exact hs
      · exact State.wf_ungateContext hs

theorem State.wf_trainLink {s : State} {found : List (Link × List Nat)} {l : Link} (h : memoryOk s) :
    memoryOk (s.trainLink found l) := by
  unfold State.trainLink
  dsimp only
  split
  · exact h
  · exact memoryOk_foldl (fun _ _ hs => State.wf_trainEnd hs) h

theorem execCxlExpanderRemoval_canonical {base : Nat} {s : State} (h : memoryOk s) : Canonical (execCxlExpanderRemoval base s) := by
  unfold execCxlExpanderRemoval
  split <;> exact .of h

theorem execPatrolScrub_canonical {tile layer row : Nat} {s : State} (h : memoryOk s) :
    Canonical (execPatrolScrub tile layer row s) := by
  unfold execPatrolScrub
  split
  · exact .of h
  · exact .of (memoryOk_foldl (fun _ _ hs => State.wf_touch hs) h)

theorem execRebuildStep_canonical {bank : Nat} {s : State} (h : memoryOk s) : Canonical (execRebuildStep bank s) := by
  unfold execRebuildStep
  dsimp only
  split
  · exact .of h
  · split
    · exact .of h
    · exact .of (State.wf_bank (memoryOk_foldl (fun _ _ hs => State.wf_touch hs) h))

theorem execRebuildComplete_canonical {bank : Nat} {s : State} (h : memoryOk s) : Canonical (execRebuildComplete bank s) := by
  unfold execRebuildComplete
  dsimp only
  split
  · exact .of h
  · split <;> exact .of h

theorem execTileGate_canonical {tile : Nat} {s : State} (h : memoryOk s) : Canonical (execTileGate tile s) := by
  unfold execTileGate
  dsimp only
  split <;> exact .of h

theorem State.wf_moveRanges {s : State} {c : Nat} {l : List Shift} (h : memoryOk s) : memoryOk (s.moveRanges c l) := by
  unfold State.moveRanges
  extract_lets go
  have hgo : memoryOk ((s.tilesOf c).foldl (fun (s : State) t => s.modTc t go) s) := memoryOk_foldl (fun _ _ hs => State.wf_modTc hs) h
  exact hgo

theorem execMoveCommit_canonical {c : Nat} {s : State} (h : memoryOk s) : Canonical (execMoveCommit c s) := by
  unfold execMoveCommit
  split
  · exact .of h
  · rename_i m _
    refine Canonical.ite (.of (State.wf_later h)) ?_
    extract_lets s1 s2 s3 s4 s5 inFrame s6 s7 s8 s9 s10
    have h1 : memoryOk s1 := State.wf_readFrames h
    have h2 : memoryOk s2 := by
      unfold s2
      split
      · exact h1
      · exact memoryOk_foldl (fun _ _ hs => State.wf_depart hs) h1
    have h3 : memoryOk s3 := State.wf_copyFrames h2
    have h4 : memoryOk s4 := memoryOk_foldl (fun _ _ hs => State.wf_commitEntry hs) h3
    have h5 : memoryOk s5 := memoryOk_foldl (fun _ _ hs => State.wf_invalidateRange hs) h4
    have h6 : memoryOk s6 := memoryOk_foldl (fun _ _ hs => State.wf_discard hs) h5
    have h7 : memoryOk s7 := State.wf_moveWaits (State.wf_moveHeld (State.wf_moveWatches (State.wf_moveRanges (State.wf_moveTagged h6))))
    have h8 : memoryOk s8 := State.wf_settlePools h7
    have h9 : memoryOk s9 := h8
    exact .of (State.wf_endMove (State.wf_modCtx h9))

theorem State.wf_promote {s : State} {c n : Nat} {hot cold : List BarrowPage} {free : List Nat} (h : memoryOk s) :
    memoryOk (s.promote c hot cold free n) := by
  induction hot generalizing s cold free n with
  | nil => exact h
  | cons p r ih =>
    cases n with
    | zero => exact h
    | succ n =>
      rw [State.promote]
      split
      · exact ih (State.wf_modDev (State.wf_addMove h))
      · split
        · exact ih h
        · exact ih (State.wf_modDev (State.wf_addMove h))

theorem State.wf_demote {s : State} {c k : Nat} {l : List BarrowPage} {free : List Nat} (h : memoryOk s) :
    memoryOk (s.demote c l free k) := by
  induction l generalizing s free k with
  | nil => exact h
  | cons p r ih =>
    rw [State.demote]
    split
    · exact h
    · split
      · exact ih h
      · split
        · exact ih h
        · exact ih (State.wf_addMove h)

theorem State.wf_barrow {s : State} {c : Nat} (h : memoryOk s) : memoryOk (s.barrow c) := by
  unfold State.barrow
  extract_lets cfg set s1 a hot cold s2 f d
  have h1 : memoryOk s1 := State.wf_readTables h
  have h2 : memoryOk s2 := State.wf_promote (State.wf_freeFrames h1)
  exact State.wf_demote (State.wf_freeFrames (State.wf_freeFrames h2))

theorem execBarrowEpoch_canonical {c : Nat} {s : State} (h : memoryOk s) : Canonical (execBarrowEpoch c s) := by
  unfold execBarrowEpoch
  extract_lets x now s1 s2
  have h1 : memoryOk s1 := State.wf_modDev h
  have h2 : memoryOk s2 := by
    unfold s2
    split
    · exact h1
    · exact State.wf_barrow h1
  exact Canonical.ite (.of h) (.of (State.wf_modCtx h2))

theorem execInstallComplete_canonical {c : Nat} {r : InstallEnd} {s : State} (h : memoryOk s) : Canonical (execInstallComplete c r s) := by
  have hend : ∀ {u : State} {pe code src dst done : Nat} {request : Option (Nat × BitVec 32)}, memoryOk u →
      Canonical (.next (u.endInstall c pe code src dst done request)) := fun hu => .of (State.wf_endInstall hu)
  unfold execInstallComplete
  split
  · exact .of h
  · rename_i i rest _
    extract_lets region pe s1 s2 fin fail read s3 now words img
    refine Canonical.ite (.of (State.wf_later h)) ?_
    split
    · exact hend (State.wf_modCtx h)
    · refine Canonical.ite (hend (State.wf_modCtx h)) (Canonical.ite (.of (State.wf_later h)) (Canonical.ite (.of h) ?_))
      have h2 : memoryOk s2 := State.wf_modDev (State.wf_modCtx h)
      have h3 : memoryOk s3 := State.wf_readSource h2
      refine Canonical.ite (hend (State.wf_modDev h3)) (Canonical.ite (hend (State.wf_modDev h3)) (Canonical.ite ?_ ?_))
      · exact Canonical.ite (hend (State.wf_modDev h3)) (hend (State.wf_modDev h3))
      · split
        rename_i u _ hu
        have h4 : memoryOk u := memoryOk_fst hu (State.wf_dropLines (s := { s3 with fresh := _ }) h3)
        refine hend (State.wf_modDev ?_)
        split
        · exact State.wf_setCells h4
        · exact State.wf_countUnmapped h4

theorem State.wf_writeRegister {s : State} {off : Nat} {v : Word} (h : memoryOk s) : memoryOk (s.writeRegister off v) := by
  unfold State.writeRegister
  split
  · exact State.wf_modDev h
  · split
    · exact State.wf_setRing h
    · exact h

theorem State.wf_writeBar0 {s : State} {off : Nat} {l : List Byte} (h : memoryOk s) : memoryOk (s.writeBar0 off l) := by
  unfold State.writeBar0
  refine memoryOk_foldl (fun _ _ hs => ?_) h
  dsimp only
  split
  · exact hs
  · exact State.wf_writeRegister hs

theorem execDeviceRegisterWrite_canonical {off : Nat} {v : Word} {s : State} (h : memoryOk s) :
    Canonical (execDeviceRegisterWrite off v s) := by
  refine .of ?_
  split
  · exact h
  · exact State.wf_writeRegister h

theorem execHostBarAccess_canonical {a : BarAccess} {s : State} (h : memoryOk s) : Canonical (execHostBarAccess a s) := by
  unfold execHostBarAccess
  extract_lets gave
  have hgave : ∀ {r : State × List Byte}, memoryOk r.1 → Canonical (gave r) := fun hr => .of (State.wf_modDev hr)
  refine Canonical.ite (Canonical.ite (.of h) ?_) ?_
  · split
    · refine .of ?_
      split
      · exact h
      · exact State.wf_writeBar0 h
    · exact hgave (State.wf_fetchBar0 h)
  · split
    · exact .of h
    · exact .of h
    · split
      · exact .of (State.wf_hostWrite h)
      · exact hgave (State.wf_hostFetch h)

theorem execBoot_canonical {b : BootFindings} {s : State} (h : memoryOk s) : Canonical (execBoot b s) := by
  unfold execBoot
  refine Canonical.ite (.of h) ?_
  split
  · exact .of (State.wf_modDev h)
  · extract_lets bad s1 s2 s3 s4
    have h1 : memoryOk s1 := State.wf_modDev h
    have h2 : memoryOk s2 := memoryOk_foldl (f := fun (s : State) (p : Nat × _) => s.logEvent .recordIgnored none p.1)
      (fun _ _ hs => State.wf_logEvent hs) h1
    have h3 : memoryOk s3 := memoryOk_foldl (f := fun (s : State) (p : Nat × Nat) => s.logEvent (.install 4) (some p.1) p.2)
      (fun _ _ hs => State.wf_logEvent hs) h2
    have h4 : memoryOk s4 := memoryOk_foldl (fun _ _ hs => State.wf_trainLink hs) h3
    exact .of (State.wf_modDev h4)

end Sys2Proof.Machine
end

section
/-! Every instruction and every turn of an agent keeps memory canonical, and so does every step. -/

namespace Sys2Proof.Machine

open Sys2Proof.Claims

theorem exec_canonical (i : Instr) {s : State} (hs : memoryOk s) : Canonical (exec i s) := by
  cases i with
  | fimmS => rw [exec_fimmS]; exact .of hs
  | flitS => exact execFlitS_canonical hs
  | fconstS => rw [exec_fconstS]; exact .of hs
  | cset => rw [exec_cset]; exact .of hs
  | hld => exact execHld_canonical hs
  | qput => exact execQput_canonical hs
  | qstatQ => rw [exec_qstatQ]; exact .of (State.wf_result hs)
  | qstatDq => rw [exec_qstatDq]; exact .of (State.wf_result hs)
  | qsync => exact execQsync_canonical hs
  | qsyncReturn => exact execQsyncReturn_canonical hs
  | ldf => rw [exec_ldf]; exact hartEnd_canonical hs sendTagged_sound
  | ldt => rw [exec_ldt]; exact hartEnd_canonical hs sendTagged_sound
  | stf => rw [exec_stf]; exact hartEnd_canonical hs sendTagged_sound
  | ste => rw [exec_ste]; exact hartEnd_canonical hs sendTagged_sound
  | taggedRequestServed => rw [exec_taggedRequestServed]; exact .of (State.wf_homeScan hs)
  | ldU => exact execLdU_canonical hs
  | sdU => exact execSdU_canonical hs
  | maAdd => rw [exec_maAdd]; exact atomic64_canonical hs
  | maMin => rw [exec_maMin]; exact atomic64_canonical hs
  | maMax => rw [exec_maMax]; exact atomic64_canonical hs
  | maAnd => rw [exec_maAnd]; exact atomic64_canonical hs
  | maOr => rw [exec_maOr]; exact atomic64_canonical hs
  | maXor => rw [exec_maXor]; exact atomic64_canonical hs
  | maSwap => rw [exec_maSwap]; exact atomic64_canonical hs
  | maCas => rw [exec_maCas]; exact atomic64_canonical hs
  | maIncw => rw [exec_maIncw]; exact atomic64_canonical hs
  | maFaddS => rw [exec_maFaddS]; exact atomic32_canonical hs
  | maFmaxabsS => rw [exec_maFmaxabsS]; exact atomic32_canonical hs
  | maAddb => rw [exec_maAddb]; exact atomicOp_canonical hs
  | tkGive => rw [exec_tkGive]; exact hartStep_canonical hs (Sound.bind tokenUnits_sound fun _ => Sound.upd fun _ hs => hs)
  | tkTake => exact execTkTake_canonical hs
  | tkTakeServed => exact execTkTakeServed_canonical hs
  | tlWait => exact execTlWait_canonical hs
  | tlWaitReturn => exact execTlWaitReturn_canonical hs
  | tlRead => rw [exec_tlRead]; exact .of (State.wf_result hs)
  | fenceG => exact execFenceG_canonical hs
  | warm => rw [exec_warm]; exact hartStep_canonical hs (Sound.bind taggedLeaf_sound fun _ => Sound.upd fun _ hs => hs)
  | wsleep => exact execWsleep_canonical hs
  | wsleepWake => exact execWsleepWake_canonical hs
  | barrArrive => exact execBarrArrive_canonical hs
  | barrWait => rw [exec_barrWait]; exact hartStep_canonical hs barrBody_sound
  | barrWaitWake => exact execBarrWaitWake_canonical hs
  | spawn => exact execSpawn_canonical hs
  | spawnPlaced => exact execSpawnPlaced_canonical hs
  | stgTake => exact execStgTake_canonical hs
  | stgTakeServed => exact execStgTakeServed_canonical hs
  | stgDone => exact execStgDone_canonical hs
  | kexit => exact execKexit_canonical hs
  | kexitRelease => exact execKexitRelease_canonical hs
  | tret => exact execTret_canonical hs
  | ctxYield => exact execCtxYield_canonical hs
  | accrd => exact execAccrd_canonical hs
  | vread => exact execVread_canonical hs
  | vreadReturn => exact execVreadReturn_canonical hs
  | cpcancel => exact execCpcancel_canonical hs
  | rxProbe => exact execRxProbe_canonical hs
  | baseInstruction => rw [exec_baseInstruction]; exact baseStep_canonical hs
  | plainLoad => rw [exec_plainLoad]; exact hartStep_canonical hs (Sound.bind plainRead_sound fun _ => putLoad_sound)
  | plainStore => exact execPlainStore_canonical hs
  | fence => rw [exec_fence]; exact .of hs
  | fenceI => rw [exec_fenceI]; exact .of hs
  | wfi => exact execWfi_canonical hs
  | ebreak => rw [exec_ebreak]; exact .of (State.wf_takeTrap hs)
  | ecallFirmwareVersion => exact execEcallFirmwareVersion_canonical hs
  | ecallPostToHost => rw [exec_ecallPostToHost]; exact .of (State.wf_callService hs (servicePost_keeps hs))
  | ecallAbort => rw [exec_ecallAbort]; exact .of (State.wf_callService hs (serviceAbort_keeps hs))
  | ecallUnknown => exact execEcallUnknown_canonical hs
  | csrWrite => rw [exec_csrWrite]; exact .of (csrWriteStep_keeps hs)
  | rndtileWrite => exact execRndtileWrite_canonical hs
  | qrecSkip => exact execQrecSkip_canonical hs
  | qrecFlush => exact execQrecFlush_canonical hs
  | commandFaultTrap => exact execCommandFaultTrap_canonical hs
  | qputResume => exact execQputResume_canonical hs
  | slicerTake => exact execSlicerTake_canonical hs
  | cnop => rw [exec_cnop]; exact runCommand_canonical hs fun _ => Sound.bind checkReserved_sound fun _ => Sound.pure _
  | cbump => exact execCbump_canonical hs
  | cmark => exact execCmark_canonical hs
  | fdRow => rw [exec_fdRow]; exact runCommand_canonical hs fun _ => rowBody_sound
  | fdRowCrd => rw [exec_fdRowCrd]; exact runCommand_canonical hs fun _ => rowBody_sound
  | fdGather => rw [exec_fdGather]; exact runCommand_canonical hs fun _ => gatherBody_sound
  | fdBcast => rw [exec_fdBcast]; exact runCommand_canonical hs fun _ => bcastBody_sound
  | fdBcastSplat => rw [exec_fdBcastSplat]; exact runCommand_canonical hs fun _ => rowBody_sound
  | fdSkip => rw [exec_fdSkip]; exact runCommand_canonical hs fun _ => skipBody_sound
  | fdStore => rw [exec_fdStore]; exact runCommand_canonical hs fun _ => storeBody_sound
  | srtCodes => rw [exec_srtCodes]; exact runCommand_canonical hs fun _ => sortBody_sound
  | bkClear => rw [exec_bkClear]; exact runCommand_canonical hs fun _ => clearBody_sound
  | bkSum => rw [exec_bkSum]; exact runCommand_canonical hs fun _ => sumBody_sound
  | bkFin => rw [exec_bkFin]; exact runCommand_canonical hs fun _ => finBody_sound
  | anLease => exact execAnLease_canonical hs
  | anLdw => exact execAnLdw_canonical hs
  | anSwap => exact execAnSwap_canonical hs
  | anMul => exact execAnMul_canonical hs
  | anGmul => exact execAnGmul_canonical hs
  | anClose => exact execAnClose_canonical hs
  | anDrain => exact execAnDrain_canonical hs
  | anFree => exact execAnFree_canonical hs
  | anZero => exact execAnZero_canonical hs
  | leaseGrant => exact execLeaseGrant_canonical hs
  | leaseIdleExpiry => exact execLeaseIdleExpiry_canonical hs
  | cpNd => rw [exec_cpNd]; exact runCommand_canonical hs fun _ => copyBody_sound
  | cpGather => rw [exec_cpGather]; exact runCommand_canonical hs fun _ => copyBody_sound
  | cpScatter => rw [exec_cpScatter]; exact runCommand_canonical hs fun _ => copyBody_sound
  | cpDec => rw [exec_cpDec]; exact runCommand_canonical hs fun _ => decBody_sound
  | cpRed => rw [exec_cpRed]; exact runCommand_canonical hs fun _ => copyBody_sound
  | cpFill => rw [exec_cpFill]; exact runCommand_canonical hs fun _ => copyBody_sound
  | cpPref => rw [exec_cpPref]; exact runCommand_canonical hs fun _ => copyBody_sound
  | ringUnitTake => exact execRingUnitTake_canonical hs
  | decoderWatchdog => exact execDecoderWatchdog_canonical hs
  | copyChunkComplete => exact execCopyChunkComplete_canonical hs
  | copyRemoteElement => exact execCopyRemoteElement_canonical hs
  | copySuspend => exact execCopySuspend_canonical hs
  | commandComplete => exact execCommandComplete_canonical hs
  | vadd => rw [exec_vadd]; exact vInt_canonical hs
  | vsub => rw [exec_vsub]; exact vInt_canonical hs
  | vmul => rw [exec_vmul]; exact vInt_canonical hs
  | vmulh => rw [exec_vmulh]; exact vBinary_canonical hs
  | vmin => rw [exec_vmin]; exact vBinary_canonical hs
  | vmax => rw [exec_vmax]; exact vBinary_canonical hs
  | vabs => rw [exec_vabs]; exact vUnary_canonical hs
  | vneg => rw [exec_vneg]; exact vUnary_canonical hs
  | vand => rw [exec_vand]; exact vBinary_canonical hs
  | vor => rw [exec_vor]; exact vBinary_canonical hs
  | vxor => rw [exec_vxor]; exact vBinary_canonical hs
  | vnot => rw [exec_vnot]; exact vUnary_canonical hs
  | vandn => rw [exec_vandn]; exact vBinary_canonical hs
  | vsll => rw [exec_vsll]; exact vBinary_canonical hs
  | vsrl => rw [exec_vsrl]; exact vBinary_canonical hs
  | vsra => rw [exec_vsra]; exact vBinary_canonical hs
  | vfsh => rw [exec_vfsh]; exact runCommand_canonical hs fun _ => vBody_sound
  | vbfx => rw [exec_vbfx]; exact runCommand_canonical hs fun _ => vBody_sound
  | vbfi => rw [exec_vbfi]; exact runCommand_canonical hs fun _ => vBody_sound
  | vpopc => rw [exec_vpopc]; exact vUnary_canonical hs
  | vclz => rw [exec_vclz]; exact vUnary_canonical hs
  | vcmpEq => rw [exec_vcmpEq]; exact vCompare_canonical hs
  | vcmpNe => rw [exec_vcmpNe]; exact vCompare_canonical hs
  | vcmpLt => rw [exec_vcmpLt]; exact vCompare_canonical hs
  | vcmpLe => rw [exec_vcmpLe]; exact vCompare_canonical hs
  | vcmpGt => rw [exec_vcmpGt]; exact vCompare_canonical hs
  | vcmpGe => rw [exec_vcmpGe]; exact vCompare_canonical hs
  | vpand => rw [exec_vpand]; exact vPred_canonical hs
  | vpor => rw [exec_vpor]; exact vPred_canonical hs
  | vpxor => rw [exec_vpxor]; exact vPred_canonical hs
  | vpnot => rw [exec_vpnot]; exact vPred_canonical hs
  | vpset => rw [exec_vpset]; exact vPred_canonical hs
  | vsel => rw [exec_vsel]; exact runCommand_canonical hs fun _ => vBody_sound
  | vfadd => rw [exec_vfadd]; exact vFloat_canonical hs
  | vfsub => rw [exec_vfsub]; exact vFloat_canonical hs
  | vfmul => rw [exec_vfmul]; exact vFloat_canonical hs
  | vfma => rw [exec_vfma]; exact vFused_canonical hs
  | vfms => rw [exec_vfms]; exact vFused_canonical hs
  | vfmin => rw [exec_vfmin]; exact vFloat_canonical hs
  | vfmax => rw [exec_vfmax]; exact vFloat_canonical hs
  | vfabs => rw [exec_vfabs]; exact vUnary_canonical hs
  | vfneg => rw [exec_vfneg]; exact vUnary_canonical hs
  | vqm8 => rw [exec_vqm8]; exact vQuant_canonical hs
  | vqi8 => rw [exec_vqi8]; exact vQuant_canonical hs
  | vdqm8 => rw [exec_vdqm8]; exact vDequant_canonical hs
  | vdqi8 => rw [exec_vdqi8]; exact vDequant_canonical hs
  | vcvt => exact execVcvt_canonical hs
  | vredsum => rw [exec_vredsum]; exact vReduce_canonical hs
  | vredmax => rw [exec_vredmax]; exact vReduce_canonical hs
  | vredmin => rw [exec_vredmin]; exact vReduce_canonical hs
  | vredmaxabs => rw [exec_vredmaxabs]; exact vReduce_canonical hs
  | vdot => exact execVdot_canonical hs
  | vperm => rw [exec_vperm]; exact runCommand_canonical hs fun _ => vBody_sound
  | vrot => rw [exec_vrot]; exact runCommand_canonical hs fun _ => vBody_sound
  | vsplat => rw [exec_vsplat]; exact runCommand_canonical hs fun _ => vBody_sound
  | vld => exact execVld_canonical hs
  | vgather => exact execVgather_canonical hs
  | vst => exact execVst_canonical hs
  | vscatter => rw [exec_vscatter]; exact vScatter_canonical hs
  | vscatterAdd => rw [exec_vscatterAdd]; exact vScatter_canonical hs
  | vscatterMin => rw [exec_vscatterMin]; exact vScatter_canonical hs
  | vscatterMax => rw [exec_vscatterMax]; exact vScatter_canonical hs
  | vscatterFadd => rw [exec_vscatterFadd]; exact vScatter_canonical hs
  | vscatterFmaxabs => rw [exec_vscatterFmaxabs]; exact vScatter_canonical hs
  | vmovReg => rw [exec_vmovReg]; exact runCommand_canonical hs fun _ => vBody_sound
  | vmovFromDq => exact execVmovFromDq_canonical hs
  | vmovToDq => exact execVmovToDq_canonical hs
  | vmovi => rw [exec_vmovi]; exact runCommand_canonical hs fun _ => vBody_sound
  | viota => rw [exec_viota]; exact runCommand_canonical hs fun _ => vBody_sound
  | vany => rw [exec_vany]; exact vVote_canonical hs
  | vall => rw [exec_vall]; exact vVote_canonical hs
  | txSend => exact execTxSend_canonical hs
  | txPut => exact execTxPut_canonical hs
  | txPutArrive => exact execTxPutArrive_canonical hs
  | txGet => exact execTxGet_canonical hs
  | rxPost => exact execRxPost_canonical hs
  | rxCancel => exact execRxCancel_canonical hs
  | messageArrival => exact execMessageArrival_canonical hs
  | landingComplete => exact execLandingComplete_canonical hs
  | remoteArrival => exact execRemoteArrival_canonical hs
  | remotePutWrite => exact execRemotePutWrite_canonical hs
  | remoteGetRead => exact execRemoteGetRead_canonical hs
  | getReply => exact execGetReply_canonical hs
  | messageAck => exact execMessageAck_canonical hs
  | packetArrival => exact execPacketArrival_canonical hs
  | protectedResend => rw [exec_protectedResend]; exact .of hs
  | flitCrcFail => exact execFlitCrcFail_canonical hs
  | jecenLaneLost => exact execJecenLaneLost_canonical hs
  | trainingComplete => rw [exec_trainingComplete]; exact .of (State.wf_trainEnd hs)
  | linkDrainComplete => exact execLinkDrainComplete_canonical hs
  | linkDrainTimeout => exact execLinkDrainTimeout_canonical hs
  | routeTableUpdate => exact execRouteTableUpdate_canonical hs
  | patrolScrub => exact execPatrolScrub_canonical hs
  | rebuildStep => exact execRebuildStep_canonical hs
  | rebuildComplete => exact execRebuildComplete_canonical hs
  | tileGate => exact execTileGate_canonical hs
  | tileUngate => rw [exec_tileUngate]; exact .of (State.wf_ungate hs)
  | stageSchedulerEpoch => exact execStageSchedulerEpoch_canonical hs
  | kernelLoad => exact execKernelLoad_canonical hs
  | kernelLoadComplete => exact execKernelLoadComplete_canonical hs
  | kernelRetire => exact execKernelRetire_canonical hs
  | softPreemptGraceExpiry => exact execSoftPreemptGraceExpiry_canonical hs
  | saveComplete => exact execSaveComplete_canonical hs
  | rqtailDoorbell => exact execRqtailDoorbell_canonical hs
  | hostBarAccess => exact execHostBarAccess_canonical hs
  | create => exact execCreate_canonical hs
  | writeRecord => exact execWriteRecord_canonical hs
  | commit => exact execCommit_canonical hs
  | launch => exact execLaunch_canonical hs
  | preemptSoft => exact execPreemptSoft_canonical hs
  | preemptHard => exact execPreemptHard_canonical hs
  | saveOut => exact execSaveOut_canonical hs
  | restore => exact execRestore_canonical hs
  | teardown => exact execTeardown_canonical hs
  | releaseComplete => exact execReleaseComplete_canonical hs
  | declareFault => exact execDeclareFault_canonical hs
  | invalidate => exact execInvalidate_canonical hs
  | movePage => exact execMovePage_canonical hs
  | barrowEpoch => exact execBarrowEpoch_canonical hs
  | movePinWaitTimeout => exact execMovePinWaitTimeout_canonical hs
  | moveStart => exact execMoveStart_canonical hs
  | moveCommit => exact execMoveCommit_canonical hs
  | installTakeMailbox => exact execInstallTakeMailbox_canonical hs
  | installComplete => exact execInstallComplete_canonical hs
  | registerDomain => exact execRegisterDomain_canonical hs
  | withdrawDomain => exact execWithdrawDomain_canonical hs
  | closeQueue => exact execCloseQueue_canonical hs
  | hostRead => exact execHostRead_canonical hs
  | linkEnable => rw [exec_linkEnable]; exact linkRequest_canonical hs
  | linkRetire => rw [exec_linkRetire]; exact linkRequest_canonical hs
  | linkRetrain => rw [exec_linkRetrain]; exact linkRequest_canonical hs
  | power => exact execPower_canonical hs
  | attest => exact execAttest_canonical hs
  | installRecord => rw [exec_installRecord]; exact runRequest_canonical hs fun _ _ hs => State.wf_storeRecord hs
  | installWeights => exact execInstallWeights_canonical hs
  | boot => exact execBoot_canonical hs
  | deviceReset => rw [exec_deviceReset]; exact .of (State.wf_restart hs)
  | powerLoss => rw [exec_powerLoss]; exact .of (State.wf_restart hs)
  | d3hotTransition => exact execD3hotTransition_canonical hs
  | cxlExpanderRemoval => exact execCxlExpanderRemoval_canonical hs
  | illegalInstruction => rw [exec_illegalInstruction]; exact .of (State.wf_takeTrap hs)
  | deviceRegisterWrite => exact execDeviceRegisterWrite_canonical hs
  | jecenLaneRestored => exact execJecenLaneRestored_canonical hs

/-- The state that a turn leaves or hands to its instruction has the canonical form of memory. -/
structure CanonicalTurn (t : Turn) : Prop where
  run : ∀ {i s}, t = .run i s → memoryOk s
  rest : ∀ {s}, t = .rest s → memoryOk s

theorem CanonicalTurn.ofRun {i : Instr} {s : State} (h : memoryOk s) : CanonicalTurn (.run i s) :=
  ⟨fun ht => (Turn.run.inj ht).2 ▸ h, nofun⟩

theorem CanonicalTurn.ofRest {s : State} (h : memoryOk s) : CanonicalTurn (.rest s) := ⟨nofun, fun ht => Turn.rest.inj ht ▸ h⟩

theorem CanonicalTurn.ite {p : Prop} [Decidable p] {a b : Turn} (ha : CanonicalTurn a) (hb : CanonicalTurn b) :
    CanonicalTurn (if p then a else b) := by
  split
  · exact ha
  · exact hb

section
variable {s : State} (hs : memoryOk s)
include hs

theorem fetchHart_canonical {h : HartId} : CanonicalTurn (fetchHart s h) :=
  .ite (.ofRest (State.wf_takeTrap hs)) (.ofRun hs)

theorem waitTurn_canonical {h : HartId} {w : Wait} : CanonicalTurn (waitTurn s h w) := by
  refine .ite (.ofRun hs) ?_
  split
  · exact .ofRun hs
  · exact fetchHart_canonical hs

theorem hartTurn_canonical {h : HartId} : CanonicalTurn (hartTurn s h) := by
  have hrest : memoryOk (if s.stopping h.tile then s.restHart h else s) := by
    split
    · exact State.wf_restHart hs
    · exact hs
  unfold hartTurn
  refine .ite (.ofRest hs) ?_
  split
  · exact .ofRest hs
  · exact .ite (.ofRest hrest) (.ite (.ofRun hs) (fetchHart_canonical hs))
  · exact .ite (waitTurn_canonical hs) (.ofRest hrest)

theorem partTurn_canonical {h : HartId} {n : Nat} : CanonicalTurn (partTurn s h n) := by
  unfold partTurn
  split
  · rename_i u hu
    exact .ofRest (State.wf_readPart ((hartTurn_canonical hs).run hu))
  · exact .ofRest hs

theorem runEntry_canonical {e : Entry} {row : Instr → Instr} : CanonicalTurn (runEntry s e row) := by
  unfold runEntry
  split
  · exact ⟨nofun, nofun⟩
  · exact .ofRun hs

theorem engineTurn_canonical {t q : Nat} {a : Bool} : CanonicalTurn (engineTurn s t q a) := by
  unfold engineTurn
  extract_lets x
  split
  · exact .ofRun hs
  · split
    · exact .ofRest hs
    · exact runEntry_canonical hs

theorem pickTurn_canonical {t q : Nat} {a : Bool} {pick : Pick} : CanonicalTurn (pickTurn s t q a pick) := by
  unfold pickTurn
  split
  · exact .ofRest hs
  · exact .ite (runEntry_canonical hs) (runEntry_canonical (s := { s with pick := some pick }) hs)

theorem ringTurn_canonical : CanonicalTurn (ringTurn s) := by
  unfold ringTurn
  refine .ite (.ofRest hs) ?_
  split
  · exact .ofRest hs
  · rename_i n _
    extract_lets d u w
    have hu : memoryOk u := hs
    split
    · exact .ofRun hu
    · exact .ofRest (State.wf_complete (State.wf_takeRequest hu))

theorem agentTurn_canonical : CanonicalTurn (agentTurn s) := by
  unfold agentTurn
  split
  · exact hartTurn_canonical hs
  · exact hartTurn_canonical hs
  · exact .ofRun hs
  · exact engineTurn_canonical hs
  · exact engineTurn_canonical hs
  · exact engineTurn_canonical hs
  · exact engineTurn_canonical hs
  · exact ringTurn_canonical hs

theorem pickedTurn_canonical {pick : Pick} : CanonicalTurn (pickedTurn s pick) := by
  unfold pickedTurn
  split
  · exact pickTurn_canonical hs
  · exact pickTurn_canonical hs
  · exact pickTurn_canonical hs
  · exact pickTurn_canonical hs
  · exact agentTurn_canonical hs

theorem partOf_canonical {n : Nat} : CanonicalTurn (partOf s n) := by
  unfold partOf
  split
  · exact partTurn_canonical hs
  · exact partTurn_canonical hs
  · exact .ofRest (State.wf_sortPart hs)
  · exact .ofRest hs

theorem State.wf_passSent {n : Nat} : memoryOk (s.passSent n) := by
  unfold State.passSent
  split <;> exact hs

end

theorem turn_canonical {s : State} (hs : memoryOk s) : CanonicalTurn s.turn := by
  unfold State.turn
  split
  · exact agentTurn_canonical hs
  · rename_i m r _
    extract_lets u
    have hu : memoryOk u := hs
    have hcur : ∀ a, memoryOk { u with cur := a } := fun _ => hu
    cases m with
    | run a => exact agentTurn_canonical (hcur a)
    | event => exact .ofRun hu
    | tick => exact .ofRest (State.wf_pass hu)
    | upset => exact .ofRest (State.wf_flip hu)
    | lostSave => exact .ofRest (State.wf_modCtx hu)
    | lostCommit => exact .ofRest (State.wf_lostCommit hu)
    | start a | finish a | writeWord a => exact pickedTurn_canonical (hcur a)
    | readWord a => exact .ofRest (State.wf_earlyRead (hcur a))
    | landWord => exact .ofRest (State.wf_landNext hu)
    | putWord => exact .ofRest (State.wf_putWord hu)
    | getWord => exact .ofRest (State.wf_getWord hu)
    | replyWord => exact .ofRest (State.wf_replyWord hu)
    | part a => exact partOf_canonical (hcur a)
    | manage => exact .ofRest (State.wf_manage hu)
    | passed => exact .ofRest (State.wf_passSent hu)
    | enableErrors => exact .ofRest (State.wf_modDev hu)

/-- Settles O4: what the turn hands on is canonical, and what the instruction that it runs makes of it. -/
theorem stepKeepsMemoryCanonical : Obligations.StepKeepsMemoryCanonical := by
  unfold Obligations.StepKeepsMemoryCanonical
  intro s t hs ht
  unfold step at ht
  split at ht
  next i u hu => exact (exec_canonical i ((turn_canonical hs).run hu)).next ht
  next u hu =>
    cases ht
    exact (turn_canonical hs).rest hu
  next => cases ht

end Sys2Proof.Machine
end

section
/-! Why `PageResults` fails: its last clause has an install leave every byte outside its target as it was, and one that the host asked for
is answered in host memory (R377), which is memory of the model too. -/

namespace Sys2Proof.Machine

/-- An install that the host asked for on ring 0: 2 MiB of tier D, all zero, into the first region of tier F, with no completion word. -/
def askedInstall : Install where
  src := 0x200000
  dst := 0x400000
  done := 0
  frames := [(Config.tierDBase, 0x200000)]
  dstPa := Config.tierFBase
  request := some (0, 0)

/-- The device right after reset but for that install of context 0. -/
def askedState : State := { State.reset with ctxs := [(0, { st := .resident, installs := [askedInstall] })] }

/-- The end of that install in unit 0, with nothing amiss. -/
def cleanEnd : InstallEnd := ⟨0, false, false, true⟩

/-- The host reads the completion's operation, 0x14, in the first byte of its queue. -/
theorem exec_askedInstall_complete : ∃ u, exec (.installComplete 0 cleanEnd) askedState = .next u ∧ u.byte (hostPa 0) = 0x14 :=
  ⟨_, rfl, rfl⟩

/-- Refutes O57: the install of `askedState` ends with code 0 and changes the byte `hostPa 0`, which is outside its target, from 0 to 0x14:
the completion entry of the host's request. -/
theorem not_pageResults : ¬ Obligations.PageResults := by
  unfold Obligations.PageResults
  intro h
  obtain ⟨-, -, -, -, -, -, -, -, -, -, -, -, -, -, -, -, -, -, -, -, -, -, hcomplete⟩ :=
    h askedState ⟨0, 0, 0, 0⟩ 0 ⟨0, 0, 0, 0, false, false, 0, 0⟩ { pages := [] } askedInstall [] cleanEnd
  obtain ⟨-, -, -, hslot⟩ := hcomplete rfl rfl
  obtain ⟨-, -, -, -, hverified⟩ := hslot rfl rfl (by decide) rfl
  obtain ⟨u, hu, -, -, hbytes⟩ := hverified rfl rfl rfl rfl
  obtain ⟨hkept, -⟩ := hbytes (show memoryOk askedState from rfl) rfl rfl rfl rfl rfl
  have hzero : u.byte (hostPa 0) = 0 := hkept (hostPa 0) (.inr (by decide))
  obtain ⟨v, hv, hentry⟩ := exec_askedInstall_complete
  cases hu.symm.trans hv
  exact absurd (hentry.symm.trans hzero) (by decide)

end Sys2Proof.Machine
end

section
/-! Timelines and fences (R103, R110, R113 to R115, R367). -/

namespace Sys2Proof.Machine

/-! ## Timelines -/

section
variable {s : State} {h : HartId} {x n : Nat}

/-- A wait on one of the tile's own timelines discards nothing (R83). -/
theorem State.returnTl_tile (hx : x < 4) : s.returnTl h x n = s.retire h ((s.hart h).pc + 4) := by
  rw [State.returnTl, if_neg (by simp; omega)]

theorem State.returnTl_zero : s.returnTl h x 0 = s.retire h ((s.hart h).pc + 4) := by
  rw [State.returnTl, if_neg (by simp)]

/-- A wait on tlr, tli or tlm acquires (R83, R114). -/
theorem State.returnTl_context (hx : 4 ≤ x) (hn : n ≠ 0) :
    s.returnTl h x n = (s.discardAll h.tile).retire h ((s.hart h).pc + 4) := by
  rw [State.returnTl, if_pos (by simp [hx, hn])]

/-- No target lies below 0. -/
theorem beyondTarget_zero (s : State) (h : HartId) (x : Nat) : beyondTarget s h x 0 = false := by
  simp [beyondTarget]

end

section
variable {s : State} {x : BitVec 3} {rs1 : Reg}

theorem exec_tlWait_beyond (hb : beyondTarget s s.me x.toNat (s.readX s.me rs1).toNat = true) :
    exec (.tlWait x rs1) s = .next (s.takeTrap s.me false 25 x.toNat (s.readX s.me rs1)) := by
  rw [exec_tlWait, execTlWait]
  exact if_pos hb

theorem exec_tlWait_reached (hb : beyondTarget s s.me x.toNat (s.readX s.me rs1).toNat = false)
    (hv : (s.readX s.me rs1).toNat ≤ s.timeline s.me.tile x.toNat) :
    exec (.tlWait x rs1) s = .next (s.returnTl s.me x.toNat (s.readX s.me rs1).toNat) := by
  rw [exec_tlWait, execTlWait]
  exact (if_neg (by simp [hb])).trans (if_pos hv)

theorem exec_tlWait_later (hb : beyondTarget s s.me x.toNat (s.readX s.me rs1).toNat = false)
    (hv : s.timeline s.me.tile x.toNat < (s.readX s.me rs1).toNat) :
    exec (.tlWait x rs1) s = .next (s.setWait s.me (.tl x (s.readX s.me rs1))) := by
  rw [exec_tlWait, execTlWait]
  exact (if_neg (by simp [hb])).trans (if_neg (by omega))

/-- A wait for 0 returns at once and acquires nothing. -/
theorem exec_tlWait_zero (hv : s.readX s.me rs1 = 0) :
    exec (.tlWait x rs1) s = .next (s.retire s.me ((s.hart s.me).pc + 4)) := by
  have hz : (s.readX s.me rs1).toNat = 0 := by rw [hv]; rfl
  rw [exec_tlWait_reached (by rw [hz, beyondTarget_zero]) (by omega), hz, State.returnTl_zero]

variable {n : Word} (hr : (s.hart s.me).run = .waiting (.tl x n))
include hr

theorem exec_tlWaitReturn_reached (hn : n.toNat ≤ s.timeline s.me.tile x.toNat) :
    exec .tlWaitReturn s = .next (s.returnTl s.me x.toNat n.toNat) := by
  simp only [exec_tlWaitReturn, execTlWaitReturn, hr, if_pos hn]

theorem exec_tlWaitReturn_later (hn : s.timeline s.me.tile x.toNat < n.toNat) : exec .tlWaitReturn s = .next s := by
  simp only [exec_tlWaitReturn, execTlWaitReturn, hr, if_neg (Nat.not_le.mpr hn)]

end

/-! ## Scope fences -/

section
variable {s : State} {n : BitVec 5}

/-- The movement hart runs on the tile and one of its q2 commands is not complete or not acknowledged. -/
def State.fenceWaits (s : State) : Bool := s.me.move && (s.tc s.me.tile).fencePending

/-- What a fence does that has passed the check of its entry: it waits, or it discards the cached lines and goes on. -/
def State.fenceGo (s : State) (waits : Bool) : Host.Outcome State Fault Refusal :=
  if waits then .next (s.setWait s.me .fence) else .next ((s.discardAll s.me.tile).retire s.me ((s.hart s.me).pc + 4))

theorem State.fenceGo_true (s : State) : s.fenceGo true = .next (s.setWait s.me .fence) := rfl
theorem State.fenceGo_false (s : State) :
    s.fenceGo false = .next ((s.discardAll s.me.tile).retire s.me ((s.hart s.me).pc + 4)) := rfl

theorem exec_fenceG_unbound (hr : (s.hart s.me).run ≠ .waiting .fence)
    (hb : (s.ctx (s.ctxOf s.me.tile)).scopeBound n.toNat = false) :
    exec (.fenceG n) s = .next (s.takeTrap s.me false 26 n.toNat 0) := by
  simp [exec_fenceG, execFenceG, hr, hb]

/-- A fence that starts on a bound entry waits only where the entry's reach is fabric. -/
theorem exec_fenceG_starts (hr : (s.hart s.me).run ≠ .waiting .fence)
    (hb : (s.ctx (s.ctxOf s.me.tile)).scopeBound n.toNat = true) :
    exec (.fenceG n) s = s.fenceGo ((SMap.get 0 (s.ctx (s.ctxOf s.me.tile)).scopes n.toNat).getLsbD 8 && s.fenceWaits) := by
  simp [exec_fenceG, execFenceG, State.fenceGo, State.fenceWaits, hr, hb, and_assoc]

/-- A fence that waits looks at its entry no more (R189). -/
theorem exec_fenceG_started (hr : (s.hart s.me).run = .waiting .fence) :
    exec (.fenceG n) s = s.fenceGo s.fenceWaits := by
  simp [exec_fenceG, execFenceG, State.fenceGo, State.fenceWaits, hr]

theorem TileCtx.fencePending_iff (c : TileCtx) : c.fencePending = true ↔ c.q2.entries ≠ [] ∨ c.unacked ≠ [] := by
  simp [TileCtx.fencePending]

end

/-- Settles O17: each instruction by the cases of its meaning. -/
theorem timelineAndFenceResults : Obligations.TimelineAndFenceResults := by
  unfold Obligations.TimelineAndFenceResults
  refine ⟨fun s x rd rs1 => ⟨exec_tlRead rd x s, exec_tlWait_beyond, ?_, exec_tlWait_later, ?_, fun _ => exec_tlWait_zero,
      fun _ => exec_tlWaitReturn_later, ?_, ?_⟩,
    fun s n => ⟨exec_fence s, exec_fenceI s, exec_fenceG_unbound, ?_, ?_, ?_, ?_, TileCtx.fencePending_iff _⟩⟩
  · intro hb hv hx
    rw [exec_tlWait_reached hb hv, State.returnTl_tile hx]
  · intro hb hv hx hn
    rw [exec_tlWait_reached hb hv, State.returnTl_context hx (BitVec.toNat_ne.mp hn)]
  · intro n hr hn hx h0
    rw [exec_tlWaitReturn_reached hr hn, State.returnTl_context hx (BitVec.toNat_ne.mp h0)]
  · intro n hr hn hx
    rw [exec_tlWaitReturn_reached hr hn, State.returnTl_tile hx]
  · intro hr hb hgo
    have hw : ((SMap.get 0 (s.ctx (s.ctxOf s.me.tile)).scopes n.toNat).getLsbD 8 && s.fenceWaits) = false :=
      Bool.and_eq_false_iff.mpr hgo
    rw [exec_fenceG_starts hr hb, hw, State.fenceGo_false]
  · intro hr hb hf hw
    rw [exec_fenceG_starts hr hb, hf, show s.fenceWaits = true from hw, Bool.true_and, State.fenceGo_true]
  · intro hr hw
    rw [exec_fenceG_started hr, show s.fenceWaits = true from hw, State.fenceGo_true]
  · intro hr hw
    rw [exec_fenceG_started hr, show s.fenceWaits = false from hw, State.fenceGo_false]

end Sys2Proof.Machine
end

section
/-! Faults of a context (R129, R132), and the services of `ecall` (R50, R133). -/

namespace Sys2Proof.Machine

open Sys2Proof.Claims

/-! ## What completions leave -/

/-- A completion changes memory, its ring and the vectors raised. -/
theorem State.complete_frame (s : State) (n op : Nat) (tag : BitVec 32) (status : Nat) (result : Word) :
    ∃ m r d, s.complete n op tag status result = { s with mem := m, rings := r, dev := d } := by
  let size := max (s.ring n).rqsize.toNat 1
  let pa := hostPa ((s.ring n).cqbase.toNat + 16 * ((s.ring n).cqIndex % size))
  obtain ⟨m, hm⟩ := s.rawWrite_eq pa 8 (completionWord op status (1 - (s.ring n).cqIndex / size % 2) tag)
  obtain ⟨m', hm'⟩ := State.rawWrite_eq { s with mem := m } (pa + 8) 8 result.toNat
  unfold State.complete
  dsimp only
  rw [hm, hm']
  exact ⟨_, _, _, rfl⟩

theorem State.completeAll_frame (s : State) (op : Nat) (l : List (Nat × BitVec 32)) (status : Nat) :
    ∃ m r d, s.completeAll op l status = { s with mem := m, rings := r, dev := d } := by
  unfold State.completeAll
  induction l generalizing s with
  | nil => exact ⟨_, _, _, rfl⟩
  | cons p l ih =>
    obtain ⟨m, r, d, hp⟩ := s.complete_frame p.1 op p.2 status 0
    obtain ⟨m', r', d', hl⟩ := ih (s.complete p.1 op p.2 status 0)
    exact ⟨m', r', d', by rw [List.foldl_cons, hl, hp]⟩

@[simp] theorem State.ctx_completeAll (s : State) (op : Nat) (l : List (Nat × BitVec 32)) (status c : Nat) :
    (s.completeAll op l status).ctx c = s.ctx c := by
  obtain ⟨_, _, _, h⟩ := s.completeAll_frame op l status
  rw [h]; rfl

/-! ## The first fault of a context -/

/-- A running or pre-empting context that has not faulted records its fault. -/
theorem State.contextFault_first {s : State} {c : Nat} (hst : (s.ctx c).st = .running ∨ (s.ctx c).st = .preempting)
    (hf : (s.ctx c).hasFault = false) (record : BitVec 256) :
    s.contextFault c record = ((s.stopWork c).modCtx c (fun x =>
      { x with st := .faulted, hasFault := true, faultRecord := record, yieldRequests := [], graceFrom := none })).completeAll 0x05
        (s.ctx c).yieldRequests 2 :=
  if_pos (by simpa [hf] using hst)

/-- What the context is then. -/
theorem State.ctx_contextFault_first {s : State} {c : Nat} (hst : (s.ctx c).st = .running ∨ (s.ctx c).st = .preempting)
    (hf : (s.ctx c).hasFault = false) (record : BitVec 256) :
    ((s.contextFault c record).ctx c).st = .faulted ∧ ((s.contextFault c record).ctx c).hasFault = true ∧
      ((s.contextFault c record).ctx c).faultRecord = record := by
  rw [State.contextFault_first hst hf, State.ctx_completeAll, State.ctx_modCtx_self]
  exact ⟨rfl, rfl, rfl⟩

/-- A trap of a user-mode hart that its handler cannot take is a context fault. -/
theorem State.takeTrap_faults {s : State} {h : HartId} (hu : (s.hart h).machine = false)
    (ht : (s.hart h).inHandler = true ∨ (s.hart h).trapsEnabled = false) (async : Bool) (code detail : Nat) (v : Word) :
    s.takeTrap h async code detail v = s.contextFault (s.ctxOf h.tile)
      (faultRecordOf v (causeWord async code detail (s.ctileOf h.tile)) (s.hart h).pc (if (s.hart h).inHandler then 2 else 1) h.move
        (s.ctileOf h.tile)) := by
  have hc : ((s.hart h).inHandler || !(s.hart h).trapsEnabled) = true := by simpa using ht
  exact (if_neg (by simp [hu])).trans (if_pos hc)

/-- Settles O23: the trap is the first fault of its context. -/
theorem trapInHandlerFaultsTheContext : Obligations.TrapInHandlerFaultsTheContext := by
  unfold Obligations.TrapInHandlerFaultsTheContext
  intro s h async code detail v hu ht c hst hf
  dsimp only
  rw [State.takeTrap_faults hu ht]
  exact State.ctx_contextFault_first (.inl hst) hf _

/-! ## Services -/

section
variable {s : State} {h : HartId} {f : State → HartId → State}

theorem State.callService_user (hu : (s.hart h).machine = false) : s.callService h f = f s h := if_neg (by simp [hu])

theorem State.callService_machine (hm : (s.hart h).machine = true) : s.callService h f = s.takeTrap h false 11 0 0 := if_pos hm

theorem servicePost_room (hl : (s.ctx (s.ctxOf h.tile)).mailbox.length < 16) : servicePost s h =
    ((s.modCtx (s.ctxOf h.tile) (fun x => { x with mailbox := x.mailbox ++ [s.readX h 10] })).writeX h 10 0).retire h
      ((s.hart h).pc + 4) := by
  simp only [servicePost, State.post, if_pos hl]

theorem servicePost_full (hl : 16 ≤ (s.ctx (s.ctxOf h.tile)).mailbox.length) :
    servicePost s h = (s.writeX h 10 1).retire h ((s.hart h).pc + 4) := by
  simp only [servicePost, State.post, if_neg (Nat.not_lt.mpr hl)]

end

/-- Settles O25: in user mode each row is its service, in machine mode each is the trap of an environment call. -/
theorem serviceResults : Obligations.ServiceResults := by
  unfold Obligations.ServiceResults
  refine ⟨fun s => ?_, fun s => ?_, fun s hm i hi => ?_⟩
  · intro h c next hu
    refine ⟨?_, fun hl => ?_, fun hl => ?_, ?_⟩
    · exact congrArg _ (State.callService_user hu)
    · exact congrArg _ ((State.callService_user hu).trans (servicePost_room hl))
    · exact congrArg _ ((State.callService_user hu).trans (servicePost_full hl))
    · exact congrArg _ (State.callService_user hu)
  · intro h c hu hst hf
    obtain ⟨hfaulted, -, hrecord⟩ := State.ctx_contextFault_first (.inl hst) hf
      (faultRecordOf (s.readX h 10) 0 (s.hart h).pc 3 h.move (s.ctileOf h.tile))
    exact ⟨_, congrArg Host.Outcome.next (State.callService_user hu), hfaulted, hrecord⟩
  · simp only [List.mem_cons, List.not_mem_nil, or_false] at hi
    obtain rfl | rfl | rfl | rfl | rfl := hi <;> exact congrArg _ (State.callService_machine hm)

end Sys2Proof.Machine
end

section
/-! Writes of control registers and of `rndtile` (R40, R42, R116, R140, R141, R158, R216, R251, R403). -/

namespace Sys2Proof.Machine

open Sys2Proof.Claims

@[simp] theorem Hart.writeX_run (x : Hart) (r : Reg) (v : Word) : (x.writeX r v).run = x.run := by
  unfold Hart.writeX; split <;> rfl

section
variable {s u : State} {c : CsrOp} {n : Nat} {old : Word} (hn : c.csr.toNat = n)
include hn

/-- A write that leaves its hart running gives rd the old value and goes on. -/
theorem exec_csrWrite_retires (hr : readCsr s s.me n = some old)
    (hw : writeCsr s s.me c.kind n (csrOperand c (s.hart s.me)) = some u) (hrun : (u.hart s.me).run = .running) (hc : n ≠ 0xB02) :
    exec (.csrWrite c) s = .next ((u.writeX s.me c.rd old).retire s.me ((s.hart s.me).pc + 4)) := by
  have hx : ((u.writeX s.me c.rd old).hart s.me).run = .running := by simp [State.writeX, hrun]
  simp only [exec_csrWrite, execCsrWrite, csrWriteStep, hn, hr, hw, hx, State.retireCsr, if_neg hc]

/-- A write that stalls its hart at a recovery gives rd the old value; the hart retires later. -/
theorem exec_csrWrite_stalls {q : BitVec 2} {flush : Bool} (hr : readCsr s s.me n = some old)
    (hw : writeCsr s s.me c.kind n (csrOperand c (s.hart s.me)) = some u) (hrun : (u.hart s.me).run = .waiting (.qrec q flush)) :
    exec (.csrWrite c) s = .next (u.writeX s.me c.rd old) := by
  have hx : ((u.writeX s.me c.rd old).hart s.me).run = .waiting (.qrec q flush) := by simp [State.writeX, hrun]
  simp only [exec_csrWrite, execCsrWrite, csrWriteStep, hn, hr, hw, hx]

theorem exec_csrWrite_illegal (hw : writeCsr s s.me c.kind n (csrOperand c (s.hart s.me)) = none) :
    exec (.csrWrite c) s = .next (s.illegalAt s.me) := by
  simp only [exec_csrWrite, execCsrWrite, csrWriteStep, hn, hw]
  cases readCsr s s.me n <;> rfl

/-- A write of a register of the hart. -/
theorem exec_csrWrite_hart {x : Hart} (hr : readCsr s s.me n = some old)
    (hw : writeCsr s s.me c.kind n (csrOperand c (s.hart s.me)) = some (s.setHart s.me x)) (hrun : x.run = .running) (hc : n ≠ 0xB02) :
    exec (.csrWrite c) s = .next (((s.setHart s.me x).writeX s.me c.rd old).retire s.me ((s.hart s.me).pc + 4)) :=
  exec_csrWrite_retires hn hr hw (by rw [State.hart_setHart_self, hrun]) hc

/-- A write of a register of the tile, which leaves the harts. -/
theorem exec_csrWrite_tile {f : TileCtx → TileCtx} (hr : readCsr s s.me n = some old)
    (hw : writeCsr s s.me c.kind n (csrOperand c (s.hart s.me)) = some (s.modTc s.me.tile f))
    (hf : ∀ k m, (f k).hart m = k.hart m) (hrun : (s.hart s.me).run = .running) (hc : n ≠ 0xB02) :
    exec (.csrWrite c) s = .next (((s.modTc s.me.tile f).writeX s.me c.rd old).retire s.me ((s.hart s.me).pc + 4)) :=
  exec_csrWrite_retires hn hr hw (by rw [State.hart, State.tc_modTc_self, hf]; exact hrun) hc

end

section
variable {s : State}

/-- What a write of a field that writes of 1 clear leaves of it. -/
theorem w1c_eq {n : Nat} (k : CsrKind) (old v : BitVec n) : w1c k old v = if k = .rc then old else old &&& ~~~v := by
  cases k <;> rfl

/-! ## The queue that a write of `qrec` names -/

variable {q : BitVec 2} {h : HartId} {v : Word} {k : CsrKind}

/-- The queues that a hart pushes to: q0 the main hart, q1 and q2 the movement hart (R18). -/
def HartId.pushes (h : HartId) (q : BitVec 2) : Bool := (h.move && (q = 1 || q = 2)) || (!h.move && q = 0)

theorem HartId.pushes_iff (hq : q ≠ 3) : h.pushes q = true ↔ h.move = decide (q ≠ 0) := by
  unfold HartId.pushes
  generalize h.move = m
  revert m q; decide

theorem HartId.pushes_false (hq : q = 3 ∨ h.move = decide (q = 0)) : h.pushes q = false := by
  unfold HartId.pushes
  generalize h.move = m at hq
  revert m q; decide

/-- A write of `qrec` other than by `csrrc` names a queue. -/
theorem writeCsr_qrec (hk : k ≠ .rc) : writeCsr s h k 0x8CA v =
    if h.pushes (bits v 0 2) then
      some (if (s.queue h.tile (bits v 0 2).toNat).faulted then s.setWait h (.qrec (bits v 0 2) (v.getLsbD 8)) else s)
    else none := by
  cases k with
  | rc => exact absurd rfl hk
  | rw => rfl
  | rs => rfl

/-- A read-only register takes no write in either mode. -/
theorem writeCsr_readOnly {n : Nat} (hn : n = 0x8C6 ∨ n = 0xC00 ∨ n = 0xCC5) : writeCsr s h k n v = none := by
  obtain rfl | rfl | rfl := hn <;> exact (ite_self _ : (if (s.hart h).machine then none else none) = none)

end

/-! ## `ctxstat` -/

theorem getLsbD_putBit (w : Word) (n i : Nat) (b : Bool) (hn : n < 64) :
    (putBit w n b).getLsbD i = if i = n then b else w.getLsbD i := by
  have hp : (BitVec.ofNat 64 (2 ^ n)).getLsbD i = (decide (i < 64) && decide (n = i)) := by
    rw [BitVec.getLsbD_ofNat, Nat.testBit_two_pow]
  have hi : 64 ≤ i → w.getLsbD i = false := BitVec.getLsbD_of_ge w i
  cases b
  · simp only [putBit, Bool.false_eq_true, if_false, BitVec.getLsbD_and, BitVec.getLsbD_not, hp]
    grind
  · simp only [putBit, if_true, BitVec.getLsbD_or, hp]
    grind

/-- Of `ctxstat` a write changes CE alone (R141). -/
theorem writeCsr_ctxstat (s : State) (h : HartId) (k : CsrKind) (v : Word) : writeCsr s h k 0x8C9 v = some (s.setHart h
    { s.hart h with ctxstat := putBit (s.hart h).ctxstat 5 ((csrNew k (s.hart h).ctxstat v).getLsbD 5) }) := rfl

/-! ## `rndtile` -/

/-- A tile whose generators are seeded afresh. -/
def TileCtx.reseeded (k : TileCtx) (v : Word) : TileCtx := { k with gen1 := seed v 0 1, gen2 := seed v 0 2, reseed1 := [], reseed2 := [] }

@[simp] theorem TileCtx.hart_reseeded (k : TileCtx) (v : Word) (m : Bool) : (k.reseeded v).hart m = k.hart m := by cases m <;> rfl

theorem exec_rndtileWrite_empty {s : State} {c : CsrOp} (hm : s.me.move = false) (hk : c.kind ≠ .rc)
    (hq : (s.tc s.me.tile).q0.entries = []) : exec (.rndtileWrite c) s =
      .next ((s.modTc s.me.tile (fun k => k.reseeded (csrOperand c (s.hart s.me)))).result s.me c.rd 0) := by
  simp [exec_rndtileWrite, execRndtileWrite, hm, hk, State.modTc, hq, TileCtx.reseeded]

/-- A result changes of its tile's state one hart. -/
theorem State.tc_result (s : State) (h : HartId) (rd : Reg) (v : Word) :
    ∃ x, (s.result h rd v).tc h.tile = (s.tc h.tile).setHart h.move x := by
  simp [State.result, State.retire, State.writeX, State.modHart, State.setHart]

/-- Settles O26: each register by what a write of it makes of its hart or tile. -/
theorem csrResults : Obligations.CsrResults := by
  unfold Obligations.CsrResults
  refine ⟨fun s c => ?_, fun s c => ⟨fun hm => if_pos hm, fun hm hk hq => ?_⟩⟩
  · have hclear {n : Nat} (old w : BitVec n) : w1c c.kind old w = if c.kind = .rc then old else old &&& ~~~w := w1c_eq _ _ _
    have hharts {k l : TileCtx} (h0 : l.main = k.main) (h1 : l.move = k.move) (m : Bool) : l.hart m = k.hart m := by
      cases m <;> assumption
    have toNat {n : BitVec 12} (hc : c.csr = n) : c.csr.toNat = n.toNat := congrArg BitVec.toNat hc
    refine ⟨fun hrun hc => exec_csrWrite_hart (toNat hc) rfl rfl hrun (by decide),
      fun hrun hc => exec_csrWrite_hart (toNat hc) rfl rfl hrun (by decide),
      fun hrun hc => exec_csrWrite_hart (toNat hc) rfl rfl hrun (by decide), fun hrun hc => ?_, fun hrun hc => ?_, fun hrun hc => ?_,
      fun hrun hc => ?_, fun hrun hc hk => ⟨fun h3 hm hf => ?_, fun h3 hm hf => ?_, fun hm => ?_⟩, fun hc => ?_⟩
    · refine ⟨_, exec_csrWrite_hart (toNat hc) rfl (writeCsr_ctxstat ..) hrun (by decide), fun i hi => ?_, ?_, ?_, fun hrd => ?_⟩
      · simp [State.writeX, getLsbD_putBit, hi]
      · rw [State.hart_retire_self]
        simp only [State.writeX, State.hart_modHart_self, Hart.writeX_ctxstat, State.hart_setHart_self]
        exact getLsbD_putBit _ 5 5 _ (by omega)
      · simp
      · rw [State.readX_retire, State.readX_writeX, if_neg hrd, if_pos rfl]
    · simp only [← hclear]
      exact exec_csrWrite_tile (toNat hc) rfl rfl (fun _ => hharts rfl rfl) hrun (by decide)
    · simp only [← hclear]
      exact exec_csrWrite_tile (toNat hc) rfl rfl (fun _ => hharts rfl rfl) hrun (by decide)
    · simp only [← hclear]
      exact exec_csrWrite_tile (toNat hc) rfl rfl (fun _ => hharts rfl rfl) hrun (by decide)
    · have hw := writeCsr_qrec (s := s) (h := s.me) (v := csrOperand c (s.hart s.me)) hk
      rw [if_pos ((HartId.pushes_iff h3).2 hm), if_pos hf] at hw
      exact exec_csrWrite_stalls (toNat hc) rfl hw (by rw [State.setWait, State.hart_modHart_self])
    · have hw := writeCsr_qrec (s := s) (h := s.me) (v := csrOperand c (s.hart s.me)) hk
      rw [if_pos ((HartId.pushes_iff h3).2 hm), if_neg (by simp [hf])] at hw
      exact exec_csrWrite_retires (toNat hc) rfl hw hrun (by decide)
    · have hw := writeCsr_qrec (s := s) (h := s.me) (v := csrOperand c (s.hart s.me)) hk
      rw [HartId.pushes_false hm] at hw
      exact exec_csrWrite_illegal (toNat hc) hw
    · exact exec_csrWrite_illegal rfl (writeCsr_readOnly (hc.imp toNat (Or.imp toNat toNat)))
  · obtain ⟨x, hx⟩ := (s.modTc s.me.tile (fun k => k.reseeded (csrOperand c (s.hart s.me)))).tc_result s.me c.rd 0
    have hsame : (s.modTc s.me.tile (fun k => k.reseeded (csrOperand c (s.hart s.me)))).hart s.me = s.hart s.me := by
      rw [State.hart, State.tc_modTc_self, TileCtx.hart_reseeded, State.hart]
    refine ⟨_, exec_rndtileWrite_empty hm hk hq, ?_, ?_, ?_, fun r hr => ?_, rfl⟩
    · rw [hx, State.tc_modTc_self, hm]; rfl
    · rw [hx, State.tc_modTc_self, hm]; rfl
    · rw [State.result, State.hart_retire_self, hsame]
    · rw [State.readX_result, if_neg hr, State.readX, hsame]
      split
      · subst_vars; rfl
      · rfl

end Sys2Proof.Machine
end

section
/-! What reads at homes change of contexts: what they count for them, and no more, where lines hold upsets too (R79, R87 to R89, R340,
R343). -/

namespace Sys2Proof.Machine

open Sys2Proof.Claims

theorem State.ctx_congr {s u : State} (h : u.ctxs = s.ctxs) (c : Nat) : u.ctx c = s.ctx c := by
  unfold State.ctx; rw [h]

/-- Of its contexts a state has changed only the counts of lost lines, of accesses and of lost installs. -/
def Recounted (s u : State) : Prop :=
  ∀ c, u.ctx c = { s.ctx c with ecc := (u.ctx c).ecc, hot := (u.ctx c).hot, lostInstalls := (u.ctx c).lostInstalls }

namespace Recounted

theorem of_ctxs {s u : State} (h : u.ctxs = s.ctxs) : Recounted s u := fun c => by rw [State.ctx_congr h]

theorem refl (s : State) : Recounted s s := of_ctxs rfl

theorem trans {s t u : State} (h : Recounted s t) (k : Recounted t u) : Recounted s u := fun c => (k c).trans (by rw [h c])

theorem foldl {α : Type} {f : State → α → State} (hf : ∀ s a, Recounted s (f s a)) (l : List α) (s : State) :
    Recounted s (l.foldl f s) := by
  induction l generalizing s with
  | nil => exact refl s
  | cons a l ih => exact (hf s a).trans (ih _)

theorem modCtx (s : State) (c : Nat) {f : Context → Context}
    (hf : ∀ x, f x = { x with ecc := (f x).ecc, hot := (f x).hot, lostInstalls := (f x).lostInstalls }) :
    Recounted s (s.modCtx c f) := fun d => by
  rw [State.ctx_modCtx]
  split
  · subst_vars; exact hf _
  · rfl

/-- An event that is logged is no change of a context. -/
theorem logged {s u : State} (h : Recounted s u) (code : LogCode) (c : Option Nat) (place : Nat) :
    Recounted s (u.logEvent code c place) := h

end Recounted

/-! ## Writes that a read brings about -/

theorem State.ungate_ctxs (s : State) (t : Nat) : (s.ungate t).ctxs = s.ctxs := by
  unfold State.ungate; split <;> rfl

theorem State.fireWatches_ctxs (s : State) (pa : Nat) : (s.fireWatches pa).ctxs = s.ctxs := by
  refine (State.foldl_keeps State.ctxs (fun s (w : Watch) => ?_) _ _).trans (rfl : (s.ungateAt pa).ctxs = s.ctxs)
  exact State.ungate_ctxs _ w.tile

theorem State.countLostInstall_recounted (s : State) (pa : Nat) : Recounted s (s.countLostInstall pa) := by
  unfold State.countLostInstall
  split
  · refine Recounted.foldl (fun s c => ?_) _ s
    have hcount : Recounted s (s.modCtx c (fun x => { x with lostInstalls := satAdd 64 x.lostInstalls 1 })) := .modCtx s c fun _ => rfl
    exact hcount.trans (.of_ctxs rfl)
  · exact .refl s

theorem State.serve_recounted (s : State) (r : Held) : Recounted s (s.serve r) := by
  have hfree : Recounted s ((s.unhold r.tile r.move).ungate r.tile) := .of_ctxs (State.ungate_ctxs _ _)
  refine hfree.trans ?_
  generalize hu : (s.unhold r.tile r.move).ungate r.tile = u
  unfold State.serve
  dsimp only
  rw [hu]
  have hstore : Recounted u (((((u.countLostInstall r.pa).rawWrite r.pa 8 r.value.toNat).setFull r.pa true).fireWatches r.pa).discard
      r.tile (fun x => x = r.pa / 64)) :=
    (u.countLostInstall_recounted r.pa).trans (.of_ctxs ((State.fireWatches_ctxs _ _).trans (State.rawWrite_ctxs _ _ _ _)))
  split
  · exact .of_ctxs rfl
  · exact .of_ctxs rfl
  · exact hstore.trans (.of_ctxs rfl)
  · exact hstore.trans (.of_ctxs rfl)

theorem State.homeScan_recounted (s : State) (pa : Nat) : Recounted s (s.homeScan pa) := by
  unfold State.homeScan
  generalize s.held.length = n
  induction n generalizing s with
  | zero => exact .refl s
  | succ n ih =>
    rw [State.scan]
    split
    · exact (s.serve_recounted _).trans (ih _)
    · exact .refl s

/-! ## The symbol code -/

theorem State.foldFlips_ctxs (s : State) (line : Nat) (fl : List Nat) : (s.foldFlips line fl).ctxs = s.ctxs := by
  refine State.foldl_keeps State.ctxs (fun s j => ?_) _ s
  dsimp only
  split
  · rfl
  · split <;> exact State.rawWrite_ctxs _ _ _ _

theorem State.retireBank_ctxs (s : State) (b : Nat) : (s.retireBank b).ctxs = s.ctxs := by
  unfold State.retireBank
  dsimp only
  split <;> split <;> simp

theorem State.countCorrected_ctxs (s : State) (b : Nat) : (s.countCorrected b).ctxs = s.ctxs := by
  unfold State.countCorrected
  dsimp only
  split
  · exact State.retireBank_ctxs _ _
  · rfl

/-- A line that is lost counts for one context. -/
theorem State.countEcc_recounted (s : State) (c : Option Nat) :
    Recounted s (match c with | some c => s.modCtx c (fun x => { x with ecc := satAdd 64 x.ecc 1 }) | none => s) := by
  cases c with
  | none => exact .refl s
  | some c => exact .modCtx s c fun _ => rfl

theorem State.loseLine_recounted (s : State) (who : Option Nat) (line b : Nat) : Recounted s (s.loseLine who line b) := by
  have hzero : Recounted s ((List.range 8).foldl (fun (s : State) i =>
      (s.rawWrite (line * 64 + 8 * i) 8 0).setFull (line * 64 + 8 * i) true) (s.clearFlips line)) :=
    .trans (.of_ctxs (State.clearFlips_ctxs _ _)) (.foldl (fun s i =>
      .of_ctxs ((State.setFull_ctxs _ _ _).trans (s.rawWrite_ctxs (line * 64 + 8 * i) 8 0))) _ _)
  unfold State.loseLine
  extract_lets c s1 s2 b0 s3 s4
  have hcount : Recounted s s2 := hzero.trans (s1.countEcc_recounted c)
  have hbank : Recounted s s3 := hcount
  have hlog : Recounted s s4 := hbank.logged _ _ _
  refine hlog.trans (.foldl (fun u i => ?_) _ s4)
  exact (Recounted.of_ctxs (u.fireWatches_ctxs (line * 64 + 8 * i))).trans (State.homeScan_recounted _ _)

theorem State.loseFarLine_recounted (s : State) (who : Option Nat) (line : Nat) : Recounted s (s.loseFarLine who line) := by
  have hzero : Recounted s ((List.range 8).foldl (fun (s : State) i => s.rawWrite (line * 64 + 8 * i) 8 0) (s.clearFlips line)) :=
    .trans (.of_ctxs (State.clearFlips_ctxs _ _)) (.foldl (fun s i => .of_ctxs (s.rawWrite_ctxs (line * 64 + 8 * i) 8 0)) _ _)
  unfold State.loseFarLine
  exact (hzero.trans (State.countEcc_recounted _ _)).logged _ _ _

theorem State.touch_recounted (s : State) (c : Option Nat) (line : Nat) : Recounted s (s.touch c line) := by
  unfold State.touch
  dsimp only
  split
  · split
    · exact .refl s
    · exact s.loseFarLine_recounted c line
  · split
    · exact .refl s
    · split
      · exact s.loseLine_recounted c line _
      · have hfold := Recounted.of_ctxs ((s.clearFlips line).foldFlips_ctxs line ‹List Nat›)
        split
        · exact hfold.trans (.of_ctxs (State.countCorrected_ctxs _ _))
        · exact hfold

/-! ## Walks and reads of the device -/

theorem State.touchWalk_recounted (s : State) (c va n level table : Nat) : Recounted s (s.touchWalk c va n level table) := by
  induction n generalizing s level table with
  | zero => exact .refl s
  | succ n ih =>
    have hentry : Recounted s (if s.fitted (table + 8 * levelIndex level va) then s.touch (some c) ((table + 8 * levelIndex level va) / 64)
        else s.countUnmapped (some c) (table + 8 * levelIndex level va)) := by
      split
      · exact s.touch_recounted _ _
      · exact .of_ctxs rfl
    rw [State.touchWalk]
    generalize (if s.fitted (table + 8 * levelIndex level va) then s.touch (some c) ((table + 8 * levelIndex level va) / 64)
      else s.countUnmapped (some c) (table + 8 * levelIndex level va)) = u at hentry ⊢
    split
    · exact hentry.trans (ih _ _ _)
    · exact hentry

theorem State.homeRead_recounted (s : State) (c : Option Nat) (pa n : Nat) : Recounted s (s.homeRead c pa n).1 := by
  unfold State.homeRead
  split
  · exact s.touch_recounted _ _
  · split
    · unfold State.stage
      dsimp only
      split <;> exact .of_ctxs rfl
    · exact .of_ctxs rfl
  · split
    · exact s.touch_recounted _ _
    · exact .of_ctxs rfl

theorem State.directRead_recounted (s : State) (c : Nat) (l : Leaf) (n : Nat) : Recounted s (s.directRead c l n).1 := by
  refine Recounted.trans ?_ (State.homeRead_recounted _ _ _ _)
  split
  · exact .modCtx s c fun _ => rfl
  · exact .refl s

theorem State.touchVirt_recounted (s : State) (c va n : Nat) : Recounted s (s.touchVirt c va n) := by
  refine .foldl (fun s i => (s.touchWalk_recounted c (va / 64 * 64 + 64 * i) 4 0 (s.ctx c).cfg.ptroot).trans ?_) _ s
  dsimp only
  split
  · exact State.directRead_recounted _ _ _ _
  · exact .refl _

/-- Reading a launch record only counts. -/
theorem State.touchLaunch_recounted (s : State) (c a : Nat) : Recounted s (s.touchLaunch c a) := by
  unfold State.touchLaunch
  split
  · exact .refl s
  · dsimp only
    split
    · exact s.touchVirt_recounted _ _ _
    · exact (s.touchVirt_recounted _ _ _).trans ((State.touchVirt_recounted _ _ _ _).trans (State.touchVirt_recounted _ _ _ _))

end Sys2Proof.Machine
end

section
/-! Creation, records, commits, launches and the closing of queues (R126, R166 to R168, R378 to R380, R383). -/

namespace Sys2Proof.Machine

open Sys2Proof.Claims

/-! ## Creation and records -/

section
variable {s : State} {q : Request}

theorem exec_create_free {c : Nat} (hr : q.rsv = 0)
    (hc : (List.range Config.nContexts).find? (fun c => ((taken s).ctx c).st = .free) = some c) :
    exec (.create q) s = .next (answered s 0x01 q 0 (BitVec.ofNat 64 c) ((taken s).modCtx c (fun x => x.renew .assembling))) := by
  rw [exec_create, execCreate]
  exact runRequest_answer hr (by rw [hc])

theorem exec_create_none (hr : q.rsv = 0)
    (hc : (List.range Config.nContexts).find? (fun c => ((taken s).ctx c).st = .free) = none) :
    exec (.create q) s = .next (answered s 0x01 q 3 0 (taken s)) := by
  rw [exec_create, execCreate]
  exact runRequest_answer hr (by rw [hc]; rfl)

/-- A well-formed record goes to a context that is being assembled, or waits for the next launch of a resident one. -/
theorem exec_writeRecord_stored {x : CtxRecord} (ha : Accepts q (fun x => x.st = .assembling || x.st = .resident) s)
    (hx : recordOf ((takenFor q s).hostWord (q.word 1)) = some x)
    (hfits : ((takenFor q s).ctx q.ctx.toNat).st = .assembling ∨ x.fits (4 * ((takenFor q s).ctx q.ctx.toNat).width) = true) :
    exec (.writeRecord q) s = .next (answered s 0x02 q 0 0 ((takenFor q s).modCtx q.ctx.toNat (fun y =>
      if y.st = .assembling then { y with cfg := x } else { y with written := some x }))) := by
  have hc : ¬ (decide (((takenFor q s).ctx q.ctx.toNat).st = .resident) && !x.fits (4 * ((takenFor q s).ctx q.ctx.toNat).width)) = true := by
    rcases hfits with h | h <;> rw [h] <;> simp
  rw [exec_writeRecord, execWriteRecord]
  refine runOnContext_answer ha ?_
  simp only [hx, if_neg hc]
  rfl

/-! ## Commits -/

/-- A context that has its clusters: resident, with its timelines and `ctxclip` at zero. -/
def Context.committed (x : Context) (l : List Nat) : Context :=
  { x with st := .resident, clusters := l, width := l.length, tlr := 0, tli := 0, tlm := 0, clip := 0 }

/-- Context c stands on the clusters of a list, whose tiles and anvils start afresh (R127). -/
def State.placed (s : State) (c : Nat) (l : List Nat) : State :=
  let u := s.modCtx c (fun x => x.committed l)
  let ts := (u.ctx c).tiles
  l.foldl (fun (s : State) k => s.setAnvil k {}) ((ts.zip (List.range ts.length)).foldl (fun (s : State) p =>
    s.setTile p.1 { owner := some (c, p.2), shadow := (s.tile p.1).shadow }) u)

theorem State.placed_mem (s : State) (c : Nat) (l : List Nat) : (s.placed c l).mem = s.mem := by
  refine (State.foldl_mem ?_ _ _).trans ((State.foldl_mem ?_ _ _).trans rfl) <;> exact fun _ _ => rfl

theorem State.ctx_placed (s : State) (c : Nat) (l : List Nat) : (s.placed c l).ctx c = (s.ctx c).committed l := by
  have h : (s.placed c l).ctxs = (s.modCtx c (fun x => x.committed l)).ctxs := by
    refine (State.foldl_keeps State.ctxs ?_ _ _).trans (State.foldl_keeps State.ctxs ?_ _ _) <;> exact fun _ _ => rfl
  rw [State.ctx_congr h, State.ctx_modCtx_self]

theorem exec_commit_free {l : List Nat} (ha : Accepts q (fun x => x.st = .assembling) s) (hw : s.commitWaits q = false)
    (hl : (takenFor q s).clusterList q = some l) (ht : (takenFor q s).clustersTaken q.ctx.toNat l = false)
    (hf : ((takenFor q s).ctx q.ctx.toNat).cfg.fits (4 * l.length) = true) :
    exec (.commit q) s = .next (answered s 0x03 q 0 0 ((takenFor q s).placed q.ctx.toNat l)) := by
  rw [exec_commit, execCommit]
  dsimp only
  rw [if_neg (by simp [hw])]
  refine runOnContext_answer ha ?_
  simp only [hl, ht, hf, Bool.false_eq_true, if_false, Bool.not_true]
  rfl

theorem exec_commit_taken {l : List Nat} (ha : Accepts q (fun x => x.st = .assembling) s) (hw : s.commitWaits q = false)
    (hl : (takenFor q s).clusterList q = some l) (ht : (takenFor q s).clustersTaken q.ctx.toNat l = true) :
    exec (.commit q) s = .next (answered s 0x03 q 3 0 (takenFor q s)) := by
  rw [exec_commit, execCommit]
  dsimp only
  rw [if_neg (by simp [hw])]
  refine runOnContext_answer ha ?_
  simp only [hl, ht, if_true]
  rfl

theorem exec_commit_waits (hw : s.commitWaits q = true) : exec (.commit q) s = .next s := if_pos hw

end

theorem SMap.mem_of_find? {α : Type} {m : SMap α} {k : Nat} {v : α} (h : SMap.find? m k = some v) : (k, v) ∈ m := by
  induction m with
  | nil => cases h
  | cons p m ih =>
    unfold SMap.find? at h
    split at h
    · subst_vars
      obtain rfl := Option.some.inj h
      exact List.mem_cons_self
    · exact List.mem_cons_of_mem _ (ih h)

/-- A context with anything in it is listed. -/
theorem State.mem_ctxs {s : State} {c : Nat} (h : s.ctx c ≠ {}) : (c, s.ctx c) ∈ s.ctxs := by
  unfold State.ctx SMap.get at *
  cases hf : SMap.find? s.ctxs c with
  | none => rw [hf] at h; exact absurd rfl h
  | some x => exact SMap.mem_of_find? hf

/-- A cluster that another context holds or is about to hold is taken (R122). -/
theorem State.clustersTaken_of_mem {s : State} {a d n : Nat} {l : List Nat} (hd : a ≠ d) (hn : n ∈ l)
    (h : n ∈ (s.ctx d).coming ∨ (s.ctx d).st = .running ∧ n ∈ (s.ctx d).clusters) : s.clustersTaken a l = true := by
  have hmem : (d, s.ctx d) ∈ s.ctxs := State.mem_ctxs fun h0 => by
    rw [h0] at h
    rcases h with h | ⟨-, h⟩ <;> exact List.not_mem_nil h
  have hheld : s.ctxs.any (fun p => p.1 ≠ a && ((p.2.holds && p.2.clusters.any l.contains) || p.2.coming.any l.contains)) = true := by
    refine List.any_eq_true.2 ⟨_, hmem, ?_⟩
    rcases h with h | ⟨hst, h⟩
    · have : (s.ctx d).coming.any l.contains = true := List.any_eq_true.2 ⟨n, h, by simpa using hn⟩
      simp [this, Ne.symm hd]
    · have : (s.ctx d).clusters.any l.contains = true := List.any_eq_true.2 ⟨n, h, by simpa using hn⟩
      simp [this, Ne.symm hd, Context.holds, hst]
  rw [State.clustersTaken, hheld]
  simp

/-! ## Launches -/

/-- A run that changes what contexts have on tiles changes tiles alone. -/
theorem State.foldl_modTc_frame {α : Type} (t : α → Nat) (f : α → TileCtx → TileCtx) (l : List α) (s : State) :
    ∃ tiles, l.foldl (fun (s : State) a => s.modTc (t a) (f a)) s = { s with tiles := tiles } := by
  induction l generalizing s with
  | nil => exact ⟨_, rfl⟩
  | cons a l ih =>
    obtain ⟨tiles, h⟩ := ih (s.modTc (t a) (f a))
    exact ⟨tiles, h⟩

theorem State.setDrained_frame (s : State) (c : Nat) (b : Bool) : ∃ tiles, s.setDrained c b = { s with tiles := tiles } :=
  State.foldl_modTc_frame id _ _ s

/-- Seeding leaves memory, and notes in the context alone that it has been done. -/
theorem State.seedTiles_frame (s : State) (c : Nat) :
    (s.seedTiles c).mem = s.mem ∧ (s.seedTiles c).ctx c = { s.ctx c with seeded := true } := by
  unfold State.seedTiles
  dsimp only
  split
  · rename_i hs
    exact ⟨rfl, by rw [← hs]⟩
  · obtain ⟨tiles, h⟩ := State.foldl_modTc_frame (fun p : Nat × Nat => p.1) (fun p m =>
      { m with gen1 := seed (s.ctx c).cfg.rndseed p.2 1, gen2 := seed (s.ctx c).cfg.rndseed p.2 2 })
      ((s.ctx c).tiles.zip (List.range (s.ctx c).tiles.length)) s
    rw [h, State.ctx_modCtx_self]
    exact ⟨rfl, rfl⟩

/-- A context that runs, with one more kernel declared. -/
def Context.launching (x : Context) (k : Kernel) (digest : BitVec 512) : Context :=
  { x with st := .running, waiting := x.waiting ++ [k], launchDigest := digest }

/-- Context c runs and its declared kernel waits to be loaded, at once where no other is alive (R166). -/
def State.launched (s : State) (c : Nat) (k : Kernel) (resident busy : Bool) : State :=
  let u := if resident then s.setDrained c false else s
  let v := (u.modCtx c (fun x => x.launching k (sha3 (s.launchBytes c k)))).seedTiles c
  if busy then v else v.later (.kernelLoad c)

theorem State.launched_frame (s : State) (c : Nat) (k : Kernel) (resident busy : Bool) :
    (s.launched c k resident busy).mem = s.mem ∧ ((s.launched c k resident busy).ctx c).st = .running ∧
      ((s.launched c k resident busy).ctx c).waiting = (s.ctx c).waiting ++ [k] := by
  unfold State.launched
  extract_lets u v
  have hu : ∃ tiles, u = { s with tiles := tiles } := by
    unfold u
    split
    · exact s.setDrained_frame c false
    · exact ⟨_, rfl⟩
  obtain ⟨tiles, hu⟩ := hu
  obtain ⟨hm, hc⟩ := State.seedTiles_frame (u.modCtx c (fun x => x.launching k (sha3 (s.launchBytes c k)))) c
  have hmem : v.mem = s.mem := hm.trans (by rw [hu]; rfl)
  have hctx : v.ctx c = { (s.ctx c).launching k (sha3 (s.launchBytes c k)) with seeded := true } := by
    rw [hc, State.ctx_modCtx_self, hu]; rfl
  have hlater : ∀ i, (v.later i).mem = v.mem ∧ (v.later i).ctx c = v.ctx c := fun _ => ⟨rfl, rfl⟩
  split
  · rw [hctx]; exact ⟨hmem, rfl, rfl⟩
  · obtain ⟨hlm, hlc⟩ := hlater (.kernelLoad c)
    rw [hlm, hlc, hctx]; exact ⟨hmem, rfl, rfl⟩

/-- How many launches can wait at a context: five, or four beside a kernel that is alive (R166). -/
def Context.launchRoom (x : Context) : Nat := if (x.kernel.map Kernel.alive).getD false then 4 else 5

section
variable {s v : State} {q : Request} (ha : Accepts q (fun x => x.st = .resident || x.st = .running) s)
  (hv : ((takenFor q s).takeRecord q.ctx.toNat).touchLaunch q.ctx.toNat (q.word 1).toNat = v)
  (hroom : (v.ctx q.ctx.toNat).waiting.length < (v.ctx q.ctx.toNat).launchRoom)
include hv hroom

/-- What a launch reads of its record makes no difference to the room that it finds. -/
theorem launchRoom_untouched : ¬ (((takenFor q s).takeRecord q.ctx.toNat).ctx q.ctx.toNat).launchRoom ≤
    (((takenFor q s).takeRecord q.ctx.toNat).ctx q.ctx.toNat).waiting.length := by
  have hx := State.touchLaunch_recounted ((takenFor q s).takeRecord q.ctx.toNat) q.ctx.toNat (q.word 1).toNat q.ctx.toNat
  rw [hv] at hx
  rw [hx] at hroom
  exact Nat.not_le.mpr hroom

include ha

theorem exec_launch_refused {why : Nat} (hr : v.readLaunch q.ctx.toNat (q.word 1).toNat = .error why) :
    exec (.launch q) s = .next (answered s 0x04 q 4 (BitVec.ofNat 64 why) v) := by
  rw [exec_launch, execLaunch]
  refine runOnContext_answer ha ?_
  refine (if_neg (launchRoom_untouched hv hroom)).trans ?_
  simp only [hv, hr]

theorem exec_launch_declared {k : Kernel} (hr : v.readLaunch q.ctx.toNat (q.word 1).toNat = .ok k) :
    ∃ resident busy, exec (.launch q) s = .next (answered s 0x04 q 0 0 (v.launched q.ctx.toNat k resident busy)) := by
  refine ⟨decide ((((takenFor q s).takeRecord q.ctx.toNat).ctx q.ctx.toNat).st = .resident),
    ((((takenFor q s).takeRecord q.ctx.toNat).ctx q.ctx.toNat).kernel.map Kernel.alive).getD false, ?_⟩
  rw [exec_launch, execLaunch]
  refine runOnContext_answer ha ?_
  refine (if_neg (launchRoom_untouched hv hroom)).trans ?_
  simp only [hv, hr, State.answer, State.launched, decide_eq_true_eq]
  rfl

end

/-! ## Closing of queues -/

/-- A kernel with queue j closed, or with all of them for j = 0xFF. -/
def Kernel.shut (k : Kernel) (j : Nat) : Kernel :=
  { k with queues := (k.queues.zip (List.range k.queues.length)).map (fun p =>
      if j = 0xFF || p.2 = j then { p.1 with isOpen := false } else p.1) }

theorem exec_closeQueue_alive {s : State} {q : Request} {k : Kernel} (ha : Accepts q Context.live s)
    (hk : ((takenFor q s).ctx q.ctx.toNat).kernel = some k) (halive : k.alive = true)
    (hj : (q.word 1).toNat = 0xFF ∨ (q.word 1).toNat < k.queues.length) :
    exec (.closeQueue q) s = .next (answered s 0x0E q 0 0 ((takenFor q s).modCtx q.ctx.toNat (fun x => x.modKernel (fun k =>
      if k.st = .loaded then k.shut (q.word 1).toNat else (k.shut (q.word 1).toNat).settle)))) := by
  have hc : ¬ ((q.word 1).toNat ≠ 0xFF && decide (k.queues.length ≤ (q.word 1).toNat)) = true := by
    simp only [Bool.and_eq_true, decide_eq_true_eq]
    omega
  rw [exec_closeQueue, execCloseQueue]
  refine runOnContext_answer ha ?_
  simp only [hk, halive, Bool.not_true, Bool.false_eq_true, if_false, if_neg hc]
  rfl

/-- Settles O54: each request by what it answers where its conditions hold. -/
theorem contextSetupResults : Obligations.ContextSetupResults := by
  unfold Obligations.ContextSetupResults
  refine ⟨fun s q c x l => ⟨exec_create_free, exec_create_none, exec_writeRecord_stored, fun ha hw hl ht hf => ?_, exec_commit_taken,
      fun hst hl ht he => ?_⟩, fun s a d n l => State.clustersTaken_of_mem,
    fun s q k why => ⟨fun ⟨ha, hroom⟩ hr => ?_, fun ⟨ha, hroom⟩ => exec_launch_refused ha rfl hroom, exec_closeQueue_alive⟩⟩
  · refine ⟨_, exec_commit_free ha hw hl ht hf, ?_⟩
    rw [State.ctx_placed]
    exact ⟨rfl, rfl, rfl, rfl, rfl, rfl, State.placed_mem _ _ _⟩
  · have hw : s.commitWaits q = true := by simp [State.commitWaits, hst, hl, ht, he]
    exact ⟨hw, exec_commit_waits hw⟩
  · obtain ⟨resident, busy, hexec⟩ := exec_launch_declared ha rfl hroom hr
    obtain ⟨hmem, hst, hwaiting⟩ := State.launched_frame _ q.ctx.toNat k resident busy
    exact ⟨_, hexec, hst, hwaiting, hmem⟩

end Sys2Proof.Machine
end

section
/-! Why `ContextEndResults` fails: its clause on teardowns gives up the clusters that a restore was to take in every state, and the model
only where a restore is in progress. -/

namespace Sys2Proof.Machine

open Sys2Proof.Claims

/-- Context 0 is being assembled; no restore of it is in progress, and clusters are listed for one all the same. -/
def strayComing : State := { State.reset with ctxs := [(0, { st := .assembling, coming := [0] })] }

/-- A teardown of context 0. -/
def tearZero : Request := { ctx := 0, rsv := 0, tag := 0, args := 0 }

theorem strayComing_accepts : Accepts tearZero (fun x => x.st ≠ .free && x.st ≠ .tornDown) strayComing := by
  unfold Accepts; decide +kernel

/-- The clusters that an outcome leaves listed for a restore of context 0. -/
def comingOf (o : Host.Outcome State Fault Refusal) : Option (List Nat) :=
  match o with
  | .next t => some (t.ctx 0).coming
  | _ => none

/-- The teardown leaves the list. -/
theorem comingOf_teardown : comingOf (exec (.teardown tearZero) strayComing) = some [0] := by decide +kernel

/-- Refutes O55: a teardown of a context that lists clusters with no restore in progress leaves them listed. The statement wants the
premise that a context lists clusters only while a restore of it is in progress, as each step that sets or clears either field does. -/
theorem not_contextEndResults : ¬ Obligations.ContextEndResults := by
  unfold Obligations.ContextEndResults
  intro h
  obtain ⟨-, hteardown, -⟩ := h strayComing tearZero 0
  obtain ⟨_, _, u, hexec, -, -, -, -, -, -, hcoming, -⟩ := hteardown strayComing_accepts
  have hleft := comingOf_teardown
  rw [hexec] at hleft
  exact absurd ((Option.some.inj hleft).symm.trans hcoming) (by decide)

end Sys2Proof.Machine
end

section
/-! Why `PreemptionResults` fails: its clause on restores has one leave memory as it was, and a restore whose saved state is lost ends in a
context fault, which cancels the copies that the context had suspended and makes their destinations unpredictable (R132, R137, R138,
R325). -/

namespace Sys2Proof.Machine

open Sys2Proof.Claims

/-! ## Stopping a tile and memory -/

theorem State.abandon_mem (s : State) (h : HartId) : (s.abandon h).mem = s.mem := by
  unfold State.abandon
  dsimp only
  split <;> rfl

theorem State.endLease_mem (s : State) (t : Nat) : (s.endLease t).mem = s.mem := by
  unfold State.endLease
  dsimp only
  split <;> rfl

theorem State.stopLease_mem (s : State) (t : Nat) : (s.stopLease t).mem = s.mem := by
  unfold State.stopLease
  dsimp only
  split
  · rfl
  · exact s.endLease_mem t

theorem State.dropLeaseRequest_mem (s : State) (t : Nat) : (s.dropLeaseRequest t).mem = s.mem := by
  unfold State.dropLeaseRequest
  dsimp only
  split <;> rfl

/-- Both harts of a tile have abandoned what they wait for. -/
def State.abandonTile (s : State) (t : Nat) : State := (s.abandon ⟨t, false⟩).abandon ⟨t, true⟩

/-- The copies that a tile cancels at once where it stops. -/
def State.stoppedCopies (s : State) (t : Nat) : List Entry :=
  ((s.abandonTile t).queue t 1).entries.filter (fun e => e.copying && !e.writesOut)

/-- A tile that stops writes to the destinations of its copies alone. -/
theorem State.stopTile_mem (s : State) (t : Nat) : (s.stopTile t).mem =
    ((s.stoppedCopies t).foldl (fun (s : State) e => s.scrambleCopy t e e.firstOpen) (s.abandonTile t)).mem :=
  (State.dropLeaseRequest_mem _ _).trans (State.stopLease_mem _ _)

theorem State.stopTile_mem_idle {s : State} {t : Nat} (h : s.stoppedCopies t = []) : (s.stopTile t).mem = s.mem := by
  rw [State.stopTile_mem, h]
  exact (State.abandon_mem _ _).trans (State.abandon_mem _ _)

theorem State.stopWork_mem (s : State) (c : Nat) :
    (s.stopWork c).mem = ((s.tilesOf c).foldl (fun (s : State) t => s.stopTile t) s).mem := rfl

/-- A copy with one element left makes that element unpredictable. -/
theorem State.scrambleCopy_one {s : State} {t c a lo : Nat} {e : Entry} {l : Leaf} (hc : s.copyContext t e = some c)
    (hn : (shapeOf (e.handle (field e.w 160 4))).count - lo = 1) (ha : s.copyTarget t e lo = some a) (hw : s.walk c a = .ok l)
    (hl : l.writable = true) (ht : l.tier ≠ 2) : s.scrambleCopy t e lo = State.tileWrite { s with fresh := s.fresh + 1 } t c l
      (elemSize (shapeOf (e.handle (field e.w 160 4))).fmt) (Config.freeWord s.fresh).toNat none := by
  unfold State.scrambleCopy
  dsimp only
  rw [hc, hn]
  simp [ha, hw, hl, ht, State.free]

/-- A byte written at its home is what is read there, where no line holds an upset and no request is held. -/
theorem State.byte_tileWrite_one {s : State} (hq : Quiet s) (hh : s.held = []) (t c v : Nat) {l : Leaf} (hl : s.takesWrite l.pa = true) :
    (s.tileWrite t c l 1 v none).byte l.pa = BitVec.ofNat 8 v := by
  have hd : (s.tileWrite t c l 1 v none).byte l.pa = (s.homeWrite (some c) l.pa 1 v none).byte l.pa := rfl
  rw [hd, (State.homeWrite_quiet hq hh (some c) 1 v hl).2]
  exact State.byte_setByte_self _ _ _

theorem lt_hostPa {a : Nat} (ha : a < Config.tierHBase) (x : Nat) : a < hostPa x := by
  unfold hostPa; omega

theorem State.byte_raiseMsix (s : State) (v a : Nat) : (s.raiseMsix v).byte a = s.byte a := rfl

/-- A completion writes no byte below the host's memory. -/
theorem State.byte_complete {a : Nat} (ha : a < Config.tierHBase) (s : State) (n op : Nat) (tag : BitVec 32) (status : Nat)
    (result : Word) : (s.complete n op tag status result).byte a = s.byte a := by
  unfold State.complete
  extract_lets r size pa phase s1 s2
  have hpa : a < pa := lt_hostPa ha _
  rw [State.byte_raiseMsix, State.byte_setRing]
  exact (State.byte_rawWrite_other s1 (pa + 8) 8 _ a (.inl (by omega))).trans (State.byte_rawWrite_other s pa 8 _ a (.inl hpa))

theorem quiet_of_no_upset_no_bank {s : State} (hf : s.flips = []) (hb : s.banks = []) : Quiet s :=
  ⟨hf, fun line => by
    have hbank : ∀ b, s.bank b = {} := fun b => by rw [State.bank, hb]; rfl
    simp [State.erasedBanks, hbank]⟩

/-! ## A restore of lost state -/

/-- Context c stands on clusters that it takes again, its saved state read back. -/
def State.stood (s : State) (c : Nat) (l : List Nat) : State :=
  let x := s.ctx c
  let ts := ({ x with clusters := l } : Context).tiles
  let u := (ts.zip (List.range ts.length)).foldl (fun (s : State) p => s.restoreTile c p.2 p.1) s
  let u := (l.zip x.savedAnvils).foldl (fun (s : State) p => s.restoreAnvil p.1 p.2) u
  State.dropSaved (u.modCtx c (fun x =>
    { x.modKernel (fun k => { k with since := u.clk, bound := k.bound.map (fun p => (p.1, { p.2 with born := k.epoch })) }) with
      clusters := l, st := if x.kernelRuns then .running else .resident })) c

theorem State.restoreContext_lost {s : State} {c : Nat} {l : List Nat} (h : s.savedLost (s.ctx c) = true) :
    s.restoreContext c l = (s.stood c l).lostSaveFault c := if_pos h

/-- A restore in progress ends once the clusters are quiet. -/
theorem exec_restore_ends {s : State} {q : Request} {p : Nat × BitVec 32} (hp : (s.ctx q.ctx.toNat).restoring = some p)
    (he : s.clustersEnding (s.ctx q.ctx.toNat).coming = false) :
    exec (.restore q) s = .next (((s.restoreContext q.ctx.toNat (s.ctx q.ctx.toNat).coming).modCtx q.ctx.toNat (fun x =>
      { x with restoring := none, coming := [] })).complete p.1 0x07 p.2 0 0) := by
  simp only [exec_restore, execRestore, hp, he]
  rfl

/-- The low byte of the first free value drawn, and a byte that it is not. -/
def drawnByte : Byte := BitVec.ofNat 8 (Config.freeWord 0).toNat
def otherByte : Byte := if drawnByte = 1 then 2 else 1

theorem drawnByte_ne_otherByte : drawnByte ≠ otherByte := by
  unfold otherByte
  split
  · rename_i h; rw [h]; decide
  · assumption

/-- A `cp.fill` that has started and is suspended: its destination is one byte at 0x200100. -/
def suspendedFill : Entry :=
  { seq := 0, w := 0xA5, h := [(0, BitVec.ofNat 1024 (0x200100 + 2 ^ 60 + 2 ^ 256 + 2 ^ 285))], st := .running,
    prog := { started := true, suspended := true } }

/-- Context 0 is swapped out, its shadow storage lost, and a restore of it to cluster 0 is in progress; its tile 0 was saved with a
suspended copy. Its page table is one table at address 0: entry 0 points to the table itself, and entry 1 maps the page at 0x200000, read
and write, to the first 2 MiB of tier S (R329, R330), where the copy's destination holds a byte that the first draw does not give. -/
def lostState : State :=
  { State.reset with
    mem := [(7, 0x80), (15, 0xC3), (0x100, otherByte)]
    tiles := [(0, { shadow := some { ctx := 0, ctile := 0, saved := { q1 := { entries := [suspendedFill], pushed := 1 } } } })]
    ctxs := [(0, { st := .swappedOut, width := 1, restoring := some (0, 0), coming := [0], saveLost := true })] }

theorem lostState_byte : lostState.byte 0x100 = otherByte := by
  simp [State.byte, lostState, SMap.get, SMap.find?]

/-- The restore of context 0. -/
def restoreZero : Request := { ctx := 0, rsv := 0, tag := 0, args := 0 }

/-- The state that the restore's context fault finds. -/
def lostStood : State := (lostState.stood 0 [0]).modCtx 0 (fun x => { x with st := .running, saveLost := false })

/-- The leaf of the copy's destination. -/
def fillLeaf : Leaf :=
  { pa := 0x100, base := 0, size := 21, tier := 0, writable := true, compressed := false, entryPa := 8, entry := 0xC300000000000000 }

theorem lostStood_stoppedCopies : lostStood.stoppedCopies 0 = [suspendedFill] := by decide +kernel

theorem lostStood_walk : (lostStood.abandonTile 0).walk 0 0x200100 = .ok fillLeaf := by
  have hleaf : ((lostStood.abandonTile 0).walk 0 0x200100).toOption = some fillLeaf := by decide +kernel
  cases hr : (lostStood.abandonTile 0).walk 0 0x200100 with
  | error k => rw [hr] at hleaf; cases hleaf
  | ok l => rw [hr] at hleaf; exact congrArg Except.ok (Option.some.inj hleaf)

/-- Where tile 0 stops, the copy's destination is the byte drawn. -/
theorem byte_stopTile_lostStood : (lostStood.stopTile 0).byte 0x100 = drawnByte := by
  have hcopy := State.scrambleCopy_one (s := lostStood.abandonTile 0) (t := 0) (c := 0) (a := 0x200100) (lo := 0) (e := suspendedFill)
    (by decide +kernel) (by decide +kernel) (by decide +kernel) lostStood_walk rfl (by decide)
  rw [show (lostStood.abandonTile 0).fresh = 0 by decide +kernel,
    show elemSize (shapeOf (suspendedFill.handle (field suspendedFill.w 160 4))).fmt = 1 by decide +kernel] at hcopy
  rw [State.byte_congr (State.stopTile_mem _ _), lostStood_stoppedCopies, List.foldl_cons, List.foldl_nil,
    show suspendedFill.firstOpen = 0 by decide +kernel, hcopy]
  exact State.byte_tileWrite_one (l := fillLeaf) (quiet_of_no_upset_no_bank (by decide +kernel) (by decide +kernel)) (by decide +kernel)
    0 0 _ (by decide +kernel)

/-- The other tiles of the cluster have no copy to cancel. -/
theorem lostStood_idle :
    let s := lostStood.stopTile 0
    s.stoppedCopies 1 = [] ∧ (s.stopTile 1).stoppedCopies 8 = [] ∧ ((s.stopTile 1).stopTile 8).stoppedCopies 9 = [] := by
  decide +kernel

/-- So the restore leaves there the byte drawn. -/
theorem byte_restoreContext_lostState : (lostState.restoreContext 0 [0]).byte 0x100 = drawnByte := by
  have hlost : lostState.restoreContext 0 [0] = lostStood.contextFault 0 (faultRecordOf 0 0 0 4 false 0) :=
    State.restoreContext_lost (by decide +kernel)
  have hstop : (lostStood.stopWork 0).mem = ((((lostStood.stopTile 0).stopTile 1).stopTile 8).stopTile 9).mem := by
    have htiles : lostStood.tilesOf 0 = [0, 1, 8, 9] := by decide +kernel
    rw [State.stopWork_mem, htiles]
    simp only [List.foldl_cons, List.foldl_nil]
  obtain ⟨h1, h8, h9⟩ := lostStood_idle
  rw [hlost, State.contextFault_first (.inl (by decide +kernel)) (by decide +kernel),
    show (lostStood.ctx 0).yieldRequests = [] by decide +kernel]
  have hnone : ∀ s : State, (s.completeAll 0x05 [] 2).byte 0x100 = s.byte 0x100 := fun _ => rfl
  rw [hnone, State.byte_modCtx]
  calc (lostStood.stopWork 0).byte 0x100
    _ = (lostStood.stopTile 0).byte 0x100 := State.byte_congr
      (hstop.trans ((State.stopTile_mem_idle h9).trans ((State.stopTile_mem_idle h8).trans (State.stopTile_mem_idle h1)))) _
    _ = drawnByte := byte_stopTile_lostStood

/-- Refutes O56: the restore of `lostState` changes the byte at 0x100, the destination of the copy that its context fault cancels. The
statement wants its clause on memory under the premise that the saved state is not lost. -/
theorem not_preemptionResults : ¬ Obligations.PreemptionResults := by
  unfold Obligations.PreemptionResults
  intro h
  obtain ⟨-, -, -, -, -, -, -, hrestore⟩ := h lostState restoreZero 0 0 []
  have hp : (lostState.ctx restoreZero.ctx.toNat).restoring = some (0, 0) := by decide +kernel
  have he : lostState.clustersEnding (lostState.ctx restoreZero.ctx.toNat).coming = false := by decide +kernel
  obtain ⟨u, hexec, -, -, hmem, -⟩ := (hrestore (0, 0) hp).2 he
  rw [exec_restore_ends hp he] at hexec
  injection hexec with hstates
  have hlow : 0x100 < Config.tierHBase := by decide
  have hbyte : drawnByte = otherByte := calc drawnByte
    _ = (lostState.restoreContext 0 [0]).byte 0x100 := byte_restoreContext_lostState.symm
    _ = u.byte 0x100 := by
      have hbytes := congrArg (fun s : State => s.byte 0x100) hstates
      dsimp only at hbytes
      rw [State.byte_complete hlow, State.byte_complete hlow, State.byte_modCtx] at hbytes
      exact hbytes
    _ = lostState.byte 0x100 := State.byte_congr hmem _
    _ = otherByte := lostState_byte
  exact drawnByte_ne_otherByte hbyte

end Sys2Proof.Machine
end

section
/-! What harts read of engines: accumulator elements, votes and the status of queues (R152, R223, R224). -/

namespace Sys2Proof.Machine

open Sys2Proof.Claims

section
variable {s : State} {rd rs1 : Reg} {a : BitVec 1} {v : BitVec 2}

/-- The main hart reads an element while no command owns the accumulators (R223). -/
theorem exec_accrd_free (hm : s.me.move = false) (he : (s.readX s.me rs1).toNat < 4096)
    (hfree : (s.tc s.me.tile).q0.entries.find? (fun x => ownsAcc x.w) = none) : exec (.accrd rd a rs1) s =
      .next (s.result s.me rd ((SMap.get 0 ((s.tc s.me.tile).acc a) (s.readX s.me rs1).toNat).setWidth 64)) := by
  rw [exec_accrd, execAccrd]
  exact hartStep_ok (by simp [hm, Nat.not_le.2 he, hfree])

/-- While one owns them, the trap names the oldest (R223). -/
theorem exec_accrd_owned {e : Entry} (hm : s.me.move = false) (he : (s.readX s.me rs1).toNat < 4096)
    (howned : (s.tc s.me.tile).q0.entries.find? (fun x => ownsAcc x.w) = some e) :
    exec (.accrd rd a rs1) s = .next (s.takeTrap s.me false 27 a.toNat e.ret) := by
  rw [exec_accrd, execAccrd]
  exact hartStep_trap (by simp [hm, Nat.not_le.2 he, howned])

theorem State.returnVote_in (h : HartId) (hv : (s.tc h.tile).votePending v = false) :
    s.returnVote h rd v = s.result h rd (SMap.get 0 (s.tc h.tile).vt v.toNat) := if_neg (by simp [hv])

theorem State.returnVote_pending (h : HartId) (hv : (s.tc h.tile).votePending v = true) :
    s.returnVote h rd v = s.setWait h (.vread rd v) := if_pos hv

/-- On the main hart `vread` gives the vote, or waits for it (R224). -/
theorem exec_vread_main (hm : s.me.move = false) : exec (.vread rd v) s = .next (s.returnVote s.me rd v) := by
  rw [exec_vread, execVread, hm]; rfl

theorem exec_vreadReturn_waiting (hw : (s.hart s.me).run = .waiting (.vread rd v)) :
    exec .vreadReturn s = .next (s.returnVote s.me rd v) := by
  rw [exec_vreadReturn, execVreadReturn, hw]

end

/-- Settles O21: an element is read or its owner named, a vote is given or awaited, and a status word is read at once. -/
theorem engineReadResults : Obligations.EngineReadResults := by
  unfold Obligations.EngineReadResults
  intro s rd rs1 a v q d h
  refine ⟨exec_accrd_free, fun e => exec_accrd_owned, fun hm hv => ?_, fun hm hv => ?_, fun hw hv => ?_, exec_qstatQ rd q s,
    exec_qstatDq rd d s⟩
  · rw [exec_vread_main hm, State.returnVote_in h hv]
  · rw [exec_vread_main hm, State.returnVote_pending h hv]
  · rw [exec_vreadReturn_waiting hw, State.returnVote_in h hv]

end Sys2Proof.Machine
end

section
/-! Waits for a queue and its recovery (R154, R155, R158, R159): what leaves a queue that is recovered, and what stays. -/

namespace Sys2Proof.Machine

open Sys2Proof.Claims

/-! ## `qsync` -/

section
variable {s : State} {q : BitVec 2}

theorem State.syncQueue_done {h : HartId} (hd : (s.queue h.tile q.toNat).pushed ≤ (s.queue h.tile q.toNat).done) :
    s.syncQueue h q = s.retire h ((s.hart h).pc + 4) := if_neg (Nat.not_lt.2 hd)

theorem State.syncQueue_left {h : HartId} (hl : (s.queue h.tile q.toNat).done < (s.queue h.tile q.toNat).pushed) :
    s.syncQueue h q = s.setWait h (.qsync q) := if_pos hl

/-- A hart waits for the queues that it pushes to (R154). -/
theorem exec_qsync_own (hq : q ≠ 3) (hm : s.me.move = decide (q ≠ 0)) : exec (.qsync q) s = .next (s.syncQueue s.me q) := by
  have h3 : ¬ q = 3#2 := hq
  rw [exec_qsync, execQsync]
  exact if_neg (by simp [hm, h3])

theorem exec_qsync_other (h : q = 3 ∨ s.me.move = decide (q = 0)) : exec (.qsync q) s = .next (s.illegalAt s.me) := by
  rw [exec_qsync, execQsync]
  exact if_pos (by simpa using h.symm)

theorem exec_qsyncReturn_waiting (hw : (s.hart s.me).run = .waiting (.qsync q)) :
    exec .qsyncReturn s = .next (s.syncQueue s.me q) := by
  rw [exec_qsyncReturn, execQsyncReturn, hw]

end

/-! ## What an update of a queue leaves -/

/-- A tile with other queues is otherwise as it was. -/
theorem TileCtx.setQueue_eq (c : TileCtx) (q : Nat) (x : CmdQueue) :
    ∃ q0 q1 q2, c.setQueue q x = { c with q0 := q0, q1 := q1, q2 := q2 } := by
  unfold TileCtx.setQueue
  split <;> [skip; split] <;> exact ⟨_, _, _, rfl⟩

/-- Queues are numbered 0 to 2. -/
theorem TileCtx.queue_setQueue_other (c : TileCtx) {p q : Nat} (x : CmdQueue) (hp : p < 3) (hq : q < 3) (hpq : p ≠ q) :
    (c.setQueue q x).queue p = c.queue p := by
  unfold TileCtx.setQueue TileCtx.queue
  split <;> [skip; split] <;> grind

@[simp] theorem TileCtx.queue_setHart (c : TileCtx) (mv : Bool) (x : Hart) (q : Nat) : (c.setHart mv x).queue q = c.queue q := by
  cases mv <;> rfl

@[simp] theorem TileCtx.dqueue_setHart (c : TileCtx) (mv : Bool) (x : Hart) (d : Nat) : (c.setHart mv x).dqueue d = c.dqueue d := by
  cases mv <;> rfl

/-! ## Entries that are retired -/

/-- A part of a recovery leaves the harts, and of the queues every other one. -/
structure KeepsOthers (q : Nat) (c d : TileCtx) : Prop where
  hart : ∀ mv, d.hart mv = c.hart mv
  queue : ∀ p, p < 3 → q < 3 → p ≠ q → d.queue p = c.queue p

theorem KeepsOthers.refl (q : Nat) (c : TileCtx) : KeepsOthers q c c := ⟨fun _ => rfl, fun _ _ _ _ => rfl⟩

theorem KeepsOthers.trans {q : Nat} {c d e : TileCtx} (h : KeepsOthers q c d) (k : KeepsOthers q d e) : KeepsOthers q c e :=
  ⟨fun mv => (k.hart mv).trans (h.hart mv), fun p hp hq hpq => (k.queue p hp hq hpq).trans (h.queue p hp hq hpq)⟩

theorem TileCtx.setQueue_keepsOthers (c : TileCtx) (q : Nat) (x : CmdQueue) : KeepsOthers q c (c.setQueue q x) :=
  ⟨fun mv => c.hart_modQueue q (fun _ => x) mv, fun _ hp hq hpq => c.queue_setQueue_other x hp hq hpq⟩

theorem TileCtx.retireEntry_keepsOthers (c : TileCtx) (q : Nat) (e : Entry) (err : Bool) : KeepsOthers q c (c.retireEntry q e err) := by
  obtain ⟨_, _, _, _, _, _, -, h⟩ := c.retireEntry_eq q e err
  obtain ⟨hhart, hqueue⟩ := c.setQueue_keepsOthers q
    { c.queue q with entries := (c.queue q).entries.filter (fun x => x.seq ≠ e.seq), done := (c.queue q).done + 1 }
  rw [h]
  exact ⟨hhart, hqueue⟩

theorem TileCtx.dq_retireEntry (c : TileCtx) (q : Nat) (e : Entry) (err : Bool) : (c.retireEntry q e err).dq = c.dq := by
  obtain ⟨_, _, _, _, _, _, -, h⟩ := c.retireEntry_eq q e err
  obtain ⟨_, _, _, hw⟩ := c.without_eq q e
  rw [h, hw]

/-- Some entries of a queue leave it with an error (R159). -/
def TileCtx.retireAll (c : TileCtx) (q : Nat) (l : List Entry) : TileCtx :=
  l.foldl (fun (c : TileCtx) e => c.retireEntry q e true) c

theorem TileCtx.retireAll_keepsOthers (c : TileCtx) (q : Nat) (l : List Entry) : KeepsOthers q c (c.retireAll q l) := by
  induction l generalizing c with
  | nil => exact .refl q c
  | cons e l ih => exact (c.retireEntry_keepsOthers q e true).trans (ih _)

theorem TileCtx.dq_retireAll (c : TileCtx) (q : Nat) (l : List Entry) : (c.retireAll q l).dq = c.dq := by
  induction l generalizing c with
  | nil => rfl
  | cons e l ih => exact (ih _).trans (c.dq_retireEntry q e true)

/-- What is left in the queue was there before and is none of them. -/
theorem TileCtx.mem_retireAll {c : TileCtx} {q : Nat} {l : List Entry} {x : Entry} (h : x ∈ ((c.retireAll q l).queue q).entries) :
    x ∈ (c.queue q).entries ∧ x ∉ l := by
  induction l generalizing c with
  | nil => exact ⟨h, by simp⟩
  | cons e l ih =>
    obtain ⟨hx, hl⟩ := ih h
    rw [TileCtx.queue_retireEntry, List.mem_filter, decide_eq_true_iff] at hx
    exact ⟨hx.1, List.not_mem_cons_of_ne_of_not_mem (fun he => hx.2 (congrArg Entry.seq he)) hl⟩

/-! ## Data queues -/

/-- Every data queue of a tile changes. -/
def TileCtx.modDqs (c : TileCtx) (f : DataQueue → DataQueue) : TileCtx := { c with dq := c.dq.map (fun p => (p.1, f p.2)) }

theorem SMap.find?_map {α β : Type} (f : α → β) (m : SMap α) (k : Nat) :
    SMap.find? (m.map (fun p => (p.1, f p.2))) k = (SMap.find? m k).map f := by
  induction m with
  | nil => rfl
  | cons p m ih =>
    simp only [List.map_cons, SMap.find?]
    split
    · rfl
    · exact ih

theorem TileCtx.dqueue_modDqs (c : TileCtx) {f : DataQueue → DataQueue} (hf : f {} = {}) (d : Nat) :
    (c.modDqs f).dqueue d = f (c.dqueue d) := by
  simp only [TileCtx.dqueue, TileCtx.modDqs, SMap.get, SMap.find?_map]
  cases SMap.find? c.dq d <;> simp [hf]

theorem TileCtx.modDqs_keepsOthers (c : TileCtx) (q : Nat) (f : DataQueue → DataQueue) : KeepsOthers q c (c.modDqs f) :=
  ⟨fun _ => rfl, fun _ _ _ _ => rfl⟩

/-! ## The recovery of a tile's queue -/

/-- A flush keeps the slots that a command has claimed. -/
def DataQueue.claimedOnly (x : DataQueue) : DataQueue := { x with slots := x.slots.filter (fun y => y.st = .claimed) }

/-- The tile whose queue has lost its faulted commands, the slots that those reserved poisoned (R159). -/
def TileCtx.skipped (c : TileCtx) (q : Nat) : TileCtx :=
  let c' := c.retireAll q ((c.queue q).entries.filter (fun e => e.st = .faulted))
  if q = 0 then c'.modDqs DataQueue.poison else c'

/-- The tile whose queue has lost the commands that a recovery retires. -/
def TileCtx.cleared (c : TileCtx) (q : Nat) (flush : Bool) : TileCtx :=
  if flush then
    let c' := (c.skipped q).retireAll q ((c.queue q).entries.filter (·.waiting))
    if q = 0 then c'.modDqs DataQueue.claimedOnly else c'
  else c.skipped q

/-- The tile whose queue can be used again. -/
def TileCtx.usable (c : TileCtx) (q : Nat) : TileCtx := c.modQueue q (fun x => { x with faulted := false, record := {} })

/-- Whether the other queue of the hart that pushes to a queue is faulted: q1 and q2 have one hart (R158). -/
def TileCtx.otherFaulted (c : TileCtx) (q : Nat) : Bool := decide (q ≠ 0) && (c.queue (3 - q)).faulted

theorem TileCtx.recover_eq (c : TileCtx) (q : Nat) (flush : Bool) : c.recover q flush =
    let u := (c.cleared q flush).usable q
    if u.otherFaulted q then u else u.setHart (decide (q ≠ 0)) ((u.hart (decide (q ≠ 0))).setCP false) := by
  cases flush <;> rfl

section
variable (c : TileCtx) (q : Nat) (flush : Bool)

theorem TileCtx.skipped_keepsOthers : KeepsOthers q c (c.skipped q) := by
  have h := c.retireAll_keepsOthers q ((c.queue q).entries.filter (fun e => e.st = .faulted))
  unfold TileCtx.skipped
  dsimp only
  split
  · exact h.trans (TileCtx.modDqs_keepsOthers _ _ _)
  · exact h

theorem TileCtx.queue_skipped :
    (c.skipped q).queue q = (c.retireAll q ((c.queue q).entries.filter (fun e => e.st = .faulted))).queue q := by
  unfold TileCtx.skipped
  dsimp only
  split <;> rfl

theorem TileCtx.cleared_keepsOthers : KeepsOthers q c (c.cleared q flush) := by
  have h := c.skipped_keepsOthers q
  unfold TileCtx.cleared
  split
  · have hw := h.trans ((c.skipped q).retireAll_keepsOthers q ((c.queue q).entries.filter (·.waiting)))
    dsimp only
    split
    · exact hw.trans (TileCtx.modDqs_keepsOthers _ _ _)
    · exact hw
  · exact h

theorem TileCtx.queue_cleared_flush : (c.cleared q true).queue q =
    ((c.skipped q).retireAll q ((c.queue q).entries.filter (·.waiting))).queue q := by
  simp only [TileCtx.cleared, if_true]
  split <;> rfl

/-- No faulted command is left in the queue. -/
theorem TileCtx.not_faulted_of_mem_cleared {e : Entry} (he : e ∈ ((c.cleared q flush).queue q).entries) :
    e ∈ (c.queue q).entries ∧ e.st ≠ .faulted := by
  have hs : e ∈ ((c.skipped q).queue q).entries := by
    cases flush with
    | false => exact he
    | true => rw [c.queue_cleared_flush] at he; exact (TileCtx.mem_retireAll he).1
  rw [c.queue_skipped] at hs
  obtain ⟨hmem, hnot⟩ := TileCtx.mem_retireAll hs
  exact ⟨hmem, fun hf => hnot (List.mem_filter.2 ⟨hmem, by simp [hf]⟩)⟩

/-- A flush of a queue with no started command left empties it. -/
theorem TileCtx.entries_cleared_flush (hstarted : (c.queue q).entries.any (fun e => e.st = .running || e.st = .done) = false) :
    ((c.cleared q true).queue q).entries = [] := by
  refine List.eq_nil_iff_forall_not_mem.2 fun e he => ?_
  obtain ⟨hmem, hfaulted⟩ := c.not_faulted_of_mem_cleared q true he
  rw [c.queue_cleared_flush] at he
  have hwaiting : e.waiting = false := by
    simpa [hmem] using (TileCtx.mem_retireAll he).2
  have hrest := List.any_eq_false.1 hstarted e hmem
  cases hst : e.st <;> simp_all [Entry.waiting]

/-- The slots that a faulted fill had reserved are full and poisoned (R159). -/
theorem TileCtx.slots_cleared_skip (d : Nat) : ((c.cleared 0 false).dqueue d).slots = (c.dqueue d).slots.map poisonSlot := by
  show (((c.retireAll 0 _).modDqs DataQueue.poison).dqueue d).slots = _
  rw [TileCtx.dqueue_modDqs _ rfl, TileCtx.dqueue, TileCtx.dq_retireAll]
  rfl

theorem TileCtx.queue_recover : (c.recover q flush).queue q =
    { (c.cleared q flush).queue q with faulted := false, record := {} } := by
  rw [TileCtx.recover_eq]
  dsimp only
  split
  · exact TileCtx.queue_setQueue_self _ _ _
  · rw [TileCtx.queue_setHart]; exact TileCtx.queue_setQueue_self _ _ _

theorem TileCtx.dqueue_recover (d : Nat) : (c.recover q flush).dqueue d = (c.cleared q flush).dqueue d := by
  have h : ((c.cleared q flush).usable q).dqueue d = (c.cleared q flush).dqueue d := by
    obtain ⟨_, _, _, hq⟩ := (c.cleared q flush).setQueue_eq q { (c.cleared q flush).queue q with faulted := false, record := {} }
    rw [TileCtx.usable, TileCtx.modQueue, hq]
    rfl
  rw [TileCtx.recover_eq]
  dsimp only
  split
  · exact h
  · rw [TileCtx.dqueue_setHart, h]

/-- Of the harts a recovery changes CP at most. -/
theorem TileCtx.hart_recover (mv : Bool) :
    (c.recover q flush).hart mv = c.hart mv ∨ (c.recover q flush).hart mv = (c.hart mv).setCP false := by
  have h (mw : Bool) : ((c.cleared q flush).usable q).hart mw = c.hart mw :=
    (TileCtx.hart_modQueue _ _ _ _).trans ((c.cleared_keepsOthers q flush).hart mw)
  rw [TileCtx.recover_eq]
  dsimp only
  split
  · exact .inl (h mv)
  · rw [TileCtx.hart_setHart]
    split
    · rename_i hmv; rw [h, hmv]; exact .inr rfl
    · exact .inl (h mv)

/-- CP is cleared where no queue of the hart is faulted (R158). -/
theorem TileCtx.faultPending_recover (hq : q = 0 ∨ q < 3 ∧ (c.queue (3 - q)).faulted = false) :
    ((c.recover q flush).hart (decide (q ≠ 0))).faultPending = false := by
  have hother : ((c.cleared q flush).usable q).otherFaulted q = false := by
    by_cases h0 : q = 0
    · subst h0; rfl
    · obtain ⟨hlt, hf⟩ := hq.resolve_left h0
      have hu : ((c.cleared q flush).usable q).queue (3 - q) = c.queue (3 - q) :=
        ((c.cleared_keepsOthers q flush).trans (TileCtx.setQueue_keepsOthers _ q _)).queue (3 - q) (by omega) hlt (by omega)
      simp [TileCtx.otherFaulted, hu, hf]
  rw [TileCtx.recover_eq]
  dsimp only
  rw [hother, if_neg Bool.false_ne_true, TileCtx.hart_setHart_self]
  exact Hart.faultPending_setCP _ _

end

/-! ## The recovery of a state's queue -/

theorem State.dropLeaseRequest_eq (s : State) (t : Nat) : ∃ a, s.dropLeaseRequest t = { s with anvils := a } := by
  unfold State.dropLeaseRequest
  dsimp only
  split <;> exact ⟨_, rfl⟩

section
variable {s : State} {h : HartId} {q : BitVec 2} {flush : Bool}

theorem State.recoverQueue_started (hs : (s.queue h.tile q.toNat).entries.any (fun e => e.st = .running || e.st = .done) = true) :
    s.recoverQueue h q flush = s := if_pos hs

/-- Besides the tile a recovery changes leases alone, and its hart goes on (R159). -/
theorem State.recoverQueue_ready (hs : (s.queue h.tile q.toNat).entries.any (fun e => e.st = .running || e.st = .done) = false) :
    ∃ a, s.recoverQueue h q flush =
      State.retire { s.modTc h.tile (fun c => c.recover q.toNat flush) with anvils := a } h ((s.hart h).pc + 4) := by
  have hpc (a : SMap Anvil) :
      (({ s.modTc h.tile (fun c => c.recover q.toNat flush) with anvils := a } : State).hart h).pc = (s.hart h).pc := by
    show (((s.modTc h.tile (fun c => c.recover q.toNat flush)).tc h.tile).hart h.move).pc = _
    rw [State.tc_modTc_self]
    rcases (s.tc h.tile).hart_recover q.toNat flush h.move with hr | hr <;> rw [hr] <;> rfl
  have hdrop : ∃ a, (if (q = 0 && flush : Bool) then (s.modTc h.tile (fun c => c.recover q.toNat flush)).dropLeaseRequest h.tile
      else s.modTc h.tile (fun c => c.recover q.toNat flush)) = { s.modTc h.tile (fun c => c.recover q.toNat flush) with anvils := a } := by
    split
    · exact State.dropLeaseRequest_eq _ _
    · exact ⟨_, rfl⟩
  obtain ⟨a, hdrop⟩ := hdrop
  unfold State.recoverQueue
  dsimp only
  rw [if_neg (by simp only [hs, Bool.false_eq_true, not_false_eq_true]), hdrop]
  split
  · obtain ⟨b, hused⟩ := State.leaseUsed_eq { s.modTc h.tile (fun c => c.recover q.toNat flush) with anvils := a } h.tile
    refine ⟨b, ?_⟩
    rw [hused, hpc]
  · exact ⟨a, by rw [hpc]⟩

theorem exec_recovery_waiting (hw : (s.hart s.me).run = .waiting (.qrec q flush)) :
    exec (if flush then .qrecFlush else .qrecSkip) s = .next (s.recoverQueue s.me q flush) := by
  cases flush with
  | false => rw [if_neg Bool.false_ne_true, exec_qrecSkip, execQrecSkip, hw]
  | true => rw [if_pos rfl, exec_qrecFlush, execQrecFlush, hw]

end

end Sys2Proof.Machine
end

section
/-! Command faults (R155 to R157): what the fault of a command leaves of its tile. -/

namespace Sys2Proof.Machine

open Sys2Proof.Claims

/-! ## The command that has faulted -/

/-- A tile one of whose commands has ended in a fault, before the fault is recorded. -/
def TileCtx.ended (c : TileCtx) (q : Nat) (e : Entry) : TileCtx :=
  let c := (c.modQueue q (fun x => x.mod e.seq (fun y => { y with st := .faulted }))).dropRange q e.seq
  if q = 0 then c.releaseSlots e.seq else c

/-- The record of a fault of an entry of queue q (R157); M where the queue holds a record already. -/
def Entry.faultRecord (e : Entry) (q code detail addr clk : Nat) (m : Bool) : FaultRecord :=
  { addr := BitVec.ofNat 64 addr, tlv := e.ret, hdr := bits e.w 0 32, detail := BitVec.ofNat 8 detail,
    code := BitVec.ofNat 8 code, m := m, s := q = 0 && e.w.getLsbD 8, clk := clk, seq := e.seq }

section
variable (c : TileCtx) (q : Nat) (e : Entry)

/-- A fault marks its entry and touches the queues, the range table and, in q0, the data queues. -/
theorem TileCtx.ended_eq : ∃ q0 q1 q2 dq, (q ≠ 0 → dq = c.dq) ∧ c.ended q e =
    { c with q0 := q0, q1 := q1, q2 := q2, dq := dq, ranges := c.ranges.filter (fun z => !(z.q = q && z.seq = e.seq)) } := by
  obtain ⟨_, _, _, h⟩ := c.setQueue_eq q ((c.queue q).mod e.seq (fun y => { y with st := .faulted }))
  unfold TileCtx.ended
  rw [TileCtx.modQueue, h]
  split
  · rename_i h0; exact ⟨_, _, _, _, absurd h0, rfl⟩
  · exact ⟨_, _, _, _, fun _ => rfl, rfl⟩

theorem TileCtx.queue_ended : (c.ended q e).queue q = (c.queue q).mod e.seq (fun y => { y with st := .faulted }) := by
  refine Eq.trans ?_ (c.queue_setQueue_self q _)
  unfold TileCtx.ended
  dsimp only
  split <;> rfl

theorem TileCtx.ended_keepsOthers : KeepsOthers q c (c.ended q e) := by
  obtain ⟨hhart, hqueue⟩ := c.setQueue_keepsOthers q ((c.queue q).mod e.seq (fun y => { y with st := .faulted }))
  unfold TileCtx.ended
  dsimp only
  split <;> exact ⟨hhart, hqueue⟩

/-- A data queue without the slots that a command had claimed. -/
def DataQueue.without (x : DataQueue) (seq : Nat) : DataQueue :=
  { x with slots := x.slots.filter (fun y => !(y.st = .claimed && y.owner = seq)) }

/-- Of the slots that a command of q0 had claimed none is left (R148). -/
theorem TileCtx.not_claimed_ended (d : Nat) : ∀ z ∈ ((c.ended 0 e).dqueue d).slots, ¬ (z.st = .claimed ∧ z.owner = e.seq) := by
  have h : (c.ended 0 e).dqueue d = DataQueue.without (c.dqueue d) e.seq :=
    TileCtx.dqueue_modDqs _ (f := fun x => x.without e.seq) rfl d
  intro z hz
  rw [h, DataQueue.without, List.mem_filter] at hz
  simpa [not_and_or, -not_and] using hz.2

end

/-! ## The record -/

section
variable {c : TileCtx} {q code detail addr clk : Nat} {e : Entry}

/-- The first fault of a queue is recorded, and CP is set on the hart that pushes to it (R157). -/
theorem TileCtx.recordFault_first (h : (c.queue q).faulted = false) : c.recordFault q e code detail addr clk =
    ((c.ended q e).setQueue q { (c.ended q e).queue q with faulted := true, record := e.faultRecord q code detail addr clk false }).setHart
      (decide (q ≠ 0)) ((c.hart (decide (q ≠ 0))).setCP true) := by
  have hf : ((c.ended q e).queue q).faulted = false := by rw [c.queue_ended]; exact h
  have hh : (((c.ended q e).setQueue q { (c.ended q e).queue q with
      faulted := true, record := e.faultRecord q code detail addr clk false }).hart (decide (q ≠ 0))) = c.hart (decide (q ≠ 0)) :=
    ((c.ended_keepsOthers q e).trans (TileCtx.setQueue_keepsOthers _ q _)).hart _
  rw [← hh, ← hf]
  exact if_neg (by rw [Bool.not_eq_true]; exact hf)

/-- Of a later one M alone is set, unless it is of the same clk and its command was pushed earlier (R157). -/
theorem TileCtx.recordFault_later (h : (c.queue q).faulted = true) : c.recordFault q e code detail addr clk =
    (c.ended q e).setQueue q { (c.ended q e).queue q with
      record := if (c.queue q).record.clk = clk ∧ e.seq < (c.queue q).record.seq then e.faultRecord q code detail addr clk true
        else { (c.queue q).record with m := true } } := by
  have hf : ((c.ended q e).queue q).faulted = true := by rw [c.queue_ended]; exact h
  have hr : ((c.ended q e).queue q).record = (c.queue q).record := by rw [c.queue_ended]; rfl
  have hset : c.recordFault q e code detail addr clk = (c.ended q e).setQueue q { (c.ended q e).queue q with
      record := if ((c.ended q e).queue q).record.clk = clk && e.seq < ((c.ended q e).queue q).record.seq
        then e.faultRecord q code detail addr clk ((c.ended q e).queue q).faulted
        else { ((c.ended q e).queue q).record with m := true } } := if_pos hf
  rw [hset, hf, hr]
  simp only [Bool.and_eq_true, decide_eq_true_eq]

/-- Recording a fault changes the queues and CP alone. -/
theorem TileCtx.recordFault_eq : ∃ m v q0 q1 q2, c.recordFault q e code detail addr clk =
    { c.ended q e with main := m, move := v, q0 := q0, q1 := q1, q2 := q2 } := by
  by_cases h : (c.queue q).faulted = true
  · rw [TileCtx.recordFault_later h]
    obtain ⟨_, _, _, hq⟩ := (c.ended q e).setQueue_eq q { (c.ended q e).queue q with
      record := if (c.queue q).record.clk = clk ∧ e.seq < (c.queue q).record.seq then e.faultRecord q code detail addr clk true
        else { (c.queue q).record with m := true } }
    exact ⟨_, _, _, _, _, hq⟩
  · rw [TileCtx.recordFault_first (Bool.not_eq_true _ ▸ h)]
    obtain ⟨_, _, _, hq⟩ := (c.ended q e).setQueue_eq q
      { (c.ended q e).queue q with faulted := true, record := e.faultRecord q code detail addr clk false }
    rw [hq, TileCtx.setHart]
    split <;> exact ⟨_, _, _, _, _, rfl⟩

end

end Sys2Proof.Machine
end

section
/-! Commands that fault (R155, R156): those whose checks fail, and those that fault at their data. -/

namespace Sys2Proof.Machine

open Sys2Proof.Claims

/-- A run of a command begins with its checks `m`: its body is those, then the rest. -/
def ChecksFirst {α : Type} (i : Instr) (op : Nat) (c : Cmd) (r : Run) (m : M α) : Prop :=
  ∃ body : Run → M Bool, (∀ s, exec i s = runCommand op c body s) ∧ ∃ rest : α → M Bool, body r = m >>= rest

section
variable {α : Type} {i : Instr} {op : Nat} {c : Cmd} {r : Run} {s t : State} {code detail addr : Nat}

/-- A command whose body faults ends in a command fault. -/
theorem exec_faulted {body : Run → M Bool} (hi : exec i s = runCommand op c body s) (h : CanStart op c s r)
    (hb : body r s = .error (.fault code detail addr) t) : exec i s = .next (faulted r code detail addr t) :=
  hi.trans (runCommand_fault h hb)

/-- So does a command whose checks fail. -/
theorem ChecksFirst.fails {m : M α} (hc : ChecksFirst i op c r m) (h : CanStart op c s r)
    (hm : m s = .error (.fault code detail addr) t) : exec i s = .next (faulted r code detail addr t) := by
  obtain ⟨body, hi, rest, hbody⟩ := hc
  exact exec_faulted (hi s) h (by rw [hbody, M.bind_error hm])

/-- A condition that holds is passed. -/
theorem need_true_bind {b : Bool} (hb : b = true) (e : Exc) (f : Unit → M α) : (need b e >>= f) = f () := by
  funext s; exact need_bind hb

theorem checkReserved_fault {l : List (Nat × Nat)} {n : Nat} (h : reservedBit c l = some n) :
    checkReserved c l s = .error (.fault 0x01 n 0) s := by
  simp [checkReserved, h]

end

section
variable (c : Cmd) (r : Run)

/-! ## The checks of the commands -/

theorem reservedOnly_checksFirst :
    ∀ p ∈ ([(.cnop c, 0x00, [(64, 128)]), (.cbump c, 0x01, [(64, 128)]), (.cmark c, 0x02, [(128, 64)]),
      (.fdSkip c, 0x23, fdReserved .skip c), (.bkClear c, 0x48, [(64, 36), (111, 81)])] : List (Instr × Nat × List (Nat × Nat))),
    ChecksFirst p.1 p.2.1 c r (checkReserved c p.2.2) := by
  simp only [List.forall_mem_cons]
  and_intros
  iterate 5 · exact ⟨_, fun _ => rfl, _, rfl⟩
  · exact List.forall_mem_nil _

theorem feeder_checksFirst :
    ∀ p ∈ ([(.fdRow c, 0x20, .row), (.fdRowCrd c, 0x20, .crd), (.fdGather c, 0x21, .gather), (.fdBcast c, 0x22, .bcast),
      (.fdBcastSplat c, 0x22, .splat), (.fdStore c, 0x24, .store)] : List (Instr × Nat × FeederKind)),
    ChecksFirst p.1 p.2.1 c r (fdChecks p.2.2 r c) := by
  simp only [List.forall_mem_cons]
  and_intros
  iterate 6 · exact ⟨_, fun _ => rfl, _, rfl⟩
  · exact List.forall_mem_nil _

theorem vQuant_checksFirst {i : Instr} {tmax : Nat} {g : Nat → TileCtx → TileCtx → TileCtx} (hi : ∀ s, exec i s = vQuant c tmax g s) :
    ChecksFirst i 0x68 c r (vChecks (quantForm c tmax (vS c)) c) := ⟨_, hi, _, rfl⟩

/-- The form of `vcvt` (R265, R273; log entry 119). -/
def vcvtForm (c : Cmd) : VForm :=
  let ok := [0, 1, 2, 3, 4, 8, 9, 10].contains (vAux c)
  { unForm c with size := max (elemSize (cmdFormat c)) (if ok then elemSize (vAux c) else 1), auxOk := ok }

theorem vcvt_checksFirst : ChecksFirst (.vcvt c) 0x68 c r (vChecks (vcvtForm c) c) := by
  refine ⟨fun r => vBody (vcvtForm c) c (fun k => k.putDrawn c r.e.seq (vBits c) (fun i g =>
    convertElem (vAux c) (cmdFormat c) (vW c) (elemAt (k.vreg (vVs1 c)) (8 * elemSize (vAux c)) i) g)) r, fun s => ?_, _, rfl⟩
  rw [exec_vcvt, execVcvt]
  rfl

theorem vector_checksFirst : ∀ p ∈ vectorForms c, ChecksFirst p.1 p.2.1 c r (vChecks p.2.2 c) := by
  simp only [vectorForms, List.forall_mem_cons]
  and_intros
  iterate 31 · exact ⟨_, fun _ => rfl, _, rfl⟩
  · exact vQuant_checksFirst c r (fun s => by rw [exec_vqm8, execVqm8])
  · exact vQuant_checksFirst c r (fun s => by rw [exec_vqi8, execVqi8])
  iterate 2 · exact ⟨_, fun _ => rfl, _, rfl⟩
  · exact vcvt_checksFirst c r
  iterate 11 · exact ⟨_, fun _ => rfl, _, rfl⟩
  · exact List.forall_mem_nil _

theorem predicate_checksFirst : ∀ p ∈ predicateForms c, ChecksFirst p.1 p.2.1 c r (vChecks p.2.2 c) := by
  simp only [predicateForms, List.forall_mem_cons]
  and_intros
  iterate 11 · exact ⟨_, fun _ => rfl, _, rfl⟩
  · exact List.forall_mem_nil _

theorem vote_checksFirst : ∀ p ∈ voteForms c, ChecksFirst p.1 p.2.1 c r (vChecks p.2.2 c) := by
  simp only [voteForms, List.forall_mem_cons]
  and_intros
  iterate 2 · exact ⟨_, fun _ => rfl, _, rfl⟩
  · exact List.forall_mem_nil _

theorem vectorMemory_checksFirst :
    ∀ p ∈ ([(.vld c, 0x6C, .ld), (.vst c, 0x6D, .st), (.vgather c, 0x6E, .gather), (.vscatter c, 0x6F, .scatter),
      (.vscatterAdd c, 0x6F, .scatter), (.vscatterMin c, 0x6F, .scatter), (.vscatterMax c, 0x6F, .scatter),
      (.vscatterFadd c, 0x6F, .scatter), (.vscatterFmaxabs c, 0x6F, .scatter)] : List (Instr × Nat × VMem)),
    ChecksFirst p.1 p.2.1 c r (vmChecks p.2.2 r c) := by
  simp only [List.forall_mem_cons]
  and_intros
  iterate 9 · exact ⟨_, fun _ => rfl, _, rfl⟩
  · exact List.forall_mem_nil _

theorem anvil_checksFirst :
    ∀ p ∈ ([(.anFree c, 0x87, { cnt := false }), (.anLdw c, 0x81, ldwForm), (.anSwap c, 0x82, swapForm), (.anMul c, 0x83, mulForm),
      (.anGmul c, 0x84, gmulForm), (.anClose c, 0x85, rowsForm), (.anDrain c, 0x86, drainForm c), (.anZero c, 0x88, rowsForm)] :
        List (Instr × Nat × AnForm)), ChecksFirst p.1 p.2.1 c r (anChecks p.2.2 r c) := by
  simp only [List.forall_mem_cons]
  exact ⟨⟨_, exec_anFree c, _, rfl⟩, ⟨_, exec_anLdw c, _, rfl⟩, ⟨_, exec_anSwap c, _, rfl⟩, ⟨_, exec_anMul c, _, rfl⟩,
    ⟨_, exec_anGmul c, _, rfl⟩, ⟨_, exec_anClose c, _, rfl⟩, ⟨_, exec_anDrain c, _, rfl⟩, ⟨_, exec_anZero c, _, rfl⟩,
    List.forall_mem_nil _⟩

theorem message_checksFirst :
    ∀ p ∈ ([(.txSend c, 0xC0, .send), (.txPut c, 0xC1, .put), (.txPutArrive c, 0xC1, .arrive), (.rxPost c, 0xC8, .post),
      (.rxCancel c, 0xC9, .cancel)] : List (Instr × Nat × MsgKind)), ChecksFirst p.1 p.2.1 c r (msChecks p.2.2 r c) := by
  simp only [List.forall_mem_cons]
  and_intros
  iterate 5 · exact ⟨_, fun _ => rfl, _, rfl⟩
  · exact List.forall_mem_nil _

theorem srtCodes_checksFirst : ChecksFirst (.srtCodes c) 0x40 c r (srChecks r c) := ⟨_, exec_srtCodes c, _, rfl⟩
theorem bkSum_checksFirst : ChecksFirst (.bkSum c) 0x49 c r (bkChecks false false r c) := ⟨_, exec_bkSum c, _, rfl⟩
theorem bkFin_checksFirst : ChecksFirst (.bkFin c) 0x4A c r (bkChecks true (c.sub.getLsbD 0) r c) :=
  ⟨_, exec_bkFin c, _, rfl⟩

/-- An `an.lease` that has started waits for its grant and is not checked again (R293). -/
theorem anLease_checksFirst (hr : r.e.st ≠ .running) : ChecksFirst (.anLease c) 0x80 c r (anChecks {} r c) := by
  exact ⟨_, exec_anLease c, _, need_true_bind (decide_eq_true hr) _ _⟩

/-- A `tx.get` that has sent its request waits for its replies and is not checked again (R365). -/
theorem txGet_checksFirst (hr : r.e.prog.started = false) : ChecksFirst (.txGet c) 0xC2 c r (msChecks .get r c) := by
  exact ⟨_, exec_txGet c, _, need_true_bind (by simp [hr]) _ _⟩

end

/-! ## Copies -/

section
variable {k : CopyKind} {c : Cmd} {r : Run} {s t u : State} {code detail addr : Nat}

theorem cpReady_ok (hctx : (s.ctx (s.ctxOf r.t)).st = .running) (hr : CopyReady r) : cpReady r s = .ok () s := by
  obtain ⟨hwritten, hwait, hcancelled⟩ := hr
  rw [cpReady, M.bind_ok (M.get_run s), need_bind (by simp [hwritten, hwait, hcancelled])]
  simp [hctx]

/-- A copy that is ready starts where it has not started before, then works on a chunk. -/
theorem copyBody_run (hw : r.word = none) (hctx : (s.ctx (s.ctxOf r.t)).st = .running) (hr : CopyReady r) :
    copyBody k c r s = ((if r.e.prog.started then pure () else cpStart k r c) >>= fun _ => do
      guardCopy r (cpChunk k r c)
      endCopyWord k r c
      setProgress r (fun p => { p with started := true, suspended := false, written := p.wait.isEmpty, seen := [], puts := [] })
      pure false) s := by
  have hready := cpReady_ok hctx hr
  cases hs : r.e.prog.started <;> simp [copyBody, hw, hs, M.bind_ok hready]

theorem copyBody_start_fault (hw : r.word = none) (hctx : (s.ctx (s.ctxOf r.t)).st = .running) (hr : CopyReady r)
    (hs : r.e.prog.started = false) (hf : cpStart k r c s = .error (.fault code detail addr) t) :
    copyBody k c r s = .error (.fault code detail addr) t := by
  rw [copyBody_run hw hctx hr, hs, if_neg Bool.false_ne_true, M.bind_error hf]

/-- A fault at work leaves the destination unpredictable (R319). -/
theorem guardCopy_fault {body : M Unit} (hf : body s = .error (.fault code detail addr) t) :
    guardCopy r body s = .error (.fault code detail addr) (t.spoil r code) := by
  simp [guardCopy, hf]

theorem copyBody_chunk_fault (hw : r.word = none) (hctx : (s.ctx (s.ctxOf r.t)).st = .running) (hr : CopyReady r)
    (hs : CopyStarts k r c s u) (hf : cpChunk k r c u = .error (.fault code detail addr) t) :
    copyBody k c r s = .error (.fault code detail addr) (t.spoil r code) := by
  have hstart : (if r.e.prog.started then pure () else cpStart k r c) s = .ok () u := by
    unfold CopyStarts at hs
    split
    · rename_i h; rw [if_pos h] at hs; rw [hs]; rfl
    · rename_i h; rwa [if_neg h] at hs
  rw [copyBody_run hw hctx hr, M.bind_ok hstart, M.bind_error (guardCopy_fault hf)]

end

/-- The copies run `copyBody`. -/
theorem copy_exec (c : Cmd) :
    ∀ p ∈ ([(.cpNd c, 0xA0, .nd), (.cpGather c, 0xA1, .gather), (.cpScatter c, 0xA2, .scatter), (.cpRed c, 0xA4, .red),
      (.cpFill c, 0xA5, .fill), (.cpPref c, 0xA6, .pref)] : List (Instr × Nat × CopyKind)),
    ∀ s, exec p.1 s = runCommand p.2.1 c (copyBody p.2.2 c) s := by
  simp only [List.forall_mem_cons]
  exact ⟨exec_cpNd c, exec_cpGather c, exec_cpScatter c, exec_cpRed c, exec_cpFill c, exec_cpPref c, List.forall_mem_nil _⟩

/-! ## Faults at the data -/

section
variable {c : Cmd} {r : Run} {s u : State} {h : Shape} {code detail addr : Nat}

/-- A fill that faults at a slot (R156, R234). -/
theorem rowBody_fault {kind : FeederKind} (ho : r.only = false) (hc : fdChecks kind r c s = .ok h s) (hs : SlotsFree s r (fdDq c) (fdNslot c))
    (hf : ((List.range (fdNslot c)).forM (fun i => fillFrom r kind c h i (slotCoords r c i))) (reserved r (fdDq c) (fdNslot c) s) =
      .error (.fault code detail addr) u) : rowBody kind c r s = .error (.fault code detail addr) u := by
  rw [rowBody, M.bind_ok hc, M.bind_ok (begin_fill ho hs), M.bind_error hf]

/-- An `fd.store` whose slots fail their checks (R150, R236). -/
theorem storeBody_slots_fault (ho : r.only = false) (hc : fdChecks .store r c s = .ok h s) (hs : SlotsFull s r (fdDq c) (fdNslot c))
    (hf : checkSlots (fdDq c) (some (cmdFormat c)) (owned r (fdDq c) (claiming r (fdDq c) (fdNslot c) s))
      (claiming r (fdDq c) (fdNslot c) s) = .error (.fault code detail addr) u) :
    storeBody c r s = .error (.fault code detail addr) u := by
  rw [storeBody, M.bind_ok hc, M.bind_ok (begin_pop ho hs), M.bind_ok (claimed_run r _ _), M.bind_error hf]

/-- One that faults at a write (R156, R236). -/
theorem storeBody_put_fault (ho : r.only = false) (hc : fdChecks .store r c s = .ok h s) (hs : SlotsFull s r (fdDq c) (fdNslot c))
    (hok : ∀ x ∈ owned r (fdDq c) (claiming r (fdDq c) (fdNslot c) s), x.side.getLsbD 28 = false ∧ field x.side 8 4 = cmdFormat c)
    (hf : storeAll r false (((owned r (fdDq c) (claiming r (fdDq c) (fdNslot c) s)).zip
      (List.range (owned r (fdDq c) (claiming r (fdDq c) (fdNslot c) s)).length)).flatMap (fun p => slotPuts r c h p.2 p.1)) []
      (claiming r (fdDq c) (fdNslot c) s) = .error (.fault code detail addr) u) :
    storeBody c r s = .error (.fault code detail addr) u := by
  rw [storeBody, M.bind_ok hc, M.bind_ok (begin_pop ho hs), M.bind_ok (claimed_run r _ _), M.bind_ok (checkSlots_ok hok),
    M.bind_error hf]

/-- A `vst` that faults at a write (R156, R281). -/
theorem exec_vst_fault (hstart : CanStart 0x6D c s r) (hc : vmChecks .st r c s = .ok h s) (hs : RangeFree s r)
    (hf : storeAll r false (((s.tc r.t).actives c).map (fun i =>
      vPut r h (vCoords r c (i - vE0 c)) (elemAt ((s.tc r.t).vreg (vmVs1 c)) (vBits c) i))) [] s =
        .error (.fault code detail addr) u) : exec (.vst c) s = .next (faulted r code detail addr u) := by
  refine exec_faulted (exec_vst c s) hstart ?_
  dsimp only
  rw [M.bind_ok hc, M.bind_ok (begin_none (only_of_canStart hstart) hs), M.bind_ok (M.get_run s), M.bind_error hf]

end

end Sys2Proof.Machine
end

section
/-! The statement about `qsync`, recoveries and command faults, put together from the facts about each (R154 to R159). -/

namespace Sys2Proof.Machine

open Sys2Proof.Claims

theorem State.tc_retire (s : State) (h : HartId) (pc : Word) :
    (s.retire h pc).tc h.tile = (s.tc h.tile).setHart h.move ((s.hart h).retired pc) := State.tc_modTc_self s h.tile _

/-- A command that can start belongs to a context that runs (R155). -/
theorem running_of_canStart {op : Nat} {c : Cmd} {s : State} {r : Run} (h : CanStart op c s r) : (s.ctx (s.ctxOf r.t)).st = .running := by
  obtain ⟨_, _, hctx, _⟩ := h
  exact hctx

/-- Queues are named by two bits: 3 names none, 0 alone is the main hart's. -/
theorem queueNumber_lt : ∀ q : BitVec 2, q ≠ 3 → q.toNat < 3 := by decide
theorem queueNumber_ne_zero : ∀ q : BitVec 2, decide (q.toNat ≠ 0) = decide (q ≠ 0) := by decide

/-- What a recovery with no started command left makes of its queue and its hart (R155, R158, R159). -/
theorem State.recoverQueue_parts {s : State} {h : HartId} {q : BitVec 2} {flush : Bool}
    (hs : (s.queue h.tile q.toNat).entries.any (fun e => e.st = .running || e.st = .done) = false) :
    let t := s.recoverQueue h q flush
    let c := s.tc h.tile
    t.queue h.tile q.toNat = (c.recover q.toNat flush).queue q.toNat ∧
    (∀ d, (t.tc h.tile).dqueue d = (c.recover q.toNat flush).dqueue d) ∧
    t.hart h = ((c.recover q.toNat flush).hart h.move).retired ((s.hart h).pc + 4) ∧ t.mem = s.mem := by
  intro t c
  obtain ⟨a, ht⟩ := State.recoverQueue_ready (flush := flush) hs
  have hbase : State.tc { s.modTc h.tile (fun c => c.recover q.toNat flush) with anvils := a } h.tile = c.recover q.toNat flush :=
    State.tc_modTc_self s h.tile (fun c => c.recover q.toNat flush)
  have htc : t.tc h.tile = (c.recover q.toNat flush).setHart h.move
      (((c.recover q.toNat flush).hart h.move).retired ((s.hart h).pc + 4)) := by
    rw [show t = _ from ht, State.tc_retire, State.hart, hbase]
  refine ⟨?_, fun d => ?_, ?_, ?_⟩
  · rw [State.queue, htc, TileCtx.queue_setHart]
  · rw [htc, TileCtx.dqueue_setHart]
  · rw [State.hart, htc, TileCtx.hart_setHart_self]
  · rw [show t = _ from ht]; rfl

/-- The clauses of a recovery. -/
theorem recovery_ready {s : State} {h : HartId} {q : BitVec 2} {flush : Bool}
    (hs : (s.queue h.tile q.toNat).entries.any (fun e => e.st = .running || e.st = .done) = false) :
    let t := s.recoverQueue h q flush
    (t.queue h.tile q.toNat).faulted = false ∧
      (t.queue h.tile q.toNat).record = {} ∧ (∀ e ∈ (t.queue h.tile q.toNat).entries, e.st ≠ .faulted) ∧
      (flush = true → (t.queue h.tile q.toNat).entries = []) ∧
      (q = 0 ∨ q ≠ 3 ∧ (s.queue h.tile (3 - q.toNat)).faulted = false → h.move = decide (q ≠ 0) → (t.hart h).faultPending = false) ∧
      (q = 0 → flush = false → ∀ d, ((t.tc h.tile).dqueue d).slots = ((s.tc h.tile).dqueue d).slots.map poisonSlot) ∧
      (t.hart h).run = .running ∧ (t.hart h).pc = (s.hart h).pc + 4 ∧ t.mem = s.mem := by
  intro t
  obtain ⟨hqueue, hdq, hhart, hmem⟩ := State.recoverQueue_parts (flush := flush) hs
  rw [hqueue, hhart, TileCtx.queue_recover]
  refine ⟨rfl, rfl, fun e he => (TileCtx.not_faulted_of_mem_cleared _ _ _ he).2, ?_, fun hq hm => ?_, ?_, rfl, rfl, hmem⟩
  · rintro rfl
    exact TileCtx.entries_cleared_flush _ _ hs
  · have hfree : q.toNat = 0 ∨ q.toNat < 3 ∧ ((s.tc h.tile).queue (3 - q.toNat)).faulted = false :=
      hq.imp (fun h0 => by rw [h0]; rfl) (And.imp_left (queueNumber_lt q))
    rw [hm, ← queueNumber_ne_zero]
    exact TileCtx.faultPending_recover _ _ flush hfree
  · rintro rfl rfl d
    rw [hdq, TileCtx.dqueue_recover]
    exact TileCtx.slots_cleared_skip _ d

/-- The clauses of a command fault. -/
theorem recordFault_parts (k : TileCtx) {q : Nat} (e : Entry) (code detail addr clk : Nat) (hq : q < 3) :
    let x := k.queue q
    let t := k.recordFault q e code detail addr clk
    let y := t.queue q
    let mine := e.faultRecord q code detail addr clk x.faulted
    let mv : Bool := q ≠ 0
    y.faulted = true ∧
      (x.faulted = false → y.record = mine ∧ (t.hart mv).faultPending = true ∧ t.hart mv = (k.hart mv).setCP true) ∧
      (x.faulted = true → t.hart mv = k.hart mv ∧
        (x.record.clk = clk ∧ e.seq < x.record.seq → y.record = mine) ∧
        (¬ (x.record.clk = clk ∧ e.seq < x.record.seq) → y.record = { x.record with m := true })) ∧
      t.hart (!mv) = k.hart (!mv) ∧
      y.entries = x.entries.map (fun z => if z.seq = e.seq then { z with st := .faulted } else z) ∧
      y.done = x.done ∧ y.pushed = x.pushed ∧ (∀ p, p < 3 → p ≠ q → t.queue p = k.queue p) := by
  intro x t y mine mv
  have hkeeps (z : CmdQueue) : KeepsOthers q k ((k.ended q e).setQueue q z) :=
    (k.ended_keepsOthers q e).trans (TileCtx.setQueue_keepsOthers _ q z)
  cases hf : x.faulted with
  | false =>
    have ht : t = _ := TileCtx.recordFault_first hf
    have hhart : t.hart mv = (k.hart mv).setCP true := by rw [ht]; exact TileCtx.hart_setHart_self _ _ _
    have hy : y = { (k.queue q).mod e.seq (fun y => { y with st := .faulted }) with
        faulted := true, record := e.faultRecord q code detail addr clk false } := by
      simp only [y, ht, TileCtx.queue_setHart, TileCtx.queue_setQueue_self, TileCtx.queue_ended]
    refine ⟨by rw [hy], fun _ => ⟨by simp only [hy, mine, hf], by rw [hhart, Hart.faultPending_setCP], hhart⟩, nofun, ?_, by rw [hy]; rfl,
      by rw [hy]; rfl, by rw [hy]; rfl, fun p hp hpq => ?_⟩
    · rw [ht, TileCtx.hart_setHart, if_neg (Bool.not_ne_self _), (hkeeps _).hart]
    · rw [ht, TileCtx.queue_setHart, (hkeeps _).queue p hp hq hpq]
  | true =>
    have ht : t = _ := TileCtx.recordFault_later hf
    have hy : y = { (k.queue q).mod e.seq (fun y => { y with st := .faulted }) with
        record := if (k.queue q).record.clk = clk ∧ e.seq < (k.queue q).record.seq then e.faultRecord q code detail addr clk true
          else { (k.queue q).record with m := true } } := by
      simp only [y, ht, TileCtx.queue_setQueue_self, TileCtx.queue_ended]
    refine ⟨by rw [hy]; exact hf, nofun, fun _ => ⟨by rw [ht, (hkeeps _).hart], fun h => ?_, fun h => ?_⟩, by rw [ht, (hkeeps _).hart],
      by rw [hy]; rfl, by rw [hy]; rfl, by rw [hy]; rfl, fun p hp hpq => by rw [ht, (hkeeps _).queue p hp hq hpq]⟩
    · rw [hy]; simp only [mine, hf]; exact if_pos h
    · rw [hy]; exact if_neg h

/-- What a command fault leaves of the rest of its tile. -/
theorem recordFault_frame (k : TileCtx) (q : Nat) (e : Entry) (code detail addr clk : Nat) :
    let t := k.recordFault q e code detail addr clk
    t.ranges = k.ranges.filter (fun z => !(z.q = q && z.seq = e.seq)) ∧
      (q = 0 → ∀ d, ∀ z ∈ (t.dqueue d).slots, ¬ (z.st = .claimed ∧ z.owner = e.seq)) ∧
      (q ≠ 0 → t.dq = k.dq) ∧ t.tokens = k.tokens ∧ t.timeline = k.timeline ∧ t.chunks = k.chunks := by
  intro t
  obtain ⟨_, _, _, _, _, ht⟩ : ∃ m v q0 q1 q2, t = { k.ended q e with main := m, move := v, q0 := q0, q1 := q1, q2 := q2 } :=
    TileCtx.recordFault_eq
  obtain ⟨_, _, _, _, hdq, hended⟩ := k.ended_eq q e
  refine ⟨by rw [ht, hended], ?_, fun hq => by rw [ht, hended]; exact hdq hq, by rw [ht, hended], by rw [ht, hended]; rfl,
    by rw [ht, hended]⟩
  rintro rfl d
  have hd : t.dqueue d = (k.ended 0 e).dqueue d := by rw [ht]; rfl
  rw [hd]
  exact k.not_claimed_ended e d

/-- Settles O29: the clauses of `qsync`, of recoveries, of the fault record, and of each way in which a command faults. -/
theorem syncAndRecovery : Obligations.SyncAndRecovery := by
  unfold Obligations.SyncAndRecovery
  refine ⟨fun s q => ⟨fun hq hm hd => ?_, fun hq hm hl => ?_, exec_qsync_other, fun hw hd => ?_⟩, fun s q flush => ?_,
    fun k q e code detail addr clk hq => ?_, fun s t c r code detail addr => ?_⟩
  · rw [exec_qsync_own hq hm, State.syncQueue_done hd]
  · rw [exec_qsync_own hq hm, State.syncQueue_left hl]
  · rw [exec_qsyncReturn_waiting hw, State.syncQueue_done hd]
  · intro h i hw
    have hi : exec i s = .next (s.recoverQueue h q flush) := exec_recovery_waiting hw
    exact ⟨fun hs => by rw [hi, State.recoverQueue_started hs], fun hs => ⟨_, hi, recovery_ready hs⟩⟩
  · obtain ⟨h1, h2, h3, h4, h5, h6, h7, h8⟩ := recordFault_parts k e code detail addr clk hq
    exact ⟨h1, h2, h3, h4, h5, h6, h7, h8, recordFault_frame k q e code detail addr clk⟩
  · intro fails
    refine ⟨fun l n => checkReserved_fault, fun p hp => (reservedOnly_checksFirst c r p hp).fails,
      fun p hp => (feeder_checksFirst c r p hp).fails, (srtCodes_checksFirst c r).fails, (bkSum_checksFirst c r).fails,
      (bkFin_checksFirst c r).fails, fun p hp => ?_, fun p hp => (vectorMemory_checksFirst c r p hp).fails,
      fun p hp => (anvil_checksFirst c r p hp).fails, fun hr => (anLease_checksFirst c r hr).fails,
      fun p hp hr => ⟨fun hs h hf => ?_, fun u h hs hf => ?_⟩, fun p hp => (message_checksFirst c r p hp).fails,
      fun hr => (txGet_checksFirst c r hr).fails, fun h u hc hs hf hstart => ?_, fun h u hc hs hf hstart => ?_,
      fun h u hc hs hf hstart => exec_vst_fault hstart hc hs hf⟩
    · rcases List.mem_append.1 hp with hp | hp
      · rcases List.mem_append.1 hp with hp | hp
        · exact (vector_checksFirst c r p hp).fails
        · exact (predicate_checksFirst c r p hp).fails
      · exact (vote_checksFirst c r p hp).fails
    · exact exec_faulted (copy_exec c p hp s) h (copyBody_start_fault (word_of_canStart h) (running_of_canStart h) hr hs hf)
    · exact exec_faulted (copy_exec c p hp s) h (copyBody_chunk_fault (word_of_canStart h) (running_of_canStart h) hr hs hf)
    · exact exec_faulted (exec_fdRow c s) hstart (rowBody_fault (only_of_canStart hstart) hc hs hf)
    · refine exec_faulted (exec_fdStore c s) hstart ?_
      rcases hf with hf | ⟨hok, hf⟩
      · exact storeBody_slots_fault (only_of_canStart hstart) hc hs hf
      · exact storeBody_put_fault (only_of_canStart hstart) hc hs hok hf

end Sys2Proof.Machine
end
section
/-! What accesses at homes leave of harts: one with no request held keeps its pc and whether it runs (R87 to R89, R202, R218). -/

namespace Sys2Proof.Machine

open Sys2Proof.Claims

/-- No request of a hart is held. -/
def State.Unheld (s : State) (g : HartId) : Prop := ∀ r ∈ s.held, r.tile ≠ g.tile ∨ r.move ≠ g.move

/-- Of its harts a state has let go on only those with a request held: the others keep the pc and whether they run. -/
structure Served (s u : State) : Prop where
  held : HeldWithin s u
  hart : ∀ g, s.Unheld g → (u.hart g).run = (s.hart g).run ∧ (u.hart g).pc = (s.hart g).pc

theorem State.Unheld.within {s u : State} {g : HartId} (h : HeldWithin s u) (hg : s.Unheld g) : u.Unheld g := fun r hr => hg r (h r hr)

namespace Served

theorem of_tiles {s u : State} (hh : u.held = s.held) (ht : u.tiles = s.tiles) : Served s u := by
  have htile : ∀ t, u.tile t = s.tile t := fun t => by unfold State.tile; rw [ht]
  refine ⟨.of_eq hh, fun g _ => ?_⟩
  rw [State.hart, State.tc, htile]
  exact ⟨rfl, rfl⟩

theorem refl (s : State) : Served s s := of_tiles rfl rfl

theorem trans {s t u : State} (h : Served s t) (k : Served t u) : Served s u where
  held := h.held.trans k.held
  hart g hg :=
    have hk := k.hart g (hg.within h.held)
    have hh := h.hart g hg
    ⟨hk.1.trans hh.1, hk.2.trans hh.2⟩

theorem foldl {α : Type} {f : State → α → State} (hf : ∀ s a, Served s (f s a)) (l : List α) (s : State) : Served s (l.foldl f s) := by
  induction l generalizing s with
  | nil => exact refl s
  | cons a l ih => exact (hf s a).trans (ih _)

/-- A tile that changes outside its context's part. -/
theorem setTile (s : State) (t : Nat) {x : Tile} (hx : x.ctx = (s.tile t).ctx) : Served s (s.setTile t x) where
  held := .of_eq rfl
  hart g _ := by
    have htc : (s.setTile t x).tc g.tile = s.tc g.tile := by
      rw [State.tc, State.tile_setTile, State.tc]
      split
      · subst_vars; exact hx
      · rfl
    rw [State.hart, htc]
    exact ⟨rfl, rfl⟩

/-- A hart that changes but for its pc and whether it runs. -/
theorem modHart (s : State) (h : HartId) {f : Hart → Hart} (hf : ∀ x, (f x).run = x.run ∧ (f x).pc = x.pc) : Served s (s.modHart h f) where
  held := .of_eq rfl
  hart g _ := by
    rw [State.hart_modHart]
    split
    · subst_vars; exact hf _
    · exact ⟨rfl, rfl⟩

/-- A hart that has a request held changes as it may. -/
theorem modHart_held {s u : State} (hu : Served s u) {h : HartId} (f : Hart → Hart) (hh : ¬ s.Unheld h) : Served s (u.modHart h f) where
  held := hu.held
  hart g hg := by
    have hne : g ≠ h := by rintro rfl; exact hh hg
    rw [State.hart_modHart_other _ _ _ _ hne]
    exact hu.hart g hg

theorem result_held {s u : State} (hu : Served s u) {h : HartId} (hh : ¬ s.Unheld h) (rd : Reg) (v pc : Word) :
    Served s ((u.writeX h rd v).retire h pc) := .modHart_held (.modHart_held hu _ hh) _ hh

/-- An event that is logged is no change of a tile. -/
theorem logged {s u : State} (h : Served s u) (code : LogCode) (c : Option Nat) (place : Nat) : Served s (u.logEvent code c place) :=
  h.trans (of_tiles rfl rfl)

end Served

/-! ## Writes at a home -/

theorem State.ungate_served (s : State) (t : Nat) : Served s (s.ungate t) := by
  unfold State.ungate
  split
  · exact .setTile s t rfl
  · exact .refl s

/-- A tile after a write to a word: not gated where a hart of it is stalled on the word. -/
def Tile.ungatedAt (x : Tile) (pa : Nat) : Tile :=
  if x.gated && (x.ctx.main.waitsAt pa || x.ctx.move.waitsAt pa) then { x with gated := false } else x

theorem Tile.ungatedAt_eq (x : Tile) (pa : Nat) : ∃ g, x.ungatedAt pa = { x with gated := g } := by
  unfold Tile.ungatedAt
  split
  · exact ⟨_, rfl⟩
  · exact ⟨_, rfl⟩

/-- A tile that a write to a word ungates is otherwise as it was. -/
theorem State.tile_ungateAt (s : State) (pa t : Nat) : ∃ g, (s.ungateAt pa).tile t = { s.tile t with gated := g } := by
  have hmap : (s.ungateAt pa).tiles = s.tiles.map (fun p => (p.1, p.2.ungatedAt pa)) :=
    List.map_congr_left fun p _ => by unfold Tile.ungatedAt; split <;> rfl
  unfold State.tile SMap.get
  rw [hmap, SMap.find?_map (fun x : Tile => x.ungatedAt pa)]
  cases SMap.find? s.tiles t with
  | none => exact ⟨false, rfl⟩
  | some x => exact x.ungatedAt_eq pa

theorem State.ungateAt_served (s : State) (pa : Nat) : Served s (s.ungateAt pa) where
  held := .of_eq rfl
  hart g _ := by
    obtain ⟨b, h⟩ := s.tile_ungateAt pa g.tile
    rw [State.hart, State.tc, h]
    exact ⟨rfl, rfl⟩

theorem State.fireWatches_served (s : State) (pa : Nat) : Served s (s.fireWatches pa) := by
  have hclear : Served (s.ungateAt pa) { s.ungateAt pa with watches := (s.ungateAt pa).watches.filter (fun w => w.pa / 8 ≠ pa / 8) } :=
    .of_tiles rfl rfl
  refine (s.ungateAt_served pa).trans (hclear.trans (.foldl (fun u (w : Watch) => ?_) _ _))
  have hslot : Served u (u.modHart ⟨w.tile, w.move⟩ (fun h => { h with slots := SMap.set .disarmed h.slots w.slot .fired })) :=
    .modHart u _ fun _ => ⟨rfl, rfl⟩
  exact hslot.trans (State.ungate_served _ _)

theorem State.countLostInstall_served (s : State) (pa : Nat) : Served s (s.countLostInstall pa) := by
  unfold State.countLostInstall
  split
  · refine .foldl (fun s c => ?_) _ s
    exact .of_tiles rfl rfl
  · exact .refl s

theorem State.rawWrite_served (s : State) (pa n v : Nat) : Served s (s.rawWrite pa n v) :=
  .of_tiles (s.rawWrite_held pa n v) (s.rawWrite_tiles pa n v)

theorem State.setFull_served (s : State) (pa : Nat) (b : Bool) : Served s (s.setFull pa b) := .of_tiles rfl rfl

theorem State.clearFlips_served (s : State) (line : Nat) : Served s (s.clearFlips line) := .of_tiles rfl rfl

theorem State.setBank_served (s : State) (b : Nat) (x : Bank) : Served s (s.setBank b x) := .of_tiles rfl rfl

theorem State.discard_served (s : State) (t : Nat) (p : Nat → Bool) : Served s (s.discard t p) := .setTile s t rfl

theorem State.acquireLatch_served (s : State) (t : Nat) (va : Word) : Served s (s.acquireLatch t va) := by
  unfold State.acquireLatch
  exact s.discard_served _ _

/-- A request that is served lets its own hart go on. -/
theorem State.serve_served {s : State} {r : Held} (hr : r ∈ s.held) : Served s (s.serve r) := by
  have hheld : ¬ s.Unheld ⟨r.tile, r.move⟩ := fun h => (h r hr).elim (fun h => h rfl) (fun h => h rfl)
  have hfree : Served s ((s.unhold r.tile r.move).ungate r.tile) :=
    Served.trans ⟨s.unhold_heldWithin _ _, fun _ _ => ⟨rfl, rfl⟩⟩ (State.ungate_served _ _)
  unfold State.serve
  dsimp only
  generalize hu : (s.unhold r.tile r.move).ungate r.tile = u at hfree
  have hstore : Served u (((((u.countLostInstall r.pa).rawWrite r.pa 8 r.value.toNat).setFull r.pa true).fireWatches r.pa).discard
      r.tile (fun x => x = r.pa / 64)) :=
    (u.countLostInstall_served r.pa).trans (.trans (State.rawWrite_served _ _ _ _)
      (.trans (State.setFull_served _ _ _) (.trans (State.fireWatches_served _ _) (State.discard_served _ _ _))))
  split
  · exact (hfree.result_held hheld _ _ _).trans (State.acquireLatch_served _ _ _)
  · exact ((hfree.trans (u.setFull_served r.pa false)).result_held hheld _ _ _).trans (State.acquireLatch_served _ _ _)
  · exact .modHart_held (hfree.trans hstore) _ hheld
  · exact .modHart_held (hfree.trans hstore) _ hheld

theorem State.homeScan_served (s : State) (pa : Nat) : Served s (s.homeScan pa) := by
  unfold State.homeScan
  generalize s.held.length = n
  induction n generalizing s with
  | zero => exact .refl s
  | succ n ih =>
    rw [State.scan]
    split
    · rename_i r hr
      exact (State.serve_served (List.mem_of_find?_eq_some hr)).trans (ih _)
    · exact .refl s

/-! ## The symbol code -/

theorem State.foldFlips_served (s : State) (line : Nat) (fl : List Nat) : Served s (s.foldFlips line fl) := by
  refine .foldl (fun s j => ?_) _ s
  dsimp only
  split
  · exact .refl s
  · split
    · exact (s.rawWrite_served _ _ _).trans (State.setFull_served _ _ _)
    · exact s.rawWrite_served _ _ _

theorem State.retireBank_served (s : State) (b : Nat) : Served s (s.retireBank b) := by
  unfold State.retireBank
  dsimp only
  split <;> split <;> exact .of_tiles (by simp) (by simp)

theorem State.countCorrected_served (s : State) (b : Nat) : Served s (s.countCorrected b) := by
  unfold State.countCorrected
  dsimp only
  split
  · exact (s.setBank_served _ _).trans (State.retireBank_served _ _)
  · exact s.setBank_served _ _

/-- A line that is lost counts for one context. -/
theorem State.countEcc_served (s : State) (c : Option Nat) :
    Served s (match c with | some c => s.modCtx c (fun x => { x with ecc := satAdd 64 x.ecc 1 }) | none => s) := by
  cases c with
  | none => exact .refl s
  | some c => exact .of_tiles rfl rfl

theorem State.loseLine_served (s : State) (who : Option Nat) (line b : Nat) : Served s (s.loseLine who line b) := by
  have hzero : Served s ((List.range 8).foldl (fun (s : State) i =>
      (s.rawWrite (line * 64 + 8 * i) 8 0).setFull (line * 64 + 8 * i) true) (s.clearFlips line)) :=
    (s.clearFlips_served line).trans
      (.foldl (fun s i => (s.rawWrite_served (line * 64 + 8 * i) 8 0).trans (State.setFull_served _ _ _)) _ _)
  unfold State.loseLine
  extract_lets c s1 s2 b0 s3 s4
  have hbank : Served s s3 := (hzero.trans (s1.countEcc_served c)).trans (s2.setBank_served _ _)
  have hlog : Served s s4 := hbank.logged _ _ _
  refine hlog.trans (.foldl (fun u i => ?_) _ s4)
  exact (u.fireWatches_served (line * 64 + 8 * i)).trans (State.homeScan_served _ _)

theorem State.loseFarLine_served (s : State) (who : Option Nat) (line : Nat) : Served s (s.loseFarLine who line) := by
  have hzero : Served s ((List.range 8).foldl (fun (s : State) i => s.rawWrite (line * 64 + 8 * i) 8 0) (s.clearFlips line)) :=
    (s.clearFlips_served line).trans (.foldl (fun s i => s.rawWrite_served (line * 64 + 8 * i) 8 0) _ _)
  unfold State.loseFarLine
  exact (hzero.trans (State.countEcc_served _ _)).logged _ _ _

theorem State.touch_served (s : State) (c : Option Nat) (line : Nat) : Served s (s.touch c line) := by
  unfold State.touch
  dsimp only
  split
  · split
    · exact .refl s
    · exact s.loseFarLine_served c line
  · split
    · exact .refl s
    · split
      · exact s.loseLine_served c line _
      · rename_i fl named _
        have hfold : Served s ((s.clearFlips line).foldFlips line fl) :=
          (s.clearFlips_served line).trans (State.foldFlips_served _ line fl)
        split
        · exact hfold.trans (State.countCorrected_served _ _)
        · exact hfold

/-! ## Walks, reads and writes of the device -/

theorem State.touchWalk_served (s : State) (c va n level table : Nat) : Served s (s.touchWalk c va n level table) := by
  induction n generalizing s level table with
  | zero => exact .refl s
  | succ n ih =>
    have hentry : Served s (if s.fitted (table + 8 * levelIndex level va) then s.touch (some c) ((table + 8 * levelIndex level va) / 64)
        else s.countUnmapped (some c) (table + 8 * levelIndex level va)) := by
      split
      · exact s.touch_served _ _
      · exact .of_tiles rfl rfl
    rw [State.touchWalk]
    generalize (if s.fitted (table + 8 * levelIndex level va) then s.touch (some c) ((table + 8 * levelIndex level va) / 64)
      else s.countUnmapped (some c) (table + 8 * levelIndex level va)) = u at hentry ⊢
    split
    · exact hentry.trans (ih _ _ _)
    · exact hentry

theorem State.homeRead_served (s : State) (c : Option Nat) (pa n : Nat) : Served s (s.homeRead c pa n).1 := by
  unfold State.homeRead
  split
  · exact s.touch_served _ _
  · split
    · unfold State.stage
      dsimp only
      split <;> exact .of_tiles rfl rfl
    · exact .of_tiles rfl rfl
  · split
    · exact s.touch_served _ _
    · exact .of_tiles rfl rfl

theorem State.directRead_served (s : State) (c : Nat) (l : Leaf) (n : Nat) : Served s (s.directRead c l n).1 := by
  refine Served.trans ?_ (State.homeRead_served _ _ _ _)
  split
  · exact .of_tiles rfl rfl
  · exact .refl s

theorem State.homeWrite_served (s : State) (c : Option Nat) (pa n v : Nat) : Served s (s.homeWrite c pa n v none) := by
  unfold State.homeWrite
  split
  · exact (s.touch_served _ _).trans (.trans (State.countLostInstall_served _ _) (.trans (State.rawWrite_served _ _ _ _)
      (.trans (State.fireWatches_served _ _) (State.homeScan_served _ _))))
  · exact .of_tiles rfl rfl
  · split
    · exact (s.touch_served _ _).trans (State.rawWrite_served _ _ _ _)
    · exact .of_tiles rfl rfl

theorem State.homeWrite_recounted (s : State) (c : Option Nat) (pa n v : Nat) : Recounted s (s.homeWrite c pa n v none) := by
  unfold State.homeWrite
  split
  · exact (s.touch_recounted _ _).trans (.trans (State.countLostInstall_recounted _ _) (.trans (.of_ctxs (State.rawWrite_ctxs _ _ _ _))
      (.trans (.of_ctxs (State.fireWatches_ctxs _ _)) (State.homeScan_recounted _ _))))
  · exact .of_ctxs rfl
  · split
    · exact (s.touch_recounted _ _).trans (.of_ctxs (State.rawWrite_ctxs _ _ _ _))
    · exact .of_ctxs rfl

theorem State.deviceWalk_served (s : State) (c va : Nat) : Served s (s.deviceWalk c va) := s.touchWalk_served _ _ _ _ _

theorem State.deviceWalk_recounted (s : State) (c va : Nat) : Recounted s (s.deviceWalk c va) := s.touchWalk_recounted _ _ _ _ _

end Sys2Proof.Machine
end

section
/-! Stage queues (R170, R172, R174, R175): what bringing a queue up to date and retiring chunks leave of harts and of chunks. -/

namespace Sys2Proof.Machine

open Sys2Proof.Claims

/-! ## Items that are copied -/

/-- A relation that walks, reads and writes at homes keep holds of the copy of an item. -/
theorem State.copyItem_induct {R : State → State → Prop} (hrefl : ∀ s, R s s) (htrans : ∀ {s t u}, R s t → R t u → R s u)
    (hwalk : ∀ (s : State) c va, R s (s.deviceWalk c va)) (hread : ∀ (s : State) c l n, R s (s.directRead c l n).1)
    (hwrite : ∀ (s : State) c pa n v, R s (s.homeWrite c pa n v none)) (s : State) (c src dst n : Nat) : R s (s.copyItem c src dst n) := by
  induction n generalizing s src dst with
  | zero => exact hrefl s
  | succ n ih =>
    rw [State.copyItem]
    refine htrans (htrans (hwalk s c src) (hwalk _ c dst)) (htrans ?_ (ih _ _ _))
    split
    · exact htrans (hread _ _ _ _) (hwrite _ _ _ _ _)
    · exact hrefl _

theorem State.copyItem_served (s : State) (c src dst n : Nat) : Served s (s.copyItem c src dst n) :=
  State.copyItem_induct .refl .trans State.deviceWalk_served State.directRead_served State.homeWrite_served s c src dst n

theorem State.copyItem_recounted (s : State) (c src dst n : Nat) : Recounted s (s.copyItem c src dst n) :=
  State.copyItem_induct .refl .trans State.deviceWalk_recounted State.directRead_recounted State.homeWrite_recounted s c src dst n

/-! ## Harts -/

theorem State.modCtx_served (s : State) (c : Nat) (f : Context → Context) : Served s (s.modCtx c f) := .of_tiles rfl rfl

theorem State.refill_served (s : State) (c j n : Nat) : Served s (s.refill c j n) := by
  induction n generalizing s with
  | zero => exact .refl s
  | succ n ih =>
    rw [State.refill]
    split
    · exact .refl s
    · split
      · exact .refl s
      · dsimp only
        split
        · exact .refl s
        · exact ((s.copyItem_served _ _ _ _).trans (State.modCtx_served _ _ _)).trans (ih _)

theorem State.tend_served (s : State) (c j : Nat) : Served s (s.tend c j) := by
  unfold State.tend
  split
  · exact .refl s
  · exact (s.modCtx_served _ _).trans (State.refill_served _ _ _ _)

theorem State.retireChunks_served (s : State) (t : Nat) (p : Chunk → Bool) : Served s (s.retireChunks t p) :=
  (s.modCtx_served _ _).trans (.foldl (fun s j => s.tend_served _ j) _ _)

/-! ## Chunks -/

/-- Every chunk of a tile in a queue is retired. -/
def StageQueue.AllRetired (q : StageQueue) (ct : Nat) : Prop := ∀ x ∈ q.chunks, x.ctile = ct → x.retired = true

/-- Every chunk that a tile has of a kernel's queues is retired. -/
def Kernel.AllRetired (k : Kernel) (ct : Nat) : Prop := ∀ q ∈ k.queues, q.AllRetired ct

/-- Every chunk that a tile has of a context's kernel is retired. -/
def State.AllRetired (s : State) (c ct : Nat) : Prop := ∀ k, (s.ctx c).kernel = some k → k.AllRetired ct

section
variable {s : State} {c ct : Nat} {k : Kernel} {q : StageQueue}

theorem Kernel.AllRetired.queueAt (h : k.AllRetired ct) {j : Nat} (hq : k.queueAt j = some q) : q.AllRetired ct :=
  h q (List.mem_of_getElem? hq)

theorem Kernel.AllRetired.setQueue (h : k.AllRetired ct) (hq : q.AllRetired ct) (j : Nat) : (k.setQueue j q).AllRetired ct := fun p hp => by
  rcases List.mem_or_eq_of_mem_set hp with hp | rfl
  · exact h p hp
  · exact hq

/-- A pass of the drain rules leaves the chunks. -/
theorem Kernel.AllRetired.settleOnce (h : k.AllRetired ct) : k.settleOnce.AllRetired ct := fun q hq => by
  obtain ⟨p, hp, rfl⟩ := List.mem_map.1 hq
  have hmem : p.1.AllRetired ct := h p.1 (List.of_mem_zip hp).1
  split
  · exact hmem
  · exact hmem

theorem Kernel.AllRetired.settleN (h : k.AllRetired ct) (n : Nat) : (k.settleN n).AllRetired ct := by
  induction n generalizing k with
  | zero => exact h
  | succ n ih => exact ih h.settleOnce

theorem Kernel.AllRetired.settle (h : k.AllRetired ct) : k.settle.AllRetired ct := by
  have hn := h.settleN (k.queues.length + 1)
  unfold Kernel.settle
  dsimp only
  split
  · exact hn
  · exact hn

theorem State.AllRetired.recounted {u : State} (h : s.AllRetired c ct) (hu : Recounted s u) : u.AllRetired c ct := fun k hk =>
  h k ((congrArg Context.kernel (hu c)).symm.trans hk)

theorem State.AllRetired.modKernel {f : Kernel → Kernel} (hf : ∀ k, (s.ctx c).kernel = some k → (f k).AllRetired ct) :
    (s.modCtx c (fun x => x.modKernel f)).AllRetired c ct := fun k hk => by
  rw [State.ctx_modCtx_self] at hk
  obtain ⟨k₀, hk₀, rfl⟩ := Option.map_eq_some_iff.1 hk
  exact hf k₀ hk₀

theorem State.AllRetired.refill (h : s.AllRetired c ct) (j n : Nat) : (s.refill c j n).AllRetired c ct := by
  induction n generalizing s with
  | zero => exact h
  | succ n ih =>
    rw [State.refill]
    split
    · exact h
    · rename_i q hq
      obtain ⟨k, hk, hkq⟩ := Option.bind_eq_some_iff.1 hq
      have hretired : q.AllRetired ct := (h k hk).queueAt hkq
      split
      · exact h
      · dsimp only
        split
        · exact h
        · have hcopied : ∀ src dst m, (s.copyItem c src dst m).AllRetired c ct := fun src dst m =>
            h.recounted (s.copyItem_recounted c src dst m)
          refine ih (.modKernel fun k hk => (hcopied _ _ _ k hk).setQueue ?_ j)
          exact hretired

theorem State.AllRetired.tend (h : s.AllRetired c ct) (j : Nat) : (s.tend c j).AllRetired c ct := by
  unfold State.tend
  split
  · exact h
  · rename_i q hq
    obtain ⟨k, hk, hkq⟩ := Option.bind_eq_some_iff.1 hq
    have hleft : (s.reclaim c q).AllRetired ct := fun x hx => (h k hk).queueAt hkq x ((List.dropWhile_sublist _).subset hx)
    exact .refill (.modKernel fun k hk => (h k hk).setQueue hleft j) j _

/-- A tile whose every chunk is to be retired has none left outstanding. -/
theorem State.retireChunks_all (s : State) (t : Nat) :
    (s.retireChunks t (fun _ => true)).AllRetired (s.ctxOf t) (s.ctileOf t) := by
  have htend : ∀ (l : List Nat) (u : State), u.AllRetired (s.ctxOf t) (s.ctileOf t) →
      (l.foldl (fun (u : State) j => u.tend (s.ctxOf t) j) u).AllRetired (s.ctxOf t) (s.ctileOf t) := fun l => by
    induction l with
    | nil => exact fun _ h => h
    | cons j l ih => exact fun u h => ih _ (h.tend j)
  refine htend _ _ (.modKernel fun k _ => .settle fun q hq => ?_)
  obtain ⟨p, -, rfl⟩ := List.mem_map.1 hq
  intro x hx hct
  obtain ⟨y, -, rfl⟩ := List.mem_map.1 hx
  split at hct
  · rw [if_pos ‹_›]
  · rename_i hy
    rw [if_neg hy]
    simpa [hct] using hy

end

end Sys2Proof.Machine
end

section
/-! Bindings of tiles to stages (R169, R193): what a tile stands at once it is bound, and what a binding leaves. -/

namespace Sys2Proof.Machine

open Sys2Proof.Claims

/-! ## The first registers of a hart -/

section
variable (x : Hart) (pc stage ct : Nat) (arg : Word) (cp : Bool)

theorem Hart.x_bind : (x.bind pc stage ct arg cp).x =
    SMap.set 0 (SMap.set 0 (SMap.set 0 [] 10 (BitVec.ofNat 64 stage)) 11 arg) 12 (BitVec.ofNat 64 ct) := rfl

theorem Hart.readX_bind_stage : (x.bind pc stage ct arg cp).readX 10 = BitVec.ofNat 64 stage := by
  simp [Hart.readX, Hart.x_bind, SMap.get_set]

theorem Hart.readX_bind_arg : (x.bind pc stage ct arg cp).readX 11 = arg := by
  simp [Hart.readX, Hart.x_bind, SMap.get_set]

theorem Hart.readX_bind_ctile : (x.bind pc stage ct arg cp).readX 12 = BitVec.ofNat 64 ct := by
  simp [Hart.readX, Hart.x_bind]

theorem Hart.readX_bind_other {q : Reg} (h10 : q ≠ 10) (h11 : q ≠ 11) (h12 : q ≠ 12) : (x.bind pc stage ct arg cp).readX q = 0 := by
  have hne : ∀ {r : Reg}, q ≠ r → q.toNat ≠ r.toNat := fun h e => h (BitVec.eq_of_toNat_eq e)
  have h10 : q.toNat ≠ 10 := hne h10
  have h11 : q.toNat ≠ 11 := hne h11
  have h12 : q.toNat ≠ 12 := hne h12
  simp [Hart.readX, Hart.x_bind, SMap.get_set, h10, h11, h12]

end

/-! ## A tile that is bound -/

/-- What a context has on a tile once the tile is bound to stage n, y. -/
def TileCtx.bound (m : TileCtx) (y : Stage) (n ct : Nat) (arg : Word) : TileCtx :=
  { m with main := m.main.bind y.main n ct arg m.q0.faulted
           move := m.move.bind y.move n ct arg (m.q1.faulted || m.q2.faulted)
           tokens := []
           ll := 0 }

/-- Whether a queue that a hart pushes to is faulted. -/
def TileCtx.pushesFaulted (m : TileCtx) (mv : Bool) : Bool := if mv then m.q1.faulted || m.q2.faulted else m.q0.faulted

theorem TileCtx.hart_bound (m : TileCtx) (y : Stage) (n ct : Nat) (arg : Word) (mv : Bool) :
    (m.bound y n ct arg).hart mv = (m.hart mv).bind (if mv then y.move else y.main) n ct arg (m.pushesFaulted mv) := by
  cases mv <;> rfl

theorem State.tc_ungate (s : State) (t u : Nat) : (s.ungate t).tc u = s.tc u := by
  unfold State.ungate
  split
  · rw [State.tc, State.tile_setTile, State.tc]
    split
    · subst_vars; rfl
    · rfl
  · rfl

theorem State.watches_ungate (s : State) (t : Nat) : (s.ungate t).watches = s.watches := by
  unfold State.ungate; split <;> rfl

section
variable {s : State} {c ct n t : Nat} {k : Kernel} {y : Stage}

/-- A binding of a tile of the context to a stage of its kernel. -/
theorem State.bindTile_eq (hk : (s.ctx c).kernel = some k) (ht : (s.tilesOf c)[ct]? = some t) (hy : k.stage n = some y) :
    s.bindTile c ct n = ((({ s with watches := s.watches.filter (fun w => w.tile ≠ t) }).modTc t (fun m => m.bound y n ct k.arg)).ungate
      t).modCtx c (fun x => x.modKernel (fun k => { k with bound := SMap.put k.bound ct { stage := n, born := k.epoch } })) := by
  simp only [State.bindTile, hk, ht, hy]
  rfl

/-- A binding to no tile of the context or to no stage of its kernel does nothing. -/
theorem State.bindTile_idle (h : ∀ k t y, (s.ctx c).kernel = some k → (s.tilesOf c)[ct]? = some t → k.stage n ≠ some y) :
    s.bindTile c ct n = s := by
  unfold State.bindTile
  split
  · rename_i k t hk ht
    split
    · rfl
    · rename_i y hy
      exact absurd hy (h k t y hk ht)
  · rfl

variable (hk : (s.ctx c).kernel = some k) (ht : (s.tilesOf c)[ct]? = some t) (hy : k.stage n = some y)
include hk ht hy

theorem State.ctx_bindTile : (s.bindTile c ct n).ctx c = (s.ctx c).modKernel (fun k =>
    { k with bound := SMap.put k.bound ct { stage := n, born := k.epoch } }) := by
  rw [State.bindTile_eq hk ht hy, State.ctx_modCtx_self, State.ctx_congr (State.ungate_ctxs _ _)]
  rfl

theorem State.kernel_bindTile : ((s.bindTile c ct n).ctx c).kernel =
    some { k with bound := SMap.put k.bound ct { stage := n, born := k.epoch } } := by
  rw [State.ctx_bindTile hk ht hy, Context.modKernel, hk]
  rfl

theorem State.tc_bindTile (u : Nat) : (s.bindTile c ct n).tc u = if u = t then (s.tc t).bound y n ct k.arg else s.tc u := by
  rw [State.bindTile_eq hk ht hy, State.tc_modCtx, State.tc_ungate, State.tc_modTc]
  rfl

theorem State.watches_bindTile : (s.bindTile c ct n).watches = s.watches.filter (fun w => w.tile ≠ t) := by
  rw [State.bindTile_eq hk ht hy, State.modCtx_watches, State.watches_ungate]
  rfl

theorem State.hart_bindTile (mv : Bool) : (s.bindTile c ct n).hart ⟨t, mv⟩ =
    (s.hart ⟨t, mv⟩).bind (if mv then y.move else y.main) n ct k.arg ((s.tc t).pushesFaulted mv) := by
  rw [State.hart, State.tc_bindTile hk ht hy, if_pos rfl, TileCtx.hart_bound]
  rfl

theorem State.hart_bindTile_other {u : Nat} (hu : u ≠ t) (mv : Bool) : (s.bindTile c ct n).hart ⟨u, mv⟩ = s.hart ⟨u, mv⟩ := by
  rw [State.hart, State.tc_bindTile hk ht hy, if_neg hu]
  rfl

end

/-! ## What bindings leave -/

/-- Of context c a state has changed the bindings of its kernel alone, and of no tile the image. -/
structure Rebound (c : Nat) (s u : State) : Prop where
  ctx : ∃ g : Kernel → SMap Binding, u.ctx c = (s.ctx c).modKernel (fun k => { k with bound := g k })
  image : ∀ t, (u.tile t).imem = (s.tile t).imem ∧ (u.tile t).textLen = (s.tile t).textLen

namespace Rebound
variable {c : Nat} {s t u : State}

theorem refl (c : Nat) (s : State) : Rebound c s s := by
  refine ⟨⟨Kernel.bound, ?_⟩, fun _ => ⟨rfl, rfl⟩⟩
  have hid : (s.ctx c).modKernel (fun k => k) = s.ctx c := by rw [Context.modKernel, Option.map_id']
  exact hid.symm

theorem trans (h : Rebound c s t) (k : Rebound c t u) : Rebound c s u := by
  obtain ⟨g, hg⟩ := h.ctx
  obtain ⟨f, hf⟩ := k.ctx
  refine ⟨⟨fun k => f { k with bound := g k }, ?_⟩, fun n => ⟨(k.image n).1.trans (h.image n).1, (k.image n).2.trans (h.image n).2⟩⟩
  rw [hf, hg, Context.modKernel, Context.modKernel, Context.modKernel, Option.map_map]
  rfl

theorem foldl {α : Type} {f : State → α → State} (hf : ∀ s a, Rebound c s (f s a)) (l : List α) (s : State) : Rebound c s (l.foldl f s) := by
  induction l generalizing s with
  | nil => exact refl c s
  | cons a l ih => exact (hf s a).trans (ih _)

theorem kernel (h : Rebound c s u) {k : Kernel} (hk : (s.ctx c).kernel = some k) : ∃ m, (u.ctx c).kernel = some { k with bound := m } := by
  obtain ⟨g, hg⟩ := h.ctx
  exact ⟨g k, by rw [hg, Context.modKernel, hk]; rfl⟩

theorem tilesOf (h : Rebound c s u) : u.tilesOf c = s.tilesOf c := by
  obtain ⟨g, hg⟩ := h.ctx
  rw [State.tilesOf, hg]
  rfl

end Rebound

theorem State.image_ungate (s : State) (t u : Nat) :
    ((s.ungate t).tile u).imem = (s.tile u).imem ∧ ((s.ungate t).tile u).textLen = (s.tile u).textLen := by
  unfold State.ungate
  split
  · rw [State.tile_setTile]
    split
    · subst_vars; exact ⟨rfl, rfl⟩
    · exact ⟨rfl, rfl⟩
  · exact ⟨rfl, rfl⟩

theorem State.image_modTc (s : State) (t u : Nat) (f : TileCtx → TileCtx) :
    ((s.modTc t f).tile u).imem = (s.tile u).imem ∧ ((s.modTc t f).tile u).textLen = (s.tile u).textLen := by
  rw [State.modTc, State.tile_setTc]
  split
  · subst_vars; exact ⟨rfl, rfl⟩
  · exact ⟨rfl, rfl⟩

theorem State.bindTile_rebound (s : State) (c ct n : Nat) : Rebound c s (s.bindTile c ct n) := by
  by_cases h : ∃ k t y, (s.ctx c).kernel = some k ∧ (s.tilesOf c)[ct]? = some t ∧ k.stage n = some y
  · obtain ⟨k, t, y, hk, ht, hy⟩ := h
    refine ⟨⟨_, State.ctx_bindTile hk ht hy⟩, fun u => ?_⟩
    rw [State.bindTile_eq hk ht hy, State.tile_modCtx]
    have hgate := State.image_ungate (({ s with watches := s.watches.filter (fun w => w.tile ≠ t) }).modTc t (fun m => m.bound y n ct k.arg)) t u
    have htc := State.image_modTc { s with watches := s.watches.filter (fun w => w.tile ≠ t) } t u (fun m => m.bound y n ct k.arg)
    exact ⟨hgate.1.trans htc.1, hgate.2.trans htc.2⟩
  · rw [State.bindTile_idle fun k t y hk ht hy => h ⟨k, t, y, hk, ht, hy⟩]
    exact .refl c s

end Sys2Proof.Machine
end

section
/-! Exits from a stage, releases of tiles and yields (R134, R169, R176, R177). -/

namespace Sys2Proof.Machine

open Sys2Proof.Claims

/-! ## `kexit` -/

theorem State.endLease_eq (s : State) (t : Nat) : ∃ a, s.endLease t = { s with anvils := a } := by
  unfold State.endLease
  dsimp only
  split
  · exact ⟨_, rfl⟩
  · exact ⟨_, rfl⟩

/-- A tile whose lease has ended holds its anvil no more. -/
theorem State.holder_endLease (s : State) (t : Nat) : ((s.endLease t).anvil (clusterOf t)).holder ≠ some (positionOf t) := by
  unfold State.endLease
  dsimp only
  split
  · rw [State.anvil_setAnvil_self]; exact nofun
  · assumption

/-- A hart of a tile gives up what is the tile's: the main hart its chunks and its lease. -/
def State.givenUp (s : State) (h : HartId) : State := if h.move then s else (s.retireChunks h.tile (fun _ => true)).endLease h.tile

/-- A hart that has exited: it has given up what is its tile's and has stopped after its instruction. -/
def State.exited (s : State) (h : HartId) : State :=
  ((s.givenUp h).retire h (((s.givenUp h).hart h).pc + 4)).modHart h (fun x => { x with run := .stopped })

section
variable {s : State}

theorem State.givenUp_main {h : HartId} (hm : h.move = false) : s.givenUp h = (s.retireChunks h.tile (fun _ => true)).endLease h.tile :=
  if_neg (by simp [hm])

theorem State.givenUp_served (s : State) (h : HartId) : Served s (s.givenUp h) := by
  unfold State.givenUp
  split
  · exact .refl s
  · obtain ⟨a, ha⟩ := (s.retireChunks h.tile (fun _ => true)).endLease_eq h.tile
    rw [ha]
    exact (s.retireChunks_served _ _).trans (.of_tiles rfl rfl)

/-- A hart with no request held stops at the next instruction. -/
theorem State.hart_exited {h : HartId} (hh : s.Unheld h) :
    ((s.exited h).hart h).run = .stopped ∧ ((s.exited h).hart h).pc = (s.hart h).pc + 4 := by
  rw [State.exited, State.hart_modHart_self, State.hart_retire_self, ((s.givenUp_served h).hart h hh).2]
  exact ⟨rfl, rfl⟩

theorem State.holder_exited {h : HartId} (hm : h.move = false) :
    ((s.exited h).anvil (clusterOf h.tile)).holder ≠ some (positionOf h.tile) := by
  rw [State.exited, State.anvil_modHart, State.anvil_retire, State.givenUp_main hm]
  exact State.holder_endLease _ _

theorem State.exited_allRetired {h : HartId} (hm : h.move = false) : (s.exited h).AllRetired (s.ctxOf h.tile) (s.ctileOf h.tile) := by
  obtain ⟨a, ha⟩ := (s.retireChunks h.tile (fun _ => true)).endLease_eq h.tile
  have hctx : (s.exited h).ctx (s.ctxOf h.tile) = (s.retireChunks h.tile (fun _ => true)).ctx (s.ctxOf h.tile) := by
    rw [State.exited, State.ctx_modHart, State.ctx_retire, State.givenUp_main hm, ha]
    rfl
  intro k hk
  exact s.retireChunks_all h.tile k (by rwa [hctx] at hk)

theorem exec_kexit_out (hp : s.pushesOut s.me = true) : exec .kexit s = .next (s.setWait s.me .kexit) := by
  rw [exec_kexit, execKexit]
  exact if_pos hp

/-- Past the exit of its hart `kexit` only notes it in the binding, and may leave the release of the tile to be done. -/
theorem exec_kexit_ends (hp : s.pushesOut s.me = false) : ∃ t, exec .kexit s = .next t ∧ t.tiles = (s.exited s.me).tiles ∧
    t.anvils = (s.exited s.me).anvils ∧
    ∀ ct, (s.exited s.me).AllRetired (s.ctxOf s.me.tile) ct → t.AllRetired (s.ctxOf s.me.tile) ct := by
  have hexec : exec .kexit s = match (s.exited s.me).binding s.me.tile with
      | none => .next (s.exited s.me)
      | some b =>
        let b := if s.me.move then { b with moveStopped := true } else { b with mainStopped := true }
        let u := (s.exited s.me).modCtx (s.ctxOf s.me.tile) (fun x => x.modKernel (fun k =>
          { k with bound := SMap.put k.bound (s.ctileOf s.me.tile) b }))
        .next (if b.mainStopped && b.moveStopped then u.later (.kexitRelease s.me.tile) else u) := by
    rw [exec_kexit, execKexit]
    exact if_neg (by simp [hp])
  rw [hexec]
  split
  · exact ⟨_, rfl, rfl, rfl, fun _ h => h⟩
  · extract_lets b' u
    have hu : ∀ ct, (s.exited s.me).AllRetired (s.ctxOf s.me.tile) ct → u.AllRetired (s.ctxOf s.me.tile) ct := fun ct h =>
      .modKernel fun k hk => h k hk
    split
    · exact ⟨_, rfl, rfl, rfl, hu⟩
    · exact ⟨_, rfl, rfl, rfl, hu⟩

theorem exec_kexit_stops (hp : s.pushesOut s.me = false) (hh : s.Unheld s.me) : ∃ t, exec .kexit s = .next t ∧
    (t.hart s.me).run = .stopped ∧ (t.hart s.me).pc = (s.hart s.me).pc + 4 ∧
    (s.me.move = false → (t.anvil (clusterOf s.me.tile)).holder ≠ some (positionOf s.me.tile) ∧
      t.AllRetired (s.ctxOf s.me.tile) (s.ctileOf s.me.tile)) := by
  obtain ⟨t, hexec, htiles, hanvils, hretired⟩ := exec_kexit_ends hp
  have hhart : t.hart s.me = (s.exited s.me).hart s.me := by simp only [State.hart, State.tc, State.tile, htiles]
  have hanvil : t.anvil (clusterOf s.me.tile) = (s.exited s.me).anvil (clusterOf s.me.tile) := by simp only [State.anvil, hanvils]
  obtain ⟨hrun, hpc⟩ := State.hart_exited hh
  refine ⟨t, hexec, by rw [hhart, hrun], by rw [hhart, hpc], fun hm => ⟨?_, hretired _ (State.exited_allRetired hm)⟩⟩
  rw [hanvil]
  exact State.holder_exited hm

end

/-! ## The next stage of a tile (R176, R177) -/

section
variable {k : Kernel} {b : Binding}

/-- A stage that has not ended and has fewer tiles than tmin. -/
theorem Kernel.below_iff {i : Nat} : Kernel.nextStage.below k i = true ↔ ∃ x, k.stage i = some x ∧ x.ended = false ∧ k.tiles i < x.tmin := by
  unfold Kernel.nextStage.below
  cases k.stage i <;> simp

theorem Kernel.nextStage_marked {m : Nat} (hm : b.mark = some m) (he : k.hasEnded m = false) : k.nextStage b = some m := by
  simp [Kernel.nextStage, hm, he]

/-- A mark whose target has ended counts for nothing. -/
theorem Kernel.nextStage_unmarked (h : ∀ m, b.mark = some m → k.hasEnded m = true) :
    k.nextStage b = (List.range k.stages.length).find? (Kernel.nextStage.below k) := by
  unfold Kernel.nextStage
  split
  · rename_i m hm
    simp [h m hm]
  · rfl

theorem Kernel.stage_lt {i : Nat} {x : Stage} (h : k.stage i = some x) : i < k.stages.length := (List.getElem?_eq_some_iff.1 h).1

theorem Kernel.nextStage_lowest {i : Nat} (h : ∀ m, b.mark = some m → k.hasEnded m = true) (hi : Kernel.nextStage.below k i = true)
    (hlow : ∀ j, j < i → Kernel.nextStage.below k j = false) : k.nextStage b = some i := by
  obtain ⟨x, hx, -⟩ := Kernel.below_iff.1 hi
  rw [Kernel.nextStage_unmarked h, List.find?_range_eq_some]
  exact ⟨hi, List.mem_range.2 (Kernel.stage_lt hx), fun j hj => by simp [hlow j hj]⟩

theorem Kernel.nextStage_none (h : ∀ m, b.mark = some m → k.hasEnded m = true) (hlow : ∀ j, Kernel.nextStage.below k j = false) :
    k.nextStage b = none := by
  rw [Kernel.nextStage_unmarked h, List.find?_range_eq_none]
  exact fun j _ => by simp [hlow j]

end

/-! ## The release of a tile -/

/-- A kernel to which a tile is bound no more. -/
def Kernel.unbound (k : Kernel) (ct : Nat) : Kernel := { k with bound := SMap.del k.bound ct }

/-- A tile is released from its stage. -/
def State.released (s : State) (t : Nat) (k : Kernel) : State :=
  (s.modTc t TileCtx.emptyFull).modCtx (s.ctxOf t) (fun x => { x with kernel := some (k.unbound (s.ctileOf t)) })

section
variable {s : State} {t : Nat} {k : Kernel} {b : Binding} (hk : (s.ctx (s.ctxOf t)).kernel = some k) (hb : s.binding t = some b)
  (hmain : b.mainStopped = true) (hmove : b.moveStopped = true) (hst : (s.ctx (s.ctxOf t)).st = .running)
include hk hb hmain hmove hst

theorem exec_kexitRelease_eq : exec (.kexitRelease t) s = match (k.unbound (s.ctileOf t)).nextStage b with
    | some i => .next ((s.released t k).bindTile (s.ctxOf t) (s.ctileOf t) i)
    | none => .next ((s.released t k).later (.kernelRetire (s.ctxOf t))) := by
  rw [exec_kexitRelease, execKexitRelease]
  simp only [hk, hb]
  rw [if_neg (by simp [hmain, hmove, hst])]
  rfl

/-- A released tile that no rule binds stays unbound. -/
theorem exec_kexitRelease_unbound (hn : (k.unbound (s.ctileOf t)).nextStage b = none) :
    ∃ u, exec (.kexitRelease t) s = .next u ∧ (u.ctx (s.ctxOf t)).kernel = some (k.unbound (s.ctileOf t)) := by
  refine ⟨_, (exec_kexitRelease_eq hk hb hmain hmove hst).trans (by rw [hn]), ?_⟩
  have hctx : ((s.released t k).later (.kernelRetire (s.ctxOf t))).ctx (s.ctxOf t) = (s.released t k).ctx (s.ctxOf t) := rfl
  rw [hctx, State.released, State.ctx_modCtx_self]

theorem exec_kexitRelease_bound {i : Nat} (hn : (k.unbound (s.ctileOf t)).nextStage b = some i) :
    exec (.kexitRelease t) s = .next ((s.released t k).bindTile (s.ctxOf t) (s.ctileOf t) i) :=
  (exec_kexitRelease_eq hk hb hmain hmove hst).trans (by rw [hn])

end

theorem putBit_zero_cp (b : Bool) : putBit 0 6 b = if b then (0x40 : Word) else 0 := by cases b <;> decide

theorem State.pushesFaulted_released (s : State) (t : Nat) (k : Kernel) (mv : Bool) : ((s.released t k).tc t).pushesFaulted mv =
    if mv then (s.queue t 1).faulted || (s.queue t 2).faulted else (s.queue t 0).faulted := by
  rw [State.released, State.tc_modCtx, State.tc_modTc_self]
  rfl

/-- A released tile of the context that is bound to a stage: its harts start there (R169). -/
theorem State.released_bindTile {s : State} {t i : Nat} {k : Kernel} {x : Stage} (ht : (s.tilesOf (s.ctxOf t))[s.ctileOf t]? = some t)
    (hx : k.stage i = some x) :
    let u := (s.released t k).bindTile (s.ctxOf t) (s.ctileOf t) i
    ∃ k', (u.ctx (s.ctxOf t)).kernel = some k' ∧ SMap.find? k'.bound (s.ctileOf t) = some { stage := i, born := k.epoch } ∧
      (u.tc t).tokens = [] ∧ (∀ w ∈ u.watches, w.tile ≠ t) ∧
      ∀ mv, u.hart ⟨t, mv⟩ = ((s.released t k).hart ⟨t, mv⟩).bind (if mv then x.move else x.main) i (s.ctileOf t) k.arg
        (if mv then (s.queue t 1).faulted || (s.queue t 2).faulted else (s.queue t 0).faulted) := by
  intro u
  have hctx : (s.released t k).ctx (s.ctxOf t) = { s.ctx (s.ctxOf t) with kernel := some (k.unbound (s.ctileOf t)) } := by
    rw [State.released, State.ctx_modCtx_self, State.ctx_modTc]
  have hk' : ((s.released t k).ctx (s.ctxOf t)).kernel = some (k.unbound (s.ctileOf t)) := by rw [hctx]
  have ht' : ((s.released t k).tilesOf (s.ctxOf t))[s.ctileOf t]? = some t := by rw [State.tilesOf, hctx]; exact ht
  have hx' : (k.unbound (s.ctileOf t)).stage i = some x := hx
  refine ⟨_, State.kernel_bindTile hk' ht' hx', SMap.find?_put_self _ _ _, ?_, fun w hw => ?_, fun mv => ?_⟩
  · rw [State.tc_bindTile hk' ht' hx', if_pos rfl]
    rfl
  · rw [State.watches_bindTile hk' ht' hx'] at hw
    simpa using (List.mem_filter.1 hw).2
  · rw [State.hart_bindTile hk' ht' hx', State.pushesFaulted_released]
    rfl

/-! ## `ctx.yield` -/

section
variable {s : State}

theorem exec_ctxYield_goes_on (hy : (s.hart s.me).yieldRequested = false) :
    exec .ctxYield s = .next (s.retire s.me ((s.hart s.me).pc + 4)) := by
  rw [exec_ctxYield, execCtxYield]
  simp only [hy, Bool.false_eq_true, if_false]

theorem exec_ctxYield_yields (hy : (s.hart s.me).yieldRequested = true) :
    exec .ctxYield s = .next ((s.retire s.me ((s.hart s.me).pc + 4)).startPreempt (s.ctxOf s.me.tile)) := by
  have howner : ∀ pc, (s.retire s.me pc).ctxOf s.me.tile = s.ctxOf s.me.tile := fun pc => State.ctxOf_modHart _ _ _ _
  rw [exec_ctxYield, execCtxYield]
  simp only [hy, if_true, howner]

end

/-- Settles O31: a hart that exits gives up what is its tile's; a released tile goes to its next stage; a yield starts a pre-emption. -/
theorem kernelExit : Obligations.KernelExit := by
  unfold Obligations.KernelExit
  refine ⟨fun s => ⟨exec_kexit_out, fun hp hh => ?_⟩, fun s t k b => ?_,
    fun s => ⟨exec_ctxYield_goes_on, exec_ctxYield_yields⟩⟩
  · obtain ⟨t, hexec, hrun, hpc, hup⟩ := exec_kexit_stops hp hh
    exact ⟨t, hexec, hrun, hpc, hup⟩
  · intro c ct free low marked bound hk hb hmain hmove hst ht
    have hbound : ∀ i x, k.stage i = some x → free.nextStage b = some i → bound i := fun i x hx hn => by
      obtain ⟨k', hk', hbind, htokens, hwatches, hhart⟩ := State.released_bindTile (k := k) ht hx
      refine ⟨x, _, k', hx, exec_kexitRelease_bound hk hb hmain hmove hst hn, hk', hbind, htokens, hwatches, fun mv => ?_⟩
      rw [hhart]
      exact ⟨rfl, rfl, Hart.readX_bind_stage _ _ _ _ _ _, Hart.readX_bind_arg _ _ _ _ _ _, Hart.readX_bind_ctile _ _ _ _ _ _,
        fun q => Hart.readX_bind_other _ _ _ _ _ _, rfl, rfl, rfl, rfl, rfl, putBit_zero_cp _⟩
    have hlow : ∀ i, Kernel.nextStage.below free i = true ↔ low i := fun i => Kernel.below_iff
    have hended : (∀ m, ¬ marked m) → ∀ m, b.mark = some m → free.hasEnded m = true := fun h m hm =>
      (Bool.eq_false_or_eq_true _).resolve_right fun he => h m ⟨hm, he⟩
    have hnot : ∀ j, ¬ low j → Kernel.nextStage.below free j = false := fun j hj => Bool.eq_false_iff.2 fun h => hj ((hlow j).1 h)
    refine ⟨fun m ⟨hm, he⟩ => ?_, fun i hn hi hj => ?_, fun hn hl => ?_⟩
    · cases hx : k.stage m with
      | none => simp [Kernel.hasEnded, hx] at he
      | some x => exact hbound m x hx (Kernel.nextStage_marked hm he)
    · obtain ⟨x, hx, -⟩ := id hi
      exact hbound i x hx (Kernel.nextStage_lowest (hended hn) ((hlow i).2 hi) fun j h => hnot j (hj j h))
    · exact exec_kexitRelease_unbound hk hb hmain hmove hst (Kernel.nextStage_none (hended hn) fun j => hnot j (hl j))

end Sys2Proof.Machine
end

section
/-! The loading of a kernel (R165 to R169): what the walks leave, its stages once the drain rules have been applied, and the initial binding. -/

namespace Sys2Proof.Machine

open Sys2Proof.Claims

/-! ## The walks of a load -/

theorem State.walkPages_recounted (s : State) (c va n k : Nat) : Recounted s (s.walkPages c va n k) := by
  induction k generalizing s va n with
  | zero => exact .refl s
  | succ k ih =>
    rw [State.walkPages]
    split
    · exact .refl s
    · exact (s.deviceWalk_recounted c va).trans (ih _ _ _)

theorem State.walkKernel_recounted (s : State) (c : Nat) (k : Kernel) : Recounted s (s.walkKernel c k) :=
  .foldl (fun s (x : Nat × Nat) => s.walkPages_recounted c x.1 x.2 (x.2 / 16384 + 2)) _ s

/-! ## The drain rules (R167, R175) -/

/-- A stage but for whether it has ended. -/
def Stage.declared (x : Stage) : Stage := { x with ended := false }

/-- What the drain rules leave of a kernel: all but its queues, which of its stages have ended, and whether it is draining. -/
def Kernel.Drains (k l : Kernel) : Prop :=
  ∃ qs ss st, l = { k with queues := qs, stages := ss, st := st } ∧ ss.map Stage.declared = k.stages.map Stage.declared ∧
    (st = k.st ∨ st = .draining)

theorem Kernel.Drains.trans {k l m : Kernel} (h : k.Drains l) (g : l.Drains m) : k.Drains m := by
  obtain ⟨qs, ss, st, rfl, hss, hst⟩ := h
  obtain ⟨rs, ts, su, rfl, hts, hsu⟩ := g
  refine ⟨rs, ts, su, rfl, hts.trans hss, ?_⟩
  rcases hsu with rfl | rfl
  · exact hst
  · exact .inr rfl

theorem Kernel.settleOnce_drains (k : Kernel) : k.Drains k.settleOnce := by
  refine ⟨_, _, k.st, rfl, ?_, .inl rfl⟩
  rw [List.map_map]
  rfl

theorem Kernel.settleN_drains (k : Kernel) (n : Nat) : k.Drains (k.settleN n) := by
  induction n generalizing k with
  | zero => exact ⟨k.queues, k.stages, k.st, rfl, rfl, .inl rfl⟩
  | succ n ih => exact k.settleOnce_drains.trans (ih _)

theorem Kernel.settle_drains (k : Kernel) : k.Drains k.settle := by
  have hn := k.settleN_drains (k.queues.length + 1)
  unfold Kernel.settle
  dsimp only
  split
  · exact hn.trans ⟨_, _, .draining, rfl, rfl, .inr rfl⟩
  · exact hn

/-! ## The initial binding (R168) -/

/-- Whether a stage has fewer tiles than tmax of those that are given out. -/
def belowTmax (l : List Stage) (acc : List Nat) (i : Nat) : Bool :=
  match l[i]? with
  | some x => (acc.filter (· = i)).length < x.tmax
  | none => false

theorem extraRounds_succ (l : List Stage) (n r : Nat) (acc : List Nat) : extraRounds l n (r + 1) acc =
    if ((List.range l.length).filter (belowTmax l acc)).isEmpty || n ≤ acc.length then acc
    else extraRounds l n r (acc ++ (List.range l.length).filter (belowTmax l acc)) := rfl

theorem belowTmax_declared (l : List Stage) (acc : List Nat) : belowTmax (l.map Stage.declared) acc = belowTmax l acc := by
  funext i
  unfold belowTmax
  rw [List.getElem?_map]
  cases l[i]? <;> rfl

theorem extraRounds_declared (l : List Stage) (n r : Nat) (acc : List Nat) :
    extraRounds (l.map Stage.declared) n r acc = extraRounds l n r acc := by
  induction r generalizing acc with
  | zero => rfl
  | succ r ih => rw [extraRounds_succ, extraRounds_succ, List.length_map, belowTmax_declared, ih]

/-- The stages of the initial binding are the same whichever stages have ended. -/
theorem initialStages_declared (l : List Stage) (n : Nat) : initialStages (l.map Stage.declared) n = initialStages l n := by
  have hfirst : ((l.map Stage.declared).zip (List.range (l.map Stage.declared).length)).flatMap (fun p => List.replicate p.1.tmin p.2) =
      (l.zip (List.range l.length)).flatMap (fun p => List.replicate p.1.tmin p.2) := by
    rw [List.length_map, List.zip_map_left, List.flatMap_map]
    rfl
  simp only [initialStages, hfirst, extraRounds_declared]

theorem initialStages_congr {l m : List Stage} (h : m.map Stage.declared = l.map Stage.declared) (n : Nat) :
    initialStages m n = initialStages l n := by
  rw [← initialStages_declared m, h, initialStages_declared]

/-- A stage of one of two lists of the same declared stages stands in the other, with the same entries. -/
theorem stage_of_declared {l m : List Stage} (h : m.map Stage.declared = l.map Stage.declared) {n : Nat} {y : Stage} (hy : l[n]? = some y) :
    ∃ z, m[n]? = some z ∧ z.main = y.main ∧ z.move = y.move := by
  have hn : (m[n]?).map Stage.declared = some y.declared := by rw [← List.getElem?_map, h, List.getElem?_map, hy]; rfl
  obtain ⟨z, hz, hzy⟩ := Option.map_eq_some_iff.1 hn
  have hmain : z.declared.main = y.declared.main := congrArg Stage.main hzy
  have hmove : z.declared.move = y.declared.move := congrArg Stage.move hzy
  exact ⟨z, hz, hmain, hmove⟩

/-- Tile t, context tile ct, stands at stage n, y: it is bound to it and its harts have been started there. -/
def State.StandsAt (s : State) (c ct t n : Nat) (y : Stage) : Prop :=
  ∃ k, (s.ctx c).kernel = some k ∧ SMap.find? k.bound ct = some { stage := n, born := k.epoch } ∧
    ∀ mv, ∃ z cp, s.hart ⟨t, mv⟩ = Hart.bind z (if mv then y.move else y.main) n ct k.arg cp

section
variable {s : State} {c ct t n : Nat} {y : Stage}

theorem State.standsAt_bindTile {k : Kernel} (hk : (s.ctx c).kernel = some k) (ht : (s.tilesOf c)[ct]? = some t) (hy : k.stage n = some y) :
    (s.bindTile c ct n).StandsAt c ct t n y :=
  ⟨_, State.kernel_bindTile hk ht hy, SMap.find?_put_self _ _ _, fun mv => ⟨_, _, State.hart_bindTile hk ht hy mv⟩⟩

/-- A binding of another tile leaves a tile where it stands. -/
theorem State.StandsAt.bindTile_other (h : s.StandsAt c ct t n y) (hd : (s.tilesOf c).Nodup) (ht : (s.tilesOf c)[ct]? = some t) {j : Nat}
    (hj : j ≠ ct) (m : Nat) : (s.bindTile c j m).StandsAt c ct t n y := by
  obtain ⟨k, hk, hb, hh⟩ := h
  by_cases hbinds : ∃ u x, (s.tilesOf c)[j]? = some u ∧ k.stage m = some x
  · obtain ⟨u, x, hu, hx⟩ := hbinds
    have hut : t ≠ u := by
      rintro rfl
      exact hj ((List.getElem?_inj (List.getElem?_eq_some_iff.1 hu).1 hd).1 (hu.trans ht.symm))
    refine ⟨_, State.kernel_bindTile hk hu hx, (SMap.find?_put_other _ _ _ _ (Ne.symm hj)).trans hb, fun mv => ?_⟩
    rw [State.hart_bindTile_other hk hu hx hut]
    exact hh mv
  · have hidle : s.bindTile c j m = s := State.bindTile_idle fun k' u x hk' hu hx =>
      hbinds ⟨u, x, hu, by rwa [Option.some.inj (hk.symm.trans hk')]⟩
    rw [hidle]
    exact ⟨k, hk, hb, hh⟩

/-- Bindings of tiles, each to its stage. -/
def State.bindTiles (s : State) (c : Nat) (l : List (Nat × Nat)) : State := l.foldl (fun (s : State) p => s.bindTile c p.2 p.1) s

theorem State.bindTiles_rebound (s : State) (c : Nat) (l : List (Nat × Nat)) : Rebound c s (s.bindTiles c l) :=
  .foldl (fun s (p : Nat × Nat) => s.bindTile_rebound c p.2 p.1) l s

theorem State.StandsAt.bindTiles (h : s.StandsAt c ct t n y) (hd : (s.tilesOf c).Nodup) (ht : (s.tilesOf c)[ct]? = some t)
    {l : List (Nat × Nat)} (hl : ct ∉ l.map Prod.snd) : (s.bindTiles c l).StandsAt c ct t n y := by
  induction l generalizing s with
  | nil => exact h
  | cons p l ih =>
    obtain ⟨hp, hl⟩ := not_or.1 (fun h => hl (List.mem_cons.2 h))
    have htiles := (s.bindTile_rebound c p.2 p.1).tilesOf
    exact ih (h.bindTile_other hd ht (Ne.symm hp) p.1) (by rwa [htiles]) (by rwa [htiles]) hl

/-- Of bindings of different tiles each stands. -/
theorem State.standsAt_bindTiles {k : Kernel} (hk : (s.ctx c).kernel = some k) (hd : (s.tilesOf c).Nodup) (ht : (s.tilesOf c)[ct]? = some t)
    (hy : k.stage n = some y) {l : List (Nat × Nat)} (hl : (l.map Prod.snd).Nodup) (hmem : (n, ct) ∈ l) :
    (s.bindTiles c l).StandsAt c ct t n y := by
  induction l generalizing s k with
  | nil => cases hmem
  | cons p l ih =>
    have hrebound := s.bindTile_rebound c p.2 p.1
    have htiles := hrebound.tilesOf
    obtain ⟨hp, hl⟩ := List.nodup_cons.1 hl
    rcases List.mem_cons.1 hmem with rfl | hmem
    · exact (State.standsAt_bindTile hk ht hy).bindTiles (by rwa [htiles]) (by rwa [htiles]) hp
    · obtain ⟨m, hm⟩ := hrebound.kernel hk
      exact ih hm (by rwa [htiles]) (by rwa [htiles]) hy hl hmem

end

/-- Each entry of a list stands in the list of its entries with their places. -/
theorem mem_zip_range {α : Type} {l : List α} {i : Nat} {a : α} (h : l[i]? = some a) : (a, i) ∈ l.zip (List.range l.length) := by
  obtain ⟨hi, ha⟩ := List.getElem?_eq_some_iff.1 h
  refine List.mem_of_getElem? (i := i) ?_
  rw [List.getElem?_zip_eq_some]
  exact ⟨h, List.getElem?_range hi⟩

theorem nodup_places {α : Type} (l : List α) : ((l.zip (List.range l.length)).map Prod.snd).Nodup := by
  rw [List.map_snd_zip (by simp)]
  exact List.nodup_range

end Sys2Proof.Machine
end

section
/-! The life of a kernel and the epochs of its scheduler (R166 to R169, R178, R180, R182). -/

namespace Sys2Proof.Machine

open Sys2Proof.Claims

/-! ## A context that is resident again -/

theorem State.ctx_toResident (s : State) (c : Nat) : (s.toResident c).ctx c = { s.ctx c with st := .resident } := by
  obtain ⟨tiles, h⟩ := s.setDrained_frame c true
  rw [State.toResident, State.ctx_modCtx_self, h]
  rfl

/-! ## Loading -/

section
variable {s : State} {c : Nat} {k : Kernel}

theorem exec_kernelLoad_starts {rest : List Kernel} (hst : (s.ctx c).st = .running) (hw : (s.ctx c).waiting = k :: rest)
    (hk : (s.ctx c).kernel = none) : exec (.kernelLoad c) s = .next ((s.modCtx c (fun x =>
      { x with waiting := rest, kernel := some { k with st := .loaded } })).later (.kernelLoadComplete c)) := by
  rw [exec_kernelLoad, execKernelLoad]
  simp only [hw]
  rw [if_neg (by simp [hst, hk])]

/-- The image of a kernel is written to tiles. -/
def State.imaged (s : State) (ts : List Nat) (img : SMap Word32) (n : Nat) : State :=
  ts.foldl (fun (s : State) t => s.setTile t { s.tile t with imem := img, textLen := n }) s

/-- The digest of a kernel's launch is taken where no other launch waits. -/
def State.digested (s : State) (c : Nat) (k : Kernel) (last : Bool) : State :=
  if last then s.modCtx c (fun x => { x with launchDigest := sha3 (s.launchBytes c k) }) else s

/-- A kernel as it runs from its loading on, its drain rules applied. -/
def Kernel.runningFrom (k : Kernel) (clk : Nat) : Kernel :=
  Kernel.settle { k with st := .running, queues := (numberItems k.queues 0).1, nextSeq := (numberItems k.queues 0).2, since := clk }

/-- A kernel and its tables are the context's. -/
def Context.runs (x : Context) (k : Kernel) : Context :=
  { x with kernel := some k, groups := k.groups, scopes := k.scopes, binds := k.binds, consts := k.consts }

/-- The image of a kernel is read from memory and stands on every tile of the context. -/
def State.imageLoaded (s : State) (c : Nat) (k : Kernel) (ts : List Nat) (last : Bool) : State :=
  ((s.touchVirt c k.text k.textLen).digested c k last).imaged ts ((s.touchVirt c k.text k.textLen).imageOf c k) k.textLen

/-- A kernel that is loaded runs from now on, with no tile bound yet. -/
def State.inPlace (s : State) (c : Nat) (k : Kernel) (ts : List Nat) (last : Bool) : State :=
  (s.imageLoaded c k ts last).modCtx c (fun x => x.runs (k.runningFrom (s.imageLoaded c k ts last).clk))

/-- A kernel that runs is the one that was loaded, but for its queues, its sequence numbers, when its epoch began, and what the drain
rules have ended. -/
theorem Kernel.runningFrom_eq (k : Kernel) (clk : Nat) : ∃ qs ss st n, k.runningFrom clk =
      { k with st := st, stages := ss, queues := qs, nextSeq := n, since := clk } ∧
    ss.map Stage.declared = k.stages.map Stage.declared ∧ (st = .running ∨ st = .draining) := by
  obtain ⟨qs, ss, st, h, hss, hst⟩ := Kernel.settle_drains
    { k with st := .running, queues := (numberItems k.queues 0).1, nextSeq := (numberItems k.queues 0).2, since := clk }
  exact ⟨qs, ss, st, _, h, hss, hst⟩

theorem Kernel.runningFrom_stages (k : Kernel) (clk : Nat) : (k.runningFrom clk).stages.map Stage.declared = k.stages.map Stage.declared := by
  obtain ⟨_, ss, _, _, h, hss, -⟩ := k.runningFrom_eq clk
  rw [h]
  exact hss

/-- The stages of the initial binding of n tiles, each with the tile that it gets. -/
def initialPlaces (l : List Stage) (n : Nat) : List (Nat × Nat) := (initialStages l n).zip (List.range (initialStages l n).length)

/-- A loaded kernel begins: it is in place and its initial binding is made. -/
def State.kernelBegun (s : State) (c : Nat) (k : Kernel) : State :=
  ((s.walkKernel c k).inPlace c k (s.ctx c).tiles (s.ctx c).waiting.isEmpty).bindTiles c (initialPlaces k.stages (s.ctx c).tiles.length)

section
variable (hst : (s.ctx c).st = .running) (hk : (s.ctx c).kernel = some k) (hl : k.st = .loaded)
include hst hk hl

theorem exec_kernelLoadComplete_refused {why : Nat} (hwhy : (s.walkKernel c k).loadReason c k = why) (hne : why ≠ 0)
    (hw : (s.ctx c).waiting = []) : exec (.kernelLoadComplete c) s = .next (((s.walkKernel c k).modCtx c (fun x =>
      { x with kernel := some { k with st := .refused, reason := why }, reports := x.reports ++ [why] })).toResident c) := by
  rw [exec_kernelLoadComplete, execKernelLoadComplete]
  simp only [hk]
  rw [if_neg (by simp [hst, hl])]
  simp only [hwhy, if_pos hne, hw, List.isEmpty_nil, if_true]

theorem exec_kernelLoadComplete_begins (hwhy : (s.walkKernel c k).loadReason c k = 0) :
    exec (.kernelLoadComplete c) s = .next (s.kernelBegun c k) := by
  rw [State.kernelBegun, initialPlaces, ← initialStages_congr (k.runningFrom_stages
    ((s.walkKernel c k).imageLoaded c k (s.ctx c).tiles (s.ctx c).waiting.isEmpty).clk) (s.ctx c).tiles.length]
  rw [exec_kernelLoadComplete, execKernelLoadComplete]
  simp only [hk]
  rw [if_neg (by simp [hst, hl])]
  simp only [hwhy]
  rfl

end

/-! ## A kernel that is in place -/

theorem State.imaged_ctxs (s : State) (ts : List Nat) (img : SMap Word32) (n : Nat) : (s.imaged ts img n).ctxs = s.ctxs :=
  State.foldl_keeps State.ctxs (f := fun (s : State) t => s.setTile t { s.tile t with imem := img, textLen := n }) (fun _ _ => rfl) ts s

theorem State.image_imaged {ts : List Nat} {img : SMap Word32} {n u : Nat}
    (h : u ∈ ts ∨ (s.tile u).imem = img ∧ (s.tile u).textLen = n) :
    ((s.imaged ts img n).tile u).imem = img ∧ ((s.imaged ts img n).tile u).textLen = n := by
  induction ts generalizing s with
  | nil => exact h.resolve_left List.not_mem_nil
  | cons t ts ih =>
    refine ih ?_
    rw [State.tile_setTile]
    by_cases hut : u = t
    · exact .inr (by rw [if_pos hut]; exact ⟨rfl, rfl⟩)
    · rw [if_neg hut]
      exact h.imp (fun h => (List.mem_cons.1 h).resolve_left hut) id

theorem State.ctx_digested (s : State) (c : Nat) (k : Kernel) (last : Bool) :
    ∃ d, (s.digested c k last).ctx c = { s.ctx c with launchDigest := d } := by
  unfold State.digested
  split
  · exact ⟨_, State.ctx_modCtx_self _ _ _⟩
  · exact ⟨_, rfl⟩

theorem State.ctx_inPlace (s : State) (c : Nat) (k : Kernel) (ts : List Nat) (last : Bool) :
    ∃ x : Context, (s.inPlace c k ts last).ctx c = x.runs (k.runningFrom (s.imageLoaded c k ts last).clk) ∧
      x.clusters = (s.ctx c).clusters := by
  obtain ⟨d, hd⟩ := (s.touchVirt c k.text k.textLen).ctx_digested c k last
  have hloaded : (s.imageLoaded c k ts last).ctx c = { (s.touchVirt c k.text k.textLen).ctx c with launchDigest := d } :=
    (State.ctx_congr (State.imaged_ctxs _ _ _ _) c).trans hd
  refine ⟨_, State.ctx_modCtx_self _ _ _, ?_⟩
  rw [hloaded, s.touchVirt_recounted c k.text k.textLen c]

theorem State.tilesOf_inPlace (s : State) (c : Nat) (k : Kernel) (ts : List Nat) (last : Bool) :
    (s.inPlace c k ts last).tilesOf c = s.tilesOf c := by
  obtain ⟨x, hx, hclusters⟩ := s.ctx_inPlace c k ts last
  rw [State.tilesOf, State.tilesOf, hx, Context.tiles, Context.tiles, ← hclusters]
  rfl

theorem State.tilesOf_walkKernel (s : State) (c : Nat) (k : Kernel) : (s.walkKernel c k).tilesOf c = (s.ctx c).tiles := by
  rw [State.tilesOf, s.walkKernel_recounted c k c]
  rfl

/-! ## A kernel that has begun -/

/-- The context of a kernel that has begun: the kernel is the one that was loaded, and its tables are the context's (R167). -/
theorem State.ctx_kernelBegun (s : State) (c : Nat) (k : Kernel) :
    ∃ k', ((s.kernelBegun c k).ctx c).kernel = some k' ∧ (k'.st = .running ∨ k'.st = .draining) ∧ k'.arg = k.arg ∧ k'.epoch = k.epoch ∧
      ((s.kernelBegun c k).ctx c).consts = k.consts ∧ ((s.kernelBegun c k).ctx c).scopes = k.scopes ∧
      ((s.kernelBegun c k).ctx c).groups = k.groups ∧ ((s.kernelBegun c k).ctx c).binds = k.binds := by
  obtain ⟨x, hx, -⟩ := (s.walkKernel c k).ctx_inPlace c k (s.ctx c).tiles (s.ctx c).waiting.isEmpty
  obtain ⟨qs, ss, st, n, hrunning, -, hst⟩ := k.runningFrom_eq
    ((s.walkKernel c k).imageLoaded c k (s.ctx c).tiles (s.ctx c).waiting.isEmpty).clk
  obtain ⟨g, hg⟩ := (State.bindTiles_rebound _ c (initialPlaces k.stages (s.ctx c).tiles.length)).ctx
  rw [State.kernelBegun, hg, hx, hrunning]
  exact ⟨_, rfl, hst, rfl, rfl, rfl, rfl, rfl, rfl⟩

/-- Every tile of the context holds the kernel's image (R167). -/
theorem State.image_kernelBegun {u : Nat} (hu : u ∈ (s.ctx c).tiles) :
    ((s.kernelBegun c k).tile u).imem = ((s.walkKernel c k).touchVirt c k.text k.textLen).imageOf c k ∧
      ((s.kernelBegun c k).tile u).textLen = k.textLen := by
  obtain ⟨himem, hlen⟩ := (State.bindTiles_rebound ((s.walkKernel c k).inPlace c k (s.ctx c).tiles (s.ctx c).waiting.isEmpty) c
    (initialPlaces k.stages (s.ctx c).tiles.length)).image u
  rw [State.kernelBegun, himem, hlen]
  exact State.image_imaged (.inl hu)

/-- Each tile of the initial binding stands at its stage (R168, R169). -/
theorem State.standsAt_kernelBegun (hd : (s.ctx c).tiles.Nodup) {i n u : Nat} {y : Stage}
    (hi : (initialStages k.stages (s.ctx c).tiles.length)[i]? = some n) (hu : (s.ctx c).tiles[i]? = some u) (hy : k.stages[n]? = some y) :
    ∃ z, z.main = y.main ∧ z.move = y.move ∧ (s.kernelBegun c k).StandsAt c i u n z := by
  obtain ⟨x, hx, -⟩ := (s.walkKernel c k).ctx_inPlace c k (s.ctx c).tiles (s.ctx c).waiting.isEmpty
  have htiles := ((s.walkKernel c k).tilesOf_inPlace c k (s.ctx c).tiles (s.ctx c).waiting.isEmpty).trans (s.tilesOf_walkKernel c k)
  obtain ⟨z, hz, hmain, hmove⟩ := stage_of_declared (k.runningFrom_stages
    ((s.walkKernel c k).imageLoaded c k (s.ctx c).tiles (s.ctx c).waiting.isEmpty).clk) hy
  refine ⟨z, hmain, hmove, State.standsAt_bindTiles (by rw [hx]; rfl) (by rwa [htiles]) (by rwa [htiles]) hz (nodup_places _) ?_⟩
  exact mem_zip_range hi

/-! ## Retirement -/

/-- The tiles that are bound to a stage are given up. -/
def State.tilesFreed (s : State) (ts : List Nat) (bound : SMap Binding) : State :=
  bound.foldl (fun (s : State) p => match ts[p.1]? with | some t => s.modTc t TileCtx.emptyFull | none => s) s

theorem State.tilesFreed_ctxs (s : State) (ts : List Nat) (bound : SMap Binding) : (s.tilesFreed ts bound).ctxs = s.ctxs := by
  unfold State.tilesFreed
  exact State.foldl_keeps State.ctxs (fun u p => by split <;> rfl) bound s

section
variable (hst : (s.ctx c).st = .running) (hk : (s.ctx c).kernel = some k) (hl : k.st = .running ∨ k.st = .draining)
  (hdone : s.workDone c k = true)
include hst hk hl hdone

theorem exec_kernelRetire_waits (hp : s.putsOut c = true) : exec (.kernelRetire c) s = .next (s.later (.kernelRetire c)) := by
  rw [exec_kernelRetire, execKernelRetire]
  simp only [hk]
  rw [if_neg (by rcases hl with hl | hl <;> simp [hst, hl, hdone]), if_pos hp]

theorem exec_kernelRetire_retires (hp : s.putsOut c = false) (hw : (s.ctx c).waiting = []) :
    exec (.kernelRetire c) s = .next (((s.tilesFreed (s.ctx c).tiles k.bound).modCtx c (fun x => { x with
      kernel := some { k with st := .retired, bound := [] },
      counters := [k.stray, k.dropped, k.marks, k.taken] })).toResident c) := by
  rw [exec_kernelRetire, execKernelRetire]
  simp only [hk]
  rw [if_neg (by rcases hl with hl | hl <;> simp [hst, hl, hdone]), if_neg (by simp [hp])]
  simp only [hw, List.isEmpty_nil, if_true]
  rfl

end

/-! ## Epochs (R178, R180) -/

theorem State.giveTiles_rebound (s : State) (c : Nat) (ts served : List Nat) : Rebound c s (s.giveTiles c ts served).1 := by
  induction ts generalizing s served with
  | nil => exact .refl c s
  | cons t ts ih =>
    rw [State.giveTiles]
    split
    · exact .refl c s
    · dsimp only
      split
      · exact (s.bindTile_rebound c t _).trans (ih _ _)
      · exact .refl c s

/-- A pair of stages changes bindings and the count of marks. -/
theorem Kernel.markFor_eq (donors : List Nat) (k : Kernel) (r : Nat) : ∃ m n, Kernel.markFor donors k r = { k with bound := m, marks := n } := by
  unfold Kernel.markFor
  split
  · exact ⟨_, _, rfl⟩
  · split
    · exact ⟨_, _, rfl⟩
    · exact ⟨_, _, rfl⟩

theorem Kernel.foldl_markFor_eq (donors rs : List Nat) (k : Kernel) :
    ∃ m n, rs.foldl (Kernel.markFor donors) k = { k with bound := m, marks := n } := by
  induction rs generalizing k with
  | nil => exact ⟨_, _, rfl⟩
  | cons r rs ih =>
    obtain ⟨m, n, h⟩ := k.markFor_eq donors r
    obtain ⟨m', n', h'⟩ := ih (Kernel.markFor donors k r)
    exact ⟨m', n', by rw [List.foldl_cons, h', h]⟩

theorem exec_stageSchedulerEpoch_idle (hk : (s.ctx c).kernel = some k) (hst : (s.ctx c).st ≠ .running) :
    exec (.stageSchedulerEpoch c) s = .next s := by
  rw [exec_stageSchedulerEpoch, execStageSchedulerEpoch]
  simp only [hk]
  rw [if_pos (by simp [hst])]

/-- A kernel whose epoch has ended, of len cycles: if no tile is left to give, recipients that got none take from the donors. -/
def Kernel.epochEnded (k : Kernel) (donors : List Nat) (left served : List Nat) (len : Nat) : Kernel :=
  let k := if left.isEmpty then (k.recipients.filter (fun i => !served.contains i)).foldl (Kernel.markFor donors) k else k
  { k with epoch := k.epoch + 1, since := k.since + len }

theorem Kernel.epochEnded_next (k : Kernel) (donors left served : List Nat) (len : Nat) :
    (k.epochEnded donors left served len).epoch = k.epoch + 1 ∧ (k.epochEnded donors left served len).since = k.since + len := by
  unfold Kernel.epochEnded
  split
  · obtain ⟨_, _, h⟩ := Kernel.foldl_markFor_eq donors (k.recipients.filter (fun i => !served.contains i)) k
    rw [h]
    exact ⟨rfl, rfl⟩
  · exact ⟨rfl, rfl⟩

/-- What the scheduler gives of a context's unbound tiles at an epoch's end: the state, the tiles left and the stages served. -/
def State.epochGiven (s : State) (c : Nat) (k : Kernel) : State × List Nat × List Nat :=
  State.giveTiles { s with fresh := s.fresh + k.stages.length } c
    ((List.range (s.ctx c).tiles.length).filter (fun t => (SMap.find? k.bound t).isNone)) []

theorem State.epochGiven_kernel (hk : (s.ctx c).kernel = some k) :
    ∃ m, ((s.epochGiven c k).1.ctx c).kernel = some { k with bound := m } :=
  (State.giveTiles_rebound _ _ _ _).kernel hk

/-- The donors of an epoch, in the order of the keys that are drawn for it. -/
def State.epochDonors (s : State) (k : Kernel) : List Nat :=
  k.donors (nth 0 ((List.range k.stages.length).map (fun i => (Config.freeWord (s.fresh + i)).toNat)))

section
variable (hk : (s.ctx c).kernel = some k) (hst : (s.ctx c).st = .running) (hl : k.st = .running ∨ k.st = .draining)
  (hclk : k.since + 2 ^ (k.ep + 10) ≤ s.clk)
include hk hst hl hclk

theorem exec_stageSchedulerEpoch_eq : exec (.stageSchedulerEpoch c) s = .next ((s.epochGiven c k).1.modCtx c (fun x => x.modKernel
    (fun l => l.epochEnded (s.epochDonors k) (s.epochGiven c k).2.1 (s.epochGiven c k).2.2 (2 ^ (k.ep + 10))))) := by
  rw [exec_stageSchedulerEpoch, execStageSchedulerEpoch]
  simp only [hk]
  rw [if_neg (by rcases hl with hl | hl <;> simp [hst, hl, hclk])]
  rfl

theorem exec_stageSchedulerEpoch_ends : ∃ t k', exec (.stageSchedulerEpoch c) s = .next t ∧ (t.ctx c).kernel = some k' ∧
    k'.epoch = k.epoch + 1 ∧ k'.since = k.since + 2 ^ (k.ep + 10) := by
  obtain ⟨m, hm⟩ := State.epochGiven_kernel hk
  obtain ⟨hepoch, hsince⟩ := Kernel.epochEnded_next { k with bound := m } (s.epochDonors k) (s.epochGiven c k).2.1
    (s.epochGiven c k).2.2 (2 ^ (k.ep + 10))
  refine ⟨_, _, exec_stageSchedulerEpoch_eq hk hst hl hclk, ?_, hepoch, hsince⟩
  rw [State.ctx_modCtx_self, Context.modKernel, hm, Option.map_some]

end

end

/-- Settles O32: what each step of a kernel's life leaves of its context. -/
theorem kernelLife : Obligations.KernelLife := by
  unfold Obligations.KernelLife
  refine ⟨fun s c k rest => ⟨fun hst hw hk => ?_, fun hst hk hl hwhy hw => ?_, fun hst hk hl hwhy _ hd => ?_,
    exec_kernelRetire_waits, fun hst hk hl hdone hp hw => ?_⟩,
    fun s c k hk => ⟨exec_stageSchedulerEpoch_idle hk, fun hst hl hclk => exec_stageSchedulerEpoch_ends hk hst hl hclk⟩⟩
  · refine ⟨_, exec_kernelLoad_starts hst hw hk, ?_⟩
    have hctx : ∀ (u : State) i, (u.later i).ctx c = u.ctx c := fun _ _ => rfl
    rw [hctx, State.ctx_modCtx_self]
    exact ⟨rfl, rfl⟩
  · refine ⟨_, exec_kernelLoadComplete_refused hst hk hl rfl hwhy hw, ?_⟩
    rw [State.ctx_toResident, State.ctx_modCtx_self]
    have hreports : ((s.walkKernel c k).ctx c).reports = (s.ctx c).reports := by rw [s.walkKernel_recounted c k c]
    exact ⟨rfl, rfl, by rw [hreports]⟩
  · obtain ⟨k', hk', hrun, harg, hepoch, hconsts, hscopes, hgroups, hbinds⟩ := s.ctx_kernelBegun c k
    refine ⟨_, k', exec_kernelLoadComplete_begins hst hk hl hwhy, hk', hrun, hconsts, hscopes, hgroups, hbinds,
      fun u hu => State.image_kernelBegun hu, fun i n u y hi hu hy => ?_⟩
    obtain ⟨z, hmain, hmove, l, hl', hbind, hhart⟩ := State.standsAt_kernelBegun hd hi hu hy
    obtain rfl := Option.some.inj (hk'.symm.trans hl')
    refine ⟨hbind.trans (by rw [hepoch]), fun mv => ?_⟩
    obtain ⟨x, cp, hx⟩ := hhart mv
    dsimp only [State.readX]
    rw [hx, hmain, hmove, harg]
    exact ⟨rfl, rfl, Hart.readX_bind_stage _ _ _ _ _ _, Hart.readX_bind_arg _ _ _ _ _ _, Hart.readX_bind_ctile _ _ _ _ _ _⟩
  · refine ⟨_, exec_kernelRetire_retires hst hk hl hdone hp hw, ?_⟩
    rw [State.ctx_toResident, State.ctx_modCtx_self]
    exact ⟨rfl, rfl, rfl⟩

end Sys2Proof.Machine
end

section
/-! Why `StageQueueResults` fails: its clause on `stg.done` fixes the next pc from the pc before the step in every state, and in one where a
request of the hart itself is held the retirement may serve that request, which moves the pc on too. -/

namespace Sys2Proof.Machine

open Sys2Proof.Claims

/-- A stage queue of four slots of 8 bytes whose ring holds one outstanding chunk of context tile 0 and whose overflow region holds one
item. -/
def spilledQueue : StageQueue :=
  { base := 0x200100, depth := 4, item := 1, rsv := 1, hi := 3, lo := 1, ovf := 0x200200, ovfn := 1, isOpen := true, init := 0,
    head := 1, spill := [1], chunks := [{ ctile := 0, first := 0, count := 1, va := 0x200100 }] }

/-- A kernel of one stage, fed by that queue. -/
def spilledKernel : Kernel :=
  { st := .running, record := 0, text := 0, textLen := 0, tables := 0, ep := 0, arg := 0,
    stages := [{ main := 0, move := 0, tmin := 1, tmax := 1, inq := 0, outs := [], factor := 1, minchunk := 1 }],
    queues := [spilledQueue], bound := [(0, { stage := 0, born := 0 })] }

/-- Tile 0 runs that kernel over the pages of `atomicState`. Its main hart has the chunk's address in x2 and runs, and a tagged store of
it is held at the ring slot to which the item of the overflow region moves. -/
def selfHeldState : State :=
  { atomicState with
    tiles := [(0, { owner := some (0, 0), ctx := { main := { run := .running, x := [(2, 0x200100)] } } })]
    ctxs := [(0, { st := .running, kernel := some spilledKernel })]
    held := [{ pa := 0x108, tile := 0, move := false, kind := .stf }] }

/-- The pc at which an outcome leaves the main hart of tile 0. -/
def pcOf (o : Host.Outcome State Fault Refusal) : Option Word :=
  match o with
  | .next t => some (t.hart ⟨0, false⟩).pc
  | _ => none

/-- The retirement serves the held store, which goes on at pc 4, and `stg.done` goes on from there. -/
theorem pcOf_stgDone : pcOf (exec (.stgDone 2) selfHeldState) = some 8 := by decide +kernel

/-- Refutes O30: `stg.done` in `selfHeldState` retires the chunk, moves the overflow's item into the freed ring slot, and that write serves the
request which the same hart has held there; the hart is left at pc 8, and the statement has it at 4. The statement wants the premise that no
request of the acting hart is held, as `KernelExit` has it. -/
theorem not_stageQueueResults : ¬ Obligations.StageQueueResults := by
  unfold Obligations.StageQueueResults
  intro h
  obtain ⟨-, hdone, -⟩ := h
  obtain ⟨-, -, hretires⟩ := hdone selfHeldState 0 2 spilledKernel
  have hexec := hretires rfl rfl (by decide +kernel)
  have hpc := pcOf_stgDone
  rw [hexec] at hpc
  have hnext : ∀ (s : State) (pc : Word), pcOf (.next (s.retire ⟨0, false⟩ pc)) = some pc := fun s pc => by
    rw [pcOf, State.hart_retire_self]
  exact absurd ((hnext _ _).symm.trans hpc) (by decide)

end Sys2Proof.Machine
end

section
/-! The requests of device management: fabric domains, reads, power, attestation and signed records (R188, R189, R377, R382 to R387, R389). -/

namespace Sys2Proof.Machine

open Sys2Proof.Claims

section
variable {s : State} {q : Request}

theorem runOnContext_malformed {op : Nat} {ok : Context → Bool} {body : Nat → State → Answer} (h : q.rsv ≠ 0) :
    runOnContext op q ok body s = .next (answered s op q 1 0 (taken s)) :=
  runRequest_malformed h

/-- Each request of device management checks its reserved bits first (R377, R379). -/
theorem exec_management_malformed (h : q.rsv ≠ 0) : ∀ i ∈ ([(0x0C, .registerDomain q), (0x0D, .withdrawDomain q), (0x0F, .hostRead q),
    (0x11, .power q), (0x12, .attest q), (0x13, .installRecord q)] : List (Nat × Instr)),
    exec i.2 s = .next (answered s i.1 q 1 0 (taken s)) := by
  have hregister : execRegisterDomain q s = .next (answered s 0x0C q 1 0 (taken s)) := by
    unfold execRegisterDomain
    exact runOnContext_malformed h
  have hwithdraw : execWithdrawDomain q s = .next (answered s 0x0D q 1 0 (taken s)) := by
    unfold execWithdrawDomain
    exact runOnContext_malformed h
  have hread : execHostRead q s = .next (answered s 0x0F q 1 0 (taken s)) := by
    unfold execHostRead
    dsimp only
    split
    · exact runRequest_malformed h
    · exact runOnContext_malformed h
  simp only [List.forall_mem_cons, exec_registerDomain, exec_withdrawDomain, exec_hostRead, exec_power, exec_attest, exec_installRecord]
  exact ⟨hregister, hwithdraw, hread, runRequest_malformed h, runRequest_malformed h, runRequest_malformed h,
    fun _ hi => absurd hi List.not_mem_nil⟩

/-! ## Fabric domains -/

theorem exec_registerDomain_registers {l : List (Word × Nat)} (ha : Accepts q Context.live s)
    (hl : (takenFor q s).memberList (q.word 2) = some l) (hd : (q.word 1).toNat ≠ 0) (hd' : (q.word 1).toNat < 2 ^ 16)
    (hme : l.filter (fun p => p.1 = (takenFor q s).dev.serial) = [((takenFor q s).dev.serial, q.ctx.toNat)])
    (hdistinct : (l.map (·.1)).eraseDups = l.map (·.1))
    (hreach : (l.map (·.1)).any (fun x => x ≠ (takenFor q s).dev.serial &&
      !(takenFor q s).dev.chips.any (fun p => p.1 = x && !p.2.isEmpty)) = false)
    (hnew : ((takenFor q s).ctx q.ctx.toNat).domains.any (fun x => x.id.toNat = (q.word 1).toNat) = false) :
    exec (.registerDomain q) s = .next (answered s 0x0C q 0 0 ((takenFor q s).modCtx q.ctx.toNat (fun x =>
      { x with domains := x.domains ++ [{ id := BitVec.ofNat 16 (q.word 1).toNat, members := l }] }))) := by
  rw [exec_registerDomain, execRegisterDomain]
  refine runOnContext_answer ha ?_
  simp only [hl]
  rw [if_neg (by simp only [hme, hdistinct, Bool.or_eq_true, decide_eq_true_eq, ne_eq, not_true_eq_false, or_false]; omega),
    if_neg (by rw [hreach]; exact Bool.false_ne_true), if_neg (by rw [hnew]; exact Bool.false_ne_true)]
  rfl

theorem exec_withdrawDomain_withdraws (ha : Accepts q Context.live s) (hd : (q.word 1).toNat ≠ 0) (hd' : (q.word 1).toNat < 2 ^ 16) :
    exec (.withdrawDomain q) s = .next (answered s 0x0D q 0 0 ((takenFor q s).modCtx q.ctx.toNat (fun x =>
      { x with domains := x.domains.filter (fun y => y.id.toNat ≠ (q.word 1).toNat) }))) := by
  rw [exec_withdrawDomain, execWithdrawDomain]
  refine runOnContext_answer ha ?_
  dsimp only
  rw [if_neg (by simp only [Bool.or_eq_true, decide_eq_true_eq]; omega)]
  rfl

/-! ## Reads -/

/-- The items of a context are read on it. -/
theorem exec_hostRead_context (ha : Accepts q Context.live s) (h : 1 ≤ (q.word 1).toNat) (h' : (q.word 1).toNat ≤ 4) :
    exec (.hostRead q) s = .next (answered s 0x0F q 0 0
      ((takenFor q s).writeItem q.ctx.toNat (q.word 1).toNat (q.word 2).toNat)) := by
  rw [exec_hostRead, execHostRead]
  dsimp only
  rw [if_neg (by omega)]
  refine runOnContext_answer ha ?_
  rw [if_neg (by omega)]
  rfl

/-- The items of the device are read whatever context the request names. -/
theorem exec_hostRead_device (hr : q.rsv = 0) (h : 5 ≤ (q.word 1).toNat) (h' : (q.word 1).toNat ≤ 8) :
    exec (.hostRead q) s = .next (answered s 0x0F q 0 0 ((taken s).writeItem q.ctx.toNat (q.word 1).toNat (q.word 2).toNat)) := by
  rw [exec_hostRead, execHostRead]
  dsimp only
  rw [if_pos h]
  refine runRequest_answer hr ?_
  rw [if_neg (by omega)]
  rfl

/-! ## Power -/

/-- Whether a word of a power request asks for what a device can do: no reserved bit, state 0 or 1, and a cap of 0 or in range (R389). -/
def PowerWordOk (w : Word) (top : Nat) : Prop :=
  anySet w [(48, 16), (2, 30)] = false ∧ field w 0 2 < 2 ∧ (field w 32 16 = 0 ∨ (1200 ≤ field w 32 16 ∧ field w 32 16 ≤ top))

/-- The test of a power request is `PowerWordOk`. -/
theorem powerWordOk_iff (w : Word) (top : Nat) :
    PowerWordOk w top ↔ ¬ (anySet w [(48, 16), (2, 30)] || decide (2 ≤ field w 0 2) ||
      (decide (field w 32 16 ≠ 0) && (decide (field w 32 16 < 1200) || decide (top < field w 32 16)))) = true := by
  unfold PowerWordOk
  cases anySet w [(48, 16), (2, 30)] with
  | true => simp
  | false =>
    simp only [Bool.or_eq_true, Bool.and_eq_true, decide_eq_true_eq, Bool.false_eq_true, true_and, false_or]
    omega

theorem exec_power_active (hr : q.rsv = 0) (hw : PowerWordOk (q.word 1) (taken s).dev.settings.powerCap) (hst : field (q.word 1) 0 2 = 0) :
    exec (.power q) s = .next (answered s 0x11 q 0 0
      ((taken s).modDev (fun d => { d with power := .active, cap := d.settings.powerCap }))) := by
  rw [exec_power, execPower]
  refine runRequest_answer hr ?_
  dsimp only
  rw [if_neg ((powerWordOk_iff _ _).1 hw), if_pos hst]
  rfl

theorem exec_power_capped (hr : q.rsv = 0) (hw : PowerWordOk (q.word 1) (taken s).dev.settings.powerCap) (hst : field (q.word 1) 0 2 = 1) :
    exec (.power q) s = .next (answered s 0x11 q 0 0 ((taken s).modDev (fun d =>
      { d with power := .capped, cap := if field (q.word 1) 32 16 = 0 then d.cap else field (q.word 1) 32 16 }))) := by
  rw [exec_power, execPower]
  refine runRequest_answer hr ?_
  dsimp only
  rw [if_neg ((powerWordOk_iff _ _).1 hw), if_neg (by omega)]
  rfl

theorem exec_power_malformed (hr : q.rsv = 0) (hw : ¬ PowerWordOk (q.word 1) (taken s).dev.settings.powerCap) :
    exec (.power q) s = .next (answered s 0x11 q 1 0 (taken s)) := by
  rw [exec_power, execPower]
  refine runRequest_answer hr ?_
  dsimp only
  rw [if_pos (not_not.1 (mt (powerWordOk_iff _ _).2 hw))]
  rfl

/-! ## Attestation -/

/-- The report that a request asks for, about the context or none that it names (R387). -/
def State.reportFor (u : State) (q : Request) : List Byte :=
  u.report (bytesOf (u.hostRead (q.word 1) 64) 64) (q.word 2).toNat

/-- A report has been written, then the signature over it and the certificate (R387). -/
def State.attested (u : State) (q : Request) : State :=
  State.hostBytes { u with fresh := u.fresh + 1 } (q.word 1).toNat
    (u.reportFor q ++ deviceSignature u.fresh (sha3 (u.reportFor q)) ++ Config.certificate)

/-- An attestation on no context. -/
theorem exec_attest_device (hr : q.rsv = 0) (hc : (q.word 2).toNat = 0xFF) :
    exec (.attest q) s = .next (answered s 0x12 q 0 0 ((taken s).attested q)) := by
  rw [exec_attest, execAttest]
  refine runRequest_answer hr ?_
  dsimp only
  rw [if_neg (by simp [hc]), if_neg (by simp [hc]), if_pos hc]
  rfl

/-- An attestation on a context that is live. -/
theorem exec_attest_context (hr : q.rsv = 0) (hc : (q.word 2).toNat < Config.nContexts) (hlive : ((taken s).ctx (q.word 2).toNat).live = true) :
    exec (.attest q) s = .next (answered s 0x12 q 0 0 (((taken s).ungateContext (q.word 2).toNat).attested q)) := by
  have hnone : (q.word 2).toNat ≠ 0xFF := Nat.ne_of_lt (Nat.lt_trans hc (by decide))
  rw [exec_attest, execAttest]
  refine runRequest_answer hr ?_
  dsimp only
  rw [if_neg (by simp [hc]), if_neg (by simp [hlive]), if_neg hnone]
  rfl

end

/-! ## Signed records -/

/-- The header of the record at an address of host memory (R385). -/
def State.recordHeader (s : State) (a : Word) : RecordHeader := Config.headerOf (BitVec.ofNat 512 (s.hostRead a 64))

/-- n bytes of the record at an address, from an offset on. -/
def State.recordBytes (s : State) (a : Word) (off n : Nat) : List Byte := bytesOf (s.hostRead (a + BitVec.ofNat 64 off) n) n

/-- The digest under a record's signature: that of its header and its payload (R385). -/
def State.recordDigest (s : State) (a : Word) : BitVec 512 := sha3 (s.recordBytes a 0 (64 + (s.recordHeader a).length))

/-- The signature behind a record's payload. -/
def State.recordSignature (s : State) (a : Word) : List Byte :=
  s.recordBytes a (64 + (s.recordHeader a).length) Config.signatureBytes

/-- The key that signs a record: the vendor's for record 1, the operator's for the others (R385). -/
def State.recordKey (s : State) (a : Word) : List Byte :=
  if (s.recordHeader a).id = 1 then Config.vendorKey else s.dev.settings.operatorKey

/-- The record at an address has the format of one that there is (R385). -/
def State.RecordWhole (s : State) (a : Word) : Prop :=
  (s.recordHeader a).magic = 0x52434B56 ∧ (s.recordHeader a).length ≤ 3072 ∧ recordIds.contains (s.recordHeader a).id = true

/-- The record at an address is signed, for any device or for this one (R385). -/
def State.RecordValid (s : State) (a : Word) : Prop :=
  ((s.recordHeader a).id = 1 ∨ s.recordKey a ≠ []) ∧ signatureOk (s.recordKey a) (s.recordDigest a) (s.recordSignature a) = true ∧
    ((s.recordHeader a).binding = 0 ∨ (s.recordHeader a).binding = Config.deviceDigest)

/-- The record at an address has a version above that of the stored record of its id, where there is one (R385). -/
def State.RecordNewer (s : State) (a : Word) : Prop :=
  ∀ x, SMap.find? s.dev.store (s.recordHeader a).id = some x → x.version < (s.recordHeader a).version

/-- The settings that the record at an address names lie in their ranges (R386). -/
def State.recordInRange (s : State) (a : Word) : Bool :=
  payloadOk s.dev.module (s.recordHeader a).id (s.recordBytes a 64 (s.recordHeader a).length)

/-- What the store holds of the record at an address. -/
def State.recordToStore (s : State) (a : Word) : Stored where
  version := (s.recordHeader a).version
  payload := s.recordBytes a 64 (s.recordHeader a).length
  digest := s.recordDigest a
  signature := s.recordSignature a

/-- The record at an address has replaced the stored record of its id. -/
def State.recordStored (s : State) (a : Word) : State :=
  s.modDev (fun d => { d with store := SMap.put d.store (s.recordHeader a).id (s.recordToStore a) })

/-- Whether the store holds a record of this id with a version that the one at an address does not exceed. -/
def State.recordOld (s : State) (a : Word) : Bool :=
  match SMap.find? s.dev.store (s.recordHeader a).id with
  | some x => (s.recordHeader a).version ≤ x.version
  | none => false

/-- The four checks of a record, in their order, as tests. -/
theorem State.storeRecord_eq (s : State) (a : Word) : s.storeRecord a =
    if (s.recordHeader a).magic ≠ 0x52434B56 || 3072 < (s.recordHeader a).length || !recordIds.contains (s.recordHeader a).id
      then s.answer 1
    else if !(((s.recordHeader a).id = 1 || s.recordKey a ≠ []) && signatureOk (s.recordKey a) (s.recordDigest a) (s.recordSignature a)) ||
        !((s.recordHeader a).binding = 0 || (s.recordHeader a).binding = Config.deviceDigest) then s.answer 5
    else if s.recordOld a then s.answer 6
    else if !s.recordInRange a then s.answer 1
    else (s.recordStored a).answer 0 := rfl

section
variable {s : State} {a : Word}

theorem State.recordWhole_iff : s.RecordWhole a ↔ ¬ (decide ((s.recordHeader a).magic ≠ 0x52434B56) ||
    decide (3072 < (s.recordHeader a).length) || !recordIds.contains (s.recordHeader a).id) = true := by
  simp [State.RecordWhole, and_assoc]

theorem State.recordValid_iff : s.RecordValid a ↔ ¬ (!((decide ((s.recordHeader a).id = 1) || decide (s.recordKey a ≠ [])) &&
    signatureOk (s.recordKey a) (s.recordDigest a) (s.recordSignature a)) ||
    !(decide ((s.recordHeader a).binding = 0) || decide ((s.recordHeader a).binding = Config.deviceDigest))) = true := by
  simp only [State.RecordValid, Bool.or_eq_true, Bool.and_eq_true, Bool.not_eq_true', ← Bool.not_eq_true,
    decide_eq_true_eq, not_or, not_and_or, not_not, and_assoc]

theorem State.recordNewer_iff : s.RecordNewer a ↔ ¬ s.recordOld a = true := by
  rw [State.RecordNewer, State.recordOld]
  cases SMap.find? s.dev.store (s.recordHeader a).id with
  | none => simp
  | some x => simp

theorem State.storeRecord_unwhole (h : ¬ s.RecordWhole a) : s.storeRecord a = s.answer 1 := by
  rw [State.storeRecord_eq, if_pos (not_not.1 (mt State.recordWhole_iff.2 h))]

theorem State.storeRecord_invalid (hw : s.RecordWhole a) (h : ¬ s.RecordValid a) : s.storeRecord a = s.answer 5 := by
  rw [State.storeRecord_eq, if_neg (State.recordWhole_iff.1 hw), if_pos (not_not.1 (mt State.recordValid_iff.2 h))]

theorem State.storeRecord_old (hw : s.RecordWhole a) (hv : s.RecordValid a) (h : ¬ s.RecordNewer a) : s.storeRecord a = s.answer 6 := by
  rw [State.storeRecord_eq, if_neg (State.recordWhole_iff.1 hw), if_neg (State.recordValid_iff.1 hv),
    if_pos (not_not.1 (mt State.recordNewer_iff.2 h))]

theorem State.storeRecord_outOfRange (hw : s.RecordWhole a) (hv : s.RecordValid a) (hn : s.RecordNewer a)
    (h : s.recordInRange a = false) : s.storeRecord a = s.answer 1 := by
  rw [State.storeRecord_eq, if_neg (State.recordWhole_iff.1 hw), if_neg (State.recordValid_iff.1 hv),
    if_neg (State.recordNewer_iff.1 hn), if_pos (by rw [h]; rfl)]

theorem State.storeRecord_stored (hw : s.RecordWhole a) (hv : s.RecordValid a) (hn : s.RecordNewer a)
    (h : s.recordInRange a = true) : s.storeRecord a = (s.recordStored a).answer 0 := by
  rw [State.storeRecord_eq, if_neg (State.recordWhole_iff.1 hw), if_neg (State.recordValid_iff.1 hv),
    if_neg (State.recordNewer_iff.1 hn), if_neg (by rw [h]; exact Bool.false_ne_true)]

end

/-- A request to install a record answers what the record's checks give. -/
theorem exec_installRecord_answer {s u : State} {q : Request} {st : Nat} (hr : q.rsv = 0)
    (h : (taken s).storeRecord (q.word 1) = u.answer st) :
    exec (.installRecord q) s = .next (answered s 0x13 q st 0 u) := by
  rw [exec_installRecord, execInstallRecord]
  exact runRequest_answer hr h

/-- Settles O58: each request passes its checks in the order of its definition and answers what they give. -/
theorem managementResults : Obligations.ManagementResults := by
  unfold Obligations.ManagementResults
  intro s q l
  refine ⟨exec_management_malformed, exec_registerDomain_registers, exec_withdrawDomain_withdraws, exec_hostRead_context,
    exec_hostRead_device, fun hr hres hst hcap => ?_, fun hr hres hst hcap => ?_, fun hr hbad => ?_, exec_attest_device,
    exec_attest_context, fun hr => ?_⟩
  · exact exec_power_active hr ⟨hres, by omega, hcap⟩ hst
  · exact exec_power_capped hr ⟨hres, by omega, hcap⟩ hst
  · refine exec_power_malformed hr fun ⟨hres, hst, hcap⟩ => ?_
    rcases hbad with hbad | hbad
    · exact Bool.false_ne_true (hres.symm.trans hbad)
    · omega
  · refine ⟨fun hw => ?_, fun hw hv => ?_, fun hw hv hn => ?_, fun hw hv hn hp => ?_, fun hw hv hn hp => ?_⟩
    · exact exec_installRecord_answer hr (State.storeRecord_unwhole hw)
    · exact exec_installRecord_answer hr (State.storeRecord_invalid hw hv)
    · exact exec_installRecord_answer hr (State.storeRecord_old hw hv hn)
    · exact exec_installRecord_answer hr (State.storeRecord_outOfRange hw hv hn hp)
    · exact exec_installRecord_answer hr (State.storeRecord_stored hw hv hn hp)

end Sys2Proof.Machine
end
section
/-! Wake slots, and what an arrival makes of a barrier (R130, R196, R198, R199, R202, R203, R348). -/

namespace Sys2Proof.Machine

open Sys2Proof.Claims

/-! ## Addresses of tagged operations -/

/-- A tagged operation refuses a tier but S, and where it writes a page with W = 0. -/
theorem traps_of_taggedLeaf {i : Instr} {s : State} {store writes : Bool} {va : Word} {k : Leaf → M Unit}
    (hi : exec i s = hartStep s.me (taggedLeaf s.me store writes va >>= k) s) :
    Traps i s (if store then 2 else 0) 8 va (fun t => t = 0) (fun l => !writes || l.writable) := by
  rw [taggedLeaf, bind_assoc] at hi
  refine traps_of_hartLeaf hi (fun t l ht => M.bind_error (M.bind_error ?_)) (fun t l ht hp => M.bind_error ?_)
  · rw [ht, need_false]
    cases store <;> rfl
  · rw [ht, M.bind_ok (need_true _ _), hp, M.bind_error (need_false _ _)]
    cases store <;> rfl

/-! ## Wake slots -/

/-- A hart's slot watches a physical word, in place of what it watched before. -/
def State.arm (s : State) (h : HartId) (k : BitVec 2) (pa : Nat) : State :=
  let keep := s.watches.filter (fun w => !(w.tile = h.tile && w.move = h.move && w.slot = k.toNat))
  State.modHart { s with watches := keep ++ [{ pa := pa, tile := h.tile, move := h.move, slot := k.toNat }] } h
    (fun x => { x with slots := SMap.set .disarmed x.slots k.toNat (.armed pa) })

section
variable {s t : State} {h : HartId} {k : BitVec 2} {rd rs1 : Reg} {l : Leaf}

theorem State.slot_arm (s : State) (h : HartId) (k : BitVec 2) (pa : Nat) :
    SMap.get .disarmed ((s.arm h k pa).hart h).slots k.toNat = .armed pa := by
  rw [State.arm, State.hart_modHart_self, SMap.get_set_self]

theorem State.mem_watches_arm (s : State) (h : HartId) (k : BitVec 2) (pa : Nat) :
    ({ pa := pa, tile := h.tile, move := h.move, slot := k.toNat } : Watch) ∈ (s.arm h k pa).watches :=
  List.mem_append_right _ (List.mem_singleton_self _)

theorem exec_warm_arms (hr : Readable s s.me 8 (s.readX s.me rs1) l t) (hl : l.tier = 0) :
    exec (.warm k rs1) s = .next ((t.arm s.me k l.pa).retire s.me ((s.hart s.me).pc + 4)) := by
  rw [exec_warm, execWarm]
  refine hartStep_ok ?_
  rw [M.bind_ok (taggedLeaf_read hr hl)]
  rfl

@[simp] theorem Hart.writeX_slots (x : Hart) (r : Reg) (v : Word) : (x.writeX r v).slots = x.slots := by
  obtain ⟨m, hm⟩ := x.writeX_other r v
  rw [hm]

theorem State.slots_wake : ((s.wake h rd).hart h).slots = [] := by
  simp [State.wake, State.result, State.writeX]

theorem State.pc_wake : ((s.wake h rd).hart h).pc = (s.hart h).pc + 4 := by
  simp only [State.wake, State.result, State.hart_retire_self, State.hart_modHart_self]
  rfl

theorem State.readX_wake (hd : rd ≠ 0) : (s.wake h rd).readX h rd = wakeWord (s.hart h).fired := by
  rw [State.wake, State.readX_result, if_neg hd, if_pos rfl]

theorem exec_wsleep_unused (he : (s.hart s.me).slots = []) :
    exec (.wsleep rd) s = .next (s.result s.me rd (BitVec.allOnes 64)) := by
  simp [exec_wsleep, execWsleep, he]

theorem exec_wsleep_armed (he : (s.hart s.me).slots ≠ []) (hf : (s.hart s.me).fired = []) :
    exec (.wsleep rd) s = .next (s.setWait s.me (.wsleep rd)) := by
  simp [exec_wsleep, execWsleep, he, hf]

theorem exec_wsleep_fired (he : (s.hart s.me).slots ≠ []) (hf : (s.hart s.me).fired ≠ []) :
    exec (.wsleep rd) s = .next (s.wake s.me rd) := by
  simp [exec_wsleep, execWsleep, he, hf]

theorem exec_wsleepWake_fired (hw : (s.hart s.me).run = .waiting (.wsleep rd)) (hf : (s.hart s.me).fired ≠ []) :
    exec .wsleepWake s = .next (s.wake s.me rd) := by
  simp [exec_wsleepWake, execWsleepWake, hw, hf]

end

/-- Settles O18: a slot that is armed watches its word; `wsleep` and the end of its wait leave what `State.wake` does. -/
theorem wakeResults : Obligations.WakeResults := by
  unfold Obligations.WakeResults
  intro s t k rd rs1 l
  refine ⟨fun hr hl => ⟨_, exec_warm_arms hr hl, ?_, State.mem_watches_arm _ _ _ _, rfl⟩,
    traps_of_taggedLeaf (store := false) (writes := false) (by rw [exec_warm, execWarm]), exec_wsleep_unused, exec_wsleep_armed,
    fun he hf => ⟨_, exec_wsleep_fired he hf, State.readX_wake, State.slots_wake, State.pc_wake⟩,
    fun hw hf => ⟨_, exec_wsleepWake_fired hw hf, State.readX_wake, State.slots_wake, State.pc_wake⟩⟩
  rw [State.hart_retire_self]
  exact State.slot_arm _ _ _ _

/-! ## Arrivals at a barrier -/

/-- A size word with a reserved bit set or a party count of zero refuses an arrival (R197). -/
theorem arrival_refused {w z : Nat} (h : z / 2 ^ 40 ≠ 0 ∨ z % 2 ^ 40 = 0) : arrival w z = none :=
  if_pos (by simpa using h)

/-- The size word of a barrier that accepts arrivals is its party count. -/
theorem arrival_accepted {w z : Nat} (hr : z / 2 ^ 40 = 0) (hz : z % 2 ^ 40 ≠ 0) :
    arrival w z = if z ≤ w % 2 ^ 40 + 1 then some ((w / 2 ^ 40 + 1) % 2 ^ 24 * 2 ^ 40, 2 ^ 63 + w / 2 ^ 40)
      else some (w / 2 ^ 40 * 2 ^ 40 + (w % 2 ^ 40 + 1), w / 2 ^ 40) := by
  have hparties : z % 2 ^ 40 = z := by omega
  rw [hparties] at hz
  simp only [arrival, hparties]
  exact if_neg (by rw [hr]; simpa using hz)

/-- Settles O19, by the comparison of the count with the parties. -/
theorem barrierArrivalRule : Obligations.BarrierArrivalRule := by
  unfold Obligations.BarrierArrivalRule
  intro w z _ _
  refine ⟨arrival_refused, fun hr hz hlt => ?_, fun hr hz hle => ?_⟩
  · refine ⟨_, (arrival_accepted hr hz).trans (if_neg (by omega)), ?_, ?_⟩
    · omega
    · omega
  · refine ⟨_, (arrival_accepted hr hz).trans (if_pos hle), ?_, ?_⟩
    · omega
    · omega

end Sys2Proof.Machine
end
section
/-! What a message does at its target (R206, R365, R366, R368 to R370, R372). -/

namespace Sys2Proof.Machine

open Sys2Proof.Claims

/-! ## Arrivals -/

section
variable {s : State} {m : Message}

/-- A context that takes no messages refuses one (R206, R372). -/
theorem exec_messageArrival_refused (hr : (s.ctx m.ctx).receives = false) (hc : m.cut = none) :
    exec (.messageArrival m) s = .next (s.dropSignal m.ctx m.sender m.cls) := by
  simp [exec_messageArrival, execMessageArrival, hr, hc]

/-- The first posted receive that a message matches takes it, whole or cut (R369). -/
theorem exec_messageArrival_matched {p : Posted} (hr : (s.ctx m.ctx).receives = true)
    (hp : (s.ctx m.ctx).posted.find? (fun p => p.matches m) = some p) : exec (.messageArrival m) s =
      .next ((s.modCtx m.ctx (fun x => { x with posted := dropFirst (fun p => p.matches m) x.posted })).startLanding m.ctx p m none) := by
  simp [exec_messageArrival, execMessageArrival, hr, hp]

section
variable (hr : (s.ctx m.ctx).receives = true) (hp : (s.ctx m.ctx).posted.find? (fun p => p.matches m) = none) (hc : m.cut = none)
include hr hp hc

theorem exec_messageArrival_parked {i : Nat} (hi : (s.ctx m.ctx).parks m = some i) :
    exec (.messageArrival m) s = .next ((s.park i m).ack m.sender m.cls m.payload.length 0) := by
  simp [exec_messageArrival, execMessageArrival, hr, hp, hc, hi]

theorem exec_messageArrival_dropped (hi : (s.ctx m.ctx).parks m = none) : exec (.messageArrival m) s =
    .next ((s.modCtx m.ctx (fun x => { x with drops := satAdd 32 x.drops 1 })).ack m.sender m.cls 0 1) := by
  simp [exec_messageArrival, execMessageArrival, hr, hp, hc, hi]

end

end

/-! ## The unexpected queue (R368) -/

/-- No entry takes a message that is too long for one, nor any message where all have been used and none is free again. -/
theorem Context.parks_eq_none_iff (x : Context) (m : Message) :
    x.parks m = none ↔ 2 ^ x.cfg.uqlog < m.payload.length ∨ x.cfg.uqn ≤ x.uqUsed ∧ x.uqFreed = [] := by
  unfold Context.parks Context.freeEntry
  by_cases hlen : m.payload.length ≤ 2 ^ x.cfg.uqlog
  · by_cases hused : x.uqUsed < x.cfg.uqn
    · simp [hlen, hused]
    · simp [hlen, hused, Nat.not_lt.1 hused]
  · simp [hlen, Nat.not_le.1 hlen]

theorem State.parked_homeWrite (s : State) (who : Option Nat) (pa n v c : Nat) :
    ((s.homeWrite who pa n v none).ctx c).parked = (s.ctx c).parked := by
  rw [s.homeWrite_recounted who pa n v c]

/-- A write that the fabric drops changes only counts. -/
theorem State.parked_engineLoss {s u : State} {d : Nat} {w : Bool} (h : s.engineLoss d w = some u) (c : Nat) :
    (u.ctx c).parked = (s.ctx c).parked := by
  simp only [State.engineLoss, Option.ite_none_left_eq_some, Option.some.injEq] at h
  obtain ⟨-, rfl⟩ := h
  rw [State.ctx_modCtx]
  split
  · subst_vars
    cases w <;> rfl
  · rfl

theorem State.parked_engineWrite (s : State) (d pa n v c : Nat) : ((s.engineWrite d pa n v).ctx c).parked = (s.ctx c).parked := by
  unfold State.engineWrite
  split
  · exact State.parked_engineLoss ‹_› c
  · exact State.parked_homeWrite _ _ _ _ _ _

theorem State.parked_storeWords (s : State) (d pa : Nat) (l : List Byte) (c : Nat) :
    ((s.storeWords d pa l).ctx c).parked = (s.ctx c).parked :=
  State.foldl_keeps (fun u => (u.ctx c).parked) (fun u _ => u.parked_engineWrite d _ _ _ c) _ s

/-- A message that is parked is the last of its context's list (R368). -/
theorem State.parked_park (s : State) (i : Nat) (m : Message) :
    ((s.park i m).ctx m.ctx).parked = (s.ctx m.ctx).parked ++ [(i, m)] := by
  unfold State.park
  dsimp only
  rw [State.ctx_modCtx_self]
  dsimp only
  rw [State.parked_storeWords]
  congr 1
  exact State.foldl_keeps (fun u => (u.ctx m.ctx).parked) (fun u _ => State.parked_homeWrite u.free.2 _ _ _ _ _) _ s

/-! ## Landings (R365, R370) -/

/-- A landing with what is left of its writes made. -/
def State.landRest (s : State) (c : Nat) (l : Landing) : State × Landing := if l.ended then (s, l) else s.land c l

/-- What a landing whose writes have ended leaves: its words are filled, and its entry is freed or its sender told. -/
def State.endLanding (s : State) (c : Nat) (l : Landing) (rest : List Landing) : State :=
  let t := (s.modCtx c (fun x => { x with landings := rest })).fillReceive c l.p.word l.m.tag l.m.src l.m.chan l.n l.status
  match l.parked with
  | some i => t.modCtx c (fun x => { x with uqFreed := x.uqFreed ++ [i] })
  | none => if l.m.cut.isSome then t else t.ack l.m.sender l.m.cls l.n (if l.fault then 4 else 0)

section
variable {s t : State} {c : Nat} {l k : Landing} {rest : List Landing} (hl : (s.ctx c).landings = l :: rest)
  (hr : s.landRest c l = (t, k))
include hl hr

theorem exec_landingComplete_ends (he : k.ended = true) (hw : t.wordMoving c k.p.word = false) :
    exec (.landingComplete c) s = .next (t.endLanding c k rest) := by
  rw [exec_landingComplete, execLandingComplete, hl]
  dsimp only
  rw [← State.landRest, hr]
  refine (if_neg ?_).trans ?_
  · rw [he, hw]; exact Bool.false_ne_true
  · rw [State.endLanding]
    cases k.parked <;> rfl

theorem exec_landingComplete_stalls (h : k.ended = false ∨ t.wordMoving c k.p.word = true) :
    exec (.landingComplete c) s =
      .next ((t.modCtx c (fun x => { x with landings := rest ++ [k] })).later (.landingComplete c)) := by
  rw [exec_landingComplete, execLandingComplete, hl]
  dsimp only
  rw [← State.landRest, hr]
  refine if_pos ?_
  rcases h with h | h
  · rw [h]; rfl
  · rw [h, Bool.or_true]

end

/-! ## Answers (R366) -/

/-- What an answer answers is in the fabric no longer. -/
def State.noteAnswer (s : State) (a : MsgAck) : State :=
  let mine (r : MsgRef) : Bool := r.ctx = a.ctx && r.ctile = a.ctile && r.seq = a.seq
  s.answered (fun x => match x with
    | .send _ m => mine m.sender
    | .put _ p => mine p.sender
    | .arrive _ p => mine p.sender
    | _ => false)

/-- The command of a tile that an answer is for is acknowledged, and its outcome recorded; a put that was lost is counted. -/
def State.acknowledge (s : State) (a : MsgAck) (k : Unacked) : State :=
  let t := s.modTcAt a.ctx a.ctile (fun x => { x with unacked := x.unacked.filter (fun u => u.seq ≠ a.seq) })
  let t := if a.status = 3 && k.op = 0xC1 then t.modCtx a.ctx (fun x => { x with lost := satAdd 64 x.lost 1 }) else t
  t.outcome a.ctx a.ctile k.op k.word a.bytes.toNat a.status.toNat

theorem execMessageAck_eq (a : MsgAck) (s : State) : execMessageAck a s =
    match ((s.noteAnswer a).tcAt a.ctx a.ctile).unacked.find? (fun u => u.seq = a.seq) with
    | none => .next (s.noteAnswer a)
    | some k =>
      if (s.noteAnswer a).wordMoving a.ctx k.word then .next ((s.noteAnswer a).later (.messageAck a))
      else .next ((s.noteAnswer a).acknowledge a k) := rfl

theorem exec_messageAck_awaited {s : State} {a : MsgAck} {k : Unacked}
    (hk : ((s.noteAnswer a).tcAt a.ctx a.ctile).unacked.find? (fun u => u.seq = a.seq) = some k)
    (hw : (s.noteAnswer a).wordMoving a.ctx k.word = false) :
    exec (.messageAck a) s = .next ((s.noteAnswer a).acknowledge a k) := by
  rw [exec_messageAck, execMessageAck_eq, hk]
  exact if_neg (by rw [hw]; exact Bool.false_ne_true)

/-- Settles O51, in the order of a message's life: its arrival, its landing, and the answer to it. -/
theorem messageArrivalResults : Obligations.MessageArrivalResults := by
  unfold Obligations.MessageArrivalResults
  intro s m c l rest a k
  refine ⟨fun hr hc => ⟨exec_messageArrival_refused hr hc, rfl, State.mem_log_logEvent _ _ _ _⟩,
    fun p => exec_messageArrival_matched, fun hr hp hc => ⟨fun i hi => ⟨exec_messageArrival_parked hr hp hc hi, s.parked_park i m⟩,
      exec_messageArrival_dropped hr hp hc, Context.parks_eq_none_iff _ m⟩,
    fun hl => ⟨exec_landingComplete_ends hl rfl, exec_landingComplete_stalls hl rfl⟩, exec_messageAck_awaited⟩

end Sys2Proof.Machine
end
section
/-! Puts, gets and arrivals at their target, and the replies to gets (R199, R206, R207, R338, R365, R367, R375). -/

namespace Sys2Proof.Machine

open Sys2Proof.Claims

/-! ## Puts -/

/-- A put waits at a page that is moving, or behind an older one of its tile and class that waits (R338, R367). -/
def State.putWaits (s : State) (p : RemotePut) : Bool :=
  (match s.heldPuts.find? (RemotePut.sameOrder p) with | some q => decide (q ≠ p) | none => false) ||
    s.spanMoving p.ctx p.va.toNat p.payload.length || s.wordMoving p.ctx p.word.toNat

theorem State.putWaits_eq_false_iff {s : State} {p : RemotePut} : s.putWaits p = false ↔
    (s.spanMoving p.ctx p.va.toNat p.payload.length = false ∧ s.wordMoving p.ctx p.word.toNat = false) ∧
      ∀ q, s.heldPuts.find? (RemotePut.sameOrder p) = some q → q = p := by
  unfold State.putWaits
  cases s.heldPuts.find? (RemotePut.sameOrder p) with
  | none => simp
  | some q => simp [and_assoc, and_comm]

/-- A word of a put that is not the first of its order is not written ahead of it (R367). -/
theorem State.putWord_behind {s : State} {p : RemotePut} (h : s.putFirst p ≠ some p) (va : Nat) : s.putWord p va = s := by
  simp [State.putWord, h]

section
variable {s : State} {p : RemotePut}

theorem exec_remotePutWrite_refused (hr : (s.ctx p.ctx).receives = false) (hc : p.cut = none) :
    exec (.remotePutWrite p) s = .next ((s.endPut p).dropSignal p.ctx p.sender p.cls) := by
  simp [exec_remotePutWrite, execRemotePutWrite, hr, hc]

variable (hr : (s.ctx p.ctx).receives = true)
include hr

/-- A context that takes puts has one wait, or makes its bytes free values, or writes its bytes and then its word. -/
theorem execRemotePutWrite_eq : execRemotePutWrite p s =
    if s.putWaits p then .next (s.holdPut p)
    else if p.cut.isSome then .next (State.scrambleBytes p.copy (s.endPut p) p.ctx (p.va.toNat / 8 * 8) (RemotePut.parts p))
    else match State.putBytes p.copy (s.endPut p) p.ctx (p.va.toNat / 8 * 8) (s.partsLeft p) with
    | none => .next ((State.scrambleBytes p.copy (s.endPut p) p.ctx (p.va.toNat / 8 * 8) (RemotePut.parts p)).ack p.sender p.cls 0 4)
    | some t =>
      if p.word = 0 then .next (t.ack p.sender p.cls p.payload.length 0)
      else
        let v := t.deviceWalk p.ctx p.word.toNat
        match v.leafAt p.ctx p.word.toNat with
        | some l =>
          if l.tier = 0 && l.writable then
            .next ((v.fillAt p.ctx p.word.toNat (p.payload.length * 2 ^ 32)).ack p.sender p.cls p.payload.length 0)
          else .next (v.ack p.sender p.cls 0 4)
        | none => .next (v.ack p.sender p.cls 0 4) :=
  if_neg (show ¬ (!(s.ctx p.ctx).receives) = true by rw [hr]; exact Bool.false_ne_true)

theorem exec_remotePutWrite_waits (hw : s.putWaits p = true) : exec (.remotePutWrite p) s = .next (s.holdPut p) := by
  rw [exec_remotePutWrite, execRemotePutWrite_eq hr, if_pos hw]

variable (hw : s.putWaits p = false)
include hw

/-- Of a put that a link failure has cut the bytes are free values, and no one is told (R375). -/
theorem exec_remotePutWrite_cut (hc : p.cut.isSome = true) : exec (.remotePutWrite p) s =
    .next (State.scrambleBytes p.copy (s.endPut p) p.ctx (p.va.toNat / 8 * 8) (RemotePut.parts p)) := by
  simp only [exec_remotePutWrite, execRemotePutWrite_eq hr, hw, hc, Bool.false_eq_true, if_false, if_true]

variable (hc : p.cut = none)
include hc

theorem exec_remotePutWrite_faults
    (hb : State.putBytes p.copy (s.endPut p) p.ctx (p.va.toNat / 8 * 8) (s.partsLeft p) = none) : exec (.remotePutWrite p) s =
      .next ((State.scrambleBytes p.copy (s.endPut p) p.ctx (p.va.toNat / 8 * 8) (RemotePut.parts p)).ack p.sender p.cls 0 4) := by
  simp only [exec_remotePutWrite, execRemotePutWrite_eq hr, hw, hc, hb, Bool.false_eq_true, Option.isSome_none, if_false]

variable {t : State} (hb : State.putBytes p.copy (s.endPut p) p.ctx (p.va.toNat / 8 * 8) (s.partsLeft p) = some t)
include hb

theorem exec_remotePutWrite_wordless (h0 : p.word = 0) :
    exec (.remotePutWrite p) s = .next (t.ack p.sender p.cls p.payload.length 0) := by
  simp only [exec_remotePutWrite, execRemotePutWrite_eq hr, hw, hc, hb, h0, Bool.false_eq_true, Option.isSome_none, if_false,
    if_true]

/-- Once its bytes are written a put fills its word, in tier S on a page that may be written (R365, R367). -/
theorem exec_remotePutWrite_fills {l : Leaf} (h0 : p.word ≠ 0)
    (hl : (t.deviceWalk p.ctx p.word.toNat).leafAt p.ctx p.word.toNat = some l) (ht : l.tier = 0) (hwr : l.writable = true) :
    exec (.remotePutWrite p) s = .next (((t.deviceWalk p.ctx p.word.toNat).fillAt p.ctx p.word.toNat
      (p.payload.length * 2 ^ 32)).ack p.sender p.cls p.payload.length 0) := by
  simp only [exec_remotePutWrite, execRemotePutWrite_eq hr, hw, hc, hb, h0, hl, ht, hwr, Bool.false_eq_true, Option.isSome_none,
    if_false, decide_true, Bool.and_self, if_true]

end

/-! ## Gets -/

/-- A get that has been answered is not read for any longer. -/
def State.endGet (s : State) (g : RemoteGet) : State := { s with getWords := s.getWords.filter (fun x => x.1 ≠ g) }

/-- Sends bytes back to the tile of a get, with the outcome. -/
def State.replyTo (s : State) (g : RemoteGet) (l : List Byte) (st : BitVec 8) : State :=
  s.handOver g.sender.serial g.cls 0 0 (.getReply ⟨g.sender.ctx, g.sender.ctile, g.sender.seq, 0, l, true, st⟩) (.reply g.sender l st)

/-- The pieces that a get reads, word by word from the word that holds its first byte. -/
def getPieces (g : RemoteGet) : List (Nat × Nat × List Byte) := boxPieces 8 g.len (g.va.toNat % 8) (List.replicate g.len 0)

section
variable {s : State} {g : RemoteGet}

theorem exec_remoteGetRead_refused (hr : (s.ctx g.ctx).receives = false) :
    exec (.remoteGetRead g) s = .next (((s.endGet g).countSignal g.ctx).replyTo g [] 2) :=
  if_pos (show (!(s.ctx g.ctx).receives) = true by rw [hr]; rfl)

variable (hr : (s.ctx g.ctx).receives = true)
include hr

theorem execRemoteGetRead_eq : execRemoteGetRead g s =
    match State.getBytes g.copy (s.seenFor g) (s.endGet g) g.ctx (g.va.toNat / 8 * 8) (getPieces g) with
    | none => .next ((s.endGet g).replyTo g [] 4)
    | some r => .next (r.1.replyTo g r.2 0) :=
  if_neg (show ¬ (!(s.ctx g.ctx).receives) = true by rw [hr]; exact Bool.false_ne_true)

theorem exec_remoteGetRead_read {x : State × List Byte}
    (hx : State.getBytes g.copy (s.seenFor g) (s.endGet g) g.ctx (g.va.toNat / 8 * 8) (getPieces g) = some x) :
    exec (.remoteGetRead g) s = .next (x.1.replyTo g x.2 0) := by
  rw [exec_remoteGetRead, execRemoteGetRead_eq hr, hx]

theorem exec_remoteGetRead_faults
    (hx : State.getBytes g.copy (s.seenFor g) (s.endGet g) g.ctx (g.va.toNat / 8 * 8) (getPieces g) = none) :
    exec (.remoteGetRead g) s = .next ((s.endGet g).replyTo g [] 4) := by
  rw [exec_remoteGetRead, execRemoteGetRead_eq hr, hx]

end

/-! ## Arrivals at a barrier (R199, R207) -/

section
variable {s : State} {a : RemoteSignal}

theorem exec_remoteArrival_refused (hr : (s.ctx a.ctx).receives = false) :
    exec (.remoteArrival a) s = .next (s.dropSignal a.ctx a.sender a.cls) := by
  simp [exec_remoteArrival, execRemoteArrival, hr]

/-- An arrival that the barrier accepts writes the barrier word and fills it. -/
theorem exec_remoteArrival_accepted {t u v : State} {l : Leaf} {w z b token : Nat} (hr : (s.ctx a.ctx).receives = true)
    (hm : s.spanMoving a.ctx a.va.toNat 16 = false) (ht : s.deviceWalk a.ctx a.va.toNat = t)
    (hl : t.leafAt a.ctx a.va.toNat = some l) (ha : a.va.toNat % 16 = 0) (hs : l.tier = 0) (hw : l.writable = true)
    (hu : t.homeRead (some a.ctx) l.pa 8 = (u, w)) (hv : u.homeRead (some a.ctx) (l.pa + 8) 8 = (v, z))
    (hb : arrival w z = some (b, token)) : exec (.remoteArrival a) s =
      .next (((v.homeWrite (some a.ctx) l.pa 8 b (some true)).markTagged a.ctx l).ack a.sender a.cls 0 0) := by
  simp [exec_remoteArrival, execRemoteArrival, hr, hm, ht, hl, ha, hs, hw, hu, hv, hb]

end

/-! ## Replies to gets -/

/-- A get whose last reply has come is in the fabric no longer. -/
def State.noteReply (s : State) (g : GetReply) : State :=
  if g.last then s.answered (fun x => match x with
    | .get _ r => r.sender.ctx = g.ctx && r.sender.ctile = g.ctile && r.sender.seq = g.seq
    | _ => false) else s

/-- The bytes of its box that a `tx.get` has once a reply has landed. -/
def replyEnd (r : Run) (g : GetReply) : Nat :=
  r.e.prog.next + (g.bytes.take ((msShape r (cmdOfBits r.e.w)).boxBytes - g.off)).length

/-- What a reply does to its `tx.get`: its bytes land, and the last one ends the command. -/
def replyBody (r : Run) (g : GetReply) : M Unit := do
  let c := cmdOfBits r.e.w
  landReply r.whole c (replyLeft r c g)
  upd (fun s => s.modEntry r.t 2 r.e.seq (fun e => { e with prog := { e.prog with next := replyEnd r g } }))
  if g.last then
    if g.status = 3 then upd (fun s => s.scrambleBox r c (replyEnd r g / elemSize (msShape r c).fmt))
    let s ← get
    need (!s.wordMoving g.ctx (msWord c)) (.hold 0)
    localOutcome r 0xC2 (msWord c) (replyEnd r g) g.status.toNat
    upd (fun s => s.modEntry r.t 2 r.e.seq (fun e => { e with st := .done }))

section
variable {s u : State} {g : GetReply} {r : Run}

/-- A reply whose bytes all land leaves what its body does. -/
theorem exec_getReply_ok {v : State} (hr : (s.noteReply g).getRun g = some r) (hb : replyBody r g (s.noteReply g) = .ok () v) :
    exec (.getReply g) s = .next v := by
  have heq : execGetReply g s = match (s.noteReply g).getRun g with
    | none => .next (s.noteReply g)
    | some r => match replyBody r g (s.noteReply g) with
      | .ok _ s' => .next s'
      | .error (.fault code detail addr) s' =>
        .next ((s'.scrambleBox r (cmdOfBits r.e.w) 0).modTc r.t (fun x => x.recordFault 2 r.e code detail addr s'.clk))
      | .error _ s' => .next (((s.noteReply g).keepFresh s' (some ((s.noteReply g).ctxOf r.t))).later (.getReply g)) := rfl
  rw [exec_getReply, heq, hr]
  dsimp only
  rw [hb]

/-- A `tx.get` in the queue of its tile that runs and has started takes replies. -/
theorem State.getRun_running {t : Nat} {e : Entry} (ht : s.homeOf g.ctx g.ctile = some t) (he : (s.queue t 2).find g.seq = some e)
    (hst : e.st = .running) (hop : field e.w 0 8 = 0xC2) (hgo : e.prog.started = true) :
    s.getRun g = some { t := t, q := 2, e := e } := by
  simp [State.getRun, ht, he, hst, hop, hgo]

variable (hland : landReply r.whole (cmdOfBits r.e.w) (replyLeft r (cmdOfBits r.e.w) g) s = .ok () u)
include hland

theorem replyBody_part (hg : g.last = false) : replyBody r g s =
    .ok () (u.modEntry r.t 2 r.e.seq (fun e => { e with prog := { e.prog with next := replyEnd r g } })) := by
  simp [replyBody, M.bind_ok hland, hg]

theorem replyBody_last {v : State} (hg : g.last = true) (hs : g.status ≠ 3)
    (hv : u.modEntry r.t 2 r.e.seq (fun e => { e with prog := { e.prog with next := replyEnd r g } }) = v)
    (hw : v.wordMoving g.ctx (msWord (cmdOfBits r.e.w)) = false) : replyBody r g s =
    .ok () ((v.outcome (v.ctxOf r.t) (v.ctileOf r.t) 0xC2 (msWord (cmdOfBits r.e.w)) (replyEnd r g) g.status.toNat).modEntry r.t 2
      r.e.seq (fun e => { e with st := .done })) := by
  simp only [replyBody, M.bind_ok hland, M.bind_run, upd_run, hv, hg, hs, if_true, if_false, M.get_run, hw, Bool.not_false, need_true,
    localOutcome]

end

/-- Settles O52: what a put, a get and an arrival do where their conditions hold, and what a reply does that lands. -/
theorem remoteAccessResults : Obligations.RemoteAccessResults := by
  unfold Obligations.RemoteAccessResults
  intro s t p g a l y tile e
  refine ⟨exec_remotePutWrite_refused, fun va h => State.putWord_behind h va, fun hr h => ?_, fun hr hf ho hc hb h0 => ?_,
    fun z hr hf ho hc hb h0 hl ht hw => ?_, fun hr hf ho hc hb => ?_, fun hr hf ho hc => ?_, exec_remoteGetRead_refused,
    fun x hr hx => exec_remoteGetRead_read hr hx, exec_remoteGetRead_faults, exec_remoteArrival_refused,
    fun b token hr hm hl ha hs hw hb => exec_remoteArrival_accepted hr hm rfl hl ha hs hw rfl rfl hb,
    fun u ht he hst hop hgo hland => ?_⟩
  · exact exec_remotePutWrite_waits hr (Bool.eq_true_of_not_eq_false (mt State.putWaits_eq_false_iff.1 h))
  · exact exec_remotePutWrite_wordless hr (State.putWaits_eq_false_iff.2 ⟨hf, ho⟩) hc hb h0
  · exact exec_remotePutWrite_fills hr (State.putWaits_eq_false_iff.2 ⟨hf, ho⟩) hc hb h0 hl ht hw
  · exact exec_remotePutWrite_faults hr (State.putWaits_eq_false_iff.2 ⟨hf, ho⟩) hc hb
  · exact exec_remotePutWrite_cut hr (State.putWaits_eq_false_iff.2 ⟨hf, ho⟩) hc
  · have hrun := State.getRun_running ht he hst hop hgo
    exact ⟨fun hg => exec_getReply_ok hrun (replyBody_part hland hg),
      fun hg hs hw => exec_getReply_ok hrun (replyBody_last hland hg hs rfl hw)⟩

end Sys2Proof.Machine
end

section
/-! The vector commands on integers, predicates and whole registers (R264 to R271, R276 to R278, R283 to R285): what each writes where its
conditions hold. -/

namespace Sys2Proof.Machine

open Sys2Proof.Claims

section
variable {op : Nat} {c : Cmd} {s : State} {r : Run}

theorem vInt_ok {f : Int → Int → Int} (h : VectorReady op (binForm c) c s r) : vInt op c f s =
    .next (finished r (s.modTc r.t (fun k => k.putV c (vBits c) (fun i =>
      narrow (cmdFormat c) (vS c) (f (intVal (cmdFormat c) (srcA k c i)) (intVal (cmdFormat c) (srcB k c i))))))) :=
  vBinary_ok h

/-- A comparison writes one bit an element, `un` where an operand is a NaN (R269). -/
theorem vCompare_ok {un : Bool} {p : Int → Bool} (h : VectorReady 0x64 { binForm c with named := [(vVd c, 15)] } c s r) :
    vCompare c un p s = .next (finished r (s.modTc r.t (fun k => k.putP c (k.active c) (fun i =>
      match elemCmp (cmdFormat c) (srcA k c i) (srcB k c i) with
      | none => un
      | some o => p o)))) :=
  runVector_ok h

/-- The form of an operation on n predicates (R270). -/
def predForm (c : Cmd) (n : Nat) (ok : Bool) : VForm :=
  { s1 := 1 ≤ n, s2 := 2 ≤ n, gov := .none, size := 1, auxOk := ok, named := [(vVd c, 15), (vVs1 c, 15), (vVs2 c, 15)] }

theorem vPred_ok {n : Nat} {ok : Bool} {f : Bool → Bool → Bool} (h : VectorReady 0x65 (predForm c n ok) c s r) :
    vPred c n ok f s = .next (finished r (s.modTc r.t (fun k => k.putP c (fun _ => true) (fun i =>
      f ((k.preg (vVs1 c)).getLsbD i) ((k.preg (vVs2 c)).getLsbD i))))) :=
  runVector_ok h

theorem vVote_ok {res : Nat → Nat → Bool}
    (h : VectorReady 0x71 { s2 := false, size := 1, auxOk := vAux c = 0, named := [(vVd c, 3), (vVs1 c, 15)] } c s r) :
    vVote c res s = .next (finished r (s.modTc r.t (fun k =>
      let n := countSet (k.preg (vVs1 c)) (k.actives c)
      { k with vt := SMap.set 0 k.vt (vVd c) (BitVec.ofNat 64 (n * 2 ^ 16 + if res n (k.actives c).length then 1 else 0)) }))) :=
  runVector_ok h

/-- A reduction writes one element of its result format (R276, R277). -/
theorem vReduce_ok {two : Bool} {res : Nat} {f : TileCtx → List Nat → Nat} (h : VectorReady op (redForm c two res) c s r) :
    vReduce op c two res f s = .next (finished r (s.modTc r.t (fun k =>
      k.setV (vVd c) (setElem (k.vreg (vVd c)) (8 * elemSize res) (opf c 144 13) (f k (k.actives c)))))) :=
  runVector_ok h

theorem execVredsum_int (h : VectorReady 0x69 (redForm c false (sumFormat c)) c s r) (hi : isInt (cmdFormat c) = true) :
    execVredsum c s = .next (finished r (s.modTc r.t (fun k =>
      k.setV (vVd c) (setElem (k.vreg (vVd c)) (8 * elemSize (sumFormat c)) (opf c 144 13)
        (wrap (((k.actives c).map (fun i => intVal (cmdFormat c) (srcA k c i))).sum) 64))))) := by
  rw [execVredsum, vReduce_ok h]
  simp only [hi, if_true]

theorem execVredsum_real (h : VectorReady 0x69 (redForm c false (sumFormat c)) c s r) (hi : isInt (cmdFormat c) = false) :
    execVredsum c s = .next (finished r (s.modTc r.t (fun k =>
      k.setV (vVd c) (setElem (k.vreg (vVd c)) (8 * elemSize (sumFormat c)) (opf c 144 13)
        (chainSum ((k.actives c).map (fun i => (i - vE0 c, termOf (cmdFormat c) (srcA k c i))))))))) := by
  rw [execVredsum, vReduce_ok h]
  simp only [hi, Bool.false_eq_true, if_false]

theorem execVdot_int (h : VectorReady 0x6A (redForm c true (sumFormat c)) c s r) (hi : isInt (cmdFormat c) = true) :
    execVdot c s = .next (finished r (s.modTc r.t (fun k =>
      k.setV (vVd c) (setElem (k.vreg (vVd c)) (8 * elemSize (sumFormat c)) (opf c 144 13)
        (wrap (((k.actives c).map (fun i => intVal (cmdFormat c) (srcA k c i) *
          intVal (cmdFormat c) (elemAt (k.vreg (vVs2 c)) (vBits c) i))).sum) 64))))) := by
  rw [execVdot]
  dsimp only
  rw [vReduce_ok h]
  simp only [hi, if_true]

theorem execVdot_real (h : VectorReady 0x6A (redForm c true (sumFormat c)) c s r) (hi : isInt (cmdFormat c) = false) :
    execVdot c s = .next (finished r (s.modTc r.t (fun k =>
      k.setV (vVd c) (setElem (k.vreg (vVd c)) (8 * elemSize (sumFormat c)) (opf c 144 13)
        (chainSum ((k.actives c).map (fun i => (i - vE0 c, product (ofElem (cmdFormat c) (srcA k c i))
          (ofElem (cmdFormat c) (elemAt (k.vreg (vVs2 c)) (vBits c) i)) (some 0))))))))) := by
  rw [execVdot]
  dsimp only
  rw [vReduce_ok h]
  simp only [hi, Bool.false_eq_true, if_false]

end

/-- Settles O40, family by family: each command by the fact about the form that it shares. -/
theorem vectorIntegerResults : Obligations.VectorIntegerResults := by
  unfold Obligations.VectorIntegerResults
  intro s c r w val put two one int amount
  exact ⟨
    fun h => ⟨(exec_vadd c s).trans (vInt_ok h), (exec_vsub c s).trans (vInt_ok h), (exec_vmul c s).trans (vInt_ok h),
      (exec_vmulh c s).trans (vBinary_ok h), (exec_vmin c s).trans (vBinary_ok h), (exec_vmax c s).trans (vBinary_ok h)⟩,
    fun h => ⟨(exec_vabs c s).trans (vUnary_ok h), (exec_vneg c s).trans (vUnary_ok h)⟩,
    fun h => ⟨(exec_vand c s).trans (vBinary_ok h), (exec_vor c s).trans (vBinary_ok h), (exec_vxor c s).trans (vBinary_ok h),
      (exec_vandn c s).trans (vBinary_ok h)⟩,
    fun h => (exec_vnot c s).trans (vUnary_ok h),
    fun h => ⟨(exec_vsll c s).trans (vBinary_ok h), (exec_vsrl c s).trans (vBinary_ok h), (exec_vsra c s).trans (vBinary_ok h)⟩,
    fun h => (exec_vfsh c s).trans (runVector_ok h),
    fun h => ⟨(exec_vbfx c s).trans (runVector_ok h), (exec_vbfi c s).trans (runVector_ok h)⟩,
    fun h => ⟨(exec_vpopc c s).trans (vUnary_ok h), (exec_vclz c s).trans (vUnary_ok h)⟩⟩

/-- Settles O41, family by family. -/
theorem vectorPredicateResults : Obligations.VectorPredicateResults := by
  unfold Obligations.VectorPredicateResults
  intro s c r cmp pred form vote
  exact ⟨
    fun h => ⟨(exec_vcmpEq c s).trans (vCompare_ok h), (exec_vcmpNe c s).trans (vCompare_ok h), (exec_vcmpLt c s).trans (vCompare_ok h),
      (exec_vcmpLe c s).trans (vCompare_ok h), (exec_vcmpGt c s).trans (vCompare_ok h), (exec_vcmpGe c s).trans (vCompare_ok h)⟩,
    fun h => ⟨(exec_vpand c s).trans (vPred_ok h), (exec_vpor c s).trans (vPred_ok h), (exec_vpxor c s).trans (vPred_ok h)⟩,
    fun h => (exec_vpnot c s).trans (vPred_ok h),
    fun h => (exec_vpset c s).trans (vPred_ok h),
    fun h => (exec_vsel c s).trans (runVector_ok h),
    fun h => ⟨(exec_vany c s).trans (vVote_ok h), (exec_vall c s).trans (vVote_ok h)⟩⟩

/-- Settles O43, family by family: a reduction by its format, the others by their form. -/
theorem vectorReduceResults : Obligations.VectorReduceResults := by
  unfold Obligations.VectorReduceResults
  intro s c r fmt sum red put nan
  exact ⟨
    fun h => ⟨fun hi => (exec_vredsum c s).trans (execVredsum_int h hi), fun hi => (exec_vredsum c s).trans (execVredsum_real h hi)⟩,
    fun h => ⟨(exec_vredmax c s).trans (vReduce_ok h), (exec_vredmin c s).trans (vReduce_ok h),
      (exec_vredmaxabs c s).trans (vReduce_ok h)⟩,
    fun h => ⟨fun hi => (exec_vdot c s).trans (execVdot_int h hi), fun hi => (exec_vdot c s).trans (execVdot_real h hi)⟩,
    fun h => (exec_vperm c s).trans (runVector_ok h),
    fun h => (exec_vrot c s).trans (runVector_ok h),
    fun h => (exec_vsplat c s).trans (runVector_ok h),
    fun h => (exec_vmovReg c s).trans (runVector_ok h),
    fun h => (exec_vmovi c s).trans (runVector_ok h),
    fun h => (exec_viota c s).trans (runVector_ok h)⟩

end Sys2Proof.Machine
end

section
/-! Elements of a register (R258), and what a vector operation does to each of them (R265). -/

namespace Sys2Proof.Machine

open Sys2Proof.Claims

section
variable {w n i j : Nat}

theorem testBit_elemAt (v : BitVec w) (n i t : Nat) :
    (elemAt v n i).testBit t = (decide (t < n) && v.toNat.testBit (n * i + t)) := by
  rw [elemAt, Nat.testBit_mod_two_pow, Nat.testBit_div_two_pow, Nat.add_comm t]

/-- What replacing an element makes of the number: the bits above it, the new element, the bits below it. -/
theorem toNat_setElem (v : BitVec w) (x : Nat) (hi : n * (i + 1) ≤ w) :
    (setElem v n i x).toNat = 2 ^ (n * i) * (2 ^ n * (v.toNat / 2 ^ (n * (i + 1))) + x % 2 ^ n) + v.toNat % 2 ^ (n * i) := by
  have hsplit : 2 ^ (n * (i + 1)) = 2 ^ (n * i) * 2 ^ n := by rw [← Nat.pow_add]; rfl
  have hx : x % 2 ^ n < 2 ^ n := Nat.mod_lt _ (Nat.two_pow_pos n)
  have hlow : v.toNat % 2 ^ (n * i) < 2 ^ (n * i) := Nat.mod_lt _ (Nat.two_pow_pos _)
  have hw : 2 ^ w = 2 ^ (n * i) * 2 ^ n * 2 ^ (w - n * (i + 1)) := by rw [← hsplit, ← Nat.pow_add, Nat.add_sub_cancel' hi]
  have hhigh : v.toNat / 2 ^ (n * (i + 1)) < 2 ^ (w - n * (i + 1)) := by
    rw [Nat.div_lt_iff_lt_mul (Nat.two_pow_pos _), ← Nat.pow_add, Nat.sub_add_cancel hi]
    exact v.isLt
  have hv : v.toNat = 2 ^ (n * i) * (2 ^ n * (v.toNat / 2 ^ (n * (i + 1))) + elemAt v n i) + v.toNat % 2 ^ (n * i) := by
    rw [elemAt, hsplit, ← Nat.div_div_eq_div_mul, Nat.div_add_mod, Nat.div_add_mod]
  rw [hsplit] at hv hhigh ⊢
  rw [setElem, BitVec.toNat_ofNat]
  generalize v.toNat / (2 ^ (n * i) * 2 ^ n) = high at hv hhigh ⊢
  generalize elemAt v n i = e at hv ⊢
  generalize v.toNat % 2 ^ (n * i) = low at hv hlow ⊢
  have hnew : v.toNat - e * 2 ^ (n * i) + x % 2 ^ n * 2 ^ (n * i) = 2 ^ (n * i) * (2 ^ n * high + x % 2 ^ n) + low := by
    have hring : v.toNat = e * 2 ^ (n * i) + (2 ^ (n * i) * (2 ^ n * high) + low) := hv.trans (by ring)
    rw [hring, Nat.add_sub_cancel_left]
    ring
  rw [hnew]
  refine Nat.mod_eq_of_lt ?_
  calc 2 ^ (n * i) * (2 ^ n * high + x % 2 ^ n) + low
      < 2 ^ (n * i) * (2 ^ n * high + x % 2 ^ n + 1) := by rw [Nat.mul_add_one]; omega
    _ ≤ 2 ^ (n * i) * (2 ^ n * (high + 1)) := Nat.mul_le_mul_left _ (by rw [Nat.mul_add_one]; omega)
    _ ≤ 2 ^ (n * i) * (2 ^ n * 2 ^ (w - n * (i + 1))) := Nat.mul_le_mul_left _ (Nat.mul_le_mul_left _ hhigh)
    _ = 2 ^ w := by rw [hw, Nat.mul_assoc]

/-- An element that is replaced is the new one; every other is as it was. -/
theorem elemAt_setElem (v : BitVec w) (x : Nat) (hi : n * (i + 1) ≤ w) :
    elemAt (setElem v n i x) n j = if j = i then x % 2 ^ n else elemAt v n j := by
  have hlow : v.toNat % 2 ^ (n * i) < 2 ^ (n * i) := Nat.mod_lt _ (Nat.two_pow_pos _)
  have hx : x % 2 ^ n < 2 ^ n := Nat.mod_lt _ (Nat.two_pow_pos n)
  refine Nat.eq_of_testBit_eq fun t => ?_
  by_cases ht : t < n
  · rw [testBit_elemAt, toNat_setElem v x hi, Nat.testBit_two_pow_mul_add _ hlow, Nat.testBit_two_pow_mul_add _ hx, Nat.testBit_mod_two_pow,
      Nat.testBit_div_two_pow]
    rcases Nat.lt_trichotomy j i with hj | rfl | hj
    · have : n * j + n ≤ n * i := Nat.mul_le_mul_left n hj
      rw [if_pos (by omega), if_neg (by omega), testBit_elemAt, decide_eq_true (show n * j + t < n * i by omega), Bool.true_and]
    · simp [ht]
    · have : n * i + n ≤ n * j := Nat.mul_le_mul_left n hj
      rw [if_neg (by omega), if_neg (by omega), if_neg (by omega), testBit_elemAt,
        show n * j + t - n * i - n + n * (i + 1) = n * j + t by rw [Nat.mul_add_one]; omega]
  · have hout : ∀ a, a < 2 ^ n → a.testBit t = false := fun a ha =>
      Nat.testBit_lt_two_pow (ha.trans_le (Nat.pow_le_pow_right Nat.two_pos (Nat.not_lt.1 ht)))
    have hnew : elemAt (setElem v n i x) n j < 2 ^ n := Nat.mod_lt _ (Nat.two_pow_pos n)
    rw [hout _ hnew]
    split
    · exact (hout _ hx).symm
    · exact (hout _ (Nat.mod_lt _ (Nat.two_pow_pos n))).symm

/-- What writing the elements of a list makes of each element: an active one of the list takes its result. -/
theorem elemAt_fillRange {act : Nat → Bool} {zm : Bool} {op : Nat → Nat} {l : List Nat} (hl : l.Nodup) (v : BitVec w)
    (hw : ∀ i ∈ l, n * (i + 1) ≤ w) :
    elemAt (fillRange v n act zm op l) n j =
      if j ∈ l then if act j then op j % 2 ^ n else if zm then 0 else elemAt v n j else elemAt v n j := by
  induction l generalizing v with
  | nil => rfl
  | cons i l ih =>
    obtain ⟨hnot, hnodup⟩ := List.nodup_cons.1 hl
    have hi := hw i List.mem_cons_self
    have hstep : ∀ k, elemAt (if act i then setElem v n i (op i) else if zm then setElem v n i 0 else v) n k =
        if k = i then if act i then op i % 2 ^ n else if zm then 0 else elemAt v n i else elemAt v n k := by
      intro k
      by_cases hk : k = i
      · subst hk
        cases act k <;> cases zm <;> simp [elemAt_setElem v _ hi]
      · cases act i <;> cases zm <;> simp [elemAt_setElem v _ hi, hk]
    rw [fillRange, ih hnodup _ (fun k hk => hw k (List.mem_cons_of_mem _ hk)), hstep j]
    by_cases hj : j = i
    · subst hj
      simp [hnot]
    · simp [hj]

end

theorem mem_vRange {c : Cmd} {i : Nat} : i ∈ vRange c ↔ vE0 c ≤ i ∧ i < vE0 c + vVl c := by
  simp only [vRange, List.mem_map, List.mem_range]
  constructor
  · rintro ⟨k, hk, rfl⟩
    omega
  · exact fun h => ⟨i - vE0 c, by omega, by omega⟩

theorem nodup_vRange (c : Cmd) : (vRange c).Nodup := List.nodup_range.map fun _ _ => Nat.add_left_cancel

theorem vreg_setV_self (k : TileCtx) (d : Nat) (v : VReg) : (k.setV d v).vreg d = v := SMap.get_set_self _ _ _ _

theorem vreg_setV_other (k : TileCtx) {d q : Nat} (v : VReg) (h : q ≠ d) : (k.setV d v).vreg q = k.vreg q :=
  SMap.get_set_other _ _ _ _ _ h

/-- Settles O39: the destination by what is made of each element, the rest by reading another register. -/
theorem vectorWriteRule : Obligations.VectorWriteRule := by
  unfold Obligations.VectorWriteRule
  intro k c n op _ hw
  refine ⟨fun i _ => ?_, fun q hq => vreg_setV_other k _ hq, rfl, rfl⟩
  have hrange : ∀ i ∈ vRange c, n * (i + 1) ≤ 65536 := fun i hi =>
    (Nat.mul_le_mul_left n (mem_vRange.1 hi).2).trans hw
  rw [TileCtx.putV, vreg_setV_self, elemAt_fillRange (nodup_vRange c) _ hrange]
  simp only [mem_vRange]

end Sys2Proof.Machine
end


section
/-! The positions of sorted codes (R245, R249). -/

namespace Sys2Proof.Machine

theorem sortCodes_length (codes : List Nat) (b : Nat) : (sortCodes codes b).length = 2 ^ b := by simp [sortCodes]

/-- The positions listed for a code are those that hold it, rising. -/
theorem sortCodes_eq (codes : List Nat) (b : Nat) :
    sortCodes codes b = (List.range (2 ^ b)).map (fun v => (List.range codes.length).filter (fun p => codes[p]? = some v)) := by
  have hzip : codes.zip (List.range codes.length) = (List.range codes.length).map (fun p => (codes.getD p 0, p)) :=
    List.ext_getElem (by simp) (by simp +contextual)
  refine List.map_congr_left fun v _ => ?_
  rw [hzip, List.filter_map, List.map_map]
  refine (List.map_id _).trans (List.filter_congr fun p hp => ?_)
  simp [List.mem_range.1 hp]

theorem sortCodes_row {codes : List Nat} {b v : Nat} (hv : v < 2 ^ b) :
    (sortCodes codes b)[v]?.getD [] = (List.range codes.length).filter (fun p => codes[p]? = some v) := by
  simp [sortCodes_eq, hv]

theorem mem_sortCodes_row {codes : List Nat} {b v p : Nat} (hv : v < 2 ^ b) :
    p ∈ (sortCodes codes b)[v]?.getD [] ↔ codes[p]? = some v := by
  rw [sortCodes_row hv, List.mem_filter, List.mem_range, decide_eq_true_iff]
  exact and_iff_right_of_imp fun h => (List.getElem?_eq_some_iff.1 h).1

/-- Every position is listed once: by the code that it holds. -/
theorem sortCodes_perm {codes : List Nat} {b : Nat} (hb : ∀ v ∈ codes, v < 2 ^ b) :
    ((sortCodes codes b).flatten).Perm (List.range codes.length) := by
  have hnodup : ((sortCodes codes b).flatten).Nodup := by
    rw [sortCodes_eq, List.nodup_flatten]
    refine ⟨?_, ?_⟩
    · simp only [List.forall_mem_map]
      exact fun v _ => List.nodup_range.filter _
    · refine List.pairwise_map.2 (List.pairwise_lt_range.imp fun hlt p hp hq => ?_)
      have hp := (List.mem_filter.1 hp).2
      have hq := (List.mem_filter.1 hq).2
      simp only [decide_eq_true_eq] at hp hq
      exact absurd (Option.some.inj (hp.symm.trans hq)) hlt.ne
  refine (List.perm_ext_iff_of_nodup hnodup List.nodup_range).2 fun p => ?_
  rw [sortCodes_eq, List.mem_flatten, List.mem_range]
  constructor
  · rintro ⟨l, hl, hp⟩
    obtain ⟨v, -, rfl⟩ := List.mem_map.1 hl
    exact List.mem_range.1 (List.mem_filter.1 hp).1
  · intro hp
    refine ⟨_, List.mem_map.2 ⟨codes[p], List.mem_range.2 (hb _ (List.getElem_mem hp)), rfl⟩, ?_⟩
    simp [hp]

/-- Settles O34: the list of a code is the positions that hold it, in their own order. -/
theorem sortIsStable : Obligations.SortIsStable := by
  unfold Obligations.SortIsStable
  refine fun codes b hb => ⟨sortCodes_length codes b, sortCodes_perm hb, fun v hv => ⟨?_, fun p => mem_sortCodes_row hv⟩⟩
  rw [sortCodes_row hv]
  exact List.pairwise_lt_range.filter _

end Sys2Proof.Machine
end

section
/-! Leases, planes and drains of the anvil (R289 to R293, R298 to R303): what each command makes of its tile and cluster where its
conditions hold. -/

namespace Sys2Proof.Machine

open Sys2Proof.Claims

/-! ## Leases -/

section
variable {s : State} {c : Cmd} {r : Run}

theorem exec_anLease_ok (hs : CanStart 0x80 c s r) (hr : r.e.st ≠ .running) (hc : anChecks {} r c s = .ok () s) :
    exec (.anLease c) s = .next (ongoing r ((((s.endLease r.t).modTc r.t (fun k => { k with ll := anCnt c })).dropLeaseRequest
      r.t).requestLease r.t (anCnt c))) := by
  rw [exec_anLease, execAnLease]
  refine (runCommand_ok (fin := false) hs ?_).trans rfl
  rw [need_bind (by simpa using hr), M.bind_ok hc]
  rfl

theorem exec_anFree_ok (hs : CanStart 0x87 c s r) (hc : anChecks { cnt := false } r c s = .ok () s) (hf : RangeFree s r) :
    exec (.anFree c) s = .next (finished r (s.endLease r.t)) := by
  rw [exec_anFree, execAnFree]
  refine runCommand_whole hs ?_
  rw [M.bind_ok hc, M.bind_ok (begin_none (only_of_canStart hs) hf)]
  rfl

/-- A lease that has ended is not its tile's. -/
theorem holder_endLease (s : State) (t : Nat) : ((s.endLease t).anvil (clusterOf t)).holder ≠ some (positionOf t) := by
  unfold State.endLease
  dsimp only
  split
  · rw [State.anvil, State.setAnvil, SMap.get_put_self]
    exact nofun
  · assumption

end

/-- The request that is granted is the first in cyclic order after the last holder (R292). -/
theorem nextLease_eq_some {a : Anvil} {x : Nat × Nat} (h : nextLease a = some x) :
    x ∈ a.requests ∧ ∃ j, 0 < j ∧ j < 5 ∧ x.1 = (a.last + j) % 4 ∧
      ∀ i, 0 < i → i < j → ∀ y ∈ a.requests, y.1 ≠ (a.last + i) % 4 := by
  have hlist : [a.last + 1, a.last + 2, a.last + 3, a.last + 4] = (List.range 4).map (fun j => a.last + (j + 1)) := rfl
  rw [nextLease, hlist] at h
  obtain ⟨before, p, after, hsplit, hfind, hnone⟩ := List.findSome?_eq_some_iff.1 h
  have hlen := congrArg List.length hsplit
  simp only [List.length_map, List.length_range, List.length_append, List.length_cons] at hlen
  have hget : ∀ i, i < 4 → (before ++ p :: after)[i]? = some (a.last + (i + 1)) := fun i hi => by
    rw [← hsplit]; simp [hi]
  have hp : p = a.last + (before.length + 1) := by simpa using hget before.length (by omega)
  refine ⟨List.mem_of_find?_eq_some hfind, before.length + 1, by omega, by omega, ?_, fun i h0 hi y hy => ?_⟩
  · rw [← hp]
    simpa using List.find?_some hfind
  · have hmem : a.last + i ∈ before := by
      have := hget (i - 1) (by omega)
      rw [List.getElem?_append_left (by omega), show i - 1 + 1 = i by omega] at this
      exact List.mem_of_getElem? this
    simpa using List.find?_eq_none.1 (hnone _ hmem) y hy

/-- The one request that waits is the next that is granted. -/
theorem nextLease_single {a : Anvil} {p n : Nat} (hr : a.requests = [(p, n)]) (hp : p < 4) : nextLease a = some (p, n) := by
  have hmem : ∀ x ∈ a.requests, x = (p, n) := by simp [hr]
  obtain ⟨j, hj, hpj⟩ : ∃ q ∈ [a.last + 1, a.last + 2, a.last + 3, a.last + 4], p = q % 4 := by
    simp only [List.mem_cons, List.not_mem_nil, or_false, exists_eq_or_imp, exists_eq_left]
    omega
  cases hnext : nextLease a with
  | some x => rw [hmem x (nextLease_eq_some hnext).1]
  | none =>
    have := List.findSome?_eq_none_iff.1 hnext j hj
    rw [hr] at this
    simp [hpj] at this

section
variable {s : State} {k p n : Nat}

/-- A lease that is granted (R292). -/
theorem execLeaseGrant_ok (hn : nextLease { s.anvil k with last := (s.anvil k).holder.getD (s.anvil k).last } = some (p, n))
    (hf : s.leaseFree k = true) : ∃ t, exec (.leaseGrant k) s = .next t ∧ t.mem = s.mem ∧
      t.anvil k = { s.anvil k with holder := some p, count := n, since := s.clk, last := (s.anvil k).holder.getD (s.anvil k).last
                                   requests := (s.anvil k).requests.filter (fun r => r.1 ≠ p) } := by
  rw [exec_leaseGrant, execLeaseGrant]
  dsimp only
  rw [hn]
  dsimp only
  rw [hf]
  exact ⟨_, rfl, rfl, SMap.get_put_self _ _ _ _⟩

theorem exec_leaseIdleExpiry_ok (hh : (s.anvil k).holder = some p) (ha : s.leaseActive (tileAt k p) = false)
    (hc : (s.ctx (s.ctxOf (tileAt k p))).st ≠ .preempting) (ht : (s.anvil k).since + s.dev.settings.leaseIdle ≤ s.clk) :
    exec (.leaseIdleExpiry k) s = .next (s.endLease (tileAt k p)) := by
  simp [exec_leaseIdleExpiry, execLeaseIdleExpiry, hh, ha, hc, ht]

end

section
variable {s : State} {c : Cmd} {r : Run}

/-- The demands of a leasing command pass their checks where no pop is of more than 16 slots (R148). -/
theorem demandChecks_pops {pops : List (Nat × Nat)} (h : ∀ p ∈ pops, p.2 ≤ 16) : demandChecks none pops s = .ok () s := by
  have hnone : pops.find? (fun p => p.2 > 16) = none := List.find?_eq_none.2 fun p hp => by simpa using h p hp
  simp [demandChecks, hnone]

/-- A leasing command without a lease is held before it takes its slots (R291). -/
theorem anStart_lacks {pops : List (Nat × Nat)} (hl : ¬ HoldsLease s r) (h : ∀ p ∈ pops, p.2 ≤ 16) :
    anStart r pops s = .error (.hold 3) s := by
  obtain ⟨hr, ha⟩ := not_or.1 hl
  rw [anStart, if_neg hr, M.bind_ok (demandChecks_pops h), M.bind_ok (M.get_run s)]
  exact need_bind_not (by simpa using ha)

/-- A command held for want of a lease asks for it (R152, R291). -/
theorem runCommand_lacks {op : Nat} {body : Run → M Bool} (hs : CanStart op c s r) (hb : body r s = .error (.hold 3) s) :
    runCommand op c body s = .next ((s.modEntry r.t r.q r.e.seq (fun e => { e with why := 3 })).requestLease r.t
      (max 1 (s.tc r.t).ll)) := by
  have hll : ((s.modEntry r.t r.q r.e.seq (fun e => { e with why := 3 })).tc r.t).ll = (s.tc r.t).ll := by
    rw [State.modEntry, State.tc_modTc_self]
    unfold TileCtx.modQueue TileCtx.setQueue
    split <;> [skip; split] <;> rfl
  rw [runCommand_hold hs hb, keepFresh_self, ← hll]
  rfl

/-- The leasing commands hold their checks and the start of a lease before all else. -/
theorem leasing_startsFirst (c : Cmd) (r : Run) :
    ∀ x ∈ ([(.anLdw c, 0x81, ldwForm, []), (.anSwap c, 0x82, swapForm, []), (.anMul c, 0x83, mulForm, [(anDq c, anCnt c)]),
      (.anGmul c, 0x84, gmulForm, [])] : List (Instr × Nat × AnForm × List (Nat × Nat))),
    ChecksFirst x.1 x.2.1 c r (anChecks x.2.2.1 r c >>= fun _ => anStart r x.2.2.2) := by
  simp only [List.forall_mem_cons]
  exact ⟨⟨_, exec_anLdw c, _, (bind_assoc _ _ _).symm⟩, ⟨_, exec_anSwap c, _, (bind_assoc _ _ _).symm⟩,
    ⟨_, exec_anMul c, _, (bind_assoc _ _ _).symm⟩, ⟨_, exec_anGmul c, _, (bind_assoc _ _ _).symm⟩, List.forall_mem_nil _⟩

theorem exec_leasing_lacks {i : Instr} {op : Nat} {f : AnForm} {pops : List (Nat × Nat)}
    (hx : (i, op, f, pops) ∈ ([(.anLdw c, 0x81, ldwForm, []), (.anSwap c, 0x82, swapForm, []),
      (.anMul c, 0x83, mulForm, [(anDq c, anCnt c)]), (.anGmul c, 0x84, gmulForm, [])] :
        List (Instr × Nat × AnForm × List (Nat × Nat))))
    (hs : CanStart op c s r) (hc : anChecks f r c s = .ok () s) (hp : ∀ p ∈ pops, p.2 ≤ 16) (hl : ¬ HoldsLease s r) :
    exec i s = .next ((s.modEntry r.t r.q r.e.seq (fun e => { e with why := 3 })).requestLease r.t (max 1 (s.tc r.t).ll)) := by
  obtain ⟨body, hi, rest, hbody⟩ := leasing_startsFirst c r _ hx
  refine (hi s).trans (runCommand_lacks hs ?_)
  rw [hbody]
  exact M.bind_error ((M.bind_ok hc).trans (anStart_lacks hl hp))

end

/-- Settles O36: the commands by what they make of the lease, the grant by the order of the requests. -/
theorem leaseResults : Obligations.LeaseResults := by
  unfold Obligations.LeaseResults
  intro s c r k p n a
  refine ⟨exec_anLease_ok, execLeaseGrant_ok, fun x hx => ?_, holder_endLease s, fun hh hr hp => ?_, exec_anFree_ok,
    exec_leaseIdleExpiry_ok, fun i op f hi hs hc h16 hl => ?_⟩
  · obtain ⟨hmem, j, hj0, hj5, hxj, hbefore⟩ := nextLease_eq_some hx
    refine ⟨hmem, fun j' h0 h5 hx' i hi0 hij => hbefore i hi0 ?_⟩
    omega
  · have hfree : s.leaseFree k = true := by simp [State.leaseFree, a, hh]
    obtain ⟨t, hexec, -, hanvil⟩ := execLeaseGrant_ok (s := s) (nextLease_single (a := { a with last := _ }) hr hp) hfree
    exact ⟨t, hexec, by rw [hanvil], by rw [hanvil]⟩
  · have hnone : ∀ q ∈ ([] : List (Nat × Nat)), q.2 ≤ 16 := nofun
    simp only [List.mem_cons, Prod.mk.injEq, List.not_mem_nil, or_false] at hi
    rcases hi with ⟨rfl, rfl, rfl⟩ | ⟨rfl, rfl, rfl⟩ | ⟨rfl, rfl, rfl⟩ | ⟨rfl, rfl, rfl⟩
    · exact exec_leasing_lacks (pops := []) (by simp) hs hc hnone hl
    · exact exec_leasing_lacks (pops := []) (by simp) hs hc hnone hl
    · exact exec_leasing_lacks (pops := [(anDq c, anCnt c)]) (by simp) hs hc (by simpa using h16 rfl) hl
    · exact exec_leasing_lacks (pops := []) (by simp) hs hc hnone hl

/-! ## Planes and products -/

section
variable {s : State} {c : Cmd} {r : Run}

/-- A leasing command that pops no slots starts by lowering the count of its lease, unless it has started (R291). -/
theorem anStart_none (ho : r.only = false) (hl : HoldsLease s r) (hf : RangeFree s r) : anStart r [] s = .ok () (leased r s) := by
  simp only [RangeFree] at hf
  by_cases hr : r.e.st = .running
  · simp [anStart, leased, hr]
  · have ha := hl.resolve_left hr
    simp [anStart, leased, hr, M.bind_run, demandChecks, takeSlots, need_run, ha, hf, ho]

/-- One that pops slots claims them first (R148). -/
theorem anStart_pop {d n : Nat} (ho : r.only = false) (hl : HoldsLease s r) (hf : SlotsFull s r d n) :
    anStart r [(d, n)] s = .ok () (leased r (claiming r d n s)) := by
  obtain ⟨hr, hrange, hn, hlen, hfull⟩ := hf
  simp only [RangeFree] at hrange
  have ha := hl.resolve_left hr
  have hn' : ¬ 16 < n := by omega
  simp [anStart, leased, claiming, hr, M.bind_run, demandChecks, takeSlots, need_run, ha, hrange, ho, hlen, hfull, hn']

/-- The checks of the active plane (R300). -/
theorem planeChecks_ok (ht : (s.anvil (clusterOf r.t)).active.tag = anWtag c)
    (hb : (s.anvil (clusterOf r.t)).active.bf16 = true ↔ cmdFormat c = 9) : planeChecks r c s = .ok () s := by
  have hb' : (s.anvil (clusterOf r.t)).active.bf16 = decide (cmdFormat c = 9) := by
    rw [Bool.eq_iff_iff, decide_eq_true_iff]; exact hb
  simp [planeChecks, M.bind_run, need_run, ht, hb']

end

/-- Settles O37: each command starts on its lease, and its data are read as the statement has them. -/
theorem anvilPlaneResults : Obligations.AnvilPlaneResults := by
  unfold Obligations.AnvilPlaneResults
  intro s u v c r rows k h plane
  refine ⟨fun hs hc hl hf hrun => ?_, fun hs hc hl hf => ?_, fun hs hc hl hf => ?_, fun hs hc hl hf hplane hrows hadd => ?_⟩
  · rw [exec_anLdw, execAnLdw]
    refine runCommand_whole hs ?_
    rw [M.bind_ok hc, M.bind_ok (anStart_none (only_of_canStart hs) hl hf)]
    refine (M.bind_ok (upd_run _ _)).trans ?_
    simp only [Runs] at hrun
    exact congrArg (fun x : EStateM.Result Exc State Unit => match x with
      | .ok _ s' => EStateM.Result.ok true s'
      | .error (Exc.fault code detail addr) s' => .error (Exc.fault code detail addr) (s'.scrambleColumns k c)
      | .error e s' => .error e s') hrun
  · rw [exec_anSwap, execAnSwap]
    refine runCommand_whole hs ?_
    rw [M.bind_ok hc, M.bind_ok (anStart_none (only_of_canStart hs) hl hf)]
    rfl
  · intro t l hok hplane hadd
    obtain ⟨htag, hbf⟩ := hplane
    rw [exec_anMul, execAnMul]
    refine runCommand_whole hs ?_
    rw [M.bind_ok hc, M.bind_ok (anStart_pop (only_of_canStart hs) hl hf), M.bind_ok (claimed_run r _ _), M.bind_ok (checkSlots_ok hok),
      M.bind_ok (planeChecks_ok htag hbf), M.bind_ok hadd, M.bind_ok (releaseClaims_run r v)]
    rfl
  · obtain ⟨htag, hbf⟩ := hplane
    rw [exec_anGmul, execAnGmul]
    refine runCommand_whole hs ?_
    rw [M.bind_ok hc, M.bind_ok (anStart_none (only_of_canStart hs) hl hf), M.bind_ok (planeChecks_ok htag hbf), M.bind_ok (M.get_run _),
      M.bind_ok hrows, M.bind_ok hadd]
    rfl

/-! ## Drains -/

section
variable {s t u : State} {c : Cmd} {r : Run}

/-- A loop of checks that all pass leaves the state. -/
theorem forM_need {α : Type} {l : List α} {p : α → Bool} {e : α → Exc} (h : ∀ a ∈ l, p a = true) :
    (l.forM (fun a => need (p a) (e a)) : M PUnit) s = .ok () s := by
  induction l with
  | nil => rfl
  | cons a l ih =>
    refine (need_bind (h a List.mem_cons_self)).trans ?_
    exact ih fun b hb => h b (List.mem_cons_of_mem _ hb)

/-- A change that is made where a condition holds, before the rest. -/
theorem upd_if_bind {β : Type} {b : Prop} [Decidable b] (f : State → State) (k : Unit → M β) :
    (if b then upd f >>= k else k ()) s = k () (if b then f s else s) := by
  split <;> rfl

/-- A drain of closed rows that has started writes them out, then empties them where C is set (R303). -/
theorem exec_anDrain_ok (hs : CanStart 0x86 c s r) (hc : anChecks (drainForm c) r c s = .ok () s)
    (hbegin : begin r (if anD c then some (anDq c, anCnt c) else none) [] s = .ok () t)
    (hclosed : ∀ i < anCnt c, ∀ n < 64, (t.tc r.t).chainOf true (anM0 c + i) n = none)
    (hout : (List.range (anCnt c)).forM (drainOut r c) (if cmdFormat c = 10 then t.modTc r.t (fun k => k.seeded2 r.e.seq) else t) =
      .ok () u) :
    exec (.anDrain c) s = .next (finished r (if anC c then u.modTc r.t (fun k => k.zeroRows c) else u)) := by
  have hneed : ∀ i ∈ List.range (anCnt c),
      ((List.range 64).all (fun n => (t.tc r.t).chainOf true (anM0 c + i) n = none)) = true := fun i hi => by
    simpa using hclosed i (List.mem_range.1 hi)
  rw [exec_anDrain, execAnDrain]
  refine runCommand_whole hs ?_
  rw [M.bind_ok hc, M.bind_ok hbegin, M.bind_ok (M.get_run t), M.bind_ok (forM_need hneed)]
  refine (upd_if_bind _ _).trans ((M.bind_ok hout).trans (upd_if_bind _ _))

end

/-- Settles O38: emptying and closing change the accumulators at once, a drain starts with or without slots. -/
theorem anvilDrainResults : Obligations.AnvilDrainResults := by
  unfold Obligations.AnvilDrainResults
  intro s u c r closed ready after
  refine ⟨fun hs hc hf => ?_, fun hs hc hf => ?_, fun hs hc hcase => ?_⟩
  · rw [exec_anZero, execAnZero]
    refine runCommand_whole hs ?_
    rw [M.bind_ok hc, M.bind_ok (begin_none (only_of_canStart hs) hf)]
    rfl
  · rw [exec_anClose, execAnClose]
    refine runCommand_whole hs ?_
    rw [M.bind_ok hc, M.bind_ok (begin_none (only_of_canStart hs) hf)]
    rfl
  · rcases hcase with ⟨hd, hf, hclosed, hout⟩ | ⟨hd, hf, hclosed, hout⟩
    · exact exec_anDrain_ok hs hc (by rw [hd]; exact begin_none (only_of_canStart hs) hf) hclosed hout
    · exact exec_anDrain_ok hs hc (by rw [hd]; exact begin_fill (only_of_canStart hs) hf) hclosed hout

end Sys2Proof.Machine
end

section
/-! Sorting and buckets (R249, R252 to R254): the commands where their conditions hold. -/

namespace Sys2Proof.Machine

open Sys2Proof.Claims

section
variable {s u v w : State} {c : Cmd} {r : Run} {recs : List (Option SortedRec)}

theorem exec_srtCodes_ok (hs : CanStart 0x40 c s r) (hc : srChecks r c s = .ok () s) (hf : RangeFree s r)
    (hrows : (List.range (srRows c)).forM (sortRow r c) s = .ok () u) : exec (.srtCodes c) s = .next (finished r u) := by
  rw [exec_srtCodes, execSrtCodes]
  refine runCommand_whole hs ?_
  rw [sortBody, M.bind_ok hc, M.bind_ok (begin_none (only_of_canStart hs) hf), M.bind_ok hrows]
  rfl

theorem exec_bkClear_ok (hs : CanStart 0x48 c s r) (hr : reservedBit c [(64, 36), (111, 81)] = none) (h0 : bkNl c ≠ 0)
    (h32 : bkL0 c + bkNl c ≤ 32) (hf : RangeFree s r) :
    exec (.bkClear c) s = .next (finished r (s.modTc r.t (fun k => k.clearLanes (bkL0 c) (bkNl c)))) := by
  rw [exec_bkClear, execBkClear]
  refine runCommand_whole hs ?_
  rw [clearBody, M.bind_ok (checkReserved_ok hr), need_bind (by simp [h0, h32]), M.bind_ok (begin_none (only_of_canStart hs) hf)]
  rfl

/-- Records that are all well formed pass their check, whatever the offset it counts from. -/
theorem bkWellFormed_ok {h : Record} (hok : ∀ x ∈ recs, ∀ y, x = some y → y.ok (recK h) (recB h) = true) (i : Nat) :
    bkWellFormed h recs i s = .ok () s := by
  induction recs generalizing i with
  | nil => rfl
  | cons x l ih =>
    have hl := ih fun y hy => hok y (List.mem_cons_of_mem _ hy)
    cases x with
    | none => exact hl _
    | some y => exact (need_bind (hok _ List.mem_cons_self y rfl)).trans (hl _)

theorem exec_bkSum_ok (hs : CanStart 0x49 c s r) (hc : bkChecks false false r c s = .ok () s)
    (hfull : SlotsFull s r (bkDq c) (if c.sub.getLsbD 0 then bkNl c else 1))
    (hrecs : bkRecords readForSum r c (claiming r (bkDq c) (if c.sub.getLsbD 0 then bkNl c else 1) s) = .ok recs u)
    (hslots : checkSlots (bkDq c) (some 0) (owned r (bkDq c) u) u = .ok () u)
    (hok : ∀ x ∈ recs, ∀ y, x = some y → y.ok (recK (r.e.handle (bkH c))) (recB (r.e.handle (bkH c))) = true)
    (hscales : bkScales (u.tc r.t) (bkL0 c) (fun i => nth ⟨.claimed, 0, 0, 0⟩ (owned r (bkDq c) u) (if c.sub.getLsbD 0 then i else 0))
      recs 0 u = .ok () u)
    (hsum : Runs ((recs.zip (List.range recs.length)).forM (fun p =>
      match p.1 with
      | none => pure ()
      | some x => upd (fun s => s.modTc r.t (fun k => k.sumLane (bkL0 c + p.2) (recB (r.e.handle (bkH c)))
          (nth ⟨.claimed, 0, 0, 0⟩ (owned r (bkDq c) u) (if c.sub.getLsbD 0 then p.2 else 0)) x)))) u () v) :
    exec (.bkSum c) s = .next (finished r (released r v)) := by
  rw [exec_bkSum, execBkSum]
  refine runCommand_whole hs ?_
  rw [sumBody, M.bind_ok hc, M.bind_ok (begin_pop (only_of_canStart hs) hfull), M.bind_ok hrecs, M.bind_ok (claimed_run r _ u),
    M.bind_ok hslots, M.bind_ok (bkWellFormed_ok hok 0), M.bind_ok (M.get_run u), M.bind_ok hscales]
  refine (M.bind_ok hsum).trans ?_
  rw [M.bind_ok (releaseClaims_run r v)]
  rfl

/-- A `bk.fin` that has started reads its records, writes the combined values out and clears its lanes where MD[0] is set (R254). -/
theorem exec_bkFin_ok {t : State} (hs : CanStart 0x4A c s r) (hc : bkChecks true (c.sub.getLsbD 0) r c s = .ok () s)
    (hbegin : begin r (if c.sub.getLsbD 0 then some (bkDq c, 1) else none) [] s = .ok () t)
    (hrecs : bkRecords readForFin r c t = .ok recs u) (hok : bkWellFormed (r.e.handle (bkH c)) recs 0 u = .ok () u)
    (hout : (if c.sub.getLsbD 0 then fillSlot r (bkDq c) (BitVec.ofNat 4096 (packElems 4
        ((recs.zip (List.range recs.length)).map (fun p => combine (shapeOf (r.e.handle (bkH c))).fmt (recB (r.e.handle (bkH c)))
          ((u.tc r.t).lane (bkL0 c + p.2)) p.1)))) (sideWord (bkTag c) false true (4 * bkNl c) 8 127)
      else upd (fun s => s.modTc r.t (fun k => k.setV (bkVd c) (putF32s (k.vreg (bkVd c)) (bkE0 c)
        ((recs.zip (List.range recs.length)).map (fun p => combine (shapeOf (r.e.handle (bkH c))).fmt (recB (r.e.handle (bkH c)))
          ((u.tc r.t).lane (bkL0 c + p.2)) p.1)))))) u = .ok () w) :
    exec (.bkFin c) s = .next (finished r (if c.md.getLsbD 0 then w.modTc r.t (fun k => k.clearLanes (bkL0 c) (bkNl c)) else w)) := by
  rw [exec_bkFin, execBkFin]
  refine runCommand_whole hs ?_
  rw [finBody]
  dsimp only
  rw [M.bind_ok hc, M.bind_ok hbegin, M.bind_ok hrecs, M.bind_ok hok, M.bind_ok (M.get_run u)]
  cases hdq : c.sub.getLsbD 0 <;> simp only [hdq, Bool.false_eq_true, if_false, if_true] at hout ⊢ <;>
    exact (M.bind_ok hout).trans (upd_if_bind _ _)

end

/-- Settles O35: each command starts as its conditions allow, and its records and slots are read as the statement has them. -/
theorem bucketResults : Obligations.BucketResults := by
  unfold Obligations.BucketResults
  intro s u v w c r recs h n cleared out
  refine ⟨exec_srtCodes_ok, exec_bkClear_ok, fun hs hc hfull hrecs => ?_, fun hd hs hc hf hrecs hok => ?_,
    fun hd hs hc hf hrecs hok hfill => ?_⟩
  · intro slots slot hside hok hscales hsum
    exact exec_bkSum_ok hs hc hfull hrecs (checkSlots_ok hside) hok hscales hsum
  · refine exec_bkFin_ok (t := s) hs (by rwa [hd]) ?_ hrecs hok ?_
    · rw [hd]
      exact begin_none (only_of_canStart hs) hf
    · rw [hd]
      rfl
  · refine exec_bkFin_ok hs (by rwa [hd]) ?_ hrecs hok ?_
    · rw [hd]
      exact begin_fill (only_of_canStart hs) hf
    · rw [hd]
      exact hfill

end Sys2Proof.Machine
end

section
/-! Sends, puts, arrivals and gets (R360, R364, R365). -/

namespace Sys2Proof.Machine

open Sys2Proof.Claims

section
variable {s t u : State} {c : Cmd} {r : Run} {d : Domain} {serial : Word} {peer : Nat} {p : List Byte}

/-- A command that hands over its request: the body of a member that the domain has. -/
theorem exec_txSend_member (hs : CanStart 0xC0 c s r) (hc : msChecks .send r c s = .ok d t) (hm : d.members[msMember c]? = some (serial, peer))
    (hp : readPayload r c t = .ok p u) :
    let w := u.modTc r.t (fun y => { y with unacked := y.unacked ++ [⟨r.e.seq, 0xC0, msWord c⟩] })
    let m : Message :=
      { ctx := peer, domain := d.id, src := BitVec.ofNat 16 (u.memberIndex (u.ctxOf r.t) d * 512 + u.ctileOf r.t),
        chan := msChan c, cls := u.classOf r c, tag := msTag c, payload := p, cut := none, sender := u.refOf r }
    exec (.txSend c) s = .next (finished r (w.handOver serial (w.classOf r c) (w.ctileOf r.t) (msChan c).toNat (.messageArrival m)
      (.send serial m))) := by
  intro w m
  rw [exec_txSend, execTxSend]
  refine runCommand_whole hs ?_
  rw [M.bind_ok hc, need_bind (by simp [only_of_canStart hs]), hm]
  exact M.bind_ok hp

theorem exec_txPut_member (hs : CanStart 0xC1 c s r) (hc : msChecks .put r c s = .ok d t) (hm : d.members[msMember c]? = some (serial, peer))
    (hp : readPayload r c t = .ok p u) :
    let w := u.modTc r.t (fun y => { y with unacked := y.unacked ++ [⟨r.e.seq, 0xC1, 0⟩] })
    let m : RemotePut :=
      { ctx := peer, va := c.patch, payload := p, word := BitVec.ofNat 64 (msWord c), cls := u.classOf r c, cut := none,
        sender := u.refOf r }
    exec (.txPut c) s = .next (finished r (w.handOver serial (w.classOf r c) (w.ctileOf r.t) 0 (.remotePutWrite m) (.put serial m))) := by
  intro w m
  rw [exec_txPut, execTxPut]
  refine runCommand_whole hs ?_
  rw [M.bind_ok hc, need_bind (by simp [only_of_canStart hs]), hm]
  exact M.bind_ok hp

theorem exec_txPutArrive_member (hs : CanStart 0xC1 c s r) (hc : msChecks .arrive r c s = .ok d t)
    (hm : d.members[msMember c]? = some (serial, peer)) :
    let w := t.modTc r.t (fun y => { y with unacked := y.unacked ++ [⟨r.e.seq, 0xC1, msWord c⟩] })
    let m : RemoteSignal := { ctx := peer, va := c.patch, cls := t.classOf r c, sender := t.refOf r }
    exec (.txPutArrive c) s = .next (finished r (w.handOver serial (w.classOf r c) (w.ctileOf r.t) 0 (.remoteArrival m)
      (.arrive serial m))) := by
  intro w m
  rw [exec_txPutArrive, execTxPutArrive]
  refine runCommand_whole hs ?_
  rw [M.bind_ok hc, hm]
  rfl

theorem exec_txGet_member (hs : CanStart 0xC2 c s r) (hstart : r.e.prog.started = false) (hc : msChecks .get r c s = .ok d t)
    (hm : d.members[msMember c]? = some (serial, peer)) :
    let m : RemoteGet := { ctx := peer, va := c.patch, len := (msShape r c).boxBytes, cls := t.classOf r c, sender := t.refOf r }
    exec (.txGet c) s = .next (ongoing r (progressed r (fun q => { q with started := true })
      (t.handOver serial (t.classOf r c) (t.ctileOf r.t) 0 (.remoteGetRead m) (.get serial m)))) := by
  intro m
  rw [exec_txGet, execTxGet]
  refine (runCommand_ok (fin := false) hs ?_).trans rfl
  rw [need_bind (by simp [hstart]), M.bind_ok hc, hm]
  rfl

end

section
variable {s t : State} {c : Cmd} {r : Run} {d : Domain} (hm : d.members[msMember c]? = none)
include hm

theorem exec_txSend_missing (hs : CanStart 0xC0 c s r) (hc : msChecks .send r c s = .ok d t) : exec (.txSend c) s =
    .next (finished r (t.outcome (t.ctxOf r.t) (t.ctileOf r.t) 0xC0 (msWord c) 0 4)) := by
  rw [exec_txSend, execTxSend]
  refine runCommand_whole hs ?_
  rw [M.bind_ok hc, need_bind (by simp [only_of_canStart hs]), hm]
  rfl

theorem exec_txPut_missing (hs : CanStart 0xC1 c s r) (hc : msChecks .put r c s = .ok d t) : exec (.txPut c) s =
    .next (finished r (t.outcome (t.ctxOf r.t) (t.ctileOf r.t) 0xC1 0 0 4)) := by
  rw [exec_txPut, execTxPut]
  refine runCommand_whole hs ?_
  rw [M.bind_ok hc, need_bind (by simp [only_of_canStart hs]), hm]
  rfl

theorem exec_txPutArrive_missing (hs : CanStart 0xC1 c s r) (hc : msChecks .arrive r c s = .ok d t) : exec (.txPutArrive c) s =
    .next (finished r (t.outcome (t.ctxOf r.t) (t.ctileOf r.t) 0xC1 (msWord c) 0 4)) := by
  rw [exec_txPutArrive, execTxPutArrive]
  refine runCommand_whole hs ?_
  rw [M.bind_ok hc, hm]
  rfl

theorem exec_txGet_missing (hs : CanStart 0xC2 c s r) (hstart : r.e.prog.started = false) (hc : msChecks .get r c s = .ok d t) :
    exec (.txGet c) s = .next (finished r (t.outcome (t.ctxOf r.t) (t.ctileOf r.t) 0xC2 (msWord c) 0 4)) := by
  rw [exec_txGet, execTxGet]
  refine runCommand_whole hs ?_
  rw [need_bind (by simp [hstart]), M.bind_ok hc, hm]
  rfl

end

/-- Settles O49: each command by whether its scope's domain has the member. -/
theorem sendResults : Obligations.SendResults := by
  unfold Obligations.SendResults
  intro s t u c r d serial peer p wait miss get msg put sig out
  exact ⟨
    fun hs hc => ⟨exec_txSend_member hs hc, fun hm => exec_txSend_missing hm hs hc⟩,
    fun hs hc => ⟨exec_txPut_member hs hc, fun hm => exec_txPut_missing hm hs hc⟩,
    fun hs hc => ⟨exec_txPutArrive_member hs hc, fun hm => exec_txPutArrive_missing hm hs hc⟩,
    fun hs h0 hc => ⟨exec_txGet_member hs h0 hc, fun hm => exec_txGet_missing hm hs h0 hc⟩⟩

end Sys2Proof.Machine
end

section
/-! The progress of copies: completed chunks, remote elements, suspension and `cpcancel` (R317, R324, R325, R328). -/

namespace Sys2Proof.Machine

open Sys2Proof.Claims

theorem copyStep_ok {r : Run} {body : M Unit} {s t : State} (h : body s = .ok () t) : copyStep r body s = .next t := by
  simp only [copyStep, h]

/-! ## Completion of a chunk -/

/-- The progress of a copy whose chunk has completed (R317). -/
def chunkCompleted (k : CopyKind) (r : Run) (c : Cmd) : Progress :=
  { r.e.prog with
    got := [], xlat := [], seen := [], puts := [], next := r.e.prog.next + 1, failed := false
    bits := if cpBits k c ≠ 0 && !r.e.prog.failed then r.e.prog.bits + 1 else r.e.prog.bits
    written := k = .dec && r.e.prog.next + 1 < decDone r c r.e.prog.dec }

section
variable {s t w : State} {r : Run} {b tkp : Nat} {pc : Bool}

/-- The bit and the token of a chunk whose writes are performed, before the rest: neither where an element of it failed. -/
theorem chunkSignals_bind {α : Type} (rest : Unit → M α)
    (hbit : if r.e.prog.failed = false ∧ b ≠ 0 then setChunkBit r b r.e.prog.next w = .ok () t else t = w) :
    (if !r.e.prog.failed then
      if b ≠ 0 then setChunkBit r b r.e.prog.next >>= fun _ =>
        if pc then upd (fun s => s.modTc r.t (fun t => t.give tkp 1 (.command 1 r.e.seq))) >>= rest else rest ()
      else if pc then upd (fun s => s.modTc r.t (fun t => t.give tkp 1 (.command 1 r.e.seq))) >>= rest else rest ()
    else rest ()) w =
      rest () (if r.e.prog.failed = false ∧ pc = true then t.modTc r.t (fun x => x.give tkp 1 (.command 1 r.e.seq)) else t) := by
  cases hfailed : r.e.prog.failed with
  | true =>
    simp only [hfailed, Bool.true_eq_false, false_and, if_false] at hbit
    rw [hbit]
    rfl
  | false =>
    simp only [hfailed, true_and] at hbit ⊢
    by_cases hb : b = 0
    · rw [if_neg (not_not.2 hb)] at hbit
      rw [Bool.not_false, if_pos rfl, if_neg (not_not.2 hb), hbit]
      exact upd_if_bind _ _
    · rw [if_pos hb] at hbit
      rw [Bool.not_false, if_pos rfl, if_pos hb, M.bind_ok hbit]
      exact upd_if_bind _ _

theorem exec_copyChunkComplete_ok (hrun : s.copyRun = some r) (hwritten : r.e.prog.written = true) (k : CopyKind) (c : Cmd)
    (hk : copyKind (field r.e.w 0 8) = k) (hc : cmdOfBits r.e.w = c)
    (hgathered : writeGathered k r c s = .ok () w)
    (hbit : if r.e.prog.failed = false ∧ cpBits k c ≠ 0 then setChunkBit r (cpBits k c) r.e.prog.next w = .ok () t else t = w) :
    let u := if r.e.prog.failed = false ∧ cpPc c = true then t.modTc r.t (fun x => x.give (cpTkp c) 1 (.command 1 r.e.seq)) else t
    let v := progressed r (fun _ => chunkCompleted k r c) u
    exec .copyChunkComplete s = .next (if r.e.prog.next + 1 = cpChunks k r c then
      v.modEntry r.t 1 r.e.seq (fun e => { e with st := .done }) else v) := by
  intro u v
  rw [exec_copyChunkComplete, execCopyChunkComplete, hrun]
  simp only [hwritten, Bool.not_true, Bool.false_eq_true, if_false]
  subst hk hc
  refine copyStep_ok ?_
  rw [M.bind_ok hgathered]
  refine (chunkSignals_bind _ hbit).trans ((M.bind_ok (upd_run _ _)).trans ?_)
  split <;> rfl

end

/-! ## Remote elements -/

/-- What a copy's progress is after an element that was out has ended. -/
def Progress.elementEnded (p : Progress) (n : Nat) : Progress :=
  { p with wait := p.wait.filter (· ≠ n), written := (p.wait.filter (· ≠ n)).isEmpty && !p.cancelled }

section
variable {s t : State} {m : RemoteReply} {e : Entry}

/-- An answer to an element that is not out is not applied. -/
theorem exec_copyRemoteElement_late (hm : m.outcome ≠ .lost) (hout : s.sent.any (fun d => answersElement m d.what) = false) :
    exec (.copyRemoteElement m) s = .next s := by
  rw [exec_copyRemoteElement, execCopyRemoteElement]
  simp [hm, hout]

/-- What an answer to an element that is out does to its copy before the element ends: the value kept, or the failure noted and, of a
scatter, counted for the context (R324). -/
def elementEffect (m : RemoteReply) (r : Run) (s : State) : State :=
  let k := copyKind (field r.e.w 0 8)
  if m.outcome = .delivered then
    if k = .gather && !r.e.prog.cancelled then
      progressed r (fun q => { q with got := SMap.put q.got m.elem (BitVec.ofNat 64 m.data.toNat) }) s
    else s
  else
    let u := progressed r (fun q => q.fail m.outcome) s
    if k = .scatter then u.modCtx (u.ctxOf r.t) (fun x => if m.outcome = .lost then { x with lost := satAdd 64 x.lost 1 } else x) else u

section
variable {r : Run} (s : State)

theorem elementEffect_kept (hm : m.outcome = .delivered) (hk : copyKind (field r.e.w 0 8) = .gather) (hc : r.e.prog.cancelled = false) :
    elementEffect m r s = progressed r (fun q => { q with got := SMap.put q.got m.elem (BitVec.ofNat 64 m.data.toNat) }) s := by
  simp [elementEffect, hm, hk, hc]

theorem elementEffect_delivered (hm : m.outcome = .delivered) (h : copyKind (field r.e.w 0 8) ≠ .gather ∨ r.e.prog.cancelled = true) :
    elementEffect m r s = s := by
  rcases h with h | h <;> simp [elementEffect, hm, h]

/-- A failure changes the copy's progress, and the context alone beside it. -/
theorem elementEffect_failed (hm : m.outcome ≠ .delivered) :
    (elementEffect m r s).tiles = (progressed r (fun q => q.fail m.outcome) s).tiles ∧ (elementEffect m r s).mem = s.mem := by
  rw [elementEffect, if_neg hm]
  dsimp only
  split <;> exact ⟨rfl, rfl⟩

theorem elementEffect_lost (hm : m.outcome = .lost) (hk : copyKind (field r.e.w 0 8) = .scatter) :
    elementEffect m r s = (progressed r (fun q => q.fail m.outcome) s).modCtx ((progressed r (fun q => q.fail m.outcome) s).ctxOf r.t)
      (fun x => { x with lost := satAdd 64 x.lost 1 }) := by
  simp [elementEffect, hm, hk]

end

theorem exec_copyRemoteElement_ok (hfind : (s.queue m.tile 1).entries.find? (fun y => y.copying && y.seq = m.seq) = some e)
    (hwait : e.prog.wait.contains m.elem = true) (hout : m.outcome = .lost ∨ s.sent.any (fun d => answersElement m d.what) = true) :
    let r : Run := { t := m.tile, q := 1, e := e }
    exec (.copyRemoteElement m) s = .next ((progressed r (·.elementEnded m.elem)
      (elementEffect m r (s.answered (answersElement m)))).endCancel m.tile m.seq) := by
  intro r
  have hseq : e.seq = m.seq := by
    have := List.find?_some hfind
    simp only [Bool.and_eq_true, decide_eq_true_eq] at this
    exact this.2
  have hguard : (m.outcome ≠ .lost && !s.sent.any (fun d => answersElement m d.what)) = false := by
    rcases hout with h | h <;> simp [h]
  have hfind : ((s.answered (answersElement m)).queue m.tile 1).entries.find? (fun y => y.copying && y.seq = m.seq) = some e := hfind
  rw [exec_copyRemoteElement, execCopyRemoteElement]
  simp only [hguard, Bool.false_eq_true, if_false, hfind, hwait, Bool.not_true]
  refine copyStep_ok ?_
  rw [← hseq]
  unfold elementEffect
  dsimp only
  by_cases hd : m.outcome = .delivered
  · rw [if_pos hd, if_pos hd]
    cases hk : copyKind (field e.w 0 8) = .gather && !e.prog.cancelled <;> rfl
  · rw [if_neg hd, if_neg hd]
    by_cases hk : copyKind (field e.w 0 8) = .scatter
    · simp only [r, if_pos hk]
      rfl
    · simp only [r, if_neg hk]
      rfl

end

/-! ## Suspension and cancels -/

section
variable {s : State} {r : Run} {rd rs1 : Reg} {e : Entry}

/-- A copy between chunks suspends while its context is pre-empted (R328). -/
theorem exec_copySuspend_ok (hrun : s.copyRun = some r) (hctx : (s.ctx (s.ctxOf r.t)).st = .preempting)
    (hwritten : r.e.prog.written = false) (hwait : r.e.prog.wait = []) (hmid : r.e.midChunk = false) (hcancelled : r.e.prog.cancelled = false) :
    exec .copySuspend s = .next (progressed r (fun q => { q with suspended := true, got := [], xlat := [], seen := [] })
      (s.modTc r.t (fun k => k.leaveToken (cpTkr (cmdOfBits r.e.w)) (fun w => w = .copy)))) := by
  have hq : r.q = 1 := by
    unfold State.copyRun at hrun
    dsimp only at hrun
    split at hrun
    · exact Option.some.inj hrun ▸ rfl
    · exact absurd hrun nofun
  rw [exec_copySuspend, execCopySuspend, hrun]
  simp [hctx, hwritten, hwait, hmid, hcancelled, progressed, hq]

/-- The main hart has no `cpcancel`. -/
theorem exec_cpcancel_main (hm : s.me.move = false) :
    exec (.cpcancel rd rs1) s = .next (s.takeTrap s.me false 2 0 ((s.fetchWord s.me).setWidth 64)) := by
  rw [exec_cpcancel, execCpcancel]
  simp [hm, State.illegalAt]

variable (hm : s.me.move = true)
include hm

theorem exec_cpcancel_unqueued
    (hfind : (s.tc s.me.tile).q1.entries.find? (fun e => e.num = some (s.readX s.me rs1).toNat) = none) :
    exec (.cpcancel rd rs1) s = if (s.readX s.me rs1).toNat = 0 ∨ (s.tc s.me.tile).targetC < (s.readX s.me rs1).toNat ∨
        (s.tc s.me.tile).controls.contains (s.readX s.me rs1).toNat = true then
      .next (s.result s.me rd (BitVec.ofNat 64 (0 * 2 ^ 32 + 2)))
    else .next (s.result s.me rd (BitVec.ofNat 64 (SMap.get 0 (s.tc s.me.tile).chunks (s.readX s.me rs1).toNat * 2 ^ 32 + 1))) := by
  rw [exec_cpcancel, execCpcancel]
  simp [hm, hfind, or_assoc]

variable (hfind : (s.tc s.me.tile).q1.entries.find? (fun e => e.num = some (s.readX s.me rs1).toNat) = some e)
include hfind

theorem exec_cpcancel_queued :
    exec (.cpcancel rd rs1) s =
      if (s.readX s.me rs1).toNat = 0 ∨ field e.w 5 3 ≠ 5 then .next (s.result s.me rd (BitVec.ofNat 64 (0 * 2 ^ 32 + 2)))
      else if e.st = .faulted then .next (s.result s.me rd (BitVec.ofNat 64 (e.prog.bits * 2 ^ 32 + 3)))
      else if copyKind (field e.w 0 8) = .scatter ∧ e.prog.wait ≠ [] then
        .next ((s.modEntry s.me.tile 1 e.seq (fun x => { x with prog := { x.prog with cancelled := true } })).setWait s.me .cancel)
      else .next ((s.cancelNow s.me.tile e).result s.me rd (BitVec.ofNat 64 (e.prog.bits * 2 ^ 32 + 0))) := by
  rw [exec_cpcancel, execCpcancel]
  simp [hm, hfind, and_comm]

end

/-- Settles O48: completion, the answer to a remote element and suspension by what each does, `cpcancel` by what it finds. -/
theorem copyProgressResults : Obligations.CopyProgressResults := by
  unfold Obligations.CopyProgressResults
  intro s t w r m rd rs1 e c k p h n answer
  refine ⟨fun hrun hwritten hgathered hbit => exec_copyChunkComplete_ok hrun hwritten k c rfl rfl hgathered hbit, ?_,
    exec_copySuspend_ok, exec_cpcancel_main, fun hm hfind => ⟨fun hn => ?_, fun h0 hle hcontrol => ?_⟩, fun hm hfind hn => ?_,
    fun hm hfind h0 hcopy => ?_⟩
  · rintro rfl hfind hwait u out left
    have hended := fun h => exec_copyRemoteElement_ok (s := s) (m := m) hfind hwait h
    refine ⟨exec_copyRemoteElement_late, fun hm hout hk hcancel => ?_, fun hm hout hk => ?_, fun hm hout _ => ?_, fun hm hk => ?_⟩
    · rw [hended (.inr hout), elementEffect_kept _ hm hk hcancel]
      rfl
    · rw [hended (.inr hout), elementEffect_delivered _ hm hk]
      rfl
    · obtain ⟨htiles, hmem⟩ := elementEffect_failed u hm
      exact ⟨_, hended hout, htiles, hmem⟩
    · rw [hended (.inl hm), elementEffect_lost _ hm hk]
      rfl
  · rw [exec_cpcancel_unqueued hm hfind, if_pos hn]
  · rw [exec_cpcancel_unqueued hm hfind, if_neg (not_or.2 ⟨h0, not_or.2 ⟨Nat.not_lt.2 hle, by rw [hcontrol]; decide⟩⟩)]
  · rw [exec_cpcancel_queued hm hfind, if_pos hn]
  · intro out
    have hne : ¬((s.readX h rs1).toNat = 0 ∨ field e.w 5 3 ≠ 5) := by
      rintro (h | h)
      exacts [h0 h, h hcopy]
    rw [exec_cpcancel_queued hm hfind, if_neg hne]
    exact ⟨fun hst hout => by rw [if_neg hst, if_pos hout], fun hst => by rw [if_pos hst], fun hst hout => by rw [if_neg hst, if_neg hout]⟩

end Sys2Proof.Machine
end

section
/-! What the register-form vector commands leave unchanged (R258, R265, R269 to R278, R283 to R285). -/

namespace Sys2Proof.Machine

open Sys2Proof.Claims

/-! ## Changes of one tile -/

section
variable {s u : State} {t : Nat}

/-- Of a state whose context's part of a tile changes, nothing else does. -/
theorem State.modTc_frame (f : TileCtx → TileCtx) (h : u = s.modTc t f) :
    u = { s with tiles := u.tiles } ∧ (∀ q, q ≠ t → u.tile q = s.tile q) ∧ u.tile t = { s.tile t with ctx := u.tc t } ∧
      u.tc t = f (s.tc t) := by
  subst h
  refine ⟨rfl, fun q hq => State.tile_setTile_other _ _ _ _ hq, ?_, State.tc_modTc_self s t f⟩
  rw [State.tc_modTc_self, State.modTc, State.setTc, State.tile_setTile_self]

/-- The queue of the compute engine where one of its commands has made its whole effect. -/
def TileCtx.finished0 (k : TileCtx) (seq : Nat) : TileCtx := { k with q0 := k.q0.mod seq (fun e => { e with st := .done, why := 0 }) }

theorem finished_modTc {r : Run} (hq : r.q = 0) (g : TileCtx → TileCtx) :
    finished r (s.modTc r.t g) = s.modTc r.t (fun k => (g k).finished0 r.e.seq) := by
  rw [finished, State.modEntry, State.modTc_modTc, hq]
  rfl

/-- The commands of the compute engine are in q0 (R18). -/
theorem queue_of_vector {op : Nat} {c : Cmd} {r : Run} (hs : CanStart op c s r) (hop : op / 32 = 3) : r.q = 0 := by
  obtain ⟨_, hrun, _, _⟩ := hs
  have hq : queueOf op s.cur = 0 := by simp [queueOf, hop]
  unfold State.runOf at hrun
  dsimp only at hrun
  rw [hq] at hrun
  split at hrun
  · exact absurd hrun nofun
  · split at hrun
    · exact Option.some.inj hrun ▸ rfl
    · exact absurd hrun nofun

end

/-! ## Vector registers -/

/-- Of a tile only vector registers change, those that `regs` holds of, and, where `draws` holds, the generator. -/
structure TileCtx.Vectors (regs : Nat → Prop) (draws : Prop) (k k' : TileCtx) : Prop where
  rest : k' = { k with v := k'.v, gen1 := k'.gen1, reseed1 := k'.reseed1 }
  vreg : ∀ q, ¬ regs q → k'.vreg q = k.vreg q
  gen : ¬ draws → k'.gen1 = k.gen1 ∧ k'.reseed1 = k.reseed1

namespace TileCtx.Vectors

variable {regs regs' : Nat → Prop} {draws draws' : Prop} {k k' k'' : TileCtx}

theorem setV (k : TileCtx) (d : Nat) (v : VReg) : Vectors (· = d) False k (k.setV d v) :=
  ⟨rfl, fun _ hq => vreg_setV_other k v hq, fun _ => ⟨rfl, rfl⟩⟩

theorem putDrawn (k : TileCtx) (c : Cmd) (seq n : Nat) (op : Nat → Word → Nat × Word) : Vectors (· = vVd c) True k (k.putDrawn c seq n op) :=
  ⟨rfl, fun _ hq => vreg_setV_other (k.seeded1 seq) _ hq, fun h => absurd trivial h⟩

theorem deriveScales (k : TileCtx) (c : Cmd) : Vectors (fun q => q = vVs2 c ∧ vS c = true) False k (k.deriveScales c) := by
  unfold TileCtx.deriveScales
  cases hs : vS c with
  | false => exact ⟨rfl, fun _ _ => rfl, fun _ => ⟨rfl, rfl⟩⟩
  | true => exact ⟨rfl, fun q hq => vreg_setV_other k _ fun h => hq ⟨h, rfl⟩, fun _ => ⟨rfl, rfl⟩⟩

theorem trans (h : Vectors regs draws k k') (h' : Vectors regs' draws' k' k'') :
    Vectors (fun q => regs q ∨ regs' q) (draws ∨ draws') k k'' where
  rest := by rw [h'.rest, h.rest]
  vreg q hq := (h'.vreg q (hq ∘ .inr)).trans (h.vreg q (hq ∘ .inl))
  gen hd :=
    have ⟨hg, hr⟩ := h.gen (hd ∘ .inl)
    have ⟨hg', hr'⟩ := h'.gen (hd ∘ .inr)
    ⟨hg'.trans hg, hr'.trans hr⟩

theorem mono (h : Vectors regs draws k k') (hregs : ∀ q, regs q → regs' q) (hdraws : draws → draws') : Vectors regs' draws' k k' :=
  ⟨h.rest, fun q hq => h.vreg q (hq ∘ hregs q), fun hd => h.gen (hd ∘ hdraws)⟩

theorem rest_undrawn (h : Vectors regs False k k') : k' = { k with v := k'.v } := by
  obtain ⟨hgen, hreseed⟩ := h.gen id
  have hrest := h.rest
  rw [hgen, hreseed] at hrest
  exact hrest

end TileCtx.Vectors

section
variable (c : Cmd) (r : Run)

/-- What a command that writes vector registers runs: its effect on its tile, which is the registers that it may write. -/
structure WritesVectors (p : Instr × Nat × VForm) : Prop where
  op : p.2.1 / 32 = 3
  effect : ∀ s, VectorReady p.2.1 p.2.2 c s r → ¬ (p.1 ∈ [Instr.vqm8 c, .vqi8 c] ∧ vS c = true ∧ vVd c = vVs2 c) →
    ∃ g, exec p.1 s = .next (finished r (s.modTc r.t g)) ∧
      ∀ k, TileCtx.Vectors (fun q => q = vVd c ∨ (q = vVs2 c ∧ p.1 ∈ [Instr.vqm8 c, .vqi8 c] ∧ vS c = true))
        (p.1 ∈ [Instr.vqm8 c, .vcvt c]) k (g k)

variable {c r}

theorem writesVectors_of_body {i : Instr} {op : Nat} {f : VForm} {g : TileCtx → TileCtx}
    (hi : ∀ s, exec i s = runCommand op c (vBody f c g) s) (hg : ∀ k, ∃ v, g k = k.setV (vVd c) v) (hop : op / 32 = 3 := by decide) :
    WritesVectors c r (i, op, f) := by
  refine ⟨hop, fun s h _ => ⟨g, (hi s).trans (runVector_ok h), fun k => ?_⟩⟩
  obtain ⟨v, hv⟩ := hg k
  rw [hv]
  exact (TileCtx.Vectors.setV k _ v).mono (fun _ => .inl) False.elim

theorem writesVectors_vqm8 : WritesVectors c r (.vqm8 c, 0x68, quantForm c 11 (vS c)) := by
  refine ⟨by norm_num, fun s h hapart => ⟨_, (exec_vqm8 c s).trans (vQuant_ok h fun hs => hapart ⟨by simp, hs⟩), fun k => ?_⟩⟩
  refine ((TileCtx.Vectors.deriveScales k c).trans (.putDrawn _ c _ _ _)).mono (fun q hq => ?_) (fun _ => by simp)
  rcases hq with ⟨h, hs⟩ | h
  exacts [.inr ⟨h, by simp, hs⟩, .inl h]

theorem writesVectors_vqi8 : WritesVectors c r (.vqi8 c, 0x68, quantForm c 6 (vS c)) := by
  refine ⟨by norm_num, fun s h hapart => ⟨_, (exec_vqi8 c s).trans (vQuant_ok h fun hs => hapart ⟨by simp, hs⟩), fun k => ?_⟩⟩
  refine ((TileCtx.Vectors.deriveScales k c).trans (.setV _ _ _)).mono (fun q hq => ?_) (by simp)
  rcases hq with ⟨h, hs⟩ | h
  exacts [.inr ⟨h, by simp, hs⟩, .inl h]

theorem writesVectors_vcvt : WritesVectors c r (.vcvt c, 0x68, vcvtForm c) := by
  refine ⟨by norm_num, fun s h _ => ⟨fun k => k.putDrawn c r.e.seq (vBits c) (fun i g =>
    convertElem (vAux c) (cmdFormat c) (vW c) (elemAt (k.vreg (vVs1 c)) (8 * elemSize (vAux c)) i) g), ?_, fun k => ?_⟩⟩
  · rw [exec_vcvt, execVcvt]
    exact runCommand_whole h.1 (vBody_ok h)
  · exact (TileCtx.Vectors.putDrawn k c _ _ _).mono (fun _ => .inl) (fun _ => by simp)

theorem vectorForms_write : ∀ p ∈ vectorForms c, WritesVectors c r p := by
  simp only [vectorForms, List.forall_mem_cons]
  and_intros
  · exact writesVectors_of_body (exec_vadd c) fun _ => ⟨_, rfl⟩
  · exact writesVectors_of_body (exec_vsub c) fun _ => ⟨_, rfl⟩
  · exact writesVectors_of_body (exec_vmul c) fun _ => ⟨_, rfl⟩
  · exact writesVectors_of_body (exec_vmulh c) fun _ => ⟨_, rfl⟩
  · exact writesVectors_of_body (exec_vmin c) fun _ => ⟨_, rfl⟩
  · exact writesVectors_of_body (exec_vmax c) fun _ => ⟨_, rfl⟩
  · exact writesVectors_of_body (exec_vabs c) fun _ => ⟨_, rfl⟩
  · exact writesVectors_of_body (exec_vneg c) fun _ => ⟨_, rfl⟩
  · exact writesVectors_of_body (exec_vand c) fun _ => ⟨_, rfl⟩
  · exact writesVectors_of_body (exec_vor c) fun _ => ⟨_, rfl⟩
  · exact writesVectors_of_body (exec_vxor c) fun _ => ⟨_, rfl⟩
  · exact writesVectors_of_body (exec_vnot c) fun _ => ⟨_, rfl⟩
  · exact writesVectors_of_body (exec_vandn c) fun _ => ⟨_, rfl⟩
  · exact writesVectors_of_body (exec_vsll c) fun _ => ⟨_, rfl⟩
  · exact writesVectors_of_body (exec_vsrl c) fun _ => ⟨_, rfl⟩
  · exact writesVectors_of_body (exec_vsra c) fun _ => ⟨_, rfl⟩
  · exact writesVectors_of_body (fun s => (exec_vfsh c s).trans (execVfsh.eq_1 c s)) fun _ => ⟨_, rfl⟩
  · exact writesVectors_of_body (exec_vbfx c) fun _ => ⟨_, rfl⟩
  · exact writesVectors_of_body (exec_vbfi c) fun _ => ⟨_, rfl⟩
  · exact writesVectors_of_body (exec_vpopc c) fun _ => ⟨_, rfl⟩
  · exact writesVectors_of_body (exec_vclz c) fun _ => ⟨_, rfl⟩
  · exact writesVectors_of_body (exec_vsel c) fun _ => ⟨_, rfl⟩
  · exact writesVectors_of_body (exec_vfadd c) fun _ => ⟨_, rfl⟩
  · exact writesVectors_of_body (exec_vfsub c) fun _ => ⟨_, rfl⟩
  · exact writesVectors_of_body (exec_vfmul c) fun _ => ⟨_, rfl⟩
  · exact writesVectors_of_body (exec_vfmin c) fun _ => ⟨_, rfl⟩
  · exact writesVectors_of_body (exec_vfmax c) fun _ => ⟨_, rfl⟩
  · exact writesVectors_of_body (exec_vfabs c) fun _ => ⟨_, rfl⟩
  · exact writesVectors_of_body (exec_vfneg c) fun _ => ⟨_, rfl⟩
  · exact writesVectors_of_body (fun s => (exec_vfma c s).trans (vFused.eq_1 c false s)) fun _ => ⟨_, rfl⟩
  · exact writesVectors_of_body (fun s => (exec_vfms c s).trans (vFused.eq_1 c true s)) fun _ => ⟨_, rfl⟩
  · exact writesVectors_vqm8
  · exact writesVectors_vqi8
  · exact writesVectors_of_body (exec_vdqm8 c) fun _ => ⟨_, rfl⟩
  · exact writesVectors_of_body (exec_vdqi8 c) fun _ => ⟨_, rfl⟩
  · exact writesVectors_vcvt
  · exact writesVectors_of_body (exec_vredsum c) fun _ => ⟨_, rfl⟩
  · exact writesVectors_of_body (exec_vredmax c) fun _ => ⟨_, rfl⟩
  · exact writesVectors_of_body (exec_vredmin c) fun _ => ⟨_, rfl⟩
  · exact writesVectors_of_body (exec_vredmaxabs c) fun _ => ⟨_, rfl⟩
  · exact writesVectors_of_body (exec_vdot c) fun _ => ⟨_, rfl⟩
  · exact writesVectors_of_body (exec_vperm c) fun _ => ⟨_, rfl⟩
  · exact writesVectors_of_body (exec_vrot c) fun _ => ⟨_, rfl⟩
  · exact writesVectors_of_body (exec_vsplat c) fun _ => ⟨_, rfl⟩
  · exact writesVectors_of_body (exec_vmovReg c) fun _ => ⟨_, rfl⟩
  · exact writesVectors_of_body (exec_vmovi c) fun _ => ⟨_, rfl⟩
  · exact writesVectors_of_body (exec_viota c) fun _ => ⟨_, rfl⟩
  · exact List.forall_mem_nil _

/-! ## Predicates and votes -/

variable (c r)

/-- What a command that writes a predicate runs: its effect on its tile, which is that predicate. -/
structure WritesPredicate (p : Instr × Nat × VForm) : Prop where
  op : p.2.1 / 32 = 3
  effect : ∀ s, VectorReady p.2.1 p.2.2 c s r → ∃ g, exec p.1 s = .next (finished r (s.modTc r.t g)) ∧ ∀ k, ∃ v, g k = k.setP (vVd c) v

/-- What a command that writes a vote runs. -/
structure WritesVote (p : Instr × Nat × VForm) : Prop where
  op : p.2.1 / 32 = 3
  effect : ∀ s, VectorReady p.2.1 p.2.2 c s r →
    ∃ g, exec p.1 s = .next (finished r (s.modTc r.t g)) ∧ ∀ k : TileCtx, ∃ v, g k = { k with vt := SMap.set 0 k.vt (vVd c) v }

variable {c r}

theorem writesPredicate_of_body {i : Instr} {op : Nat} {f : VForm} {g : TileCtx → TileCtx}
    (hi : ∀ s, exec i s = runCommand op c (vBody f c g) s) (hg : ∀ k, ∃ v, g k = k.setP (vVd c) v) (hop : op / 32 = 3 := by decide) :
    WritesPredicate c r (i, op, f) :=
  ⟨hop, fun s h => ⟨g, (hi s).trans (runVector_ok h), hg⟩⟩

theorem writesVote_of_body {i : Instr} {op : Nat} {f : VForm} {g : TileCtx → TileCtx}
    (hi : ∀ s, exec i s = runCommand op c (vBody f c g) s) (hg : ∀ k : TileCtx, ∃ v, g k = { k with vt := SMap.set 0 k.vt (vVd c) v })
    (hop : op / 32 = 3 := by decide) : WritesVote c r (i, op, f) :=
  ⟨hop, fun s h => ⟨g, (hi s).trans (runVector_ok h), hg⟩⟩

theorem writesPredicate_compare {i : Instr} {un : Bool} {p : Int → Bool} (hi : ∀ s, exec i s = vCompare c un p s) :
    WritesPredicate c r (i, 0x64, { binForm c with named := [(vVd c, 15)] }) :=
  writesPredicate_of_body (fun s => (hi s).trans (vCompare.eq_1 c un p s)) fun _ => ⟨_, rfl⟩

theorem predicateForms_write : ∀ p ∈ predicateForms c, WritesPredicate c r p := by
  simp only [predicateForms, List.forall_mem_cons]
  and_intros
  · exact writesPredicate_compare (exec_vcmpEq c)
  · exact writesPredicate_compare (exec_vcmpNe c)
  · exact writesPredicate_compare (exec_vcmpLt c)
  · exact writesPredicate_compare (exec_vcmpLe c)
  · exact writesPredicate_compare (exec_vcmpGt c)
  · exact writesPredicate_compare (exec_vcmpGe c)
  · exact writesPredicate_of_body (exec_vpand c) fun _ => ⟨_, rfl⟩
  · exact writesPredicate_of_body (exec_vpor c) fun _ => ⟨_, rfl⟩
  · exact writesPredicate_of_body (exec_vpxor c) fun _ => ⟨_, rfl⟩
  · exact writesPredicate_of_body (exec_vpnot c) fun _ => ⟨_, rfl⟩
  · exact writesPredicate_of_body (exec_vpset c) fun _ => ⟨_, rfl⟩
  · exact List.forall_mem_nil _

theorem voteForms_write : ∀ p ∈ voteForms c, WritesVote c r p := by
  simp only [voteForms, List.forall_mem_cons]
  and_intros
  · exact writesVote_of_body (exec_vany c) fun _ => ⟨_, rfl⟩
  · exact writesVote_of_body (exec_vall c) fun _ => ⟨_, rfl⟩
  · exact List.forall_mem_nil _

end

/-! ## Moves to and from data queues -/

/-- Of a tile only slots of one data queue change. -/
structure TileCtx.Slots (d : Nat) (k k' : TileCtx) : Prop where
  rest : k' = { k with dq := k'.dq }
  dqueue : ∀ d', d' ≠ d → k'.dqueue d' = k.dqueue d'

theorem TileCtx.Slots.setDq (k : TileCtx) (d : Nat) (x : DataQueue) : Slots d k (k.setDq d x) :=
  ⟨rfl, fun _ h => SMap.get_put_other _ _ _ _ _ h⟩

theorem TileCtx.Slots.trans {d : Nat} {k k' k'' : TileCtx} (h : Slots d k k') (h' : Slots d k' k'') : Slots d k k'' :=
  ⟨by rw [h'.rest, h.rest], fun d' hd => (h'.dqueue d' hd).trans (h.dqueue d' hd)⟩

theorem TileCtx.Slots.foldl {α : Type} {d : Nat} {F : α → TileCtx → TileCtx} (hF : ∀ a k, Slots d k (F a k)) {k k' : TileCtx}
    (h : Slots d k k') (l : List α) : Slots d k (l.foldl (fun k a => F a k) k') := by
  induction l generalizing k' with
  | nil => exact h
  | cons a l ih => exact ih (h.trans (hF a k'))

/-- A loop of changes of one tile is one change of it. -/
theorem forM_upd_modTc {α : Type} (s : State) (t : Nat) (F : α → TileCtx → TileCtx) (l : List α) (g : TileCtx → TileCtx) :
    (l.forM (fun a => upd (fun s => s.modTc t (F a))) : M PUnit) (s.modTc t g) =
      .ok () (s.modTc t (fun k => l.foldl (fun k a => F a k) (g k))) := by
  induction l generalizing g with
  | nil => rfl
  | cons a l ih =>
    refine (M.bind_ok (upd_run _ _)).trans ?_
    rw [State.modTc_modTc]
    exact ih _

section
variable {s : State} {c : Cmd} {r : Run}

theorem vChecks_pass {f : VForm} (hreserved : reservedBit c (vReserved f) = none) (hrange : vRangeBad f.size c = false)
    (hnamed : f.named.all (fun p => p.1 ≤ p.2) = true) (haux : f.auxOk = true) : vChecks f c s = .ok () s := by
  simp [vChecks, M.bind_run, need_run, checkReserved_ok hreserved, hrange, hnamed, haux]

/-- A move to a data queue fills slots of that queue alone (R283). -/
theorem exec_vmovToDq_ok (hs : CanStart 0x72 c s r)
    (hreserved : reservedBit c (vReserved { unForm c with d := false, s2 := movSc c, gov := .none, auxOk := movAuxOk c }) = none)
    (hrange : vRangeBad (elemSize (cmdFormat c)) c = false) (haux : movAuxOk c = true) (hfree : SlotsFree s r (movDq c) (vSlots c)) :
    ∃ g, exec (.vmovToDq c) s = .next (finished r (s.modTc r.t g)) ∧ ∀ k, TileCtx.Slots (movDq c) k (g k) := by
  have hchecks := vChecks_pass (s := s) hreserved hrange rfl haux
  exact ⟨_, (exec_vmovToDq c s).trans (runCommand_whole hs ((M.bind_ok hchecks).trans
    ((M.bind_ok (begin_fill (only_of_canStart hs) hfree)).trans ((M.bind_ok (M.get_run _)).trans
      (M.bind_ok (forM_upd_modTc s r.t _ _ _)))))),
    fun k => TileCtx.Slots.foldl (fun _ k => .setDq k _ _) (.setDq k _ _) _⟩

/-- What a move from a data queue writes to registers (R283). -/
def TileCtx.movedFrom (c : Cmd) (l : List Slot) (k : TileCtx) : TileCtx :=
  let k := k.setV (vVd c) (putElems (k.vreg (vVd c)) (vBits c) (vE0 c) (slotsElems c l))
  if movSc c then k.setV (vVs2 c) (putElems (k.vreg (vVs2 c)) 8 (movScale c) (l.map (fun x => field x.side 0 8))) else k

theorem TileCtx.movedFrom_vectors (l : List Slot) (k : TileCtx) :
    Vectors (fun q => q = vVd c ∨ (q = vVs2 c ∧ movSc c = true)) False k (k.movedFrom c l) := by
  unfold TileCtx.movedFrom
  cases hsc : movSc c with
  | false => exact (Vectors.setV k _ _).mono (fun _ => .inl) id
  | true => exact ((Vectors.setV k _ _).trans (Vectors.setV _ _ _)).mono (fun q => Or.imp_right fun h => ⟨h, rfl⟩) (fun h => h.elim id id)

/-- A move from a data queue claims its slots, writes its registers and empties the slots. -/
theorem exec_vmovFromDq_ok (hs : CanStart 0x72 c s r)
    (hreserved : reservedBit c (vReserved { unForm c with s1 := false, s2 := movSc c, gov := .none, auxOk := movAuxOk c }) = none)
    (hrange : vRangeBad (elemSize (cmdFormat c)) c = false) (haux : movAuxOk c = true) (hfull : SlotsFull s r (movDq c) (vSlots c))
    (hslots : ∀ x ∈ owned r (movDq c) (claiming r (movDq c) (vSlots c) s), x.side.getLsbD 28 = false ∧ field x.side 8 4 = cmdFormat c) :
    ∃ (x : TileCtx → DataQueue) (l : List Slot), exec (.vmovFromDq c) s = .next (finished r (s.modTc r.t (fun k =>
      ((k.setDq (movDq c) (x k)).movedFrom c l).releaseSlots r.e.seq))) := by
  have hchecks := vChecks_pass (s := s) hreserved hrange rfl haux
  refine ⟨fun k => { k.dqueue (movDq c) with slots := claimSlots r.e.seq (k.dqueue (movDq c)).slots (vSlots c) },
    owned r (movDq c) (claiming r (movDq c) (vSlots c) s), ?_⟩
  rw [exec_vmovFromDq, execVmovFromDq]
  refine runCommand_whole hs ?_
  rw [M.bind_ok hchecks, M.bind_ok (begin_pop (only_of_canStart hs) hfull), M.bind_ok (claimed_run r _ _),
    M.bind_ok (checkSlots_ok hslots), M.bind_ok (upd_run _ _), M.bind_ok (releaseClaims_run r _)]
  rw [released, claiming, State.modTc_modTc, State.modTc_modTc]
  rfl

end

/-- Settles O45: each command is one change of its tile, which is seen in its form. -/
theorem vectorFrame : Obligations.VectorFrame := by
  unfold Obligations.VectorFrame
  constructor
  · intro s t c r op f i draws quants
    refine ⟨fun hmem h hapart hexec => ?_, fun hmem h hexec => ?_, fun hmem h hexec => ?_⟩
    · have ⟨hop, heffect⟩ := vectorForms_write (r := r) _ hmem
      obtain ⟨g, hg, hvectors⟩ := heffect s h hapart
      obtain ⟨hrest, hvreg, hgen⟩ := hvectors (s.tc r.t)
      have ht := Host.Outcome.next.inj (hexec.symm.trans hg)
      rw [finished_modTc (queue_of_vector h.1 hop)] at ht
      obtain ⟨hstate, hother, hown, htc⟩ := State.modTc_frame _ ht
      refine ⟨hstate, hother, hown, ?_, ?_, fun hd => ?_, fun q hd hq => ?_⟩ <;> rw [htc]
      · rw [TileCtx.finished0, hrest]
      · rw [TileCtx.finished0, hrest]
      · exact hgen hd
      · refine hvreg q ?_
        rintro (h | ⟨h, hquant, hs⟩)
        · exact hd h
        · rcases hq with hq | hq | hq
          exacts [hq h, hq hquant, absurd (hs.symm.trans hq) (by decide)]
    · have ⟨hop, heffect⟩ := predicateForms_write (r := r) _ hmem
      obtain ⟨g, hg, hpred⟩ := heffect s h
      obtain ⟨v, hv⟩ := hpred (s.tc r.t)
      have ht := Host.Outcome.next.inj (hexec.symm.trans hg)
      rw [finished_modTc (queue_of_vector h.1 hop)] at ht
      obtain ⟨hstate, hother, hown, htc⟩ := State.modTc_frame _ ht
      rw [hv] at htc
      refine ⟨hstate, hother, hown, ?_, fun q hq => ?_⟩ <;> rw [htc]
      · rfl
      · exact SMap.get_set_other _ _ _ _ _ hq
    · have ⟨hop, heffect⟩ := voteForms_write (r := r) _ hmem
      obtain ⟨g, hg, hvote⟩ := heffect s h
      obtain ⟨v, hv⟩ := hvote (s.tc r.t)
      have ht := Host.Outcome.next.inj (hexec.symm.trans hg)
      rw [finished_modTc (queue_of_vector h.1 hop)] at ht
      obtain ⟨hstate, hother, hown, htc⟩ := State.modTc_frame _ ht
      rw [hv] at htc
      refine ⟨hstate, hother, hown, ?_, fun q hq => ?_⟩ <;> rw [htc]
      · rfl
      · exact SMap.get_set_other _ _ _ _ _ hq
  · intro s t c r i free moves hready hexec
    rcases hready with ⟨rfl, ⟨hreserved, hrange, haux, hs⟩, hfull, hslots⟩ | ⟨rfl, ⟨hreserved, hrange, haux, hs⟩, hfree⟩
    · obtain ⟨x, l, hg⟩ := exec_vmovFromDq_ok hs hreserved hrange haux hfull hslots
      have ht := Host.Outcome.next.inj (hexec.symm.trans hg)
      rw [finished_modTc (queue_of_vector hs (by decide))] at ht
      obtain ⟨hstate, hother, hown, htc⟩ := State.modTc_frame _ ht
      have hvectors := TileCtx.movedFrom_vectors (c := c) l ((s.tc r.t).setDq (movDq c) (x (s.tc r.t)))
      refine ⟨hstate, hother, hown, ?_, nofun, fun q hd hq => ?_, nofun⟩ <;> rw [htc]
      · rw [TileCtx.finished0, TileCtx.releaseSlots, hvectors.rest_undrawn]
        rfl
      · refine hvectors.vreg q ?_
        rintro (h | ⟨h, hsc⟩)
        · exact hd h
        · rcases hq with hq | hq
          exacts [hq h, absurd (hsc.symm.trans hq) (by decide)]
    · obtain ⟨g, hg, hslots⟩ := exec_vmovToDq_ok hs hreserved hrange haux hfree
      obtain ⟨hrest, hdq⟩ := hslots (s.tc r.t)
      have ht := Host.Outcome.next.inj (hexec.symm.trans hg)
      rw [finished_modTc (queue_of_vector hs (by decide))] at ht
      obtain ⟨hstate, hother, hown, htc⟩ := State.modTc_frame _ ht
      refine ⟨hstate, hother, hown, ?_, fun _ q => ?_, fun q _ _ => ?_, fun _ => ?_⟩ <;> rw [htc]
      · rw [TileCtx.finished0, hrest]
      · rw [TileCtx.finished0, hrest]
        rfl
      · rw [TileCtx.finished0, hrest]
        rfl
      · exact hdq

end Sys2Proof.Machine
end

section
/-! Why the statement about tokens fails: in a state whose counter has the acting hart itself as its oldest waiter, a take is served. -/

namespace Sys2Proof.Machine

open Sys2Proof.Claims

/-- Context 0 runs on tile 0, whose main hart has 1 in x2. Counter 0 holds one unit, and its one waiter is a take of one unit by that
hart, which nevertheless runs. -/
def ownWaiterState : State :=
  { State.reset with
    cur := .main 0
    tiles := [(0, { owner := some (0, 0), ctx :=
      { main := { run := .running, x := [(2, 1)] }, tokens := [(0, { count := 1, waiters := [.hart false 1] })] } })]
    ctxs := [(0, { st := .running })] }

/-- The units that an outcome leaves in counter 0 of tile 0. -/
def unitsOf (o : Host.Outcome State Fault Refusal) : Option Nat :=
  match o with
  | .next t => some ((t.tc 0).token 0).count
  | _ => none

/-- The take finds itself at the head of the waiters and takes the unit. -/
theorem unitsOf_tkTake : unitsOf (exec (.tkTake 0 2) ownWaiterState) = some 0 := by decide +kernel

/-- Refutes O16: in `ownWaiterState` a take with a waiter before it takes its unit and goes on, and the statement has it wait. The clause
wants the premise that the hart is not itself among the waiters of the counter. -/
theorem not_tokenResults : ¬ Obligations.TokenResults := by
  unfold Obligations.TokenResults
  intro h
  obtain ⟨htake, -⟩ := h
  obtain ⟨hunits, -⟩ := htake ownWaiterState 0 2
  obtain ⟨-, -, -, hwaits, -⟩ := hunits (by decide +kernel) (by decide +kernel)
  obtain ⟨t, hexec, hcount, -⟩ := hwaits (.inl (by decide +kernel))
  have hserved := unitsOf_tkTake
  rw [hexec] at hserved
  have hkept : ((t.tc 0).token 0).count = 1 := hcount.trans (by decide +kernel)
  exact absurd (hkept.symm.trans (Option.some.inj hserved)) (by decide)

end Sys2Proof.Machine
end

section
/-! Why the statements on the bytes that commands store fail: they take a tagged request to be held at one word, and in a state where one
crosses into the next word, the write that serves it changes a byte there. -/

namespace Sys2Proof.Machine

open Sys2Proof.Claims

/-- A tagged store held at an address that is not a multiple of 8, whose last byte lies in the word at 0x108. -/
def crossing : Held := { pa := 0x101, tile := 0, move := false, kind := .stf, value := BitVec.allOnes 64 }

/-- The page of `atomicState`, on whose tile 0 queue q holds one command, with that store held. -/
def crossedState (a : Agent) (q : Nat) (e : Entry) (k : TileCtx) : State :=
  { atomicState with
    cur := a
    tiles := [(0, { owner := some (0, 0), ctx := k.setQueue q { entries := [e], pushed := 2, done := 1 } })]
    held := [crossing] }

theorem quiet_of_empty {s : State} (hflips : s.flips = []) (hbanks : s.banks = []) : Quiet s := by
  refine ⟨hflips, fun line => ?_⟩
  have hbank : ∀ b, s.bank b = {} := fun b => by rw [State.bank, hbanks]; rfl
  simp [State.erasedBanks, hbank]

/-- A command that stores nothing at 0x108, and after which the byte there is another, is not as `Writes` has it where that store is held. -/
theorem not_writes_of_crossing {s t : State} {tile : Nat} {w : List (Nat × Byte)} (hs : Quiet s) (hheld : s.held = [crossing])
    (hw : 0x108 ∉ w.map (·.1)) (hbyte : t.byte 0x108 ≠ s.byte 0x108) : ¬ Writes w tile s t := by
  intro h
  obtain ⟨hkept, -⟩ := h hs
  obtain ⟨hsame, -⟩ := hkept 0x108 hw fun x hx => by
    rw [hheld] at hx
    rw [List.mem_singleton.1 hx]
    decide
  exact hbyte hsame

/-- The byte at 0x108 after an outcome. -/
def crossedByte (o : Host.Outcome State Fault Refusal) : Option Byte :=
  match o with
  | .next t => some (t.byte 0x108)
  | _ => none

theorem byte_ne_of_crossedByte {o : Host.Outcome State Fault Refusal} {s t : State} (ho : crossedByte o = some 0xFF) (ht : o = .next t)
    (hs : s.byte 0x108 = 0) : t.byte 0x108 ≠ s.byte 0x108 := by
  rw [ht] at ho
  rw [Option.some.inj ho, hs]
  decide

/-- Whether a part of an instruction runs to its end. -/
def returns {α : Type} (o : EStateM.Result Exc State α) : Bool :=
  match o with
  | .ok _ _ => true
  | .error _ _ => false

/-- Whether it does, with an answer, and leaves a state. -/
def answers {α : Type} [DecidableEq α] (o : EStateM.Result Exc State α) (a : α) (s : State) : Bool :=
  match o with
  | .ok b t => decide (b = a) && decide (t = s)
  | .error _ _ => false

theorem ok_of_returns {α : Type} {o : EStateM.Result Exc State α} (h : returns o = true) : ∃ a t, o = .ok a t := by
  cases o with
  | ok a t => exact ⟨a, t, rfl⟩
  | error _ _ => cases h

theorem ok_of_answers {α : Type} [DecidableEq α] {o : EStateM.Result Exc State α} {a : α} {s : State} (h : answers o a s = true) :
    o = .ok a s := by
  cases o with
  | ok b t =>
    simp only [answers, Bool.and_eq_true, decide_eq_true_eq] at h
    rw [h.1, h.2]
  | error _ _ => cases h

/-- The state in which a part of an instruction ends. -/
def endOf (o : EStateM.Result Exc State Unit) : State :=
  match o with
  | .ok _ t => t
  | .error _ t => t

theorem ok_endOf {o : EStateM.Result Exc State Unit} (h : returns o = true) : o = .ok () (endOf o) := by
  cases o with
  | ok _ t => rfl
  | error _ _ => cases h

/-! ## `fd.store` -/

/-- An int8 tensor at 0x200100, which is physical address 0x100. -/
def crossedTensor : Record := BitVec.ofNat 1024 (0x200100 + 2 * 2 ^ 60 + (512 + 2 ^ 29) * 2 ^ 256 + (2 + 512 * 2 ^ 29) * 2 ^ 320)

/-- An `fd.store` of one slot of two bytes. -/
def crossedStore : Cmd :=
  { a := true, u := false, t := false, sub := 0, fmt := 0, md := 0, hmask := 1, cmask := 0
    opnd := BitVec.ofNat 128 (2 ^ 44 + 2 ^ 56 + 2 * 2 ^ 64), patch := 0 }

def crossedStoreRun : Run :=
  ⟨0, 0, { seq := 1, w := bitsOfCmd 0x24 crossedStore, st := .taken, h := [(0, crossedTensor)], c := [] }, false, none⟩

def crossedStoreState : State :=
  crossedState (.addr 0) 0 crossedStoreRun.e
    { dq := [(0, { slots := [{ st := .full, owner := 0, data := 0x0905, side := BitVec.ofNat 64 (127 + 2 * 2 ^ 16) }], fills := 1 })] }

/-- The store at 0x100 serves the held one, which writes the byte at 0x108. -/
theorem crossedByte_fdStore : crossedByte (exec (.fdStore crossedStore) crossedStoreState) = some 0xFF := by decide +kernel

theorem crossedStore_canStart : CanStart 0x24 crossedStore crossedStoreState crossedStoreRun :=
  ⟨rfl, by decide +kernel, by decide +kernel, by decide +kernel⟩

/-- The writes of the one slot that it has claimed. -/
def crossedStorePuts : List (M (List Put)) :=
  let l := owned crossedStoreRun (fdDq crossedStore) (claiming crossedStoreRun (fdDq crossedStore) (fdNslot crossedStore) crossedStoreState)
  (l.zip (List.range l.length)).flatMap (fun p => slotPuts crossedStoreRun crossedStore (shapeOf crossedTensor) p.2 p.1)

/-- Refutes O33: the `fd.store` of `crossedStoreState` stores two bytes at 0x100, whose write serves the store that is held at 0x101; so the
byte at 0x108 changes, which no write of the command stores and at whose word no request is held. The statement wants the premise that
requests are held at multiples of 8. -/
theorem not_feederResults : ¬ Obligations.FeederResults := by
  unfold Obligations.FeederResults
  intro h
  obtain ⟨-, hstore, -⟩ := h
  obtain ⟨_, t, hputs⟩ := ok_of_returns (show returns (storeAll crossedStoreRun false crossedStorePuts []
    (claiming crossedStoreRun (fdDq crossedStore) (fdNslot crossedStore) crossedStoreState)) = true by decide +kernel)
  obtain ⟨hexec, hwrites⟩ := hstore crossedStoreState t crossedStore crossedStoreRun (shapeOf crossedTensor) crossedStore_canStart
    (ok_of_answers (by decide +kernel)) ⟨by decide, by unfold RangeFree; decide +kernel, by decide +kernel, by decide +kernel, by decide +kernel⟩
    (by decide +kernel) hputs
  exact not_writes_of_crossing (quiet_of_empty rfl rfl) rfl (by decide +kernel) (byte_ne_of_crossedByte crossedByte_fdStore hexec (by decide +kernel)) hwrites

/-! ## `vst` -/

/-- An int32 tensor at 0x200100. -/
def crossedVector : Record := BitVec.ofNat 1024 (0x200100 + 3 * 2 ^ 56 + 1 * 2 ^ 60 + (16 + 2 ^ 29) * 2 ^ 256)

/-- A `vst` of one element. -/
def crossedVst : Cmd :=
  { a := false, u := false, t := false, sub := 0, fmt := 3, md := 0, hmask := 1, cmask := 0, opnd := BitVec.ofNat 128 (2 ^ 114), patch := 0 }

def crossedVstRun : Run :=
  ⟨0, 0, { seq := 1, w := bitsOfCmd 0x6D crossedVst, st := .taken, h := [(0, crossedVector)], c := [] }, false, none⟩

def crossedVstState : State := crossedState (.compute 0) 0 crossedVstRun.e {}

theorem crossedByte_vst : crossedByte (exec (.vst crossedVst) crossedVstState) = some 0xFF := by decide +kernel

/-- The write of its one element. -/
def crossedVstPuts : List (M (List Put)) :=
  ((crossedVstState.tc 0).actives crossedVst).map (fun i => vPut crossedVstRun (shapeOf crossedVector)
    (vCoords crossedVstRun crossedVst (i - vE0 crossedVst)) (elemAt ((crossedVstState.tc 0).vreg (vmVs1 crossedVst)) (vBits crossedVst) i))

/-- Refutes O44: the `vst` of `crossedVstState` stores four bytes at 0x100 and changes the byte at 0x108, as `fd.store` does. -/
theorem not_vectorMemoryResults : ¬ Obligations.VectorMemoryResults := by
  unfold Obligations.VectorMemoryResults
  intro h
  obtain ⟨_, t, hputs⟩ := ok_of_returns (show returns (storeAll crossedVstRun false crossedVstPuts [] crossedVstState) = true by decide +kernel)
  obtain ⟨-, -, hvst, -⟩ := h crossedVstState t crossedVst crossedVstRun (shapeOf crossedVector)
  obtain ⟨hexec, hwrites⟩ := hvst ⟨rfl, by decide +kernel, by decide +kernel, by decide +kernel⟩ (ok_of_answers (by decide +kernel))
    (by unfold RangeFree; decide +kernel) hputs
  exact not_writes_of_crossing (quiet_of_empty rfl rfl) rfl (by decide +kernel) (byte_ne_of_crossedByte crossedByte_vst hexec (by decide +kernel)) hwrites

/-! ## `cp.fill` -/

/-- An int8 tensor of four elements at 0x200100. -/
def crossedBytes : Record := BitVec.ofNat 1024 (0x200100 + 1 * 2 ^ 60 + (4 + 2 ^ 29) * 2 ^ 256)

/-- A `cp.fill` of four bytes. -/
def crossedFill : Cmd :=
  { a := false, u := false, t := false, sub := 0, fmt := 0, md := 0, hmask := 4, cmask := 0, opnd := BitVec.ofNat 128 (2 * 2 ^ 96), patch := 0x7F }

def crossedFillRun : Run :=
  ⟨0, 1, { seq := 1, w := bitsOfCmd 0xA5 crossedFill, st := .taken, h := [(2, crossedBytes)], c := [] }, false, none⟩

def crossedFillState : State := crossedState (.copy 0) 1 crossedFillRun.e {}

theorem crossedByte_cpFill : crossedByte (exec (.cpFill crossedFill) crossedFillState) = some 0xFF := by decide +kernel

/-- The state after its start. -/
def crossedFillStarted : State := endOf (cpStart .fill crossedFillRun crossedFill crossedFillState)

theorem crossedFill_start : cpStart .fill crossedFillRun crossedFill crossedFillState = .ok () crossedFillStarted :=
  ok_endOf (by decide +kernel)

/-- Refutes O46: the `cp.fill` of `crossedFillState` stores four bytes at 0x100 and changes the byte at 0x108, as `fd.store` does. -/
theorem not_copyChunkResults : ¬ Obligations.CopyChunkResults := by
  unfold Obligations.CopyChunkResults
  intro h
  obtain ⟨hcopies, -⟩ := h
  obtain ⟨_, u, hchunk⟩ := ok_of_returns (show returns (cpChunk .fill crossedFillRun crossedFill crossedFillStarted) = true by decide +kernel)
  obtain ⟨hexec, hstores, -⟩ := hcopies crossedFillState crossedFillStarted u crossedFill crossedFillRun 0xA5 .fill (.cpFill crossedFill)
    (by simp) ⟨rfl, by decide +kernel, by decide +kernel, by decide +kernel⟩ ⟨rfl, rfl, rfl⟩ crossedFill_start hchunk
  obtain ⟨hplain, -⟩ := hstores (by decide +kernel) (by decide) [0x7F, 0x7F, 0x7F, 0x7F] crossedFillStarted (ok_of_answers (by decide +kernel))
  exact not_writes_of_crossing (quiet_of_empty (by decide +kernel) (by decide +kernel)) (by decide +kernel) (by decide +kernel)
    (byte_ne_of_crossedByte crossedByte_cpFill hexec (by decide +kernel)) (hplain (by decide))

end Sys2Proof.Machine
end

section
/-! Why the statement about receives fails: a probe that finds a match waits while its record's page is moving. -/

namespace Sys2Proof.Machine

open Sys2Proof.Claims

/-- The page of `atomicState`, which is moving. The record at 0x200100 asks for the parked messages of scope entry 1 with source 0 and
tag 0, and one is parked. -/
def movingProbeState : State :=
  { atomicState with
    mem := [(7, 0x80), (15, 0xC3), (0x108, 1), (0x109, 1)]
    tiles := [(0, { owner := some (0, 0), ctx := { main := { run := .running, x := [(2, 0x200100)] } } })]
    ctxs := [(0, { st := .running, scopes := [(1, BitVec.ofNat 64 (2 ^ 63 + 2 ^ 8 + 9 * 2 ^ 16))], domains := [⟨9, []⟩]
                   parked := [(0, { ctx := 0, domain := 9, src := 0, chan := 0, cls := 0, tag := 0, payload := [], cut := none
                                    sender := ⟨0, 0, 0, 0⟩ })]
                   moves := [{ pages := [(0x200000, 0, none, 0)], started := true }] })] }

/-- Whether a probe reads its record, with a property of what it reads and of the state after it. -/
def probeReads (h : HartId) (a : Word) (s : State) (p : Leaf → Nat → Nat → State → Bool) : Bool :=
  match probeLeaf h a s with
  | .ok l v0 => match plainRead h 8 a v0 with
    | .ok w0 v1 => match plainRead h 8 (a + 8) v1 with
      | .ok w1 v2 => p l w0 w1 v2
      | .error _ _ => false
    | .error _ _ => false
  | .error _ _ => false

theorem of_probeReads {h : HartId} {a : Word} {s : State} {p : Leaf → Nat → Nat → State → Bool} (hp : probeReads h a s p = true) :
    ∃ l v0 w0 v1 w1 v2, probeLeaf h a s = .ok l v0 ∧ plainRead h 8 a v0 = .ok w0 v1 ∧ plainRead h 8 (a + 8) v1 = .ok w1 v2 ∧
      p l w0 w1 v2 = true := by
  unfold probeReads at hp
  split at hp
  · next l v0 hl =>
    split at hp
    · next w0 v1 h0 =>
      split at hp
      · next w1 v2 h1 => exact ⟨l, v0, w0, v1, w1, v2, hl, h0, h1, hp⟩
      · cases hp
    · cases hp
  · cases hp

/-- The record names the domain, and one parked message matches it. -/
theorem movingProbe_reads : probeReads ⟨0, false⟩ 0x200100 movingProbeState (fun l w0 w1 v =>
    decide ((v.ctx (v.ctxOf 0)).fabricDomain (field (BitVec.ofNat 64 w1) 8 5) = some ⟨9, []⟩) &&
    decide (BitVec.ofNat 64 w1 &&& 0xFFFF00000000E0FE = 0) &&
    decide (probeList (v.ctx (v.ctxOf 0)) 9 (bits (BitVec.ofNat 64 w1) 16 16) (bits (BitVec.ofNat 64 w1) 32 16)
      (bits (BitVec.ofNat 64 w0) 0 32) (bits (BitVec.ofNat 64 w0) 32 32) ((BitVec.ofNat 64 w1).getLsbD 0) = [(0, 0)]) &&
    !(l.tier = 0 && (v.tc 0).lineHeld (l.pa / 64) true)) = true := by decide +kernel

/-- Whether an outcome leaves the main hart of tile 0 running. -/
def runsAfter (o : Host.Outcome State Fault Refusal) : Option Bool :=
  match o with
  | .next t => some (decide ((t.hart ⟨0, false⟩).run = .running))
  | _ => none

/-- The probe waits for the move. -/
theorem runsAfter_rxProbe : runsAfter (exec (.rxProbe 1 2) movingProbeState) = some false := by decide +kernel

/-- Refutes O50: in `movingProbeState` a probe has a match and its line is free, and its hart waits for the move of the record's page; the
statement has it write its answer and go on. The clause wants the premise that the page is not moving. -/
theorem not_receiveResults : ¬ Obligations.ReceiveResults := by
  unfold Obligations.ReceiveResults
  intro h
  obtain ⟨l, v0, w0, v1, w1, v2, hl, h0, h1, hread⟩ := of_probeReads movingProbe_reads
  simp only [Bool.and_eq_true, decide_eq_true_eq, Bool.not_eq_true'] at hread
  obtain ⟨⟨⟨hdomain, hkey⟩, hhits⟩, hfree⟩ := hread
  obtain ⟨-, -, hprobe, -⟩ := h movingProbeState movingProbeState crossedVst crossedVstRun ⟨9, []⟩ 1 2 l v0 v1 v2 w0 w1
  obtain ⟨-, -, -, hmatch⟩ := hprobe hl h0 h1
  have hexec := hmatch _ _ _ hdomain hkey hhits hfree
  have hruns := runsAfter_rxProbe
  rw [hexec] at hruns
  have hnext : ∀ (s : State) (pc : Word), runsAfter (.next (s.retire ⟨0, false⟩ pc)) = some true := fun s pc => by
    rw [runsAfter, State.hart_retire_self]
    rfl
  exact absurd ((hnext _ _).symm.trans hruns) (by decide)

end Sys2Proof.Machine
end

section
/-! The constant instructions, `cset` and `hld` (R57, R58, R209, R212, R213). -/

namespace Sys2Proof.Machine

open Sys2Proof.Claims

/-! ## Words and registers -/

/-- The word of `cset`, with bit 4 of its rd apart. -/
theorem csetWord_eq (off : BitVec 12) (rs1 : Reg) (top : BitVec 1) (n : BitVec 4) :
    off ++ rs1 ++ (1#3) ++ top ++ n ++ (0x0B#7) = encI off rs1 1 (top ++ n) 0x0B := by
  rw [encI, BitVec.append_assoc (x₁ := off ++ rs1 ++ (1#3)), BitVec.cast_eq]
  rfl

theorem decodeHart_csetWord (off : BitVec 12) (rs1 : Reg) (n : BitVec 4) (lit : Word32) :
    decodeHart (encI off rs1 1 (0#1 ++ n) 0x0B) lit = .cset n rs1 off :=
  decodeHart_of_some (decodeWord_encodeHart rfl rfl nofun nofun)

/-- With bit 4 of rd set the word is illegal (R209). -/
theorem decodeHart_csetWord_illegal (off : BitVec 12) (rs1 : Reg) (n : BitVec 4) (lit : Word32) :
    decodeHart (encI off rs1 1 (1#1 ++ n) 0x0B) lit = .illegalInstruction (encI off rs1 1 (1#1 ++ n) 0x0B) := by
  have hnone : decodeWord (encI off rs1 1 (1#1 ++ n) 0x0B) lit = none := by
    have hrd : ¬ ((1#1 ++ n).toNat < 16) := by
      rw [BitVec.toNat_append]
      decide +revert
    simp [decodeWord, custom0, field_eq_bits, hrd]
  rw [decodeHart, hnone]
  rfl

section
variable {s : State} {rd rs1 : Reg} {n : BitVec 4} {off : BitVec 12}

/-- What a constant instruction leaves of its hart. -/
theorem State.putConst_eq (s : State) (h : HartId) (v : Word32) (pc : Word) : s.putConst h rd v pc =
    s.setHart h { s.hart h with f := SMap.set 0 (s.hart h).f rd.toNat v, pc := pc, instret := (s.hart h).instret + 1, run := .running
                                tmpl := [] } := by
  simp [State.putConst, State.retire, State.modHart, Hart.writeF]

theorem exec_flitS_ok {lit : Word32} (h : (s.hart s.me).pc.toNat + 4 < Config.imemBytes) :
    exec (.flitS rd lit) s = .next (s.putConst s.me rd lit ((s.hart s.me).pc + 8)) := by
  rw [exec_flitS, execFlitS]
  exact if_neg (Nat.not_le.2 h)

theorem exec_cset_eq : exec (.cset n rs1 off) s = .next (s.setHart s.me
    { s.hart s.me with c := SMap.set 0 (s.hart s.me).c n.toNat ((s.hart s.me).readX rs1 + off.signExtend 64), pc := (s.hart s.me).pc + 4
                       instret := (s.hart s.me).instret + 1, run := .running, tmpl := [] }) := by
  rw [exec_cset, execCset]
  simp [State.retire, State.modHart]

end

/-! ## `hld` -/

section
variable {s t : State} {h : HartId} {n : BitVec 4} {rs1 : Reg} {imm : BitVec 12} {va : Word} {e : Exc}

/-- A record of which nothing has been read fails where its first word does. -/
theorem plainWords_error {k : Nat} (hempty : (s.hart h).tmpl = []) (hr : hartLeaf h false 8 va s = .error e t) :
    plainWords h va (k + 1) s = .error e t := by
  have hva : va + BitVec.ofNat 64 (8 * 0) = va := by simp
  have hfirst : recordWord h va 0 s = .error e t := by
    rw [recordWord, M.bind_ok (M.get_run s), hempty, hva]
    exact M.bind_error (plainRead_error hr)
  rw [plainWords, List.range_succ_eq_map, List.mapM_cons]
  exact M.bind_error hfirst

section
variable (ha : (addressOf s s.me rs1 imm).toNat % 128 = 0)
include ha

theorem exec_hld_ok {w : List Nat} (hw : plainWords s.me (addressOf s s.me rs1 imm) 16 s = .ok w t) : exec (.hld n rs1 imm) s =
    .next ((t.modHart s.me (fun x => { x with h := SMap.set 0 x.h n.toNat (BitVec.ofNat 1024 (joinWords w)) })).retire
      s.me ((s.hart s.me).pc + 4)) := by
  rw [exec_hld, execHld]
  refine hartStep_ok ?_
  rw [need_bind (by simpa using ha), M.bind_ok hw]
  rfl

theorem exec_hld_trap {code detail : Nat} {v : Word}
    (hw : plainWords s.me (addressOf s s.me rs1 imm) 16 s = .error (.trap code detail v) t) :
    exec (.hld n rs1 imm) s = .next (t.takeTrap s.me false code detail v) := by
  rw [exec_hld, execHld]
  refine hartStep_trap ?_
  rw [need_bind (by simpa using ha), M.bind_error hw]

end

theorem exec_hld_misaligned (ha : (addressOf s s.me rs1 imm).toNat % 128 ≠ 0) :
    exec (.hld n rs1 imm) s = .next (s.takeTrap s.me false 4 0 (addressOf s s.me rs1 imm)) := by
  rw [exec_hld, execHld]
  refine hartStep_trap ?_
  rw [need_bind_not (by simpa using ha)]

/-- An `hld` that has read none of its words traps at its alignment, then as a load of the first (R213). -/
theorem traps_hld (hempty : (s.hart s.me).tmpl = []) :
    Traps (.hld n rs1 imm) s 0 128 (addressOf s s.me rs1 imm) (fun _ => true) (fun _ => true) := by
  have herr : ∀ {t : State} {code detail : Nat}, (addressOf s s.me rs1 imm).toNat % 128 = 0 →
      hartLeaf s.me false 8 (addressOf s s.me rs1 imm) s = .error (.trap code detail (addressOf s s.me rs1 imm)) t →
      exec (.hld n rs1 imm) s = .next (t.takeTrap s.me false code detail (addressOf s s.me rs1 imm)) :=
    fun ha hr => exec_hld_trap ha (plainWords_error hempty hr)
  have h8 : (addressOf s s.me rs1 imm).toNat % 128 = 0 → (addressOf s s.me rs1 imm).toNat % 8 = 0 := by omega
  exact ⟨exec_hld_misaligned, fun h1 h2 => herr h1 (hartLeaf_beyond (h8 h1) h2), fun h1 h2 =>
    ⟨fun _ _ h3 => herr h1 (hartLeaf_unmapped (h8 h1) h2 h3), fun _ _ h3 =>
      ⟨fun h4 => herr h1 (hartLeaf_compressed (h8 h1) h2 h3 h4), nofun, nofun⟩⟩⟩

end

/-- Settles O7: the constants by what they leave of their hart, `hld` by its alignment and its first word. -/
theorem constantResults : Obligations.ConstantResults := by
  unfold Obligations.ConstantResults
  refine ⟨fun s rd rs1 imm lit k n off => ?_, fun s t n rs1 imm w ha hw => exec_hld_ok ha hw,
    fun s t n rs1 imm code detail v => ⟨traps_hld, fun ha hw => exec_hld_trap ha hw⟩⟩
  intro h x csetWord
  refine ⟨?_, ?_, ?_, fun hpc => ?_, ?_, exec_cset_eq⟩
  · exact (congrArg (decodeHart · lit) (csetWord_eq off rs1 0 n)).trans (decodeHart_csetWord off rs1 n lit)
  · have hword : csetWord 1 = encI off rs1 1 (1#1 ++ n) 0x0B := csetWord_eq off rs1 1 n
    rw [hword]
    exact decodeHart_csetWord_illegal off rs1 n lit
  · rw [exec_fimmS, execFimmS, State.putConst_eq]
  · rw [exec_flitS_ok hpc, State.putConst_eq]
  · rw [exec_fconstS, execFconstS, State.putConst_eq]

end Sys2Proof.Machine
end

section
/-! Atomics (R117, R130, R220 to R222, R348): their words, their effects, what reads back at the home, and where they trap. -/

namespace Sys2Proof.Machine

open Sys2Proof.Claims

/-! ## What a write at its home finds -/

/-- Whether a place is fitted depends on sizes and grants alone. -/
theorem State.fitted_congr {s u : State} (hd : u.dev.fittedD = s.dev.fittedD) (hf : u.dev.fittedF = s.dev.fittedF)
    (he : u.dev.expanders = s.dev.expanders) (hg : u.dev.grantH = s.dev.grantH) (pa : Nat) : u.fitted pa = s.fitted pa := by
  unfold State.fitted
  rw [hd, hf, he, hg]

theorem State.fitted_of_dev {s u : State} (h : u.dev = s.dev) (pa : Nat) : u.fitted pa = s.fitted pa :=
  State.fitted_congr (by rw [h]) (by rw [h]) (by rw [h]) (by rw [h]) pa

theorem State.fitted_logEvent (s : State) (code : LogCode) (c : Option Nat) (place pa : Nat) :
    (s.logEvent code c place).fitted pa = s.fitted pa := rfl

theorem State.dev_zeroLine (s : State) (line : Nat) (l : List Nat) :
    (l.foldl (fun (s : State) i => s.rawWrite (line * 64 + 8 * i) 8 0) s).dev = s.dev := by
  induction l generalizing s with
  | nil => rfl
  | cons i l ih => rw [List.foldl_cons, ih, State.rawWrite_dev]

theorem State.fitted_loseFarLine (s : State) (c : Option Nat) (line pa : Nat) : (s.loseFarLine c line).fitted pa = s.fitted pa := by
  unfold State.loseFarLine
  dsimp only
  rw [State.fitted_logEvent]
  refine State.fitted_of_dev ?_ pa
  split
  · exact (State.modCtx_dev _ _ _).trans ((State.dev_zeroLine _ _ _).trans (State.clearFlips_dev _ _))
  · exact (State.dev_zeroLine _ _ _).trans (State.clearFlips_dev _ _)

/-- Tier S ends at a line. -/
theorem tierOf_line (pa : Nat) : tierOf (pa / 64 * 64) = some 0 ↔ tierOf pa = some 0 := by
  have hS : ∀ a, tierOf a = some 0 ↔ a < Config.tierSEnd := fun a => by
    unfold tierOf
    split
    · exact iff_of_true rfl ‹_›
    · refine iff_of_false ?_ ‹_›
      split_ifs <;> simp
  rw [hS, hS, Config.tierSEnd]
  omega

theorem State.fitted_touch (s : State) (c : Option Nat) (pa : Nat) : (s.touch c (pa / 64)).fitted pa = s.fitted pa := by
  by_cases h0 : tierOf pa = some 0
  · unfold State.fitted
    simp only [h0]
  · unfold State.touch
    dsimp only
    rw [if_pos (mt (tierOf_line pa).1 h0)]
    split
    · rfl
    · exact s.fitted_loseFarLine _ _ _

section
variable {s : State} {l : Leaf}

theorem stored_homeRead (h : Claims.Stored s l) (c : Option Nat) (n : Nat) : Claims.Stored (s.homeRead c l.pa n).1 l := by
  obtain ⟨hfit, hfar, hheld⟩ := h
  have htouch : Claims.Stored (s.touch c (l.pa / 64)) l :=
    ⟨(s.fitted_touch c l.pa).trans hfit, hfar, fun r hr => hheld r (s.touch_heldWithin _ _ r hr)⟩
  unfold State.homeRead
  split
  · exact htouch
  · rename_i h2
    exact absurd h2 hfar
  · rw [if_pos hfit]
    exact htouch

theorem stored_directRead (h : Claims.Stored s l) (c n : Nat) : Claims.Stored (s.directRead c l n).1 l := by
  unfold State.directRead
  split
  · exact stored_homeRead (s := s.countAccess c l) h _ n
  · exact stored_homeRead h _ n

/-- What an atomic has written reads back at its home (R117). -/
theorem rawRead_atomic (h : Claims.Stored s l) (t c n : Nat) (f : Nat → Nat) :
    (s.atomic t c l n f).1.rawRead l.pa n = f (s.atomic t c l n f).2 % 2 ^ (8 * n) := by
  have hbits : 2 ^ (8 * n) = 256 ^ n := Nat.pow_mul 2 8 n
  rw [hbits]
  have hwrite := rawRead_homeWrite (c := c) (stored_directRead h c n) n (f (s.directRead c l n).2)
  exact (State.rawRead_of_mem (u := (s.atomic t c l n f).1)
    (s := (s.directRead c l n).1.homeWrite (some c) l.pa n (f (s.directRead c l n).2) none) rfl _ _).trans hwrite

/-- The old value is the one that stood at the home, where no line holds an upset. -/
theorem atomic_old (h : Claims.Stored s l) (hq : Quiet s) (t c n : Nat) (f : Nat → Nat) : (s.atomic t c l n f).2 = s.rawRead l.pa n := by
  obtain ⟨hfit, hfar, -⟩ := h
  have hgives : ∀ u : State, u.dev = s.dev → u.givesRead l.pa = true := fun u hu => by
    simp [State.givesRead, State.fitted_of_dev hu, hfit, hfar]
  unfold State.atomic State.directRead
  dsimp only
  split
  · exact (State.homeRead_quiet (s := s.countAccess c l) hq _ n (hgives _ rfl)).2.2.trans
      (State.rawRead_of_mem (s := s) (u := s.countAccess c l) rfl _ _)
  · exact (State.homeRead_quiet hq _ n (hgives _ rfl)).2.2

end

/-! ## Traps -/

/-- An atomic refuses a tier but S and D, then a page with W = 0. -/
theorem traps_of_atomicOp {i : Instr} {s : State} {n : Nat} {rd rs1 : Reg} {f : Nat → Nat} {res : Nat → Word}
    (hi : exec i s = atomicOp s.me n rd rs1 f res s) : Traps i s 2 n (s.readX s.me rs1) (fun t => t ≤ 1) Leaf.writable := by
  simp only [atomicOp, atomicLeaf, bind_assoc] at hi
  refine traps_of_hartLeaf (store := true) hi (fun t l ht => M.bind_error ?_) (fun t l ht hp => ?_)
  · have : (decide (l.tier = 0) || decide (l.tier = 1)) = false := by
      simp only [decide_eq_false_iff_not] at ht
      simp only [Bool.or_eq_false_iff, decide_eq_false_iff_not]
      omega
    rw [this, need_false]
    rfl
  · have : (decide (l.tier = 0) || decide (l.tier = 1)) = true := by
      simp only [decide_eq_true_eq] at ht
      simp only [Bool.or_eq_true, decide_eq_true_eq]
      omega
    rw [this, M.bind_ok (need_true _ _), hp]
    exact M.bind_error (need_false _ _)

/-! ## Words -/

/-- The words of R221, each with its form. -/
def atomicForms (rd rs1 rs2 : Reg) : List (BitVec 7 × Instr) :=
  [(0x00, .maAdd rd rs1 rs2), (0x01, .maMin rd rs1 rs2), (0x02, .maMax rd rs1 rs2), (0x03, .maAnd rd rs1 rs2), (0x04, .maOr rd rs1 rs2),
   (0x05, .maXor rd rs1 rs2), (0x06, .maSwap rd rs1 rs2), (0x07, .maCas rd rs1 rs2), (0x08, .maIncw rd rs1 rs2),
   (0x10, .maFaddS rd rs1 rs2), (0x11, .maFmaxabsS rd rs1 rs2)]

theorem decodeHart_atomic {rd rs1 rs2 : Reg} (lit : Word32) :
    ∀ p ∈ atomicForms rd rs1 rs2, decodeHart (encR p.1 rs2 rs1 6 rd 0x2B) lit = p.2 := by
  simp only [atomicForms, List.forall_mem_cons]
  and_intros
  iterate 11 · exact decodeHart_of_some (decodeWord_encodeHart rfl rfl nofun nofun)
  · exact List.forall_mem_nil _

/-- Settles O14: the words by their table, the effects by the one lemma on atomics, what reads back by the write at the home. -/
theorem atomicResults : Obligations.AtomicResults := by
  unfold Obligations.AtomicResults
  intro s t rd rs1 rs2 rs3 l lit h v maWord done word
  refine ⟨?_, fun hw hl hf => ?_, fun hw hl hf => ?_, fun n f hst => ⟨rawRead_atomic hst _ _ n f, fun hq => atomic_old hst hq _ _ n f⟩,
    ?_, ?_⟩
  · exact List.map_congr_left (l := atomicForms rd rs1 rs2) (f := fun p => decodeHart (encR p.1 rs2 rs1 6 rd 0x2B) lit) (decodeHart_atomic lit)
  · exact ⟨(exec_maAdd rd rs1 rs2 s).trans (atomicOp_ok hw hl hf), (exec_maMin rd rs1 rs2 s).trans (atomicOp_ok hw hl hf),
      (exec_maMax rd rs1 rs2 s).trans (atomicOp_ok hw hl hf), (exec_maAnd rd rs1 rs2 s).trans (atomicOp_ok hw hl hf),
      (exec_maOr rd rs1 rs2 s).trans (atomicOp_ok hw hl hf), (exec_maXor rd rs1 rs2 s).trans (atomicOp_ok hw hl hf),
      (exec_maSwap rd rs1 rs2 s).trans (atomicOp_ok hw hl hf), (exec_maCas rd rs1 rs2 s).trans (atomicOp_ok hw hl hf),
      (exec_maIncw rd rs1 rs2 s).trans (atomicOp_ok hw hl hf), (exec_maAddb rd rs1 rs2 rs3 s).trans (atomicOp_ok hw hl hf)⟩
  · exact ⟨(exec_maFaddS rd rs1 rs2 s).trans (atomicOp_ok hw hl hf), (exec_maFmaxabsS rd rs1 rs2 s).trans (atomicOp_ok hw hl hf)⟩
  · simp only [List.forall_mem_cons]
    exact ⟨traps_of_atomicOp (exec_maAdd rd rs1 rs2 s), traps_of_atomicOp (exec_maMin rd rs1 rs2 s),
      traps_of_atomicOp (exec_maMax rd rs1 rs2 s), traps_of_atomicOp (exec_maAnd rd rs1 rs2 s),
      traps_of_atomicOp (exec_maOr rd rs1 rs2 s), traps_of_atomicOp (exec_maXor rd rs1 rs2 s),
      traps_of_atomicOp (exec_maSwap rd rs1 rs2 s), traps_of_atomicOp (exec_maCas rd rs1 rs2 s),
      traps_of_atomicOp (exec_maIncw rd rs1 rs2 s), traps_of_atomicOp (exec_maAddb rd rs1 rs2 rs3 s), List.forall_mem_nil _⟩
  · simp only [List.forall_mem_cons]
    exact ⟨traps_of_atomicOp (exec_maFaddS rd rs1 rs2 s), traps_of_atomicOp (exec_maFmaxabsS rd rs1 rs2 s), List.forall_mem_nil _⟩

end Sys2Proof.Machine
end

section
/-! Tagged words (R83, R107, R130, R202, R217, R218, R348): the request that an instruction sends, what its home serves, and what serving
leaves. -/

namespace Sys2Proof.Machine

open Sys2Proof.Claims

/-! ## What a home may change when it serves a hart -/

/-- What one home's access leaves: Anvils and rings, contexts but for their counts of lost install requests, tiles but for their harts, and
every hart but the one that is served, if one is, but for its wake slots. -/
structure Spares (o : Option HartId) (s u : State) : Prop where
  anvils : u.anvils = s.anvils
  rings : u.rings = s.rings
  ctx : ∀ c, u.ctx c = { s.ctx c with lostInstalls := (u.ctx c).lostInstalls }
  tc : ∀ k, u.tc k = { s.tc k with main := (u.tc k).main, move := (u.tc k).move }
  hart : ∀ g, some g ≠ o → u.hart g = { s.hart g with slots := (u.hart g).slots }

namespace Spares

variable {s t u : State} {o : Option HartId} {h : HartId}

theorem refl (o : Option HartId) (s : State) : Spares o s s := ⟨rfl, rfl, fun _ => rfl, fun _ => rfl, fun _ _ => rfl⟩

theorem trans (h : Spares o s t) (k : Spares o t u) : Spares o s u where
  anvils := k.anvils.trans h.anvils
  rings := k.rings.trans h.rings
  ctx c := (k.ctx c).trans (by rw [h.ctx c])
  tc x := (k.tc x).trans (by rw [h.tc x])
  hart g hg := (k.hart g hg).trans (by rw [h.hart g hg])

/-- What spares every hart spares all but one. -/
theorem some (k : Spares none s u) : Spares (.some h) s u := ⟨k.anvils, k.rings, k.ctx, k.tc, fun g _ => k.hart g nofun⟩

theorem of_parts (ha : u.anvils = s.anvils) (hr : u.rings = s.rings) (hc : u.ctxs = s.ctxs) (ht : ∀ k, u.tc k = s.tc k) : Spares o s u where
  anvils := ha
  rings := hr
  ctx c := by rw [State.ctx_congr hc]
  tc k := by rw [ht]
  hart g _ := by rw [State.hart, ht]; rfl

theorem foldl {α : Type} {f : State → α → State} (hf : ∀ s a, Spares o s (f s a)) (l : List α) (s : State) : Spares o s (l.foldl f s) := by
  induction l generalizing s with
  | nil => exact refl o s
  | cons a l ih => exact (hf s a).trans (ih _)

theorem modCtx (s : State) (c : Nat) {f : Context → Context} (hf : ∀ x, f x = { x with lostInstalls := (f x).lostInstalls }) :
    Spares o s (s.modCtx c f) where
  anvils := rfl
  rings := rfl
  ctx d := by
    rw [State.ctx_modCtx]
    split
    · subst_vars; exact hf _
    · rfl
  tc _ := rfl
  hart _ _ := rfl

/-- A hart that changes is the one that is served, or changes its wake slots alone. -/
theorem modHart (s : State) (h : HartId) {f : Hart → Hart} (hf : .some h = o ∨ ∀ x, f x = { x with slots := (f x).slots }) :
    Spares o s (s.modHart h f) where
  anvils := rfl
  rings := rfl
  ctx _ := rfl
  tc k := by
    rw [State.modHart, State.setHart, State.tc_modTc]
    split
    · subst_vars; cases h.move <;> rfl
    · rfl
  hart g hg := by
    rw [State.hart_modHart]
    split
    · subst_vars
      rcases hf with rfl | hf
      · exact absurd rfl hg
      · exact hf _
    · rfl

end Spares

section
variable (s : State) (pa t : Nat)

theorem ungate_spares (o : Option HartId) : Spares o s (s.ungate t) := by
  refine .of_parts ?_ ?_ (s.ungate_ctxs t) (s.tc_ungate t)
  all_goals unfold State.ungate; split <;> rfl

theorem ungateAt_spares (o : Option HartId) : Spares o s (s.ungateAt pa) := by
  refine .of_parts rfl rfl rfl fun k => ?_
  obtain ⟨g, h⟩ := s.tile_ungateAt pa k
  rw [State.tc, h]
  rfl

theorem fireWatches_spares : Spares none s (s.fireWatches pa) := by
  refine (ungateAt_spares s pa none).trans (.trans
    (t := { s.ungateAt pa with watches := (s.ungateAt pa).watches.filter (fun w => w.pa / 8 ≠ pa / 8) })
    (.of_parts rfl rfl rfl fun _ => rfl) (.foldl (fun u (w : Watch) => ?_) _ _))
  exact (Spares.modHart u ⟨w.tile, w.move⟩ (.inr fun _ => rfl)).trans (ungate_spares _ _ _)

theorem countLostInstall_spares : Spares none s (s.countLostInstall pa) := by
  unfold State.countLostInstall
  split
  · refine .foldl (fun u c => ?_) _ s
    have hcount : Spares none u (u.modCtx c (fun x => { x with lostInstalls := satAdd 64 x.lostInstalls 1 })) := .modCtx u c fun _ => rfl
    exact hcount.trans (.of_parts rfl rfl rfl fun _ => rfl)
  · exact .refl _ _

end

/-! ## What serving a request does -/

/-- The state in which the home acts for a request: it is no longer held and its tile is not gated. -/
def State.freed (s : State) (r : Held) : State := (s.unhold r.tile r.move).ungate r.tile

/-- The state in which a store form has written and filled its word. -/
def State.filled (s : State) (r : Held) : State :=
  (((((s.freed r).countLostInstall r.pa).rawWrite r.pa 8 r.value.toNat).setFull r.pa true).fireWatches r.pa).discard r.tile
    (fun x => x = r.pa / 64)

section
variable {s : State} {r : Held}

theorem freed_spares (s : State) (r : Held) : Spares none s (s.freed r) :=
  Spares.trans (t := s.unhold r.tile r.move) (.of_parts rfl rfl rfl fun _ => rfl) (ungate_spares _ _ _)

theorem freed_hart (s : State) (r : Held) (g : HartId) : (s.freed r).hart g = s.hart g := by
  rw [State.hart, State.freed, State.tc_ungate]
  rfl

theorem freed_mem (s : State) (r : Held) : (s.freed r).mem = s.mem := State.ungate_mem _ _

theorem freed_full (s : State) (r : Held) : (s.freed r).full = s.full := by
  rw [State.freed, State.ungate]
  split <;> rfl

theorem freed_ctxs (s : State) (r : Held) : (s.freed r).ctxs = s.ctxs := State.ungate_ctxs _ _

theorem freed_held (s : State) (r : Held) : (s.freed r).held = s.held.filter (fun q => !(q.tile = r.tile && q.move = r.move)) :=
  (State.ungate_frame _ _).held

theorem freed_rawRead (s : State) (r : Held) (pa n : Nat) : (s.freed r).rawRead pa n = s.rawRead pa n :=
  State.rawRead_of_mem (freed_mem s r) _ _

/-- A load form empties the word, if it does, gives the word and binds again what its latch binds. -/
theorem serve_load (h : r.kind = .ldf ∨ r.kind = .ldt) : s.serve r =
    ((((if r.kind = .ldt then (s.freed r).setFull r.pa false else s.freed r).writeX ⟨r.tile, r.move⟩ r.rd
      (BitVec.ofNat 64 (s.rawRead r.pa 8))).retire ⟨r.tile, r.move⟩ ((s.hart ⟨r.tile, r.move⟩).pc + 4)).acquireLatch r.tile r.va) := by
  rw [← freed_rawRead s r, ← freed_hart s r]
  rcases h with h | h <;> simp only [State.serve, h] <;> rfl

/-- A store form fills the word with its value, and retires. -/
theorem serve_store (h : r.kind = .ste ∨ r.kind = .stf) :
    s.serve r = (s.filled r).retire ⟨r.tile, r.move⟩ ((s.hart ⟨r.tile, r.move⟩).pc + 4) := by
  rw [← freed_hart s r]
  rcases h with h | h <;> simp only [State.serve, h] <;> rfl

theorem discard_tc (s : State) (t : Nat) (p : Nat → Bool) (k : Nat) : (s.discard t p).tc k = s.tc k := by
  rw [State.discard, State.tc, State.tile_setTile, State.tc]
  split
  · subst_vars; rfl
  · rfl

theorem filled_spares (s : State) (r : Held) : Spares none s (s.filled r) := by
  obtain ⟨m, hm⟩ := ((s.freed r).countLostInstall r.pa).rawWrite_eq r.pa 8 r.value.toNat
  have hwritten : Spares none ((s.freed r).countLostInstall r.pa)
      ((((s.freed r).countLostInstall r.pa).rawWrite r.pa 8 r.value.toNat).setFull r.pa true) := by
    rw [hm]
    exact .of_parts rfl rfl rfl fun _ => rfl
  exact (freed_spares s r).trans ((countLostInstall_spares _ _).trans (hwritten.trans ((fireWatches_spares _ r.pa).trans
    (.of_parts rfl rfl rfl (discard_tc _ _ _)))))

theorem acquireLatch_tc (s : State) (t : Nat) (va : Word) (k : Nat) : (s.acquireLatch t va).tc k = s.tc k := by
  unfold State.acquireLatch
  exact discard_tc _ _ _ k

theorem acquireLatch_spares (o : Option HartId) (s : State) (t : Nat) (va : Word) : Spares o s (s.acquireLatch t va) :=
  .of_parts rfl rfl rfl (acquireLatch_tc s t va)

theorem acquireLatch_hart (s : State) (t : Nat) (va : Word) (g : HartId) : (s.acquireLatch t va).hart g = s.hart g := by
  rw [State.hart, acquireLatch_tc]
  rfl

theorem held_kinds (r : Held) : (r.kind = .ldf ∨ r.kind = .ldt) ∨ (r.kind = .ste ∨ r.kind = .stf) := by
  cases r.kind <;> simp

theorem serve_spares (s : State) (r : Held) : Spares (some ⟨r.tile, r.move⟩) s (s.serve r) := by
  rcases held_kinds r with h | h
  · rw [serve_load h]
    have hemptied : Spares none (s.freed r) (if r.kind = .ldt then (s.freed r).setFull r.pa false else s.freed r) := by
      split
      · exact .of_parts rfl rfl rfl fun _ => rfl
      · exact .refl _ _
    exact ((freed_spares s r).trans hemptied).some.trans ((Spares.modHart _ _ (.inl rfl)).trans ((Spares.modHart _ _ (.inl rfl)).trans
      (acquireLatch_spares _ _ _ _)))
  · rw [serve_store h]
    exact (filled_spares s r).some.trans (.modHart _ _ (.inl rfl))

/-- The hart of a request that is served goes on. -/
theorem serve_hart (s : State) (r : Held) : ((s.serve r).hart ⟨r.tile, r.move⟩).pc = (s.hart ⟨r.tile, r.move⟩).pc + 4 ∧
    ((s.serve r).hart ⟨r.tile, r.move⟩).run = .running := by
  rcases held_kinds r with h | h
  · rw [serve_load h, acquireLatch_hart, State.hart_retire_self]
    exact ⟨rfl, rfl⟩
  · rw [serve_store h, State.hart_retire_self]
    exact ⟨rfl, rfl⟩

theorem filled_held (s : State) (r : Held) : (s.filled r).held = (s.freed r).held :=
  (State.fireWatches_frame _ _).held.trans
    ((State.rawWrite_held _ _ _ _).trans (State.countLostInstall_frame _ _).held)

theorem serve_held (s : State) (r : Held) : (s.serve r).held = s.held.filter (fun q => !(q.tile = r.tile && q.move = r.move)) := by
  rw [← freed_held]
  rcases held_kinds r with h | h
  · rw [serve_load h]
    change (ite _ _ _ : State).held = _
    split <;> rfl
  · rw [serve_store h]
    exact filled_held s r

/-- A load form changes no memory and no context, and gives the word. -/
theorem serve_loads (h : r.kind = .ldf ∨ r.kind = .ldt) : (s.serve r).mem = s.mem ∧ (s.serve r).ctxs = s.ctxs ∧
    (s.serve r).readX ⟨r.tile, r.move⟩ r.rd = (if r.rd = 0 then 0 else BitVec.ofNat 64 (s.rawRead r.pa 8)) ∧
    (s.serve r).full = (if r.kind = .ldt then (s.setFull r.pa false).full else s.full) := by
  rw [serve_load h]
  refine ⟨?_, ?_, ?_, ?_⟩
  · change (ite _ _ _ : State).mem = _
    split <;> exact freed_mem s r
  · change (ite _ _ _ : State).ctxs = _
    split <;> exact freed_ctxs s r
  · rw [State.readX, acquireLatch_hart, ← State.readX, State.readX_retire, State.readX_writeX]
    simp
  · change (ite _ _ _ : State).full = _
    split
    · rw [State.setFull, freed_full]
      rfl
    · exact freed_full s r

theorem filled_mem (s : State) (r : Held) : ∃ u : State, u.mem = s.mem ∧ (s.filled r).mem = (u.rawWrite r.pa 8 r.value.toNat).mem :=
  ⟨(s.freed r).countLostInstall r.pa, (State.countLostInstall_mem _ _).trans (freed_mem s r), State.fireWatches_mem _ r.pa⟩

theorem State.fireWatches_full (s : State) (pa : Nat) : (s.fireWatches pa).full = s.full := by
  refine (State.foldl_keeps State.full (fun s (w : Watch) => ?_) _ _).trans (rfl : (s.ungateAt pa).full = s.full)
  rw [State.ungate]
  split <;> rfl

theorem State.countLostInstall_full (s : State) (pa : Nat) : (s.countLostInstall pa).full = s.full := by
  unfold State.countLostInstall
  split
  · refine State.foldl_keeps State.full (fun s c => ?_) _ s
    rfl
  · rfl

theorem filled_full (s : State) (r : Held) : (s.filled r).full = (s.setFull r.pa true).full := by
  refine (State.fireWatches_full _ _).trans ?_
  rw [State.setFull, State.rawWrite_full, State.countLostInstall_full, freed_full]
  rfl

/-- A store form writes its value, fills the word, and keeps no copy of its line. -/
theorem serve_stores (h : r.kind = .ste ∨ r.kind = .stf) :
    (s.serve r).full = (s.setFull r.pa true).full ∧ (s.serve r).rawRead r.pa 8 = r.value.toNat ∧
    (∀ a, (a < r.pa ∨ r.pa + 8 ≤ a) → (s.serve r).byte a = s.byte a) ∧
    (∀ x ∈ ((s.serve r).tile r.tile).cache, x.line ≠ r.pa / 64) ∧
    ∀ q, (s.serve r).readX ⟨r.tile, r.move⟩ q = s.readX ⟨r.tile, r.move⟩ q := by
  obtain ⟨u, hmem, hu⟩ := filled_mem s r
  have hserved : (s.serve r).mem = (u.rawWrite r.pa 8 r.value.toNat).mem := by rw [serve_store h]; exact hu
  rw [State.rawRead_of_mem hserved, forall_congr' fun a => by rw [State.byte_congr hserved], serve_store h]
  refine ⟨filled_full s r, ?_, fun a ha => ?_, fun x hx => ?_, fun q => ?_⟩
  · rw [State.rawRead_rawWrite]
    exact Nat.mod_eq_of_lt r.value.isLt
  · rw [State.byte_rawWrite_other _ _ _ _ _ ha, State.byte_congr hmem]
  · rw [State.retire, State.modHart, State.tile_setHart_self] at hx
    exact of_decide_eq_false (mem_cache_discard hx)
  · rw [State.readX_retire, State.readX, (filled_spares s r).hart _ nofun]
    rfl

theorem State.isFull_of_full {s u : State} (h : u.full = s.full) (a : Nat) : u.isFull a = s.isFull a := by
  unfold State.isFull
  rw [h]

/-- Serving a request writes no full/empty bit but its word's. -/
theorem serve_isFull_other (s : State) (r : Held) {a : Nat} (ha : a / 8 ≠ r.pa / 8) : (s.serve r).isFull a = s.isFull a := by
  have hset : ∀ b, (s.setFull r.pa b).isFull a = s.isFull a := fun b => by rw [State.isFull_setFull, if_neg ha]
  rcases held_kinds r with h | h
  · rw [State.isFull_of_full (s := if r.kind = .ldt then s.setFull r.pa false else s) (by rw [(serve_loads h).2.2.2]; split <;> rfl)]
    split
    · exact hset _
    · rfl
  · rw [State.isFull_of_full (serve_stores h).1, hset]

end

/-! ## Which request a home serves -/

/-- A home at whose word no request is ready serves none. -/
theorem homeScan_unready {s : State} {pa : Nat} (h : ∀ q ∈ s.held, q.pa / 8 = pa / 8 → s.heldReady q = false) : s.homeScan pa = s := by
  have hnone : s.held.find? (fun r => r.pa / 8 = pa / 8 && s.heldReady r) = none :=
    List.find?_eq_none.2 fun r hr => by
      by_cases hw : r.pa / 8 = pa / 8
      · simp [h r hr hw]
      · simp [hw]
  unfold State.homeScan
  cases s.held.length with
  | zero => rfl
  | succ n => rw [State.scan, hnone]

/-- A home serves the oldest request that is ready, then what is ready then. -/
theorem homeScan_ready {s : State} {pa : Nat} {r : Held} (h : s.held.find? (fun r => r.pa / 8 = pa / 8 && s.heldReady r) = some r) :
    s.homeScan pa = (s.serve r).scan pa (s.held.length - 1) := by
  unfold State.homeScan
  cases hn : s.held.length with
  | zero => rw [List.length_eq_zero_iff.1 hn] at h; cases h
  | succ n => rw [State.scan, h]; rfl

theorem scan_of_not_held {s : State} {pa : Nat} (h : ∀ q ∈ s.held, q.pa / 8 ≠ pa / 8) (n : Nat) : s.scan pa n = s := by
  have hnone : s.held.find? (fun r => r.pa / 8 = pa / 8 && s.heldReady r) = none :=
    List.find?_eq_none.2 fun r hr => by simp [h r hr]
  cases n with
  | zero => rfl
  | succ n => rw [State.scan, hnone]

section
variable {w : State} {a : List Held} {r : Held}

/-- A request that comes to a word at which none is held waits there, where its condition does not hold. -/
theorem homeScan_sent_waits (hw : w.held = a ++ [r]) (hno : ∀ q ∈ a, q.pa / 8 ≠ r.pa / 8) (hr : w.heldReady r = false) :
    w.homeScan r.pa = w := by
  refine homeScan_unready fun q hq hqa => ?_
  rw [hw, List.mem_append, List.mem_singleton] at hq
  rcases hq with hq | rfl
  · exact absurd hqa (hno q hq)
  · exact hr

/-- Where it holds the request is served, and the home is done. -/
theorem homeScan_sent_serves (hw : w.held = a ++ [r]) (hno : ∀ q ∈ a, q.pa / 8 ≠ r.pa / 8) (hr : w.heldReady r = true) :
    w.homeScan r.pa = w.serve r ∧ ∀ q ∈ (w.serve r).held, q.pa / 8 ≠ r.pa / 8 := by
  have hfind : w.held.find? (fun q => q.pa / 8 = r.pa / 8 && w.heldReady q) = some r := by
    rw [hw, List.find?_append, List.find?_eq_none.2 fun q hq => by simp [hno q hq]]
    simp [hr]
  have hleft : ∀ q ∈ (w.serve r).held, q.pa / 8 ≠ r.pa / 8 := by
    intro q hq
    rw [serve_held, hw, List.mem_filter, List.mem_append, List.mem_singleton] at hq
    obtain ⟨hq | rfl, hother⟩ := hq
    · exact hno q hq
    · simp at hother
  exact ⟨(homeScan_ready hfind).trans (scan_of_not_held hleft _), hleft⟩

end

/-! ## Sending -/

/-- A state with the words, the requests held and the harts of another. -/
structure SameWords (s u : State) : Prop where
  mem : u.mem = s.mem
  full : u.full = s.full
  held : u.held = s.held
  hart : ∀ g, u.hart g = s.hart g

theorem SameWords.trans {s t u : State} (h : SameWords s t) (k : SameWords t u) : SameWords s u :=
  ⟨k.mem.trans h.mem, k.full.trans h.full, k.held.trans h.held, fun g => (k.hart g).trans (h.hart g)⟩

theorem ReadFrame.sameWords {s u : State} (h : ReadFrame s u) : SameWords s u := ⟨h.mem, h.full, h.held, h.hart⟩

/-- The state in which a tagged instruction's request leaves: the access is counted and noted of its page, and a store form has discarded
its own cached line. -/
def State.sending (t : State) (h : HartId) (l : Leaf) (store : Bool) : State :=
  if store then ((t.touch (some (t.ctxOf h.tile)) (l.pa / 64)).markTagged (t.ctxOf h.tile) l).discard h.tile (fun x => x = l.pa / 64)
  else ((t.countAccess (t.ctxOf h.tile) l).touch (some (t.ctxOf h.tile)) (l.pa / 64)).markTagged (t.ctxOf h.tile) l

/-- The request of a hart's tagged instruction. -/
def requestOf (h : HartId) (l : Leaf) (va : Word) (k : TaggedKind) (rd : Reg) (v : Word) : Held :=
  { pa := l.pa, tile := h.tile, move := h.move, kind := k, rd := rd, value := v, va := va }

/-- The state in which a request has joined those held at its word, and its hart waits. -/
def State.joined (u : State) (h : HartId) (r : Held) : State := State.setWait { u with held := u.held ++ [r] } h (.tagged r.pa)

theorem sending_sameWords {t : State} (hq : Quiet t) (h : HartId) (l : Leaf) (store : Bool) : SameWords t (t.sending h l store) := by
  unfold State.sending
  split
  · rw [State.touch_quiet hq]
    refine ⟨rfl, rfl, rfl, fun g => ?_⟩
    rw [State.hart, discard_tc]
    rfl
  · rw [State.touch_quiet (s := t.countAccess (t.ctxOf h.tile) l) hq]
    exact ⟨rfl, rfl, rfl, fun _ => rfl⟩

/-- What a tagged instruction does whose address is as it must be: its request leaves. -/
theorem sendTagged_ok {s t : State} {h : HartId} {k : TaggedKind} {rd : Reg} {v va : Word} {l : Leaf}
    (hl : taggedLeaf h (k = .stf || k = .ste) (k ≠ .ldf) va s = .ok l t) (ha : accessWait h va l (k ≠ .ldf) t = .ok () t) :
    hartEnd h (sendTagged h k rd v va) s =
      .next (((t.sending h l (k = .stf || k = .ste)).joined h (requestOf h l va k rd v)).homeScan l.pa) := by
  rw [sendTagged, hartEnd, M.bind_ok hl, M.bind_ok ha, upd_run]
  cases k <;> simp [State.sending, State.joined, requestOf]

section
variable {s t : State} {h : HartId} {l : Leaf} {va v : Word} {rd : Reg}

theorem sendTagged_ldf (hr : Readable s h 8 va l t) (ht : l.tier = 0) (hf : LineFree t h l false) :
    hartEnd h (sendTagged h .ldf rd v va) s = .next (((t.sending h l false).joined h (requestOf h l va .ldf rd v)).homeScan l.pa) :=
  sendTagged_ok (k := .ldf) (taggedLeaf_read hr ht) (accessWait_read hf)

theorem sendTagged_writes {k : TaggedKind} (hk : k ≠ .ldf) (hw : Writable s h 8 va l t) (ht : l.tier = 0) (hf : LineFree t h l true) :
    hartEnd h (sendTagged h k rd v va) s =
      .next (((t.sending h l (k = .stf || k = .ste)).joined h (requestOf h l va k rd v)).homeScan l.pa) := by
  obtain ⟨-, -, hmoving⟩ := id hw
  refine sendTagged_ok ?_ ?_
  · rw [decide_eq_true hk]
    exact taggedLeaf_write hw ht
  · rw [decide_eq_true hk]
    exact accessWait_write hf hmoving

end

/-! ## What a request that has been sent comes to -/

/-- The request of an instruction is held at its word and its hart waits; no word has changed. -/
def StaysHeld (s : State) (h : HartId) (pa : Nat) (k : TaggedKind) (u : State) : Prop :=
  (u.hart h).run = .waiting (.tagged pa) ∧ (u.hart h).pc = (s.hart h).pc ∧ u.mem = s.mem ∧ u.full = s.full ∧
  ∃ q ∈ u.held, q.pa = pa ∧ q.tile = h.tile ∧ q.move = h.move ∧ q.kind = k

/-- A tagged instruction has retired, with `v` in its destination, and its home holds no request at its word. -/
def GoesOn (s : State) (h : HartId) (pa : Nat) (r : Reg) (v : Word) (u : State) : Prop :=
  (u.hart h).pc = (s.hart h).pc + 4 ∧ (u.hart h).run = .running ∧ u.readX h r = (if r = 0 then 0 else v) ∧
  ∀ q ∈ u.held, q.pa / 8 ≠ pa / 8

section
variable {s u : State} {h : HartId} {l : Leaf} {k : TaggedKind} {rd : Reg} {v va : Word}

theorem joined_isFull (hu : SameWords s u) (r : Held) (a : Nat) : (u.joined h r).isFull a = s.isFull a :=
  State.isFull_of_full (u := u.joined h r) hu.full a

theorem joined_heldReady (hu : SameWords s u) (r : Held) : (u.joined h r).heldReady r = s.heldReady r := by
  unfold State.heldReady
  rw [joined_isFull hu]

theorem joined_byte (hu : SameWords s u) (r : Held) (a : Nat) : (u.joined h r).byte a = s.byte a :=
  State.byte_congr (u := u.joined h r) hu.mem a

theorem joined_pc (hu : SameWords s u) (r : Held) : ((u.joined h r).hart h).pc = (s.hart h).pc := by
  rw [← hu.hart h, State.joined, State.setWait, State.hart_modHart_self]
  rfl

theorem joined_run (u : State) (h : HartId) (r : Held) : ((u.joined h r).hart h).run = .waiting (.tagged r.pa) := by
  rw [State.joined, State.setWait, State.hart_modHart_self]

/-- A request whose condition does not hold waits at its word. -/
theorem sent_waits (hu : SameWords s u) (hno : ∀ q ∈ s.held, q.pa / 8 ≠ l.pa / 8)
    (hr : s.heldReady (requestOf h l va k rd v) = false) :
    StaysHeld s h l.pa k ((u.joined h (requestOf h l va k rd v)).homeScan l.pa) := by
  have hscan := homeScan_sent_waits (w := u.joined h (requestOf h l va k rd v)) (a := s.held) (r := requestOf h l va k rd v)
    (congrArg (· ++ _) hu.held) hno ((joined_heldReady hu _).trans hr)
  rw [show l.pa = (requestOf h l va k rd v).pa from rfl, hscan]
  exact ⟨joined_run _ _ _, joined_pc hu _, hu.mem, hu.full, _, List.mem_append_right _ (List.mem_singleton_self _), rfl, rfl, rfl, rfl⟩

/-- A request whose condition holds is served at once. -/
theorem sent_served (hu : SameWords s u) (hno : ∀ q ∈ s.held, q.pa / 8 ≠ l.pa / 8)
    (hr : s.heldReady (requestOf h l va k rd v) = true) :
    (u.joined h (requestOf h l va k rd v)).homeScan l.pa = (u.joined h (requestOf h l va k rd v)).serve (requestOf h l va k rd v) ∧
    ∀ q ∈ ((u.joined h (requestOf h l va k rd v)).serve (requestOf h l va k rd v)).held, q.pa / 8 ≠ l.pa / 8 :=
  homeScan_sent_serves (a := s.held) (congrArg (· ++ _) hu.held) hno ((joined_heldReady hu _).trans hr)

theorem served_goesOn {x : Word} (hu : SameWords s u) (hno : ∀ q ∈ s.held, q.pa / 8 ≠ l.pa / 8)
    (hr : s.heldReady (requestOf h l va k rd v) = true)
    (hx : ((u.joined h (requestOf h l va k rd v)).serve (requestOf h l va k rd v)).readX h rd = if rd = 0 then 0 else x) :
    GoesOn s h l.pa rd x ((u.joined h (requestOf h l va k rd v)).homeScan l.pa) := by
  obtain ⟨hscan, hleft⟩ := sent_served hu hno hr
  obtain ⟨hpc, hrun⟩ := serve_hart (u.joined h (requestOf h l va k rd v)) (requestOf h l va k rd v)
  rw [hscan]
  exact ⟨hpc.trans (congrArg (· + 4) (joined_pc hu _)), hrun, hx, hleft⟩

/-- A load form whose word is full gives it and leaves memory; an `ldt` empties it. -/
theorem sent_load (hk : k = .ldf ∨ k = .ldt) (hu : SameWords s u) (hno : ∀ q ∈ s.held, q.pa / 8 ≠ l.pa / 8) (hfull : s.isFull l.pa = true) :
    GoesOn s h l.pa rd (BitVec.ofNat 64 (s.rawRead l.pa 8)) ((u.joined h (requestOf h l va k rd v)).homeScan l.pa) ∧
    ((u.joined h (requestOf h l va k rd v)).homeScan l.pa).mem = s.mem ∧
    ((u.joined h (requestOf h l va k rd v)).homeScan l.pa).full = if k = .ldt then (s.setFull l.pa false).full else s.full := by
  have hr : s.heldReady (requestOf h l va k rd v) = true := by rcases hk with rfl | rfl <;> exact hfull
  obtain ⟨hmem, -, hread, hset⟩ := serve_loads (s := u.joined h (requestOf h l va k rd v)) (r := requestOf h l va k rd v) hk
  have hold : (u.joined h (requestOf h l va k rd v)).rawRead l.pa 8 = s.rawRead l.pa 8 := State.rawRead_of_mem (by exact hu.mem) _ _
  refine ⟨served_goesOn hu hno hr (hread.trans (congrArg (fun n => if rd = 0 then 0 else BitVec.ofNat 64 n) hold)), ?_, ?_⟩
  · rw [(sent_served hu hno hr).1, hmem]
    exact hu.mem
  · rw [(sent_served hu hno hr).1, hset]
    simp only [State.setFull, show (u.joined h (requestOf h l va k rd v)).full = s.full from hu.full]
    rfl

/-- A store form whose condition holds writes and fills its word. -/
theorem sent_store (hk : k = .ste ∨ k = .stf) (hu : SameWords s u) (hno : ∀ q ∈ s.held, q.pa / 8 ≠ l.pa / 8)
    (hr : s.heldReady (requestOf h l va k 0 v) = true) :
    ∃ w, (u.joined h (requestOf h l va k 0 v)).homeScan l.pa = w ∧ GoesOn s h l.pa 0 0 w ∧ w.rawRead l.pa 8 = v.toNat ∧
      w.isFull l.pa = true ∧ (∀ a, a < l.pa ∨ l.pa + 8 ≤ a → w.byte a = s.byte a) ∧ ∀ a, a / 8 ≠ l.pa / 8 → w.isFull a = s.isFull a := by
  obtain ⟨hfull, hread, hbyte, -, -⟩ := serve_stores (s := u.joined h (requestOf h l va k 0 v)) (r := requestOf h l va k 0 v) hk
  refine ⟨_, rfl, served_goesOn hu hno hr rfl, ?_⟩
  rw [(sent_served hu hno hr).1]
  refine ⟨hread, ?_, fun a ha => (hbyte a ha).trans (joined_byte hu _ a), fun a ha =>
    (serve_isFull_other _ _ ha).trans (joined_isFull hu _ a)⟩
  rw [State.isFull_of_full hfull]
  exact State.isFull_setFull_self _ _ _

end

/-! ## Traps -/

theorem hartEnd_trap {h : HartId} {body : M Unit} {s t : State} {code detail : Nat} {v : Word}
    (hb : body s = .error (.trap code detail v) t) : hartEnd h body s = .next (t.takeTrap h false code detail v) := by
  rw [hartEnd, hb]

/-- A tagged instruction refuses a tier but S, and where it writes a page with W = 0. -/
theorem traps_of_sendTagged {i : Instr} {s : State} {store writes : Bool} {va : Word} {k : Leaf → M Unit}
    (hi : exec i s = hartEnd s.me (taggedLeaf s.me store writes va >>= k) s) :
    Traps i s (if store then 2 else 0) 8 va (fun t => t = 0) (fun l => !writes || l.writable) := by
  have htrap : ∀ {t : State} {code detail : Nat}, taggedLeaf s.me store writes va s = .error (.trap code detail va) t →
      exec i s = .next (t.takeTrap s.me false code detail va) := fun h => hi.trans (hartEnd_trap (M.bind_error h))
  have herr : ∀ {t : State} {code detail : Nat}, hartLeaf s.me store 8 va s = .error (.trap code detail va) t →
      exec i s = .next (t.takeTrap s.me false code detail va) := fun h => htrap (M.bind_error h)
  refine ⟨fun h1 => herr (hartLeaf_misaligned h1), fun h1 h2 => herr (hartLeaf_beyond h1 h2), fun h1 h2 =>
    ⟨fun t kind h3 => herr (hartLeaf_unmapped h1 h2 h3), fun t l h3 => ⟨fun h4 => herr (hartLeaf_compressed h1 h2 h3 h4), ?_, ?_⟩⟩⟩
  · refine fun h4 h5 => htrap ((M.bind_ok (hartLeaf_ok ⟨h1, h2, h3, h4⟩)).trans (M.bind_error ?_))
    rw [show decide (l.tier = 0) = false from h5, need_false]
    cases store <;> rfl
  · refine fun h4 h5 h6 => htrap ((M.bind_ok (hartLeaf_ok ⟨h1, h2, h3, h4⟩)).trans ?_)
    rw [show decide (l.tier = 0) = true from h5, M.bind_ok (need_true _ _), show (!writes || l.writable) = false from h6]
    refine M.bind_error ?_
    rw [need_false]
    cases store <;> rfl

end Sys2Proof.Machine
end

section
/-! What the tagged instructions do (R83, R107, R130, R202, R217, R218, R348). -/

namespace Sys2Proof.Machine

open Sys2Proof.Claims

section
variable {s t : State} {rd rs1 rs2 : Reg} {imm : BitVec 12} {l : Leaf}

/-- What each tagged instruction sends. -/
theorem exec_ldf_sent (hr : Readable s s.me 8 (addressOf s s.me rs1 imm) l t) (ht : l.tier = 0) (hf : LineFree t s.me l false) :
    exec (.ldf rd rs1 imm) s = .next (((t.sending s.me l false).joined s.me
      (requestOf s.me l (addressOf s s.me rs1 imm) .ldf rd 0)).homeScan l.pa) :=
  (exec_ldf rd rs1 imm s).trans (sendTagged_ldf hr ht hf)

theorem exec_ldt_sent (hw : Writable s s.me 8 (addressOf s s.me rs1 imm) l t) (ht : l.tier = 0) (hf : LineFree t s.me l true) :
    exec (.ldt rd rs1 imm) s = .next (((t.sending s.me l false).joined s.me
      (requestOf s.me l (addressOf s s.me rs1 imm) .ldt rd 0)).homeScan l.pa) :=
  (exec_ldt rd rs1 imm s).trans (sendTagged_writes (k := .ldt) nofun hw ht hf)

theorem exec_stf_sent (hw : Writable s s.me 8 (addressOf s s.me rs1 imm) l t) (ht : l.tier = 0) (hf : LineFree t s.me l true) :
    exec (.stf rs1 rs2 imm) s = .next (((t.sending s.me l true).joined s.me
      (requestOf s.me l (addressOf s s.me rs1 imm) .stf 0 (s.readX s.me rs2))).homeScan l.pa) :=
  (exec_stf rs1 rs2 imm s).trans (sendTagged_writes (k := .stf) nofun hw ht hf)

theorem exec_ste_sent (hw : Writable s s.me 8 (addressOf s s.me rs1 imm) l t) (ht : l.tier = 0) (hf : LineFree t s.me l true) :
    exec (.ste rs1 rs2 imm) s = .next (((t.sending s.me l true).joined s.me
      (requestOf s.me l (addressOf s s.me rs1 imm) .ste 0 (s.readX s.me rs2))).homeScan l.pa) :=
  (exec_ste rs1 rs2 imm s).trans (sendTagged_writes (k := .ste) nofun hw ht hf)

theorem readable_sending (hq : Quiet s) (hr : Readable s s.me 8 (addressOf s s.me rs1 imm) l t) (store : Bool) :
    SameWords s (t.sending s.me l store) :=
  have hread := readable_readFrame hq hr
  hread.sameWords.trans (sending_sameWords (hread.quiet hq) s.me l store)

end

/-- Where only one request is held, at the word and ready, the home serves it and no other. -/
theorem homeScan_single {s : State} {pa : Nat} {r : Held} (h : s.held = [r]) (hw : r.pa / 8 = pa / 8) (hr : s.heldReady r = true) :
    s.homeScan pa = s.serve r ∧ (s.serve r).held = [] := by
  constructor
  · rw [homeScan_ready (r := r) (by rw [h]; simp [hw, hr]), h]
    rfl
  · rw [serve_held, h]
    simp

/-- Settles O15: what each instruction sends, that the home serves it at once or holds it, which request a home serves, and what serving
one leaves. -/
theorem taggedResults : Obligations.TaggedResults := by
  unfold Obligations.TaggedResults
  refine ⟨?_, ?_, ?_, ?_, ?_⟩
  · intro s t rd rs1 rs2 imm l
    exact ⟨exec_ldf_sent, fun hw ht hf => ⟨exec_ldt_sent hw ht hf, exec_stf_sent hw ht hf, exec_ste_sent hw ht hf⟩⟩
  · intro s t rd rs1 rs2 imm l h va old done waits hq hno hr ht
    have hloads := readable_sending hq hr false
    have hstores := readable_sending hq hr true
    refine ⟨fun hf => ⟨fun hfull => ?_, fun hempty => ?_⟩,
      fun hw hf => ⟨fun hfull => ?_, fun hempty => ?_, fun i hi => ?_, fun hfull => ?_⟩⟩
    · obtain ⟨hdone, hmem, hset⟩ := sent_load (.inl rfl) hloads hno hfull
      exact ⟨_, exec_ldf_sent hr ht hf, hdone, hmem, hset⟩
    · exact ⟨_, exec_ldf_sent hr ht hf, sent_waits hloads hno hempty⟩
    · obtain ⟨hdone, hmem, hset⟩ := sent_load (.inr rfl) hloads hno hfull
      refine ⟨_, exec_ldt_sent hw ht hf, hdone, hmem, ?_, fun a ha => ?_⟩
      · rw [State.isFull_of_full hset]
        exact State.isFull_setFull_self _ _ _
      · rw [State.isFull_of_full hset]
        exact (State.isFull_setFull _ _ _ _).trans (if_neg ha)
    · exact ⟨_, exec_ldt_sent hw ht hf, sent_waits hloads hno hempty⟩
    · rcases hi with rfl | ⟨rfl, hempty⟩
      · obtain ⟨w, hscan, hrest⟩ := sent_store (.inr rfl) hstores hno (va := va) (h := h) (v := s.readX h rs2) rfl
        exact ⟨w, (exec_stf_sent hw ht hf).trans (congrArg _ hscan), hrest⟩
      · obtain ⟨w, hscan, hrest⟩ := sent_store (.inl rfl) hstores hno (va := va) (h := h) (v := s.readX h rs2)
          (show (!s.isFull l.pa) = true by rw [hempty]; rfl)
        exact ⟨w, (exec_ste_sent hw ht hf).trans (congrArg _ hscan), hrest⟩
    · exact ⟨_, exec_ste_sent hw ht hf, sent_waits hstores hno (show (!s.isFull l.pa) = false by rw [hfull]; rfl)⟩
  · intro s pa r h
    refine ⟨fun hno => congrArg Host.Outcome.next (homeScan_unready hno),
      fun hfind => congrArg Host.Outcome.next (homeScan_ready hfind), fun hone hw hready => ?_⟩
    obtain ⟨hscan, hheld⟩ := homeScan_single hone hw hready
    obtain ⟨hpc, hrun⟩ := serve_hart s r
    exact ⟨s.serve r, congrArg Host.Outcome.next hscan, rfl, hheld, hpc, hrun⟩
  · intro s r _ h u
    obtain ⟨hpc, hrun⟩ := serve_hart s r
    have hspares := serve_spares s r
    refine ⟨serve_held s r, hpc, hrun, fun hk => ?_, fun hk => ?_, fun hk => ?_, fun hk => ?_, fun a ha => serve_isFull_other s r ha,
      hspares.anvils, hspares.rings, hspares.ctx, hspares.tc, fun g hg => hspares.hart g fun e => hg (Option.some.inj e)⟩
    · obtain ⟨hmem, hctxs, hread, -⟩ := serve_loads (s := s) hk
      exact ⟨State.byte_congr hmem, hctxs, hread⟩
    · obtain ⟨-, -, -, hfull⟩ := serve_loads (s := s) (.inl hk)
      rw [hfull, hk]
      rfl
    · obtain ⟨-, -, -, hfull⟩ := serve_loads (s := s) (.inr hk)
      rw [State.isFull_of_full (hfull.trans (if_pos hk))]
      exact State.isFull_setFull_self _ _ _
    · obtain ⟨hfull, hread, hbyte, hcache, hregs⟩ := serve_stores (s := s) hk
      refine ⟨?_, hread, hbyte, hcache, hregs⟩
      rw [State.isFull_of_full hfull]
      exact State.isFull_setFull_self _ _ _
  · intro s rd rs1 rs2 imm va
    exact ⟨traps_of_sendTagged (store := false) (writes := false) (exec_ldf rd rs1 imm s),
      traps_of_sendTagged (store := false) (writes := true) (exec_ldt rd rs1 imm s),
      traps_of_sendTagged (store := true) (writes := true) (exec_stf rs1 rs2 imm s),
      traps_of_sendTagged (store := true) (writes := true) (exec_ste rs1 rs2 imm s)⟩

end Sys2Proof.Machine
end

section
/-! The block decoder's header, tables and symbols (R319 to R322). -/

namespace Sys2Proof.Machine

open Sys2Proof.Claims

/-! ## Length tables -/

section
variable {tb : BitVec 1024}

theorem mem_symbolsOf {n x : Nat} : x ∈ symbolsOf tb n ↔ x < 256 ∧ field tb (4 * x) 4 = n := by
  simp only [symbolsOf, List.mem_filter, List.mem_range, decide_eq_true_eq]
  rfl

theorem symbolsOf_rising (tb : BitVec 1024) (n : Nat) : (symbolsOf tb n).Pairwise (· < ·) := List.pairwise_lt_range.filter _

theorem firstCode_succ {n : Nat} (hn : 1 ≤ n) : firstCode tb (n + 1) = 2 * (firstCode tb n + (symbolsOf tb n).length) :=
  if_neg (by omega)

/-- What a sum over the places that have a length counts, length by length. -/
theorem sum_by_length (f g : Nat → Nat) (N : Nat) (l : List Nat) (hl : ∀ x ∈ l, f x ≤ N) :
    ((l.filter (fun x => f x ≠ 0)).map (fun x => g (f x))).sum =
      ∑ i ∈ Finset.range N, (l.filter (fun x => f x = i + 1)).length * g (i + 1) := by
  induction l with
  | nil => simp
  | cons x l ih =>
    have ih := ih fun y hy => hl y (List.mem_cons_of_mem _ hy)
    obtain h0 | ⟨m, hm⟩ : f x = 0 ∨ ∃ m, f x = m + 1 := by cases f x <;> simp
    · simpa [h0] using ih
    · have hmN : m < N := by have := hl x List.mem_cons_self; omega
      have hone : ∀ i, ((x :: l).filter (fun x => f x = i + 1)).length * g (i + 1) =
          (if m = i then g (m + 1) else 0) + (l.filter (fun x => f x = i + 1)).length * g (i + 1) := fun i => by
        rw [List.filter_cons, hm]
        by_cases hi : m = i
        · subst hi; simp [add_mul, add_comm]
        · simp [hi]
      rw [List.filter_cons, if_pos (by simp [hm]), List.map_cons, List.sum_cons, ih, Finset.sum_congr rfl fun i _ => hone i,
        Finset.sum_add_distrib, Finset.sum_ite_eq, if_pos (Finset.mem_range.2 hmN), hm]

/-- Where no length exceeds 12 the lengths fill as much of the code as the symbols do. -/
theorem used_sum (h : ∀ x, x < 256 → codeLen tb x ≤ 12) :
    ((List.range 12).map (fun l => (symbolsOf tb (l + 1)).length * 2 ^ (11 - l))).sum =
      (((List.range 256).filter (fun x => codeLen tb x ≠ 0)).map (fun x => 2 ^ (12 - codeLen tb x))).sum := by
  rw [sum_by_length (codeLen tb) (fun n => 2 ^ (12 - n)) 12 _ fun x hx => h x (List.mem_range.1 hx)]
  rfl

theorem used_any (h : ∀ x, x < 256 → codeLen tb x ≤ 12) :
    ((List.range 12).map (fun l => (symbolsOf tb (l + 1)).length * 2 ^ (11 - l))).any (· ≠ 0) = true ↔ ∃ x, x < 256 ∧ codeLen tb x ≠ 0 := by
  rw [List.any_map, List.any_eq_true]
  constructor
  · rintro ⟨l, -, hl⟩
    have hne : (symbolsOf tb (l + 1)).length ≠ 0 := fun h0 => by simp [h0] at hl
    obtain ⟨x, hx⟩ := List.exists_mem_of_length_pos (Nat.pos_of_ne_zero hne)
    obtain ⟨hlt, hlen⟩ := mem_symbolsOf.1 hx
    exact ⟨x, hlt, fun h0 => by rw [codeLen, hlen] at h0; omega⟩
  · rintro ⟨x, hlt, hne⟩
    obtain ⟨l, hl⟩ := Nat.exists_eq_succ_of_ne_zero hne
    have h12 := h x hlt
    have hmem : x ∈ symbolsOf tb (l + 1) := mem_symbolsOf.2 ⟨hlt, hl⟩
    refine ⟨l, List.mem_range.2 (by omega), ?_⟩
    have := List.length_pos_of_mem hmem
    simp only [Function.comp_apply, decide_eq_true_eq]
    positivity

/-- What an acceptable length table is (R321). -/
theorem tableOk_iff : tableOk tb = true ↔ (∀ x, x < 256 → codeLen tb x ≤ 12) ∧ (∃ x, x < 256 ∧ codeLen tb x ≠ 0) ∧
    (((List.range 256).filter (fun x => codeLen tb x ≠ 0)).map (fun x => 2 ^ (12 - codeLen tb x))).sum ≤ 2 ^ 12 := by
  have hall : (List.range 256).all (fun s => codeLen tb s ≤ 12) = true ↔ ∀ x, x < 256 → codeLen tb x ≤ 12 := by simp
  unfold tableOk
  dsimp only
  rw [Bool.and_eq_true, Bool.and_eq_true, hall, and_assoc, decide_eq_true_eq]
  refine and_congr_right fun h => ?_
  rw [used_any h, used_sum h]

/-- What a malformed block is (R320, R321). -/
theorem malformedBlock_iff (h : BitVec 128) : malformedBlock h tb = true ↔
    field h 0 16 ≠ 0x5A4B ∨ field h 16 8 ≠ 0 ∨ 1 < field h 24 8 ∨ field h 32 16 = 0 ∨ field h 48 24 = 0 ∨
      field h 72 24 = 0 ∨ (field h 24 8 = 0 ∧ 512 * field h 32 16 < 16 + field h 48 24) ∨ (field h 24 8 = 1 ∧ tableOk tb = false) := by
  simp only [malformedBlock, Bool.or_eq_true, Bool.and_eq_true, decide_eq_true_eq, Bool.not_eq_true', gt_iff_lt]
  simp only [hMagic, hKind, hRlen, hCyc, hPlen]
  tauto

end

/-! ## Faults and headers -/

section
variable {s t u : State} {c : Cmd} {r : Run} {d : DecState}

/-- The fault of the decoder with a code, in the state that it is found in (R319). -/
theorem decFault_run (code : Nat) (d : DecState) (s : State) : decFault r c code d s =
    .error (.fault code (d.blk % 256) ((s.copyDest r.t r.e (d.startOut / cpSize c)).getD 0)) s := rfl

theorem setProgress_run (f : Progress → Progress) (s : State) : setProgress r f s = .ok () (progressed r f s) := rfl

/-- A decoder at the start of a block whose header and table are read (R320). -/
def DecState.enter (d : DecState) (h tb : Nat) : DecState :=
  { d with startOut := d.out, header := BitVec.ofNat 128 h, table := BitVec.ofNat 1024 tb, inBlock := true, n := 0, bit := 0,
           crc := BitVec.allOnes 32, cycles := 0, old := [] }

theorem decHeader_error {e : Exc} (h : decBytes r c { d with startOut := d.out } d.src 16 s = .error e t) :
    decHeader r c d s = .error e t :=
  M.bind_error h

/-- What the header of a block comes to, once it is read. -/
theorem decHeader_read {h tb : Nat} (hh : decBytes r c { d with startOut := d.out } d.src 16 s = .ok h t)
    (ht : if hMagic (BitVec.ofNat 128 h) = 0x5A4B ∧ hKind (BitVec.ofNat 128 h) = 1 then
      decBytes r c { d with startOut := d.out } (d.src + 16) 128 t = .ok tb u else tb = 0 ∧ u = t) :
    decHeader r c d s = (if malformedBlock (d.enter h tb).header (d.enter h tb).table then decFault r c 0x19 (d.enter h tb) >>=
      fun _ => pure (d.enter h tb) else pure (d.enter h tb)) (progressed r (fun p => { p with dec := d.enter h tb }) u) := by
  unfold decHeader
  dsimp only
  rw [M.bind_ok hh]
  by_cases hb : hMagic (BitVec.ofNat 128 h) = 0x5A4B ∧ hKind (BitVec.ofNat 128 h) = 1
  · rw [if_pos hb] at ht
    rw [if_pos (by simpa using hb), M.bind_ok ht]
    rfl
  · rw [if_neg hb] at ht
    obtain ⟨rfl, rfl⟩ := ht
    rw [if_neg (by simpa using hb)]
    rfl

/-! ## Symbols -/

theorem decSource_end {n : Nat} (h : (cpSource r c).count ≤ n) : decSource r c d n s =
    .error (.fault 0x12 (d.blk % 256) ((s.copyDest r.t r.e (d.startOut / cpSize c)).getD 0)) s := by
  unfold decSource
  dsimp only
  rw [if_pos h]
  rfl

theorem bodyByte_end {n : Nat} (h : 512 * hPlen d.header ≤ n) : bodyByte r c d n s =
    .error (.fault 0x12 (d.blk % 256) ((s.copyDest r.t r.e (d.startOut / cpSize c)).getD 0)) s := by
  unfold bodyByte
  rw [if_pos h]
  rfl

theorem bodyByte_inside {n : Nat} (h : n < 512 * hPlen d.header) : bodyByte r c d n s = decSource r c d (d.src + n) s := by
  unfold bodyByte
  rw [if_neg (by omega)]

theorem nextSymbol_stored (hk : hKind d.header ≠ 1) : nextSymbol r c d = bodyByte r c d (16 + d.n) >>= fun b => pure (b, d) :=
  if_neg hk

theorem nextSymbol_coded (hk : hKind d.header = 1) :
    nextSymbol r c d = readCode r c d 12 0 0 >>= fun x => pure (x.1, { d with bit := d.bit + x.2 }) :=
  if_pos hk

end

/-! ## Codes -/

/-- The first n bits from a place on as a number, the first bit highest (R321). -/
def codeRead (bit : Nat) (byte : Nat → Nat) (n : Nat) : Nat := (List.range n).foldl (fun a i => 2 * a + byte i / 2 ^ ((bit + i) % 8) % 2) 0

theorem codeRead_succ (bit : Nat) (byte : Nat → Nat) (n : Nat) :
    codeRead bit byte (n + 1) = 2 * codeRead bit byte n + byte n / 2 ^ ((bit + n) % 8) % 2 := by
  rw [codeRead, List.range_succ, List.foldl_append]
  rfl

theorem codeRead_lt (bit : Nat) (byte : Nat → Nat) (m j : Nat) : codeRead bit byte (m + j) < 2 ^ j * (codeRead bit byte m + 1) := by
  induction j with
  | zero => simp
  | succ j ih =>
    have hbit := Nat.mod_lt (byte (m + j) / 2 ^ ((bit + (m + j)) % 8)) (by decide : 0 < 2)
    rw [← Nat.add_assoc, codeRead_succ, Nat.pow_succ, Nat.mul_right_comm]
    omega

/-- Codes of a length stand before those of every greater length: the first of these extends no code before it. -/
theorem firstCode_above {tb : BitVec 1024} {m : Nat} (hm : 1 ≤ m) (j : Nat) :
    2 ^ (j + 1) * (firstCode tb m + (symbolsOf tb m).length) ≤ firstCode tb (m + (j + 1)) := by
  induction j with
  | zero => rw [firstCode_succ hm]; omega
  | succ j ih =>
    rw [← Nat.add_assoc, firstCode_succ (by omega), Nat.pow_succ, Nat.mul_right_comm]
    omega

/-- The bits read so far form a code of their length. -/
def CodeHit (tb : BitVec 1024) (code n : Nat) : Prop := firstCode tb n ≤ code ∧ code - firstCode tb n < (symbolsOf tb n).length

/-- What a code or more begins with is no shorter code. -/
theorem not_codeHit_before {tb : BitVec 1024} {bit n m : Nat} {byte : Nat → Nat} (hm : 1 ≤ m) (hmn : m < n)
    (hcode : firstCode tb n ≤ codeRead bit byte n) : ¬ CodeHit tb (codeRead bit byte m) m := by
  rintro ⟨hfirst, hlen⟩
  obtain ⟨j, rfl⟩ : ∃ j, n = m + (j + 1) := ⟨n - m - 1, by omega⟩
  have hread := codeRead_lt bit byte m (j + 1)
  have habove := firstCode_above (tb := tb) hm j
  have hstep : codeRead bit byte m + 1 ≤ firstCode tb m + (symbolsOf tb m).length := by omega
  have := Nat.mul_le_mul_left (2 ^ (j + 1)) hstep
  omega

section
variable {c : Cmd} {r : Run} {d : DecState} {at_ : Nat → State} {byte : Nat → Nat} {fuel : Nat}

theorem readCode_hit {s t : State} {code l b : Nat} (hb : bodyByte r c d (144 + (d.bit + l) / 8) s = .ok b t)
    (hit : CodeHit d.table (2 * code + b / 2 ^ ((d.bit + l) % 8) % 2) (l + 1)) :
    readCode r c d (fuel + 1) code l s = .ok (nth 0 (symbolsOf d.table (l + 1))
      (2 * code + b / 2 ^ ((d.bit + l) % 8) % 2 - firstCode d.table (l + 1)), l + 1) t := by
  rw [readCode]
  dsimp only
  rw [M.bind_ok hb, if_pos (by simpa [CodeHit] using hit)]
  rfl

theorem readCode_miss {s t : State} {code l b : Nat} (hb : bodyByte r c d (144 + (d.bit + l) / 8) s = .ok b t)
    (hit : ¬ CodeHit d.table (2 * code + b / 2 ^ ((d.bit + l) % 8) % 2) (l + 1)) :
    readCode r c d (fuel + 1) code l s = readCode r c d fuel (2 * code + b / 2 ^ ((d.bit + l) % 8) % 2) (l + 1) t := by
  rw [readCode]
  dsimp only
  rw [M.bind_ok hb, if_neg (by simpa [CodeHit] using hit)]

/-- As long as the bits form no code the decoder reads on. -/
theorem readCode_misses {m : Nat} (hreads : ∀ i < m, bodyByte r c d (144 + (d.bit + i) / 8) (at_ i) = .ok (byte i) (at_ (i + 1)))
    (hmiss : ∀ j, 1 ≤ j → j ≤ m → ¬ CodeHit d.table (codeRead d.bit byte j) j) (fuel : Nat) :
    readCode r c d (fuel + m) 0 0 (at_ 0) = readCode r c d fuel (codeRead d.bit byte m) m (at_ m) := by
  induction m generalizing fuel with
  | zero => rfl
  | succ m ih =>
    have hstep := hmiss (m + 1) (by omega) le_rfl
    rw [codeRead_succ] at hstep ⊢
    rw [show fuel + (m + 1) = fuel + 1 + m by omega, ih (fun i hi => hreads i (by omega)) (fun j h1 h2 => hmiss j h1 (by omega)),
      readCode_miss (hreads m (by omega)) hstep]

/-- The symbol whose code the bits form is the one read (R321). -/
theorem readCode_symbol {n k x : Nat} (hn : 1 ≤ n) (hn12 : n ≤ 12) (hx : (symbolsOf d.table n)[k]? = some x)
    (hcode : codeRead d.bit byte n = firstCode d.table n + k)
    (hreads : ∀ i < n, bodyByte r c d (144 + (d.bit + i) / 8) (at_ i) = .ok (byte i) (at_ (i + 1))) :
    readCode r c d 12 0 0 (at_ 0) = .ok (x, n) (at_ n) := by
  obtain ⟨m, rfl⟩ : ∃ m, n = m + 1 := ⟨n - 1, by omega⟩
  have hlt : k < (symbolsOf d.table (m + 1)).length := (List.getElem?_eq_some_iff.1 hx).1
  have hhit : CodeHit d.table (codeRead d.bit byte (m + 1)) (m + 1) := ⟨by omega, by omega⟩
  have hmisses := readCode_misses (m := m) (fun i hi => hreads i (by omega))
    (fun j h1 h2 => not_codeHit_before h1 (by omega : j < m + 1) (by omega)) (11 - m + 1)
  rw [codeRead_succ] at hhit hcode
  rw [show 12 = 11 - m + 1 + m by omega, hmisses, readCode_hit (hreads m (by omega)) hhit, hcode, Nat.add_sub_cancel_left, nth, hx]
  rfl

/-- Bits that form no code of 1 to 12 bits are a length violation (R321, R322). -/
theorem readCode_none (hmiss : ∀ j, 1 ≤ j → j ≤ 12 → ¬ CodeHit d.table (codeRead d.bit byte j) j)
    (hreads : ∀ i < 12, bodyByte r c d (144 + (d.bit + i) / 8) (at_ i) = .ok (byte i) (at_ (i + 1))) :
    readCode r c d 12 0 0 (at_ 0) =
      .error (.fault 0x12 (d.blk % 256) (((at_ 12).copyDest r.t r.e (d.startOut / cpSize c)).getD 0)) (at_ 12) :=
  (readCode_misses (m := 12) hreads hmiss 0).trans rfl

end

end Sys2Proof.Machine
end

section
/-! The block decoder's steps: bytes decoded, blocks that end, and bytes written (R319, R322, R323). -/

namespace Sys2Proof.Machine

open Sys2Proof.Claims

/-! ## Decoding bytes -/

section
variable {s t u : State} {c : Cmd} {r : Run} {d e : DecState} {b f : Nat}

/-- The state of the decoder past a byte that it has written (R322). -/
def DecState.past (d e : DecState) (b : Nat) : DecState :=
  { e with out := d.out + 1, n := d.n + 1, unit := false, crc := crcByte d.crc b }

/-- The state of the decoder past a block that it has verified (R322). -/
def DecState.leave (d : DecState) : DecState := { d with src := d.src + 512 * hPlen d.header, blk := d.blk + 1, inBlock := false }

theorem decEnd_late (h : hCyc d.header ≤ d.cycles) : decEnd r c d s =
    .error (.fault 0x12 (d.blk % 256) ((s.copyDest r.t r.e (d.startOut / cpSize c)).getD 0)) s := by
  unfold decEnd
  rw [if_pos h]
  rfl

theorem decEnd_mismatch (h : d.cycles < hCyc d.header) (hcrc : ~~~d.crc ≠ bits d.header 96 32) : decEnd r c d s =
    .error (.fault 0x11 (d.blk % 256) ((s.copyDest r.t r.e (d.startOut / cpSize c)).getD 0)) s := by
  unfold decEnd
  rw [if_neg (by omega), if_pos hcrc]
  rfl

theorem decEnd_verified (h : d.cycles < hCyc d.header) (hcrc : ~~~d.crc = bits d.header 96 32) : decEnd r c d s = .ok d.leave s := by
  unfold decEnd
  rw [if_neg (by omega), if_neg (not_not.2 hcrc)]
  rfl

theorem decRun_end (h : d.n = hRlen d.header) : decRun r c (f + 1) d s = (decEnd r c d >>= fun d => pure (d, false)) s := by
  rw [decRun, if_pos h]

/-- A symbol for which the destination has no room is a length violation. -/
theorem decRun_full (h : d.n < hRlen d.header) (hsym : nextSymbol r c d s = .ok (b, e) t) (hout : d.out = (cpDest r c).count * cpSize c) :
    decRun r c (f + 1) d s =
      .error (.fault 0x12 (d.blk % 256) ((t.copyDest r.t r.e (d.startOut / cpSize c)).getD 0)) t := by
  rw [decRun, if_neg (by omega), M.bind_ok hsym]
  dsimp only
  rw [if_pos hout]
  rfl

/-- At a chunk's first byte a copy with a ring waits for a unit that it does not have (R323). -/
theorem decRun_unit (h : d.n < hRlen d.header) (hsym : nextSymbol r c d s = .ok (b, e) t) (hout : d.out < (cpDest r c).count * cpSize c)
    (hring : cpRg c = true) (hchunk : d.out % 512 = 0) (hunit : d.unit = false) : decRun r c (f + 1) d s = .ok (d, true) t := by
  rw [decRun, if_neg (by omega), M.bind_ok hsym]
  dsimp only
  rw [if_neg (by omega), if_pos (by simp [hring, hchunk, hunit])]
  rfl

/-- What follows a byte that is written: the block's end, the chunk's, or the next byte. -/
theorem decRun_byte (h : d.n < hRlen d.header) (hsym : nextSymbol r c d s = .ok (b, e) t) (hout : d.out < (cpDest r c).count * cpSize c)
    (hunit : cpRg c = false ∨ d.out % 512 ≠ 0 ∨ d.unit = true) (hwrite : decWrite r c d.out b t = .ok () u) :
    decRun r c (f + 1) d s = (if d.n + 1 = hRlen e.header then decEnd r c (d.past e b) >>= fun d => pure (d, false)
      else if (d.out + 1) % 512 = 0 then pure (d.past e b, false) else decRun r c f (d.past e b)) u := by
  have hpass : (cpRg c && decide (d.out % 512 = 0) && !d.unit) = false := by
    rcases hunit with h | h | h <;> simp [h]
  rw [decRun, if_neg (by omega), M.bind_ok hsym]
  dsimp only
  rw [if_neg (by omega), hpass, if_neg Bool.false_ne_true, M.bind_ok hwrite]
  rfl

end

/-! ## Writing a byte -/

section
variable {s t : State} {r : Run} {va : Nat} {l : Leaf}

/-- A state with the bytes of another, and what its homes need to serve accesses. -/
structure SameBytes (s u : State) : Prop where
  home : HomeFrame s u
  mem : u.mem = s.mem

theorem SameBytes.refl (s : State) : SameBytes s s := ⟨.refl s, rfl⟩

theorem SameBytes.trans {s t u : State} (h : SameBytes s t) (k : SameBytes t u) : SameBytes s u :=
  ⟨h.home.trans k.home, k.mem.trans h.mem⟩

theorem SameBytes.byte {s u : State} (h : SameBytes s u) (a : Nat) : u.byte a = s.byte a := State.byte_congr h.mem a

theorem modEntry_sameBytes (s : State) (t q n : Nat) (f : Entry → Entry) : SameBytes s (s.modEntry t q n f) :=
  ⟨⟨rfl, rfl, rfl, rfl, fun _ => rfl⟩, rfl⟩

theorem Translated.sameBytes {s u : State} {k : Nat} (h : Translated s k u) : SameBytes s u := by
  obtain ⟨a, b, m, n, d, ⟨x, lg, o, ms, rfl⟩, rfl | rfl⟩ := h
  · exact ⟨⟨rfl, rfl, rfl, rfl, fun _ => State.fitted_congr rfl rfl rfl rfl _⟩, rfl⟩
  · exact ⟨⟨rfl, rfl, rfl, rfl, fun _ => State.fitted_congr rfl rfl rfl rfl _⟩, rfl⟩

/-- A translation for a command changes no byte, where no line holds an upset. -/
theorem engineTranslate_sameBytes {x : Except Nat Leaf} (hq : Quiet s) (h : engineTranslate r va s = .ok x t) : SameBytes s t := by
  have htranslate := (State.translate_quiet hq r.t (.engine r.q r.e.seq r.e.prog.next) (s.ctxOf r.t) va).sameBytes
  unfold engineTranslate at h
  rw [M.bind_ok (M.get_run s)] at h
  generalize ((s.queue r.t r.q).find r.e.seq).bind (fun e => SMap.find? e.prog.xlat (pageOf va)) = found at h
  generalize s.translate r.t (.engine r.q r.e.seq r.e.prog.next) (s.ctxOf r.t) va = w at h htranslate
  obtain ⟨w, res⟩ := w
  cases found with
  | some e =>
    injection h with _ h
    rw [← h]
    exact .refl s
  | none =>
    dsimp only at h
    rw [M.bind_ok (M.set_run s w)] at h
    cases res with
    | error k =>
      injection h with _ h
      rw [← h]
      exact htranslate
    | ok l =>
      dsimp only at h
      split at h
      · injection h with _ h
        rw [← h]
        exact htranslate.trans (modEntry_sameBytes _ _ _ _ _)
      · injection h with _ h
        rw [← h]
        exact htranslate

/-- A bind that has its effect: its first part had. -/
theorem M.ok_of_bind {α β : Type} {m : M α} {f : α → M β} {b : β} (h : (m >>= f) s = .ok b t) : ∃ a u, m s = .ok a u ∧ f a u = .ok b t := by
  rw [M.bind_run] at h
  cases hm : m s with
  | ok a u => rw [hm] at h; exact ⟨a, u, rfl, h⟩
  | error e u => rw [hm] at h; cases h

theorem M.need_ok {x : Bool} {e : Exc} {y : PUnit} (h : need x e s = .ok y t) : t = s := by
  rw [need_run] at h
  split at h
  · injection h with _ h; exact h.symm
  · cases h

/-- The address check of a command changes no byte either. -/
theorem engineLeafIn_sameBytes {tierOk : Nat → Bool} {write copy : Bool} (hq : Quiet s)
    (h : engineLeafIn tierOk r write copy va s = .ok l t) :
    SameBytes s t := by
  unfold engineLeafIn at h
  obtain ⟨_, s1, h1, htranslated⟩ := M.ok_of_bind h
  rw [M.need_ok h1] at htranslated
  obtain ⟨x, u, hx, hchecked⟩ := M.ok_of_bind htranslated
  suffices t = u from this ▸ engineTranslate_sameBytes hq hx
  cases x with
  | error k => cases hchecked
  | ok l' =>
    obtain ⟨_, s2, h2, hchecked⟩ := M.ok_of_bind hchecked
    obtain ⟨_, s3, h3, hchecked⟩ := M.ok_of_bind hchecked
    obtain ⟨_, s4, h4, hchecked⟩ := M.ok_of_bind hchecked
    rw [M.bind_ok (M.get_run s4)] at hchecked
    obtain ⟨_, s5, h5, hchecked⟩ := M.ok_of_bind hchecked
    injection hchecked with _ hchecked
    rw [← hchecked, M.need_ok h5, M.need_ok h4, M.need_ok h3, M.need_ok h2]

/-- The address of an element of a dense handle. -/
theorem elemAddr_dense {rd : Reader} {h : Shape} {z : List Int} {p : Place} (ht : h.type = 0) (hp : denseElem h z = some p) (h0 : 0 ≤ p.a)
    (h52 : p.a < 2 ^ 52) : elemAddr rd h z s = .ok (some (p.a.toNat, p.j)) s := by
  have hplace : elemPlace rd h z s = .ok (some p) s := by
    unfold elemPlace
    cases hclip : clipCoords h.dims z with
    | none =>
      rw [denseElem, hclip] at hp
      cases hp
    | some xs =>
      dsimp only
      rw [if_pos ht, hp]
      rfl
  have hformed : formed p.a s = .ok p.a.toNat s := by
    unfold formed
    rw [if_pos (by simpa using ⟨h0, h52⟩)]
    rfl
  unfold elemAddr
  rw [M.bind_ok hplace]
  dsimp only
  rw [M.bind_ok hformed]
  rfl

variable {c : Cmd} {p : Place}

/-- The place in the destination of byte `out` of a stream. -/
def streamPlace (r : Run) (c : Cmd) (out : Nat) : List Int :=
  addCoords (coordsOf r.e c 132 (cpDncoord c)) (boxCoords (cpDest r c).extents (out / cpSize c))

/-- The decoder's source has a byte at a physical place (R313, R322). -/
def SourceAt (r : Run) (c : Cmd) (t : State) (pa i : Nat) : Prop :=
  (denseElem (cpSource r c) (addCoords (coordsOf r.e c 72 (cpNcoord c)) (boxCoords (cpSource r c).extents i))).bind
    (fun q => t.placeOf (t.ctxOf r.t) q.a.toNat) = some pa

/-- The decoder keeps the byte that a byte of the stream replaces (R322). -/
def DecState.keepOld (d : DecState) (out v : Nat) : DecState := { d with old := SMap.put d.old (out - d.startOut) v }

/-- A byte of the stream is written at its place, after the byte that it writes over is kept (R322). -/
theorem decWrite_ok {out b : Nat} (htype : (cpDest r c).type = 0) (hp : denseElem (cpDest r c) (streamPlace r c out) = some p)
    (h0 : 0 ≤ p.a) (h52 : p.a < 2 ^ 52) (hl : engineLeafIn (fun t => t = 0) r true true (p.a.toNat + out % cpSize c) s = .ok l t)
    (hhome : homeTile l.pa = r.t) (hclash : ∀ i < (cpSource r c).count, ¬ SourceAt r c t l.pa i) :
    ∃ f, decWrite r c out b s = .ok ()
      ((progressed r f (t.homeRead (some (t.ctxOf r.t)) l.pa 1).1).tileWrite r.t
        ((progressed r f (t.homeRead (some (t.ctxOf r.t)) l.pa 1).1).ctxOf r.t) l 1 b none) := by
  have haddr : elemAddr (directGet r true) (cpDest r c) (addCoords (coordsOf r.e c 132 (cpDncoord c))
      (boxCoords (cpDest r c).extents (out / cpSize c))) s = .ok (some (p.a.toNat, p.j)) s := elemAddr_dense htype hp h0 h52
  have hnone : (List.range (cpSource r c).count).any (fun i =>
      (denseElem (cpSource r c) (addCoords (coordsOf r.e c 72 (cpNcoord c)) (boxCoords (cpSource r c).extents i))).bind
        (fun p => t.placeOf (t.ctxOf r.t) p.a.toNat) = some l.pa) = false := by
    rw [List.any_eq_false]
    intro i hi
    rw [decide_eq_true_eq]
    exact hclash i (List.mem_range.1 hi)
  refine ⟨fun x => { x with dec := x.dec.keepOld out (t.homeRead (some (t.ctxOf r.t)) l.pa 1).2 }, ?_⟩
  unfold decWrite
  dsimp only
  rw [M.bind_ok haddr]
  dsimp only
  rw [M.bind_ok hl, hhome, M.bind_ok (show need (decide (r.t = r.t)) _ t = .ok () t by rw [decide_eq_true rfl, need_true]),
    M.bind_ok (M.get_run t), hnone, if_neg Bool.false_ne_true]
  rfl

/-- Where no line holds an upset the byte stands in memory then, and every other byte is as before. -/
theorem decWrite_bytes {out b : Nat} (hq : Quiet s) (hheld : s.held = []) (hst : Claims.Stored t l) (htype : (cpDest r c).type = 0)
    (hp : denseElem (cpDest r c) (streamPlace r c out) = some p) (h0 : 0 ≤ p.a) (h52 : p.a < 2 ^ 52)
    (hl : engineLeafIn (fun t => t = 0) r true true (p.a.toNat + out % cpSize c) s = .ok l t) (hhome : homeTile l.pa = r.t)
    (hclash : ∀ i < (cpSource r c).count, ¬ SourceAt r c t l.pa i) :
    ∃ u, decWrite r c out b s = .ok () u ∧ u.byte l.pa = BitVec.ofNat 8 b ∧ ∀ a, a ≠ l.pa → u.byte a = s.byte a := by
  obtain ⟨f, hrun⟩ := decWrite_ok (b := b) htype hp h0 h52 hl hhome hclash
  obtain ⟨hfit, hfar, -⟩ := hst
  have hsame := engineLeafIn_sameBytes hq hl
  have hgives : t.givesRead l.pa = true := by simp [State.givesRead, hfit, hfar]
  obtain ⟨hframe, hmem, -⟩ := State.homeRead_quiet (hsame.home.quiet hq) (some (t.ctxOf r.t)) 1 hgives
  have hkept := (hsame.trans ⟨hframe, hmem⟩).trans (modEntry_sameBytes _ r.t r.q r.e.seq (fun e => { e with prog := f e.prog }))
  have htakes : (progressed r f (t.homeRead (some (t.ctxOf r.t)) l.pa 1).1).takesWrite l.pa = true := by
    refine ((hframe.trans (modEntry_sameBytes _ r.t r.q r.e.seq (fun e => { e with prog := f e.prog })).home).takesWrite l.pa).trans ?_
    simp [State.takesWrite, hfit, hfar]
  obtain ⟨-, hbytes⟩ := State.homeWrite_quiet (hkept.home.quiet hq) (hkept.home.held.trans hheld)
    (some ((progressed r f (t.homeRead (some (t.ctxOf r.t)) l.pa 1).1).ctxOf r.t)) 1 b htakes
  refine ⟨_, hrun, (hbytes l.pa).trans (State.byte_setByte_self _ _ _), fun a ha => ?_⟩
  exact (hbytes a).trans ((State.byte_rawWrite_other _ _ _ _ _ (by omega)).trans (hkept.byte a))

end

end Sys2Proof.Machine
end

section
/-! `cp.dec`: what a step of it does, its ring units, its watchdog, and its blocks (R319 to R323). -/

namespace Sys2Proof.Machine

open Sys2Proof.Claims

/-- A copy of a decoder may work: no chunk waits for its writes, it is not cancelled, and it does not wait for a ring unit. -/
structure DecReady (r : Run) (c : Cmd) (s : State) : Prop where
  written : r.e.prog.written = false
  cancelled : r.e.prog.cancelled = false
  ring : ((s.tc r.t).token (cpTkr c)).waiters.contains .copy = false

/-- The progress of a decoder after a step of it. -/
def Progress.decoded (r : Run) (c : Cmd) (d : DecState) (p : Progress) : Progress :=
  { p with started := true, suspended := false, dec := { d with old := p.dec.old }, written := p.next < decDone r c d
           xlat := if d.out % 512 = 0 then [] else p.xlat
           seen := if d.out % 512 = 0 then [] else p.seen }

/-- A copy joins the waiters for a ring unit. -/
def TileCtx.waitRing (k : TileCtx) (c : Cmd) : TileCtx :=
  k.setToken (cpTkr c) { k.token (cpTkr c) with waiters := (k.token (cpTkr c)).waiters ++ [.copy] }

/-- A decoder decodes from a state of its own on, and may come to wait for a ring unit. -/
def decDecode (r : Run) (c : Cmd) (d0 : DecState) : M Unit := do
  let x ← decRun r c (decFuel r d0) d0
  setProgress r (Progress.decoded r c x.1)
  if x.2 then upd (fun s => s.modTc r.t (fun k => k.waitRing c))

/-- What a step of a decoder does: it goes on with the block that it is in, or enters the next one. -/
def decWork (r : Run) (c : Cmd) : M Unit :=
  if r.e.prog.dec.inBlock then pure r.e.prog.dec >>= decDecode r c else decHeader r c r.e.prog.dec >>= decDecode r c

section
variable {s t u v : State} {r : Run} {c : Cmd} {d0 d : DecState} {ring : Bool} {k : TileCtx} {code detail addr : Nat}

/-- What a step of a decoder does once the copy has started. -/
def decTail (r : Run) (c : Cmd) : M Bool := guardCopy r (decWork r c) >>= fun _ => need r.word.isNone .begun >>= fun _ => pure false

/-- A step of a decoder that may work starts the copy where that is to be done, then works on its blocks. -/
theorem decBody_ready (hs : CanStart 0xA3 c s r) (hr : DecReady r c s) :
    decBody c r s = (if !r.e.prog.started then cpStart .dec r c >>= fun _ => decTail r c else decTail r c) s := by
  obtain ⟨hwritten, hcancelled, hring⟩ := hr
  unfold decBody
  rw [M.bind_ok (M.get_run s), hwritten, hcancelled, running_of_canStart hs, hring]
  dsimp only
  rw [M.bind_ok (show need (!false && !false) _ s = .ok () s from rfl),
    M.bind_ok (show need (decide (CtxState.running = CtxState.running) || r.e.midChunk) _ s = .ok () s from rfl),
    M.bind_ok (show need (!false) _ s = .ok () s from rfl)]
  cases r.e.prog.started <;> rfl

theorem decBody_started (hs : CanStart 0xA3 c s r) (hr : DecReady r c s) (hstart : CopyStarts .dec r c s t) :
    decBody c r s = decTail r c t := by
  rw [decBody_ready hs hr]
  unfold CopyStarts at hstart
  cases hst : r.e.prog.started with
  | true =>
    rw [hst, if_pos rfl] at hstart
    subst hstart
    rfl
  | false =>
    rw [hst, if_neg Bool.false_ne_true] at hstart
    exact M.bind_ok hstart

/-- The decoder in a block, in the state in which it has come to it. -/
def Entered (r : Run) (c : Cmd) (t : State) (d0 : DecState) (u : State) : Prop :=
  if r.e.prog.dec.inBlock then d0 = r.e.prog.dec ∧ u = t else decHeader r c r.e.prog.dec t = .ok d0 u

theorem decWork_entered (h : Entered r c t d0 u) : decWork r c t = decDecode r c d0 u := by
  unfold Entered at h
  unfold decWork
  split at h
  · obtain ⟨rfl, rfl⟩ := h
    rw [if_pos ‹_›]
    rfl
  · rw [if_neg ‹_›, M.bind_ok h]

theorem decDecode_ok (hword : r.word = none) (h : decRun r c 513 d0 u = .ok (d, ring) v) : decDecode r c d0 u =
    .ok () (if ring then (progressed r (Progress.decoded r c d) v).modTc r.t (fun k => k.waitRing c)
      else progressed r (Progress.decoded r c d) v) := by
  have hrun : decRun r c (decFuel r d0) d0 u = .ok (d, ring) v := by rw [decFuel, hword]; exact h
  unfold decDecode
  rw [M.bind_ok hrun, M.bind_ok (setProgress_run _ v)]
  cases ring <;> rfl

theorem decDecode_fault {e : Exc} (hword : r.word = none) (h : decRun r c 513 d0 u = .error e v) : decDecode r c d0 u = .error e v := by
  have hrun : decRun r c (decFuel r d0) d0 u = .error e v := by rw [decFuel, hword]; exact h
  exact M.bind_error hrun

theorem guardCopy_ok {body : M Unit} (h : body t = .ok () u) : guardCopy r body t = .ok () u := by
  unfold guardCopy
  rw [h]

/-- A step of a decoder that decodes. -/
theorem exec_cpDec_ok (hs : CanStart 0xA3 c s r) (hr : DecReady r c s) (hstart : CopyStarts .dec r c s t) (henter : Entered r c t d0 u)
    (hrun : decRun r c 513 d0 u = .ok (d, ring) v) : exec (.cpDec c) s = .next (ongoing r (if ring then
      (progressed r (Progress.decoded r c d) v).modTc r.t (fun k => k.waitRing c) else progressed r (Progress.decoded r c d) v)) := by
  have hword := word_of_canStart hs
  refine runCommand_ok (fin := false) hs ?_
  have hwork := (decWork_entered henter).trans (decDecode_ok hword hrun)
  rw [decBody_started hs hr hstart, decTail]
  rw [M.bind_ok (guardCopy_ok hwork), hword]
  rfl

/-- A step of a decoder whose work faults. -/
theorem exec_cpDec_fault (hs : CanStart 0xA3 c s r) (hr : DecReady r c s) (hstart : CopyStarts .dec r c s t)
    (hwork : decWork r c t = .error (.fault code detail addr) v) :
    exec (.cpDec c) s = .next (faulted r code detail addr (v.spoil r code)) := by
  refine runCommand_fault hs ((decBody_started hs hr hstart).trans (M.bind_error ?_))
  unfold guardCopy
  rw [hwork]

/-- A decoder whose checks fault. -/
theorem exec_cpDec_refused (hs : CanStart 0xA3 c s r) (hr : DecReady r c s) (hst : r.e.prog.started = false)
    (hstart : cpStart .dec r c s = .error (.fault code detail addr) t) : exec (.cpDec c) s = .next (faulted r code detail addr t) := by
  refine runCommand_fault hs ?_
  rw [decBody_ready hs hr, hst]
  exact M.bind_error hstart

/-- A copy takes a ring unit that is there for it (R323). -/
theorem exec_ringUnitTake_takes (hrun : s.copyRun = some r) (htake : (s.tc r.t).take (cpTkr (cmdOfBits r.e.w)) 1 .copy = some k) :
    exec .ringUnitTake s = .next ((s.setTc r.t k).modEntry r.t 1 r.e.seq (fun e =>
      { e with prog := { e.prog with dec := { e.prog.dec with unit := true } } })) := by
  rw [exec_ringUnitTake, execRingUnitTake, hrun]
  dsimp only
  rw [htake]

/-- A block that reaches its cycle bound ends the copy (R322). -/
theorem exec_decoderWatchdog_late (hrun : s.copyRun = some r) (hop : field r.e.w 0 8 = 0xA3) (hin : r.e.prog.dec.inBlock = true)
    (hlate : hCyc r.e.prog.dec.header ≤ r.e.prog.dec.cycles) : exec .decoderWatchdog s = .next ((s.spoil r 0x12).modTc r.t (fun x =>
      x.recordFault r.q r.e 0x12 (r.e.prog.dec.blk % 256)
        ((s.copyDest r.t r.e (r.e.prog.dec.startOut / cpSize (cmdOfBits r.e.w))).getD 0) s.clk)) := by
  rw [exec_decoderWatchdog, execDecoderWatchdog, hrun]
  dsimp only
  rw [if_pos (by simp [hop, hin, hlate]), copyStep, decFault_run]

end

/-- Settles O47: a step of the decoder, its tables and codes, its headers, its faults, its bytes, and what they leave in memory. -/
theorem decoderResults : Obligations.DecoderResults := by
  unfold Obligations.DecoderResults
  refine ⟨?_, ?_, ?_, ?_, ?_, ?_⟩
  · intro s t u v c r d0 d ring k
    refine ⟨fun hs hw hc hring hstart henter hrun => exec_cpDec_ok hs ⟨hw, hc, hring⟩ hstart henter hrun,
      fun code detail addr hs hw hc hring => ⟨exec_cpDec_refused hs ⟨hw, hc, hring⟩, fun hstart hfault =>
        exec_cpDec_fault hs ⟨hw, hc, hring⟩ hstart ?_⟩, exec_ringUnitTake_takes, exec_decoderWatchdog_late⟩
    rcases hfault with ⟨hout, hheader⟩ | ⟨henter, hrun⟩
    · unfold decWork
      rw [hout, if_neg Bool.false_ne_true]
      exact M.bind_error hheader
    · exact (decWork_entered henter).trans (decDecode_fault (word_of_canStart hs) hrun)
  · intro h tb
    exact ⟨malformedBlock_iff h, tableOk_iff, fun n x => mem_symbolsOf, symbolsOf_rising tb, rfl, fun n hn => firstCode_succ hn⟩
  · intro s t u c r d h tb x y v
    refine ⟨fun e he => decHeader_error he, fun hh ht => ⟨fun hok => ?_, fun hbad => ?_⟩⟩
    · exact (decHeader_read hh ht).trans (by rw [show malformedBlock (d.enter h tb).header (d.enter h tb).table = false from hok]; rfl)
    · exact (decHeader_read hh ht).trans (by rw [show malformedBlock (d.enter h tb).header (d.enter h tb).table = true from hbad]; rfl)
  · intro s t c r d e b f n fails
    refine ⟨decSource_end, fun hk => ?_, ?_, bodyByte_end, bodyByte_inside,
      fun hn => ⟨fun hlate => (decRun_end hn).trans (M.bind_error (decEnd_late hlate)),
        fun hcyc hcrc => (decRun_end hn).trans (M.bind_error (decEnd_mismatch hcyc hcrc))⟩,
      fun hn hsym => ⟨decRun_full hn hsym, decRun_unit hn hsym⟩⟩
    · have hstored : hKind d.header ≠ 1 := by omega
      refine ⟨fun hend => ?_, fun hin hsrc => ?_⟩
      · exact (congrFun (nextSymbol_stored hstored) s).trans (M.bind_error (bodyByte_end hend))
      · exact (congrFun (nextSymbol_stored hstored) s).trans (M.bind_ok ((bodyByte_inside hin).trans hsrc))
    · intro at_ byte hk h0 code reads
      subst h0
      refine ⟨fun n k x htable hn hx hcode hreads => ?_, fun hmiss hreads => ?_⟩
      · have h12 : n ≤ 12 := by
          obtain ⟨hlt, hlen⟩ := mem_symbolsOf.1 (List.mem_of_getElem? hx)
          obtain ⟨hle, -, -⟩ := tableOk_iff.1 htable
          exact hlen ▸ hle x hlt
        exact (congrFun (nextSymbol_coded hk) _).trans (M.bind_ok (readCode_symbol hn h12 hx hcode hreads))
      · refine (congrFun (nextSymbol_coded hk) _).trans (M.bind_error (readCode_none (fun j h1 h2 hit => ?_) hreads))
        obtain ⟨hfirst, hlen⟩ := hit
        exact hmiss j _ h1 h2 hlen (show codeRead d.bit byte j = _ by omega)
  · intro s t u c r d e b f d' hn hout hunit hsym he hwrite
    obtain ⟨bit, rfl⟩ : ∃ n, e = { d with bit := n } := ⟨_, he⟩
    have hrun := decRun_byte (f := f) hn hsym hout hunit hwrite
    refine ⟨fun hend hcyc hcrc => ?_, fun hmore hin => ?_, fun hmore hchunk => ?_, fun hend hcyc hcrc => ?_⟩
    · rw [hrun, if_pos hend]
      exact M.bind_error (decEnd_mismatch (d := d.past { d with bit := bit } b) hcyc hcrc)
    · rw [hrun, if_neg hmore, if_neg hin]
      rfl
    · rw [hrun, if_neg hmore, if_pos hchunk]
      rfl
    · rw [hrun, if_pos hend]
      exact M.bind_ok (decEnd_verified (d := d.past { d with bit := bit } b) hcyc hcrc)
  · intro s t c r out b p l z htype hp h0 h52 hl hhome hclash hq hheld hst
    exact decWrite_bytes hq hheld hst htype hp h0 h52 hl hhome hclash

end Sys2Proof.Machine
end
